-- ==== Sys2Proof/Word.lean ====
section
/-!
DEFINITION. The word types of the Praemo: bytes, the 32-bit lane word and the 64-bit scalar and instruction word
(02 R28, 04 R74).
-/

/-- One byte of memory or scratch. -/
abbrev Sys2Proof.Byte := BitVec 8
/-- One lane of a vector register, a mask register or `em` (02 R28). -/
abbrev Sys2Proof.Word32 := BitVec 32
/-- A scalar register, a latch lane, a handle or an instruction word (02 R28, 04 R74). -/
abbrev Sys2Proof.Word64 := BitVec 64
/-- A 57-bit virtual byte address, held as a number (13 R339). -/
abbrev Sys2Proof.VAddr := Nat
/-- A 56-bit physical byte address, held as a number: bits [55:50] the package, bits [49:0] the local address (01 R15). -/
abbrev Sys2Proof.PAddr := Nat
/-- A word index of the code window, 0 to 2^29 - 1 (04 R74). -/
abbrev Sys2Proof.WordIndex := Nat
end

