-- ==== Sys2Proof/Syntax.lean ====
section
/-!
DEFINITION. The instruction set as syntax: the codes of the fields of a word, the operands of each of the six
classes and of the paired form (04 R75-R90), and ONE constructor for each row of spec/opcode_table.json. The rows
without an encoding are steps of the part outside its groups (spec/95). They have no operands of their own: what
arrives with such a step, or which of several waiting things takes it, stands in the state's `input` (State.lean).
-/
namespace Sys2Proof

/-- Type codes (04 Table 4.6). -/
inductive Ty where
  | n32 | i32 | n64 | i64 | n16 | i16 | n8 | i8 | n4 | i4 | f32 | f16 | bf16 | e4m3 | e5m2 | e2m1
  deriving DecidableEq, Repr

/-- Rounding modes (03 Table 3.3). -/
inductive Rnd where
  | rn | rz | rd | ru | rna | rs
  deriving DecidableEq, Repr

/-- Scope codes 0 to 7 of 04 Table 4.5; code 8 (`.dur`) is admitted by no instruction (06 R155). -/
inductive Scope where
  | grp | team | core | die | pkg | sq | sys | row
  deriving DecidableEq, Repr

/-- Order codes (04 Table 4.5). -/
inductive Order where
  | rlx | acq | rel | ar | sc
  deriving DecidableEq, Repr

/-- Width codes (04 Table 4.5). -/
inductive Width where
  | w8 | w16 | w32 | w64 | w128
  deriving DecidableEq, Repr

/-- Operands of class 000 (04 R75, Table 4.4). -/
structure VArgs where
  /-- destination number -/
  d : BitVec 10
  /-- first source number, or a latch number when `la` is set -/
  a : BitVec 10
  /-- second source number, or a latch number when `lb` is set -/
  b : BitVec 10
  la : Bool
  lb : Bool
  /-- no write-back -/
  nw : Bool
  ty : Ty
  rnd : Rnd
  ftz : Bool
  sat : Bool
  /-- the second type field, used by each instruction in its own way -/
  ty2 : BitVec 4
  sub : BitVec 3
  deriving DecidableEq, Repr

/-- Operands of class 001 (04 R80). -/
structure IArgs where
  d : BitVec 10
  a : BitVec 10
  la : Bool
  nw : Bool
  imm : BitVec 26
  deriving DecidableEq, Repr

/-- Operands of class 010 (04 R81, Table 4.5). -/
structure MArgs where
  d : BitVec 10
  a : BitVec 10
  b : BitVec 10
  /-- `LB`: `b` is an offset in units of the width -/
  off : Bool
  scope : Scope
  order : Order
  /-- `X[8:5]`: eviction [3:2], `.lu` [1], `.lur` [0]; or the instruction's operator or condition -/
  hint : BitVec 4
  /-- `X[4:3]`: service class, or the failure order of `CAS` -/
  svc : BitVec 2
  width : Width
  deriving DecidableEq, Repr

/-- Operands of class 011 (04 R83). -/
structure BArgs where
  d : BitVec 10
  a : BitVec 10
  off : BitVec 26
  deriving DecidableEq, Repr

/-- Operands of class 100 (04 R84, Table 4.7). -/
structure TArgs where
  d : BitVec 10
  a : BitVec 10
  b : BitVec 10
  tmap : BitVec 4
  rnd : Rnd
  ftz : Bool
  op : BitVec 8
  deriving DecidableEq, Repr

/-- Operands of class 101 (04 R85). -/
structure SArgs where
  d : BitVec 10
  a : BitVec 10
  b : BitVec 10
  imm : BitVec 16
  deriving DecidableEq, Repr

/-- Slot operations of the paired form, in opcode order from 0x00 (04 Table 4.9). -/
inductive SlotOp where
  | iadd | isub | imul | imulh | iadds | imin | imax | iabs | ineg
  | land | lor | lxor | landn | lnot | shl | shr | sar | rot
  | popc | clz | brev | mov
  | fadd | fsub | fmul | fmin | fmax | fabs | fneg
  | frcp | frsq | fsqrt | fex2 | flg2 | ftanh | frnd | fscale | fclass
  | hadd2 | hmul2
  deriving DecidableEq, Repr

/-- One slot of a paired word (04 Table 4.8). -/
structure Slot where
  op : SlotOp
  d : BitVec 8
  a : BitVec 8
  la : Bool
  nw : Bool
  mode : BitVec 4
  deriving DecidableEq, Repr

/-- The two slots of a paired word (04 R86). -/
structure PArgs where
  slotA : Slot
  slotB : Slot
  deriving DecidableEq, Repr

/-- Causes of `ILLEGAL_INSTR` (04 Table 4.12), numbered from 1. -/
inductive Cause where
  | unassigned | badClass | badCode | strayBit | badRegister | wrongStream | latchMisuse | privilege
  deriving DecidableEq, Repr

/-- One constructor for each row of spec/opcode_table.json, in its order. -/
inductive Instr where
  /-- R87: Issues two short slot operations together in one paired word, reading registers and latches as they stood before the pair. -/
  | pairedWord (p : PArgs)
  /-- R110: Adds two 32-bit registers per lane, wrapping modulo 2^32. -/
  | iadd (a : VArgs)
  /-- R111: Adds a sign-extended 26-bit immediate to a register per lane. -/
  | iaddImm (a : IArgs)
  /-- R110: Subtracts two 32-bit registers per lane, wrapping. -/
  | isub (a : VArgs)
  /-- R111: Subtracts a sign-extended immediate from a register per lane. -/
  | isubImm (a : IArgs)
  /-- R110: Adds with carry in and carry out through a mask register. -/
  | iaddc (a : VArgs)
  /-- R110: Adds with saturation to the type's range. -/
  | iadds (a : VArgs)
  /-- R110: Multiplies two registers, keeping the low 32 bits. -/
  | imul (a : VArgs)
  /-- R111: Multiplies a register by a sign-extended immediate. -/
  | imulImm (a : IArgs)
  /-- R110: Writes the high 32 bits of the exact product. -/
  | imulh (a : VArgs)
  /-- R110: Multiplies and adds D, keeping the low 32 bits. -/
  | imad (a : VArgs)
  /-- R110: Divides truncating towards zero, with fixed results for zero divisors. -/
  | idiv (a : VArgs)
  /-- R110: Writes the remainder of the truncating division. -/
  | irem (a : VArgs)
  /-- R110: Writes the smaller of two registers. -/
  | imin (a : VArgs)
  /-- R111: Writes the smaller of a register and an immediate. -/
  | iminImm (a : IArgs)
  /-- R110: Writes the larger of two registers. -/
  | imax (a : VArgs)
  /-- R111: Writes the larger of a register and an immediate. -/
  | imaxImm (a : IArgs)
  /-- R110: Writes the absolute value, optionally saturating. -/
  | iabs (a : VArgs)
  /-- R110: Writes the negation, optionally saturating. -/
  | ineg (a : VArgs)
  /-- R110: Compares two integers per lane into a mask bit. -/
  | icmp (a : VArgs)
  /-- R110: Selects A or B per lane by a mask bit. -/
  | isel (a : VArgs)
  /-- R110: Clamps D between A and B. -/
  | iclamp (a : VArgs)
  /-- R110: Adds the absolute difference, or bytewise sum of differences, to D. -/
  | isad (a : VArgs)
  /-- R110: Adds 64-bit register pairs. -/
  | iadd64 (a : VArgs)
  /-- R110: Subtracts 64-bit register pairs. -/
  | isub64 (a : VArgs)
  /-- R110: Multiplies 64-bit register pairs, keeping the low 64 bits. -/
  | imul64 (a : VArgs)
  /-- R110: Forms a 57-bit address from a pair plus a shifted signed index. -/
  | aadd (a : VArgs)
  /-- R110: Forms a 57-bit address from a scalar plus a shifted signed index. -/
  | alea (a : VArgs)
  /-- R110: Writes a 16-bit immediate into one half of D, keeping the other half. -/
  | imovw (a : IArgs)
  /-- R113: Bitwise AND of two registers. -/
  | and (a : VArgs)
  /-- R113: Bitwise AND with a zero-extended immediate. -/
  | andImm (a : IArgs)
  /-- R113: Bitwise OR of two registers. -/
  | or (a : VArgs)
  /-- R113: Bitwise OR with a zero-extended immediate. -/
  | orImm (a : IArgs)
  /-- R113: Bitwise XOR of two registers. -/
  | xor (a : VArgs)
  /-- R113: Bitwise XOR with a zero-extended immediate. -/
  | xorImm (a : IArgs)
  /-- R113: Writes A AND NOT B. -/
  | andn (a : VArgs)
  /-- R113: Writes A AND NOT a zero-extended immediate. -/
  | andnImm (a : IArgs)
  /-- R113: Writes the bitwise complement of A. -/
  | not (a : VArgs)
  /-- R113: Shifts left by a register count. -/
  | shl (a : VArgs)
  /-- R113: Shifts left by an immediate count 0-31. -/
  | shlImm (a : IArgs)
  /-- R113: Shifts right logically by a register count. -/
  | shr (a : VArgs)
  /-- R113: Shifts right logically by an immediate count. -/
  | shrImm (a : IArgs)
  /-- R113: Shifts right arithmetically by a register count. -/
  | sar (a : VArgs)
  /-- R113: Shifts right arithmetically by an immediate count. -/
  | sarImm (a : IArgs)
  /-- R113: Rotates left by a register count. -/
  | rot (a : VArgs)
  /-- R113: Rotates left by an immediate count. -/
  | rotImm (a : IArgs)
  /-- R113: Funnel-shifts D:A left. -/
  | fshl (a : VArgs)
  /-- R113: Funnel-shifts A:D right. -/
  | fshr (a : VArgs)
  /-- R114: Extracts a bit field, zero- or sign-extended. -/
  | bfx (a : VArgs)
  /-- R114: Inserts low bits of A into a field of D. -/
  | bfi (a : VArgs)
  /-- R113: Counts set bits. -/
  | popc (a : VArgs)
  /-- R113: Counts leading zeros. -/
  | clz (a : VArgs)
  /-- R113: Reverses the bit order. -/
  | brev (a : VArgs)
  /-- R115: Builds each result byte from selectors in D over the bytes of A and B. -/
  | bytx (a : VArgs)
  /-- R117: Adds two FP32 values, rounded once. -/
  | fadd (a : VArgs)
  /-- R117: Subtracts two FP32 values, rounded once. -/
  | fsub (a : VArgs)
  /-- R117: Multiplies two FP32 values, rounded once. -/
  | fmul (a : VArgs)
  /-- R117: Fused multiply-add of A, B and D, rounded once. -/
  | ffma (a : VArgs)
  /-- R118: Writes the smaller FP32 operand with NaN rules. -/
  | fmin (a : VArgs)
  /-- R118: Writes the larger FP32 operand with NaN rules. -/
  | fmax (a : VArgs)
  /-- R118: Clears the sign bit. -/
  | fabs (a : VArgs)
  /-- R118: Inverts the sign bit. -/
  | fneg (a : VArgs)
  /-- R119: Compares FP32 values per lane into a mask bit. -/
  | fcmp (a : VArgs)
  /-- R120: Writes a one-hot class of the FP32 input. -/
  | fclass (a : VArgs)
  /-- R121: Writes the correctly rounded reciprocal. -/
  | frcp (a : VArgs)
  /-- R121: Writes the correctly rounded reciprocal square root. -/
  | frsq (a : VArgs)
  /-- R117: Writes the correctly rounded square root. -/
  | fsqrt (a : VArgs)
  /-- R117: Writes the correctly rounded quotient. -/
  | fdiv (a : VArgs)
  /-- R121: Writes 2^a, rounded once. -/
  | fex2 (a : VArgs)
  /-- R121: Writes log2 a, rounded once. -/
  | flg2 (a : VArgs)
  /-- R121: Writes tanh a, rounded once. -/
  | ftanh (a : VArgs)
  /-- R122: Rounds to an integral FP32 value by the mode. -/
  | frnd (a : VArgs)
  /-- R122: Writes a × 2^b, rounded. -/
  | fscale (a : VArgs)
  /-- R123: Adds two packed FP16 or BF16 pairs. -/
  | hadd2 (a : VArgs)
  /-- R123: Multiplies two packed FP16 or BF16 pairs. -/
  | hmul2 (a : VArgs)
  /-- R123: Fused multiply-add on packed FP16 or BF16 pairs. -/
  | hfma2 (a : VArgs)
  /-- R124: Adds a two-element dot product into an FP32 D. -/
  | hdot2 (a : VArgs)
  /-- R131: Scaled four-element E4M3 dot product accumulated into FP32. -/
  | dot4E4m3 (a : VArgs)
  /-- R131: Scaled four-element E5M2 dot product accumulated into FP32. -/
  | dot4E5m2 (a : VArgs)
  /-- R132: Four-element INT8 dot product, scaled FP32 or unscaled integer. -/
  | dot4I8 (a : VArgs)
  /-- R131: Scaled eight-element E2M1 dot product accumulated into FP32. -/
  | dot8E2m1 (a : VArgs)
  /-- R132: Eight-element INT4 dot product, scaled FP32 or unscaled integer. -/
  | dot8I4 (a : VArgs)
  /-- R126: Converts one source element between formats. -/
  | cvt (a : VArgs)
  /-- R127: Computes the block scale byte over the active lanes. -/
  | qblk (a : VArgs)
  /-- R128: Quantises eight FP32 registers into packed 4-bit elements. -/
  | qpack4 (a : VArgs)
  /-- R128: Quantises four FP32 registers into packed 8-bit elements. -/
  | qpack8 (a : VArgs)
  /-- R129: Dequantises one packed element with a scale to FP32. -/
  | qunpk (a : VArgs)
  /-- R134: Copies a register or pair. -/
  | mov (a : VArgs)
  /-- R134: Writes a sign-extended immediate. -/
  | movi (a : IArgs)
  /-- R134: Broadcasts a scalar into a vector register or pair. -/
  | movs (a : VArgs)
  /-- R134: Reads one lane of a vector into a scalar. -/
  | rdlane (a : IArgs)
  /-- R134: Writes a scalar into one lane of a vector. -/
  | wrlane (a : IArgs)
  /-- R135: Exchanges values between lanes with a register count. -/
  | shfl (a : VArgs)
  /-- R135: Exchanges values between lanes with an immediate count. -/
  | shflImm (a : IArgs)
  /-- R136: Combines a lane predicate into one scalar by mode. -/
  | vote (a : VArgs)
  /-- R137: Writes per lane the mask of lanes holding equal values. -/
  | matchV (a : VArgs)
  /-- R138: Reduces A over active lanes into a scalar. -/
  | redux (a : VArgs)
  /-- R138: Writes inclusive or exclusive prefix combinations over lanes. -/
  | scan (a : VArgs)
  /-- R140: Sets a range of mask bits, optionally inverted. -/
  | mset (a : IArgs)
  /-- R140: Moves between masks and scalars. -/
  | mmov (a : VArgs)
  /-- R140: ANDs two masks. -/
  | mand (a : VArgs)
  /-- R140: ORs two masks. -/
  | mor (a : VArgs)
  /-- R140: XORs two masks. -/
  | mxor (a : VArgs)
  /-- R140: Complements a mask. -/
  | mnot (a : VArgs)
  /-- R140: Counts set bits of a mask into a scalar. -/
  | mpopc (a : VArgs)
  /-- R140: Writes the index of the lowest set mask bit. -/
  | mffs (a : VArgs)
  /-- R141: Copies a scalar. -/
  | smov (a : VArgs)
  /-- R141: Writes a sign-extended immediate to a scalar. -/
  | smovi (a : IArgs)
  /-- R141: Adds two scalars modulo 2^64. -/
  | sadd (a : VArgs)
  /-- R141: Adds a sign-extended immediate to a scalar. -/
  | saddImm (a : IArgs)
  /-- R141: Subtracts two scalars. -/
  | ssub (a : VArgs)
  /-- R141: Subtracts an immediate from a scalar. -/
  | ssubImm (a : IArgs)
  /-- R141: Multiplies two scalars, low 64 bits. -/
  | smul (a : VArgs)
  /-- R141: Multiplies a scalar by an immediate. -/
  | smulImm (a : IArgs)
  /-- R141: Bitwise AND of scalars. -/
  | sand (a : VArgs)
  /-- R141: Bitwise AND of a scalar with an immediate. -/
  | sandImm (a : IArgs)
  /-- R141: Bitwise OR of scalars. -/
  | sor (a : VArgs)
  /-- R141: Bitwise OR of a scalar with an immediate. -/
  | sorImm (a : IArgs)
  /-- R141: Bitwise XOR of scalars. -/
  | sxor (a : VArgs)
  /-- R141: Bitwise XOR of a scalar with an immediate. -/
  | sxorImm (a : IArgs)
  /-- R141: Shifts a scalar left by a scalar count. -/
  | sshl (a : VArgs)
  /-- R141: Shifts a scalar left by an immediate count. -/
  | sshlImm (a : IArgs)
  /-- R141: Shifts a scalar right, logical or arithmetic by type. -/
  | sshr (a : VArgs)
  /-- R141: Shifts a scalar right logically by an immediate count. -/
  | sshrImm (a : IArgs)
  /-- R141: Compares two scalars into 0 or 1. -/
  | scmp (a : VArgs)
  /-- R152: Reads a group control register. -/
  | crd (a : SArgs)
  /-- R152: Writes a group control register, with wbase writes spilling and filling the window. -/
  | cwr (a : SArgs)
  /-- R143: Branches all lanes at the issue address to the target. -/
  | bra (a : BArgs)
  /-- R143: Branches each executing lane by a mask bit. -/
  | brc (a : BArgs)
  /-- R143: Branches all lanes at the issue address on a scalar test. -/
  | bru (a : BArgs)
  /-- R143: Branches each executing lane to a per-lane word index. -/
  | brx (a : SArgs)
  /-- R38: Slides the register window, spills, and branches to a label. -/
  | call (a : BArgs)
  /-- R38: Slides the register window, spills, and branches to a scalar target. -/
  | callx (a : SArgs)
  /-- R39: Reverses the window slide from the spill area and returns. -/
  | ret (a : SArgs)
  /-- R145: Makes executing lanes not live, ending the group when none remain. -/
  | exit (a : SArgs)
  /-- R147: Tests a memory word or handle per lane and parks lanes whose condition fails. -/
  | park (a : SArgs)
  /-- R149: Advances lanes and holds the group until others have issued or 32 slots pass. -/
  | yield (a : SArgs)
  /-- R150: Declares the next n words a loop body for the loop buffer. -/
  | loopb (a : SArgs)
  /-- R93: Advances lpc and ends the latch chain. -/
  | nop (a : SArgs)
  /-- R160: Loads memory per lane with order, scope and hints. -/
  | ld (a : MArgs)
  /-- R160: Stores per lane to memory with order, scope and hints. -/
  | st (a : MArgs)
  /-- R163: Loads from scratch, leaving full/empty bits. -/
  | lds (a : MArgs)
  /-- R163: Stores to scratch, leaving full/empty bits. -/
  | sts (a : MArgs)
  /-- R164: Loads a full scratch granule, optionally clearing it, or parks. -/
  | ldf (a : MArgs)
  /-- R164: Stores to a scratch granule and sets it full. -/
  | stf (a : MArgs)
  /-- R166: Sets the full bits of a scratch range. -/
  | feset (a : SArgs)
  /-- R166: Clears the full bits of a scratch range. -/
  | feclr (a : SArgs)
  /-- R167: Looks up a tag in the team's tag table. -/
  | tlook (a : VArgs)
  /-- R167: Inserts a tag for a scratch slot. -/
  | tins (a : VArgs)
  /-- R167: Invalidates the tag-table entry holding a tag. -/
  | tdrop (a : VArgs)
  /-- R169: Brings lines into L1 or L2 with a priority. -/
  | pref (a : MArgs)
  /-- R170: Removes lines from near caches, writing back or discarding dirty bytes. -/
  | drop (a : MArgs)
  /-- R190: Multicast store to the replicas of a multicast group entry. -/
  | stm (a : MArgs)
  /-- R191: Writes a multicast group table entry after old copies leave egress. -/
  | mctw (a : SArgs)
  /-- R171: Performs an atomic read-modify-write per lane. -/
  | atom (a : MArgs)
  /-- R172: Performs a compare-and-swap per lane. -/
  | cas (a : MArgs)
  /-- R175: Sends a row update to the owning Kiosk. -/
  | rowop (a : MArgs)
  /-- R175: Reads a row through the owning Kiosk. -/
  | rowld (a : MArgs)
  /-- R178: Locks up to eight words' lines, compares all and writes all if equal. -/
  | mcas (a : TArgs)
  /-- R183: Sends a pointer-chasing packet per lane through the Kiosks. -/
  | chase (a : TArgs)
  /-- R186: Resumes faulted chase lanes from their fault marks. -/
  | chaser (a : TArgs)
  /-- R187: Enqueues nodes on a list head through a Kiosk. -/
  | kenq (a : TArgs)
  /-- R187: Dequeues nodes from a list head through a Kiosk. -/
  | kdeq (a : TArgs)
  /-- R189: Runs an installed recipe over FP32 arrays chunk by chunk in the Kiosks. -/
  | kvup (a : TArgs)
  /-- R188: Installs a recipe in a slot of all twelve Kiosks. -/
  | krcp (a : TArgs)
  /-- R193: Orders the group's accesses by order and scope. -/
  | fence (a : MArgs)
  /-- R196: Discards the loop buffer and prefetched words. -/
  | isync (a : SArgs)
  /-- R195: Releases stores and invalidates instruction caches over a range. -/
  | icinv (a : SArgs)
  /-- R197: Writes cached SCM granules into the persist queue. -/
  | pwb (a : MArgs)
  /-- R198: Waits until earlier SCM stores, and optionally stripe fragments, are durable. -/
  | pbar (a : SArgs)
  /-- R199: Advances the context's step once if it equals the operand. -/
  | step (a : SArgs)
  /-- R200: Atomically adds to a signal, sending a zero notice on reaching zero. -/
  | sigadd (a : MArgs)
  /-- R200: Atomically subtracts from a signal, sending a zero notice on reaching zero. -/
  | sigdec (a : MArgs)
  /-- R201: Reads a signal and parks the active lanes until a condition holds. -/
  | sigwait (a : MArgs)
  /-- R207: Loads a tensor-map record from memory or scratch. -/
  | tmld (a : TArgs)
  /-- R207: Stores a tensor-map record to memory or scratch. -/
  | tmst (a : TArgs)
  /-- R207: Sets one word of a tensor-map record. -/
  | tmset (a : TArgs)
  /-- R207: Reads a map's amax. -/
  | amaxrd (a : TArgs)
  /-- R207: Clears a map's amax to +0.0. -/
  | amaxclr (a : TArgs)
  /-- R207: Reads a map's orig, optionally clearing it. -/
  | origrd (a : TArgs)
  /-- R214: Copies a tile between its tensor and scratch. -/
  | acopy (a : TArgs)
  /-- R215: Copies a byte range between memory and scratch. -/
  | acopyr (a : TArgs)
  /-- R216: Fills a range with a 32-bit pattern. -/
  | afill (a : TArgs)
  /-- R217: Reduces a scratch tile into its tensor element by element. -/
  | areduce (a : TArgs)
  /-- R218: Fills a tile from tensor rows named by an index list. -/
  | agather (a : TArgs)
  /-- R212: Waits for a future and acquires its operation. -/
  | fwait (a : TArgs)
  /-- R212: Tests a future without blocking. -/
  | ftest (a : TArgs)
  /-- R212: Cancels unstarted copy units of a copy-engine future. -/
  | fcancel (a : TArgs)
  /-- R212: Waits until a context's timeline reaches a value. -/
  | tlwait (a : TArgs)
  /-- R212: Reads a timeline value or a handle into a scalar. -/
  | tlrd (a : TArgs)
  /-- R219: Starts the quarter's matrix sequencer on a stream. -/
  | mfork (a : BArgs)
  /-- R219: Waits for the quarter's latest stream to end. -/
  | mjoin (a : TArgs)
  /-- R220: Arrives at a numbered barrier. -/
  | nbara (a : TArgs)
  /-- R220: Waits on a numbered barrier's phase. -/
  | nbarw (a : TArgs)
  /-- R224: Loads a map's view into the shadow stationary plane. -/
  | ldstat (a : TArgs)
  /-- R224: Exchanges the active and shadow planes. -/
  | swaps (a : TArgs)
  /-- R226: Streams a map's rows past the active plane into an accumulator. -/
  | mma (a : TArgs)
  /-- R227: Computes dual products into two accumulators. -/
  | mmad (a : TArgs)
  /-- R228: Clears selected accumulator tiles. -/
  | aclr (a : TArgs)
  /-- R228: Loads a scratch tile into an accumulator. -/
  | ald (a : TArgs)
  /-- R229: Writes an accumulator through a map into scratch in chunks. -/
  | drain (a : TArgs)
  /-- R229: Quantises and writes an accumulator with block scales. -/
  | drainq (a : TArgs)
  /-- R220: Sequencer arrival at a numbered barrier after earlier work completes. -/
  | mbarArr (a : TArgs)
  /-- R220: Sequencer wait on a numbered barrier's phase. -/
  | mbarWait (a : TArgs)
  /-- R230: Ends the stream and completes its handle. -/
  | mexit (a : TArgs)
  /-- R232: Arrives at and waits on the team barrier. -/
  | bar (a : SArgs)
  /-- R232: Arrives at the team barrier and returns the phase. -/
  | bara (a : SArgs)
  /-- R232: Waits until the team barrier phase changes. -/
  | barw (a : SArgs)
  /-- R233: Barrier over every group of the gang at die or package level. -/
  | gbar (a : SArgs)
  /-- R235: Appends a continuation record to a spawn queue. -/
  | spawn (a : SArgs)
  /-- R238: Fixes the gang's successor and ends the group. -/
  | handoff (a : SArgs)
  /-- R237: Makes every live lane not live and ends the group. -/
  | retire (a : SArgs)
  /-- R241: Starts or joins the step image of the ending step. -/
  | snap (a : TArgs)
  /-- R242: Queries the state of a step image. -/
  | snapq (a : SArgs)
  /-- R244: Performs this package's part of rebuilding a lost package. -/
  | rbld (a : TArgs)
  /-- R243: Encodes and sends this package's parity contributions of an image. -/
  | stripe (a : TArgs)
  /-- R246: Raises USER_TRAP precisely. -/
  | trap (a : SArgs)
  /-- R246: Posts an event to the control node as a system-scope release. -/
  | event (a : SArgs)
  /-- R246: Reads clocks since package reset. -/
  | rdtime (a : SArgs)
  /-- R247: Reads a context or placement value by selector. -/
  | prd (a : SArgs)
  /-- R358: Returns from a trap, restoring the save set. -/
  | eret (a : SArgs)
  /-- R249: Invalidates a context's translations over a range at a scope. -/
  | tlbinv (a : TArgs)
  /-- R250: Walks a context's tables without side effects. -/
  | xlate (a : SArgs)
  /-- R251: Pre-empts a named gang and waits for its save. -/
  | preempt (a : SArgs)
  /-- R445: Writes a power register and returns its old value. -/
  | pwr (a : SArgs)
  /-- R95: Issue of a word that is not an instruction, such as an unassigned opcode, a zeroed word or an illegal matrix-stream word, raises ILLEGAL_INSTR precisely with its cause. -/
  | illegalInstr (word : Word64) (cause : Cause)
  /-- R442: Verifies and applies a configuration record. -/
  | cfgLoad
  /-- R444: Returns a signed attestation report using the next LMS leaf. -/
  | attest
  /-- R440: Reads one control register for the control node. -/
  | regRead
  /-- R440: Writes one control register that has no behaviour of its own. -/
  | regWrite
  /-- R440: Creates a context, killing and replacing any living one of that identifier. -/
  | ctxCreate
  /-- R364: Kills a context, removing its gangs and dropping its queued work. -/
  | ctxKill
  /-- R440: Writes step of a context with no resident gang. -/
  | ctxStep
  /-- R448: Performs a package reset and reruns boot from self-test. -/
  | reset
  /-- R368: Write to a queue's notify register advancing tail or making the queue eligible. -/
  | queueNotify
  /-- R367: Write to a queue's config that enables, binds or unbinds the queue. -/
  | queueConfigWrite
  /-- R325: Write of apply to the plan control register, checking and applying channel plan entries. -/
  | planApply
  /-- R315: Write of zero to a miss, replica-lag or error count counter clears it. -/
  | counterClear
  /-- R392: Write to the snapshot control word, checking and performing enable or disable. -/
  | snapshotControlWrite
  /-- R424: Write of retire to an HBM stack command register starting channel retirement. -/
  | channelRetire
  /-- R422: Control node write of the error ring head, re-arming the overflow event. -/
  | errorRingHeadWrite
  /-- R445: Write of a power selector register through the control port, clamping the cap. -/
  | powerCapWrite
  /-- R424: Moves one new stripe into the 30+1 layout and lowers the watermark. -/
  | migrateStripe
  /-- R147: Re-evaluates parked lanes when a write to their word's line is performed at its home slice. -/
  | parkWriteEvaluation
  /-- R147: Re-evaluates a parked lane's condition at least every 4096 clocks. -/
  | parkPeriodicEvaluation
  /-- R201: Re-evaluates a parked SIGWAIT when a write to the signal's line is performed. -/
  | sigwaitWriteEvaluation
  /-- R201: Re-evaluates a parked SIGWAIT at least every 4096 clocks. -/
  | sigwaitPeriodicEvaluation
  /-- R286: Writes back a dirty L1 line within 4096 clocks of it becoming dirty. -/
  | l1DirtyWriteback
  /-- R286: Drops a clean L1 line within 4096 clocks of its fill. -/
  | l1CleanDrop
  /-- R369: Every 4096 clocks swaps an outranking inactive queue into an active slot. -/
  | mapperRebalance
  /-- R370: Re-evaluates readiness of window records at least every 4096 clocks. -/
  | readinessPeriodicEvaluation
  /-- R371: A candidate that has waited 2^20 clocks becomes reserving. -/
  | candidateReserving
  /-- R373: Admits a ready fitting record: re-reads the counter, checks, consumes and loads team state. -/
  | taskAdmission
  /-- R376: At the end of a slice the scheduler picks victims for a reserving candidate. -/
  | timeSliceExpiry
  /-- R360: Saves a stopped gang's state once in-flight work has settled. -/
  | preemptionSave
  /-- R362: Restores a saved gang on chosen cores and evaluates parked lanes. -/
  | gangResume
  /-- R236: Retires a team after its last group ends, its streams end and its side log drains. -/
  | teamRetirement
  /-- R268: Admits the fixed successor in the same cores, applying starter blocks and scrubbing. -/
  | successorAdmission
  /-- R347: Handles a page reply, re-walking waiters or delivering failures. -/
  | pageReply
  /-- R213: The copy engine moves one unit of a copy operation, completing the future after the last. -/
  | copyUnit
  /-- R184: A Kiosk performs one step of a chase packet, forwarding or replying. -/
  | chaseStep
  /-- R187: A Kiosk performs one enqueue or dequeue step on a list head. -/
  | kioskListStep
  /-- R175: A Kiosk performs one row operation as an indivisible event. -/
  | rowStep
  /-- R189: A Kiosk runs the recipe over one 64-byte chunk. -/
  | kvupChunk
  /-- R188: A Kiosk installs a recipe in the context's slot. -/
  | recipeInstall
  /-- R398: The snapshot engine copies one region line into the forming image and marks it. -/
  | imageLineCopy
  /-- R305: A persist queue accepts a write, making it durable. -/
  | persistAccept
  /-- R306: A persist queue drains an accepted entry to the stack in order. -/
  | persistDrain
  /-- R404: A holder applies or refuses a parity contribution for a step. -/
  | stripeContribution
  /-- R408: The replacement accepts and counts a rebuild product into slot 0. -/
  | rebuildContribution
  /-- R395: Supply below hold-up: stop accepting, drain queues and power down. -/
  | powerLoss
  /-- R448: Return of power causes a package reset and boot. -/
  | powerReturn
  /-- R446: Every 1 ms the firmware compares power with the cap and adjusts throttle. -/
  | powerControlTick
  /-- R447: A die at 95 C or out-of-limit coolant posts THERMAL_LIMIT and throttles. -/
  | thermalLimit
  /-- R447: A die at 110 C stops issue, drains the persist queues and resets. -/
  | thermalTrip
  /-- R421: A memory stack at its temperature limit enters a hold. -/
  | stackThermalHold
  /-- R421: A held stack cools and resumes, posting a kind 0x0D record. -/
  | stackThermalRelease
  /-- R421: A hold lasting 10 ms posts the event TEMP_HOLD. -/
  | tempHold
  /-- R420: A row counter at 4000 at precharge refreshes neighbouring rows and resets. -/
  | rowActivationRefresh
  /-- R425: Scrub reads the next line and writes back a corrected value. -/
  | patrolScrub
  /-- R314: A channel scheduler serves its next request by age, class and deadline. -/
  | memoryRequestService
  /-- R331: A receiver's failed run check causes a resend from the run's first flit. -/
  | linkRunRetry
  /-- R331: After 16 failed resends a link is declared down and its packets resent elsewhere. -/
  | linkDown
  /-- R327: A laser trains with its receiver, or fails and posts FABRIC_LINK_DOWN. -/
  | linkTraining
  /-- R328: A laser whose sent flits are acknowledged retunes for 100 ns. -/
  | laserRetune
  /-- R332: A packet waiting 10 ms with no link fails back and the peer becomes known unreachable. -/
  | peerUnreachable
  /-- R330: A received class 0 request packet is served at its home slice. -/
  | fabricRequest
  /-- R330: A received class 2 response completes the request of its tag. -/
  | fabricResponse
  /-- R24: A received class 5 copy-engine packet is served as a memory access. -/
  | copyEnginePacket
  /-- R336: Egress sends one multicast copy to a member using the snapshot entry. -/
  | multicastCopy
  /-- R337: A replica's Kiosk applies an STM.row update, forwarding it at the home replica. -/
  | multicastRowUpdate
  /-- R286: The owning package's acknowledgement of a performed remote write arrives. -/
  | remoteWriteAck
  /-- R354: A package within the scope performs a TLBINV and reports completion. -/
  | tlbInvalidateMessage
  /-- R23: A failed control port posts an event and traffic moves to the other port. -/
  | controlPortFailure
  /-- R304: A write from the control node into the part's memory is performed. -/
  | controlNodeMemoryWrite
  /-- R246: The control port delivers a posted event, freeing room for EVENT. -/
  | eventDelivery
  /-- R320: Home serves a read-shared request. -/
  | gets
  /-- R320: Home serves a read-exclusive request. -/
  | getm
  /-- R320: Home serves an upgrade, granting UpgAck or serving it as GetM. -/
  | upg
  /-- R322: Home serves a clean eviction. -/
  | pute
  /-- R322: Home serves an owned eviction carrying dirty data. -/
  | puto
  /-- R322: Home serves a modified eviction carrying dirty data. -/
  | putm
  /-- R321: An agent drops its copy and acknowledges. -/
  | invMsg
  /-- R321: An owner sends the line to a requester, keeping a copy. -/
  | fwds
  /-- R321: An owner sends the line to a requester and drops its copy. -/
  | fwdm
  /-- R321: An agent receives the line and performs its waiting access. -/
  | dataMsg
  /-- R320: An agent receives permission to write a line it holds. -/
  | upgack
  /-- R320: Home collects an invalidation acknowledgement. -/
  | invack
  /-- R321: An agent frees its write-back buffer. -/
  | putack
  /-- R320: Home ends a forwarded transfer and leaves busy. -/
  | doneMsg
  /-- R323: A home slice takes a line locked for a Kiosk step or MCAS after recalling copies. -/
  | lineLock
  /-- R360: A control-node command pre-empts a gang, stopping its groups at the points R35 allows before the save. -/
  | preemptCommand
  /-- R190: A member package receives a multicast copy of an STM under square scope and performs it as a plain store at its replica. -/
  | multicastReplicaWrite
  /-- R409: A survivor's snapshot engine forms and sends one rebuild product to the replacement, or restores one region line from the image of s. -/
  | survivorRebuildWork
  deriving DecidableEq, Repr

end Sys2Proof
end

