-- ==== Sys2Proof/Decode.lean ====
section
/-!
DEFINITION. The words of the instruction set: the codes of each field (04 Tables 4.2-4.9), the fields of a full-form
word, one row per opcode and class with what each of its fields admits (04 Table 4.11 and the tables of 05, 06 and 07),
the decoder, which refuses a word with the lowest cause of Table 4.12 that applies (04 R95), and the encoder.
-/
namespace Sys2Proof

/-! ### Field codes -/

/-- Table 4.6. -/
def Ty.code : Ty → BitVec 4
  | .n32 => 0 | .i32 => 1 | .n64 => 2 | .i64 => 3 | .n16 => 4 | .i16 => 5 | .n8 => 6 | .i8 => 7
  | .n4 => 8 | .i4 => 9 | .f32 => 10 | .f16 => 11 | .bf16 => 12 | .e4m3 => 13 | .e5m2 => 14 | .e2m1 => 15

/-- Table 4.6. -/
def Ty.ofCode (c : BitVec 4) : Ty :=
  match c.toNat with
  | 0 => .n32 | 1 => .i32 | 2 => .n64 | 3 => .i64 | 4 => .n16 | 5 => .i16 | 6 => .n8 | 7 => .i8
  | 8 => .n4 | 9 => .i4 | 10 => .f32 | 11 => .f16 | 12 => .bf16 | 13 => .e4m3 | 14 => .e5m2 | _ => .e2m1

/-- Table 3.3. -/
def Rnd.code : Rnd → BitVec 3
  | .rn => 0 | .rz => 1 | .rd => 2 | .ru => 3 | .rna => 4 | .rs => 5

/-- Table 3.3; the codes 110 and 111 are no mode (03 R58). -/
def Rnd.ofCode (c : BitVec 3) : Option Rnd :=
  match c.toNat with
  | 0 => some .rn | 1 => some .rz | 2 => some .rd | 3 => some .ru | 4 => some .rna | 5 => some .rs | _ => none

/-- Table 4.5. -/
def Scope.code : Scope → BitVec 4
  | .grp => 0 | .team => 1 | .core => 2 | .die => 3 | .pkg => 4 | .sq => 5 | .sys => 6 | .row => 7

/-- Table 4.5 without `.dur`, which no instruction admits (06 R155). -/
def Scope.ofCode (c : BitVec 4) : Option Scope :=
  match c.toNat with
  | 0 => some .grp | 1 => some .team | 2 => some .core | 3 => some .die | 4 => some .pkg | 5 => some .sq
  | 6 => some .sys | 7 => some .row | _ => none

/-- Table 4.5. -/
def Order.code : Order → BitVec 3
  | .rlx => 0 | .acq => 1 | .rel => 2 | .ar => 3 | .sc => 4

/-- Table 4.5. -/
def Order.ofCode (c : BitVec 3) : Option Order :=
  match c.toNat with
  | 0 => some .rlx | 1 => some .acq | 2 => some .rel | 3 => some .ar | 4 => some .sc | _ => none

/-- Table 4.5. -/
def Width.code : Width → BitVec 3
  | .w8 => 0 | .w16 => 1 | .w32 => 2 | .w64 => 3 | .w128 => 4

/-- Table 4.5. -/
def Width.ofCode (c : BitVec 3) : Option Width :=
  match c.toNat with
  | 0 => some .w8 | 1 => some .w16 | 2 => some .w32 | 3 => some .w64 | 4 => some .w128 | _ => none

/-- The width in bytes. -/
def Width.bytes : Width → Nat
  | .w8 => 1 | .w16 => 2 | .w32 => 4 | .w64 => 8 | .w128 => 16

/-- The number of a cause in a trap record (04 Table 4.12). -/
def Cause.code : Cause → Nat
  | .unassigned => 1 | .badClass => 2 | .badCode => 3 | .strayBit => 4
  | .badRegister => 5 | .wrongStream => 6 | .latchMisuse => 7 | .privilege => 8

/-- The slot operations in opcode order (04 Table 4.9). -/
def slotOps : List SlotOp :=
  [.iadd, .isub, .imul, .imulh, .iadds, .imin, .imax, .iabs, .ineg, .land, .lor, .lxor, .landn, .lnot,
   .shl, .shr, .sar, .rot, .popc, .clz, .brev, .mov, .fadd, .fsub, .fmul, .fmin, .fmax, .fabs, .fneg,
   .frcp, .frsq, .fsqrt, .fex2, .flg2, .ftanh, .frnd, .fscale, .fclass, .hadd2, .hmul2]

/-- The 9-bit opcode of a slot operation. -/
def SlotOp.code (o : SlotOp) : BitVec 9 := BitVec.ofNat 9 (slotOps.idxOf o)

/-- The slot operation of a 9-bit opcode; 0x028 to 0x1FF are none (04 R88). -/
def SlotOp.ofCode (c : BitVec 9) : Option SlotOp := slotOps[c.toNat]?

/-- Table 4.9, arity. -/
def SlotOp.binary : SlotOp → Bool
  | .iabs | .ineg | .lnot | .popc | .clz | .brev | .mov | .fabs | .fneg
  | .frcp | .frsq | .fsqrt | .fex2 | .flg2 | .ftanh | .frnd | .fclass => false
  | _ => true

/-- Table 4.9: the modifiers an operation allows. -/
def SlotOp.modeOk (o : SlotOp) (m : BitVec 4) : Bool :=
  match o with
  | .imulh | .iadds | .imin | .imax => m.toNat ≤ 1
  | .fadd | .fsub | .fmul | .frcp | .frsq | .fsqrt | .fex2 | .flg2 | .ftanh | .frnd | .fscale => m.toNat / 2 ≤ 4
  | .fmin | .fmax | .fabs | .fneg | .fclass => m.toNat ≤ 1
  | .hadd2 | .hmul2 => m.toNat % 8 ≤ 4
  | _ => m == 0

/-! ### The full-form word -/

/-- The fields of a full-form word (04 Table 4.1). -/
structure Fields where
  op : BitVec 11
  d : BitVec 10
  a : BitVec 10
  b : BitVec 10
  la : Bool
  lb : Bool
  nw : Bool
  cls : BitVec 3
  x : BitVec 16
  deriving DecidableEq, Repr

/-- Table 4.1, read. -/
def Fields.ofWord (w : Word64) : Fields where
  op := w.extractLsb' 52 11
  d := w.extractLsb' 42 10
  a := w.extractLsb' 32 10
  b := w.extractLsb' 22 10
  la := w.getLsbD 21
  lb := w.getLsbD 20
  nw := w.getLsbD 19
  cls := w.extractLsb' 16 3
  x := w.extractLsb' 0 16

/-- Table 4.1, written. -/
def Fields.toWord (f : Fields) : Word64 :=
  BitVec.ofNat 64 (f.op.toNat * 2 ^ 52 + f.d.toNat * 2 ^ 42 + f.a.toNat * 2 ^ 32 + f.b.toNat * 2 ^ 22
    + f.la.toNat * 2 ^ 21 + f.lb.toNat * 2 ^ 20 + f.nw.toNat * 2 ^ 19 + f.cls.toNat * 2 ^ 16 + f.x.toNat)

/-- The immediate of classes 001 and 011: `B` above `X` (04 R80, R83). -/
def Fields.imm (f : Fields) : BitVec 26 := BitVec.ofNat 26 (f.b.toNat * 2 ^ 16 + f.x.toNat)

/-- A number in bits [hi:lo] of `X`. -/
def Fields.xs (f : Fields) (lo w : Nat) : Nat := f.x.toNat / 2 ^ lo % 2 ^ w

/-! ### What a row of the opcode map admits -/

/-- What an operand field of an instruction names (04 Table 4.3 and each instruction's table). -/
inductive Opnd where
  /-- unused: zero -/
  | zero
  /-- an immediate or offset, any value -/
  | any
  | vec
  | pair
  /-- a multiple of 4, never a latch -/
  | vec4
  /-- a multiple of 8, never a latch -/
  | vec8
  /-- a pair under a 64-bit type, else a single register -/
  | byTy
  /-- as `byTy`, by the second type -/
  | byTy2
  /-- a pair under `.f32`, a single register under `.i32` (05 R130) -/
  | dotSrc
  /-- by the width of class 010: single, pair or quad -/
  | data
  /-- the register block of `CAS`: a pair for 32 bits, a quad for 64 (06 R172) -/
  | casData
  /-- the index register, or an offset when `LB` is set -/
  | index
  | scalar
  | spair
  | mask
  /-- `m0`-`m7` or a scalar, by the form of `MMOV` -/
  | mmovD
  | mmovA
  | handle
  /-- a handle, or a scalar under `.s` in `X[0]` -/
  | handleOrScalar
  | barrier
  | tmap
  | tile
  /-- 0 or 1 as a code (05 R142) -/
  | notFlag
  /-- 0 or 1 as a form selector in an operand field -/
  | form
  /-- the slide of `CALL`, 1 to W/8 (05 Table 5.13) -/
  | slide
  /-- a multicast group number, 0 to 255 (06 R190) -/
  | group8
  /-- the `D` of `CRD` and the `A` of `CWR`: a vector for `rng`, else a scalar (05 R152) -/
  | ctl
  /-- the `D` and the `A` of `PARK`, by its kind (05 R146) -/
  | parkD
  | parkA
  /-- the `A` of `TLRD`, and that of `SNAPQ` -/
  | tlrdA
  | snapqA
  deriving DecidableEq, Repr

/-- One opcode in one class. -/
structure OpRow where
  op : Nat
  cls : Nat
  /-- a chain member by its class and opcode (02 R29; an instruction that writes `em` is none) -/
  member : Bool := false
  /-- a vector member (02 R30) -/
  vec : Bool := false
  /-- reads D as operand C (05 R104) -/
  readsD : Bool := false
  d : Opnd := .zero
  a : Opnd := .zero
  b : Opnd := .zero
  /-- the values the code fields admit: cause 3 where it answers no -/
  code : Fields → Bool
  /-- no bit outside every code field is set in `X`: cause 4 where it answers no -/
  clean : Fields → Bool := fun _ => true

/-- The rounding code is at most `k`. -/
def Fields.rndLe (f : Fields) (k : Nat) : Bool := f.xs 9 3 ≤ k

/-- Class 000 codes: types, highest rounding code, `ftz` and `sat` admitted, `type2` and `X[2:0]` below a bound. -/
def vCodes (tys : List Ty) (rmax : Nat) (ftz sat : Bool) (ty2 sub : Nat) (f : Fields) : Bool :=
  tys.contains (Ty.ofCode (f.x.extractLsb' 12 4)) && f.rndLe rmax && (ftz || f.xs 8 1 == 0)
    && (sat || f.xs 7 1 == 0) && f.xs 3 4 < ty2 && f.xs 0 3 < sub

/-- The type code of class 000. -/
def Fields.ty (f : Fields) : Ty := Ty.ofCode (f.x.extractLsb' 12 4)
/-- The second type code of class 000. -/
def Fields.ty2 (f : Fields) : Ty := Ty.ofCode (f.x.extractLsb' 3 4)

/-- A row of class 000 whose destination is a vector register. -/
def vrow (op : Nat) (d a b : Opnd) (code : Fields → Bool) : OpRow :=
  { op := op, cls := 0, member := true, vec := true, d := d, a := a, b := b, code := code }
/-- The same, reading D. -/
def vrowD (op : Nat) (d a b : Opnd) (code : Fields → Bool) : OpRow := { vrow op d a b code with readsD := true }
/-- A row of class 000 whose destination is a mask or scalar register. -/
def nrow (op : Nat) (d a b : Opnd) (code : Fields → Bool) : OpRow := { vrow op d a b code with vec := false }
/-- A row of class 001 with a vector destination; `code` reads the immediate. -/
def irow (op : Nat) (d a : Opnd) (code : Nat → Bool) : OpRow :=
  { op := op, cls := 1, member := true, vec := true, d := d, a := a, b := .any, code := fun f => code f.imm.toNat }
/-- A row of class 001 with a mask or scalar destination. -/
def inrow (op : Nat) (d a : Opnd) (code : Nat → Bool) : OpRow := { irow op d a code with vec := false }
/-- The same where the instruction uses the low `bits` bits of the immediate: the others are unused bits, which no code field
covers, so a nonzero one is cause 4 (04 R80, R95). -/
def inrowBits (op : Nat) (d a : Opnd) (bits : Nat) : OpRow :=
  { inrow op d a (fun _ => true) with clean := fun f => f.imm.toNat < 2 ^ bits }

/-- 05 Table 5.2. -/
def rowsInteger : List OpRow :=
  let s := vCodes [.i32, .n32] 0 false false 1 1
  let anyImm : Nat → Bool := fun _ => true
  [ vrow 0x001 .vec .vec .vec s, irow 0x001 .vec .vec anyImm, vrow 0x002 .vec .vec .vec s, irow 0x002 .vec .vec anyImm,
    vrow 0x003 .vec .vec .vec (vCodes [.n32] 0 false false 1 8), vrow 0x004 .vec .vec .vec s,
    vrow 0x005 .vec .vec .vec s, irow 0x005 .vec .vec anyImm, vrow 0x006 .vec .vec .vec s, vrowD 0x007 .vec .vec .vec s,
    vrow 0x008 .vec .vec .vec s, vrow 0x009 .vec .vec .vec s, vrow 0x00A .vec .vec .vec s, irow 0x00A .vec .vec anyImm,
    vrow 0x00B .vec .vec .vec s, irow 0x00B .vec .vec anyImm,
    vrow 0x00C .vec .vec .zero (vCodes [.i32] 0 false true 1 1),
    vrow 0x00D .vec .vec .zero (vCodes [.i32] 0 false true 1 1),
    nrow 0x00E .mask .vec .vec (vCodes [.i32, .n32] 0 false false 1 6),
    vrow 0x00F .vec .vec .vec (vCodes [.n32] 0 false false 1 8), vrowD 0x010 .vec .vec .vec s,
    vrowD 0x011 .vec .vec .vec (vCodes [.n32, .i32, .n8] 0 false false 1 1),
    vrow 0x012 .pair .pair .pair (vCodes [.i64, .n64] 0 false false 1 1),
    vrow 0x013 .pair .pair .pair (vCodes [.i64, .n64] 0 false false 1 1),
    vrow 0x014 .pair .pair .pair (vCodes [.i64, .n64] 0 false false 1 1),
    vrow 0x015 .pair .pair .vec (vCodes [.n64] 0 false false 1 8),
    vrow 0x016 .pair .scalar .vec (vCodes [.n64] 0 false false 1 8),
    { irow 0x017 .vec .zero (fun i => i < 2 ^ 17) with readsD := true } ]

/-- 05 Table 5.4. -/
def rowsLogic : List OpRow :=
  let n := vCodes [.n32] 0 false false 1 1
  let anyImm : Nat → Bool := fun _ => true
  let cnt : Nat → Bool := fun i => i ≤ 31
  [ vrow 0x040 .vec .vec .vec n, irow 0x040 .vec .vec anyImm, vrow 0x041 .vec .vec .vec n, irow 0x041 .vec .vec anyImm,
    vrow 0x042 .vec .vec .vec n, irow 0x042 .vec .vec anyImm, vrow 0x043 .vec .vec .vec n, irow 0x043 .vec .vec anyImm,
    vrow 0x044 .vec .vec .zero n, vrow 0x045 .vec .vec .vec n, irow 0x045 .vec .vec cnt,
    vrow 0x046 .vec .vec .vec n, irow 0x046 .vec .vec cnt, vrow 0x047 .vec .vec .vec n, irow 0x047 .vec .vec cnt,
    vrow 0x048 .vec .vec .vec n, irow 0x048 .vec .vec cnt, vrowD 0x049 .vec .vec .vec n, vrowD 0x04A .vec .vec .vec n,
    vrow 0x04B .vec .vec .vec (vCodes [.n32, .i32] 0 false false 1 1), vrowD 0x04C .vec .vec .vec n,
    vrow 0x04D .vec .vec .zero n, vrow 0x04E .vec .vec .zero n, vrow 0x04F .vec .vec .zero n,
    vrowD 0x050 .vec .vec .vec n ]

/-- `HADD2`, `HMUL2` and `HFMA2`: `ftz` under `.bf16` alone (05 R116). -/
def halfCodes (f : Fields) : Bool :=
  vCodes [.f16, .bf16] 5 true true 1 1 f && (f.ty == .bf16 || f.xs 8 1 == 0)

/-- 05 Table 5.5. -/
def rowsFloat : List OpRow :=
  let f5 := vCodes [.f32] 5 true false 1 1
  let f4 := vCodes [.f32] 4 true false 1 1
  let f0 := vCodes [.f32] 0 true false 1 1
  [ vrow 0x100 .vec .vec .vec f5, vrow 0x101 .vec .vec .vec f5, vrow 0x102 .vec .vec .vec f5, vrowD 0x103 .vec .vec .vec f5,
    vrow 0x104 .vec .vec .vec f0, vrow 0x105 .vec .vec .vec f0, vrow 0x106 .vec .vec .zero f0, vrow 0x107 .vec .vec .zero f0,
    nrow 0x108 .mask .vec .vec (vCodes [.f32] 0 true false 1 8), vrow 0x109 .vec .vec .zero f0,
    vrow 0x10A .vec .vec .zero f4, vrow 0x10B .vec .vec .zero f4, vrow 0x10C .vec .vec .zero f4, vrow 0x10D .vec .vec .vec f4,
    vrow 0x10E .vec .vec .zero f4, vrow 0x10F .vec .vec .zero f4, vrow 0x110 .vec .vec .zero f4, vrow 0x111 .vec .vec .zero f4,
    vrow 0x112 .vec .vec .vec f4, vrow 0x120 .vec .vec .vec halfCodes, vrow 0x121 .vec .vec .vec halfCodes,
    vrowD 0x122 .vec .vec .vec halfCodes, vrowD 0x123 .vec .vec .vec (vCodes [.f16, .bf16] 0 false false 1 1) ]

/-- The formats `.sat` is admitted on: the targets R62 names (05 R125). -/
def satTarget : Ty → Bool
  | .f16 | .bf16 | .e5m2 | .e4m3 | .e2m1 => true
  | _ => false

/-- The number of elements of a format in one register (05 R125). -/
def Ty.perReg : Ty → Nat
  | .n64 | .i64 | .n32 | .i32 | .f32 => 1
  | .n16 | .i16 | .f16 | .bf16 => 2
  | .n8 | .i8 | .e4m3 | .e5m2 => 4
  | .n4 | .i4 | .e2m1 => 8

/-- A format whose subnormals `.ftz` flushes. -/
def Ty.flushable (t : Ty) : Bool := t == .f32 || t == .bf16

/-- `CVT` (05 Table 5.7, R125). -/
def cvtCodes (f : Fields) : Bool :=
  f.ty != f.ty2 && f.rndLe 5 && (f.xs 8 1 == 0 || f.ty.flushable || f.ty2.flushable)
    && (f.xs 7 1 == 0 || satTarget f.ty) && f.xs 0 3 < f.ty2.perReg

/-- `QBLK`, `QPACK4` and `QPACK8`: the source format is `.f32`, and `.sat` stands only on the targets R62 names. -/
def qCodes (tys : List Ty) (rmax : Nat) (f : Fields) : Bool :=
  tys.contains f.ty && f.ty2 == .f32 && f.rndLe rmax && (f.xs 7 1 == 0 || satTarget f.ty) && f.xs 0 3 == 0

/-- `QUNPK` (05 Table 5.7). -/
def qunpkCodes (f : Fields) : Bool :=
  f.ty == .f32 && [Ty.e4m3, .e5m2, .e2m1, .i8, .i4].contains f.ty2 && f.rndLe 4 && f.xs 7 1 == 0
    && f.xs 0 3 < f.ty2.perReg

/-- The scaled dot products take `.f32`; `DOT4.i8` and `DOT8.i4` also `.i32` with `type2` zero (05 R130). -/
def dotCodes (int : Bool) (f : Fields) : Bool :=
  f.xs 0 3 == 0 && f.xs 7 5 == 0 && (f.ty == .f32 || (int && f.ty == .i32 && f.xs 3 4 == 0))

/-- 05 Tables 5.7 and 5.8. -/
def rowsConvert : List OpRow :=
  [ vrowD 0x140 .vec .dotSrc .dotSrc (dotCodes false), vrowD 0x141 .vec .dotSrc .dotSrc (dotCodes false),
    vrowD 0x142 .vec .dotSrc .dotSrc (dotCodes true), vrowD 0x143 .vec .dotSrc .dotSrc (dotCodes false),
    vrowD 0x144 .vec .dotSrc .dotSrc (dotCodes true),
    vrow 0x180 .byTy .byTy2 .zero cvtCodes,
    vrow 0x181 .vec .vec .zero (qCodes [.e4m3, .e5m2, .e2m1, .i8, .i4] 0),
    vrow 0x182 .vec .vec8 .vec (qCodes [.e2m1, .i4] 5), vrow 0x183 .vec .vec4 .vec (qCodes [.e4m3, .e5m2, .i8] 5),
    vrow 0x184 .vec .vec .vec qunpkCodes ]

/-- `REDUX` and `SCAN` (05 R138). -/
def reduceCodes (excl : Nat) (f : Fields) : Bool :=
  vCodes [.i32, .n32, .f32] 0 false false excl 6 f && (f.ty != .f32 || f.xs 0 3 ≤ 2)

/-- 05 Table 5.9. -/
def rowsMove : List OpRow :=
  [ vrow 0x200 .byTy .byTy .zero (vCodes [.n32, .n64] 0 false false 1 1), irow 0x201 .vec .zero (fun _ => true),
    vrow 0x202 .byTy .scalar .zero (vCodes [.n32, .n64] 0 false false 1 1), inrow 0x203 .scalar .vec (fun i => i ≤ 31),
    irow 0x204 .vec .scalar (fun i => i ≤ 31), vrow 0x205 .vec .vec .vec (vCodes [.n32] 0 false false 9 4),
    irow 0x205 .vec .vec (fun i => i / 2 ^ 7 ≤ 8), nrow 0x206 .scalar .vec .zero (vCodes [.n32] 0 false false 1 6),
    vrow 0x207 .vec .byTy .zero (vCodes [.n32, .n64] 0 false false 1 1), nrow 0x208 .scalar .vec .zero (reduceCodes 1),
    vrow 0x209 .vec .vec .zero (reduceCodes 2) ]

/-- 05 Tables 5.11 and 5.12. -/
def rowsMaskScalar : List OpRow :=
  let z := vCodes [.n32] 0 false false 1 1
  let s := vCodes [.i64, .n64] 0 false false 1 1
  let anyImm : Nat → Bool := fun _ => true
  [ inrowBits 0x220 .mask .zero 11, nrow 0x221 .mmovD .mmovA .zero (vCodes [.n32] 0 false false 1 3),
    nrow 0x222 .mask .mask .mask z, nrow 0x223 .mask .mask .mask z, nrow 0x224 .mask .mask .mask z,
    nrow 0x225 .mask .mask .zero z, nrow 0x226 .scalar .mask .zero z, nrow 0x227 .scalar .mask .zero z,
    nrow 0x240 .scalar .scalar .zero s, inrow 0x241 .scalar .zero anyImm,
    nrow 0x242 .scalar .scalar .scalar s, inrow 0x242 .scalar .scalar anyImm,
    nrow 0x243 .scalar .scalar .scalar s, inrow 0x243 .scalar .scalar anyImm,
    nrow 0x244 .scalar .scalar .scalar s, inrow 0x244 .scalar .scalar anyImm,
    nrow 0x245 .scalar .scalar .scalar s, inrow 0x245 .scalar .scalar anyImm,
    nrow 0x246 .scalar .scalar .scalar s, inrow 0x246 .scalar .scalar anyImm,
    nrow 0x247 .scalar .scalar .scalar s, inrow 0x247 .scalar .scalar anyImm,
    nrow 0x248 .scalar .scalar .scalar s, inrowBits 0x248 .scalar .scalar 6,
    nrow 0x249 .scalar .scalar .scalar s, inrowBits 0x249 .scalar .scalar 6,
    nrow 0x24A .scalar .scalar .scalar (vCodes [.i64, .n64] 0 false false 1 6) ]

/-- A row of class 011. -/
def brow (op : Nat) (d a : Opnd) : OpRow := { op := op, cls := 3, d := d, a := a, b := .any, code := fun _ => true }

/-- A row of class 101: `code` on the value of `X`, `width` the bits of `X` in use. -/
def srow (op : Nat) (d a b : Opnd) (width : Nat := 0) (code : Nat → Bool := fun _ => true) : OpRow :=
  { op := op, cls := 5, d := d, a := a, b := b, code := fun f => code (f.x.toNat % 2 ^ width),
    clean := fun f => f.x.toNat < 2 ^ width }

/-- `PARK` (05 Table 5.14). -/
def parkCodes (x : Nat) : Bool :=
  x % 4 ≤ 2 && x / 4 % 16 ≤ 6 && (x / 64 % 2 == 1 || x / 4 % 16 == 0) && (x % 4 != 2 || x / 4 == 0)

/-- 05 Table 5.13 and R152. -/
def rowsControl : List OpRow :=
  [ srow 0x260 .ctl .zero .zero 16 (fun x => x ≤ 5), srow 0x261 .zero .ctl .zero 16 (fun x => x ≤ 5),
    brow 0x280 .zero .zero, brow 0x281 .mask .notFlag, brow 0x282 .scalar .notFlag, srow 0x283 .vec .zero .zero,
    brow 0x284 .slide .zero, srow 0x285 .slide .scalar .zero, srow 0x286 .zero .zero .zero,
    srow 0x287 .zero .zero .zero, srow 0x288 .parkD .parkA .zero 7 parkCodes, srow 0x289 .zero .zero .zero,
    srow 0x28A .zero .zero .zero 16 (fun x => 1 ≤ x && x ≤ 64), srow 0x28B .zero .zero .zero ]

/-- Class 010 codes: orders, scopes, widths, `X[8:5]` and `X[4:3]`. -/
def mCodes (os : List Order) (scs : List Scope) (ws : List Width) (hint svc : Nat → Bool) (f : Fields) : Bool :=
  (match Order.ofCode (f.x.extractLsb' 9 3), Scope.ofCode (f.x.extractLsb' 12 4), Width.ofCode (f.x.extractLsb' 0 3) with
    | some o, some sc, some w => os.contains o && scs.contains sc && ws.contains w
    | _, _, _ => false)
    && hint (f.xs 5 4) && svc (f.xs 3 2)

/-- Scopes 0 to 6. -/
def scopes06 : List Scope := [.grp, .team, .core, .die, .pkg, .sq, .sys]
/-- All five orders. -/
def orders5 : List Order := [.rlx, .acq, .rel, .ar, .sc]

/-- A row of class 010. -/
def mrow (op : Nat) (d a b : Opnd) (code : Fields → Bool) (clean : Fields → Bool := fun _ => true) : OpRow :=
  { op := op, cls := 2, d := d, a := a, b := b, code := code, clean := clean }

/-- `LB` must be clear: an unused bit (06 R175, R190, R193). -/
def noLB (f : Fields) : Bool := !f.lb
/-- `LB` must be set (06 R200); the rule names no cause for a clear one, and the model gives cause 4 (DESIGN CHOICE: log 57). -/
def needLB (f : Fields) : Bool := f.lb

/-- 06 Table 6.1. -/
def rowsMemory : List OpRow :=
  let any : Nat → Bool := fun _ => true
  let no : Nat → Bool := fun n => n == 0
  let all5 : List Width := [.w8, .w16, .w32, .w64, .w128]
  let bit1 : Nat → Bool := fun h => h % 2 == 0
  let ev : Nat → Bool := fun h => h % 4 == 0
  [ mrow 0x300 .data .pair .index (mCodes [.rlx, .acq, .sc] scopes06 all5 any any),
    mrow 0x301 .data .pair .index (mCodes [.rlx, .rel, .sc] scopes06 all5 (fun h => h / 2 % 2 == 0) any),
    mrow 0x310 .data .vec .index (mCodes [.rlx, .acq, .sc] [.grp, .team] all5 no no),
    mrow 0x311 .data .vec .index (mCodes [.rlx, .rel, .sc] [.grp, .team] all5 no no),
    mrow 0x312 .data .vec .index (mCodes [.rlx] [.grp] [.w32, .w64, .w128] (fun h => h == 0 || h == 2) no),
    mrow 0x313 .data .vec .index (mCodes [.rlx] [.grp] [.w32, .w64, .w128] no no),
    srow 0x314 .zero .scalar .scalar, srow 0x315 .zero .scalar .scalar,
    { vrow 0x320 .vec .pair .zero (vCodes [.n32] 0 false false 1 1) with member := false, vec := false },
    { vrow 0x321 .zero .pair .vec (vCodes [.n32] 0 false false 1 1) with member := false, vec := false },
    { vrow 0x322 .zero .pair .zero (vCodes [.n32] 0 false false 1 1) with member := false, vec := false },
    mrow 0x330 .zero .pair .index (mCodes [.rlx] [.grp] [.w8, .w16] ev any),
    mrow 0x331 .zero .pair .index (mCodes [.rlx] [.grp] [.w8] bit1 any),
    mrow 0x340 .data .pair .group8 (mCodes [.rlx, .rel] [.sq, .row] [.w32, .w64, .w128] ev any) noLB,
    srow 0x341 .zero .scalar .zero 8,
    mrow 0x400 .data .pair .index
      (fun f => mCodes orders5 scopes06 [.w32, .w64] any no f && f.xs 5 4 ≤ (if f.xs 0 3 == 2 then 14 else 10)),
    mrow 0x401 .casData .pair .index
      (fun f => mCodes orders5 scopes06 [.w32, .w64] no (fun v => v ≤ 2) f && (f.xs 3 2 != 2 || f.xs 9 3 == 4)),
    mrow 0x410 .vec .spair .zero (mCodes [.rlx, .rel, .ar] [.row] [.w8] (fun h => h ≤ 2) any) noLB,
    mrow 0x411 .vec .spair .zero (mCodes [.rlx, .acq] [.row] [.w8] no any) noLB,
    mrow 0x480 .zero .zero .zero (mCodes [.acq, .rel, .ar, .sc] scopes06 [.w8] no no) noLB,
    srow 0x481 .zero .zero .zero, srow 0x482 .zero .scalar .scalar 4 (fun x => 2 ≤ x && x ≤ 4),
    mrow 0x490 .zero .pair .index (mCodes [.rlx] [.grp] [.w8] bit1 any),
    srow 0x491 .zero .zero .zero 1, srow 0x492 .scalar .scalar .zero,
    mrow 0x4A0 .scalar .spair .any (mCodes orders5 scopes06 [.w32, .w64] no any) needLB,
    mrow 0x4A1 .scalar .spair .any (mCodes orders5 scopes06 [.w32, .w64] no any) needLB,
    mrow 0x4A2 .scalar .spair .any
      (mCodes [.rlx, .acq] scopes06 [.w32, .w64] (fun h => h % 2 == 0 && h / 2 ≤ 5) any) needLB ]

/-- A row of class 100: whether `X[15:12]` is used, the highest rounding code, `ftz`, and what `X[7:0]` admits. -/
def trow (op : Nat) (d a b : Opnd) (tm : Bool) (rmax : Nat) (ftz : Bool) (code : Nat → Bool) : OpRow :=
  { op := op, cls := 4, d := d, a := a, b := b
    code := fun f => (tm || f.xs 12 4 == 0) && f.rndLe rmax && (ftz || f.xs 8 1 == 0) && code (f.xs 0 8) }

/-- 06 R177-R189 and 07 Tables 7.4, 7.7, 7.8 and 7.9a. -/
def rowsAsync : List OpRow :=
  let no : Nat → Bool := fun n => n == 0
  let le1 : Nat → Bool := fun n => n ≤ 1
  [ trow 0x420 .scalar .scalar .zero false 0 false no,
    trow 0x430 .pair .pair .scalar true 0 false (fun o => o % 4 == 0),
    trow 0x431 .pair .zero .scalar true 0 false (fun o => o % 4 == 0),
    trow 0x432 .zero .pair .scalar true 0 false no, trow 0x433 .pair .zero .scalar true 0 false no,
    trow 0x434 .zero .scalar .zero true 0 false (fun o => o % 16 == 0),
    trow 0x435 .zero .scalar .zero true 0 false (fun o => o % 16 == 0),
    trow 0x500 .zero .scalar .zero true 0 false le1, trow 0x501 .zero .scalar .zero true 0 false le1,
    trow 0x502 .zero .scalar .zero true 0 false (fun o => o ≤ 15), trow 0x503 .scalar .zero .zero true 0 false no,
    trow 0x504 .zero .zero .zero true 0 false no, trow 0x505 .scalar .zero .zero true 0 false le1,
    trow 0x520 .handle .zero .scalar true 0 false (fun o => o ≤ 3),
    trow 0x521 .handle .spair .scalar false 0 false (fun o => o ≤ 3),
    trow 0x522 .handle .spair .scalar false 0 false le1,
    trow 0x523 .handle .zero .scalar true 5 true (fun o => o ≤ 2),
    trow 0x524 .handle .zero .spair true 0 false le1,
    trow 0x540 .zero .handleOrScalar .zero false 0 false le1,
    trow 0x541 .scalar .handleOrScalar .zero false 0 false le1,
    trow 0x542 .zero .handleOrScalar .zero false 0 false le1, trow 0x543 .zero .scalar .zero false 0 false no,
    { trow 0x544 .scalar .tlrdA .form false 0 false (fun _ => true) with
        code := fun f => f.xs 8 8 == 0 && (f.b == 0 || f.xs 0 8 == 0) },
    { op := 0x560, cls := 3, d := .handle, b := .any, code := fun _ => true },
    trow 0x561 .zero .zero .zero false 0 false no,
    trow 0x562 .zero .zero .barrier false 0 false (fun o => 1 ≤ o && o ≤ 132),
    trow 0x563 .zero .zero .barrier false 0 false le1 ]

/-- 07 Table 7.9b. -/
def rowsMatrix : List OpRow :=
  let no : Nat → Bool := fun n => n == 0
  [ trow 0x600 .zero .zero .zero true 0 false no, trow 0x601 .zero .zero .zero false 0 false no,
    trow 0x602 .tile .zero .zero true 0 false no, trow 0x603 .tile .tile .tmap true 0 false no,
    trow 0x604 .zero .zero .zero false 0 false (fun _ => true), trow 0x605 .tile .zero .zero true 0 false no,
    trow 0x606 .tile .zero .zero true 5 false no, trow 0x607 .tile .zero .zero true 5 true no,
    { trow 0x608 .form .zero .barrier false 0 false (fun _ => true) with
        code := fun f => f.xs 8 8 == 0 && (if f.d == 1 then f.xs 0 8 ≤ 1 else 1 ≤ f.xs 0 8 && f.xs 0 8 ≤ 132) },
    trow 0x609 .zero .zero .zero false 0 false no ]

/-- 07 Tables 7.11, 7.12, 7.14 and 7.15. -/
def rowsSystem : List OpRow :=
  let no : Nat → Bool := fun n => n == 0
  [ srow 0x700 .zero .zero .zero, srow 0x701 .scalar .zero .zero, srow 0x702 .zero .scalar .zero,
    srow 0x703 .zero .zero .zero 4 (fun x => x == 3 || x == 4),
    srow 0x740 .zero .scalar .zero, srow 0x741 .zero .scalar .scalar, srow 0x742 .zero .zero .zero,
    trow 0x760 .handle .scalar .zero false 0 false no, srow 0x761 .scalar .snapqA .zero 1,
    trow 0x762 .handle .scalar .zero false 0 false no, trow 0x763 .handle .scalar .zero false 0 false no,
    srow 0x780 .zero .zero .zero 16, srow 0x781 .zero .scalar .zero 16, srow 0x782 .scalar .zero .zero,
    srow 0x783 .scalar .zero .zero 16 (fun x => x ≤ 5), srow 0x7C0 .zero .zero .zero,
    trow 0x7C1 .handle .spair .scalar false 0 false (fun o => o == 4 || o == 5),
    srow 0x7C2 .spair .scalar .scalar 1, srow 0x7C3 .scalar .scalar .zero, srow 0x7C4 .scalar .scalar .zero 16 (fun x => x ≤ 5) ]

/-- 04 Table 4.11: every opcode in every class it admits. -/
def opRows : List OpRow :=
  rowsInteger ++ rowsLogic ++ rowsFloat ++ rowsConvert ++ rowsMove ++ rowsMaskScalar ++ rowsControl
    ++ rowsMemory ++ rowsAsync ++ rowsMatrix ++ rowsSystem

/-- A matrix-stream opcode (04 R94). -/
def isMatrixOp (op : Nat) : Bool := 0x600 ≤ op && op ≤ 0x609

/-- A supervisor-only opcode, marked in Table 4.11 (04 R93). -/
def isSupervisorOp (op : Nat) : Bool := op == 0x341 || op == 0x762 || (0x7C0 ≤ op && op ≤ 0x7C4)

/-- An instruction that writes `em`, by its destination number 8: no chain member (02 R29, 05 R139). -/
def Fields.writesEm (f : Fields) : Bool :=
  f.d == 8 && ((f.cls == 0 && [0x00E, 0x108, 0x222, 0x223, 0x224, 0x225].contains f.op.toNat)
    || (f.cls == 1 && f.op == 0x220) || (f.cls == 0 && f.op == 0x221 && f.xs 0 3 ≤ 1))

/-! ### Legality (04 R76-R82, R95) -/

/-- What the decoder knows of its reader: the window of the group (02 R37), the team's tile count (07 R221) and
whether the word stands in a matrix stream (04 R94). -/
structure Reader where
  window : Nat := 1024
  acc : Nat := 8
  matrix : Bool := false
  deriving DecidableEq, Repr

/-- The cause, if any, of a register number out of its range or off its alignment. -/
def regCheck (bad : Bool) : Option Cause := if bad then some .badRegister else none

/-- An operand field that may name a latch: a vector operand with no alignment of its own (02 R31, 05 R125). -/
def Opnd.latchable : Opnd → Bool
  | .vec | .pair | .byTy | .byTy2 | .dotSrc => true
  | _ => false

/-- The cause that an operand field raises (04 R77, R78, R82). `latch` says that the field names a latch. -/
def Opnd.check (rd : Reader) (f : Fields) (k : Opnd) (latch : Bool) (v : BitVec 10) : Option Cause :=
  let n := v.toNat
  let vecN := fun (al : Nat) => regCheck (n % al != 0 || rd.window ≤ n)
  let wide := fun (t : Ty) => t == .n64 || t == .i64
  let sc := fun (al : Nat) => regCheck (n % al != 0 || 64 ≤ n)
  let width := f.xs 0 3
  if latch && k.latchable then none else
  match k with
  | .zero => if n == 0 then none else some .strayBit
  | .any => none
  | .vec => vecN 1
  | .pair => vecN 2
  | .vec4 => vecN 4
  | .vec8 => vecN 8
  | .byTy => vecN (if wide f.ty then 2 else 1)
  | .byTy2 => vecN (if wide f.ty2 then 2 else 1)
  | .dotSrc => vecN (if f.ty == .i32 then 1 else 2)
  | .data => vecN (if width == 4 then 4 else if width == 3 then 2 else 1)
  | .casData => vecN (if width == 3 then 4 else 2)
  | .index => if f.lb then none else vecN 1
  | .scalar => sc 1
  | .spair => sc 2
  | .mask => regCheck (8 < n)
  | .mmovD => if f.xs 0 3 == 2 then sc 1 else regCheck (8 < n)
  | .mmovA => if f.xs 0 3 == 1 then sc 1 else regCheck (8 < n)
  | .handle => regCheck (16 ≤ n)
  | .handleOrScalar => if f.xs 0 1 == 1 then sc 1 else regCheck (16 ≤ n)
  | .barrier => regCheck (16 ≤ n)
  | .tmap => regCheck (16 ≤ n)
  | .tile => regCheck (rd.acc ≤ n)
  | .notFlag => if n ≤ 1 then none else some .badCode
  | .form => if n ≤ 1 then none else some .strayBit
  | .slide => if 1 ≤ n && n ≤ rd.window / 8 then none else some .badCode
  | .group8 => if n < 256 then none else some .strayBit
  | .ctl => if f.x == 2 then vecN 1 else sc 1
  | .parkD => if f.xs 0 2 == 2 then (if n == 0 then none else some .strayBit) else vecN 1
  | .parkA => if f.xs 0 2 == 2 then regCheck (16 ≤ n) else vecN 2
  | .tlrdA => if f.b == 1 then regCheck (16 ≤ n) else (if n == 0 then none else some .strayBit)
  | .snapqA => if f.xs 0 1 == 1 then (if n == 0 then none else some .strayBit) else sc 1

/-- Latch and no-write-back misuse (02 R31, 04 R77, 05 R104). A latch field above 3, and a nonzero `D` under `NW`, count as latch misuse, of
which the spec does not say that it is no number out of range and no unused bit (DESIGN CHOICE: log 63). -/
def latchCause (r : OpRow) (f : Fields) : Option Cause :=
  let lbFlag := f.lb && f.cls != 2
  -- a latch flag beside an operand the instruction does not use is an unused bit (04 R77)
  if (f.la && r.a == .zero) || (f.lb && r.b == .zero) then some .strayBit
  else if !r.member || f.writesEm then
    -- a flag on an instruction that is no chain member: an unused bit where Table 4.2 gives it as 0
    if f.la || lbFlag || f.nw then some (if 2 ≤ f.cls.toNat then .strayBit else .latchMisuse) else none
  else
    let badA := f.la && (!r.vec || !r.a.latchable || 3 < f.a.toNat)
    let badB := f.lb && (f.cls == 1 || !r.vec || !r.b.latchable || 3 < f.b.toNat)
    let badN := f.nw && (!r.vec || r.readsD || f.d != 0)
    if badA || badB || badN then some .latchMisuse else none

/-- The lower-numbered of two causes. -/
def Cause.min (x y : Option Cause) : Option Cause :=
  match x, y with
  | some a, some b => if a.code ≤ b.code then some a else some b
  | some a, none => some a
  | none, y => y

/-- A tile mask that passes the team's tiles, or the two equal tiles of `MMAD` (07 R223, R228). -/
def tileCause (rd : Reader) (f : Fields) : Option Cause :=
  if f.op == 0x604 && 2 ^ rd.acc ≤ f.xs 0 8 then some .badRegister
  else if f.op == 0x603 && f.d == f.a then some .badRegister else none

/-- The lowest cause of a full-form word read with row `r`, streams and privilege left aside. -/
def OpRow.cause (r : OpRow) (rd : Reader) (f : Fields) : Option Cause :=
  Cause.min (if r.code f then none else some .badCode)
    (Cause.min (if r.clean f then none else some .strayBit)
      (Cause.min (r.d.check rd f false f.d)
        (Cause.min (r.a.check rd f f.la f.a)
          (Cause.min (r.b.check rd f (f.lb && f.cls == 0) f.b)
            (Cause.min (tileCause rd f) (latchCause r f))))))

/-- Restrict a stream's own cause to 1 to 5, and give 6 to the rest (04 R94). A word whose only fault is cause 7 has none of
the causes that R94 names: it takes 6 (DESIGN CHOICE: log 57). -/
def streamCause (own : Option Cause) : Cause :=
  match own with
  | some c => if c.code ≤ 5 then c else .wrongStream
  | none => .wrongStream

/-- The lowest cause that applies to a full-form word, or none for a legal one (04 R91, R94, R95). -/
def Fields.cause (rd : Reader) (f : Fields) : Option Cause :=
  let op := f.op.toNat
  if isMatrixOp op && !rd.matrix then some .wrongStream
  else if !opRows.any (fun r => r.op == op) then some .unassigned
  else match opRows.find? (fun r => r.op == op && r.cls == f.cls.toNat) with
    | none => some .badClass
    | some r =>
      let own := r.cause rd f
      if rd.matrix && !isMatrixOp op then some (streamCause own) else own

/-! ### The paired word (04 R86-R90) -/

/-- Slot bits, from a 31-bit slot (04 Table 4.8). -/
structure RawSlot where
  op : BitVec 9
  d : BitVec 8
  a : BitVec 8
  la : Bool
  nw : Bool
  mode : BitVec 4
  deriving DecidableEq, Repr

/-- Table 4.8, read at bit `base` of the word. -/
def RawSlot.ofWord (w : Word64) (base : Nat) : RawSlot where
  op := w.extractLsb' (base + 22) 9
  d := w.extractLsb' (base + 14) 8
  a := w.extractLsb' (base + 6) 8
  la := w.getLsbD (base + 5)
  nw := w.getLsbD (base + 4)
  mode := w.extractLsb' base 4

/-- Table 4.8, written. -/
def RawSlot.toNat (s : RawSlot) : Nat :=
  s.op.toNat * 2 ^ 22 + s.d.toNat * 2 ^ 14 + s.a.toNat * 2 ^ 6 + s.la.toNat * 2 ^ 5 + s.nw.toNat * 2 ^ 4 + s.mode.toNat

/-- The typed slot of raw slot bits. -/
def RawSlot.slot? (s : RawSlot) : Option Slot :=
  (SlotOp.ofCode s.op).map fun o => { op := o, d := s.d, a := s.a, la := s.la, nw := s.nw, mode := s.mode }

/-- The raw bits of a typed slot. -/
def Slot.raw (s : Slot) : RawSlot := { op := s.op.code, d := s.d, a := s.a, la := s.la, nw := s.nw, mode := s.mode }

/-- The register numbers that count as reads in the bank rule (04 R88). -/
def Slot.bankReads (s : Slot) : List Nat :=
  (if s.op.binary then [s.d.toNat] else []) ++ (if s.la then [] else [s.a.toNat])

/-- The causes one slot raises by itself: its modifier, its registers and its latch flags. -/
def Slot.cause (rd : Reader) (s : Slot) : Option Cause :=
  Cause.min (if s.op.modeOk s.mode then none else some .badCode)
    (Cause.min (regCheck (rd.window ≤ s.d.toNat || (!s.la && rd.window ≤ s.a.toNat)))
      (if (s.la && 3 < s.a.toNat) || (s.nw && !s.op.binary && s.d != 0) then some .latchMisuse else none))

/-- The pairing rules of R88: unequal destinations in different banks, and at most two reads of each bank. -/
def pairRuleBroken (x y : Slot) : Bool :=
  (!x.nw && !y.nw && x.d.toNat % 4 == y.d.toNat % 4)
    || (List.range 4).any fun k => 2 < ((x.bankReads ++ y.bankReads).filter (fun r => r % 4 == k)).length

/-- The lowest cause of a pair of typed slots. -/
def PArgs.cause (rd : Reader) (p : PArgs) : Option Cause :=
  Cause.min (p.slotA.cause rd)
    (Cause.min (p.slotB.cause rd) (if pairRuleBroken p.slotA p.slotB then some .latchMisuse else none))

/-! ### Instructions and fields -/

/-- An instruction as its opcode and the operands of its class, before any field of the word is laid out. -/
inductive Shape where
  | v (op : BitVec 11) (a : VArgs)
  | i (op : BitVec 11) (a : IArgs)
  | m (op : BitVec 11) (a : MArgs)
  | b (op : BitVec 11) (a : BArgs)
  | t (op : BitVec 11) (a : TArgs)
  | s (op : BitVec 11) (a : SArgs)
  | p (a : PArgs)
  | raw (w : Word64)
  /-- a step of the part, which has no word -/
  | device
  deriving DecidableEq, Repr

/-- The opcode and class of each constructor (04 Table 4.11). -/
def Instr.shape : Instr → Shape
  | .pairedWord a => .p a
  | .iadd a => .v 0x001 a
  | .iaddImm a => .i 0x001 a
  | .isub a => .v 0x002 a
  | .isubImm a => .i 0x002 a
  | .iaddc a => .v 0x003 a
  | .iadds a => .v 0x004 a
  | .imul a => .v 0x005 a
  | .imulImm a => .i 0x005 a
  | .imulh a => .v 0x006 a
  | .imad a => .v 0x007 a
  | .idiv a => .v 0x008 a
  | .irem a => .v 0x009 a
  | .imin a => .v 0x00A a
  | .iminImm a => .i 0x00A a
  | .imax a => .v 0x00B a
  | .imaxImm a => .i 0x00B a
  | .iabs a => .v 0x00C a
  | .ineg a => .v 0x00D a
  | .icmp a => .v 0x00E a
  | .isel a => .v 0x00F a
  | .iclamp a => .v 0x010 a
  | .isad a => .v 0x011 a
  | .iadd64 a => .v 0x012 a
  | .isub64 a => .v 0x013 a
  | .imul64 a => .v 0x014 a
  | .aadd a => .v 0x015 a
  | .alea a => .v 0x016 a
  | .imovw a => .i 0x017 a
  | .and a => .v 0x040 a
  | .andImm a => .i 0x040 a
  | .or a => .v 0x041 a
  | .orImm a => .i 0x041 a
  | .xor a => .v 0x042 a
  | .xorImm a => .i 0x042 a
  | .andn a => .v 0x043 a
  | .andnImm a => .i 0x043 a
  | .not a => .v 0x044 a
  | .shl a => .v 0x045 a
  | .shlImm a => .i 0x045 a
  | .shr a => .v 0x046 a
  | .shrImm a => .i 0x046 a
  | .sar a => .v 0x047 a
  | .sarImm a => .i 0x047 a
  | .rot a => .v 0x048 a
  | .rotImm a => .i 0x048 a
  | .fshl a => .v 0x049 a
  | .fshr a => .v 0x04A a
  | .bfx a => .v 0x04B a
  | .bfi a => .v 0x04C a
  | .popc a => .v 0x04D a
  | .clz a => .v 0x04E a
  | .brev a => .v 0x04F a
  | .bytx a => .v 0x050 a
  | .fadd a => .v 0x100 a
  | .fsub a => .v 0x101 a
  | .fmul a => .v 0x102 a
  | .ffma a => .v 0x103 a
  | .fmin a => .v 0x104 a
  | .fmax a => .v 0x105 a
  | .fabs a => .v 0x106 a
  | .fneg a => .v 0x107 a
  | .fcmp a => .v 0x108 a
  | .fclass a => .v 0x109 a
  | .frcp a => .v 0x10A a
  | .frsq a => .v 0x10B a
  | .fsqrt a => .v 0x10C a
  | .fdiv a => .v 0x10D a
  | .fex2 a => .v 0x10E a
  | .flg2 a => .v 0x10F a
  | .ftanh a => .v 0x110 a
  | .frnd a => .v 0x111 a
  | .fscale a => .v 0x112 a
  | .hadd2 a => .v 0x120 a
  | .hmul2 a => .v 0x121 a
  | .hfma2 a => .v 0x122 a
  | .hdot2 a => .v 0x123 a
  | .dot4E4m3 a => .v 0x140 a
  | .dot4E5m2 a => .v 0x141 a
  | .dot4I8 a => .v 0x142 a
  | .dot8E2m1 a => .v 0x143 a
  | .dot8I4 a => .v 0x144 a
  | .cvt a => .v 0x180 a
  | .qblk a => .v 0x181 a
  | .qpack4 a => .v 0x182 a
  | .qpack8 a => .v 0x183 a
  | .qunpk a => .v 0x184 a
  | .mov a => .v 0x200 a
  | .movi a => .i 0x201 a
  | .movs a => .v 0x202 a
  | .rdlane a => .i 0x203 a
  | .wrlane a => .i 0x204 a
  | .shfl a => .v 0x205 a
  | .shflImm a => .i 0x205 a
  | .vote a => .v 0x206 a
  | .matchV a => .v 0x207 a
  | .redux a => .v 0x208 a
  | .scan a => .v 0x209 a
  | .mset a => .i 0x220 a
  | .mmov a => .v 0x221 a
  | .mand a => .v 0x222 a
  | .mor a => .v 0x223 a
  | .mxor a => .v 0x224 a
  | .mnot a => .v 0x225 a
  | .mpopc a => .v 0x226 a
  | .mffs a => .v 0x227 a
  | .smov a => .v 0x240 a
  | .smovi a => .i 0x241 a
  | .sadd a => .v 0x242 a
  | .saddImm a => .i 0x242 a
  | .ssub a => .v 0x243 a
  | .ssubImm a => .i 0x243 a
  | .smul a => .v 0x244 a
  | .smulImm a => .i 0x244 a
  | .sand a => .v 0x245 a
  | .sandImm a => .i 0x245 a
  | .sor a => .v 0x246 a
  | .sorImm a => .i 0x246 a
  | .sxor a => .v 0x247 a
  | .sxorImm a => .i 0x247 a
  | .sshl a => .v 0x248 a
  | .sshlImm a => .i 0x248 a
  | .sshr a => .v 0x249 a
  | .sshrImm a => .i 0x249 a
  | .scmp a => .v 0x24A a
  | .crd a => .s 0x260 a
  | .cwr a => .s 0x261 a
  | .bra a => .b 0x280 a
  | .brc a => .b 0x281 a
  | .bru a => .b 0x282 a
  | .brx a => .s 0x283 a
  | .call a => .b 0x284 a
  | .callx a => .s 0x285 a
  | .ret a => .s 0x286 a
  | .exit a => .s 0x287 a
  | .park a => .s 0x288 a
  | .yield a => .s 0x289 a
  | .loopb a => .s 0x28A a
  | .nop a => .s 0x28B a
  | .ld a => .m 0x300 a
  | .st a => .m 0x301 a
  | .lds a => .m 0x310 a
  | .sts a => .m 0x311 a
  | .ldf a => .m 0x312 a
  | .stf a => .m 0x313 a
  | .feset a => .s 0x314 a
  | .feclr a => .s 0x315 a
  | .tlook a => .v 0x320 a
  | .tins a => .v 0x321 a
  | .tdrop a => .v 0x322 a
  | .pref a => .m 0x330 a
  | .drop a => .m 0x331 a
  | .stm a => .m 0x340 a
  | .mctw a => .s 0x341 a
  | .atom a => .m 0x400 a
  | .cas a => .m 0x401 a
  | .rowop a => .m 0x410 a
  | .rowld a => .m 0x411 a
  | .mcas a => .t 0x420 a
  | .chase a => .t 0x430 a
  | .chaser a => .t 0x431 a
  | .kenq a => .t 0x432 a
  | .kdeq a => .t 0x433 a
  | .kvup a => .t 0x434 a
  | .krcp a => .t 0x435 a
  | .fence a => .m 0x480 a
  | .isync a => .s 0x481 a
  | .icinv a => .s 0x482 a
  | .pwb a => .m 0x490 a
  | .pbar a => .s 0x491 a
  | .step a => .s 0x492 a
  | .sigadd a => .m 0x4A0 a
  | .sigdec a => .m 0x4A1 a
  | .sigwait a => .m 0x4A2 a
  | .tmld a => .t 0x500 a
  | .tmst a => .t 0x501 a
  | .tmset a => .t 0x502 a
  | .amaxrd a => .t 0x503 a
  | .amaxclr a => .t 0x504 a
  | .origrd a => .t 0x505 a
  | .acopy a => .t 0x520 a
  | .acopyr a => .t 0x521 a
  | .afill a => .t 0x522 a
  | .areduce a => .t 0x523 a
  | .agather a => .t 0x524 a
  | .fwait a => .t 0x540 a
  | .ftest a => .t 0x541 a
  | .fcancel a => .t 0x542 a
  | .tlwait a => .t 0x543 a
  | .tlrd a => .t 0x544 a
  | .mfork a => .b 0x560 a
  | .mjoin a => .t 0x561 a
  | .nbara a => .t 0x562 a
  | .nbarw a => .t 0x563 a
  | .ldstat a => .t 0x600 a
  | .swaps a => .t 0x601 a
  | .mma a => .t 0x602 a
  | .mmad a => .t 0x603 a
  | .aclr a => .t 0x604 a
  | .ald a => .t 0x605 a
  | .drain a => .t 0x606 a
  | .drainq a => .t 0x607 a
  | .mbarArr a => .t 0x608 a
  | .mbarWait a => .t 0x608 a
  | .mexit a => .t 0x609 a
  | .bar a => .s 0x700 a
  | .bara a => .s 0x701 a
  | .barw a => .s 0x702 a
  | .gbar a => .s 0x703 a
  | .spawn a => .s 0x740 a
  | .handoff a => .s 0x741 a
  | .retire a => .s 0x742 a
  | .snap a => .t 0x760 a
  | .snapq a => .s 0x761 a
  | .rbld a => .t 0x762 a
  | .stripe a => .t 0x763 a
  | .trap a => .s 0x780 a
  | .event a => .s 0x781 a
  | .rdtime a => .s 0x782 a
  | .prd a => .s 0x783 a
  | .eret a => .s 0x7C0 a
  | .tlbinv a => .t 0x7C1 a
  | .xlate a => .s 0x7C2 a
  | .preempt a => .s 0x7C3 a
  | .pwr a => .s 0x7C4 a
  | .illegalInstr w _ => .raw w
  | .cfgLoad | .attest | .regRead | .regWrite | .ctxCreate | .ctxKill | .ctxStep
  | .reset | .queueNotify | .queueConfigWrite | .planApply | .counterClear
  | .snapshotControlWrite | .channelRetire | .errorRingHeadWrite | .powerCapWrite
  | .migrateStripe | .parkWriteEvaluation | .parkPeriodicEvaluation | .sigwaitWriteEvaluation
  | .sigwaitPeriodicEvaluation | .l1DirtyWriteback | .l1CleanDrop | .mapperRebalance
  | .readinessPeriodicEvaluation | .candidateReserving | .taskAdmission | .timeSliceExpiry
  | .preemptionSave | .gangResume | .teamRetirement | .successorAdmission | .pageReply
  | .copyUnit | .chaseStep | .kioskListStep | .rowStep | .kvupChunk | .recipeInstall
  | .imageLineCopy | .persistAccept | .persistDrain | .stripeContribution | .rebuildContribution
  | .powerLoss | .powerReturn | .powerControlTick | .thermalLimit | .thermalTrip
  | .stackThermalHold | .stackThermalRelease | .tempHold | .rowActivationRefresh | .patrolScrub
  | .memoryRequestService | .linkRunRetry | .linkDown | .linkTraining | .laserRetune
  | .peerUnreachable | .fabricRequest | .fabricResponse | .copyEnginePacket | .multicastCopy
  | .multicastRowUpdate | .remoteWriteAck | .tlbInvalidateMessage | .controlPortFailure
  | .controlNodeMemoryWrite | .eventDelivery | .gets | .getm | .upg | .pute | .puto
  | .putm | .invMsg | .fwds | .fwdm | .dataMsg | .upgack | .invack | .putack
  | .doneMsg | .lineLock | .preemptCommand | .multicastReplicaWrite | .survivorRebuildWork => .device

/-- The instruction of an opcode in its class with operands `a`. -/
def Instr.ofV (op : Nat) (a : VArgs) : Option Instr :=
  match op with
  | 0x001 => some (.iadd a)
  | 0x002 => some (.isub a)
  | 0x003 => some (.iaddc a)
  | 0x004 => some (.iadds a)
  | 0x005 => some (.imul a)
  | 0x006 => some (.imulh a)
  | 0x007 => some (.imad a)
  | 0x008 => some (.idiv a)
  | 0x009 => some (.irem a)
  | 0x00A => some (.imin a)
  | 0x00B => some (.imax a)
  | 0x00C => some (.iabs a)
  | 0x00D => some (.ineg a)
  | 0x00E => some (.icmp a)
  | 0x00F => some (.isel a)
  | 0x010 => some (.iclamp a)
  | 0x011 => some (.isad a)
  | 0x012 => some (.iadd64 a)
  | 0x013 => some (.isub64 a)
  | 0x014 => some (.imul64 a)
  | 0x015 => some (.aadd a)
  | 0x016 => some (.alea a)
  | 0x040 => some (.and a)
  | 0x041 => some (.or a)
  | 0x042 => some (.xor a)
  | 0x043 => some (.andn a)
  | 0x044 => some (.not a)
  | 0x045 => some (.shl a)
  | 0x046 => some (.shr a)
  | 0x047 => some (.sar a)
  | 0x048 => some (.rot a)
  | 0x049 => some (.fshl a)
  | 0x04A => some (.fshr a)
  | 0x04B => some (.bfx a)
  | 0x04C => some (.bfi a)
  | 0x04D => some (.popc a)
  | 0x04E => some (.clz a)
  | 0x04F => some (.brev a)
  | 0x050 => some (.bytx a)
  | 0x100 => some (.fadd a)
  | 0x101 => some (.fsub a)
  | 0x102 => some (.fmul a)
  | 0x103 => some (.ffma a)
  | 0x104 => some (.fmin a)
  | 0x105 => some (.fmax a)
  | 0x106 => some (.fabs a)
  | 0x107 => some (.fneg a)
  | 0x108 => some (.fcmp a)
  | 0x109 => some (.fclass a)
  | 0x10A => some (.frcp a)
  | 0x10B => some (.frsq a)
  | 0x10C => some (.fsqrt a)
  | 0x10D => some (.fdiv a)
  | 0x10E => some (.fex2 a)
  | 0x10F => some (.flg2 a)
  | 0x110 => some (.ftanh a)
  | 0x111 => some (.frnd a)
  | 0x112 => some (.fscale a)
  | 0x120 => some (.hadd2 a)
  | 0x121 => some (.hmul2 a)
  | 0x122 => some (.hfma2 a)
  | 0x123 => some (.hdot2 a)
  | 0x140 => some (.dot4E4m3 a)
  | 0x141 => some (.dot4E5m2 a)
  | 0x142 => some (.dot4I8 a)
  | 0x143 => some (.dot8E2m1 a)
  | 0x144 => some (.dot8I4 a)
  | 0x180 => some (.cvt a)
  | 0x181 => some (.qblk a)
  | 0x182 => some (.qpack4 a)
  | 0x183 => some (.qpack8 a)
  | 0x184 => some (.qunpk a)
  | 0x200 => some (.mov a)
  | 0x202 => some (.movs a)
  | 0x205 => some (.shfl a)
  | 0x206 => some (.vote a)
  | 0x207 => some (.matchV a)
  | 0x208 => some (.redux a)
  | 0x209 => some (.scan a)
  | 0x221 => some (.mmov a)
  | 0x222 => some (.mand a)
  | 0x223 => some (.mor a)
  | 0x224 => some (.mxor a)
  | 0x225 => some (.mnot a)
  | 0x226 => some (.mpopc a)
  | 0x227 => some (.mffs a)
  | 0x240 => some (.smov a)
  | 0x242 => some (.sadd a)
  | 0x243 => some (.ssub a)
  | 0x244 => some (.smul a)
  | 0x245 => some (.sand a)
  | 0x246 => some (.sor a)
  | 0x247 => some (.sxor a)
  | 0x248 => some (.sshl a)
  | 0x249 => some (.sshr a)
  | 0x24A => some (.scmp a)
  | 0x320 => some (.tlook a)
  | 0x321 => some (.tins a)
  | 0x322 => some (.tdrop a)
  | _ => none

/-- The instruction of an opcode in its class with operands `a`. -/
def Instr.ofI (op : Nat) (a : IArgs) : Option Instr :=
  match op with
  | 0x001 => some (.iaddImm a)
  | 0x002 => some (.isubImm a)
  | 0x005 => some (.imulImm a)
  | 0x00A => some (.iminImm a)
  | 0x00B => some (.imaxImm a)
  | 0x017 => some (.imovw a)
  | 0x040 => some (.andImm a)
  | 0x041 => some (.orImm a)
  | 0x042 => some (.xorImm a)
  | 0x043 => some (.andnImm a)
  | 0x045 => some (.shlImm a)
  | 0x046 => some (.shrImm a)
  | 0x047 => some (.sarImm a)
  | 0x048 => some (.rotImm a)
  | 0x201 => some (.movi a)
  | 0x203 => some (.rdlane a)
  | 0x204 => some (.wrlane a)
  | 0x205 => some (.shflImm a)
  | 0x220 => some (.mset a)
  | 0x241 => some (.smovi a)
  | 0x242 => some (.saddImm a)
  | 0x243 => some (.ssubImm a)
  | 0x244 => some (.smulImm a)
  | 0x245 => some (.sandImm a)
  | 0x246 => some (.sorImm a)
  | 0x247 => some (.sxorImm a)
  | 0x248 => some (.sshlImm a)
  | 0x249 => some (.sshrImm a)
  | _ => none

/-- The instruction of an opcode in its class with operands `a`. -/
def Instr.ofM (op : Nat) (a : MArgs) : Option Instr :=
  match op with
  | 0x300 => some (.ld a)
  | 0x301 => some (.st a)
  | 0x310 => some (.lds a)
  | 0x311 => some (.sts a)
  | 0x312 => some (.ldf a)
  | 0x313 => some (.stf a)
  | 0x330 => some (.pref a)
  | 0x331 => some (.drop a)
  | 0x340 => some (.stm a)
  | 0x400 => some (.atom a)
  | 0x401 => some (.cas a)
  | 0x410 => some (.rowop a)
  | 0x411 => some (.rowld a)
  | 0x480 => some (.fence a)
  | 0x490 => some (.pwb a)
  | 0x4A0 => some (.sigadd a)
  | 0x4A1 => some (.sigdec a)
  | 0x4A2 => some (.sigwait a)
  | _ => none

/-- The instruction of an opcode in its class with operands `a`. -/
def Instr.ofB (op : Nat) (a : BArgs) : Option Instr :=
  match op with
  | 0x280 => some (.bra a)
  | 0x281 => some (.brc a)
  | 0x282 => some (.bru a)
  | 0x284 => some (.call a)
  | 0x560 => some (.mfork a)
  | _ => none

/-- The instruction of an opcode in its class with operands `a`. -/
def Instr.ofT (op : Nat) (a : TArgs) : Option Instr :=
  match op with
  | 0x420 => some (.mcas a)
  | 0x430 => some (.chase a)
  | 0x431 => some (.chaser a)
  | 0x432 => some (.kenq a)
  | 0x433 => some (.kdeq a)
  | 0x434 => some (.kvup a)
  | 0x435 => some (.krcp a)
  | 0x500 => some (.tmld a)
  | 0x501 => some (.tmst a)
  | 0x502 => some (.tmset a)
  | 0x503 => some (.amaxrd a)
  | 0x504 => some (.amaxclr a)
  | 0x505 => some (.origrd a)
  | 0x520 => some (.acopy a)
  | 0x521 => some (.acopyr a)
  | 0x522 => some (.afill a)
  | 0x523 => some (.areduce a)
  | 0x524 => some (.agather a)
  | 0x540 => some (.fwait a)
  | 0x541 => some (.ftest a)
  | 0x542 => some (.fcancel a)
  | 0x543 => some (.tlwait a)
  | 0x544 => some (.tlrd a)
  | 0x561 => some (.mjoin a)
  | 0x562 => some (.nbara a)
  | 0x563 => some (.nbarw a)
  | 0x600 => some (.ldstat a)
  | 0x601 => some (.swaps a)
  | 0x602 => some (.mma a)
  | 0x603 => some (.mmad a)
  | 0x604 => some (.aclr a)
  | 0x605 => some (.ald a)
  | 0x606 => some (.drain a)
  | 0x607 => some (.drainq a)
  | 0x608 => some (if a.d == 0 then .mbarArr a else .mbarWait a)
  | 0x609 => some (.mexit a)
  | 0x760 => some (.snap a)
  | 0x762 => some (.rbld a)
  | 0x763 => some (.stripe a)
  | 0x7C1 => some (.tlbinv a)
  | _ => none

/-- The instruction of an opcode in its class with operands `a`. -/
def Instr.ofS (op : Nat) (a : SArgs) : Option Instr :=
  match op with
  | 0x260 => some (.crd a)
  | 0x261 => some (.cwr a)
  | 0x283 => some (.brx a)
  | 0x285 => some (.callx a)
  | 0x286 => some (.ret a)
  | 0x287 => some (.exit a)
  | 0x288 => some (.park a)
  | 0x289 => some (.yield a)
  | 0x28A => some (.loopb a)
  | 0x28B => some (.nop a)
  | 0x314 => some (.feset a)
  | 0x315 => some (.feclr a)
  | 0x341 => some (.mctw a)
  | 0x481 => some (.isync a)
  | 0x482 => some (.icinv a)
  | 0x491 => some (.pbar a)
  | 0x492 => some (.step a)
  | 0x700 => some (.bar a)
  | 0x701 => some (.bara a)
  | 0x702 => some (.barw a)
  | 0x703 => some (.gbar a)
  | 0x740 => some (.spawn a)
  | 0x741 => some (.handoff a)
  | 0x742 => some (.retire a)
  | 0x761 => some (.snapq a)
  | 0x780 => some (.trap a)
  | 0x781 => some (.event a)
  | 0x782 => some (.rdtime a)
  | 0x783 => some (.prd a)
  | 0x7C0 => some (.eret a)
  | 0x7C2 => some (.xlate a)
  | 0x7C3 => some (.preempt a)
  | 0x7C4 => some (.pwr a)
  | _ => none

/-! ### Encoding (04 Tables 4.1-4.8) -/

/-- The full-form fields of a shape; a paired word, a raw word and a device step have none. -/
def Shape.fields : Shape → Option Fields
  | .v op a => some
      { op := op, d := a.d, a := a.a, b := a.b, la := a.la, lb := a.lb, nw := a.nw, cls := 0,
        x := BitVec.ofNat 16 (a.ty.code.toNat * 2 ^ 12 + a.rnd.code.toNat * 2 ^ 9 + a.ftz.toNat * 2 ^ 8
          + a.sat.toNat * 2 ^ 7 + a.ty2.toNat * 2 ^ 3 + a.sub.toNat) }
  | .i op a => some
      { op := op, d := a.d, a := a.a, b := BitVec.ofNat 10 (a.imm.toNat / 2 ^ 16), la := a.la, lb := false, nw := a.nw,
        cls := 1, x := BitVec.ofNat 16 a.imm.toNat }
  | .m op a => some
      { op := op, d := a.d, a := a.a, b := a.b, la := false, lb := a.off, nw := false, cls := 2,
        x := BitVec.ofNat 16 (a.scope.code.toNat * 2 ^ 12 + a.order.code.toNat * 2 ^ 9 + a.hint.toNat * 2 ^ 5
          + a.svc.toNat * 2 ^ 3 + a.width.code.toNat) }
  | .b op a => some
      { op := op, d := a.d, a := a.a, b := BitVec.ofNat 10 (a.off.toNat / 2 ^ 16), la := false, lb := false, nw := false,
        cls := 3, x := BitVec.ofNat 16 a.off.toNat }
  | .t op a => some
      { op := op, d := a.d, a := a.a, b := a.b, la := false, lb := false, nw := false, cls := 4,
        x := BitVec.ofNat 16 (a.tmap.toNat * 2 ^ 12 + a.rnd.code.toNat * 2 ^ 9 + a.ftz.toNat * 2 ^ 8 + a.op.toNat) }
  | .s op a => some
      { op := op, d := a.d, a := a.a, b := a.b, la := false, lb := false, nw := false, cls := 5, x := a.imm }
  | .p _ => none
  | .raw _ => none
  | .device => none

/-- The fields of an instruction in full form. -/
def Instr.fields (i : Instr) : Option Fields := i.shape.fields

/-- A paired word: `P` set, slot A in bits [62:32], slot B in bits [31:1] (04 R86). -/
def PArgs.toWord (p : PArgs) : Word64 :=
  BitVec.ofNat 64 (2 ^ 63 + p.slotA.raw.toNat * 2 ^ 32 + p.slotB.raw.toNat * 2)

/-- The word of an instruction; a device step has none. -/
def encode (i : Instr) : Option Word64 :=
  match i.shape with
  | .p a => some a.toWord
  | .raw w => some w
  | .device => none
  | sh => sh.fields.map Fields.toWord

/-! ### Decoding -/

/-- The operands of class 000. -/
def Fields.vArgs (f : Fields) : Option VArgs :=
  (Rnd.ofCode (f.x.extractLsb' 9 3)).map fun r =>
    { d := f.d, a := f.a, b := f.b, la := f.la, lb := f.lb, nw := f.nw, ty := f.ty, rnd := r,
      ftz := f.x.getLsbD 8, sat := f.x.getLsbD 7, ty2 := f.x.extractLsb' 3 4, sub := f.x.extractLsb' 0 3 }

/-- The operands of class 010. -/
def Fields.mArgs (f : Fields) : Option MArgs :=
  match Scope.ofCode (f.x.extractLsb' 12 4), Order.ofCode (f.x.extractLsb' 9 3), Width.ofCode (f.x.extractLsb' 0 3) with
  | some sc, some o, some w => some
      { d := f.d, a := f.a, b := f.b, off := f.lb, scope := sc, order := o, hint := f.x.extractLsb' 5 4,
        svc := f.x.extractLsb' 3 2, width := w }
  | _, _, _ => none

/-- The operands of class 100. -/
def Fields.tArgs (f : Fields) : Option TArgs :=
  (Rnd.ofCode (f.x.extractLsb' 9 3)).map fun r =>
    { d := f.d, a := f.a, b := f.b, tmap := f.x.extractLsb' 12 4, rnd := r, ftz := f.x.getLsbD 8, op := f.x.extractLsb' 0 8 }

/-- The instruction that legal fields encode. -/
def Fields.instr (f : Fields) : Option Instr :=
  match f.cls.toNat with
  | 0 => f.vArgs.bind (Instr.ofV f.op.toNat)
  | 1 => Instr.ofI f.op.toNat { d := f.d, a := f.a, la := f.la, nw := f.nw, imm := f.imm }
  | 2 => f.mArgs.bind (Instr.ofM f.op.toNat)
  | 3 => Instr.ofB f.op.toNat { d := f.d, a := f.a, off := f.imm }
  | 4 => f.tArgs.bind (Instr.ofT f.op.toNat)
  | 5 => Instr.ofS f.op.toNat { d := f.d, a := f.a, b := f.b, imm := f.x }
  | _ => none

/-- Decode a paired word (04 R86-R89); in a matrix stream it is no instruction (04 R94). -/
def decodePair (rd : Reader) (w : Word64) : Instr :=
  let ra := RawSlot.ofWord w 32
  let rb := RawSlot.ofWord w 1
  let bit0 : Option Cause := if w.getLsbD 0 then some .strayBit else none
  match ra.slot?, rb.slot? with
  | some x, some y =>
    let own := Cause.min bit0 (PArgs.cause rd { slotA := x, slotB := y })
    if rd.matrix then .illegalInstr w (streamCause own)
    else match own with
      | some c => .illegalInstr w c
      | none => .pairedWord { slotA := x, slotB := y }
  | _, _ => .illegalInstr w .unassigned

/-- Decode a full-form word: the instruction, or `ILLEGAL_INSTR` with the lowest cause that applies (04 R95). -/
def decodeFull (rd : Reader) (w : Word64) : Instr :=
  let f := Fields.ofWord w
  match f.cause rd with
  | some c => .illegalInstr w c
  | none => match f.instr with
    | some i => i
    | none => .illegalInstr w .badCode

/-- Decode any word (04 R74-R95). -/
def decode (rd : Reader) (w : Word64) : Instr :=
  if w.getLsbD 63 then decodePair rd w else decodeFull rd w

/-- The instruction the decoder reads from 64 bits numbered as the word numbers them; every Mocia instruction has 64
bits (04 R74), so any other number of bits is no instruction. A matrix-stream word is read as one of a stream. -/
def decodeTableWord (nbits w : Nat) : Option Instr :=
  if nbits != 64 then none
  else
    let word := BitVec.ofNat 64 w
    match decode { matrix := !word.getLsbD 63 && isMatrixOp (Fields.ofWord word).op.toNat } word with
    | .illegalInstr _ _ => none
    | i => some i

end Sys2Proof
end

