-- ==== Sys2Proof/Config.lean ====
section
/-!
DEFINITION. What the spec leaves open as a value: constants without a body, so that no proof can see what they are
(logs 3, 35, 37, 38 and 39). Each is applied to a counter or to the operands it depends on.
-/
namespace Sys2Proof

/-- The clocks that a step of the model takes: no rule fixes their number (log 3). -/
opaque Config.clocksOf : (step : Nat) → Word64

/-- The bytes of a save area, whose layout the spec does not give (13 R361; log 35). -/
opaque Config.saveByte : Nat → Byte

/-- What a self-test finds: the cause of its failure, 0 for none (20 R441; log 37). -/
opaque Config.selfTestCause : Nat → Nat

/-- The bytes of the ROM's SHA-384 digest, and of the ECDSA and the LMS root key held in ROM (20 R440, R442; log 38). -/
opaque Config.romByte : Nat → Byte
opaque Config.rootKeyByte : Nat → Byte

/-- What the seed of the part gives: the secret of the device ECDSA key, the LMS seed and the identifier of its tree (20 R443;
log 38). -/
opaque Config.deviceSecret : Nat
opaque Config.lmsSeedByte : Nat → Byte
opaque Config.lmsIdByte : Nat → Byte

/-- What the signer draws for the report of a leaf: the number of ECDSA, and the bytes of LMS (20 R444; log 38). -/
opaque Config.ecdsaDraw : (leaf : Nat) → Nat
opaque Config.lmsDraw : (leaf k : Nat) → Byte

/-- The throttle that the firmware chooses at a tick, from a draw, the mean power and the cap (20 R446; log 39). -/
opaque Config.throttle : (draw power cap : Nat) → Nat

end Sys2Proof
end

