-- ==== Sys2Proof/Machine/Bits.lean ====
section
/-!
DEFINITION. Bit-field, sign-extension, byte-order and lane-list helpers that the meanings share (00 R2, R3; 04 R80).
-/
namespace Sys2Proof.Machine

/-- `bits(x, lo + w - 1, lo)` of a number (00 R3). -/
def field (x lo w : Nat) : Nat := x / 2 ^ lo % 2 ^ w

/-- `sext(x, n)` of a number below 2^n (00 R3). -/
def sext (x n : Nat) : Int := if x % 2 ^ n < 2 ^ (n - 1) then (x % 2 ^ n : Nat) else (x % 2 ^ n : Nat) - (2 ^ n : Nat)

/-- An integer modulo 2^n. -/
def wrap (n : Nat) (x : Int) : Nat := (x % (2 ^ n : Nat)).toNat

/-- The low 32 bits of an integer. -/
def w32 (x : Int) : Word32 := BitVec.ofInt 32 x
/-- The low 64 bits of an integer. -/
def w64 (x : Int) : Word64 := BitVec.ofInt 64 x

/-- The number of bits of the binary form of `m`; 0 for 0. -/
def bitLen (m : Nat) : Nat := if m = 0 then 0 else Nat.log2 m + 1

/-- The value of bytes stored little-endian, lowest address first (00 R2). -/
def leValue : List Byte → Nat
  | [] => 0
  | b :: bs => b.toNat + 256 * leValue bs

/-- The `n` bytes of a value, lowest address first (00 R2). -/
def leBytes : Nat → Nat → List Byte
  | 0, _ => []
  | n + 1, v => BitVec.ofNat 8 v :: leBytes n (v / 256)

/-- A 64-bit value of two lane words, the lower-numbered register in bits [31:0] (02 R41). -/
def pair64 (lo hi : Word32) : Word64 := BitVec.ofNat 64 (lo.toNat + hi.toNat * 2 ^ 32)
/-- Bits [31:0]. -/
def lo32 (x : Word64) : Word32 := x.extractLsb' 0 32
/-- Bits [63:32]. -/
def hi32 (x : Word64) : Word32 := x.extractLsb' 32 32

/-- The lanes of a group, ascending. -/
def laneIds : List Nat := List.range 32

/-- One 32-bit word per lane. -/
abbrev Lanes := List Word32

/-- The value in lane `l`. -/
def Lanes.at (v : Lanes) (l : Nat) : Word32 := v.getD l 0

/-- A register built lane by lane. -/
def Lanes.make (f : Nat → Word32) : Lanes := laneIds.map f

/-- The lane mask of a predicate on lanes. -/
def maskOf (p : Nat → Bool) : Word32 :=
  BitVec.ofNat 32 (laneIds.foldl (fun acc l => if p l then acc + 2 ^ l else acc) 0)

/-- The lanes of a mask, ascending. -/
def lanesOf (m : Word32) : List Nat := laneIds.filter fun l => m.getLsbD l

/-- The number of set bits. -/
def popcount (m : Word32) : Nat := (lanesOf m).length

/-- The smallest element of a nonempty list. -/
def minOf : List Nat → Option Nat
  | [] => none
  | x :: xs => match minOf xs with
    | none => some x
    | some y => some (min x y)

/-- One bit of the check register of R412: shift left, with the polynomial where a 1 leaves. -/
def crcShift (c : Nat) : Nat := if c < 2 ^ 15 then 2 * c else (2 * c) % 2 ^ 16 ^^^ 0x8BB7

/-- One byte into the check register. -/
def crcByte (c : Nat) (b : Byte) : Nat := Nat.repeat crcShift 8 (c ^^^ b.toNat * 2 ^ 8)

/-- The CRC-16 of bytes in order: polynomial 0x8BB7, initial value 0xFFFF, no reflection, no final XOR (17 R412). -/
def crc16 (bs : List Byte) : Nat := bs.foldl crcByte 0xFFFF

/-- Round up to a multiple of `k`. -/
def alignUp (x k : Nat) : Nat := (x + k - 1) / k * k

end Sys2Proof.Machine
end

