-- ==== Sys2Proof/Machine/Crypto.lean ====
section
/-!
DEFINITION. The hashes and signatures that 20 R442-R444 name: SHA-384 and SHA-256, ECDSA on P-384, and LMS_SHA256_M32_H20 with
LMOTS_SHA256_N32_W4 of NIST SP 800-208. The spec names the standards; what they say is taken from them (log 38).
-/
namespace Sys2Proof.Machine.Crypto

/-! ### Numbers as bytes, the highest first -/

def beBytes (n v : Nat) : List Byte := (leBytes n v).reverse
def beValue (bs : List Byte) : Nat := leValue bs.reverse

/-! ### SHA-2 (FIPS 180-4) -/

/-- The first `n` primes, for `n` at most 80. -/
def primes (n : Nat) : List Nat :=
  ((List.range 410).filter fun p => 2 ≤ p && (List.range p).all fun d => d < 2 || p % d != 0).take n

/-- The floor of the `k`-th root of `x`, below `2 ^ bits`. -/
def rootOf (k x : Nat) : Nat → Nat → Nat
  | 0, r => r
  | bits + 1, r => rootOf k x bits (if (r + 2 ^ bits) ^ k ≤ x then r + 2 ^ bits else r)

/-- The first `w` bits of the fractional part of the `k`-th root of a prime. -/
def fraction (k w p : Nat) : BitVec w := BitVec.ofNat w (rootOf k (p * 2 ^ (k * w)) (w + 5) 0)

/-- A hash of the family: its initial words, its round constants and the rotations of its four functions. -/
structure Sha2 (w : Nat) where
  start : List (BitVec w)
  rounds : List (BitVec w)
  big0 : Nat × Nat × Nat
  big1 : Nat × Nat × Nat
  /-- two rotations and a shift -/
  small0 : Nat × Nat × Nat
  small1 : Nat × Nat × Nat

def sha256 : Sha2 32 where
  start := (primes 8).map (fraction 2 32)
  rounds := (primes 64).map (fraction 3 32)
  big0 := (2, 13, 22)
  big1 := (6, 11, 25)
  small0 := (7, 18, 3)
  small1 := (17, 19, 10)

def sha384 : Sha2 64 where
  start := ((primes 16).drop 8).map (fraction 2 64)
  rounds := (primes 80).map (fraction 3 64)
  big0 := (28, 34, 39)
  big1 := (14, 18, 41)
  small0 := (1, 8, 7)
  small1 := (19, 61, 6)

variable {w : Nat}

def turns3 (r : Nat × Nat × Nat) (x : BitVec w) : BitVec w := x.rotateRight r.1 ^^^ x.rotateRight r.2.1 ^^^ x.rotateRight r.2.2
def turns2 (r : Nat × Nat × Nat) (x : BitVec w) : BitVec w := x.rotateRight r.1 ^^^ x.rotateRight r.2.1 ^^^ (x >>> r.2.2)

/-- The message schedule, the latest word first. -/
def Sha2.schedule (h : Sha2 w) : Nat → List (BitVec w) → List (BitVec w)
  | 0, ws => ws
  | n + 1, ws =>
    let at_ := fun (k : Nat) => ws.getD k 0
    h.schedule n ((turns2 h.small1 (at_ 1) + at_ 6 + turns2 h.small0 (at_ 14) + at_ 15) :: ws)

/-- One round with a constant and a word of the schedule. -/
def Sha2.round (h : Sha2 w) (v : List (BitVec w)) (kw : BitVec w × BitVec w) : List (BitVec w) :=
  match v with
  | [a, b, c, d, e, f, g, i] =>
    let t1 := i + turns3 h.big1 e + ((e &&& f) ^^^ (~~~e &&& g)) + kw.1 + kw.2
    let t2 := turns3 h.big0 a + ((a &&& b) ^^^ (a &&& c) ^^^ (b &&& c))
    [t1 + t2, a, b, c, d + t1, e, f, g]
  | _ => v

/-- One block of 16 words. -/
def Sha2.block (h : Sha2 w) (v : List (BitVec w)) (ws : List (BitVec w)) : List (BitVec w) :=
  let all := (h.schedule (h.rounds.length - 16) ws.reverse).reverse
  (v.zip ((h.rounds.zip all).foldl h.round v)).map fun p => p.1 + p.2

/-- A message with its padding: a one bit, zeros, and its length in bits in two words. -/
def padded (w : Nat) (bs : List Byte) : List Byte :=
  let fill := 2 * w - 1 - (bs.length + w / 4) % (2 * w)
  bs ++ [0x80] ++ List.replicate fill 0 ++ beBytes (w / 4) (8 * bs.length)

/-- The words of all blocks of a message. -/
def Sha2.words (w : Nat) (bs : List Byte) : List (BitVec w) :=
  (List.range (bs.length / (w / 8))).map fun k => BitVec.ofNat w (beValue ((bs.drop (k * (w / 8))).take (w / 8)))

/-- The hash of a message: its first `n` bytes. -/
def Sha2.hash (h : Sha2 w) (n : Nat) (bs : List Byte) : List Byte :=
  let ws := Sha2.words w (padded w bs)
  let out := (List.range (ws.length / 16)).foldl (fun v k => h.block v ((ws.drop (16 * k)).take 16)) h.start
  (out.flatMap fun x => beBytes (w / 8) x.toNat).take n

/-- SHA-384 of some bytes. -/
def hash384 (bs : List Byte) : List Byte := sha384.hash 48 bs
/-- SHA-256 of some bytes. -/
def hash256 (bs : List Byte) : List Byte := sha256.hash 32 bs

/-! ### P-384 (FIPS 186-5, SP 800-186) -/

def p384 : Nat := 2 ^ 384 - 2 ^ 128 - 2 ^ 96 + 2 ^ 32 - 1
def order384 : Nat := 0xffffffffffffffffffffffffffffffffffffffffffffffffc7634d81f4372ddf581a0db248b0a77aecec196accc52973
def b384 : Nat := 0xb3312fa7e23ee7e4988e056be3f82d19181d9c6efe8141120314088f5013875ac656398d8a2ed19d2a85c8edd3ec2aef

/-- A point of the curve: the point at infinity is none. -/
abbrev Point := Option (Nat × Nat)

def base384 : Point :=
  some (0xaa87ca22be8b05378eb1c71ef320ad746e1d3b628ba79b9859f741e082542a385502f25dbf55296c3a545e3872760ab7,
        0x3617de4a96262c6f5d9e98bf9292dc29f8f41dbd289a147ce9da3113b5f0b8c00a60b1ce1d7e819d7a431d7c90ea0e5f)

/-- A power modulo `m`, for exponents below `2 ^ 384`. -/
def powMod (m x e : Nat) : Nat :=
  ((List.range 384).foldl (fun (acc : Nat × Nat) k => (if e.testBit k then acc.1 * acc.2 % m else acc.1, acc.2 * acc.2 % m)) (1, x % m)).1

/-- The inverse modulo a prime. -/
def inverse (m x : Nat) : Nat := powMod m x (m - 2)

/-- The sum of two points. -/
def addPoints : Point → Point → Point
  | none, q => q
  | p, none => p
  | some (x1, y1), some (x2, y2) =>
    let minus := fun (a b : Nat) => (a + (p384 - b % p384)) % p384
    let through := fun (l : Nat) =>
      let x := minus (minus (l * l) x1) x2
      some (x, minus (l * minus x1 x) y1)
    if x1 == x2 then
      if (y1 + y2) % p384 == 0 then none else through (minus (3 * x1 * x1) 3 * inverse p384 (2 * y1) % p384)
    else through (minus y2 y1 * inverse p384 (minus x2 x1) % p384)

/-- A multiple of a point, for factors below `2 ^ 384`. -/
def timesPoint (k : Nat) (p : Point) : Point :=
  ((List.range 384).foldl (fun (acc : Point × Point) j =>
    (if k.testBit j then addPoints acc.1 acc.2 else acc.1, addPoints acc.2 acc.2)) (none, p)).1

/-- The point that 96 bytes name, x before y: one on the curve. -/
def pointOf (bs : List Byte) : Point :=
  let x := beValue (bs.take 48)
  let y := beValue (bs.drop 48)
  if x < p384 && y < p384 && (y * y + 3 * x) % p384 == (x * x * x + b384) % p384 then some (x, y) else none

/-- The ECDSA signature `r ‖ s` of a message verifies under a key `x ‖ y`. -/
def ecdsaVerifies (key message sig : List Byte) : Bool :=
  let r := beValue (sig.take 48)
  let s := beValue (sig.drop 48)
  let i := inverse order384 s
  (pointOf key).isSome && sig.length == 96 && 0 < r && r < order384 && 0 < s && s < order384 &&
    match addPoints (timesPoint (beValue (hash384 message) * i % order384) base384) (timesPoint (r * i % order384) (pointOf key)) with
    | some (x, _) => x % order384 == r
    | none => false

/-- The key `x ‖ y` of a secret. -/
def ecdsaKey (secret : Nat) : List Byte :=
  let q := (timesPoint secret base384).getD (0, 0)
  beBytes 48 q.1 ++ beBytes 48 q.2

/-- The ECDSA signature of a message with a secret and the number that the signer draws. -/
def ecdsaSign (secret draw : Nat) (message : List Byte) : List Byte :=
  let r := ((timesPoint draw base384).getD (0, 0)).1 % order384
  beBytes 48 r ++ beBytes 48 (inverse order384 draw * (beValue (hash384 message) + r * secret) % order384)

/-! ### LMS_SHA256_M32_H20 with LMOTS_SHA256_N32_W4 (SP 800-208) -/

/-- The type codes of the tree and of its leaves. -/
def lmsType : Nat := 8
def lmotsType : Nat := 3
/-- Chains of a leaf: 64 digits of 4 bits and a checksum of three. -/
def chains : Nat := 67

/-- The four bits in place `k` of some bytes. -/
def digit (bs : List Byte) (k : Nat) : Nat := (bs.getD (k / 2) 0).toNat / (if k % 2 == 0 then 16 else 1) % 16

/-- The hash of a message for leaf `q`, with its checksum: the digits that its chains start or end at. -/
def lmotsDigits (id : List Byte) (q : Nat) (c message : List Byte) : List Nat :=
  let h := hash256 (id ++ beBytes 4 q ++ beBytes 2 0x8181 ++ c ++ message)
  let sum := ((List.range 64).map fun k => 15 - digit h k).sum
  (List.range chains).map (digit (h ++ beBytes 2 (16 * sum)))

/-- `n` steps of chain `i` from digit `j` on. -/
def chain (id : List Byte) (q i : Nat) : Nat → Nat → List Byte → List Byte
  | 0, _, x => x
  | n + 1, j, x => chain id q i n (j + 1) (hash256 (id ++ beBytes 4 q ++ beBytes 2 i ++ beBytes 1 j ++ x))

/-- The key of leaf `q` from the ends of its chains. -/
def lmotsKey (id : List Byte) (q : Nat) (ends : List (List Byte)) : List Byte :=
  hash256 (id ++ beBytes 4 q ++ beBytes 2 0x8080 ++ ends.flatten)

/-- The leaf with number `n` in the tree, and a node above two others. -/
def leafNode (id : List Byte) (n : Nat) (key : List Byte) : List Byte := hash256 (id ++ beBytes 4 n ++ beBytes 2 0x8282 ++ key)
def innerNode (id : List Byte) (n : Nat) (left right : List Byte) : List Byte :=
  hash256 (id ++ beBytes 4 n ++ beBytes 2 0x8383 ++ left ++ right)

/-- Piece `k` of 32 bytes. -/
def piece (bs : List Byte) (k : Nat) : List Byte := (bs.drop (32 * k)).take 32

/-- The LMS signature of a message verifies under a key: type, leaf type, identifier and root. -/
def lmsVerifies (key message sig : List Byte) : Bool :=
  let id := (key.drop 8).take 16
  let q := beValue (sig.take 4)
  let y := sig.drop 40
  let path := sig.drop 2188
  let ends := ((lmotsDigits id q ((sig.drop 8).take 32) message).zipIdx).map fun (d, i) => chain id q i (15 - d) d (piece y i)
  let up := fun (acc : Nat × List Byte) (k : Nat) =>
    (acc.1 / 2, if acc.1 % 2 == 1 then innerNode id (acc.1 / 2) (piece path k) acc.2 else innerNode id (acc.1 / 2) acc.2 (piece path k))
  beValue (key.take 4) == lmsType && beValue ((key.drop 4).take 4) == lmotsType && key.length == 56 && sig.length == 2828
    && q < 2 ^ 20 && beValue ((sig.drop 4).take 4) == lmotsType && beValue ((sig.drop 2184).take 4) == lmsType
    && ((List.range 20).foldl up (2 ^ 20 + q, leafNode id (2 ^ 20 + q) (lmotsKey id q ends))).2 == key.drop 24

/-- The start of chain `i` of leaf `q`, from the seed. -/
def chainStart (id seed : List Byte) (q i : Nat) : List Byte := hash256 (id ++ beBytes 4 q ++ beBytes 2 i ++ beBytes 1 0xFF ++ seed)

/-- The node `n` at a height over the leaves. -/
def node (id seed : List Byte) : (height n : Nat) → List Byte
  | 0, n =>
    let q := n - 2 ^ 20
    leafNode id n (lmotsKey id q ((List.range chains).map fun i => chain id q i 15 0 (chainStart id seed q i)))
  | h + 1, n => innerNode id n (node id seed h (2 * n)) (node id seed h (2 * n + 1))

/-- The key of a seed. -/
def lmsKey (id seed : List Byte) : List Byte := beBytes 4 lmsType ++ beBytes 4 lmotsType ++ id ++ node id seed 20 1

/-- The signature of a message with leaf `q` and the 32 bytes that the signer draws. -/
def lmsSign (id seed : List Byte) (q : Nat) (c message : List Byte) : List Byte :=
  let y := ((lmotsDigits id q c message).zipIdx).map fun (d, i) => chain id q i d 0 (chainStart id seed q i)
  let sibling := fun (k : Nat) => let n := (2 ^ 20 + q) / 2 ^ k; node id seed k (if n % 2 == 1 then n - 1 else n + 1)
  beBytes 4 q ++ beBytes 4 lmotsType ++ c ++ y.flatten ++ beBytes 4 lmsType ++ (List.range 20).flatMap sibling

end Sys2Proof.Machine.Crypto
end

