-- ==== Sys2Proof/Machine/Flags.lean ====
section
/-!
DEFINITION. The sticky floating-point flags of a group, in the bit order of `fpflags` (02 Table 2.4, 03 R64).
-/
namespace Sys2Proof.Machine

/-- [0] invalid, [1] divide by zero, [2] overflow, [3] underflow, [4] inexact, [5] saturated. -/
abbrev Flags := BitVec 6

/-- No flag. -/
def Flags.none : Flags := 0
/-- 03 R64, R65. -/
def Flags.invalid : Flags := 1
/-- 03 R64. -/
def Flags.divZero : Flags := 2
/-- 03 Table 3.4. -/
def Flags.overflow : Flags := 4
/-- 03 R64. -/
def Flags.underflow : Flags := 8
/-- 03 R64. -/
def Flags.inexact : Flags := 16
/-- 03 Table 3.4. -/
def Flags.saturated : Flags := 32

/-- A flag under a condition. -/
def Flags.when (c : Bool) (f : Flags) : Flags := if c then f else 0

/-- The union of the flags of a list. -/
def Flags.union (fs : List Flags) : Flags := fs.foldl (· ||| ·) 0

end Sys2Proof.Machine
end

