-- ==== Sys2Proof/Machine/Fp.lean ====
section
/-!
DEFINITION. Number formats, rounding, NaN origins, block scales and the order of sums (03). A finite value is exact:
a sign, a natural number and a power of two. Rounding happens once, in `roundFin`.
-/
namespace Sys2Proof.Machine

/-- How a format uses its all-ones exponent (03 R55). -/
inductive FmtKind where
  | ieee | e4m3 | finite
  deriving DecidableEq, Repr

/-- A floating-point format (03 Table 3.1). -/
structure Fmt where
  width : Nat
  ebits : Nat
  mbits : Nat
  bias : Nat
  kind : FmtKind
  deriving DecidableEq, Repr

def Fmt.f32 : Fmt := ⟨32, 8, 23, 127, .ieee⟩
def Fmt.f16 : Fmt := ⟨16, 5, 10, 15, .ieee⟩
def Fmt.bf16 : Fmt := ⟨16, 8, 7, 127, .ieee⟩
def Fmt.e4m3 : Fmt := ⟨8, 4, 3, 7, .e4m3⟩
def Fmt.e5m2 : Fmt := ⟨8, 5, 2, 15, .ieee⟩
def Fmt.e2m1 : Fmt := ⟨4, 2, 1, 1, .finite⟩

/-- The floating-point format of a type code, if it is one (04 Table 4.6). -/
def Ty.fmt? : Ty → Option Fmt
  | .f32 => some .f32 | .f16 => some .f16 | .bf16 => some .bf16
  | .e4m3 => some .e4m3 | .e5m2 => some .e5m2 | .e2m1 => some .e2m1
  | _ => none

/-- The width of a type in bits (03 R54, R56). -/
def Ty.width : Ty → Nat
  | .n64 | .i64 => 64 | .n32 | .i32 | .f32 => 32 | .n16 | .i16 | .f16 | .bf16 => 16
  | .n8 | .i8 | .e4m3 | .e5m2 => 8 | .n4 | .i4 | .e2m1 => 4

/-- A signed integer type (03 R56). -/
def Ty.signed : Ty → Bool
  | .i4 | .i8 | .i16 | .i32 | .i64 => true
  | _ => false

/-- A value: a NaN with sign, payload bits [21:0] and whether it signals; an infinity; or (-1)^neg * m * 2^e. -/
inductive FVal where
  | nan (neg : Bool) (pay : BitVec 22) (sig : Bool)
  | inf (neg : Bool)
  | fin (neg : Bool) (m : Nat) (e : Int)
  deriving DecidableEq, Repr

def FVal.isNan : FVal → Bool | .nan .. => true | _ => false
def FVal.isSig : FVal → Bool | .nan _ _ s => s | _ => false
def FVal.isInf : FVal → Bool | .inf _ => true | _ => false
def FVal.isZero : FVal → Bool | .fin _ 0 _ => true | _ => false
def FVal.neg : FVal → Bool | .nan n .. => n | .inf n => n | .fin n .. => n
/-- The sign flipped. -/
def FVal.flip : FVal → FVal | .nan n p s => .nan (!n) p s | .inf n => .inf (!n) | .fin n m e => .fin (!n) m e
/-- Times 2^k. -/
def FVal.scale (v : FVal) (k : Int) : FVal := match v with | .fin n m e => .fin n m (e + k) | v => v

/-- 03 R55, R61, R67: read an encoding. `origin` is the payload a narrow NaN takes. -/
def Fmt.decode (f : Fmt) (ftz : Bool) (origin : BitVec 22) (raw : Nat) : FVal :=
  let neg := field raw (f.width - 1) 1 == 1
  let e := field raw f.mbits f.ebits
  let m := field raw 0 f.mbits
  let top := 2 ^ f.ebits - 1
  let pay := if f.width == 32 then BitVec.ofNat 22 raw else origin
  if f.kind == .ieee && e == top then
    if m == 0 then .inf neg else .nan neg pay (field m (f.mbits - 1) 1 == 0)
  else if f.kind == .e4m3 && e == top && m == 2 ^ f.mbits - 1 then .nan neg pay false
  else if e == 0 then
    if ftz && f.ebits == 8 then .fin neg 0 0 else .fin neg m (1 - (f.bias : Int) - f.mbits)
  else .fin neg (m + 2 ^ f.mbits) ((e : Int) - f.bias - f.mbits)

/-- 03 R56: read an integer encoding. -/
def intDecode (signed : Bool) (w raw : Nat) : FVal :=
  let v : Int := if signed then sext raw w else (raw % 2 ^ w : Nat)
  .fin (v < 0) v.natAbs 0

/-- Read an element of any type. -/
def Ty.decode (t : Ty) (ftz : Bool) (origin : BitVec 22) (raw : Nat) : FVal :=
  match Ty.fmt? t with
  | some f => f.decode ftz origin raw
  | none => intDecode (Ty.signed t) (Ty.width t) raw

/-- An E8M0 scale as a NaN or an exponent (03 R55, R67). -/
def e8m0 (b : Nat) : Option Int := if b % 256 == 255 then none else some ((b % 256 : Nat) - 127)

/-! ### Encodings written -/

/-- The quiet FP32 NaN of a sign and payload (03 R65, R66). -/
def nan32 (neg : Bool) (pay : BitVec 22) : Nat := neg.toNat * 2 ^ 31 + 0x7FC00000 + pay.toNat

/-- The canonical NaN of a format; E2M1 has none and takes 0 (03 Table 3.1, R68). -/
def Fmt.canonNan (f : Fmt) : Nat :=
  match f.kind with
  | .finite => 0
  | .e4m3 => 0x7F
  | .ieee => (2 ^ f.ebits - 1) * 2 ^ f.mbits + 2 ^ (f.mbits - 1)

/-- The sign bit in place. -/
def Fmt.signBit (f : Fmt) (neg : Bool) : Nat := neg.toNat * 2 ^ (f.width - 1)
/-- Largest finite magnitude as a number of units of the top binade: significand and exponent of its last place. -/
def Fmt.maxSig (f : Fmt) : Nat := 2 ^ (f.mbits + 1) - (if f.kind == .e4m3 then 2 else 1)
def Fmt.topExp (f : Fmt) : Nat := 2 ^ f.ebits - (if f.kind == .ieee then 2 else 1)
/-- The encoding of the largest finite magnitude. -/
def Fmt.largest (f : Fmt) : Nat := f.topExp * 2 ^ f.mbits + (f.maxSig - 2 ^ f.mbits)
/-- The encoding of infinity. -/
def Fmt.infBits (f : Fmt) : Nat := (2 ^ f.ebits - 1) * 2 ^ f.mbits

/-- What a rounding does: the mode, `.ftz`, `.sat`, and the 16 random bits of `.rs` (03 R58-R62). -/
structure RMode where
  rnd : Rnd := .rn
  ftz : Bool := false
  sat : Bool := false
  u : Nat := 0
  deriving DecidableEq, Repr

/-- Whether a magnitude cut to `k` units and `rem / 2^sh` of a unit (and more, if `sticky`) rounds away from zero
(03 Table 3.3, R59). -/
def roundsUp (rm : RMode) (neg : Bool) (k rem sh : Nat) (sticky : Bool) : Bool :=
  let inexact := rem != 0 || sticky
  let half := 2 ^ sh
  match rm.rnd with
  | .rn => 2 * rem > half || (2 * rem == half && (sticky || k % 2 == 1))
  | .rna => 2 * rem ≥ half
  | .rz => false
  | .rd => neg && inexact
  | .ru => !neg && inexact
  | .rs => inexact && 65536 * rem / 2 ^ sh + rm.u ≥ 65536

/-- An exact nonzero magnitude `(m + s) * 2^e` cut to units of 2^q: the units, and whether it was inexact; `s` is
strictly between 0 and 1 when `sticky`, else 0. The shift is capped where it no longer matters. -/
def roundUnits (rm : RMode) (neg : Bool) (m : Nat) (e q : Int) (sticky : Bool) : Nat × Bool :=
  if q ≤ e then
    let k := m * 2 ^ (e - q).toNat
    (k + (roundsUp rm neg k 0 0 sticky).toNat, sticky)
  else
    let sh := min (q - e).toNat (bitLen m + 20)
    let k := m / 2 ^ sh
    let rem := m % 2 ^ sh
    (k + (roundsUp rm neg k rem sh sticky).toNat, rem != 0 || sticky)

/-- 03 R58, R61, R62, R64: round an exact finite value to a format. -/
def roundFin (f : Fmt) (rm : RMode) (neg : Bool) (m : Nat) (e : Int) (sticky : Bool) : Nat × Flags :=
  let s := f.signBit neg
  if m == 0 && !sticky then (s, 0)
  else
    let ex : Int := e + bitLen m - 1
    let emin : Int := 1 - (f.bias : Int)
    let q : Int := max ex emin - f.mbits
    let (k0, inexact) := roundUnits rm neg m e q sticky
    let carry := k0 == 2 ^ (f.mbits + 1)
    let k := if carry then 2 ^ f.mbits else k0
    let q := if carry then q + 1 else q
    let qmax : Int := (f.topExp : Int) - f.bias - f.mbits
    if q > qmax || (q == qmax && k > f.maxSig) then
      let fl := Flags.overflow ||| Flags.inexact
      if rm.sat || f.kind != .ieee then (s + f.largest, fl ||| Flags.saturated)
      else
        let toInf := match rm.rnd with
          | .rn | .rna | .rs => true
          | .rz => false
          | .rd => neg
          | .ru => !neg
        (s + (if toInf then f.infBits else f.largest), fl)
    else if k < 2 ^ f.mbits then
      if rm.ftz && f.ebits == 8 then (s, Flags.underflow ||| Flags.inexact)
      else (s + k, Flags.when inexact (Flags.underflow ||| Flags.inexact))
    else (s + (q + f.mbits + f.bias).toNat * 2 ^ f.mbits + (k - 2 ^ f.mbits), Flags.when inexact Flags.inexact)

/-- 03 R63 and Table 3.4: round an exact finite value to an integer and clamp it to [lo, hi]. -/
def roundInt (lo hi : Int) (rm : RMode) (neg : Bool) (m : Nat) (e : Int) : Int × Flags :=
  let big := e > 70 && m != 0
  let (k, inexact) := if big then (2 ^ 80, false) else roundUnits rm neg m e 0 false
  let v : Int := if neg then -(k : Int) else k
  if v < lo then (lo, Flags.saturated ||| Flags.inexact)
  else if hi < v then (hi, Flags.saturated ||| Flags.inexact)
  else (v, Flags.when inexact Flags.inexact)

/-- The range of an integer type (03 R56). -/
def Ty.range (t : Ty) : Int × Int :=
  let w := Ty.width t
  if Ty.signed t then (-(2 ^ (w - 1) : Nat), (2 ^ (w - 1) : Nat) - 1) else (0, (2 ^ w : Nat) - 1)

/-- An exact result before rounding: the value, whether a further nonzero part lies below `m`, and the flags raised. -/
structure Exact where
  v : FVal
  sticky : Bool := false
  fl : Flags := 0
  deriving DecidableEq, Repr

/-- 03 R62, R66, R68: write an exact result in a floating-point format. -/
def Fmt.write (f : Fmt) (rm : RMode) (x : Exact) : Nat × Flags :=
  match x.v with
  | .nan n p _ => (if f.width == 32 then nan32 n p else f.canonNan, x.fl)
  | .inf n =>
    if rm.sat || f.kind != .ieee then (f.signBit n + f.largest, x.fl ||| Flags.saturated)
    else (f.signBit n + f.infBits, x.fl)
  | .fin n m e => let (b, fl) := roundFin f rm n m e x.sticky; (b, x.fl ||| fl)

/-- 03 R63: write an exact result in an integer type. -/
def Ty.writeInt (t : Ty) (rm : RMode) (x : Exact) : Nat × Flags :=
  let (lo, hi) := Ty.range t
  match x.v with
  | .nan .. => (0, x.fl ||| Flags.invalid)
  | .inf n => (wrap (Ty.width t) (if n then lo else hi), x.fl ||| Flags.saturated ||| Flags.inexact)
  | .fin n m e => let (v, fl) := roundInt lo hi rm n m e; (wrap (Ty.width t) v, x.fl ||| fl)

/-- Write an exact result in any type. -/
def Ty.write (t : Ty) (rm : RMode) (x : Exact) : Nat × Flags :=
  match Ty.fmt? t with
  | some f => f.write rm x
  | none => Ty.writeInt t rm x

/-! ### Exact operations -/

/-- The NaN an invalid operation makes, and its flag (03 R65). -/
def originNan (origin : BitVec 22) : Exact := { v := .nan false origin false, fl := Flags.invalid }

/-- The first NaN of the operands in order (03 R66), or the given result. -/
def nanFirst (ops : List FVal) (r : Exact) : Exact :=
  match ops.find? FVal.isNan with
  | some (.nan n p _) => { v := .nan n p false, fl := Flags.when (ops.any FVal.isSig) Flags.invalid }
  | _ => r

/-- A signed sum of two magnitudes over one exponent. -/
def addFin (rd : Bool) (n1 : Bool) (m1 : Nat) (e1 : Int) (n2 : Bool) (m2 : Nat) (e2 : Int) : FVal :=
  if m1 == 0 && m2 == 0 then .fin (if n1 == n2 then n1 else rd) 0 0
  else if m1 == 0 then .fin n2 m2 e2
  else if m2 == 0 then .fin n1 m1 e1
  else
    let e := min e1 e2
    let a : Int := (m1 * 2 ^ (e1 - e).toNat : Nat)
    let b : Int := (m2 * 2 ^ (e2 - e).toNat : Nat)
    let s := (if n1 then -a else a) + (if n2 then -b else b)
    if s == 0 then .fin rd 0 0 else .fin (s < 0) s.natAbs e

/-- The sum of two values that are no NaN; an exact zero sum of unlike signs is negative under `.rd` alone. -/
def addCore (rd : Bool) (origin : BitVec 22) (x y : FVal) : Exact :=
  match x, y with
  | .inf n1, .inf n2 => if n1 == n2 then { v := .inf n1 } else originNan origin
  | .inf n, _ => { v := .inf n }
  | _, .inf n => { v := .inf n }
  | .fin n1 m1 e1, .fin n2 m2 e2 => { v := addFin rd n1 m1 e1 n2 m2 e2 }
  | x, _ => { v := x }

/-- 03 R65, R66, 05 R117: a + b. -/
def fadd (rnd : Rnd) (origin : BitVec 22) (x y : FVal) : Exact := nanFirst [x, y] (addCore (rnd == .rd) origin x y)

/-- The product of two values that are no NaN. -/
def mulCore (origin : BitVec 22) (x y : FVal) : Exact :=
  match x, y with
  | .inf n1, .inf n2 => { v := .inf (n1 != n2) }
  | .inf n, .fin n2 m _ => if m == 0 then originNan origin else { v := .inf (n != n2) }
  | .fin n1 m _, .inf n => if m == 0 then originNan origin else { v := .inf (n1 != n) }
  | .fin n1 m1 e1, .fin n2 m2 e2 => { v := .fin (n1 != n2) (m1 * m2) (e1 + e2) }
  | x, _ => { v := x }

/-- a * b. -/
def fmul (origin : BitVec 22) (x y : FVal) : Exact := nanFirst [x, y] (mulCore origin x y)

/-- a * b + c, rounded once by its user. -/
def ffma (rnd : Rnd) (origin : BitVec 22) (x y z : FVal) : Exact :=
  nanFirst [x, y, z] <|
    let p := mulCore origin x y
    if p.v.isNan then p else addCore (rnd == .rd) origin p.v z

/-- a / b: the quotient to 70 bits and more below it. -/
def fdiv (origin : BitVec 22) (x y : FVal) : Exact :=
  nanFirst [x, y] <|
    match x, y with
    | .inf _, .inf _ => originNan origin
    | .inf n, y => { v := .inf (n != y.neg) }
    | .fin n .., .inf n2 => { v := .fin (n != n2) 0 0 }
    | .fin n1 m1 e1, .fin n2 m2 e2 =>
      if m2 == 0 then
        if m1 == 0 then originNan origin else { v := .inf (n1 != n2), fl := Flags.divZero }
      else if m1 == 0 then { v := .fin (n1 != n2) 0 0 }
      else
        let k := 70 + bitLen m2
        { v := .fin (n1 != n2) (m1 * 2 ^ k / m2) (e1 - e2 - k), sticky := m1 * 2 ^ k % m2 != 0 }
    | x, _ => { v := x }

/-- The integer square root by bits: `r` so far, with `k` bits still to try. -/
def isqrtLoop (m : Nat) : Nat → Nat → Nat
  | 0, r => r
  | k + 1, r => let t := r + 2 ^ k; isqrtLoop m k (if t * t ≤ m then t else r)

/-- ⌊√m⌋. -/
def isqrt (m : Nat) : Nat := isqrtLoop m (bitLen m / 2 + 1) 0

/-- √a (05 R117, Table 5.6). -/
def fsqrt (origin : BitVec 22) (x : FVal) : Exact :=
  nanFirst [x] <|
    match x with
    | .inf n => if n then originNan origin else { v := .inf false }
    | .fin n m e =>
      if m == 0 then { v := .fin n 0 0 }
      else if n then originNan origin
      else
        let k : Nat := 64 + (e % 2).toNat
        let m' := m * 2 ^ k
        let r := isqrt m'
        { v := .fin false r ((e - k) / 2), sticky := r * r != m' }
    | x => { v := x }

/-- Compare two values that are no NaN: less, equal or greater; -0 and +0 are equal. -/
def fcompare (x y : FVal) : Ordering :=
  match x, y with
  | .inf n1, .inf n2 => if n1 == n2 then .eq else if n1 then .lt else .gt
  | .inf n, _ => if n then .lt else .gt
  | _, .inf n => if n then .gt else .lt
  | .fin n1 m1 e1, .fin n2 m2 e2 =>
    match addFin false n1 m1 e1 (!n2) m2 e2 with
    | .fin n m _ => if m == 0 then .eq else if n then .lt else .gt
    | _ => .eq
  | _, _ => .eq

/-- `x < y` with -0 below +0 (05 R118). -/
def fless (x y : FVal) : Bool :=
  match fcompare x y with
  | .lt => true
  | .gt => false
  | .eq => x.neg && !y.neg

/-- 05 R118: the smaller (or larger) operand; one NaN loses to a number, two give the first by R66. -/
def fminmax (isMax : Bool) (x y : FVal) : Exact :=
  let fl := Flags.when (x.isSig || y.isSig) Flags.invalid
  if x.isNan && y.isNan then nanFirst [x, y] { v := x }
  else if x.isNan then { v := y, fl := fl }
  else if y.isNan then { v := x, fl := fl }
  else if isMax then { v := if fless x y then y else x }
  else { v := if fless y x then y else x }

/-! ### The stochastic state (03 R59) -/

/-- One step of the xorshift state. -/
def xorshift (s : Word32) : Word32 :=
  let s := s ^^^ (s <<< 13)
  let s := s ^^^ (s >>> 17)
  s ^^^ (s <<< 5)

/-- The 16 bits taken from a state. -/
def rsBits (s : Word32) : Nat := (s >>> 16).toNat

/-! ### The order of sums (03 R72, R73) -/

/-- A product of the group that is no NaN: sign, magnitude and exponent, or an infinity. A product of integer elements (`int`) has
no signed zero: its zero is +0 (07 R226, log 58). -/
def groupProducts (as bs : List FVal) (int : Bool := false) : List FVal :=
  (as.zip bs).map fun (a, b) =>
    match a, b with
    | .fin n1 m1 e1, .fin n2 m2 e2 => .fin (n1 != n2 && !(int && m1 * m2 == 0)) (m1 * m2) (e1 + e2)
    | .inf n1, y => .inf (n1 != y.neg)
    | x, .inf n2 => .inf (x.neg != n2)
    | x, _ => x

/-- The exact group sum over units of 2^(Emax - 47), with what was cut off (03 R72). -/
def dotSum (ps : List FVal) : Exact :=
  let nz := ps.filterMap fun p => match p with
    | .fin n m e => if m == 0 then none else some (n, m, e)
    | _ => none
  match nz with
  | [] => { v := .fin (ps.all fun p => p.neg) 0 0 }
  | (n0, m0, e0) :: rest =>
    let top := rest.foldl (fun t (p : Bool × Nat × Int) => max t (p.2.2 + bitLen p.2.1 - 1)) (e0 + bitLen m0 - 1)
    let q : Int := top - 47
    let cut := fun (m : Nat) (e : Int) => if q ≤ e then m * 2 ^ (e - q).toNat else m / 2 ^ min (q - e).toNat (bitLen m + 1)
    let lost := fun (m : Nat) (e : Int) => decide (e < q) && m % 2 ^ min (q - e).toNat (bitLen m + 1) != 0
    let s := ((n0, m0, e0) :: rest).foldl
      (fun (acc : Int) (p : Bool × Nat × Int) => if p.1 then acc - cut p.2.1 p.2.2 else acc + cut p.2.1 p.2.2) 0
    let dropped := ((n0, m0, e0) :: rest).any fun p => lost p.2.1 p.2.2
    { v := .fin (s < 0) s.natAbs q, fl := Flags.when dropped Flags.inexact }

/-- One group added to the FP32 accumulator, both given and returned as bits (03 R72, R73). -/
def dotAccum (origin : BitVec 22) (as bs : List FVal) (acc : Nat) (int : Bool := false) : Nat × Flags :=
  let c := Fmt.f32.decode false origin acc
  let ops := as ++ bs ++ [c]
  if ops.any FVal.isNan then Fmt.f32.write {} (nanFirst ops { v := c })
  else
    let ps := groupProducts as bs int
    let badProduct := (as.zip bs).any fun (a, b) => (a.isInf && b.isZero) || (a.isZero && b.isInf)
    let pos := ps.any fun p => p.isInf && !p.neg
    let negs := ps.any fun p => p.isInf && p.neg
    if badProduct || (pos && negs) then Fmt.f32.write {} (originNan origin)
    else if pos || negs then Fmt.f32.write {} (fadd .rn origin c (.inf negs))
    else
      let (g, fl) := Fmt.f32.write {} (dotSum ps)
      let (r, fl2) := Fmt.f32.write {} (fadd .rn origin c (Fmt.f32.decode false origin g))
      (r, fl ||| fl2)

/-- Groups of `n` products in ascending order (03 R72); `fuel` bounds the number of groups. -/
def dotGroups (origin : BitVec 22) (n : Nat) (int : Bool := false) : Nat → List FVal → List FVal → Nat → Nat × Flags
  | 0, _, _, acc => (acc, 0)
  | fuel + 1, as, bs, acc =>
    if as.isEmpty then (acc, 0)
    else
      let (r, fl) := dotAccum origin (as.take n) (bs.take n) acc int
      let (r2, fl2) := dotGroups origin n int fuel (as.drop n) (bs.drop n) r
      (r2, fl ||| fl2)

/-! ### Block scales (03 R70, R71) -/

/-- The constants of a target (03 Table 3.5): `mT` in 64ths, `ET`, and `M`. -/
def blockConst : Ty → Nat × Int × Nat
  | .e4m3 => (112, 8, 448)
  | .e5m2 => (112, 15, 57344)
  | .e2m1 => (96, 2, 6)
  | .i8 => (127, 6, 127)
  | _ => (112, 2, 7)

/-- The larger of two finite magnitudes (m, e). -/
def magMax (x y : Nat × Int) : Nat × Int :=
  match fcompare (.fin false x.1 x.2) (.fin false y.1 y.2) with
  | .lt => y
  | _ => x

/-- 03 R70: the E8M0 byte of a block. -/
def blockScale (t : Ty) (xs : List FVal) : Nat :=
  if xs.any FVal.isNan then 255
  else
    let a := xs.foldl (fun acc x => match x with | .fin _ m e => magMax acc (m, e) | _ => acc) (0, 0)
    if a.1 == 0 then 0
    else
      let (mT, eT, _) := blockConst t
      let ex : Int := a.2 + bitLen a.1 - 1
      -- A / 2^E ≤ mT: a.1 * 64 ≤ mT * 2^(bitLen - 1)
      let e := if a.1 * 64 ≤ mT * 2 ^ (bitLen a.1 - 1) then ex - eT else ex - eT + 1
      (min (max e (-127)) 127 + 127).toNat

/-- 03 R71: one element of a block whose scale byte is `sb`, as the bits of the target. Under a scale of 0xFF the element is +0 and
raises no flag, a signalling one no `invalid` either (DESIGN CHOICE: log 59). -/
def quantElem (t : Ty) (rm : RMode) (sb : Nat) (x : FVal) : Nat × Flags :=
  match e8m0 sb with
  | none => (0, 0)
  | some e =>
    match Ty.fmt? t with
    | some f => f.write rm { v := x.scale (-e), fl := Flags.when x.isSig Flags.invalid }
    | none =>
      let big : Int := (blockConst t).2.2
      match x with
      | .nan .. => (0, Flags.invalid)
      | .inf n => (wrap (Ty.width t) (if n then -big else big), Flags.saturated ||| Flags.inexact)
      | .fin n m ex => let (v, fl) := roundInt (-big) big rm n m (ex - e); (wrap (Ty.width t) v, fl)

end Sys2Proof.Machine
end

