-- ==== Sys2Proof/Machine/Fmath.lean ====
section
/-!
DEFINITION. The function instructions of 05 R121 and R122. The exact real value is cut below at many more bits than
FP32 holds, with the rest marked as a nonzero tail, and rounded once. The transcendental functions are computed in
fixed point with 400 fractional bits (DEDUCED: log 12).
-/
namespace Sys2Proof.Machine

/-- Fractional bits of the fixed-point computations. -/
def fxBits : Nat := 400
/-- One in fixed point. -/
def fxOne : Nat := 2 ^ fxBits
/-- Fixed-point product. -/
def fxMul (x y : Nat) : Nat := x * y / fxOne

/-- ln 2 = Σ 2 / ((2k+1) 3^(2k+1)): terms from index `k`, with `p = 3^-(2k+1)`. -/
def ln2Terms : Nat → Nat → Nat → Nat
  | 0, _, _ => 0
  | n + 1, k, p => 2 * p / (2 * k + 1) + ln2Terms n (k + 1) (p / 9)

/-- ln 2. -/
def ln2 : Nat := ln2Terms 140 0 (fxOne / 3)

/-- The Taylor series of e^x from term `k`, whose value is `t`. -/
def expTerms (x : Nat) : Nat → Nat → Nat → Nat
  | 0, _, _ => 0
  | n + 1, k, t => t + expTerms x n (k + 1) (fxMul t x / (k + 1))

/-- Square a fixed-point number `n` times. -/
def fxSquares : Nat → Nat → Nat
  | 0, x => x
  | n + 1, x => fxSquares n (fxMul x x)

/-- e^x for fixed-point x below 128: x / 1024 by its series, squared ten times. -/
def fxExp (x : Nat) : Nat := fxSquares 10 (expTerms (x / 1024) 60 0 fxOne)

/-- The bits of log2 of `x` in [1, 2): square, and take a one whenever the square reaches 2. -/
def log2Bits : Nat → Nat → Nat → Nat
  | 0, _, acc => acc
  | n + 1, x, acc =>
    let y := fxMul x x
    if 2 * fxOne ≤ y then log2Bits n (y / 2) (2 * acc + 1) else log2Bits n y (2 * acc)

/-- Result bits taken of a logarithm. -/
def logBits : Nat := 128

/-- A NaN operand by R66, an invalid one by R65. -/
def invalidNan (origin : BitVec 22) : Exact := originNan origin

/-- 1/a (05 Table 5.6). -/
def frcp (origin : BitVec 22) (x : FVal) : Exact := fdiv origin (.fin false 1 0) x

/-- 1/√a (05 Table 5.6). -/
def frsq (origin : BitVec 22) (x : FVal) : Exact :=
  nanFirst [x] <|
    match x with
    | .inf n => if n then invalidNan origin else { v := .fin false 0 0 }
    | .fin n m e =>
      if m == 0 then { v := .inf n, fl := Flags.divZero }
      else if n then invalidNan origin
      else
        -- 1/√(m 2^e) = √(2^(2k) / (m 2^p)) 2^(-(e - p)/2 - k), with e - p even
        let p : Nat := (e % 2).toNat
        let m' := m * 2 ^ p
        let k := 100 + bitLen m'
        let s := 2 ^ (2 * k) / m'
        let r := isqrt s
        { v := .fin false r (-((e - p) / 2) - k), sticky := r * r * m' != 2 ^ (2 * k) }
    | x => { v := x }

/-- 2^a (05 R121). -/
def fex2 (_origin : BitVec 22) (x : FVal) : Exact :=
  nanFirst [x] <|
    match x with
    | .inf n => { v := if n then .fin false 0 0 else .inf false }
    | .fin n m e =>
      if m == 0 then { v := .fin false 1 0 }
      else if e + bitLen m > 12 then
        -- |a| ≥ 2^11: far beyond the range on either side
        { v := .fin false 1 (if n then -5000 else 5000), sticky := true }
      else if e + bitLen m < -60 then
        -- 2^a = 1 ± tiny
        if n then { v := .fin false (2 ^ 50 - 1) (-50), sticky := true }
        else { v := .fin false (2 ^ 50) (-50), sticky := true }
      else
        let a : Int := if n then -(m : Int) else m
        if 0 ≤ e then { v := .fin false 1 (a * 2 ^ e.toNat) }
        else
          let d : Nat := 2 ^ (-e).toNat
          let i : Int := a / (d : Int)
          let f : Nat := (a % (d : Int)).toNat
          if f == 0 then { v := .fin false 1 i }
          else
            let y := fxExp (f * ln2 / d)
            { v := .fin false (y / 2 ^ (fxBits - 120)) (i - 120), sticky := true }
    | x => { v := x }

/-- log2 a (05 R121). -/
def flg2 (origin : BitVec 22) (x : FVal) : Exact :=
  nanFirst [x] <|
    match x with
    | .inf n => if n then invalidNan origin else { v := .inf false }
    | .fin n m e =>
      if m == 0 then { v := .inf true, fl := Flags.divZero }
      else if n then invalidNan origin
      else
        let k : Int := e + bitLen m - 1
        if m == 2 ^ (bitLen m - 1) then { v := .fin (k < 0) k.natAbs 0 }
        else
          -- the fraction of log2 m is in (0, 1): its bits, and a nonzero tail
          let fr := log2Bits logBits (m * fxOne / 2 ^ (bitLen m - 1)) 0
          let s : Int := k * 2 ^ logBits + fr
          if 0 ≤ s then { v := .fin false s.toNat (-(logBits : Int)), sticky := true }
          else { v := .fin true ((-s).toNat - 1) (-(logBits : Int)), sticky := true }
    | x => { v := x }

/-- tanh a (05 R121). -/
def ftanh (x : FVal) : Exact :=
  nanFirst [x] <|
    match x with
    | .inf n => { v := .fin n 1 0 }
    | .fin n m e =>
      if m == 0 then { v := .fin n 0 0 }
      else if e + bitLen m > 6 then { v := .fin n (2 ^ 60 - 1) (-60), sticky := true }
      else if e + bitLen m < -60 then { v := .fin n (m * 2 ^ 60 - 1) (e - 60), sticky := true }
      else
        let a := if 0 ≤ e then m * 2 ^ e.toNat * fxOne else m * fxOne / 2 ^ (-e).toNat
        let y := fxExp (2 * a)
        { v := .fin n ((y - fxOne) * 2 ^ 250 / (y + fxOne)) (-250), sticky := true }
    | x => { v := x }

/-- a rounded to an integral value by the mode (05 R122). -/
def frnd (rm : RMode) (x : FVal) : Exact :=
  nanFirst [x] <|
    match x with
    | .fin n m e =>
      if m == 0 || 0 ≤ e then { v := .fin n m e }
      else
        let (k, inexact) := roundUnits rm n m e 0 false
        { v := .fin n k 0, fl := Flags.when inexact Flags.inexact }
    | x => { v := x }

/-- a * 2^b (05 R122). -/
def fscale (x : FVal) (b : Int) : Exact := nanFirst [x] { v := x.scale b }

end Sys2Proof.Machine
end

