-- ==== Sys2Proof/Machine/Lane.lean ====
section
/-!
DEFINITION. What one lane of a vector instruction computes: the integer, logic, floating-point, conversion and dot
effects of 05 on the values of the lane's operands, with the flags they raise.
-/
namespace Sys2Proof.Machine

/-- What a lane brings: its operands A, B and D (zero-extended to 64 bits), its stochastic state, its number and the
group's origin. -/
structure LaneIn where
  a : Word64 := 0
  b : Word64 := 0
  d : Word64 := 0
  rng : Word32 := 0
  lane : Nat := 0
  origin : BitVec 22 := 0
  deriving DecidableEq, Repr

/-- What a lane produces: its result, its flags, its stochastic state after, and the payload of its first NaN that a
narrowing conversion meets (03 R68). -/
structure LaneOut where
  r : Word64
  fl : Flags := 0
  rng : Word32 := 0
  nan : Option (BitVec 22) := none
  deriving DecidableEq, Repr

/-- A result without flags. -/
def LaneIn.out (i : LaneIn) (r : Word64) (fl : Flags := 0) : LaneOut := { r := r, fl := fl, rng := i.rng }

/-- A 32-bit operand as a number, signed under `.i32` (05 R110). -/
def opInt (t : Ty) (x : Word64) : Int :=
  if Ty.width t == 64 then (if Ty.signed t then x.toInt else x.toNat)
  else if Ty.signed t then (lo32 x).toInt else (lo32 x).toNat

/-- The low 32 bits of an exact integer, zero-extended. -/
def r32 (x : Int) : Word64 := BitVec.ofNat 64 (wrap 32 x)

/-! ### Integers (05 R110) -/

/-- A wrapping operation on two integers of the type. -/
def lInt2 (t : Ty) (f : Int → Int → Int) (i : LaneIn) : LaneOut := i.out (r32 (f (opInt t i.a) (opInt t i.b)))
/-- A wrapping operation on A, B and D. -/
def lInt3 (t : Ty) (f : Int → Int → Int → Int) (i : LaneIn) : LaneOut :=
  i.out (r32 (f (opInt t i.a) (opInt t i.b) (opInt t i.d)))

/-- Clamp to the type's range, with the flags of a clamp. -/
def clampInt (t : Ty) (x : Int) : Int × Flags :=
  let (lo, hi) := Ty.range t
  if x < lo then (lo, Flags.saturated ||| Flags.inexact)
  else if hi < x then (hi, Flags.saturated ||| Flags.inexact) else (x, 0)

/-- `IADDS`. -/
def lAdds (t : Ty) (i : LaneIn) : LaneOut :=
  let (v, fl) := clampInt t (opInt t i.a + opInt t i.b)
  i.out (r32 v) fl

/-- `IABS` and `INEG`, clamping under `.sat`. -/
def lUnaryInt (sat : Bool) (f : Int → Int) (i : LaneIn) : LaneOut :=
  let (v, fl) := if sat then clampInt .i32 (f (opInt .i32 i.a)) else (f (opInt .i32 i.a), 0)
  i.out (r32 v) fl

/-- Division truncated towards zero; by zero all ones. -/
def idiv (a b : Int) : Int := if b = 0 then -1 else Int.tdiv a b
/-- The remainder a - b * (a IDIV b); by zero a. -/
def irem (a b : Int) : Int := if b = 0 then a else a - b * Int.tdiv a b

/-- Bits [63:32] of the exact product. -/
def imulh (a b : Int) : Int := a * b / (2 ^ 32 : Nat)

/-- The absolute difference. -/
def absDiff (a b : Int) : Int := (a - b).natAbs

/-- `ISAD`: under `.n8` by bytes. -/
def lSad (t : Ty) (i : LaneIn) : LaneOut :=
  if t == .n8 then
    let byte := fun (x : Word64) (k : Nat) => (field x.toNat (8 * k) 8 : Int)
    i.out (r32 ((lo32 i.d).toNat + ((List.range 4).map fun k => absDiff (byte i.a k) (byte i.b k)).sum))
  else i.out (r32 (opInt t i.d + absDiff (opInt t i.a) (opInt t i.b)))

/-- The condition codes of `ICMP` and `SCMP` (05, before R109). -/
def condInt (c : Nat) (a b : Int) : Bool :=
  match c with
  | 0 => a == b | 1 => a != b | 2 => a < b | 3 => a ≤ b | 4 => a > b | _ => a ≥ b

/-- A wrapping 64-bit operation on pairs. -/
def lInt64 (f : Word64 → Word64 → Word64) (i : LaneIn) : LaneOut := i.out (f i.a i.b)

/-- `AADD` and `ALEA`: (base + sext(index, 32) * 2^k) mod 2^57. -/
def addr57 (base : Word64) (index : Word64) (k : Nat) : Word64 :=
  BitVec.ofNat 64 (wrap 57 (base.toNat + (lo32 index).toInt * (2 ^ k : Nat)))

/-- `IMOVW`: one half replaced, the other kept. -/
def lMovw (imm : BitVec 26) (i : LaneIn) : LaneOut :=
  let half := imm.toNat % 2 ^ 16
  let d := (lo32 i.d).toNat
  i.out (BitVec.ofNat 64 (if imm.getLsbD 16 then half * 2 ^ 16 + d % 2 ^ 16 else d / 2 ^ 16 * 2 ^ 16 + half))

/-! ### Logic and bits (05 R113-R115) -/

/-- A bitwise operation. -/
def lBit2 (f : Word32 → Word32 → Word32) (i : LaneIn) : LaneOut := i.out ((f (lo32 i.a) (lo32 i.b)).zeroExtend 64)
/-- A unary operation on 32 bits. -/
def lBit1 (f : Word32 → Word32) (i : LaneIn) : LaneOut := i.out ((f (lo32 i.a)).zeroExtend 64)
/-- An operation on A, B and D. -/
def lBit3 (f : Word32 → Word32 → Word32 → Word32) (i : LaneIn) : LaneOut :=
  i.out ((f (lo32 i.a) (lo32 i.b) (lo32 i.d)).zeroExtend 64)

/-- `SHL`: zero for a count of 32 or more. -/
def shl (a c : Word32) : Word32 := if c.toNat < 32 then a <<< c.toNat else 0
/-- `SHR`. -/
def shr (a c : Word32) : Word32 := if c.toNat < 32 then a >>> c.toNat else 0
/-- `SAR`: copies of bit [31] for a count of 32 or more. -/
def sar (a c : Word32) : Word32 := a.sshiftRight (min c.toNat 31)
/-- `ROT`. -/
def rot (a c : Word32) : Word32 := a.rotateLeft (c.toNat % 32)
/-- `FSHL`: bits [63:32] of the shifted double word d:a. -/
def fshl (a c d : Word32) : Word32 := BitVec.ofNat 32 ((d.toNat * 2 ^ 32 + a.toNat) * 2 ^ (c.toNat % 32) / 2 ^ 32)
/-- `FSHR`: bits [31:0] of the double word a:d shifted right. -/
def fshr (a c d : Word32) : Word32 := BitVec.ofNat 32 ((a.toNat * 2 ^ 32 + d.toNat) / 2 ^ (c.toNat % 32))
/-- `CLZ`. -/
def clz (a : Word32) : Word32 := BitVec.ofNat 32 (32 - bitLen a.toNat)
/-- `POPC`. -/
def popc (a : Word32) : Word32 := BitVec.ofNat 32 (popcount a)
/-- `BREV`. -/
def brev (a : Word32) : Word32 := maskOf fun k => a.getLsbD (31 - k)

/-- Position and clipped length of `BFX` and `BFI` (05 R114). -/
def bitField (b : Word32) : Nat × Nat :=
  let pos := b.toNat % 32
  (pos, min (field b.toNat 8 6) (32 - pos))

/-- `BFX`. -/
def bfx (signed : Bool) (a b : Word32) : Word32 :=
  let (pos, n) := bitField b
  let v := field a.toNat pos n
  if n == 0 then 0 else if signed then w32 (sext v n) else BitVec.ofNat 32 v

/-- `BFI`. -/
def bfi (a b d : Word32) : Word32 :=
  let (pos, n) := bitField b
  BitVec.ofNat 32 (d.toNat - field d.toNat pos n * 2 ^ pos + a.toNat % 2 ^ n * 2 ^ pos)

/-- One byte of `BYTX` by its selector (05 Table 5.16). -/
def bytSel (a b : Word32) (sel : Nat) : Nat :=
  let y := field (a.toNat + b.toNat * 2 ^ 32) (8 * (sel % 8)) 8
  match sel / 64 with
  | 0 => y
  | 1 => (brev (BitVec.ofNat 32 y)).toNat / 2 ^ 24
  | 2 => if 128 ≤ y then 255 else 0
  | _ => 255 - y

/-- `BYTX`. -/
def bytx (a b d : Word32) : Word32 :=
  BitVec.ofNat 32 (((List.range 4).map fun k => bytSel a b (field d.toNat (8 * k) 8) * 2 ^ (8 * k)).sum)

/-! ### Floating point (05 R117-R124) -/

/-- Advance the lane's stochastic state when the mode is `.rs` (03 R59). -/
def rsNext (rnd : Rnd) (s : Word32) : Word32 := if rnd = .rs then xorshift s else s

/-- An FP32 instruction: read, compute exactly, round once. -/
def lF32 (rnd : Rnd) (ftz : Bool) (f : FVal → FVal → FVal → Exact) (i : LaneIn) : LaneOut :=
  let rd := fun (x : Word64) => Fmt.f32.decode ftz 0 (lo32 x).toNat
  let rng := rsNext rnd i.rng
  let (r, fl) := Fmt.f32.write { rnd := rnd, ftz := ftz, u := rsBits rng } (f (rd i.a) (rd i.b) (rd i.d))
  { r := BitVec.ofNat 64 r, fl := fl, rng := rng }

/-- An FP32 word as `.ftz` reads it. -/
def flushIn (ftz : Bool) (x : Word32) : Word32 :=
  if ftz && field x.toNat 23 8 == 0 then x &&& 0x80000000 else x

/-- `FABS` (05 R118). -/
def lFabs (ftz : Bool) (i : LaneIn) : LaneOut := i.out ((flushIn ftz (lo32 i.a) &&& 0x7FFFFFFF).zeroExtend 64)
/-- `FNEG` (05 R118). -/
def lFneg (ftz : Bool) (i : LaneIn) : LaneOut := i.out ((flushIn ftz (lo32 i.a) ^^^ 0x80000000).zeroExtend 64)

/-- `FCLASS` (05 R120): the bit number of the class. -/
def fclassBit (x : Word32) : Nat :=
  let neg := x.getLsbD 31
  match Fmt.f32.decode false 0 x.toNat with
  | .nan _ _ sig => if sig then 8 else 9
  | .inf _ => if neg then 0 else 7
  | .fin _ m _ =>
    if m == 0 then (if neg then 3 else 4)
    else if field x.toNat 23 8 == 0 then (if neg then 2 else 5)
    else (if neg then 1 else 6)

/-- `FCLASS`. -/
def lFclass (ftz : Bool) (i : LaneIn) : LaneOut := i.out (BitVec.ofNat 64 (2 ^ fclassBit (flushIn ftz (lo32 i.a))))

/-- `FCMP` (05 R119): the outcome and its flags. -/
def fcond (c : Nat) (ftz : Bool) (a b : Word64) : Bool × Flags :=
  let x := Fmt.f32.decode ftz 0 (lo32 a).toNat
  let y := Fmt.f32.decode ftz 0 (lo32 b).toNat
  let un := x.isNan || y.isNan
  let fl := Flags.when (x.isSig || y.isSig || (un && 2 ≤ c && c ≤ 5)) Flags.invalid
  if un then (c == 1 || c == 6, fl)
  else
    let o := fcompare x y
    (match c with
      | 0 => o == .eq | 1 => o != .eq | 2 => o == .lt | 3 => o != .gt | 4 => o == .gt | 5 => o != .lt
      | 6 => false | _ => true, fl)

/-- Two packed half elements (03 R57), each read, computed and rounded once in order (05 R123). -/
def lHalf (t : Ty) (rnd : Rnd) (ftz sat : Bool) (f : FVal → FVal → FVal → Exact) (i : LaneIn) : LaneOut :=
  let fm := (Ty.fmt? t).getD .f16
  let el := fun (x : Word64) (k : Nat) => fm.decode ftz i.origin (field x.toNat (16 * k) 16)
  let s0 := rsNext rnd i.rng
  let s1 := rsNext rnd s0
  let (r0, f0) := fm.write { rnd := rnd, ftz := ftz, sat := sat, u := rsBits s0 } (f (el i.a 0) (el i.b 0) (el i.d 0))
  let (r1, f1) := fm.write { rnd := rnd, ftz := ftz, sat := sat, u := rsBits s1 } (f (el i.a 1) (el i.b 1) (el i.d 1))
  { r := BitVec.ofNat 64 (r0 + r1 * 2 ^ 16), fl := f0 ||| f1, rng := s1 }

/-- The elements of a packed word, element 0 first (03 R57). -/
def elements (t : Ty) (origin : BitVec 22) (x : Nat) : List FVal :=
  (List.range (32 / Ty.width t)).map fun k => Ty.decode t false origin (field x (Ty.width t * k) (Ty.width t))

/-- `HDOT2` (05 R124). -/
def lHdot (t : Ty) (i : LaneIn) : LaneOut :=
  let (r, fl) := dotAccum i.origin (elements t i.origin (lo32 i.a).toNat) (elements t i.origin (lo32 i.b).toNat) (lo32 i.d).toNat
  i.out (BitVec.ofNat 64 r) fl

/-- An element under a block scale: a scale of 0xFF makes it the scale's NaN (03 R67), which keeps that the element was a
signalling one, so that the operation still raises `invalid` (03 R66; log 18). -/
def scaled (origin : BitVec 22) (sb : Nat) (x : FVal) : FVal :=
  match e8m0 sb with
  | none => .nan false origin x.isSig
  | some e => x.scale e

/-- An integer format of the dot products. -/
def Ty.isInt (t : Ty) : Bool := t == .i8 || t == .i4

/-- A scaled dot product (05 R131): `sa` and `sb` are the scale bytes of the lane. -/
def lDotScaled (t : Ty) (sa sb : Nat) (i : LaneIn) : LaneOut :=
  let as := (elements t i.origin (lo32 i.a).toNat).map (scaled i.origin sa)
  let bs := (elements t i.origin (lo32 i.b).toNat).map (scaled i.origin sb)
  let (r, fl) := dotAccum i.origin as bs (lo32 i.d).toNat (Ty.isInt t)
  i.out (BitVec.ofNat 64 r) fl

/-- An unscaled integer dot product (05 R132). -/
def lDotInt (w : Nat) (i : LaneIn) : LaneOut :=
  let el := fun (x : Word64) (k : Nat) => sext (field x.toNat (w * k) w) w
  i.out (r32 ((lo32 i.d).toNat + ((List.range (32 / w)).map fun k => el i.a k * el i.b k).sum))

/-! ### Conversion and quantisation (05 R126-R129) -/

/-- The payload a narrowing conversion records for a NaN (03 R68). -/
def FVal.payload? : FVal → Option (BitVec 22) | .nan _ p _ => some p | _ => none

/-- A format an exact NaN narrows to: every target but FP32. -/
def narrows (t : Ty) : Bool := t != .f32

/-- `CVT` of source element `k` (05 R126). -/
def lCvt (td ts : Ty) (rnd : Rnd) (ftz sat : Bool) (k : Nat) (i : LaneIn) : LaneOut :=
  let w := Ty.width ts
  let v := Ty.decode ts (ftz && ts.flushable) i.origin (field i.a.toNat (w * k) w)
  let rng := rsNext rnd i.rng
  let (r, fl) := Ty.write td { rnd := rnd, ftz := ftz && td.flushable, sat := sat, u := rsBits rng }
    (nanFirst [v] { v := v })
  { r := BitVec.ofNat 64 r, fl := fl, rng := rng, nan := if narrows td then v.payload? else none }

/-- The elements of `QPACK8` and `QPACK4`, quantised in order with the state passed on (03 R59, 05 R128): bits of the
packed word, flags, state, first NaN payload. -/
def packElems (t : Ty) (rnd : Rnd) (ftz sat : Bool) (sb : Nat) :
    List Word32 → Nat → Word32 → Nat × Flags × Word32 × Option (BitVec 22)
  | [], _, rng => (0, 0, rng, none)
  | x :: xs, k, rng =>
    let s := rsNext rnd rng
    let v := Fmt.f32.decode ftz 0 x.toNat
    let (q, fl) := quantElem t { rnd := rnd, sat := sat, u := rsBits s } sb v
    let (rest, fl2, s2, nan2) := packElems t rnd ftz sat sb xs (k + 1) s
    (q * 2 ^ (Ty.width t * k) + rest, fl ||| fl2, s2, if v.isNan then v.payload? else nan2)

/-- `QPACK8` and `QPACK4` in one lane, from the words of its A registers. -/
def lPack (t : Ty) (rnd : Rnd) (ftz sat : Bool) (words : List Word32) (i : LaneIn) : LaneOut :=
  let (r, fl, rng, nan) := packElems t rnd ftz sat ((lo32 i.b).toNat % 256) words 0 i.rng
  { r := BitVec.ofNat 64 r, fl := fl, rng := rng, nan := nan }

/-- `QUNPK` (05 R129). Where the element is a NaN and the scale is 0xFF too, the result is the element's: A comes before B (03 R66)
(DESIGN CHOICE: log 59). -/
def lUnpack (ts : Ty) (rnd : Rnd) (ftz : Bool) (k : Nat) (i : LaneIn) : LaneOut :=
  let w := Ty.width ts
  let v := Ty.decode ts false i.origin (field (lo32 i.a).toNat (w * k) w)
  let (r, fl) := Fmt.f32.write { rnd := rnd, ftz := ftz } (nanFirst [v] { v := scaled i.origin ((lo32 i.b).toNat % 256) v })
  i.out (BitVec.ofNat 64 r) fl

end Sys2Proof.Machine
end

