-- ==== Sys2Proof/Machine/Store.lean ====
section
/-!
DEFINITION. The two containers of the state: finite maps kept as lists of pairs, and byte memories kept as sorted
lists of cells in one canonical form (strictly rising addresses, no cell equal to what an unlisted address reads as).
-/
namespace Sys2Proof.Machine

/-- A finite map as a list of key and value pairs. -/
abbrev AMap (κ α : Type) := List (κ × α)

/-- The value of a key. -/
def aget {κ α : Type} [DecidableEq κ] : AMap κ α → κ → Option α
  | [], _ => none
  | (k, v) :: m, key => if k = key then some v else aget m key

/-- The value of a key, or a default. -/
def agetD {κ α : Type} [DecidableEq κ] (m : AMap κ α) (key : κ) (d : α) : α := (aget m key).getD d

/-- Give a key a value. -/
def aset {κ α : Type} [DecidableEq κ] : AMap κ α → κ → α → AMap κ α
  | [], key, v => [(key, v)]
  | (k, w) :: m, key, v => if k = key then (key, v) :: m else (k, w) :: aset m key v

/-- Remove every pair of a key. -/
def aerase {κ α : Type} [DecidableEq κ] (m : AMap κ α) (key : κ) : AMap κ α := m.filter fun p => p.1 ≠ key

/-- Change the value of a key that is present. -/
def aupd {κ α : Type} [DecidableEq κ] (m : AMap κ α) (key : κ) (f : α → α) : AMap κ α :=
  match aget m key with
  | some v => aset m key (f v)
  | none => m

/-- Give every key of a map its value there. -/
def aputAll {κ α : Type} [DecidableEq κ] (m ps : AMap κ α) : AMap κ α := ps.foldl (fun m (p : κ × α) => aset m p.1 p.2) m

/-- A byte memory. -/
abbrev Memory := List Host.Cell

/-- What an address that no cell lists reads as (log 5). -/
def blankByte : Byte := 0

/-- The canonical form, from a lower bound on the next address. -/
def cellsFrom : Nat → Memory → Bool
  | _, [] => true
  | lo, (a, b) :: m => decide (lo ≤ a) && b != blankByte && cellsFrom (a + 1) m

/-- The canonical form of a memory. -/
def Memory.wf (m : Memory) : Bool := cellsFrom 0 m

/-- The byte at an address. -/
def readByte : Memory → Nat → Byte
  | [], _ => blankByte
  | (a, b) :: m, key => if a = key then b else readByte m key

/-- Write one byte, keeping the canonical form. -/
def writeByte : Memory → Nat → Byte → Memory
  | [], key, v => if v = blankByte then [] else [(key, v)]
  | (a, b) :: m, key, v =>
    if key < a then (if v = blankByte then (a, b) :: m else (key, v) :: (a, b) :: m)
    else if a = key then (if v = blankByte then m else (key, v) :: m)
    else (a, b) :: writeByte m key v

/-- The `n` bytes from an address. -/
def readBytes (m : Memory) (a n : Nat) : List Byte := (List.range n).map fun k => readByte m (a + k)

/-- Write bytes from an address upward. -/
def writeBytes : Memory → Nat → List Byte → Memory
  | m, _, [] => m
  | m, a, b :: bs => writeBytes (writeByte m a b) (a + 1) bs

/-- The little-endian number in `n` bytes (00 R2). -/
def readLE (m : Memory) (a n : Nat) : Nat := leValue (readBytes m a n)

/-- Write a little-endian number into `n` bytes. -/
def writeLE (m : Memory) (a n v : Nat) : Memory := writeBytes m a (leBytes n v)

/-- Remove the cells of an address range: they read as unlisted again. -/
def clearRange (m : Memory) (a n : Nat) : Memory := m.filter fun c => c.1 < a || a + n ≤ c.1

/-- Add an element to a list used as a set. -/
def addSet {α : Type} [DecidableEq α] (l : List α) (x : α) : List α := if x ∈ l then l else l ++ [x]

/-- The elements of a list without repeats. -/
def uniq {α : Type} [DecidableEq α] (l : List α) : List α := l.foldl addSet []

/-- Remove an element from a list used as a set. -/
def delSet {α : Type} [DecidableEq α] (l : List α) (x : α) : List α := l.filter fun y => y ≠ x

end Sys2Proof.Machine
end

