-- ==== Sys2Proof/Machine/GroupState.lean ====
section
/-!
DEFINITION. The state of groups, teams, gangs and contexts (02 Tables 2.1, 2.4 and 2.5; 07 R203, R220; 08 R253).
-/
namespace Sys2Proof.Machine

/-! ### Names -/

/-- The engine contexts of a handle (02 Table 2.3), each with the agent that owns it. -/
inductive EKey where
  | copy (gid : Nat)
  | kiosk (gid : Nat)
  /-- the sequencer of quarter `q` of a team -/
  | seq (team q : Nat)
  | snap
  | inval (ctx : Nat)
  deriving DecidableEq, Repr

/-- What a trap record says beside the word and its chain (13 Tables 13.9 and 13.10). -/
structure TrapInfo where
  code : Nat
  status : Nat := 0
  lanes : Word32 := 0
  s58 : Nat := 0
  s59 : Nat := 0
  s60 : Nat := 0
  s61 : Nat := 0
  deriving DecidableEq, Repr

/-- A failed engine operation whose trap is delivered once (07 R210). -/
structure Failure where
  seqNo : Nat
  status : Nat
  trap : Option TrapInfo
  /-- the group that issued the operation -/
  gid : Nat := 0
  delivered : Bool := false
  deriving DecidableEq, Repr

/-- An engine context: operations issued, those not yet complete, and failures (07 R211). -/
structure Engine where
  issued : Nat := 0
  active : List Nat := []
  /-- the group that issued each operation in progress -/
  issuers : AMap Nat Nat := []
  fails : List Failure := []
  deriving DecidableEq, Repr

/-! ### A group -/

/-- Why a register lane is marked (06 R156, R185; 13 R352). -/
inductive MarkKind where
  | poison
  | chase (status k hops : Nat)
  | discarded (status : Nat)
  /-- a lane of `KDEQ` that failed: its status of 06 Table 6.5 and a page-request status -/
  | list (status reply : Nat)
  deriving DecidableEq, Repr

/-- A mark on one lane of a vector register, or on a scalar register. -/
structure Mark where
  scalar : Bool
  /-- stack position of the vector register, or the scalar's number -/
  reg : Nat
  lane : Nat
  kind : MarkKind
  addr : Nat := 0
  /-- the word index of the load, the partial pointer of a chase, or the last entry read of a discarded `ATOM`'s walk -/
  aux : Nat := 0
  /-- peer + 1 for a remote read that failed back (12 R332), else 0 -/
  peer : Nat := 0
  /-- the page reply that ended a chase at its origin (06 R181) -/
  reply : Nat := 0
  handle : Nat := 0
  deriving DecidableEq, Repr

/-- The operation that keeps a register pending (02 R46). -/
inductive PendBy where
  | remote (tag : Nat)
  | kiosk (seqNo : Nat)
  | row (id : Nat)
  | log (id : Nat)
  deriving DecidableEq, Repr

/-- A pending register. -/
structure Pend where
  scalar : Bool
  reg : Nat
  by_ : PendBy
  deriving DecidableEq, Repr

/-- What a parked lane waits for (05 R146, R147; 06 R164, R201). -/
inductive ParkFor where
  /-- a 32-bit word differing from (`eq` false) or equal to a value -/
  | word (addr : Nat) (eq : Bool) (value : Word32)
  | future (handle : Word64)
  | granule (g : Nat)
  | signal (addr : Nat) (wide : Bool) (cond : Nat) (amount : Word64) (dst : Nat)
  deriving DecidableEq, Repr

/-- One parked lane. -/
structure Park where
  lane : Nat
  pc : WordIndex
  on : ParkFor
  acquire : Bool := false
  scope : Scope := .grp
  /-- the service class of its reads (04 R81), and when it parked: an answer to a read of an earlier wait is none of its own (06 R201) -/
  svc : Nat := 1
  since : Nat := 0
  deriving DecidableEq, Repr

/-- The latch chain that is open, and what is needed to undo it (02 R29, R34). -/
structure Chain where
  isOpen : Bool := false
  head : WordIndex := 0
  lanes : Word32 := 0
  members : Nat := 0
  /-- vector members issued so far (02 R33) -/
  vecs : Nat := 0
  /-- registers that members wrote, with their values and marks at the head -/
  oldVec : AMap Nat Lanes := []
  oldSca : AMap Nat Word64 := []
  oldMask : AMap Nat Word32 := []
  oldMarks : List Mark := []
  oldRng : Lanes := []
  oldFlags : Word64 := 0
  deriving DecidableEq, Repr

/-- The save set of trap entry (13 R356). -/
structure SaveSet where
  lpc : List Nat
  parks : List Park
  em : Word32
  /-- `s56` to `s63` -/
  sregs : List Word64
  resume : WordIndex
  deriving DecidableEq, Repr

/-- Why a group does not issue (08 R257). -/
inductive Hold where
  | none
  /-- a faulting access of some lanes waits at its word on a page of its context: the address, the access kind and the last
  entry read (13 R346) -/
  | page (va kind : Nat) (last : Word64) (lanes : Word32) (word : WordIndex)
  /-- its page request failed while the gang was saved: raised at the held word (13 R360) -/
  | pageFailed (va kind : Nat) (last : Word64) (lanes : Word32) (word : WordIndex) (status : Nat)
  /-- `YIELD`: groups still to issue, and issue slots left (05 R149) -/
  | yielded (waitFor : List Nat) (slots : Nat)
  /-- stopped by a nested trap (13 R359) -/
  | stopped
  deriving DecidableEq, Repr

/-- The loop buffer: the words of a declared body as they were fetched (05 R150). -/
structure LoopBuf where
  first : WordIndex
  len : Nat
  words : AMap Nat Word64 := []
  deriving DecidableEq, Repr

/-- Logged stores of a group that a failed page request discarded (06 R194). -/
structure StoreLost where
  page : Nat
  count : Nat
  status : Nat
  deriving DecidableEq, Repr

/-- A group of 32 lanes (02 Table 2.1). -/
structure Group where
  team : Nat
  idx : Nat
  live : Word32 := 0xFFFFFFFF
  lpc : List Nat := []
  parks : List Park := []
  wbase : Nat := 0
  /-- the resident window, by stack position (02 R37) -/
  vregs : AMap Nat Lanes := []
  /-- `b0` to `b3`, 64 bits a lane -/
  latches : List (List Word64) := []
  sregs : AMap Nat Word64 := []
  em : Word32 := 0xFFFFFFFF
  masks : AMap Nat Word32 := []
  handles : AMap Nat Word64 := []
  origin : Word64 := 0
  fpflags : Word64 := 0
  rng : Lanes := []
  svc : Word64 := 1
  lastnan : Word64 := 0
  supervisor : Bool := false
  save : Option SaveSet := none
  chain : Chain := {}
  marks : List Mark := []
  pend : List Pend := []
  hold : Hold := .none
  loopBuf : Option LoopBuf := none
  lost : List StoreLost := []
  /-- a `STRIPE_FAIL` to raise at the next `PBAR.stripe` -/
  stripeLost : List Nat := []
  /-- SCM stores and `PWB`s issued that `PBAR` still waits for: ids of persist requests, local and remote -/
  persists : List Nat := []
  /-- 64-byte granules of SCM that it stored to through the caches and that `PBAR` makes durable (11 R305) -/
  scmDirty : List Nat := []
  /-- spill positions and reads of the word that have come from another package: bytes, and for a failed one the peer
  that is unreachable plus 1, or 0 for poison -/
  fills : AMap Nat (List Byte × Option Nat) := []
  /-- arrived by `BAR` in this phase of the team barrier, and waiting (07 R232) -/
  bar : Option Bool := none
  /-- arrived by `GBAR` in this phase of the gang barrier, and waiting (07 R233) -/
  gbar : Option Bool := none
  /-- waits in `PREEMPT` of a gang: the gang, and the outcome once it is known (07 R251) -/
  preempting : Option (Nat × Option Nat) := none
  /-- the word at the issue address has issued and waits to complete (08 R258) -/
  begun : Bool := false
  /-- waits in `MCTW` for the copies older than this table version (12 R336) -/
  mctw : Option Nat := none
  lastIssue : Nat := 0
  admitted : Nat := 0
  deriving DecidableEq, Repr

/-! ### A team and its quarters -/

/-- A tensor-map register: the 16 words of its record and its two live words (02 R48, 07 R203). -/
structure TMap where
  words : List Word32 := []
  amax : Word32 := 0
  orig : Word32 := 0
  deriving DecidableEq, Repr

/-- A numbered barrier (07 R220). -/
structure NBar where
  expected : Nat := 0
  arrived : Nat := 0
  phase : Bool := false
  deriving DecidableEq, Repr

/-- A stationary plane: the 64 x 64 view of element encodings row-major, their scales (empty: none), the smode in view
terms, and the map they came through (07 R224). -/
structure Plane where
  loaded : Bool := false
  fmt : Ty := .f32
  smode : Nat := 0
  map : Nat := 0
  elems : List Nat := []
  scales : List Nat := []
  /-- elements struck by an uncorrectable error (17 R419) -/
  spoiled : List Nat := []
  deriving DecidableEq, Repr

/-- An accumulator tile, 64 x 64 FP32 words row-major; an empty list is all +0.0. -/
abbrev Tile := List Word32

/-- A matrix stream (07 R219). -/
structure Stream where
  pc : WordIndex
  forker : Nat
  seqNo : Nat
  rng : Word32
  origin : Word64
  supervisor : Bool
  running : Bool := true
  /-- a fetch waits on a page (07 R223) -/
  heldPage : Option Nat := none
  /-- blocked in `MBAR.wait` -/
  waiting : Bool := false
  /-- chunks of the drain at `pc` already written, and the record it read at its start (08 R261) -/
  chunk : Nat := 0
  map : List Word32 := []
  /-- the word at `pc` has started, and the records of its maps as it read them then (08 R261) -/
  started : Bool := false
  maps : AMap Nat (List Word32) := []
  /-- flags of its words and the last NaN payload that they recorded, which its group gets when the future completes (03 R69, 05 R153) -/
  fl : Flags := 0
  nan : Option (BitVec 22) := none
  /-- the word at `pc` as it was last fetched -/
  word : Word64 := 0
  lastIssue : Nat := 0
  deriving DecidableEq, Repr

/-- The matrix unit of one quarter a team holds. -/
structure MUnit where
  active : Plane := {}
  shadow : Plane := {}
  tiles : AMap Nat Tile := []
  /-- poisoned elements of the tiles (17 R419) -/
  spoiled : AMap Nat (List Nat) := []
  stream : Option Stream := none
  /-- groups whose `MFORK` waits for the unit, in issue order (07 R219) -/
  forks : List Nat := []
  deriving DecidableEq, Repr

/-- A team on its core (08 R253). -/
structure Team where
  gang : Nat
  idx : Nat
  /-- die * 64 + core -/
  core : Nat
  /-- the quarters of R253, ascending -/
  quarters : List Nat := [0]
  scratchBase : Nat := 0
  scratch : Memory := []
  /-- granules that are full -/
  full : List Nat := []
  /-- granules that hold poison -/
  spoiled : List Nat := []
  /-- slot number to tag -/
  tags : AMap Nat Word64 := []
  tmaps : AMap Nat TMap := []
  nbars : AMap Nat NBar := []
  barArrived : Nat := 0
  barPhase : Bool := false
  gbarArrived : Nat := 0
  /-- its matrix units, by the quarters that it was admitted to -/
  units : AMap Nat MUnit := []
  starter : Option (List Byte) := none
  retired : Bool := false
  deriving DecidableEq, Repr

/-- The fields of a continuation record (14 Table 14.1). -/
structure Record where
  entry : Nat := 0
  fp : Nat := 0
  join : Word32 := 0
  prio : Nat := 0
  queue : Nat := 0
  groups : Nat := 1
  window : Nat := 1
  stack : Nat := 1
  scratch : Nat := 0
  acc : Nat := 0
  teams : Nat := 1
  place : Bool := false
  signal : Nat := 0
  sig32 : Bool := false
  ctx : Nat := 0
  steptag : Nat := 0
  arg0 : Word64 := 0
  arg1 : Word64 := 0
  /-- every reserved bit is zero -/
  clean : Bool := true
  deriving DecidableEq, Repr

/-- Progress of a pre-emption (13 R360-R362). -/
inductive GangRun where
  | running
  /-- pre-empted: its groups stop and its work settles; `by_` a group waiting in `PREEMPT` -/
  | stopping
  | saved
  /-- waits between its last team's retirement and the successor's admission (08 R269) -/
  | handing
  /-- its context was killed while Kiosk steps, chases or copy units of it were in flight: nothing of it runs or holds resources, and it
  is gone when they have completed (13 R364) -/
  | killed
  deriving DecidableEq, Repr

/-- A gang (14 R365, 07 R236-R239). -/
structure Gang where
  ctx : Nat
  /-- the virtual address of the record it was admitted from -/
  recAddr : Nat
  rec_ : Record
  cores : List Nat := []
  run : GangRun := .running
  /-- stopped by a nested trap until the context is killed (13 R359) -/
  stopped : Bool := false
  /-- the fixed successor: the address of its record, and the record as the `HANDOFF` that fixed it read it (log 30) -/
  successor : Option (Nat × Record) := none
  gbarPhase : Bool := false
  /-- the level the first arrival of the phase fixed -/
  gbarLevel : Option Nat := none
  admitted : Nat := 0
  /-- admitted as a successor, and no group has issued since: a pre-emption waits (08 R269) -/
  entering : Bool := false
  /-- a pre-emption that came in that interval (08 R269) -/
  preemptDue : Bool := false
  appended : Nat := 0
  sliceStart : Nat := 0
  /-- a pre-emption save, or the resumption, waits on a virtual page (13 R361) -/
  heldPage : Option Nat := none
  deriving DecidableEq, Repr

/-! ### A context -/

/-- A recipe a slot of a context holds (06 R188). -/
structure Recipe where
  bytes : List Byte
  deriving DecidableEq, Repr

/-- The state of a context in this package (02 Table 2.5, 13 R353). -/
structure Ctx where
  root : Word64 := 0
  gen : Word32 := 0
  step : Word64 := 0
  vector : Word64 := 0
  mcast : AMap Nat Word64 := []
  /-- translation generation -/
  xgen : Word32 := 0
  /-- the square-wide invalidations that this package has taken, the latest first, each as 1 + its number in its package + 2^32 * package
  (13 R353-R355; log 15) -/
  invs : List Nat := []
  recipes : AMap Nat Recipe := []
  /-- queue bindings: the queues of this package that it owns (14 R367) -/
  queues : List Nat := []
  deriving DecidableEq, Repr

end Sys2Proof.Machine
end

