-- ==== Sys2Proof/Machine/UnitState.lean ====
section
/-!
DEFINITION. The state of the units beside the groups: translation (13), engines (06, 07), caches, directory and fabric
(12), persistence and images (16), integrity (17), scheduling (14), boot and power (20).
-/
namespace Sys2Proof.Machine

/-! ### Translation (13) -/

/-- The translation caches of 13 Table 13.5. -/
inductive TlbKey where
  | l1 (core : Nat)
  | l2 (die : Nat)
  | ahead (core : Nat)
  | kiosk (k : Nat)
  deriving DecidableEq, Repr

/-- A cached translation (13 R345). -/
structure TlbEntry where
  ctx : Nat
  /-- first virtual address of the page, and the page's size in bits: 12, 21 or 30 -/
  base : Nat
  bits : Nat
  w : Bool
  x : Bool
  u : Bool
  kind : Nat
  pt : Bool
  attr : Nat
  frame : Nat
  dirty : Bool
  /-- the leaf entry, for records and `XLATE` -/
  leaf : Word64
  deriving DecidableEq, Repr

/-- What a translation yields. -/
structure Xlat where
  pa : Nat
  kind : Nat
  pt : Bool
  attr : Nat
  /-- the context whose tables gave it -/
  ctx : Nat := 0
  deriving DecidableEq, Repr

/-- A page request in flight (13 Table 13.6). -/
structure PageReq where
  ctx : Nat
  gen : Nat
  vpage : Nat
  kind : Nat
  status : Nat
  level : Nat
  who : Nat
  deriving DecidableEq, Repr

/-- An invalidation in progress (13 R354): who waits for its completion, and the work translated before it that is not yet
performed. -/
structure Inval where
  /-- its context, and the translation generation that it began -/
  ctx : Nat := 0
  gen : Nat := 0
  /-- the engine context of the `TLBINV` with its number and group, in the package that issued it -/
  issuer : Option (Nat × Nat × Nat) := none
  /-- the package and tag to answer, for one that came from another package -/
  sender : Option (Nat × Nat) := none
  /-- open requests, row operations and multicast stores issued before it -/
  tags : List Nat := []
  rows : List Nat := []
  casts : List Nat := []
  /-- write-backs of dirty bytes that its groups stored, by core and line -/
  backs : List (Nat × Nat) := []
  /-- a package of the scope that could not be reached -/
  lost : Option Nat := none
  deriving DecidableEq, Repr

/-- An entry of a side log (13 R349). -/
structure LogEntry where
  core : Nat
  id : Nat
  gid : Nat
  ctx : Nat
  gen : Nat
  addr : Nat
  width : Nat
  data : Nat
  /-- the operator of a logged `ATOM` with its register and lane -/
  atom : Option (Nat × Nat × Nat) := none
  supervisor : Bool := false
  /-- the step that its store carries (16 R396) -/
  tag : Word64 := 0
  /-- the first entry of its word's issue: of lanes that store to one location the highest stores (06 R157) -/
  batch : Nat := 0
  /-- the word that issued it, its scope, and the group's `origin` then (13 R351) -/
  word : WordIndex := 0
  scope : Scope := .pkg
  origin : Word64 := 0
  /-- its service class and eviction priority -/
  cls : Nat := 1
  prio : Nat := 1
  /-- the access kind, walk status and level of its fault (13 R346), and the last entry that its walk read -/
  fault : Nat × Nat × Nat := (1, 1, 0)
  last : Word64 := 0
  deriving DecidableEq, Repr

/-! ### Engines (06, 07) -/

/-- What a copy operation does (07 Table 7.8, 16 R404). -/
inductive CopyKind where
  | tile (store fe : Bool) (row0 col0 : Nat)
  | range (kind dst src count : Nat)
  | fill (toScratch : Bool) (base len : Nat) (pat : Word32)
  | reduce (op row0 col0 : Nat)
  | gather (fe : Bool) (list col0 : Nat)
  deriving DecidableEq, Repr

/-- A copy operation in progress (07 R213). -/
structure CopyOp where
  gid : Nat
  seqNo : Nat
  kind : CopyKind
  mapNo : Nat := 0
  map : List Word32 := []
  origin : Word64 := 0
  rng : Word32 := 0
  rnd : Rnd := .rn
  ftz : Bool := false
  supervisor : Bool := false
  /-- units already performed -/
  done : Nat := 0
  /-- the unit after those has started: other packages were asked for its bytes -/
  begun : Bool := false
  cancelled : Bool := false
  /-- suspended at a unit on this virtual page -/
  heldPage : Option Nat := none
  fl : Nat := 0
  nan : Option Nat := none
  /-- lowest element address an `AREDUCE` left unwritten because of poison -/
  spoiled : Option Nat := none
  /-- the step at issue (16 R396) -/
  tag : Word64 := 0
  /-- the first memory byte that it writes -/
  dest : Option Nat := none
  /-- a peer that could not be reached -/
  lostPeer : Option Nat := none
  /-- the page and the reply that ended it, once the writes of its earlier units are acknowledged (11 R297) -/
  failed : Option (Nat × Nat) := none
  /-- what other packages returned for the unit being moved: by physical address, bytes and poisoned beats (local address / 32) -/
  got : AMap Nat (List Byte × List Nat) := []
  deriving DecidableEq, Repr

/-- One step of a chase descriptor (06 R183). -/
structure ChaseDesc where
  mask : Word64
  off : Word32
  width : Nat
  deriving DecidableEq, Repr

/-- A chase step that was translated elsewhere and forwarded to the Kiosk of its line (12 R334). -/
structure Arrival where
  va : Nat
  pa : Nat
  /-- the latest square-wide invalidation that the package which forwarded it had taken, as `Ctx.invs` names it, or 0 -/
  inv : Nat := 0
  /-- it was forwarded within the package: the translation generation -/
  xgen : Option Nat := none
  deriving DecidableEq, Repr

/-- A chase packet (06 R184). -/
structure Chase where
  gid : Nat
  seqNo : Nat
  lane : Nat
  dreg : Nat
  n : Nat
  hopLimit : Nat
  steps : List ChaseDesc
  k : Nat
  hops : Nat
  p : Nat
  /-- the owner of the previous step: package * 16 + Kiosk -/
  owner : Option Nat := none
  supervisor : Bool := false
  /-- sent by `CHASER` at a step above 0: its first step counts one hop (15 R380) -/
  resumed : Bool := false
  word : WordIndex := 0
  heldPage : Option Nat := none
  /-- the packet is at another package -/
  away : Bool := false
  /-- a packet that came from another package: its source, tag, context and service class -/
  origin : Option (Nat × Nat × Nat × Nat) := none
  /-- the requester within that package, and the translation generation in its header (12 R334, Table 12.8) -/
  agent : Nat := 0
  xgen : Nat := 0
  /-- when it reached its Kiosk (12 R333) -/
  since : Nat := 0
  /-- its next step, forwarded to its Kiosk and not yet taken -/
  arrived : Option Arrival := none
  /-- the address of the packet that it came in (12 R329) -/
  reqAddr : Nat := 0
  deriving DecidableEq, Repr

/-- A list operation (06 R187): the lanes still to step, with their node addresses for `KENQ`. -/
structure ListOp where
  gid : Nat
  seqNo : Nat
  enq : Bool
  head : Nat
  lanes : List Nat
  nodes : List Nat
  dreg : Nat := 0
  supervisor : Bool := false
  heldPage : Option Nat := none
  word : WordIndex := 0
  /-- the Kiosk, once the head was translated at the core -/
  kiosk : Option Nat := none
  since : Nat := 0
  /-- the step at issue (16 R396) -/
  tag : Word64 := 0
  deriving DecidableEq, Repr

/-- A row operation (06 R175, R190). -/
structure RowOp where
  id : Nat
  /-- the agent: a group of this package, or a tag of another package -/
  gid : Option Nat
  requester : Nat
  cls : Nat
  kiosk : Nat
  /-- 0 to 2 by `ROWOP`, 3 `ROWLD`, 4 a plain row store of `STM` -/
  op : Nat
  pa : Nat
  /-- its virtual address, for the record of a poisoned row -/
  va : Nat := 0
  size : Nat
  lanes : Word32
  /-- operand bytes with their row offsets, for the lanes that execute -/
  data : List (Nat × Byte)
  dreg : Nat := 0
  arrived : Nat := 0
  word : WordIndex := 0
  lagged : Bool := false
  /-- an acquire: the core drops its clean bytes when the value is fixed (11 R289) -/
  acquire : Bool := false
  /-- the issuing group's `origin` (03 R65) -/
  origin : Word64 := 0
  /-- the sender in another package that waits for the result: package and tag -/
  sender : Option (Nat × Nat) := none
  /-- operations of one agent on a row keep their order: group number, or 2^40 + package * 2^16 + agent -/
  agent : Nat := 0
  /-- the step at issue (16 R396), and the multicast entry of an `STM.row` -/
  tag : Word64 := 0
  entry : Nat := 0
  /-- its context, the translation generation at issue, and whether its page is persist-through (13 R353, 11 R305) -/
  ctx : Nat := 0
  xgen : Nat := 0
  pt : Bool := false
  /-- members to which the home replica forwards the update, and the package and tag that they answer (11 R286) -/
  members : List Nat := []
  fan : Nat × Nat := (0, 0)
  /-- of an `STM.row` of this package, the table version that it is counted against (06 R191) -/
  version : Option Nat := none
  /-- the agent that its packet named -/
  by_ : Nat := 0
  deriving DecidableEq, Repr

/-- A `KVUP` in progress (06 R189). -/
structure KvUp where
  gid : Nat
  seqNo : Nat
  recipe : List Byte
  x0 : Nat
  x1 : Nat
  x2 : Nat
  n : Nat
  chunks : List Nat
  slot : Nat
  /-- when it was issued -/
  since : Nat := 0
  origin : Word64
  supervisor : Bool
  /-- the step at issue (16 R396) -/
  tag : Word64 := 0
  fl : Nat := 0
  fails : List (Nat × Nat × Nat) := []
  deriving DecidableEq, Repr

/-- A `KRCP` in progress: the Kiosks that hold the recipe already (06 R188). -/
structure KRcp where
  gid : Nat
  seqNo : Nat
  ctx : Nat
  slot : Nat
  recipe : List Byte
  installed : List Nat := []
  deriving DecidableEq, Repr

/-! ### Caches, directory and fabric (12) -/

/-- A line of a core's L1 (12 R310, R311). -/
structure L1Line where
  data : List Byte
  valid : BitVec 128
  dirty : BitVec 128
  prio : Nat := 1
  /-- taken exclusively for a team- or core-scope atomic (12 R311) -/
  exclusive : Bool := false
  /-- when it was filled or became dirty -/
  since : Nat := 0
  /-- its last access, for the choice of a victim (12 R312) -/
  used : Nat := 0
  /-- the groups that stored its dirty bytes, each with the virtual page and the step of its store (06 R194, 16 R396) -/
  by_ : List (Nat × Nat × Word64) := []
  deriving DecidableEq, Repr

/-- A copy in a die's L2, of a line homed there or of another agent's (12 R312, R316). -/
structure L2Line where
  prio : Nat := 1
  /-- its last access, for the choice of a victim -/
  used : Nat := 0
  /-- 64-byte granules written in it: of SCM, since they last entered a persist queue (11 R305) -/
  dirty : List Nat := []
  deriving DecidableEq, Repr

/-- Dirty bytes of a core's L1 on their way to a home slice that could not take them at once (12 R323). -/
structure WriteBack where
  core : Nat
  line : Nat
  cells : List (Nat × Byte)
  by_ : List (Nat × Nat × Word64) := []
  deriving DecidableEq, Repr

/-- Directory states (12 Table 12.3). -/
inductive DirState where
  | inv | shared | excl | owned | modified | busy | locked
  deriving DecidableEq, Repr

/-- Directory messages (12 Table 12.4). -/
inductive CohOp where
  | getS | getM | upg | putE | putO | putM | inval | fwdS | fwdM | data | upgAck | invAck | putAck | fin
  deriving DecidableEq, Repr

/-- A directory message: `src` and `dst` are agents, 4 * package + die, or 256 for the home; `data` is the line, where it
carries one, with the beats of it that are poisoned. -/
structure CohMsg where
  op : CohOp
  line : PAddr
  src : Nat
  dst : Nat
  /-- the agent a forward sends its data to; of `Data` from an owner, 1: the requester answers Done -/
  req : Nat := 0
  excl : Bool := false
  data : List Byte := []
  spoiled : List Nat := []
  deriving DecidableEq, Repr

/-- What waits for a line in arrival order: a message of an agent, or a step of this package, as `Holder` numbers it (12 R320, R323). -/
inductive Waiter where
  | msg (m : CohMsg)
  | own (who : List Nat)
  deriving DecidableEq, Repr

/-- A directory entry (12 R317, R320). -/
structure DirEntry where
  st : DirState := .inv
  coarse : Bool := false
  owner : Nat := 0
  /-- exact: the sharers; coarse: the marked groups of sixteen agents -/
  sharers : List Nat := []
  /-- while busy: the request being served, and the agents whose InvAck is awaited -/
  serving : Option CohMsg := none
  /-- while busy: the state before -/
  prior : DirState := .inv
  acks : List Nat := []
  /-- what waits for the line, in arrival order -/
  waiting : List Waiter := []
  /-- who holds the lock: 0 none, 1 a Kiosk step or `MCAS` -/
  lockers : Nat := 0
  /-- which step holds it, as `Holder` numbers it; empty for the next one that needs the line -/
  holder : List Nat := []
  deriving DecidableEq, Repr

/-- A copy that an L2 agent of this package holds of a line homed elsewhere, and what it waits for (12 R321). The bytes of a
line homed on another die of the package are those of `State.mem` (log 14). -/
structure AgentLine where
  st : DirState := .inv
  data : List Byte := []
  spoiled : List Nat := []
  waiting : Option CohOp := none
  held : List CohMsg := []
  /-- the write-back buffer with its poisoned beats, until PutAck -/
  buffer : Option (List Byte × List Nat) := none
  /-- the access that asked for the grant: local offset and byte to write, or none for a read -/
  access : List (Nat × Byte) := []
  /-- the word that asked for the grant, while the forwards held off wait for its access -/
  due : List Nat := []
  /-- of a modified copy of a line of this package: the home copy's bytes and poisoned beats (06 R158) -/
  under : Option (List Byte × List Nat) := none
  deriving DecidableEq, Repr

/-- A fabric packet (12 Table 12.8), its data flits as bytes. -/
structure Packet where
  dest : Nat := 0
  src : Nat := 0
  cls : Nat := 0
  op : Nat := 0
  /-- data flits -/
  flits : Nat := 0
  svc : Nat := 0
  reserved : Nat := 0
  ctx : Nat := 0
  xgen : Nat := 0
  agent : Nat := 0
  tag : Nat := 0
  addr : Nat := 0
  opdata : Nat := 0
  /-- the end-to-end check value of the header (17 R412) -/
  check : Nat := 0
  data : List Byte := []
  /-- 32-byte beats of the data that travel poisoned -/
  spoiled : List Nat := []
  deriving DecidableEq, Repr

/-- Bits [255:16] of the header of a packet, as a number (12 Table 12.8). -/
def Packet.headerBits (p : Packet) : Nat :=
  let at_ := fun (lo w x : Nat) => x % 2 ^ w * 2 ^ (lo - 16)
  at_ 250 6 p.dest + at_ 244 6 p.src + at_ 240 4 p.cls + at_ 232 8 p.op + at_ 228 4 p.flits + at_ 226 2 p.svc
    + at_ 208 18 p.reserved + at_ 192 16 p.ctx + at_ 160 32 p.xgen + at_ 144 16 p.agent + at_ 128 16 p.tag + at_ 64 57 p.addr
    + at_ 16 48 p.opdata

/-- The check value that the header of a packet should carry: the CRC over its bytes, the most significant first (17 R412). -/
def Packet.headerCheck (p : Packet) : Nat := crc16 (leBytes 30 p.headerBits).reverse

/-- The header check holds. -/
def Packet.checkOk (p : Packet) : Bool := p.check == p.headerCheck

/-- The packet as it leaves: with its number of data flits and its check value. -/
def Packet.sealed (p : Packet) : Packet :=
  let q := { p with flits := (p.data.length + 31) / 32 }
  { q with check := q.headerCheck }

/-- A packet in egress (12 R329, R332, R336). -/
structure Egress where
  pkt : Packet
  since : Nat
  sent : Bool := false
  /-- flits may be resent until the receiver acknowledges them (12 R331); the multicast table version it was counted
  against (12 R336) -/
  version : Option Nat := none
  link : Option Nat := none
  deriving DecidableEq, Repr

/-- A load that waits for the L2 of a die to hold its line: the attribute of its page and its priority (12 R316). -/
structure LineWait where
  die : Nat
  attr : Nat
  prio : Nat
  deriving DecidableEq, Repr

/-- What a request to another package will complete when its response arrives. -/
inductive RemoteFor where
  /-- dirty bytes that a core's L1 wrote back, with who stored them -/
  | back (core : Nat) (by_ : List (Nat × Nat × Word64))
  | load (gid dreg lane width : Nat) (word : WordIndex) (va : Nat)
  | atom (gid dreg lane width : Nat) (word : WordIndex) (va : Nat)
  | write (gid page : Nat)
  | scmWrite (gid page : Nat)
  | scalar (gid dreg width : Nat) (word : WordIndex) (va : Nat)
  | copyUnit (gid seqNo : Nat)
  | chase (gid seqNo lane : Nat)
  | row (gid dreg size : Nat) (lanes : Word32) (word : WordIndex) (va : Nat)
  | fill (gid pos : Nat)
  /-- an evaluation of a lane that parked at a time -/
  | parkRead (gid lane since : Nat)
  | inval (ctx seqNo peer : Nat)
  /-- a contribution or product of an operation that a group issued: a `STRIPE`'s is a fragment (06 R198) -/
  | snap (gid seqNo peer : Nat) (fragment : Bool)
  /-- a record of a context's queue, and the completion signal of a gang, at a virtual address (14 R370, R375) -/
  | record (ctx va : Nat)
  | signal (ctx va : Nat)
  deriving DecidableEq, Repr

/-- A request to another package that is still open. -/
structure Remote where
  tag : Nat
  peer : Nat
  addr : PAddr
  what : RemoteFor
  /-- an acquire: later memory words of the group wait for it -/
  acquire : Bool := false
  /-- other lanes of the word that load from the same address (06 R157) -/
  also : List Nat := []
  /-- it waits for the die's L2 to hold the line, and what that L2 was granted: the line's bytes and poisoned beats -/
  line : Option LineWait := none
  came : Option (List Byte × List Nat) := none
  /-- of a copy engine's write: its virtual page -/
  page : Option Nat := none
  deriving DecidableEq, Repr

/-- A laser or receiver of a fibre (12 R325-R328). -/
inductive LinkState where
  | training | trained | draining | retuning | down
  deriving DecidableEq, Repr

/-- An `STM` on its way through the egress (12 R336): its stores, and the members left once its entry was read. -/
structure Mcast where
  id : Nat
  gid : Nat
  ctx : Nat
  svc : Nat
  entry : Nat
  row : Bool
  rel : Bool
  tag : Word64
  /-- physical addresses at the source, their attributes and bytes -/
  stores : List (Xlat × List Byte)
  /-- the virtual page of each, for `STORE_LOST` -/
  pages : List Nat := []
  left : Option (List Nat) := none
  version : Nat := 0
  /-- the translation generation at issue (13 R353) -/
  xgen : Nat := 0
  /-- its eviction priority (06 Table 6.1) -/
  prio : Nat := 1
  deriving DecidableEq, Repr

/-! ### Memory requests and row counters (12 R314, 17 R420) -/

/-- A request queued at a channel scheduler. -/
structure MemReq where
  channel : Nat
  requester : Nat
  cls : Nat
  arrived : Nat
  deadline : Nat
  line : Nat
  write : Bool
  lur : Bool := false
  ctx : Nat := 0
  deriving DecidableEq, Repr

/-- What the codes of the memory will find when they read a line: its beats by number within the line (17 R417, R418). -/
inductive FlawKind where
  /-- the symbol code corrects it -/
  | symbol
  /-- channel parity rebuilds it -/
  | parity
  /-- neither corrects it -/
  | hard
  deriving DecidableEq, Repr

/-- An error in the cells of a line. -/
structure Flaw where
  kind : FlawKind
  beats : List Nat
  deriving DecidableEq, Repr

/-! ### Persistence (16) -/

/-- What the acceptance of a write does to the metadata of an SCM line (16 R389, R395). -/
structure MetaSet where
  /-- local address / 256 -/
  line : Nat
  tag : Option Word64 := none
  mark : Option Word64 := none
  count : Option Nat := none
  deriving DecidableEq, Repr

/-- A write on its way into a persist queue, or accepted and not yet drained (16 R394). -/
structure Persist where
  id : Nat
  /-- SCM stack 0 to 3 -/
  stack : Nat
  /-- local addresses and bytes -/
  cells : List (Nat × Byte)
  /-- beats that travel poisoned -/
  spoiled : List Nat := []
  tag : Option Word64 := none
  /-- 0 store, 1 image copy, 2 parity contribution (16 R394) -/
  kind : Nat := 0
  accepted : Bool := false
  /-- the write that it is a piece of, by the number of its first piece, and whether another piece of it was late and has been counted
  (16 R399) -/
  piece : Nat := 0
  counted : Bool := false
  sets : List MetaSet := []
  gid : Option Nat := none
  /-- the response to a sender in another package that waits for the acceptance -/
  ack : Option Packet := none
  deriving DecidableEq, Repr

/-- The metadata of a 256-byte SCM line (16 R389). -/
structure LineMeta where
  tag : Word64 := 0
  mark : Word64 := 0xFFFFFFFFFFFFFFFF
  count : Nat := 0
  deriving DecidableEq, Repr

/-! ### Errors and events (17 R422, R423) -/

/-- The events of the part. -/
inductive EventKind where
  | trapNested | preemptFailed | errorRecord | errorOverflow | launchRefused | streamOrphaned | fabricLinkDown
  | fabricProtocol | peerUnreachable | mcastDrop | tempHold | bootReady | bootFailed | bootRefused | thermalLimit
  | thermalTrip
  /-- one of the two control ports failed (01 R23) -/
  | portFailed
  /-- posted by `EVENT` (07 R246) -/
  | user
  deriving DecidableEq, Repr

/-- An event for the control node, with its details. -/
structure Event where
  kind : EventKind
  args : List Nat := []
  deriving DecidableEq, Repr

/-- An error record (17 Tables 17.4 and 17.5). -/
structure ErrRec where
  kind : Nat
  detail : Nat := 0
  aux : Nat := 0
  addr : Nat := 0
  virt : Bool := false
  count : Nat := 1
  gen : Nat := 0
  ctx : Nat := 0
  unitType : Nat := 1
  unit : Nat := 0
  severity : Nat := 2
  deriving DecidableEq, Repr

/-- The point that finds a check mismatch, as its record names it (17 Tables 17.1, 17.4 and 17.5): detail, aux, unit and
context. Unit type 1 stands for the home slice of the beat. -/
structure Finder where
  detail : Nat := 0
  aux : Nat := 0
  unitType : Nat := 1
  unit : Nat := 0
  ctx : Nat := 0
  deriving DecidableEq, Repr

/-- The error ring (17 Table 17.3). -/
structure ErrRing where
  base : Nat := 0
  n : Nat := 0
  head : Nat := 0
  tail : Nat := 0
  overflow : Nat := 0
  /-- `ERROR_OVERFLOW` posted since head was last written -/
  told : Bool := false
  deriving DecidableEq, Repr

/-- Registers and condition of an HBM or SCM stack (17 Table 17.3, R420, R421, R424). -/
structure Stack where
  /-- the bits of the command register that are kept: scrub rate -/
  scrub : Nat := 0
  mode : Nat := 0
  retired : Nat := 0
  refused : Bool := false
  watermark : Nat := 0
  corrected : Nat := 0
  poisoned : Nat := 0
  /-- 17 R421 -/
  held : Bool := false
  heldSince : Nat := 0
  holdTold : Bool := false
  /-- next line that the patrol scrub reads -/
  scrubAt : Nat := 0
  deriving DecidableEq, Repr

/-! ### The snapshot engine (16 R391, R400-R409) -/

/-- The state that a slot's header records (16 R400). -/
inductive SlotState where
  | empty | forming | complete | striped
  deriving DecidableEq, Repr

/-- An image slot. -/
structure ImageSlot where
  st : SlotState := .empty
  step : Word64 := 0
  /-- the number that `SNAP`s of its step return, if this enable has one (07 R241) -/
  seqNo : Option Nat := none
  deriving DecidableEq, Repr

/-- The image that forms (16 R398): region lines walked so far, and whether the header's last write is queued. -/
structure Forming where
  slot : Nat
  step : Word64
  next : Nat := 0
  seqNo : Nat
  gid : Nat
  /-- address of the first poisoned line copied -/
  spoiled : Option Nat := none
  closing : Bool := false
  deriving DecidableEq, Repr

/-- Operations of the snapshot engine beside an image: `STRIPE`, and `RBLD` at a survivor or at the replacement, with the
lost package and the replacement (16 R404-R409). -/
inductive WorkKind where
  | stripe
  | survive (lost repl : Nat)
  | receive (lost : Nat)
  deriving DecidableEq, Repr

/-- One such operation. `next` counts the lines done in each of its phases. -/
structure SnapWork where
  kind : WorkKind
  seqNo : Nat
  gid : Nat
  step : Word64
  next : Nat := 0
  /-- products sent; region lines are being restored -/
  restoring : Bool := false
  /-- nothing is left but acknowledgements -/
  ending : Bool := false
  spoiled : Option Nat := none
  deriving DecidableEq, Repr

/-- The snapshot engine: its registers (16 Tables 16.1 and 16.2), the ring, and what it is doing. -/
structure Snap where
  control : Word64 := 0
  ring : Word64 := 0
  units : Word64 := 0
  late : Nat := 0
  cursor : Nat := 0
  refused : Bool := false
  members : AMap Nat Word64 := []
  regions : AMap Nat (Word64 × Word64) := []
  slots : AMap Nat ImageSlot := []
  forming : Option Forming := none
  work : List SnapWork := []
  deriving DecidableEq, Repr

/-! ### Boot and power (20) -/

/-- 20 R441. -/
inductive BootState where
  | selfTest
  /-- a self-test failed: the part stays in it (20 R441) -/
  | failed
  | awaiting | running
  /-- without power (16 R395) -/
  | off
  deriving DecidableEq, Repr

/-- The configuration record applied (20 Table 20.2). -/
structure CfgRec where
  version : Nat := 0
  pkg : Nat := 0
  members : Word64 := 0
  cap : Nat := 0
  endpoints : Word64 := 0
  digest : List Byte := []
  deriving DecidableEq, Repr

/-- The power registers (20 Table 20.3). -/
structure Power where
  cap : Nat := 3200
  throttle : Nat := 256
  power : Nat := 0
  /-- millijoules since reset -/
  energy : Nat := 0
  temp : Nat := 0
  coolant : Nat := 0
  /-- vector issue slots are withheld as well (20 R446) -/
  withheld : Bool := false
  deriving DecidableEq, Repr

/-- The answer to a firmware command (20 R440): its status and what it returns. -/
structure Reply where
  status : Nat
  value : Nat := 0
  bytes : List Byte := []
  deriving DecidableEq, Repr

/-! ### Scheduling (14) -/

/-- A queue (14 Table 14.3). -/
structure Queue where
  base : Word64 := 0
  config : Word64 := 0
  head : Word32 := 0
  tail : Word32 := 0
  eligible : Bool := false
  refused : Bool := false
  /-- time of the first notify since it last became empty -/
  notified : Nat := 0
  /-- the mapper's active slot that it holds (14 R369) -/
  slot : Option Nat := none
  /-- when each entry of the ring was appended -/
  times : AMap Nat Nat := []
  deriving DecidableEq, Repr

end Sys2Proof.Machine
end

