-- ==== Sys2Proof/Machine/State.lean ====
section
/-!
DEFINITION. The state of one package, the three reasons a step can stop, and the state right after reset.
-/
namespace Sys2Proof.Machine

/-- What arrives with a step of the part that has no encoding: a command's operands, a register write, a message, or the
number of the unit or of the waiting thing that takes the step. Each device meaning says which fields it reads. -/
structure Input where
  unit : Nat := 0
  index : Nat := 0
  addr : Nat := 0
  code : Nat := 0
  value : Word64 := 0
  bytes : List Byte := []
  pkt : Packet := {}
  deriving DecidableEq, Repr

/-- Whose turn the next step is. -/
inductive Turn where
  /-- the group issues the word at its issue address -/
  | group (gid : Nat)
  /-- the stream of quarter `q` of a team executes its next word -/
  | stream (team q : Nat)
  /-- a step of the part outside its groups -/
  | device (i : Instr) (input : Input)
  /-- a message to the firmware: the code byte of a command and its operands (20 R440) -/
  | command (code : Nat) (input : Input)
  deriving DecidableEq, Repr

/-- The agent whose word is being executed. -/
inductive Agent where
  | none
  | group (gid : Nat)
  | stream (team q : Nat)
  /-- a copy engine, by the operation that it moves: how it waits for lines, as `Holder` numbers it -/
  | engine (who : List Nat)
  deriving DecidableEq, Repr

/-- The package. -/
structure State where
  /-- steps taken since reset -/
  clock : Nat
  /-- clocks since the last package reset (07 R246) -/
  time : Word64
  /-- the order in which agents and outside events act: the head acts next (log 2) -/
  turns : List Turn
  /-- what arrives with the device step being taken -/
  input : Input
  /-- the agent of the word being executed -/
  cur : Agent
  /-- the word being executed, for the record of an illegal word (13 Table 13.10) -/
  word : Word64
  /-- the word just tried could not complete and waits -/
  stalled : Bool
  /-- the word just tried has not even issued: it waits for a pending register (02 R46, 08 R257) -/
  blocked : Bool
  /-- free values drawn so far: the model's own counter (log 3) -/
  draws : Nat
  /-- numbers given to gangs, packets and other things so far: the model's own counter -/
  nextId : Nat
  /-- the coherent value of every byte of HBM, SCM and host window, by local address (log 14) -/
  mem : Memory
  /-- beats (local address / 32) that hold the poison code (17 R415) -/
  poison : List Nat
  /-- check values in the side bits of beats where they need not be those of the bytes, by local address / 32; the check of a
  beat that is not listed matches (17 R412-R414) -/
  badCheck : AMap Nat Nat
  /-- errors in the cells of lines of HBM and SCM, by local address / 128, that no read has met (17 R417) -/
  flaws : AMap Nat Flaw
  /-- beats whose next write meets an error on its way: what it changes in the write's check value (17 R413, R414) -/
  transit : AMap Nat Nat
  /-- what the SCM stacks hold durably (11 R306) -/
  media : Memory
  /-- poisoned beats of the media -/
  mediaPoison : List Nat
  /-- writes on their way into the persist queues, and accepted entries, oldest first (16 R394) -/
  persists : List Persist
  /-- by local address / 256 (16 R389) -/
  lineMeta : AMap Nat LineMeta
  /-- by core and line: local address / 128, or 2^49 + physical address / 128 for a line of another package -/
  l1 : AMap (Nat × Nat) L1Line
  /-- the L2 copies, by die and physical address / 128 -/
  l2 : AMap (Nat × Nat) L2Line
  /-- lines written at their home slice in this step: parked lanes that watch them are evaluated (05 R147, 06 R200, R201) -/
  written : List Nat
  /-- write-backs that wait for their line, oldest first -/
  backs : List WriteBack
  /-- instruction caches, by core, context, virtual address / 128 and physical address / 128 (06 R195) -/
  icache : AMap (Nat × Nat × Nat × Nat) (List Byte)
  dir : AMap Nat DirEntry
  agents : AMap (Nat × Nat) AgentLine
  msgs : List CohMsg
  tlbs : List (TlbKey × TlbEntry)
  pageReqs : List PageReq
  sideLog : List LogEntry
  /-- invalidations in progress (13 R354) -/
  invals : List Inval
  groups : AMap Nat Group
  teams : AMap Nat Team
  gangs : AMap Nat Gang
  ctxs : AMap Nat Ctx
  engines : AMap EKey Engine
  copyOps : List CopyOp
  chases : List Chase
  listOps : List ListOp
  rowOps : List RowOp
  kvups : List KvUp
  /-- lanes or chunks of open Kiosk operations that failed: issuing group, operation, lane, status, address, detail -/
  laneFails : List (Nat × Nat × Nat × Nat × Nat × Nat)
  mcasts : List Mcast
  /-- counts writes of multicast entries (12 R336) -/
  mcastVersion : Nat
  krcps : List KRcp
  egress : List Egress
  /-- parts of packets that have arrived and wait for the rest (12 R330; log 15) -/
  parts : List Packet
  remotes : List Remote
  /-- channel plans by fibre: written, and in force (12 R325) -/
  planWritten : AMap Nat Word64
  planApplied : AMap Nat Word64
  planEpoch : Nat
  planResult : Nat
  planBusy : Bool
  /-- by 4 * fibre + laser; a laser that is not listed is down -/
  links : AMap Nat LinkState
  /-- consecutive failed resends of a link (12 R331) -/
  retries : AMap Nat Nat
  /-- peers known unreachable (12 R332) -/
  unreachable : List Nat
  memReqs : List MemReq
  /-- by 4 * requester + class (12 R315) -/
  misses : AMap Nat Nat
  /-- by (Kiosk, 4 * requester + class) -/
  lags : AMap (Nat × Nat) Nat
  /-- by (32 * stack + channel, bank, row): the activation counters (17 R420) -/
  rowActs : AMap (Nat × Nat × Nat) Nat
  /-- corrected errors not yet recorded, by unit, and when the unit's last record was written (17 R422) -/
  corrected : AMap Nat (Nat × Nat)
  errRing : ErrRing
  /-- 0 to 7 the HBM stacks, 8 to 11 the SCM stacks -/
  memStacks : AMap Nat Stack
  snap : Snap
  queues : AMap Nat Queue
  /-- pre-empted gangs that wait to resume, oldest first (14) -/
  resumeList : List Nat
  /-- the time-slice register (14) -/
  slice : Word64
  /-- candidates by (queue, ring index), or (1024, gang) for a saved gang: when each became ready, and those that reserve
  (14 R371) -/
  waiting : AMap (Nat × Nat) Nat
  reserving : List (Nat × Nat)
  /-- records in other packages as last read, by context and address: bytes, and whether they are poisoned (14 R370) -/
  fetched : AMap (Nat × Nat) (List Byte × Bool)
  /-- the candidate whose record, in another package, is being read for its admission (14 R365, R373) -/
  admitting : Option (Nat × Nat)
  boot : BootState
  cfg : Option CfgRec
  /-- kept in the firmware area (20 R443) -/
  rollback : Nat
  leaf : Nat
  power : Power
  /-- control ports that work (01 R23) -/
  ports : List Nat
  /-- the context of a `CTX_KILL` whose gangs are not all removed yet: its answer is due (20 R440) -/
  killing : Option Nat
  /-- answers of the firmware, oldest first -/
  replies : List Reply
  /-- events for the control node, oldest first (17 R423) -/
  events : List Event
  deriving DecidableEq, Repr

/-- Why the machine stops with a fault. -/
inductive Fault where
  /-- A meaning was asked for an agent that is not there: a group's word with no such group, or a stream word with no
  stream. Raised by every meaning of a word; `step` never asks so. Safe: the model stops where no hardware runs. -/
  | noAgent
  deriving DecidableEq, Repr

/-- Why the model has no meaning for a step. -/
inductive Refusal where
  /-- The instruction is not modelled. Raised by `exec` for an arm without a meaning. Safe. -/
  | notModelled (mnemonic : String)
  deriving DecidableEq, Repr

/-- The package right after reset (20 R448): HBM zero, nothing cached, no context, gang or record. -/
def State.reset : State where
  clock := 0
  time := 0
  turns := []
  input := {}
  cur := .none
  word := 0
  stalled := false
  blocked := false
  draws := 0
  nextId := 0
  mem := []
  poison := []
  badCheck := []
  flaws := []
  transit := []
  media := []
  mediaPoison := []
  persists := []
  lineMeta := []
  l1 := []
  l2 := []
  written := []
  backs := []
  icache := []
  dir := []
  agents := []
  msgs := []
  tlbs := []
  pageReqs := []
  sideLog := []
  invals := []
  groups := []
  teams := []
  gangs := []
  ctxs := []
  engines := []
  copyOps := []
  chases := []
  listOps := []
  rowOps := []
  kvups := []
  laneFails := []
  mcasts := []
  mcastVersion := 0
  krcps := []
  egress := []
  parts := []
  remotes := []
  planWritten := []
  planApplied := []
  planEpoch := 0
  planResult := 0
  planBusy := false
  links := []
  retries := []
  unreachable := []
  memReqs := []
  misses := []
  lags := []
  rowActs := []
  corrected := []
  errRing := {}
  memStacks := []
  snap := {}
  queues := []
  resumeList := []
  slice := 4096
  waiting := []
  reserving := []
  fetched := []
  admitting := none
  boot := .selfTest
  cfg := none
  rollback := 0
  leaf := 0
  power := {}
  ports := [0, 1]
  killing := none
  replies := []
  events := []

end Sys2Proof.Machine
end

