-- ==== Sys2Proof/Machine/Ops.lean ====
section
/-!
DEFINITION. The named operations over groups and their registers, waiting, taking a trap and returning from one
(02 R29-R47, 13 R356-R359).
-/
namespace Sys2Proof.Machine

/-! ### Keys and lookups -/

/-- Word indices are taken modulo 2^29 (02 R42). -/
def wordMod (i : Nat) : WordIndex := i % 2 ^ 29

/-- The key of group `idx` of a team. -/
def gidOf (team idx : Nat) : Nat := team * 128 + idx
/-- The key of team `idx` of a gang. -/
def teamOf (gang idx : Nat) : Nat := gang * 256 + idx

/-- Change a group that exists. -/
def State.updGroup (s : State) (gid : Nat) (f : Group → Group) : State := { s with groups := aupd s.groups gid f }
/-- Store a group. -/
def State.putGroup (s : State) (gid : Nat) (g : Group) : State := { s with groups := aset s.groups gid g }
/-- Change a team that exists. -/
def State.updTeam (s : State) (t : Nat) (f : Team → Team) : State := { s with teams := aupd s.teams t f }
/-- Change a gang that exists. -/
def State.updGang (s : State) (k : Nat) (f : Gang → Gang) : State := { s with gangs := aupd s.gangs k f }
/-- Change a context that exists. -/
def State.updCtx (s : State) (c : Nat) (f : Ctx → Ctx) : State := { s with ctxs := aupd s.ctxs c f }

/-- A team by its key; a group's team always exists in a state a run reaches. -/
def State.team (s : State) (t : Nat) : Team := agetD s.teams t { gang := 0, idx := 0, core := 0 }
/-- A gang by its key. -/
def State.gang (s : State) (k : Nat) : Gang := agetD s.gangs k { ctx := 0, recAddr := 0, rec_ := {} }
/-- A context by its identifier. -/
def State.ctx (s : State) (c : Nat) : Ctx := agetD s.ctxs c {}
/-- The gang of a group. -/
def State.gangOf (s : State) (g : Group) : Gang := s.gang (s.team g.team).gang
/-- The record of a group's gang. -/
def State.recOf (s : State) (g : Group) : Record := (s.gangOf g).rec_
/-- W (02 R36). -/
def State.window (s : State) (g : Group) : Nat := 8 * (s.recOf g).window
/-- S (02 R36). -/
def State.stackSize (s : State) (g : Group) : Nat := 8 * (s.recOf g).stack
/-- The context identifier of a group. -/
def State.ctxOf (s : State) (g : Group) : Nat := (s.gangOf g).ctx
/-- The core of a group: die * 64 + core. -/
def State.coreOf (s : State) (g : Group) : Nat := (s.team g.team).core
/-- The quarter a group runs in (08 R253). -/
def State.quarterOf (s : State) (g : Group) : Nat :=
  let t := s.team g.team
  t.quarters.getD (g.idx % max t.quarters.length 1) 0
/-- The matrix unit of a group's quarter, by the quarter that it was at admission: a handle keeps naming it after a resumption
in other quarters (02 Table 2.3, 13 R362; log 36). -/
def State.unitOf (s : State) (g : Group) : Nat :=
  let us := (s.team g.team).units
  ((us[g.idx % max us.length 1]?).map Prod.fst).getD 0
/-- The scratch allocation of a group's team in bytes. -/
def State.scratchSize (s : State) (g : Group) : Nat := 4096 * (s.recOf g).scratch

/-- The next of the model's own numbers, and the state after taking it. -/
def State.fresh (s : State) : Nat × State := (s.nextId, { s with nextId := s.nextId + 1 })

/-! ### Lanes of a group (02 R42) -/

/-- The parked lanes. -/
def Group.parked (g : Group) : Word32 := maskOf fun l => g.parks.any fun p => p.lane == l
/-- The lanes that are live and not parked. -/
def Group.runnable (g : Group) : Word32 := g.live &&& ~~~ g.parked
/-- The word index of a lane. -/
def Group.pcOf (g : Group) (l : Nat) : WordIndex := g.lpc.getD l 0
/-- The issue address, if some lane is live and not parked. -/
def Group.issue? (g : Group) : Option WordIndex := minOf ((lanesOf g.runnable).map g.pcOf)
/-- The issue address of a group that issues. -/
def Group.issue (g : Group) : WordIndex := g.issue?.getD 0
/-- The lanes at the issue address. -/
def Group.atIssue (g : Group) : Word32 := maskOf fun l => g.runnable.getLsbD l && g.pcOf l == g.issue
/-- The lanes that execute. -/
def Group.active (g : Group) : Word32 := g.atIssue &&& g.em
/-- Change which lanes are parked: a word that was waiting is the word at the issue address no more where that address moves. -/
def Group.withParks (g : Group) (ps : List Park) : Group :=
  { g with parks := ps, begun := g.begun && ({ g with parks := ps } : Group).issue == g.issue }
/-- Set the word index of some lanes. -/
def Group.setPc (g : Group) (m : Word32) (pc : WordIndex) : Group :=
  { g with lpc := laneIds.map fun l => if m.getLsbD l then pc else g.pcOf l }
/-- Lanes at the issue address advance by one; what the word read from other packages is forgotten. -/
def Group.advance (g : Group) : Group := { g.setPc g.atIssue (wordMod (g.issue + 1)) with fills := [] }

/-- The lanes at the issue address that do not execute advance by one (02 R42). -/
def Group.skipOthers (g : Group) : Group := g.setPc (g.atIssue &&& ~~~ g.em) (wordMod (g.issue + 1))

/-! ### Registers -/

/-- One lane of the register at a stack position. -/
def Group.posLane (g : Group) (p l : Nat) : Word32 := (agetD g.vregs p []).at l
/-- One lane of `v`n (02 R37). -/
def Group.v (g : Group) (n l : Nat) : Word32 := g.posLane (g.wbase + n) l
/-- One lane of the pair `v`n:`v`n+1 (02 R41). -/
def Group.v64 (g : Group) (n l : Nat) : Word64 := pair64 (g.v n l) (g.v (n + 1) l)
/-- `s`n. -/
def Group.s (g : Group) (n : Nat) : Word64 := agetD g.sregs n 0
/-- A mask operand: `m0`-`m7`, or `em` by the number 8 (04 Table 4.3). -/
def Group.m (g : Group) (n : Nat) : Word32 := if n = 8 then g.em else agetD g.masks n 0
/-- `h`n. -/
def Group.h (g : Group) (n : Nat) : Word64 := agetD g.handles n 0
/-- A lane of latch `b`k. -/
def Group.latch (g : Group) (k l : Nat) : Word64 := (g.latches.getD k []).getD l 0

/-- Save a register into the open chain's undo log when a member first writes it (02 R34). -/
def Chain.noteVec (c : Chain) (p : Nat) (old : Lanes) (ms : List Mark) : Chain :=
  if !c.isOpen || (aget c.oldVec p).isSome then c
  else { c with oldVec := aset c.oldVec p old, oldMarks := c.oldMarks ++ ms.filter fun k => !k.scalar && k.reg == p }
/-- The same for a scalar. -/
def Chain.noteSca (c : Chain) (n : Nat) (old : Word64) (ms : List Mark) : Chain :=
  if !c.isOpen || (aget c.oldSca n).isSome then c
  else { c with oldSca := aset c.oldSca n old, oldMarks := c.oldMarks ++ ms.filter fun k => k.scalar && k.reg == n }
/-- The same for a mask register. -/
def Chain.noteMask (c : Chain) (n : Nat) (old : Word32) : Chain :=
  if !c.isOpen || (aget c.oldMask n).isSome then c else { c with oldMask := aset c.oldMask n old }

/-- Write lanes of the register at a stack position; the marks of the lanes written are cleared (06 R156). -/
def Group.putPos (g : Group) (p : Nat) (m : Word32) (f : Nat → Word32) : Group :=
  let old := agetD g.vregs p []
  { g with
    vregs := aset g.vregs p (Lanes.make fun l => if m.getLsbD l then f l else old.at l)
    marks := g.marks.filter fun k => k.scalar || k.reg != p || !m.getLsbD k.lane }
/-- The same by a word, which an open chain can undo; an operation that completes later uses `putPos`. -/
def Group.setPos (g : Group) (p : Nat) (m : Word32) (f : Nat → Word32) : Group :=
  { g with chain := g.chain.noteVec p (agetD g.vregs p []) g.marks }.putPos p m f
/-- Write lanes of `v`n. -/
def Group.setV (g : Group) (n : Nat) (m : Word32) (f : Nat → Word32) : Group := g.setPos (g.wbase + n) m f
/-- Write lanes of the pair `v`n:`v`n+1. -/
def Group.setV64 (g : Group) (n : Nat) (m : Word32) (f : Nat → Word64) : Group :=
  (g.setV n m fun l => lo32 (f l)).setV (n + 1) m fun l => hi32 (f l)
/-- Write `s`n; its mark is cleared. -/
def Group.putS (g : Group) (n : Nat) (v : Word64) : Group :=
  { g with sregs := aset g.sregs n v, marks := g.marks.filter fun k => !k.scalar || k.reg != n }
/-- The same by a word, which an open chain can undo. -/
def Group.setS (g : Group) (n : Nat) (v : Word64) : Group :=
  { g with chain := g.chain.noteSca n (g.s n) g.marks }.putS n v
/-- The same by something that acts later: undoing a chain keeps it. -/
def Group.putSLate (g : Group) (n : Nat) (v : Word64) : Group :=
  { g.putS n v with chain := { g.chain with oldSca := aupd g.chain.oldSca n fun _ => v } }
/-- Write a mask operand. -/
def Group.setM (g : Group) (n : Nat) (v : Word32) : Group :=
  if n = 8 then { g with em := v }
  else { g with chain := g.chain.noteMask n (g.m n), masks := aset g.masks n v }
/-- Write `h`n. -/
def Group.setH (g : Group) (n : Nat) (v : Word64) : Group := { g with handles := aset g.handles n v }
/-- Merge flags into `fpflags` (03 R64). -/
def Group.raise (g : Group) (fl : Flags) : Group := { g with fpflags := g.fpflags ||| fl.zeroExtend 64 }
/-- Merge flags of an operation that completes later: undoing a chain keeps them. -/
def Group.raiseLate (g : Group) (fl : Flags) : Group :=
  { g.raise fl with chain := { g.chain with oldFlags := g.chain.oldFlags ||| fl.zeroExtend 64 } }
/-- Record a NaN's payload in `lastnan` (03 R68). -/
def Group.noteNan (g : Group) (p : Option (BitVec 22)) : Group :=
  match p with
  | some p => { g with lastnan := BitVec.ofNat 64 (0x80000000 + p.toNat) }
  | none => g
/-- The payload of `origin` (02 Table 2.4, 03 R65). -/
def Group.payload (g : Group) : BitVec 22 := g.origin.extractLsb' 0 22

/-- All-zero latches. -/
def noLatches : List (List Word64) := []
/-- End the chain: its latches live no longer (02 R28, R29; log 11). -/
def Group.endChain (g : Group) : Group := { g with chain := {}, latches := noLatches }

/-- The open chain goes on with a member that executes in `g.active` (02 R29). -/
def Group.continues (g : Group) : Bool := g.chain.isOpen && g.chain.lanes == g.active && g.chain.members < 32
/-- The chain a member executes in: the open one, or a new one with this member as its head. -/
def Group.chainFor (g : Group) : Group :=
  if g.continues then g
  else { g with
    latches := noLatches
    chain := { isOpen := true, head := g.issue, lanes := g.active, oldRng := g.rng, oldFlags := g.fpflags } }

/-- Undo the open chain (02 R34): registers, `rng`, `fpflags`, and the executing lanes back at the head. -/
def Group.rollback (g : Group) : Group :=
  let c := g.chain
  if !c.isOpen then g
  else
    let touched := fun (k : Mark) => if k.scalar then (aget c.oldSca k.reg).isSome else (aget c.oldVec k.reg).isSome
    ({ g with
      vregs := aputAll g.vregs c.oldVec
      sregs := aputAll g.sregs c.oldSca
      masks := aputAll g.masks c.oldMask
      marks := (g.marks.filter fun k => !touched k) ++ c.oldMarks
      rng := c.oldRng
      fpflags := c.oldFlags
      chain := {}
      latches := noLatches }).setPc c.lanes c.head

/-- Shift the latches (02 R30): a lane that does not execute gets zero. -/
def Group.shiftLatches (g : Group) (m : Word32) (f : Nat → Word64) : Group :=
  { g with latches := [laneIds.map fun l => if m.getLsbD l then f l else 0, g.latches.getD 0 [], g.latches.getD 1 [],
      g.latches.getD 2 []] }

/-! ### Waiting, traps and their return -/

/-- The word cannot complete yet: nothing changes, and it is tried again at the group's next turn (log 4). -/
def State.stall (s : State) : State := { s with stalled := true }
/-- The word cannot issue yet: a register that it names is pending (02 R46, 08 R257). -/
def State.block (s : State) : State := { s.stall with blocked := true }

/-- When the word that the group completes at `now` issued: it may have waited since (08 R258). -/
def Group.issuedAt (g : Group) (now : Nat) : Nat := if g.begun then g.lastIssue else now

/-- A word that is no chain member has issued and waits: the chain has ended (02 R35), and this is its issue (08 R258). -/
def Group.begin (g : Group) (now : Nat) : Group := { g.endChain with begun := true, lastIssue := g.issuedAt now }

/-- What a word that is no chain member leaves: where it has to wait, the group has begun it. -/
def State.afterPlain (s : State) (gid : Nat) : State :=
  if s.stalled && !s.blocked then s.updGroup gid fun g => g.begin s.clock else s

/-- The word is done: store the group, with the time at which it issued (08 R258). -/
def State.done (s : State) (gid : Nat) (g : Group) : State :=
  s.putGroup gid { g with lastIssue := g.issuedAt s.clock, begun := false }

/-- A write through the control port is served in the running state only (20 R440); in another it has no effect. -/
def State.whenRunning (s : State) (k : State) : State := if s.boot == .running then k else s.stall

/-- A memory stack is held (17 R421). -/
def State.anyHeld (s : State) : Bool := s.memStacks.any fun e => e.2.held

/-- Post an event (17 R423). -/
def State.post (s : State) (e : Event) : State := { s with events := s.events ++ [e] }

/-- Trap codes (13 Table 13.10). -/
def tcIllegalInstr : Nat := 0x01
def tcIllegalLatch : Nat := 0x02
def tcCallDiverged : Nat := 0x03
def tcStackOverflow : Nat := 0x04
def tcMisaligned : Nat := 0x05
def tcScratchBound : Nat := 0x06
def tcPageFault : Nat := 0x07
def tcStoreLost : Nat := 0x08
def tcPoison : Nat := 0x09
def tcChaseFault : Nat := 0x0A
def tcChaseHops : Nat := 0x0B
def tcMcasScope : Nat := 0x0C
def tcKioskScope : Nat := 0x0D
def tcKioskRecipe : Nat := 0x0E
def tcTmapFault : Nat := 0x0F
def tcBarrierFault : Nat := 0x10
def tcResShape : Nat := 0x11
def tcSpawnRefused : Nat := 0x12
def tcHandoffShape : Nat := 0x13
def tcSnapFault : Nat := 0x14
def tcStripeFail : Nat := 0x15
def tcUserTrap : Nat := 0x16

/-- The eight words of a trap record, `s56` to `s63` (13 Table 13.9). -/
def trapRecord (t : TrapInfo) (resume head : WordIndex) (ctx : Nat) (gen : Word32) : List Word64 :=
  [ BitVec.ofNat 64 (resume * 2 ^ 32 + t.status % 256 * 2 ^ 16 + t.code % 2 ^ 16),
    BitVec.ofNat 64 (t.lanes.toNat * 2 ^ 32 + head), BitVec.ofNat 64 t.s58, BitVec.ofNat 64 t.s59,
    BitVec.ofNat 64 t.s60, BitVec.ofNat 64 t.s61, 0, BitVec.ofNat 64 (ctx % 2 ^ 16 * 2 ^ 32 + gen.toNat) ]

/-- `s56` to `s63` of a group. -/
def Group.trapRegs (g : Group) : List Word64 := (List.range 8).map fun k => g.s (56 + k)

/-- Write `s56` to `s63`; their marks are cleared as by any write. -/
def Group.setTrapRegs (g : Group) (ws : List Word64) : Group :=
  (List.range 8).foldl (fun g k => g.setS (56 + k) (ws.getD k 0)) g

/-- Trap entry of a group in user mode at the trapping word `word` (13 R356); an open chain is undone first (02 R34). `resumeNext` is `USER_TRAP`'s: the resume word is the next one. -/
def Group.enter (g : Group) (t : TrapInfo) (word : WordIndex) (resumeNext : Bool) (ctx : Nat) (gen : Word32)
    (vector : WordIndex) : Group :=
  let resume := if resumeNext then wordMod (word + 1) else word
  let head := if g.chain.isOpen then g.chain.head else word
  let g1 := if g.chain.isOpen then g.rollback else (g.setPc (maskOf fun l => g.runnable.getLsbD l && g.pcOf l == word) resume).endChain
  let saved : SaveSet :=
    { lpc := laneIds.map g1.pcOf, parks := g1.parks, em := g1.em, sregs := g1.trapRegs, resume := resume }
  let g2 := { g1 with save := some saved, supervisor := true, em := 0xFFFFFFFF, parks := [], hold := .none, fills := [] }
  (g2.setTrapRegs (trapRecord t resume head ctx gen)).setPc g2.live vector

/-- Take a trap (13 R356). In supervisor mode the trap is nested: the gang stops and the event names the new code and the record that
stands, `s56` to `s58` as they are. An open chain is not undone first: 02 R34 speaks of taking a trap, 13 R359 of a stop, and the spec does
not say whether the words shown are those from before the chain (DESIGN CHOICE: log 63). -/
def State.trapWith (s : State) (gid : Nat) (g : Group) (t : TrapInfo) (word : WordIndex) (resumeNext : Bool) : State :=
  let ctx := s.ctxOf g
  if g.supervisor then
    let s1 := (s.putGroup gid { g with hold := .stopped, lastIssue := s.clock }).updGang (s.team g.team).gang
      fun k => { k with stopped := true }
    s1.post { kind := .trapNested, args := [gid, t.code, (g.s 56).toNat, (g.s 57).toNat, (g.s 58).toNat] }
  else
    s.done gid (g.enter t word resumeNext ctx (s.ctx ctx).gen (wordMod (s.ctx ctx).vector.toNat))

/-- Take a trap at the trapping word. -/
def State.trap (s : State) (gid : Nat) (g : Group) (t : TrapInfo) : State := s.trapWith gid g t g.issue false

/-- Return from a trap (13 R358): lanes saved at the resume word go to the word index now in `s56`. Lanes saved as
parked park again. -/
def Group.leave (g : Group) : Group :=
  match g.save with
  | none => g
  | some sv =>
    let target := wordMod ((g.s 56).toNat / 2 ^ 32)
    let g1 := { g with
      lpc := laneIds.map fun l =>
        if g.live.getLsbD l then (if sv.lpc.getD l 0 == sv.resume then target else sv.lpc.getD l 0) else g.pcOf l
      em := sv.em
      supervisor := false
      save := none
      parks := sv.parks.filter fun p => g.live.getLsbD p.lane
      chain := {}
      latches := noLatches }
    g1.setTrapRegs sv.sregs

/-- Run a meaning on the group whose word is executed. -/
def onGroup (s : State) (f : Nat → Group → State) : Host.Outcome State Fault Refusal :=
  match s.cur with
  | .group gid => match aget s.groups gid with
    | some g => .next (f gid g)
    | none => .fault .noAgent
  | _ => .fault .noAgent

/-- Run a meaning that is no chain member: it ends the chain first (02 R29; log 10). -/
def onGroupPlain (s : State) (f : Nat → Group → State) : Host.Outcome State Fault Refusal :=
  onGroup s fun gid g => (f gid g.endChain).afterPlain gid

end Sys2Proof.Machine
end

