-- ==== Sys2Proof/Machine/Operands.lean ====
section
/-!
DEFINITION. The operand forms of the classes, the checks that precede a word's effect (pending registers, marks,
latches), and the shared executors of vector members, of words that execute once per issue, and of words that are no
chain members (02 R29-R33, R46; 05 R103, R108; 06 R154, R156).
-/
namespace Sys2Proof.Machine

/-- A register named by a word, by its number. -/
inductive RegRef where
  | v (n : Nat)
  | s (n : Nat)
  deriving DecidableEq, Repr

/-- Some register of the list is pending (02 R46). -/
def Group.anyPending (g : Group) (rs : List RegRef) : Bool :=
  rs.any fun r => g.pend.any fun p => match r with
    | .v n => !p.scalar && p.reg == g.wbase + n
    | .s n => p.scalar && p.reg == n

/-- A mark that a read of register `r` in the lanes of `m` meets; a scalar that no lane reads meets none (05 R103, R139). -/
def Group.markHit (g : Group) (k : Mark) (r : RegRef) (m : Word32) : Bool :=
  match r with
  | .v n => !k.scalar && k.reg == g.wbase + n && m.getLsbD k.lane
  | .s n => k.scalar && k.reg == n && m != 0

/-- The trap that a mark raises (06 Table 6.5, 13 R352). -/
def MarkKind.code : MarkKind → Nat
  | .poison => tcPoison
  | .chase status _ _ => if status == 4 then tcChaseHops else tcChaseFault
  | .discarded _ => tcPageFault
  | .list st _ => if st == 1 then tcPageFault else if st == 2 then tcMisaligned else tcKioskScope

/-- The record of the marks `ms`, all of one trap code, headed by `k` (13 Table 13.10). -/
def markTrap (k : Mark) (ms : List Mark) : TrapInfo :=
  let lanes := maskOf fun l => ms.any fun x => !x.scalar && x.lane == l
  match k.kind with
  | .poison => { code := tcPoison, status := if k.handle == 0 then 0 else 5, lanes := lanes, s58 := k.addr, s59 := k.aux, s60 := k.peer, s61 := k.handle }
  | .chase st kk hops =>
    { code := k.kind.code, status := st, lanes := lanes, s58 := k.addr, s59 := k.aux, s60 := kk + hops * 256 + k.reply * 65536, s61 := k.handle }
  | .discarded f => { code := tcPageFault, status := f, lanes := lanes, s58 := k.addr, s59 := 2, s60 := k.aux }
  | .list st f =>
    { code := k.kind.code, status := st, lanes := lanes, s58 := k.addr, s59 := if st == 1 then 5 else 0
      s60 := if st == 1 then f else 0, s61 := k.handle }

/-- The deferred trap of the marks that a word's reads meet: `POISON`, then `CHASE_FAULT`, then `CHASE_HOPS`, then the
others by the priority of their code (13 R357). -/
def Group.deferred? (g : Group) (reads : List (RegRef × Word32)) : Option TrapInfo :=
  let hits := g.marks.filter fun k => reads.any fun (r, m) => g.markHit k r m
  let pick := fun (c : Nat) => hits.filter fun k => k.kind.code == c
  let first := fun (c : Nat) => match pick c with
    | [] => none
    | k :: ks => some (markTrap (ks.foldl (fun (a x : Mark) => if x.lane < a.lane then x else a) k) (k :: ks))
  (first tcPoison).orElse fun _ => (first tcChaseFault).orElse fun _ => (first tcChaseHops).orElse fun _ =>
    (first tcMisaligned).orElse fun _ => (first tcPageFault).orElse fun _ => first tcKioskScope

/-- The registers of a list, without their lanes. -/
def refsOf (reads : List (RegRef × Word32)) : List RegRef := reads.map Prod.fst

/-- The priority of a trap that a word raises, by its code and status (13 Table 13.10). -/
def trapPrio (code status : Nat) : Nat :=
  if code == tcIllegalInstr then 2 else if code == tcIllegalLatch then 3
  else if code == tcStoreLost || code == tcPoison || code == tcChaseFault || code == tcChaseHops then 4
  else if code == tcCallDiverged || (code == tcBarrierFault && status == 1) then 5
  else if code == tcMisaligned then 6
  else if code == tcStackOverflow || code == tcScratchBound then 7
  else if code == tcPageFault then 8
  else if code == tcStripeFail || code == tcUserTrap then 10 else 9

/-- The trap that a word has raised in the state after it: code and status. The event of a nested trap says no status. -/
def State.raised (t : State) (gid : Nat) (g : Group) : Option (Nat × Nat) :=
  match aget t.groups gid with
  | none => none
  | some h =>
    if g.supervisor then
      if h.hold == .stopped then (t.events.getLast?.bind fun e => e.args[1]?).map fun c => (c, 0) else none
    else if h.supervisor then some ((h.s 56).toNat % 2 ^ 16, (h.s 56).toNat / 2 ^ 16 % 256) else none

/-- A deferred trap, where the word would otherwise go on to `k`: one of priority 4 comes before the word's own checks, another one after
those whose number is lower (13 R357). -/
def State.deferOr (s : State) (gid : Nat) (g : Group) (t : TrapInfo) (k : State) : State :=
  let p := trapPrio t.code t.status
  if p ≤ 4 then s.trap gid g t
  else match k.raised gid g with
    | some (c, st) => if trapPrio c st < p || (trapPrio c st == p && c < t.code) then k else s.trap gid g t
    | none => s.trap gid g t

/-- What precedes every word's effect: it waits for pending registers and takes deferred traps. -/
def State.ready (s : State) (gid : Nat) (g : Group) (reads : List (RegRef × Word32)) (writes : List RegRef)
    (k : State) : State :=
  if g.anyPending (refsOf reads ++ writes) then s.block
  else match g.deferred? reads with
    | some t => s.deferOr gid g t k
    | none => k

/-- The same for a chain member (05 R103): the latch check of R33 comes first, and a trap sees the chain only if the
member belongs to it. -/
def State.member (s : State) (gid : Nat) (g0 : Group) (latches : List Nat) (reads : List (RegRef × Word32))
    (writes : List RegRef) (k : Group → State) : State :=
  let g := g0.chainFor
  let gt := if g0.continues then g else g0.endChain
  match latches.find? fun b => g.chain.vecs < b + 1 with
  | some b => s.trap gid gt { code := tcIllegalLatch, s59 := s.word.toNat, s60 := b }
  | none =>
    if g.anyPending (refsOf reads ++ writes) then s.block
    else match gt.deferred? reads with
      | some t => s.trap gid gt t
      | none => k g

/-- A member has issued: count it, advance, store. -/
def State.memberDone (s : State) (gid : Nat) (g : Group) (count vecs : Nat) : State :=
  let c := g.chain
  s.done gid ({ g with chain := { c with members := c.members + count, vecs := c.vecs + vecs } }).advance

/-! ### Sources of a vector instruction -/

/-- A source operand of a vector member. -/
inductive VSrc where
  | none
  | vec (n : Nat) (wide : Bool)
  | latch (k : Nat) (wide : Bool)
  | sca (n : Nat)
  /-- a value that the word itself holds -/
  | imm (v : Word64)
  deriving DecidableEq, Repr

/-- The value of a source in a lane; a 32-bit source of a latch reads bits [31:0] (02 R31). -/
def Group.src (g : Group) (x : VSrc) (l : Nat) : Word64 :=
  match x with
  | .none => 0
  | .vec n wide => if wide then g.v64 n l else (g.v n l).zeroExtend 64
  | .latch k wide => if wide then g.latch k l else (lo32 (g.latch k l)).zeroExtend 64
  | .sca n => g.s n
  | .imm v => v

/-- The registers a source reads, in the lanes of `m`. -/
def VSrc.reads (x : VSrc) (m : Word32) : List (RegRef × Word32) :=
  match x with
  | .vec n wide => if wide then [(.v n, m), (.v (n + 1), m)] else [(.v n, m)]
  | .sca n => [(.s n, m)]
  | _ => []

/-- The latches a source names. -/
def VSrc.latches : VSrc → List Nat
  | .latch k _ => [k]
  | _ => []

/-- Operand A of class 000. -/
def srcA (a : VArgs) (wide : Bool) : VSrc := if a.la then .latch a.a.toNat wide else .vec a.a.toNat wide
/-- Operand B of class 000. -/
def srcB (a : VArgs) (wide : Bool) : VSrc := if a.lb then .latch a.b.toNat wide else .vec a.b.toNat wide
/-- Operand A of class 001. -/
def srcAI (a : IArgs) : VSrc := if a.la then .latch a.a.toNat false else .vec a.a.toNat false
/-- The immediate read as `sext(imm, 26)` (04 R80). -/
def immS (a : IArgs) : VSrc := .imm (BitVec.ofNat 64 (wrap 32 a.imm.toInt))
/-- The immediate read as `zext(imm, 26)`. -/
def immZ (a : IArgs) : VSrc := .imm (a.imm.zeroExtend 64)

/-- Where the result of a vector member goes, and what it reads beside its sources. -/
structure VDst where
  d : Nat
  wide : Bool := false
  nw : Bool := false
  readsD : Bool := false
  deriving DecidableEq, Repr

/-- The registers a destination writes. -/
def VDst.writes (d : VDst) : List RegRef :=
  if d.nw then [] else if d.wide then [.v d.d, .v (d.d + 1)] else [.v d.d]

/-- The results of a vector member in every lane, from the group as it stood before it (05 R103). -/
def Group.laneOuts (g : Group) (d : VDst) (a b : VSrc) (f : LaneIn → LaneOut) : List LaneOut :=
  laneIds.map fun l => f
    { a := g.src a l, b := g.src b l, d := if d.readsD then g.src (.vec d.d false) l else 0,
      rng := g.rng.at l, lane := l, origin := g.payload }

/-- The result of lane `l`. -/
def outAt (outs : List LaneOut) (l : Nat) : LaneOut := outs.getD l { r := 0 }

/-- Write the results: D unless `NW`, flags, stochastic states, and the first NaN recorded (05 R103, 03 R59, R64, R68). -/
def Group.writeOuts (g : Group) (d : VDst) (m : Word32) (outs : List LaneOut) : Group :=
  let g1 := if d.nw then g
    else if d.wide then g.setV64 d.d m fun l => (outAt outs l).r
    else g.setV d.d m fun l => lo32 (outAt outs l).r
  let g2 := g1.raise (Flags.union ((lanesOf m).map fun l => (outAt outs l).fl))
  let g3 := { g2 with rng := Lanes.make fun l => if m.getLsbD l then (outAt outs l).rng else g.rng.at l }
  g3.noteNan ((lanesOf m).findSome? fun l => (outAt outs l).nan)

/-- A vector member whose lanes see only their own operands and what `f` is given of the group (05 R103). `extra` names
registers read beside A, B and D. -/
def runVecG (s : State) (d : VDst) (a b : VSrc) (extra : Group → List (RegRef × Word32))
    (f : Group → LaneIn → LaneOut) : Host.Outcome State Fault Refusal :=
  onGroup s fun gid g0 =>
    let m := g0.active
    let reads := a.reads m ++ b.reads m ++ (if d.readsD then [(RegRef.v d.d, m)] else []) ++ extra g0
    s.member gid g0 (a.latches ++ b.latches) reads d.writes fun g =>
      let outs := g.laneOuts d a b (f g)
      s.memberDone gid ((g.writeOuts d m outs).shiftLatches m fun l => (outAt outs l).r) 1 1

/-- A vector member whose lanes see only their own operands. -/
def runVec (s : State) (d : VDst) (a b : VSrc) (f : LaneIn → LaneOut) : Host.Outcome State Fault Refusal :=
  runVecG s d a b (fun _ => []) fun _ => f

/-- The destination of a class 000 word. -/
def dstV (a : VArgs) (wide : Bool := false) : VDst := { d := a.d.toNat, wide := wide, nw := a.nw }
/-- The destination of a class 000 word that reads D. -/
def dstVD (a : VArgs) : VDst := { d := a.d.toNat, nw := a.nw, readsD := true }
/-- The destination of a class 001 word. -/
def dstI (a : IArgs) : VDst := { d := a.d.toNat, nw := a.nw }

/-- A binary vector instruction on 32-bit registers. -/
def vec2 (s : State) (a : VArgs) (f : LaneIn → LaneOut) : Host.Outcome State Fault Refusal :=
  runVec s (dstV a) (srcA a false) (srcB a false) f
/-- A unary one. -/
def vec1 (s : State) (a : VArgs) (f : LaneIn → LaneOut) : Host.Outcome State Fault Refusal :=
  runVec s (dstV a) (srcA a false) .none f
/-- One that reads D as operand C (05 R104). -/
def vec3 (s : State) (a : VArgs) (f : LaneIn → LaneOut) : Host.Outcome State Fault Refusal :=
  runVec s (dstVD a) (srcA a false) (srcB a false) f
/-- A binary one on register pairs. -/
def vec2w (s : State) (a : VArgs) (f : LaneIn → LaneOut) : Host.Outcome State Fault Refusal :=
  runVec s (dstV a true) (srcA a true) (srcB a true) f
/-- A class 001 one with the immediate as B. -/
def vecImm (s : State) (a : IArgs) (imm : VSrc) (f : LaneIn → LaneOut) : Host.Outcome State Fault Refusal :=
  runVec s (dstI a) (srcAI a) imm f

/-! ### Words that execute once per issue -/

/-- A chain member that is no vector member: it names no latch and shifts none (02 R30). -/
def runOnce (s : State) (reads : Group → List (RegRef × Word32)) (writes : List RegRef) (f : Group → Group) :
    Host.Outcome State Fault Refusal :=
  onGroup s fun gid g0 =>
    s.member gid g0 [] (reads g0) writes fun g => s.memberDone gid (f g) 1 0

/-- A word that is no chain member and changes only its group: it ends the chain, waits for its registers, acts and
advances. -/
def runPlain (s : State) (reads : Group → List (RegRef × Word32)) (writes : List RegRef) (f : Group → Group) :
    Host.Outcome State Fault Refusal :=
  onGroupPlain s fun gid g => s.ready gid g (reads g) writes (s.done gid (f g).advance)

/-- A mask instruction: a chain member unless it writes `em` (05 R139). -/
def runMask (s : State) (d : Nat) (reads : Group → List (RegRef × Word32)) (f : Group → Word32) :
    Host.Outcome State Fault Refusal :=
  if d = 8 then runPlain s reads [] fun g => g.setM 8 (f g)
  else runOnce s reads [] fun g => g.setM d (f g)

/-- All lanes, as the lane set of a scalar read. -/
def allLanes : Word32 := 0xFFFFFFFF

/-- Reads of scalar registers. -/
def readsS (ns : List Nat) : List (RegRef × Word32) := ns.map fun n => (.s n, allLanes)

/-- `ILLEGAL_INSTR` raised by a word's own checks, with its cause (04 R95). -/
def State.illegal (s : State) (gid : Nat) (g : Group) (c : Cause) : State :=
  s.trap gid g { code := tcIllegalInstr, status := c.code, s59 := s.word.toNat }

end Sys2Proof.Machine
end

