-- ==== Sys2Proof/Machine/Places.lean ====
section
/-!
DEFINITION. Physical addresses and homes, error records, requests to the channels and what their codes find, and packets to
other packages (01 R15, 12 R309, R313, R330, 17 R417, R418, R422, R424).
-/
namespace Sys2Proof.Machine

/-! ### Physical addresses (01 R15, 12 R309) -/

/-- The owning package of a physical address. -/
def pkgOf (pa : PAddr) : Nat := pa / 2 ^ 50 % 64
/-- The local part of a physical address. -/
def locOf (pa : PAddr) : Nat := pa % 2 ^ 50
/-- A physical address of its parts. -/
def paOf (pkg loc : Nat) : PAddr := pkg * 2 ^ 50 + loc

/-- What lies at a local address (01 Table 1.4). -/
inductive Place where
  | hbm | scm | ctl | host | hole
  deriving DecidableEq, Repr

/-- 01 Table 1.4. -/
def placeOf (a : Nat) : Place :=
  if a < 0x7C00000000 then .hbm
  else if 0x40000000000 ≤ a && a < 0x60000000000 then .scm
  else if 0x80000000000 ≤ a && a < 0x80040000000 then .ctl
  else if 2 ^ 49 ≤ a && a < 2 ^ 50 then .host else .hole

/-- The firmware area of stack 3 (20 R443). -/
def inFirmware (a : Nat) : Bool := 0x5FFFC000000 ≤ a && a < 0x60000000000

/-- The stack of a local address: 0 to 7 HBM, 8 to 11 SCM (12 R309). -/
def stackOf (a : Nat) : Nat :=
  match placeOf a with
  | .scm => 8 + (a - 0x40000000000) / 2 ^ 39
  | _ => field a 12 3 ^^^ field a 15 3 ^^^ field a 18 3
/-- The Kiosk of a local address: HBM stacks 0-7, then SCM stacks (12 R315). -/
def kioskOf (a : Nat) : Nat := stackOf a
/-- The home die of a local address. -/
def homeDie (a : Nat) : Nat := if stackOf a < 8 then stackOf a / 2 else stackOf a - 8
/-- The home slice of a local address within its die. -/
def homeSlice (a : Nat) : Nat := field a 7 5 ^^^ field a 12 5
/-- The stack-local HBM line λ (17 R418). -/
def stackLine (a : Nat) : Nat := (a / 2 ^ 15 * 4096 + a % 4096) / 128

/-- The package's own index (20 R442); 0 until a configuration is applied (log 24). -/
def State.own (s : State) : Nat := (s.cfg.map CfgRec.pkg).getD 0
/-- An index that is a member of the square. -/
def State.isMember (s : State) (j : Nat) : Bool := ((s.cfg.map CfgRec.members).getD 0).getLsbD j
/-- An index that a storage endpoint holds (01 R24). -/
def State.isEndpoint (s : State) (j : Nat) : Bool := ((s.cfg.map CfgRec.endpoints).getD 0).getLsbD j
/-- The condition of a stack. -/
def State.stack (s : State) (k : Nat) : Stack := agetD s.memStacks k {}

/-- A line withdrawn by a channel retirement (17 R424). -/
def State.withdrawn (s : State) (a : Nat) : Bool :=
  placeOf a == .hbm && (s.stack (stackOf a)).mode != 0 && 30 * 2 ^ 24 ≤ stackLine a

/-- Whether the snapshot configuration is enabled (16 Table 16.2). -/
def Snap.enabled (n : Snap) : Bool := n.control.getLsbD 16
/-- The valid regions: base and length in ascending index (16 Table 16.1). -/
def Snap.validRegions (n : Snap) : List (Nat × Nat) :=
  (List.range 64).filterMap fun g => match aget n.regions g with
    | some (b, l) => if b.getLsbD 0 then some (b.toNat / 256 * 256 % 2 ^ 56, l.toNat % 2 ^ 40) else none
    | none => none
/-- A byte of a valid region of an enabled configuration (16 R393). -/
def State.inRegion (s : State) (a : Nat) : Bool :=
  s.snap.enabled && s.snap.validRegions.any fun r => locOf r.1 ≤ a && a < locOf r.1 + r.2

/-- HBM or SCM holds every byte from a local address. -/
def memorySpan (a n : Nat) : Bool := (List.range n).all fun k => placeOf (a + k) == .hbm || placeOf (a + k) == .scm

/-! ### Error records (17 R422, R423) -/

/-- The `RDTIME` value of this step. -/
def State.now (s : State) : Word64 := s.time

/-- The 64 bytes of an error record (17 Table 17.4). -/
def recordBytes (r : ErrRec) (time : Word64) : List Byte :=
  leBytes 64 (r.severity * 2 ^ 128 + r.unit * 2 ^ 160 + r.unitType * 2 ^ 172 + r.ctx % 2 ^ 16 * 2 ^ 176
    + r.gen % 2 ^ 32 * 2 ^ 192 + r.count % 2 ^ 32 * 2 ^ 224 + (r.addr % 2 ^ 57 + r.virt.toNat * 2 ^ 63) * 2 ^ 256
    + r.aux % 2 ^ 64 * 2 ^ 320 + (r.kind % 16 * 16 + r.detail % 16) * 2 ^ 384 + time.toNat * 2 ^ 448)

/-- Write an error record and post its event, or count it (17 R422). A ring whose slot does not lie in HBM counts as off: no access
reaches a hole (01 R16, log 61). -/
def State.record (s : State) (r : ErrRec) : State :=
  let e := s.errRing
  if e.n < 6 || 16 < e.n || placeOf (locOf e.base + 64 * (e.tail % 2 ^ e.n)) != .hbm then
    { s with errRing := { e with overflow := e.overflow + 1 } }
  else if 2 ^ e.n - 1 ≤ e.tail - e.head then
    let s1 := { s with errRing := { e with overflow := e.overflow + 1, told := true } }
    if e.told then s1 else s1.post { kind := .errorOverflow }
  else
    let a := locOf e.base + 64 * (e.tail % 2 ^ e.n)
    { s with
      mem := writeBytes s.mem a (recordBytes r s.now)
      poison := s.poison.filter fun b => b != a / 32 && b != a / 32 + 1
      badCheck := s.badCheck.filter fun b => b.1 != a / 32 && b.1 != a / 32 + 1
      errRing := { e with tail := e.tail + 1 } }.post { kind := .errorRecord, args := [e.tail] }

/-- Clocks of a millisecond (00 R3). -/
def msClocks : Nat := 1200000

/-- A record of corrected errors of one unit: the count of those not yet recorded goes with it, when a millisecond has
passed since the unit's last record; otherwise the error is counted for the next (17 R422). -/
def State.recordCorrected (s : State) (r : ErrRec) : State :=
  let key := r.unitType * 4096 + r.unit
  let now := s.now.toNat
  let write := fun (pending : Nat) =>
    { s with corrected := aset s.corrected key (0, now) }.record { r with count := pending + r.count, severity := 0 }
  match aget s.corrected key with
  | none => write 0
  | some (pending, last) =>
    if last + msClocks ≤ now then write pending else { s with corrected := aset s.corrected key (pending + r.count, last) }
/-- The beats of some addresses. -/
def beatsOf (as : List Nat) : List Nat := uniq (as.map (· / 32))
/-- The lines of some addresses. -/
def linesOf (as : List Nat) : List Nat := uniq (as.map (· / 128))
/-- The addresses of `n` bytes from `a`. -/
def span (a n : Nat) : List Nat := (List.range n).map (a + ·)

/-- The finder that a core is, for a context. -/
def byCore (core ctx : Nat) : Finder := { unitType := 0, unit := core, ctx := ctx }
/-- The finder of a walk by a core. -/
def byWalk (core ctx : Nat) : Finder := { byCore core ctx with detail := 6 }
/-- The finder that a Kiosk is. -/
def byKiosk (kiosk ctx : Nat) : Finder := { detail := 3, unitType := 4, unit := kiosk, ctx := ctx }
/-- The finder that a copy engine is. -/
def byCopy (core ctx : Nat) : Finder := { detail := 4, unitType := 7, unit := core, ctx := ctx }
/-- The context of a group, 0 where it is gone. -/
def State.ctxOfId (s : State) (gid : Nat) : Nat := ((aget s.groups gid).map s.ctxOf).getD 0

/-- Change a stack. -/
def State.updStack (s : State) (k : Nat) (f : Stack → Stack) : State := { s with memStacks := aset s.memStacks k (f (s.stack k)) }

/-- A saturating 32-bit count. -/
def sat32 (n : Nat) : Nat := min n 0xFFFFFFFF

/-- The home slice of a local address as a record's unit (17 Table 17.4). -/
def sliceUnit (a : Nat) : Nat := 32 * homeDie a + homeSlice a

/-! ### Requests to the channels (12 R309, R313, R314; 17 R418, R424) -/

/-- The stripe of a stack-local line, and its channel: 31+1, or 30+1 without the retired channel (17 R418, R424). -/
def Stack.place (k : Stack) (line : Nat) : Nat × Nat :=
  if k.mode == 2 || (k.mode == 1 && k.watermark ≤ line / 30) then
    let j := line / 30
    let e := (j + 1 + line % 30) % 31
    (j, if e < k.retired then e else e + 1)
  else
    let j := line / 31
    (j, (j % 32 + 1 + line % 31) % 32)

/-- The channel scheduler of a local address: 32 × stack + channel for HBM, then the SCM stacks (log 32). -/
def State.channelOf (s : State) (a : Nat) : Nat :=
  let k := stackOf a
  if k < 8 then 32 * k + ((s.stack k).place (stackLine a)).2 else 248 + k

/-! ### What the codes of the memory find (17 R414, R415, R417, R418) -/

/-- The unit of a record about the memory of a local address: type and number (17 Table 17.4). -/
def State.memUnit (s : State) (a : Nat) : Nat × Nat := if stackOf a < 8 then (2, s.channelOf a) else (3, stackOf a - 8)

/-- The channel-local line of a local address (17 R418); an SCM stack has no channels, and its line is the one of the stack. -/
def State.channelLine (s : State) (a : Nat) : Nat :=
  if stackOf a < 8 then ((s.stack (stackOf a)).place (stackLine a)).1 else a % 2 ^ 39 / 128

/-- The poison code goes into the stored side bits of a beat: into those of an SCM stack where it holds what the home serves, so that a
reset finds it there (17 R414, R415). -/
def State.poisonBeat (s : State) (b : Nat) : State :=
  { s with
    badCheck := aerase s.badCheck b, poison := addSet s.poison b
    mediaPoison := if placeOf (32 * b) == .scm && readBytes s.media (32 * b) 32 == readBytes s.mem (32 * b) 32 then addSet s.mediaPoison b
      else s.mediaPoison }

/-- The line is rebuilt on every read: it still lies, in the old layout, in the channel that its stack retires (17 R424). -/
def State.rebuilds (s : State) (a : Nat) : Bool :=
  let k := s.stack (stackOf a)
  placeOf a == .hbm && k.mode == 1 && (k.place (stackLine a)).2 == k.retired

/-- What the codes of the memory do with an error as they read the line of a local address for a context: they correct the value
returned, and record it; or they poison the line, in SCM the beats that the error touches (17 R417, R418, R426). -/
def State.codesFind (s : State) (a : Nat) (f : Flaw) (ctx : Nat) : State :=
  let (ty, u) := s.memUnit a
  let r : ErrRec := { kind := 1, aux := s.channelLine a, addr := paOf s.own (a / 128 * 128), unitType := ty, unit := u, ctx := ctx
                      gen := (s.ctx ctx).gen.toNat }
  match f.kind with
  | .hard =>
    let bad := if stackOf a < 8 then List.range 4 else f.beats
    ((bad.foldl (fun (s : State) k => s.poisonBeat (a / 128 * 4 + k)) { s with flaws := aerase s.flaws (a / 128) }).updStack (stackOf a)
      fun k => { k with poisoned := sat32 (k.poisoned + 1) }).record { r with kind := 2, severity := 1 }
  | c => (s.updStack (stackOf a) fun k => { k with corrected := sat32 (k.corrected + 1) }).recordCorrected
      { r with aux := s.channelLine a + (if c == .parity && stackOf a < 8 then 2 ^ 32 else 0) }

/-- A read of the memory meets the error that its line holds. -/
def State.meetFlaw (s : State) (a ctx : Nat) : State :=
  match aget s.flaws (a / 128) with
  | some f => s.codesFind a f ctx
  | none => if s.rebuilds a then s.codesFind a { kind := .parity, beats := [] } ctx else s

/-- A request to a channel, with its deadline (12 R313); its codes find what its line holds, unless it is a store (`plain`). -/
def State.request (s0 : State) (requester cls a : Nat) (write lur : Bool) (ctx : Nat := 0) (plain : Bool := false) : State :=
  let s := if plain then s0 else s0.meetFlaw a ctx
  if placeOf a != .hbm && placeOf a != .scm then s0
  else
    let budget := match cls, placeOf a with
      | 0, .hbm => 600 | 1, .hbm => 1200 | 2, .hbm => 4800 | _, .hbm => 24000
      | 0, _ => 2400 | 1, _ => 4800 | 2, _ => 19200 | _, _ => 96000
    { s with memReqs := s.memReqs ++
      [{ channel := s.channelOf a, requester := requester, cls := cls, arrived := s.now.toNat
         deadline := s.now.toNat + budget, line := a / 128, write := write, lur := lur, ctx := ctx }] }

/-- The service class of a group that names none in its word (02 Table 2.4). -/
def State.svcOf (s : State) (gid : Nat) : Nat := ((aget s.groups gid).map fun g => g.svc.toNat % 4).getD 1

/-- The service class of a word's field: code 00 names the group's own (04 Table 4.5). -/
def State.classOf (s : State) (gid : Nat) (svc : Nat) : Nat := if svc == 0 then s.svcOf gid else svc

/-! ### Packets to other packages (12 R329, R330; log 15) -/

/-- Operations of a class 0 packet in this model; the spec gives them no codes. -/
def opRead : Nat := 0
def opWrite : Nat := 1
def opAtomic : Nat := 2
def opCas : Nat := 3
def opRow : Nat := 4
def opSignal : Nat := 5
/-- A chase packet (class 3), and a row update sent on by the home replica (class 4): the header keeps the source that they began at. -/
def opChase : Nat := 6
def opRowUpdate : Nat := 7

/-- Data bytes that one packet carries at most: eight flits (12 R330). -/
def flitBytes : Nat := 256
/-- What is added to the operation of a part of a packet. -/
def opPart : Nat := 64

/-- The operation is a directory message. -/
def Packet.isCoh (p : Packet) : Bool := decide (16 ≤ p.op) && decide (p.op < opPart)

/-- The packets that carry a packet's data: itself, or parts that each begin with their place and their number (log 15). -/
def Packet.parts (p : Packet) : List Packet :=
  if p.data.length ≤ flitBytes then [p]
  else
    let n := (p.data.length + flitBytes - 3) / (flitBytes - 2)
    (List.range n).map fun k => { p with
      op := opPart + p.op
      data := BitVec.ofNat 8 k :: BitVec.ofNat 8 n :: (p.data.drop ((flitBytes - 2) * k)).take (flitBytes - 2) }

/-- A tag that no open request uses. -/
def State.freeTag (s : State) : Nat := (s.remotes.map Remote.tag).foldl max 0 + 1

/-- Send a packet, with its check value (17 R412). -/
def State.send (s : State) (p : Packet) : State :=
  { s with egress := s.egress ++ p.parts.map fun q => { pkt := q.sealed, since := s.now.toNat } }

/-- Send a request and keep it open. -/
def State.ask (s : State) (p : Packet) (what : RemoteFor) (acquire : Bool := false) (also : List Nat := [])
    (page : Option Nat := none) : State :=
  let tag := s.freeTag
  ({ s with remotes := s.remotes ++
      [{ tag := tag, peer := p.dest, addr := p.addr, what := what, acquire := acquire, also := also, page := page }] } : State).send
    { p with tag := tag }

end Sys2Proof.Machine
end

