-- ==== Sys2Proof/Machine/Cache.lean ====
section
/-!
DEFINITION. Reads and writes at the home slice with checks and poison, the L1 and L2 caches, and the directory's view of a local access
(12 R308-R312, R316-R324, 16 R390-R396, 17 R412-R416).
-/
namespace Sys2Proof.Machine

/-! ### The home slice (17 R413-R416, 16 R390, R394) -/

/-- The check value of the bytes of a beat (17 R412). -/
def State.beatCheck (s : State) (b : Nat) : Nat := crc16 (readBytes s.mem (32 * b) 32)

/-- The check value in the side bits of a beat is not that of its bytes (17 R414). -/
def State.mismatch (s : State) (b : Nat) : Bool :=
  match aget s.badCheck b with
  | some c => c != s.beatCheck b
  | none => false

/-- The record of a check mismatch that a point finds at a local address (17 R414, Tables 17.4 and 17.5). -/
def State.mismatchRecord (s : State) (f : Finder) (a : Nat) : ErrRec :=
  { kind := 3, detail := f.detail, aux := f.aux, addr := paOf s.own a, unitType := f.unitType
    unit := if f.unitType == 1 then sliceUnit a else f.unit, ctx := f.ctx, gen := (s.ctx f.ctx).gen.toNat, severity := 1 }

/-- Verify the beats of a read at a point: a mismatch poisons the beat and posts a record of kind 0x03 (17 R414). -/
def State.verify (s : State) (f : Finder) (as : List Nat) : State :=
  (beatsOf as).foldl (fun s b =>
    if s.mismatch b then (s.poisonBeat b).record (s.mismatchRecord f (32 * b)) else s) s

/-- Some byte read is poisoned, or lies on a withdrawn line (17 R416, R424). -/
def State.isBad (s : State) (as : List Nat) : Bool :=
  (beatsOf as).any (fun b => b ∈ s.poison) || as.any s.withdrawn

/-- The coherent bytes from a local address; the firmware area reads as zeros (20 R443). -/
def State.readHome (s : State) (a n : Nat) : List Byte :=
  if inFirmware a then List.replicate n 0 else readBytes s.mem a n

/-- A write that reaches the home slice. -/
structure HomeWrite where
  cells : List (Nat × Byte)
  gid : Option Nat := none
  /-- the step the write carries (16 R396) -/
  tag : Word64 := 0
  /-- it enters the persist queue when performed (11 R305) -/
  through : Bool := false
  spoiled : Bool := false
  /-- beats that come poisoned in a write that is not poisoned as a whole -/
  bads : List Nat := []
  /-- the write that it is a piece of, as `Persist.piece` numbers it; 0 for one that is whole -/
  piece : Nat := 0
  /-- what its acceptance does to line metadata -/
  sets : List MetaSet := []
  /-- the virtual page, for a record of a lost store -/
  vpage : Nat := 0
  /-- a sender that waits for the acceptance -/
  ack : Option Packet := none
  deriving DecidableEq, Repr

/-- Change the poison of the beats that some cells cover (17 R416): a whole beat written is clean; part of a poisoned
beat leaves it poisoned; a poisoned write poisons its beats. -/
def poisonAfter (poison : List Nat) (as : List Nat) (spoiled : Bool) : List Nat :=
  (beatsOf as).foldl (fun p b =>
    if spoiled then addSet p b
    else if (as.filter fun a => a / 32 == b).length == 32 then delSet p b else p) poison

/-- The poisoned beats after a write. -/
def HomeWrite.poisons (w : HomeWrite) (poison : List Nat) : List Nat :=
  w.bads.foldl addSet (poisonAfter poison (w.cells.map Prod.fst) w.spoiled)

/-- Note a store that a group lost (06 R194). -/
def Group.lose (g : Group) (page count status : Nat) : Group :=
  match g.lost.find? fun l => l.page == page && l.status == status with
  | some _ => { g with lost := g.lost.map fun l =>
      if l.page == page && l.status == status then { l with count := l.count + count } else l }
  | none => { g with lost := g.lost ++ [{ page := page, count := count, status := status }] }

/-- The record of discarded stores, and the loss noted for the group (17 Table 17.5, 06 R194). -/
def State.discard (s : State) (gid : Option Nat) (addr vpage status count : Nat) : State :=
  let ctx := match gid with
    | some g => (aget s.groups g).map s.ctxOf
    | none => none
  let s1 := s.record
    { kind := 7, aux := status, addr := addr, count := count, ctx := ctx.getD 0, unit := sliceUnit (locOf addr),
      gen := (ctx.map fun c => (s.ctx c).gen.toNat).getD 0, severity := 2 }
  match gid with
  | some g => s1.updGroup g fun x => x.lose vpage count status
  | none => s1

/-- Queue the part of a write that lies in a 256-byte line for its persist queue; a group that made it waits for it at `PBAR` (06 R198). -/
def State.enqueueLine (s : State) (w : HomeWrite) (kind line : Nat) (ack : Option Packet) : State :=
  let cells := w.cells.filter fun c => c.1 / 256 == line
  let (id, s1) := s.fresh
  let s2 := { s1 with persists := s1.persists ++
    [{ id := id, stack := stackOf (256 * line) - 8, cells := cells, tag := some w.tag, kind := kind, piece := if w.piece == 0 then id else w.piece
       gid := w.gid, ack := ack, sets := w.sets
       spoiled := (beatsOf (cells.map Prod.fst)).filter fun b => b ∈ s.poison }] }
  match w.gid with
  | some g => s2.updGroup g fun x => { x with persists := addSet x.persists id }
  | none => s2

/-- The number that the next entry of a persist queue takes. -/
def State.nextPiece (s : State) : Nat := s.fresh.1

/-- Queue a write for its persist queue, an entry for each 256-byte line (16 R390, R394); its sender's answer goes with the last. -/
def State.enqueuePersist (s : State) (w0 : HomeWrite) (kind : Nat) : State :=
  let lines := uniq (w0.cells.map fun c => c.1 / 256)
  let w := if w0.piece == 0 then { w0 with piece := s.nextPiece } else w0
  (lines.foldl (fun (acc : Nat × State) l => (acc.1 - 1, acc.2.enqueueLine w kind l (if acc.1 == 1 then w.ack else none))) (lines.length, s)).2

/-- A line of this package as the L2s and agents name it: its physical address / 128. -/
def State.lineKey (s : State) (line : Nat) : Nat := paOf s.own (128 * line) / 128

/-- A write makes its granules dirty in the L2 copy that holds them; SCM that no copy keeps goes on to its persist queue (11 R305). -/
def State.l2Dirty (s : State) (w0 : HomeWrite) : State :=
  let w := if w0.piece == 0 then { w0 with piece := s.nextPiece } else w0
  (uniq (w.cells.map (·.1 / 64))).foldl (fun s gr =>
    match s.l2.find? fun e => e.1.2 == s.lineKey (gr / 2) with
    | some e => { s with l2 := aupd s.l2 e.1 fun l => { l with dirty := addSet l.dirty gr } }
    | none =>
      if placeOf (64 * gr) == .scm then s.enqueuePersist { w with cells := w.cells.filter fun c => c.1 / 64 == gr } 0 else s) s

/-- The check value that comes with the bytes which a write puts into a beat: that of the bytes, unless an error met it on its way
(17 R412, R413). -/
def State.writeCheck (s : State) (b : Nat) (bs : List Byte) : Nat := crc16 bs ^^^ agetD s.transit b 0

/-- The bytes of a write in one beat, in ascending order. -/
def HomeWrite.inBeat (w : HomeWrite) (b : Nat) : List Byte := (span (32 * b) 32).filterMap fun a => aget w.cells a

/-- The check of a write meets the beat that its bytes went into: a whole beat keeps the check that came with it, of which the complement
says poison; with a part it is verified as the beat is merged, and a mismatch poisons the beat (17 R413-R415). -/
def State.mergeCheck (w : HomeWrite) (s : State) (b : Nat) : State :=
  let bs := w.inBeat b
  let came := s.writeCheck b bs
  let s1 : State := { s with badCheck := aerase s.badCheck b, transit := aerase s.transit b }
  if (aget s.transit b).isNone || came == crc16 bs then s1
  else if bs.length < 32 then
    (s1.poisonBeat b).record (s.mismatchRecord { detail := 5, ctx := (w.gid.map s.ctxOfId).getD 0 } (32 * b))
  else if came ^^^ crc16 bs == 0xFFFF then s1.poisonBeat b
  else { s1 with badCheck := aset s1.badCheck b came }

/-- Beats of a line that were written whole hold no error any more. -/
def clearFlaw (fs : AMap Nat Flaw) (b : Nat) : AMap Nat Flaw :=
  match aget fs (b / 4) with
  | none => fs
  | some f =>
    let left := f.beats.filter (· != b % 4)
    if left.isEmpty then aerase fs (b / 4) else aset fs (b / 4) { f with beats := left }

/-- The check of a write to the host window is verified as it leaves through a control port: a beat that fails goes on poisoned, and one
whose check says poison is no mismatch (17 R413-R415). -/
def State.portCheck (w : HomeWrite) (s : State) (b : Nat) : State :=
  let bs := w.inBeat b
  let came := s.writeCheck b bs
  let s1 : State := { s with transit := aerase s.transit b }
  if came == crc16 bs then s1
  else
    let s2 : State := { s1 with poison := addSet s1.poison b }
    if came ^^^ crc16 bs == 0xFFFF then s2
    else s2.record (s.mismatchRecord { detail := 2, unitType := 6, unit := s.ports.headD 0, ctx := (w.gid.map s.ctxOfId).getD 0 } (32 * b))

/-- A write to the host window: the host holds the bytes, and its beats the poison that they were sent with (17 R415; log 62). -/
def State.hostWrite (s : State) (w : HomeWrite) : State :=
  let as := w.cells.map Prod.fst
  (beatsOf as).foldl (State.portCheck w)
    { s with
      mem := w.cells.foldl (fun m (c : Nat × Byte) => writeByte m c.1 c.2) s.mem
      poison := w.poisons s.poison }

/-- Perform a write at its home slice, or at the control port that it leaves through (11 R286, 06 R161). -/
def State.homeWrite (s : State) (w : HomeWrite) : State :=
  let as := w.cells.map Prod.fst
  match as with
  | [] => s
  | a :: _ =>
    if placeOf a == .host then s.hostWrite w
    else if as.any fun x => inFirmware x || s.withdrawn x then s.discard w.gid (paOf s.own a) w.vpage 0 1
    else
      let ctx := (w.gid.map s.ctxOfId).getD 0
      let whole := (beatsOf as).filter fun b => (as.filter fun x => x / 32 == b).length == 32
      let partial_ := (beatsOf as).filter fun b => !whole.contains b
      let s0 := partial_.foldl (fun (s : State) b => s.meetFlaw (32 * b) ctx) s
      let s1 := s0.verify { detail := 5, ctx := ctx } (partial_.map (32 * ·))
      let s2 := { s1 with
        mem := w.cells.foldl (fun m (c : Nat × Byte) => writeByte m c.1 c.2) s1.mem
        poison := w.poisons s1.poison
        flaws := whole.foldl clearFlaw s1.flaws
        written := (linesOf as).foldl addSet s1.written }
      let s3 := (beatsOf as).foldl (State.mergeCheck w) s2
      if placeOf a != .scm then s3.l2Dirty w
      else if w.through || as.any s.inRegion then s3.enqueuePersist w 0
      else
        let grans := uniq (as.map (· / 64))
        match w.gid with
        | some g => (s3.l2Dirty w).updGroup g fun x => { x with scmDirty := grans.foldl addSet x.scmDirty }
        | none => s3.l2Dirty w

/-- Perform the two halves of a 128-bit datum, which are two events of one store (11 R292, R306; 16 R399). -/
def State.homeHalves (s : State) (w : HomeWrite) : State :=
  let n := s.nextPiece
  let mine := fun (cs : List (Nat × Byte)) => w.bads.filter fun b => cs.any fun c => c.1 / 32 == b
  (s.homeWrite { w with cells := w.cells.take 8, piece := n, bads := mine (w.cells.take 8), ack := none }).homeWrite
    { w with cells := w.cells.drop 8, piece := n, bads := mine (w.cells.drop 8) }

/-! ### L1 (12 R310-R312) -/

/-- A mask with the bits of some byte offsets. -/
def offsetMask (os : List Nat) : BitVec 128 := BitVec.ofNat 128 (((uniq os).map (2 ^ ·)).sum)
/-- The offsets of the set bits of a mask. -/
def offsetsOf (m : BitVec 128) : List Nat := (List.range 128).filter fun k => m.getLsbD k

/-- The dirty bytes of a line, as cells at its local address. -/
def L1Line.cells (l : L1Line) (line : Nat) : List (Nat × Byte) :=
  (offsetsOf l.dirty).map fun k => (line * 128 + k, l.data.getD k 0)
/-! ### The directory's view of a local access (12 R316-R323) -/

/-- The agents that an entry lists: exact, or all sixteen of each marked group (12 R318). -/
def DirEntry.agents (e : DirEntry) : List Nat :=
  if e.coarse then e.sharers.flatMap fun g => (List.range 16).map (16 * g + ·) else e.sharers

/-- One agent owns the line. -/
def DirEntry.isOwned (e : DirEntry) : Bool := e.st == .excl || e.st == .owned || e.st == .modified

/-- Whether an access of this package to one of its lines can be performed. -/
inductive Ready where
  | ready
  /-- the home asks other packages' agents for the line; the access is tried again -/
  | demand (s : State)
  | wait
  deriving DecidableEq, Repr

/-- The home itself, as the requester of a forward (12 R323). -/
def homeAgent : Nat := 256

/-- The entry of a line. -/
def State.entry (s : State) (ln : Nat) : DirEntry := agetD s.dir ln {}
/-- Set the entry of a line; one in I that nothing waits for is no entry. -/
def State.setEntry (s : State) (ln : Nat) (e : DirEntry) : State :=
  { s with dir := if e.st == .inv && e.waiting.isEmpty then aerase s.dir ln else aset s.dir ln e }

/-- List a sharer; the seventeenth turns the entry coarse (12 R318). -/
def DirEntry.addSharer (e : DirEntry) (a : Nat) : DirEntry :=
  if e.coarse then { e with sharers := addSet e.sharers (a / 16) }
  else if e.sharers.contains a then e
  else if e.sharers.length < 16 then { e with sharers := e.sharers ++ [a] }
  else { e with coarse := true, sharers := uniq ((e.sharers ++ [a]).map (· / 16)) }

/-- An agent that holds nothing and waits for nothing. -/
def AgentLine.gone (x : AgentLine) : Bool := x.st == .inv && x.waiting.isNone && x.buffer.isNone && x.held.isEmpty

/-- What an agent holds of a line. -/
def State.agentLine (s : State) (die ln : Nat) : AgentLine := agetD s.agents (die, ln) {}
/-- Set it; nothing held and nothing awaited is no line. -/
def State.setAgent (s : State) (die ln : Nat) (x : AgentLine) : State :=
  { s with agents := if x.gone then aerase s.agents (die, ln) else aset s.agents (die, ln) x }

/-- Put granules of SCM into their persist queue, as an eviction does (11 R305); HBM takes what is evicted at once. -/
def State.persistGranules (s : State) (grans : List Nat) : State :=
  (grans.filter fun gr => placeOf (64 * gr) == .scm).foldl
    (fun s gr => s.enqueuePersist { cells := (span (64 * gr) 64).map fun a => (a, readByte s.mem a) } 0) s

/-- The copies of a line that the listed agents of this package hold are dropped; SCM that was dirty in them is written on. -/
def State.dropOwn (s : State) (line : Nat) (who : List Nat) : State :=
  let mine := fun (k : Nat × Nat) => k.2 == s.lineKey line && who.contains (4 * s.own + k.1)
  ({ s with
    agents := (s.agents.map fun e =>
      if mine e.1 then (e.1, { e.2 with st := .inv, data := [], spoiled := [], under := none }) else e).filter fun e => !e.2.gone
    l2 := s.l2.filter fun e => !mine e.1 } : State).persistGranules ((s.l2.filter fun e => mine e.1).flatMap fun e => e.2.dirty)

/-- A step that waits for lines or takes locks: [0, row operation], [1, group, operation] of a list, [2, group, operation, lane, tag] of
a chase, [3, group, operation, chunk] of a `KVUP`, [4, group] of an `MCAS`, [5, core, line] a write-back of an L1, [6, group, word index]
a group's word, [7, team, quarter, word index] a stream's, [8, group, operation] of a copy engine. A lock with no holder is for the next step that needs the line. -/
abbrev Holder := List Nat

/-- The word being executed, as it waits for lines. -/
def State.asker (s : State) : Holder :=
  match s.cur with
  | .none => []
  | .engine who => who
  | .group gid => match aget s.groups gid with
    | some g => [6, gid, g.issue]
    | none => []
  | .stream t q => match (agetD (s.team t).units q {}).stream with
    | some st => [7, t, q, st.pc]
    | none => []

/-- Nothing that came before the step waits for the line. -/
def DirEntry.turnOf (e : DirEntry) (who : Holder) : Bool :=
  match e.waiting with
  | [] => true
  | .own w :: _ => w == who
  | .msg _ :: _ => false

/-- The step takes its place among what waits for a line (12 R320, R323). -/
def State.joinLine (s : State) (who : Holder) (line : Nat) : State :=
  let e := s.entry line
  if who.isEmpty || e.waiting.contains (.own who) then s else s.setEntry line { e with waiting := e.waiting ++ [.own who] }

/-- It waits there no more. -/
def State.leaveLine (s : State) (who : Holder) (line : Nat) : State :=
  let e := s.entry line
  if e.waiting.contains (.own who) then s.setEntry line { e with waiting := e.waiting.erase (.own who) } else s

/-- Whether the line can be read or written now, its queue apart. A thermal hold of its stack makes it wait, but for a plain store that
an SCM persist queue takes (17 R421). Copies of this package's own dies are no obstacle: what they exchange with the home is one step with
the access (log 14). Copies of other packages are recalled. -/
def State.lineOpen (s : State) (line : Nat) (write : Bool) (plain : Bool := false) : Ready :=
  let k := stackOf (line * 128)
  if (s.stack k).held && (k < 8 || !(write && plain)) then .wait else
  match aget s.dir line with
  | none => .ready
  | some e =>
    let here := fun (a : Nat) => a / 4 == s.own
    let away := e.agents.filter fun a => !here a
    let ask := fun (op : CohOp) (who : List Nat) =>
      Ready.demand <| ({ s with
        dir := aset s.dir line { e with st := .busy, prior := e.st, serving := none, acks := who }
        msgs := s.msgs ++ who.map fun a =>
          { op := op, line := paOf s.own (line * 128), src := 4 * s.own + homeDie (line * 128), dst := a, req := homeAgent } } :
        State).dropOwn line (e.agents.filter here)
    match e.st with
    | .inv => .ready
    | .shared => if write && !away.isEmpty then ask .inval away else .ready
    | .excl => if here e.owner then .ready else ask .fwdM [e.owner]
    | .modified => if here e.owner then .ready else ask .fwdM [e.owner]
    | .owned =>
      let rest := away.filter (· != e.owner)
      if here e.owner && (!write || rest.isEmpty) then .ready
      else if rest.isEmpty then ask .fwdM [e.owner] else ask .inval rest
    | .busy => .wait
    | .locked => .wait

/-- Whether a step can read or write the line now: what arrived before comes first (12 R320, R323). -/
def State.lineReady (s : State) (line : Nat) (write : Bool) (plain : Bool := false) (who : Holder := s.asker) : Ready :=
  if (s.entry line).turnOf who then s.lineOpen line write plain else .wait

/-- The lines of a list whose home is HBM or SCM. -/
def homedLines (as : List Nat) : List Nat := linesOf (as.filter fun a => placeOf a == .hbm || placeOf a == .scm)

/-- The entry of a line that this package writes lists no copy afterwards, and its dies keep none; requests that wait for it
stay. -/
def State.dirTake (s : State) (as : List Nat) : State :=
  let mine := fun (l : Nat) => (homedLines as).contains l
  let kept := (s.dir.filter fun e => !mine e.1 || !e.2.waiting.isEmpty).map fun e =>
    if mine e.1 then (e.1, { waiting := e.2.waiting }) else e
  (s.dir.filter fun e => mine e.1).foldl (fun (s : State) e => s.dropOwn e.1 (e.2.owner :: e.2.agents)) { s with dir := kept }

/-- The line's bytes and poisoned beats at their home. -/
def State.homeCopy (s : State) (line : Nat) : List Byte × List Nat :=
  (s.readHome (128 * line) 128, (List.range 4).filter fun k => s.isBad [128 * line + 32 * k])

/-- A die of this package reads or writes a line through its L2: the copies that its agent, the other dies' agents and the home
hold of the line afterwards, by the messages of 12 R320 between them (log 14). The line is ready. -/
def State.dieTake (s : State) (die line : Nat) (write : Bool) : State :=
  let e := s.entry line
  let me := 4 * s.own + die
  let key := s.lineKey line
  let all := e.owner :: e.agents
  if homeDie (128 * line) == die then
    if write then s.dirTake [128 * line]
    else if e.isOwned then
      (s.dropOwn line [e.owner]).setEntry line
        { e with st := if e.st == .owned && !e.sharers.isEmpty then .shared else .inv, owner := 0 }
    else s
  else if write then
    let under := if e.isOwned then (s.agentLine (e.owner % 4) key).under else none
    let x := s.agentLine die key
    ((s.dropOwn line (all.filter (· != me))).setEntry line { st := .modified, owner := me, waiting := e.waiting }).setAgent die key
      { x with st := .modified, data := [], spoiled := [], under := some (under.getD (s.homeCopy line)) }
  else if (s.agentLine die key).st != .inv then s
  else if e.isOwned then
    ((s.setEntry line (({ e with st := .owned } : DirEntry).addSharer me)).setAgent (e.owner % 4) key
      { s.agentLine (e.owner % 4) key with st := .owned }).setAgent die key { s.agentLine die key with st := .shared }
  else if e.st == .shared then
    (s.setEntry line (e.addSharer me)).setAgent die key { s.agentLine die key with st := .shared }
  else
    (s.setEntry line { st := .excl, owner := me, waiting := e.waiting }).setAgent die key { s.agentLine die key with st := .excl }

/-! ### L2 (12 R312, R316) -/

/-- The set of a line in the L2 of a die: its slice (12 R309), and the set there, of 2048 sets of 16 lines (log 60). -/
def l2Set (key : Nat) : Nat × Nat := (homeSlice (locOf (128 * key)), key / 32 % 2048)

/-- The lines of the L2 set of a line. -/
def State.l2SetOf (s : State) (die key : Nat) : AMap (Nat × Nat) L2Line :=
  s.l2.filter fun e => e.1.1 == die && l2Set e.1.2 == l2Set key

/-- The set is full, and the line is not in it. -/
def State.l2Full (s : State) (die key : Nat) : Bool :=
  let set := s.l2SetOf die key
  decide (16 ≤ set.length) && !set.any fun e => e.1.2 == key

/-- The victim of a full L2 set: lowest priority, then least recently used, of those that wait for no grant. -/
def State.l2Victim (s : State) (die key : Nat) : Option Nat :=
  if !s.l2Full die key then none
  else (((s.l2SetOf die key).filter fun e => (s.agentLine die e.1.2).waiting.isNone).foldl (fun (best : Option (Nat × L2Line)) e => match best with
    | none => some (e.1.2, e.2)
    | some (n, l) => if e.2.prio < l.prio || (e.2.prio == l.prio && e.2.used < l.used) then some (e.1.2, e.2)
      else some (n, l)) none).map Prod.fst

/-- The key under which an L1 holds the line of an access. -/
def Xlat.key (x : Xlat) : Nat := if x.kind == 2 then 2 ^ 49 + x.pa / 128 else locOf x.pa / 128
/-- It is the key of a line of another package, the one of which the physical address / 128 is `awayKey`. -/
def isAway (key : Nat) : Bool := 2 ^ 49 ≤ key
/-- The physical address / 128 of such a line. -/
def awayKey (key : Nat) : Nat := key - 2 ^ 49

/-- Bytes go into the modified copy that a die's agent holds of a line of another package. -/
def State.agentMerge (s : State) (die key : Nat) (cells : List (Nat × Byte)) : State :=
  let x := s.agentLine die key
  if cells.isEmpty then s
  else s.setAgent die key
    { x with
      st := if x.st == .excl then .modified else x.st
      data := cells.foldl (fun (d : List Byte) c => d.set (c.1 % 128) c.2) x.data
      spoiled := x.spoiled.filter fun b => !(span (32 * b) 32).all fun o => cells.any fun c => c.1 % 128 == o }

/-- The L1 of a core of the die, other than `but`, that holds the line of another package exclusively gives it back, with its dirty
bytes (12 R311). -/
def State.recallAway (s : State) (die key : Nat) (but : Nat := homeAgent) : State :=
  let mine := s.l1.filter fun e => e.2.exclusive && e.1.1 / 64 == die && e.1.1 != but && e.1.2 == 2 ^ 49 + key
  mine.foldl (fun (s : State) e => { s.agentMerge die key (e.2.cells 0) with l1 := aerase s.l1 e.1 }) s

/-- Give up an agent's copy of a line homed in another package: a line held in S silently, another with a message; its data
stays in the write-back buffer until it is answered (12 R319, R321). -/
def State.putAway (s0 : State) (die key : Nat) (discard : Bool) : State :=
  let s := s0.recallAway die key
  let x := s.agentLine die key
  let line := 128 * key
  if x.waiting.isSome || x.buffer.isSome || x.st == .inv then s
  else
    let s1 := { s with l2 := aerase s.l2 (die, key) }
    let y := { x with st := .inv, data := [], spoiled := [] }
    if x.st == .shared then s1.setAgent die key y
    else
      let op : CohOp := if discard then .putE else match x.st with | .excl => .putE | .owned => .putO | _ => .putM
      let s2 := s1.setAgent die key { y with buffer := some (x.data, x.spoiled) }
      { s2 with msgs := s2.msgs ++ [{ op := op, line := line, src := 4 * s.own + die, dst := homeAgent
                                      data := if op == .putE then [] else x.data, spoiled := if op == .putE then [] else x.spoiled }] }

/-- Take an L2 copy out: of a line of this package with its directory entry; dirty SCM goes on to its persist queue. With
`discard` what the copy changed is lost, and memory keeps what it held before (06 R158). -/
def State.l2Drop (s : State) (die key : Nat) (discard : Bool) : State :=
  if pkgOf (128 * key) != s.own then s.putAway die key discard
  else
    let line := locOf (128 * key) / 128
    let me := 4 * s.own + die
    let e := s.entry line
    let x := s.agentLine die key
    let grans := (agetD s.l2 (die, key) {}).dirty
    let s1 := { s with l2 := aerase s.l2 (die, key) }
    if homeDie (128 * line) == die then s1.persistGranules grans
    else if x.st == .inv || x.waiting.isSome || e.st == .busy then s1.persistGranules grans
    else if !(e.isOwned && e.owner == me) then s1.setAgent die key { x with st := .inv, data := [], spoiled := [], under := none }
    else
      let s2 := (s1.setAgent die key { x with st := .inv, data := [], spoiled := [], under := none }).setEntry line
        { e with st := if e.st == .owned && !e.sharers.isEmpty then .shared else .inv, owner := 0 }
      match discard, x.under with
      | true, some (bs, bad) =>
        let s3 := s2.dropOwn line e.agents
        { s3 with
          mem := writeBytes s3.mem (128 * line) bs
          poison := (List.range 4).foldl (fun p k => if k ∈ bad then addSet p (4 * line + k) else delSet p (4 * line + k)) s3.poison }
      | _, _ => s2.persistGranules grans

/-- A line of a die's L2 is used with a priority; one that is not there is put in where its set has room or gives up a victim. -/
def State.l2Use (s : State) (die key prio : Nat) : State :=
  let put := fun (s1 : State) =>
    ({ s1 with l2 := aset s1.l2 (die, key) { agetD s1.l2 (die, key) {} with prio := prio, used := s.clock } } : State)
  if !s.l2Full die key then put s
  else match s.l2Victim die key with
    | some v => put (s.l2Drop die v false)
    | none => s

/-- A core of a die reads or writes a line of this package through its L2. -/
def State.l2Access (s : State) (core line : Nat) (write : Bool) (prio : Nat) : State :=
  (s.dieTake (core / 64) line write).l2Use (core / 64) (s.lineKey line) prio

/-! ### L1 write-backs (12 R310, R311) -/

/-- The eviction priority and the service class of a write-back (log 60). -/
def backPrio : Nat := 1
def backClass : Nat := 1

/-- Write dirty bytes of a core's L1 to their home slice, through the L2 of its die. Those of a line that takes no write are discarded for
each group that stored them (17 R424, 20 R443). -/
def State.backHome (s : State) (b : WriteBack) : State :=
  if b.cells.any fun c => inFirmware c.1 || s.withdrawn c.1 then
    b.by_.foldl (fun (s : State) x => s.discard (some x.1) (paOf s.own (128 * b.line)) x.2.1 0 1) s
  else
    ((s.l2Access b.core b.line true backPrio).request b.core backClass (128 * b.line) true false (plain := true)).homeWrite
      { cells := b.cells, tag := BitVec.ofNat 64 ((b.by_.map fun x => x.2.2.toNat).foldl max 0) }

/-- The runs of consecutive addresses of ascending cells. -/
def runsOf : List (Nat × Byte) → List (Nat × List Byte)
  | [] => []
  | c :: cs => match runsOf cs with
    | (a, bs) :: rest => if a == c.1 + 1 then (c.1, c.2 :: bs) :: rest else (c.1, [c.2]) :: (a, bs) :: rest
    | [] => [(c.1, [c.2])]

/-- The data of a packet that writes bytes: these, and the step that the write carries (16 R396; log 15). -/
def writeData (bs : List Byte) (tag : Word64) : List Byte := bs ++ leBytes 8 tag.toNat

/-- Dirty bytes of a line of another package go to its home in packets, one for each run of them (11 R286). -/
def State.backAway (s : State) (core key : Nat) (l : L1Line) : State :=
  let tag : Word64 := BitVec.ofNat 64 ((l.by_.map fun x => x.2.2.toNat).foldl max 0)
  let pa := 128 * awayKey key
  let c := match l.by_ with
    | x :: _ => s.ctxOfId x.1
    | [] => 0
  (runsOf (l.cells 0)).foldl (fun (s : State) r =>
    s.ask { dest := pkgOf pa, src := s.own, op := opWrite, svc := backClass, ctx := c, xgen := (s.ctx c).xgen.toNat, agent := core
            addr := pa + r.1, opdata := r.2.length, data := writeData r.2 tag } (.back core l.by_)) s

/-- Write back the dirty bytes of a line; a clean copy stays (12 R310). Where the line is not ready, they wait for it; bytes of a line that
the L1 holds exclusively go into the copy of its die. -/
def State.writeBackLine (s : State) (core line : Nat) : State :=
  match aget s.l1 (core, line) with
  | none => s
  | some l =>
    if l.dirty == 0 then s
    else
      let s1 := { s with l1 := aset s.l1 (core, line) { l with dirty := 0, since := s.clock, by_ := [] } }
      if isAway line then
        if l.exclusive then s1.agentMerge (core / 64) (awayKey line) (l.cells 0) else s1.backAway core line l
      else
        let b : WriteBack := { core := core, line := line, cells := l.cells line, by_ := l.by_ }
        match s.lineReady line true true [5, core, line] with
        | .ready => s1.backHome b
        | _ => { s1.joinLine [5, core, line] line with backs := s1.backs ++ [b] }

/-- Perform the write-backs whose line is ready, in order; ask for the lines of others. -/
def State.settleBacks (s : State) : State :=
  s.backs.foldl (fun (s : State) b =>
    let who : Holder := [5, b.core, b.line]
    match s.lineReady b.line true true who with
    | .ready => (s.leaveLine who b.line).backHome b
    | .demand s' => { s'.joinLine who b.line with backs := s'.backs ++ [b] }
    | .wait => { s.joinLine who b.line with backs := s.backs ++ [b] }) { s with backs := [] }

/-- The lines that a core's L1 holds. -/
def State.l1Lines (s : State) (core : Nat) : List Nat := (s.l1.filter fun e => e.1.1 == core).map fun e => e.1.2

/-- Write back every dirty line of a core (06 R161). -/
def State.writeBackCore (s : State) (core : Nat) : State := (s.l1Lines core).foldl (fun s l => s.writeBackLine core l) s

/-- A core's write-backs are not all performed: some wait for their line here, or for the answer of another package. -/
def State.backing (s : State) (core : Nat) : Bool :=
  s.backs.any (fun b => b.core == core) || s.remotes.any fun r => match r.what with | .back c _ => c == core | _ => false

/-- Go on once every dirty byte of a core has reached its home slice (06 R161, 11 R286). -/
def State.whenBacked (s : State) (core : Nat) (on : Bool) (k : State → State) : State :=
  if !on then k s
  else
    let s1 := s.writeBackCore core
    if s1.backing core then s1.stall else k s1

/-- Drop the clean bytes of a core's L1 (06 R161). -/
def State.dropClean (s : State) (core : Nat) : State :=
  { s with l1 := (s.l1.filter fun e => e.1.1 != core || e.2.dirty != 0).map fun e =>
      if e.1.1 == core then (e.1, { e.2 with valid := e.2.dirty }) else e }

/-- Drop a line from a core's L1, dirty bytes included. -/
def State.dropLine (s : State) (core line : Nat) : State := { s with l1 := aerase s.l1 (core, line) }

/-- The home slice recalls a line that another core's L1 holds exclusively (12 R311). -/
def State.recallExclusive (s : State) (core line : Nat) : State :=
  ((s.l1.filter fun e => e.2.exclusive && e.1.2 == line && e.1.1 != core).map fun e => e.1.1).foldl
    (fun s c => (s.writeBackLine c line).dropLine c line) s

/-- The coherent bytes from a local address: the home's, or dirty ones of a core that holds the line exclusively, which a read at
the home recalls (12 R311). -/
def State.readRecalled (s : State) (a n : Nat) : List Byte :=
  (List.range n).map fun k =>
    match s.l1.find? fun e => e.2.exclusive && e.1.2 == (a + k) / 128 && e.2.dirty.getLsbD ((a + k) % 128) with
    | some e => e.2.data.getD ((a + k) % 128) 0
    | none => (s.readHome (a + k) 1).getD 0 0

/-! ### L1 (12 R310-R312) -/

/-- The victim of a full set: lowest priority, then least recently used (12 R312). The set is the line number modulo 128
(log 13). -/
def State.l1Victim (s : State) (core line : Nat) : Option Nat :=
  let set := s.l1.filter fun e => e.1.1 == core && e.1.2 % 128 == line % 128
  if set.length < 12 || set.any (fun e => e.1.2 == line) then none
  else (set.foldl (fun (best : Option (Nat × L1Line)) e => match best with
    | none => some (e.1.2, e.2)
    | some (n, l) => if e.2.prio < l.prio || (e.2.prio == l.prio && e.2.used < l.used) then some (e.1.2, e.2)
      else some (n, l)) none).map Prod.fst

/-- Put a line into a core's L1, evicting a victim with a write-back. -/
def State.l1Put (s : State) (core line : Nat) (l : L1Line) : State :=
  let s1 := match s.l1Victim core line with
    | some v => (s.writeBackLine core v).dropLine core v
    | none => s
  { s1 with l1 := aset s1.l1 (core, line) l }

/-- Fill a line with its bytes, keeping dirty ones; bytes of poisoned beats stay invalid. -/
def State.l1FillWith (s : State) (core line prio : Nat) (exclusive : Bool) (fresh : List Byte) (bad : List Nat) : State :=
  let old := agetD s.l1 (core, line) { data := List.replicate 128 0, valid := 0, dirty := 0 }
  let data := (List.range 128).map fun k => if old.dirty.getLsbD k then old.data.getD k 0 else fresh.getD k 0
  let ok := (List.range 128).filter fun k => old.dirty.getLsbD k || !bad.contains (k / 32)
  s.l1Put core line
    { data := data, valid := offsetMask ok, dirty := old.dirty, prio := prio, exclusive := exclusive || old.exclusive,
      since := if old.dirty == 0 then s.clock else old.since, used := s.clock, by_ := old.by_ }

/-- Fill a line of this package from its home. -/
def State.l1Fill (s : State) (core line prio : Nat) (exclusive : Bool) : State :=
  s.l1FillWith core line prio exclusive (s.readHome (line * 128) 128) ((List.range 4).filter fun k => s.isBad [line * 128 + 32 * k])

/-- Bytes written at the home are updated in the core's own copy, and are no longer dirty there; the access sets its priority. -/
def State.l1Patch (s : State) (core line : Nat) (cells : List (Nat × Byte)) (prio : Nat) : State :=
  { s with l1 := aupd s.l1 (core, line) fun l =>
      let mine := cells.filter fun c => c.1 / 128 == line
      { l with
        data := mine.foldl (fun d (c : Nat × Byte) => d.set (c.1 % 128) c.2) l.data
        dirty := l.dirty &&& ~~~ offsetMask (mine.map fun c => c.1 % 128)
        prio := prio
        used := s.clock } }

/-- Store bytes of a group into the L1 line, which is allocated without being read (12 R310). -/
def State.l1Store (s : State) (core line prio : Nat) (cells : List (Nat × Byte)) (who : Nat × Nat × Word64) : State :=
  let old := agetD s.l1 (core, line) { data := List.replicate 128 0, valid := 0, dirty := 0 }
  let mine := cells
  let m := offsetMask (mine.map fun c => c.1 % 128)
  s.l1Put core line
    { old with
      data := mine.foldl (fun d (c : Nat × Byte) => d.set (c.1 % 128) c.2) old.data
      valid := old.valid ||| m
      dirty := old.dirty ||| m
      prio := prio
      since := if old.dirty == 0 then s.clock else old.since
      used := s.clock
      by_ := if old.by_.contains who then old.by_ else old.by_ ++ [who] }

/-! ### Waiting for lines -/

/-- The first line of a list that is not ready decides. -/
def State.linesReady (s : State) (plain : Bool := false) : List (Nat × Bool) → Ready
  | [] => .ready
  | (l, w) :: ls => match s.lineReady l w plain with
    | .ready => s.linesReady plain ls
    | r => r

/-- The word being executed takes its place at the lines of a list up to the first that is not ready (12 R320, R323). -/
def State.takePlaces (s : State) (plain : Bool) : List (Nat × Bool) → State
  | [] => s
  | (l, w) :: ls =>
    let s1 := s.joinLine s.asker l
    match s.lineReady l w plain with
    | .ready => s1.takePlaces plain ls
    | _ => s1

/-- Insert a number into an ascending list. -/
def insertAsc (x : Nat) : List Nat → List Nat
  | [] => [x]
  | y :: ys => if x ≤ y then x :: y :: ys else y :: insertAsc x ys

/-- The numbers of a list in ascending order. -/
def ascending (xs : List Nat) : List Nat := xs.foldr insertAsc []

/-- Go on when every line of an access is ready; otherwise ask for the first that is not, or wait for it, in arrival order. -/
def State.whenReady (s : State) (as : List Nat) (write : Bool) (k : State) (plain : Bool := false) : State :=
  let lines := ascending (homedLines as)
  let want := lines.map fun l => (l, write)
  match s.linesReady plain want with
  | .ready => lines.foldl (fun (t : State) l => t.leaveLine s.asker l) k
  | .demand s' => (s'.takePlaces plain want).stall
  | .wait => (s.takePlaces plain want).stall

/-- The step holds the lock of the line. -/
def State.holdsLock (s : State) (who : Holder) (line : Nat) : Bool :=
  (s.entry line).st == .locked && ((s.entry line).holder == who || (s.entry line).holder.isEmpty)

/-- The home takes a line locked for a step; its copies are dropped (12 R323). -/
def State.lockLine (s : State) (who : Holder) (line : Nat) : State :=
  let s1 := (s.recallExclusive homeAgent line).dirTake [128 * line]
  s1.setEntry line { st := .locked, lockers := 1, holder := who, waiting := (s1.entry line).waiting.erase (.own who) }

/-- Take the locks of lines one after another; the next is asked for after the last is granted (12 R324). -/
def State.takeLocks (s : State) (who : Holder) : List Nat → Bool × State
  | [] => (true, s)
  | l :: ls =>
    if s.holdsLock who l then (s.setEntry l { s.entry l with holder := who }).takeLocks who ls
    else match s.lineReady l true false who with
      | .ready => (s.lockLine who l).takeLocks who ls
      | .demand s' => (false, s'.joinLine who l)
      | .wait => (false, s.joinLine who l)

/-- Release the locks of a step: their lines are left uncached, and what waits for them is served (12 R323). -/
def State.unlock (s : State) (who : Holder) : State :=
  (s.dir.filter fun e => e.2.st == .locked && e.2.holder == who).foldl
    (fun (s : State) e => s.setEntry e.1 { waiting := e.2.waiting }) s

/-- A step takes the lines of some addresses in ascending order, acts, and releases them together; while it waits it keeps those
that it has (12 R323, R324). -/
def State.whenTaken (s : State) (who : Holder) (as : List Nat) (k : State → State) : State :=
  match s.takeLocks who (ascending (homedLines as)) with
  | (true, s1) =>
    let s2 := k s1
    if s2.stalled then s2 else s2.unlock who
  | (false, s1) => s1.stall

end Sys2Proof.Machine
end

