-- ==== Sys2Proof/Machine/Translate.lean ====
section
/-!
DEFINITION. Page walks, translation caches and page requests (13 R339-R348).
-/
namespace Sys2Proof.Machine

/-- What an access needs of its page (13 Table 13.4). -/
inductive Need where
  | read | write | fetch
  deriving DecidableEq, Repr

/-! ### Page-table entries (13 Table 13.2, R341) -/

def pteV (e : Word64) : Bool := e.getLsbD 0
def pteW (e : Word64) : Bool := e.getLsbD 1
def pteX (e : Word64) : Bool := e.getLsbD 2
def pteU (e : Word64) : Bool := e.getLsbD 3
def pteA (e : Word64) : Bool := e.getLsbD 4
def pteD (e : Word64) : Bool := e.getLsbD 5
def pteL (e : Word64) : Bool := e.getLsbD 6
def pteKind (e : Word64) : Nat := field e.toNat 7 2
def ptePT (e : Word64) : Bool := e.getLsbD 9
def pteAttr (e : Word64) : Nat := field e.toNat 56 3
/-- The physical address in bits [55:12]. -/
def pteFrame (e : Word64) : PAddr := field e.toNat 12 44 * 4096

/-- The first virtual address bit of a level's index. -/
def levelShift (level : Nat) : Nat := 12 + 9 * level

/-- An entry that ends the walk as a leaf (13 R340). -/
def pteLeaf (e : Word64) (level : Nat) : Bool := level == 0 || ((level == 1 || level == 2) && pteL e)

/-- Clause 1 of R341. -/
def pteShape (e : Word64) (level : Nat) : Bool :=
  field e.toNat 59 5 == 0 && field e.toNat 10 2 == 0 && (!pteL e || level == 1 || level == 2)
    && (!pteLeaf e level || pteFrame e % 2 ^ levelShift level == 0)

/-- A frame of `bits` bits in a hole, in the firmware area, at a package that is no member, or on withdrawn lines
(13 R341, 20 R443, 17 R424). -/
def State.frameMissing (s : State) (frame : PAddr) (bits : Nat) : Bool :=
  let p := pkgOf frame
  let a := locOf frame
  if p != s.own && !s.isMember p then true
  else if s.isEndpoint p then false
  else placeOf a == .hole || (a < 0x60000000000 && 0x5FFFC000000 < a + 2 ^ bits && placeOf a == .scm)
    || (p == s.own && placeOf a == .hbm && 480 * 2 ^ 30 < a + 2 ^ bits
        && (if bits == 12 then s.withdrawn a else (List.range 8).any fun k => (s.stack k).mode != 0))

/-- HBM or SCM of this package. -/
def State.ownMemory (s : State) (frame : PAddr) : Bool :=
  pkgOf frame == s.own && (placeOf (locOf frame) == .hbm || placeOf (locOf frame) == .scm)

/-- Clause 3 of R341. -/
def State.kindAgrees (s : State) (kind : Nat) (frame : PAddr) : Bool :=
  let p := pkgOf frame
  let a := locOf frame
  match kind with
  | 0 => p == s.own && placeOf a == .hbm
  | 1 => p == s.own && placeOf a == .scm
  | 2 => p != s.own && (if s.isEndpoint p then decide (a < 2 ^ 49) else placeOf a == .hbm || placeOf a == .scm)
  | _ => p == s.own && placeOf a == .host

/-- Clause 4 of R341 does not hold. -/
def State.leafAllowed (s : State) (e : Word64) : Bool :=
  let kind := pteKind e
  let attr := pteAttr e
  (!ptePT e || placeOf (locOf (pteFrame e)) == .scm) && (!pteX e || kind ≤ 1) && (kind != 3 || attr == 2)
    && (!(kind == 2 && s.isEndpoint (pkgOf (pteFrame e))) || attr == 2) && attr ≤ 2

/-- The status of a valid entry: 0 when well formed (13 R341). -/
def State.pteStatus (s : State) (e : Word64) (level : Nat) : Nat :=
  let leaf := pteLeaf e level
  if !pteShape e level then 5
  else if s.frameMissing (pteFrame e) (if leaf then levelShift level else 12) then 6
  else if leaf then (if s.kindAgrees (pteKind e) (pteFrame e) && s.leafAllowed e then 0 else 5)
  else if field e.toNat 5 5 == 0 && pteAttr e == 0 && s.ownMemory (pteFrame e) then 0 else 5

/-! ### The walk (13 R342) -/

/-- How a walk ends: status 0 with a leaf, or a failure, at a level. -/
structure WalkEnd where
  status : Nat
  level : Nat
  /-- the last entry read -/
  last : Word64 := 0
  /-- addresses read, and the entries used with their values, the last first -/
  reads : List Nat := []
  used : List (Nat × Word64) := []
  deriving DecidableEq, Repr

/-- Walk the levels of a list from the table at `table`. -/
def State.walkFrom (s : State) (va : Nat) : List Nat → PAddr → List Nat → List (Nat × Word64) → WalkEnd
  | [], _, reads, used => { status := 1, level := 0, reads := reads, used := used }
  | lv :: lvs, table, reads, used =>
    let at_ := locOf table + 8 * field va (levelShift lv) 9
    if !s.ownMemory table then { status := 6, level := lv, reads := reads, used := used }
    else
      let e : Word64 := BitVec.ofNat 64 (leValue (s.readRecalled at_ 8))
      let reads := at_ :: reads
      if s.isBad [at_] || s.mismatch (at_ / 32) then { status := 5, level := lv, reads := reads, used := used }
      else if !pteV e then { status := 1, level := lv, last := e, reads := reads, used := used }
      else
        let st := s.pteStatus e lv
        let used := (at_, e) :: used
        if st != 0 then { status := st, level := lv, last := e, reads := reads, used := used }
        else if pteLeaf e lv then { status := 0, level := lv, last := e, reads := reads, used := used }
        else s.walkFrom va lvs (pteFrame e) reads used

/-- The walk of an address in a context's tables. -/
def State.walk (s : State) (ctx va : Nat) : WalkEnd :=
  s.walkFrom va [4, 3, 2, 1, 0] (field (s.ctx ctx).root.toNat 12 44 * 4096) [] []

/-- The permission failure of effective bits: U first, then W or X (13 R343). -/
def permStatus (sup : Bool) (need : Need) (w x u : Bool) : Nat :=
  if !sup && !u then 4 else if need == .write && !w then 2 else if need == .fetch && !x then 3 else 0

/-- The translation that a successful walk yields. -/
def WalkEnd.entry (r : WalkEnd) (ctx va : Nat) (dirty : Bool) : TlbEntry :=
  let bits := levelShift r.level
  { ctx := ctx, base := va / 2 ^ bits * 2 ^ bits, bits := bits, w := r.used.all fun p => pteW p.2
    x := r.used.all fun p => pteX p.2, u := r.used.all fun p => pteU p.2, kind := pteKind r.last, pt := ptePT r.last
    attr := pteAttr r.last, frame := pteFrame r.last, dirty := dirty, leaf := r.last }

/-- The entries that a walk changes, with their new values: A in each used, and for a write D in the leaf (13 R342). -/
def WalkEnd.marks (r : WalkEnd) (write : Bool) : List (Nat × Word64) :=
  let leafAt := (r.used.headD (0, 0)).1
  (r.used.map fun p => (p, p.2 ||| 0x10 ||| (if write && p.1 == leafAt then 0x20 else 0))).filterMap fun x =>
    if x.2 == x.1.2 then none else some (x.1.1, x.2)

/-- Set A and D, each by a compare and swap at the home, which takes the line from every copy (13 R342). -/
def State.markEntries (s : State) (r : WalkEnd) (write : Bool) : State :=
  (r.marks write).foldl (fun s (p : Nat × Word64) =>
    (s.dirTake [p.1]).homeWrite { cells := (List.range 8).map fun k => (p.1 + k, (p.2 >>> (8 * k)).truncate 8) }) s

/-! ### Translation caches (13 R345) -/

/-- Entries that a cache holds (13 Table 13.5). -/
def TlbKey.size : TlbKey → Nat
  | .l1 _ => 128 | .l2 _ => 16384 | .ahead _ => 2048 | .kiosk _ => 4096

/-- An entry that maps an address of a context. -/
def TlbEntry.covers (e : TlbEntry) (ctx va : Nat) : Bool := e.ctx == ctx && e.base ≤ va && va < e.base + 2 ^ e.bits

/-- The entry of a cache for an address. -/
def State.tlbFind (s : State) (k : TlbKey) (ctx va : Nat) : Option TlbEntry :=
  (s.tlbs.find? fun p => p.1 == k && p.2.covers ctx va).map Prod.snd

/-- Put an entry into a cache; when the cache is full its oldest entry goes (log 13). -/
def State.tlbPut (s : State) (k : TlbKey) (e : TlbEntry) : State :=
  let others := s.tlbs.filter fun p => p.1 != k
  let mine := s.tlbs.filter fun p => p.1 == k && !(p.2.ctx == e.ctx && p.2.base == e.base)
  { s with tlbs := (k, e) :: (mine.take (k.size - 1) ++ others) }

/-- An entry that serves an access without a new walk: its permissions hold, and a write finds D set. -/
def TlbEntry.serves (e : TlbEntry) (sup : Bool) (need : Need) : Bool :=
  permStatus sup need e.w e.x e.u == 0 && (need != .write || e.dirty)

/-- The physical address of a virtual one through an entry. -/
def TlbEntry.xlat (e : TlbEntry) (va : Nat) : Xlat :=
  { pa := e.frame + va % 2 ^ e.bits, kind := e.kind, pt := e.pt, attr := e.attr, ctx := e.ctx }

/-- The outcome of a translation. -/
inductive Tr where
  | ok (x : Xlat) (s : State)
  /-- walk status, level, last entry -/
  | fail (status level : Nat) (last : Word64) (s : State)
  /-- a table's line is held by another package: the state to return -/
  | wait (s : State)
  deriving DecidableEq, Repr

/-- The core or the Kiosk that walks for some caches (13 Table 13.5). -/
def walker (ks : List TlbKey) : TlbKey := (ks.find? fun k => match k with | .l2 _ => false | _ => true).getD (.l1 0)

/-- Its requester number (12 R315): a core's, or 257 and the Kiosk's. -/
def TlbKey.requester : TlbKey → Nat
  | .l1 c => c | .ahead c => c | .kiosk k => 257 + k | .l2 _ => 0

/-- The finder that it is (17 Tables 17.4 and 17.5). -/
def TlbKey.finder (k : TlbKey) (ctx : Nat) : Finder :=
  match k with
  | .kiosk j => { byKiosk j ctx with detail := 6 }
  | _ => byWalk k.requester ctx

/-- Translate through the caches `ks`, nearest first; a walk fills them all (13 R342-R345; log 13). -/
def State.translate (s : State) (ks : List TlbKey) (ctx : Nat) (sup : Bool) (need : Need) (va0 : Nat) : Tr :=
  let va := va0 % 2 ^ 57
  match ks.findSome? fun k => (s.tlbFind k ctx va).filter fun e => e.serves sup need with
  | some e =>
    let missing := ks.filter fun k => s.tlbFind k ctx va != some e
    .ok (e.xlat va) (missing.foldl (fun s k => s.tlbPut k e) s)
  | none =>
    let r0 := s.walk ctx va
    let marks := if r0.status == 0 then r0.marks (need == .write) else []
    let want := (homedLines (marks.map Prod.fst)).map (fun l => (l, true)) ++ (homedLines r0.reads).map fun l => (l, false)
    match s.linesReady false want with
    | .demand s' => .wait (s'.takePlaces false want).stall
    | .wait => .wait (s.takePlaces false want).stall
    | .ready =>
      let by_ := walker ks
      let s0 := (homedLines r0.reads).foldl (fun (s : State) l =>
        ((s.recallExclusive homeAgent l).leaveLine s.asker l).request by_.requester 1 (128 * l) false false ctx) s
      let s1 := s0.verify (by_.finder ctx) r0.reads
      -- what the codes and checks found decides the walk
      let r := s1.walk ctx va
      if r.status != 0 then .fail r.status r.level r.last s1
      else
        let e := r.entry ctx va (need == .write || pteD r.last)
        match permStatus sup need e.w e.x e.u with
        | 0 => .ok (e.xlat va) (ks.foldl (fun s k => s.tlbPut k e) (s1.markEntries r (need == .write)))
        | st => .fail st r.level r.last s1

/-- The caches of a core's accesses. -/
def coreTlbs (core : Nat) : List TlbKey := [.l1 core, .l2 (core / 64)]
/-- The caches of its copy engine. -/
def engineTlbs (core : Nat) : List TlbKey := [.ahead core, .l2 (core / 64)]

/-! ### Page requests (13 R346) -/

/-- Access kinds (13 after Table 13.9). -/
def akLoad : Nat := 0
def akStore : Nat := 1
def akAtomic : Nat := 2
def akFetch : Nat := 3
def akCopy : Nat := 4
def akKiosk : Nat := 5
def akSpill : Nat := 6

/-- A page request of the context's page is outstanding. -/
def State.requested (s : State) (ctx vpage : Nat) : Bool := s.pageReqs.any fun r => r.ctx == ctx && r.vpage == vpage

/-- Send a page request, unless one for the page is outstanding; at 1024 outstanding requests there is no place. -/
def State.pageRequest (s : State) (ctx va kind status level who : Nat) : Option State :=
  let vpage := va % 2 ^ 57 / 4096
  if s.requested ctx vpage then some s
  else if 1024 ≤ s.pageReqs.length then none
  else some { s with pageReqs := s.pageReqs ++
    [{ ctx := ctx, gen := (s.ctx ctx).gen.toNat, vpage := vpage, kind := kind, status := status, level := level, who := who }] }

/-- A group's access faults: it is held on the page (13 R346). -/
def State.holdPage (s : State) (gid : Nat) (g : Group) (va kind status level : Nat) (lanes : Word32) : State :=
  match s.pageRequest (s.ctxOf g) va kind status level gid with
  | some s1 => s1.putGroup gid
      { g.begin s.clock with hold := .page (va % 2 ^ 57) kind (s.walk (s.ctxOf g) (va % 2 ^ 57)).last lanes g.issue }
  | none => s.stall

end Sys2Proof.Machine
end

