-- ==== Sys2Proof/Machine/Access.lean ====
section
/-!
DEFINITION. What every memory instruction shares: the order of its checks, loads, stores and read-modify-writes of this
package, packets to other packages, and the side log (06 R154-R161, R193, R194; 12 R329, R330; 13 R349, R350).
-/
namespace Sys2Proof.Machine

/-! ### Orders and scopes (06 R161) -/

/-- An acquire. -/
def Order.isAcq : Order → Bool | .acq => true | .ar => true | .sc => true | _ => false
/-- A release. -/
def Order.isRel : Order → Bool | .rel => true | .ar => true | .sc => true | _ => false
/-- Die scope or wider. -/
def Scope.wide (x : Scope) : Bool := x.code.toNat ≥ 3
/-- Core scope or wider. -/
def Scope.coreWide (x : Scope) : Bool := x.code.toNat ≥ 2

/-- L1 upkeep before a release (06 R161): the dirty bytes of the core are performed first. -/
def State.whenReleased (s : State) (core : Nat) (rel : Bool) (sc : Scope) (k : State → State) : State :=
  s.whenBacked core (rel && Scope.coreWide sc) k
/-- L1 upkeep after an acquire (06 R161). -/
def State.acqL1 (s : State) (core : Nat) (acq : Bool) (sc : Scope) : State :=
  if acq && Scope.wide sc then s.dropClean core else s

/-! ### What precedes a memory instruction -/

/-- A request that writes in another package. -/
def RemoteFor.writes (w : RemoteFor) (gid : Nat) : Bool :=
  match w with
  | .write g _ => g == gid
  | .scmWrite g _ => g == gid
  | .atom g _ _ _ _ _ => g == gid
  | .scalar g _ _ _ _ => g == gid
  | .row g _ _ _ _ _ => g == gid
  | _ => false

/-- A write of the group in another package at the line of an address, or bytes that its core wrote back there, is not acknowledged. -/
def Remote.holds (r : Remote) (gid core : Nat) (pa : PAddr) : Bool :=
  match r.what with
  | .row g _ _ _ _ _ => g == gid && r.addr / 1024 == pa / 1024
  | .back c _ => c == core && r.addr / 128 == pa / 128
  | w => w.writes gid && r.addr / 128 == pa / 128

/-- The group's next access to that line waits for it (11 R292). -/
def State.lineOut (s : State) (gid core : Nat) (pa : PAddr) : Bool := s.remotes.any fun r => r.holds gid core pa

/-- The group has writes that are not performed: to other packages, not acknowledged (11 R286), or row updates and multicast
stores on their way. -/
def State.writesOut (s : State) (gid : Nat) : Bool :=
  s.mcasts.any (fun m => m.gid == gid) || s.rowOps.any (fun r => r.gid == some gid) || s.remotes.any fun r => r.what.writes gid
/-- The group has side-log entries. -/
def State.logs (s : State) (gid : Nat) : Bool := s.sideLog.any fun e => e.gid == gid
/-- A read of an earlier word has no value yet (11 R294). A logged `ATOM` holds up no access to another page (13 R350). -/
def Group.readsOut (g : Group) : Bool := g.pend.any fun p => match p.by_ with | .remote _ => true | .row _ => true | _ => false
/-- A lane of a logged `ATOM` has no value yet. -/
def Group.logsOut (g : Group) : Bool := g.pend.any fun p => match p.by_ with | .log _ => true | _ => false
/-- What holds later memory words of the group: an acquiring read that has not returned (11 R289), an `.sc` write that is not performed
(11 R296), and the own-package copy of an
`STM`, which its later accesses must find (06 R190, 11 R292). -/
def State.acquiring (s : State) (gid : Nat) : Bool :=
  (s.remotes.any fun r => r.acquire && match r.what with
    | .load g _ _ _ _ _ => g == gid
    | .atom g _ _ _ _ _ => g == gid
    | .scalar g _ _ _ _ => g == gid
    | .row g _ _ _ _ _ => g == gid
    | .write g _ => g == gid
    | .scmWrite g _ => g == gid
    | _ => false)
  || s.rowOps.any (fun r => r.acquire && r.gid == some gid)
  || s.mcasts.any fun m => m.gid == gid && match m.left with
    | none => (((s.ctx m.ctx).mcast.filter fun e => e.1 == m.entry).any fun e => e.2.getLsbD s.own)
    | some left => left.contains s.own

/-- Something that the group did before is not yet performed: what a release by another word than an access waits for (11 R290,
R291). -/
def State.unsettled (s : State) (gid : Nat) (g : Group) : Bool :=
  s.acquiring gid || s.logs gid || s.writesOut gid || g.readsOut

/-- The trap of stores that a group lost, and the group with that loss delivered (06 R194, 13 Table 13.10). -/
def Group.storeLost? (g : Group) : Option (TrapInfo × Group) :=
  match g.lost with
  | [] => none
  | l :: ls => some ({ code := tcStoreLost, s58 := 4096 * l.page, s59 := l.count, s60 := l.status },
      { g with lost := ls })

/-- What precedes a memory word's effect: pending registers; for a release the wait of R193 and `STORE_LOST`; deferred
marks; for a write the wait of R294. `sc`: a read that takes part in the order of R296 comes after the group's writes. -/
def State.readyMem (s : State) (gid : Nat) (g : Group) (reads : List (RegRef × Word32)) (writes : List RegRef)
    (rel write : Bool) (k : State) (sc : Bool := false) : State :=
  if g.anyPending (refsOf reads ++ writes) then s.block
  else if s.acquiring gid then s.stall
  else if (rel || sc) && (s.logs gid || s.writesOut gid) then s.stall
  else match (if rel then g.storeLost? else none) with
    | some (t, g1) => s.trap gid g1 t
    | none =>
      let k1 := if write && g.readsOut then s.stall else k
      match g.deferred? reads with
      | some t => s.deferOr gid g t k1
      | none => k1

/-- What precedes the issue of an engine or Kiosk operation, which is a release of the group's earlier accesses (06 R181,
07 R213, 11 R294, 13 R350). -/
def State.readyIssue (s : State) (gid : Nat) (g : Group) (reads : List (RegRef × Word32)) (writes : List RegRef)
    (k : State) : State :=
  if g.anyPending (refsOf reads ++ writes) then s.block
  else if s.acquiring gid || s.logs gid || s.writesOut gid then s.stall
  else
    let k1 := if g.readsOut then s.stall else k
    match g.deferred? reads with
    | some t => s.deferOr gid g t k1
    | none => k1

/-- `MISALIGNED` of the lanes `bad`, lowest first (06 R154). -/
def misaligned (bad : List (Nat × Nat)) : TrapInfo :=
  { code := tcMisaligned, lanes := maskOf fun l => bad.any fun p => p.1 == l, s58 := (bad.headD (0, 0)).2 }

/-- The address of a lane of class 010 (04 R81). -/
def Group.addrOf (g : Group) (a : MArgs) (l : Nat) : Nat :=
  let base := g.v64 a.a.toNat l
  if a.off then wrap 57 (base.toNat + a.b.toInt * (Width.bytes a.width : Nat))
  else wrap 57 (base.toNat + (g.v a.b.toNat l).toInt * (Width.bytes a.width : Nat))

/-- Registers that a datum of a width occupies (06 R160). -/
def dataRegs (w : Width) : Nat := match w with | .w64 => 2 | .w128 => 4 | _ => 1
/-- `v`n to `v`n+k-1. -/
def vrange (n k : Nat) : List RegRef := (List.range k).map fun j => .v (n + j)
/-- Reads of registers in some lanes. -/
def readsIn (rs : List RegRef) (m : Word32) : List (RegRef × Word32) := rs.map fun r => (r, m)
/-- The registers that form an address of class 010. -/
def addrRegs (a : MArgs) : List RegRef := vrange a.a.toNat 2 ++ (if a.off then [] else [.v a.b.toNat])

/-- The bytes of a datum in registers from `n` in a lane. -/
def Group.dataBytes (g : Group) (n : Nat) (w : Nat) (l : Nat) : List Byte :=
  leBytes w (((List.range ((w + 3) / 4)).map fun j => (g.v (n + j) l).toNat * 2 ^ (32 * j)).sum)

/-- Write a datum into registers from `n` in one lane, zero-extended to whole registers. -/
def Group.putData (g : Group) (n l : Nat) (bs : List Byte) : Group :=
  let v := leValue bs
  (List.range ((bs.length + 3) / 4)).foldl
    (fun g j => g.setV (n + j) (BitVec.ofNat 32 (2 ^ l)) fun _ => BitVec.ofNat 32 (v / 2 ^ (32 * j))) g

/-- Mark one lane of some registers. -/
def Group.markLane (g : Group) (n k l : Nat) (m : Mark) : Group :=
  { g with marks := (g.marks.filter fun x => x.scalar || x.lane != l || !((List.range k).map (g.wbase + n + ·)).contains x.reg)
      ++ (List.range k).map fun j => { m with scalar := false, reg := g.wbase + n + j, lane := l } }
/-- Mark a scalar register. -/
def Group.markScalar (g : Group) (n : Nat) (m : Mark) : Group :=
  { g with marks := (g.marks.filter fun x => !x.scalar || x.reg != n) ++ [{ m with scalar := true, reg := n, lane := 0 }] }

/-- A poison mark: the address and the word of the load (06 R156). -/
def poisonMark (addr word peer : Nat) : Mark :=
  { scalar := false, reg := 0, lane := 0, kind := .poison, addr := addr, aux := word, peer := peer }

/-! ### Translation of the lanes of a word -/

/-- The outcome of translating several addresses in order. -/
inductive TrLanes where
  | ok (xs : List (Nat × Nat × Xlat)) (s : State)
  /-- the lanes that failed: lane, address, status, level; and those that did not -/
  | fail (bad : List (Nat × Nat × Nat × Nat)) (good : List (Nat × Nat × Xlat)) (s : State)
  | wait (s : State)
  deriving DecidableEq, Repr

/-- Translate the addresses of some lanes in the core's TLBs. -/
def State.translateLanes (s : State) (core ctx : Nat) (sup : Bool) (need : Need) : List (Nat × Nat) → TrLanes
  | [] => .ok [] s
  | (l, va) :: rest =>
    match s.translate (coreTlbs core) ctx sup need va with
    | .wait s' => .wait s'
    | .fail st lv _ s1 => match s1.translateLanes core ctx sup need rest with
      | .ok xs s2 => .fail [(l, va, st, lv)] xs s2
      | .fail bad good s2 => .fail ((l, va, st, lv) :: bad) good s2
      | .wait s' => .wait s'
    | .ok x s1 => match s1.translateLanes core ctx sup need rest with
      | .ok xs s2 => .ok ((l, va, x) :: xs) s2
      | .fail bad good s2 => .fail bad ((l, va, x) :: good) s2
      | .wait s' => .wait s'

/-- A group holds side-log entries on the page of one of the addresses (13 R350). -/
def State.logsPage (s : State) (gid : Nat) (vas : List Nat) : Bool :=
  s.sideLog.any fun e => e.gid == gid && vas.any fun va => e.addr / 4096 == va % 2 ^ 57 / 4096

/-- A later access of a group to a page on which it holds side-log entries waits as a faulting one does, on the page request
that is out (13 R350, R352). -/
def State.holdLog (s : State) (gid : Nat) (g : Group) (kind : Nat) (lanes : List (Nat × Nat)) (scalar : Bool) : State :=
  match lanes.find? fun p => s.logsPage gid [p.2] with
  | none => s.stall
  | some (_, va) =>
    let page := va % 2 ^ 57 / 4096
    let m := if scalar then g.atIssue else maskOf fun l => lanes.any fun p => p.1 == l && p.2 % 2 ^ 57 / 4096 == page
    if s.requested (s.ctxOf g) page then
      s.putGroup gid { g.begin s.clock with hold := .page (va % 2 ^ 57) kind (s.walk (s.ctxOf g) (va % 2 ^ 57)).last m g.issue }
    else s.stall

/-- Hold the group on the lowest lane that failed, with the lanes on its page. -/
def State.holdLanes (s : State) (gid : Nat) (g : Group) (kind : Nat) (bad : List (Nat × Nat × Nat × Nat)) : State :=
  match bad with
  | [] => s.stall
  | (_, va, st, lv) :: _ => s.holdPage gid g va kind st lv
      (maskOf fun l => bad.any fun b => b.1 == l && b.2.1 % 2 ^ 57 / 4096 == va % 2 ^ 57 / 4096)

/-- The local addresses that some lanes touch in this package. -/
def localSpan (w : Nat) (xs : List (Nat × Nat × Xlat)) : List Nat :=
  (xs.filter fun x => x.2.2.kind != 2).flatMap fun x => span (locOf x.2.2.pa) w

/-! ### Local accesses -/

/-- The step that stores of a group carry (16 R396). -/
def State.stepOf (s : State) (g : Group) : Word64 := (s.ctx (s.ctxOf g)).step

/-- What a read gives: the bytes, and whether a beat was poisoned. -/
structure ReadOut where
  bytes : List Byte
  bad : Bool
  deriving DecidableEq, Repr

/-- A core's L1 serves a load itself (06 R161, 12 R310). -/
def State.l1Serves (s : State) (core : Nat) (x : Xlat) (n : Nat) (sc : Scope) : Bool :=
  x.attr == 0 && !Scope.wide sc && match aget s.l1 (core, x.key) with
    | some l => (List.range n).all fun k => l.valid.getLsbD (locOf x.pa % 128 + k)
    | none => false

/-- A copy of the line lies in the L2 of the core's die, or of the home die. -/
def State.inL2 (s : State) (core line : Nat) : Bool :=
  (aget s.l2 (core / 64, s.lineKey line)).isSome || (aget s.l2 (homeDie (128 * line), s.lineKey line)).isSome

/-- A core reads a line that its L1 does not serve, through L2 or, with attribute 010, at the home (12 R316, 13 Table 13.3); where
no L2 holds it, its channel is asked (12 R313). -/
def State.l2Read (s : State) (core : Nat) (x : Xlat) (prio cls : Nat) (lur : Bool) : State :=
  let line := locOf x.pa / 128
  let s1 := s.recallExclusive core line
  let s2 := if s1.inL2 core line then s1 else s1.request core cls (locOf x.pa) false lur x.ctx
  if x.attr ≤ 1 then s2.l2Access core line false prio else s2.dieTake (homeDie (128 * line)) line false

/-- A core writes at the home slice of a line: no other copy stays (11 R286, 12 R320, 13 Table 13.3). A read-modify-write (`rmw`) reads
its memory as well. -/
def State.l2Write (s : State) (core : Nat) (x : Xlat) (n prio cls : Nat) (lur : Bool) (rmw : Bool := false) : State :=
  let line := locOf x.pa / 128
  let s1 := ((s.recallExclusive core line).dirTake (span (locOf x.pa) n)).request core cls (locOf x.pa) true lur x.ctx (plain := !rmw)
  if x.attr ≤ 1 then s1.l2Use (homeDie (128 * line)) (s1.lineKey line) prio else s1

/-- The core's own dirty bytes of a line. -/
def State.ownDirty (s : State) (core line : Nat) : BitVec 128 :=
  match aget s.l1 (core, line) with
  | some l => l.dirty
  | none => 0

/-- A load of a core (06 R161, 11 R286, 12 R310) in a service class: an attribute-000 line may be served from L1 below die scope;
the core's own dirty bytes are always seen. -/
def State.loadAt (s : State) (core : Nat) (x : Xlat) (n : Nat) (sc : Scope) (prio : Nat) (cls : Nat) (lur : Bool := false) :
    ReadOut × State :=
  let a := locOf x.pa
  let line := a / 128
  if placeOf a == .host then ({ bytes := readBytes s.mem a n, bad := s.isBad (span a n) }, s)
  else
    let off := (List.range n).map fun k => a % 128 + k
    let l := agetD s.l1 (core, line) { data := [], valid := 0, dirty := 0 }
    if s.l1Serves core x n sc then
      ({ bytes := off.map fun k => l.data.getD k 0, bad := false },
        { s with l1 := aset s.l1 (core, line) { l with prio := prio, used := s.clock } })
    else
      let own := s.ownDirty core line
      -- a fill takes the whole line, and verifies what it takes (17 R413)
      let s1 := ((if x.attr == 0 then s else s.writeBackLine core line).l2Read core x prio cls lur).verify (byCore core x.ctx)
        (if x.attr == 0 then span (128 * line) 128 else span a n)
      let s2 := if x.attr == 0 then s1.l1Fill core line prio false else s1
      let fromHome := s2.readHome a n
      ({ bytes := (List.range n).map fun k => if own.getLsbD (a % 128 + k) then l.data.getD (a % 128 + k) 0 else fromHome.getD k 0
         bad := s1.isBad ((span a n).filter fun y => !own.getLsbD (y % 128)) }, s2)

/-- A store of a core (06 R161, 12 R310, 13 Table 13.3, 16 R393). -/
def State.storeAt (s : State) (core : Nat) (x : Xlat) (bs : List Byte) (direct : Bool) (prio : Nat) (gid : Nat)
    (vpage : Nat) (tag : Word64) (cls : Nat) (lur : Bool := false) : State :=
  let a := locOf x.pa
  let line := a / 128
  let cells := (List.range bs.length).map fun k => (a + k, bs.getD k 0)
  let w : HomeWrite := { cells := cells, gid := some gid, tag := tag, through := x.pt, vpage := vpage }
  if placeOf a == .host then s.homeWrite w
  else if !direct && x.attr == 0 && !x.pt && !s.inRegion a && !inFirmware a && !s.withdrawn a then
    let s1 := (s.recallExclusive core line).l1Store core line prio cells (gid, vpage, tag)
    if placeOf a == .scm then
      s1.updGroup gid fun g => { g with scmDirty := (cells.map (·.1 / 64)).foldl addSet g.scmDirty }
    else s1
  else
    let s1 := ((s.writeBackLine core line).l2Write core x bs.length prio cls lur).l1Patch core line cells prio
    -- the halves of a 128-bit datum are two stores (11 R292, R306)
    if bs.length != 16 || cells.any fun c => inFirmware c.1 || s1.withdrawn c.1 then s1.homeWrite w
    else s1.homeHalves w

/-- A read-modify-write at the home slice, or in an L1 that takes the line exclusively (06 R171, 12 R311): the old bytes,
whether they are poisoned, and the state; nothing is written when they are. -/
def State.rmwAt (s : State) (core : Nat) (x : Xlat) (n : Nat) (sc : Scope) (gid vpage : Nat) (tag : Word64)
    (f : Nat → Option Nat) (cls : Option Nat := none) : ReadOut × State :=
  let svc := cls.getD (s.svcOf gid)
  let a := locOf x.pa
  let line := a / 128
  if placeOf a == .host then
    let old := readBytes s.mem a n
    if s.isBad (span a n) then ({ bytes := old, bad := true }, s)
    else ({ bytes := old, bad := false }, match f (leValue old) with
      | some v => s.homeWrite { cells := (List.range n).map fun k => (a + k, (leBytes n v).getD k 0), gid := some gid }
      | none => s)
  else
    let keep := !Scope.wide sc && x.attr == 0 && !x.pt && !s.inRegion a && !inFirmware a && !s.withdrawn a
    let s0 := (s.writeBackLine core line).recallExclusive core line
    let s1 := if keep then (s0.request core svc a true false x.ctx).l2Access core line true 1
      else s0.l2Write core x n 1 svc false (rmw := true)
    -- a fill takes the whole line, and verifies what it takes (17 R413)
    let s2 := s1.verify (byCore core x.ctx) (if keep then span (128 * line) 128 else span a n)
    let old := s2.readHome a n
    if s2.isBad (span a n) then ({ bytes := old, bad := true }, s2)
    else
      let here := fun (bs : List Byte) => (List.range n).map fun k => (a + k, bs.getD k 0)
      let s3 := match f (leValue old) with
        | some v =>
          let cells := here (leBytes n v)
          (s2.l1Patch core line cells 1).homeWrite { cells := cells, gid := some gid, tag := tag, through := x.pt, vpage := vpage }
        | none => s2.l1Patch core line (here old) 1
      ({ bytes := old, bad := false }, if keep then s3.l1Fill core line 1 true else s3)

/-! ### Requests to other packages (12 R329, R330) -/

/-- The header of a request of a group to the owner of an address. -/
def State.header (s : State) (g : Group) (pa : PAddr) (op svc : Nat) : Packet :=
  let c := s.ctxOf g
  { dest := pkgOf pa, src := s.own, cls := 0, op := op, svc := svc, ctx := c, xgen := (s.ctx c).xgen.toNat,
    agent := s.coreOf g, addr := pa }

/-- Laser `l` of a fibre in the even plan (12 R326). -/
def evenChannel (f l : Nat) : Nat := 1 + (4 * f + l) % 63
/-- The plan entry in force of a fibre. -/
def evenEntry (f : Nat) : Word64 :=
  BitVec.ofNat 64 (((List.range 4).map fun l => evenChannel f l * 2 ^ (8 * l) + evenChannel f l * 2 ^ (32 + 8 * l)).sum)

/-- A packet of package `j` reaches a receiver that is tuned to its channel (01 R18, R20). -/
def State.hears (s : State) (j : Nat) : Bool :=
  (List.range 512).any fun f => (List.range 4).any fun l =>
    (j + field (agetD s.planApplied f (evenEntry f)).toNat (32 + 8 * l) 6) % 64 == s.own

/-- The header names the package that sent it, not one that it was passed on for. -/
def Packet.direct (p : Packet) : Bool :=
  !(p.cls == 3 && p.op % opPart == opChase || p.cls == 4 && p.op % opPart == opRowUpdate)

/-- The number of data flits is that of the data, and at most eight (12 R330). -/
def Packet.framed (p : Packet) : Bool := p.flits == (p.data.length + 31) / 32 && decide (p.data.length ≤ flitBytes)

/-- The packet that a part belongs to, as far as every part of it says. -/
def Packet.whole (p : Packet) : Packet := { p with op := p.op - opPart, flits := 0, check := 0, data := [] }

/-- The packet whose parts are all there, its data in their order (log 15). -/
def joinParts (p : Packet) (parts : List Packet) : Option Packet :=
  let n := ((p.data.getD 1 0).toNat)
  let pick := fun (k : Nat) => parts.find? fun q => (q.data.getD 0 0).toNat == k
  if (List.range n).all fun k => (pick k).isSome then
    some { p.whole with data := (List.range n).flatMap fun k => ((pick k).map fun q => q.data.drop 2).getD [] }
  else none

/-- Serve a packet whose header is accepted; any other is discarded with an event. One that no receiver hears does not arrive. A part is
kept until the others of its packet have come. -/
def State.receive (s : State) (known : List (Nat × Nat)) (k : State → Packet → State) : Host.Outcome State Fault Refusal :=
  let p := s.input.pkt
  .next <|
    if p.direct && !s.hears p.src then s.stall
    else if !p.framed || !p.checkOk || p.reserved != 0 || !known.contains (p.cls, p.op % opPart) then
      s.post { kind := .fabricProtocol, args := [p.src] }
    else if p.op < opPart then k s p
    else
      let mine := fun (q : Packet) => q.whole == p.whole
      match joinParts p (s.parts.filter mine ++ [p]) with
      | none => { s with parts := s.parts ++ [p] }
      | some q =>
        let s1 := k { s with parts := s.parts.filter fun q => !mine q } q
        if s1.stalled then { s1 with parts := s.parts } else s1

/-- Registers kept pending by a request. -/
def Group.pendRegs (g : Group) (rs : List RegRef) (b : PendBy) : Group :=
  { g with pend := g.pend ++ rs.map fun r => match r with
      | .v n => { scalar := false, reg := g.wbase + n, by_ := b }
      | .s n => { scalar := true, reg := n, by_ := b } }

/-- Registers that no operation keeps pending any more. -/
def Group.unpend (g : Group) (b : PendBy) : Group := { g with pend := g.pend.filter fun p => p.by_ != b }

/-- Change the group in the state after sending a request that keeps registers pending. -/
def State.askPending (s : State) (gid : Nat) (p : Packet) (what : RemoteFor) (rs : List RegRef)
    (acquire : Bool := false) (also : List Nat := []) : State :=
  (s.updGroup gid fun g => g.pendRegs rs (.remote s.freeTag)).ask p what acquire also

/-! ### The side log (13 R349) -/

/-- The entries in use of a core's log. -/
def State.logUsed (s : State) (core : Nat) : Nat := (s.sideLog.filter fun e => e.core == core).length

/-- Retire faulting lanes into the side log, if it has room, and send their page requests. -/
def State.logLanes (s : State) (gid : Nat) (g : Group) (kind : Nat) (bad : List (Nat × Nat × Nat × Nat))
    (entry : Nat → Nat → LogEntry) : Option State :=
  let core := s.coreOf g
  let batch := s.fresh.1
  if 512 < s.logUsed core + bad.length then none
  else bad.foldl (fun (acc : Option State) b =>
    match acc with
    | none => none
    | some s => match s.pageRequest (s.ctxOf g) b.2.1 kind b.2.2.1 b.2.2.2 gid with
      | none => none
      | some s1 =>
        let (id, s2) := s1.fresh
        some { s2 with sideLog := s2.sideLog ++
          [{ entry b.1 b.2.1 with id := id, batch := batch, word := g.issue, origin := g.origin, fault := (kind, b.2.2.1, b.2.2.2)
                                  last := (s.walk (s.ctxOf g) (b.2.1 % 2 ^ 57)).last }] }) (some s)

/-- The word is done: the stored group advances. -/
def State.advanceGroup (s : State) (gid : Nat) : State :=
  s.updGroup gid fun g => { g.advance with lastIssue := g.issuedAt s.clock, begun := false }

end Sys2Proof.Machine
end

