-- ==== Sys2Proof/Machine/Away.lean ====
section
/-!
DEFINITION. Lines of other packages in the caches of this one: loads through L1 and the L2 of the core's die, stores that stay in L1, and
atomics that take the line exclusively (12 R310, R311, R316, R320, R321; 13 Table 13.3; log 50).
-/
namespace Sys2Proof.Machine

/-- A page of HBM or SCM of another package that the L2s of this one may hold: no endpoint's, and not attribute 010 (01 R24, 13 Table
13.3). -/
def State.cachesAway (s : State) (x : Xlat) : Bool :=
  x.kind == 2 && decide (x.attr ≤ 1) && s.isMember (pkgOf x.pa) && !s.isEndpoint (pkgOf x.pa)

/-- An atomic of this scope takes the line exclusively (12 R311). Lines of SCM, whose writes must reach a persist queue, and those of a
package known unreachable are left to their home (log 50). -/
def State.takesAway (s : State) (sc : Scope) (x : Xlat) : Bool :=
  s.cachesAway x && x.attr == 0 && !x.pt && placeOf (locOf x.pa) == .hbm && !Scope.wide sc && !s.unreachable.contains (pkgOf x.pa)

/-- A plain store that stays in L1 (12 R310, 13 Table 13.3). -/
def State.storesAway (s : State) (order : Order) (x : Xlat) : Bool :=
  s.cachesAway x && x.attr == 0 && !x.pt && order == .rlx

/-! ### The agent's copy -/

/-- The bytes and poisoned beats that the L2 of a die holds of a line of another package. -/
def State.agentHas (s : State) (die key : Nat) : Option (List Byte × List Nat) :=
  let l := s.agentLine die key
  if l.st == .inv || l.data.length != 128 then none else some (l.data, l.spoiled)

/-- It is the only copy, and may be written. -/
def State.agentOwns (s : State) (die key : Nat) : Bool :=
  let l := s.agentLine die key
  (l.st == .excl || l.st == .modified) && l.data.length == 128 && l.waiting.isNone

/-- The L2 of a die asks for a line of another package: to read it, or to own it for the word `due` (12 R316, R320). It waits where its
set has no room, or an earlier request or eviction of the line is not over. -/
def State.fetchAway (s : State) (die key prio : Nat) (write : Bool) (due : Holder) : State :=
  let l := s.agentLine die key
  let held := l.st != .inv
  let noRoom := s.l2Full die key && (s.l2Victim die key).isNone
  if l.waiting.isSome || l.buffer.isSome || noRoom || (held && !write) then s
  else
    let op : CohOp := if !write then .getS else if held then .upg else .getM
    let s1 := (s.l2Use die key prio).setAgent die key { l with waiting := some op, due := if write then due else l.due }
    { s1 with msgs := s1.msgs ++ [{ op := op, line := 128 * key, src := 4 * s.own + die, dst := homeAgent }] }

/-! ### Loads -/

/-- Bytes from `o` of a line's data, and whether a beat of them is poisoned; the L1's own dirty bytes come first. -/
def State.sliceAway (s : State) (core : Nat) (x : Xlat) (n : Nat) (bs : List Byte) (bad : List Nat) : ReadOut :=
  let l := agetD s.l1 (core, x.key) { data := [], valid := 0, dirty := 0 }
  let off := (List.range n).map fun k => x.pa % 128 + k
  { bytes := off.map fun o => if l.dirty.getLsbD o then l.data.getD o 0 else bs.getD o 0
    bad := off.any fun o => !l.dirty.getLsbD o && bad.contains (o / 32) }

/-- What a core reads of a line of another package without asking for it: what its L1 serves, else what the L2 of its die holds, which
fills L1 where the page allows it (06 R161, 12 R316, 13 Table 13.3). -/
def State.readAway (s : State) (core : Nat) (x : Xlat) (n : Nat) (sc : Scope) (prio : Nat) : Option (ReadOut × State) :=
  let key := x.pa / 128
  if !s.cachesAway x then none
  else if s.l1Serves core x n sc then
    let l := agetD s.l1 (core, x.key) { data := [], valid := 0, dirty := 0 }
    some (s.sliceAway core x n l.data [], { s with l1 := aset s.l1 (core, x.key) { l with prio := prio, used := s.clock } })
  else
    let s1 := s.recallAway (core / 64) key core
    match s1.agentHas (core / 64) key with
    | none => none
    | some (bs, bad) =>
      let s2 := s1.l2Use (core / 64) key prio
      some (s2.sliceAway core x n bs bad, if x.attr == 0 then s2.l1FillWith core x.key prio false bs bad else s2)

/-- A load waits for the L2 of the die to hold the line: its registers stay pending on a request that has no packet of its own. -/
def State.awaitLine (s : State) (gid : Nat) (core : Nat) (x : Xlat) (prio : Nat) (what : RemoteFor) (rs : List RegRef) (acquire : Bool)
    (also : List Nat) : State :=
  let tag := s.freeTag
  let s1 := s.updGroup gid fun g => g.pendRegs rs (.remote tag)
  ({ s1 with remotes := s1.remotes ++
      [{ tag := tag, peer := pkgOf x.pa, addr := x.pa, what := what, acquire := acquire, also := also
         line := some { die := core / 64, attr := x.attr, prio := prio } }] } : State).fetchAway (core / 64) (x.pa / 128) prio false []

/-! ### Accesses that go to the home -/

/-- The core's L1 gives up its copy of a line of another package, writing its dirty bytes back first. -/
def State.flushAway (s : State) (core : Nat) (x : Xlat) : State := (s.writeBackLine core x.key).dropLine core x.key

/-- Accesses of a group to other packages that their homes perform come after what the group and its core wrote there before (11 R292). -/
def State.whenAway (s : State) (gid core : Nat) (xs : List Xlat) (k : State → State) : State :=
  let away := xs.filter fun x => x.kind == 2
  let s1 := away.foldl (fun (s : State) x => s.flushAway core x) s
  if away.any fun x => s1.lineOut gid core x.pa then s1.stall else k s1

/-- A load of lines of other packages comes after the group's and the core's own writes to them (11 R292). -/
def State.whenRead (s : State) (gid core : Nat) (xs : List Xlat) (k : State) : State :=
  if xs.any fun x => x.kind == 2 && s.lineOut gid core x.pa then s.stall else k

/-- A store of a group to another package, with an order: it stays in L1 where it may (12 R310), else its home performs it. -/
def State.storeAway (s : State) (gid : Nat) (g : Group) (x : Xlat) (bs : List Byte) (order : Order) (prio cls vpage : Nat) : State :=
  let core := s.coreOf g
  let tag := s.stepOf g
  let scm := placeOf (locOf x.pa) == .scm && !s.isEndpoint (pkgOf x.pa)
  if s.storesAway order x then
    (s.recallAway (core / 64) (x.pa / 128) core).l1Store core x.key prio
      ((List.range bs.length).map fun k => (x.pa % 128 + k, bs.getD k 0)) (gid, vpage, tag)
  else s.ask { s.header g x.pa opWrite cls with opdata := bs.length, data := writeData bs tag }
    (if scm then .scmWrite gid vpage else .write gid vpage) (order == .sc)

/-! ### Exclusive lines (12 R311) -/

/-- Go on once the L2 of the die owns every line of a list; the lines that it has are kept for the word until then (log 50). -/
def State.whenOwned (s : State) (core prio : Nat) (keys : List Nat) (k : State) : State :=
  let die := core / 64
  let free := fun (e : (Nat × Nat) × AgentLine) =>
    if e.1.1 == die && keys.contains e.1.2 && e.2.due == s.asker then (e.1, { e.2 with due := [] }) else e
  match keys.find? fun key => !s.agentOwns die key with
  | none => if k.stalled then k else { k with agents := k.agents.map free }
  | some key =>
    let kept := (keys.filter fun key => s.agentOwns die key).foldl (fun (s : State) key =>
      s.setAgent die key { s.agentLine die key with due := s.asker }) s
    (kept.fetchAway die key prio true s.asker).stall

/-- A read-modify-write on a line of another package that the die owns; the core's L1 takes the line exclusively (12 R311). The old bytes,
whether they are poisoned, and the state; nothing is written when they are. -/
def State.rmwAway (s : State) (core : Nat) (x : Xlat) (n : Nat) (f : Nat → Option Nat) : ReadOut × State :=
  let die := core / 64
  let key := x.pa / 128
  let s1 := s.recallAway die key core
  let mine := match aget s1.l1 (core, x.key) with
    | some l => l.cells 0
    | none => []
  let s2 : State := { s1.agentMerge die key mine with l1 := aupd s1.l1 (core, x.key) fun l => { l with dirty := 0, by_ := [] } }
  let (bs, bad) := (s2.agentHas die key).getD ([], [])
  let old := s2.sliceAway core x n bs bad
  if old.bad then (old, s2)
  else
    let s3 := match f (leValue old.bytes) with
      | some v => s2.agentMerge die key ((List.range n).map fun k => (x.pa % 128 + k, (leBytes n v).getD k 0))
      | none => s2
    (old, s3.l1FillWith core x.key 1 true ((s3.agentHas die key).getD ([], [])).1 bad)

end Sys2Proof.Machine
end

