-- ==== Sys2Proof/Machine/Memory.lean ====
section
/-!
DEFINITION. Global loads and stores and the cache hints (06 R160, R161, R169, R170; 13 R349).
-/
namespace Sys2Proof.Machine

/-- How the lanes of a word reach lines of other packages: which accesses the home performs by packet, and which take the line
exclusively, with their eviction priority. -/
structure AwayUse where
  home : Xlat → Bool
  own : Xlat → Bool := fun _ => false
  prio : Nat := 1

/-- The lines that the lanes of a word touch are ready: those of other packages after the group's own writes to them (11 R292), and owned
where the word takes them exclusively; those of this package by the directory. A persist-through store comes after the group's logged
stores, which the queue is to take first (11 R305). -/
def State.lanesReady (s : State) (gid : Nat) (g : Group) (w : Nat) (need : Need) (plain : Bool) (u : AwayUse)
    (xs : List (Nat × Nat × Xlat)) (k : State → State) : State :=
  let core := s.coreOf g
  let away := (xs.map fun x => x.2.2).filter fun x => x.kind == 2
  if need == .write && xs.any (fun x => x.2.2.pt || (x.2.2.kind == 1 && s.inRegion (locOf x.2.2.pa))) && s.logs gid then s.stall
  else s.whenAway gid core (away.filter u.home) fun s1 =>
    s1.whenRead gid core away <|
      s1.whenOwned core u.prio (ascending (uniq ((away.filter u.own).map fun x => x.pa / 128))) <|
        s1.whenReady (localSpan w xs) (need == .write) (k s1) plain

/-- Alignment, the hold of R350, translation and readiness of the lines; then the lanes' accesses, or what faulting lanes
do (06 R154). The group is stored, with its chain ended, in the state that `k` and `bad` get. -/
def State.accessLanes (s : State) (gid : Nat) (g : Group) (w : Nat) (need : Need) (kind : Nat) (lanes : List (Nat × Nat)) (u : AwayUse)
    (bad : List (Nat × Nat × Nat × Nat) → List (Nat × Nat × Xlat) → State → State)
    (k : List (Nat × Nat × Xlat) → State → State) : State :=
  let mis := lanes.filter fun p => p.2 % w != 0
  if !mis.isEmpty then s.trap gid g (misaligned mis)
  else if s.logsPage gid (lanes.map Prod.snd) then s.holdLog gid g kind lanes false
  else match s.translateLanes (s.coreOf g) (s.ctxOf g) g.supervisor need lanes with
    | .wait s' => s'
    | .fail bs good s1 => (s1.putGroup gid g).lanesReady gid g w need (kind == akStore) u good (bad bs good)
    | .ok xs s1 => (s1.putGroup gid g).lanesReady gid g w need (kind == akStore) u xs (k xs)

/-- The eviction priority of a word (04 Table 4.5). -/
def prioOf (a : MArgs) : Nat := a.hint.toNat / 4

/-- The lanes of a word that touch the location of one of them (06 R157). -/
def sameLanes (xs : List (Nat × Nat × Xlat)) (t : Xlat) : List (Nat × Nat) :=
  (xs.filter fun y => y.2.2.pa == t.pa).map fun y => (y.1, y.2.1)

/-- What a load lane reads goes into its registers, or marks them. -/
def Group.takeRead (g : Group) (a : MArgs) (l va : Nat) (r : ReadOut) : Group :=
  if r.bad then g.markLane a.d.toNat (dataRegs a.width) l (poisonMark va g.issue 0) else g.putData a.d.toNat l r.bytes

/-- One lane of `LD`, of the lanes `xs`. Lanes that load one location read it once (06 R157). -/
def loadLane (a : MArgs) (gid : Nat) (g : Group) (xs : List (Nat × Nat × Xlat)) (s : State) (x : Nat × Nat × Xlat) : State :=
  let (l, va, t) := x
  let w := Width.bytes a.width
  let core := s.coreOf g
  let regs := vrange a.d.toNat (dataRegs a.width)
  let same := sameLanes xs t
  let cls := s.classOf gid a.svc.toNat
  let take := fun (r : ReadOut) (s1 : State) => s1.updGroup gid fun g => same.foldl (fun g y => g.takeRead a y.1 y.2 r) g
  if same.any (·.1 < l) then s
  else if t.kind == 2 then
    match s.readAway core t w a.scope (prioOf a) with
    | some (r, s1) => take r s1
    | none =>
      let what : RemoteFor := .load gid (g.wbase + a.d.toNat) l w g.issue va
      let also := (same.map Prod.fst).filter (· != l)
      if s.cachesAway t then s.awaitLine gid core t (prioOf a) what regs (Order.isAcq a.order) also
      else s.askPending gid { s.header g t.pa opRead cls with opdata := w } what regs (Order.isAcq a.order) also
  else
    let (r, s1) := s.loadAt core t w a.scope (prioOf a) cls (a.hint.getLsbD 0)
    take r s1

/-- A line leaves the core's L1, and this die's L2 where that copy is not the home; with `discard` their dirty bytes are lost
(06 R158, R170). -/
def State.dropCopies (s : State) (core : Nat) (discard : Bool) (x : Xlat) : State :=
  if 3 ≤ x.kind then s
  else
    let s1 := (if discard then s else s.writeBackLine core x.key).dropLine core x.key
    if x.kind == 2 then s1.putAway (core / 64) (x.pa / 128) discard
    else if homeDie (128 * x.key) == core / 64 then s1 else s1.l2Drop (core / 64) (x.pa / 128) discard

def execLd (a : MArgs) (s : State) : Host.Outcome State Fault Refusal :=
  onGroupPlain s fun gid g =>
    let m := g.active
    let core := s.coreOf g
    s.readyMem gid g (readsIn (addrRegs a) m) (vrange a.d.toNat (dataRegs a.width)) false false (sc := a.order == .sc) <|
      s.accessLanes gid g (Width.bytes a.width) .read akLoad ((lanesOf m).map fun l => (l, g.addrOf a l))
        { home := fun x => !s.cachesAway x }
        (fun bs _ s1 => s1.holdLanes gid g akLoad bs)
        fun xs s1 =>
          s1.whenReleased core (Order.isRel a.order) a.scope fun s1 =>
            let s2 := xs.foldl (loadLane a gid g xs) s1
            let s3 := s2.acqL1 core (Order.isAcq a.order) a.scope
            (if a.hint.getLsbD 1 then xs.foldl (fun s x => s.dropCopies core true x.2.2) s3 else s3).advanceGroup gid

/-- One lane of `ST`, with its data, of the lanes `xs`. Of lanes that store to one location the highest stores (06 R157). -/
def storeLane (a : MArgs) (gid : Nat) (g : Group) (xs : List (Nat × Nat × Xlat)) (s : State) (x : Nat × Nat × Xlat) : State :=
  let (l, va, t) := x
  let w := Width.bytes a.width
  let core := s.coreOf g
  let bs := g.dataBytes a.d.toNat w l
  let cls := s.classOf gid a.svc.toNat
  if (sameLanes xs t).any fun y => l < y.1 then s
  else if t.kind == 2 then s.storeAway gid g t bs a.order (prioOf a) cls (va / 4096)
  else s.storeAt core t bs (a.order != .rlx) (prioOf a) gid (va / 4096) (s.stepOf g) cls (a.hint.getLsbD 0)

/-- The side-log entry of a lane of `ST` (13 R349). -/
def storeEntry (a : MArgs) (s : State) (gid : Nat) (g : Group) (l va : Nat) : LogEntry :=
  { core := s.coreOf g, id := 0, gid := gid, ctx := s.ctxOf g, gen := (s.ctx (s.ctxOf g)).gen.toNat, addr := va % 2 ^ 57
    width := Width.bytes a.width, data := leValue (g.dataBytes a.d.toNat (Width.bytes a.width) l), supervisor := g.supervisor, tag := s.stepOf g
    scope := a.scope, cls := s.classOf gid a.svc.toNat, prio := prioOf a }

def execSt (a : MArgs) (s : State) : Host.Outcome State Fault Refusal :=
  onGroupPlain s fun gid g =>
    let m := g.active
    let core := s.coreOf g
    let rel := Order.isRel a.order
    s.readyMem gid g (readsIn (vrange a.d.toNat (dataRegs a.width) ++ addrRegs a) m) [] rel true <|
      s.accessLanes gid g (Width.bytes a.width) .write akStore ((lanesOf m).map fun l => (l, g.addrOf a l))
        { home := fun x => !s.storesAway a.order x }
        (fun bs good s1 =>
          match (if a.order == .rlx then s1.logLanes gid g akStore bs (storeEntry a s1 gid g) else none) with
          | some s2 => (good.foldl (storeLane a gid g good) s2).advanceGroup gid
          | none => s1.holdLanes gid g akStore bs)
        fun xs s1 =>
          s1.whenReleased core rel a.scope fun s1 =>
            ((xs.foldl (storeLane a gid g xs) s1).acqL1 core (a.order == .sc) a.scope).advanceGroup gid

/-- The outcome of translating the lanes of a hint. -/
inductive Hints where
  | ok (xs : List (Nat × Xlat)) (s : State)
  | wait (s : State)
  deriving DecidableEq, Repr

/-- The lanes of a hint whose addresses translate and lie in HBM or SCM; no page request is sent. A walk that must wait for a table is
taken up again. -/
def State.hintLanes (s : State) (core ctx : Nat) (sup : Bool) : List Nat → Hints
  | [] => .ok [] s
  | va :: rest =>
    match s.translate (coreTlbs core) ctx sup .read va with
    | .ok x s1 => match s1.hintLanes core ctx sup rest with
      | .ok xs s2 => .ok (if x.kind ≤ 2 then (va, x) :: xs else xs) s2
      | .wait s' => .wait s'
    | .fail _ _ _ s1 => s1.hintLanes core ctx sup rest
    | .wait s' => .wait s'

/-- The key of `Group.fills` for a read that a word makes at a virtual address, beside spill positions. -/
def wordKey (va : Nat) : Nat := 2 ^ 58 + va % 2 ^ 57

/-- `PREF` of a line of another package: it goes on once the L2 of the die has the line, which fills L1 under width code 0 where the page
allows it (log 50). A line that it has had once it asks for no more, nor one of a package known unreachable. -/
def State.prefAway (s : State) (gid : Nat) (g : Group) (a : MArgs) (core : Nat) : List (Nat × Xlat) → State → State
  | [], k => k
  | (va, x) :: rest, k =>
    let key := x.pa / 128
    if (aget g.fills (wordKey va)).isSome || !s.cachesAway x || s.unreachable.contains (pkgOf x.pa) then s.prefAway gid g a core rest k
    else if (s.agentHas (core / 64) key).isNone then (s.fetchAway (core / 64) key (prioOf a) false []).stall
    else
      let s1 := s.recallAway (core / 64) key core
      let (bs, bad) := (s1.agentHas (core / 64) key).getD ([], [])
      let s2 := s1.l2Use (core / 64) key (prioOf a)
      let s3 := if a.width == .w8 && x.attr == 0 then s2.l1FillWith core x.key (prioOf a) false bs bad else s2
      (s3.updGroup gid fun h => { h with fills := aset h.fills (wordKey va) ([], none) }).stall

/-- `PREF`: it fills L1 under width code 0, or L2 under code 1, where the page's attribute lets that cache hold the line (06 R169). It
raises no `POISON`: a lane whose address is marked is ignored (log 62). -/
def execPref (a : MArgs) (s : State) : Host.Outcome State Fault Refusal :=
  onGroupPlain s fun gid g =>
    let core := s.coreOf g
    let clean := (lanesOf g.active).filter fun l => (g.deferred? (readsIn (addrRegs a) (BitVec.ofNat 32 (2 ^ l)))).isNone
    if g.anyPending (addrRegs a) then s.block
    else if s.acquiring gid then s.stall
    else match (s.putGroup gid g).hintLanes core (s.ctxOf g) g.supervisor (clean.map (g.addrOf a)) with
      | .wait s' => s'
      | .ok xs s1 =>
        let here := (xs.map Prod.snd).filter fun x => x.kind != 2
        s1.whenReady (here.map fun x => locOf x.pa) false <|
          let fill := fun (s : State) (x : Xlat) =>
            let line := locOf x.pa / 128
            let s2 := if x.attr ≤ 1 then s.l2Read core x (prioOf a) (s.classOf gid a.svc.toNat) (a.hint.getLsbD 0) else s
            if a.width == .w8 && x.attr == 0 then
              (s2.verify (byCore core x.ctx) (span (128 * line) 128)).l1Fill core line (prioOf a) false
            else s2
          let s2 := here.foldl fill s1
          s2.prefAway gid g a core (xs.filter fun x => x.2.kind == 2) (s2.advanceGroup gid)

/-- `DROP`: write back and remove each line, and set the home copy's priority to 0; under `.lu` discard its dirty bytes (06 R170). No packet
carries a priority to a home in another package (log 50). -/
def execDrop (a : MArgs) (s : State) : Host.Outcome State Fault Refusal :=
  onGroupPlain s fun gid g =>
    let m := g.active
    s.readyMem gid g (readsIn (addrRegs a) m) [] false false <|
      let core := s.coreOf g
      match (s.putGroup gid g).hintLanes core (s.ctxOf g) g.supervisor ((lanesOf m).map (g.addrOf a)) with
      | .wait s' => s'
      | .ok xs s1 =>
        let drop := fun (s : State) (x : Nat × Xlat) =>
          let s2 := s.dropCopies core (a.hint.getLsbD 1) x.2
          if x.2.kind == 2 then s2
          else { s2 with l2 := aupd s2.l2 (homeDie (locOf x.2.pa), x.2.pa / 128) fun l => { l with prio := 0 } }
        (xs.foldl drop s1).advanceGroup gid

end Sys2Proof.Machine
end

