-- ==== Sys2Proof/Machine/Atomic.lean ====
section
/-!
DEFINITION. Atomics, compare-and-swap, `MCAS` and signals (06 R171-R173, R177-R180, R200-R202; 13 R349).
-/
namespace Sys2Proof.Machine

/-- The new value of `ATOM` and its flags (06 Table 6.4). -/
def atomNew (op bits : Nat) (origin : BitVec 22) (old d : Nat) : Nat × Flags :=
  let sx := fun (x : Nat) => sext x bits
  let f32 := fun (x : Nat) => Fmt.f32.decode false 0 x
  match op with
  | 0 => ((old + d) % 2 ^ bits, 0)
  | 1 => (if sx old ≤ sx d then old else d, 0)
  | 2 => (if sx d ≤ sx old then old else d, 0)
  | 3 => (min old d, 0)
  | 4 => (max old d, 0)
  | 5 => (old &&& d, 0)
  | 6 => (old ||| d, 0)
  | 7 => (old ^^^ d, 0)
  | 8 => (d, 0)
  | 9 => (if d ≤ old then 0 else old + 1, 0)
  | 10 => (if old == 0 || d < old then d else old - 1, 0)
  | 11 => Fmt.f32.write {} (fadd .rn origin (f32 old) (f32 d))
  | 12 => Fmt.f32.write {} (fminmax false (f32 old) (f32 d))
  | 13 => Fmt.f32.write {} (fminmax true (f32 old) (f32 d))
  | _ =>
    let o := lHalf .bf16 .rn false false (fun x y _ => fadd .rn origin x y)
      { a := BitVec.ofNat 64 old, b := BitVec.ofNat 64 d, origin := origin }
    (o.r.toNat, o.fl)

/-- One lane of `ATOM`, with its operand (06 R171). -/
def atomLane (a : MArgs) (gid : Nat) (g : Group) (s : State) (x : Nat × Nat × Xlat) : State :=
  let (l, va, t) := x
  let w := Width.bytes a.width
  let core := s.coreOf g
  let d := leValue (g.dataBytes a.d.toNat w l)
  let regs := vrange a.d.toNat (dataRegs a.width)
  let new := fun (old : Nat) => some (atomNew a.hint.toNat (8 * w) g.payload old d).1
  if t.kind == 2 && !s.takesAway a.scope t then
    s.askPending gid { s.header g t.pa opAtomic (s.svcOf gid) with
        opdata := a.hint.toNat * 256 + w
        data := writeData (leBytes w d ++ leBytes 4 g.payload.toNat) (s.stepOf g) }
      (.atom gid (g.wbase + a.d.toNat) l w g.issue va) regs (Order.isAcq a.order)
  else
    let (r, s1) := if t.kind == 2 then s.rmwAway core t w new else s.rmwAt core t w a.scope gid (va / 4096) (s.stepOf g) new
    s1.updGroup gid fun g1 =>
      if r.bad then g1.markLane a.d.toNat (dataRegs a.width) l (poisonMark va g.issue 0)
      else (g1.putData a.d.toNat l r.bytes).raise (atomNew a.hint.toNat (8 * w) g.payload (leValue r.bytes) d).2

/-- The side-log entry of a lane of `ATOM`. -/
def atomEntry (a : MArgs) (s : State) (gid : Nat) (g : Group) (l va : Nat) : LogEntry :=
  { storeEntry a s gid g l va with atom := some (a.hint.toNat, g.wbase + a.d.toNat, l) }

/-- The registers of a logged `ATOM` stay pending on each of its entries (13 R350). -/
def State.pendLogged (s : State) (gid : Nat) (before : List LogEntry) (rs : List RegRef) : State :=
  (s.sideLog.filter fun e => !before.contains e).foldl
    (fun s e => s.updGroup gid fun g => g.pendRegs rs (.log e.id)) s

/-- How an atomic of a scope reaches lines of other packages (12 R311). -/
def State.rmwUse (s : State) (sc : Scope) : AwayUse := { home := fun x => !s.takesAway sc x, own := s.takesAway sc }

def execAtom (a : MArgs) (s : State) : Host.Outcome State Fault Refusal :=
  onGroupPlain s fun gid g =>
    let m := g.active
    let core := s.coreOf g
    let regs := vrange a.d.toNat (dataRegs a.width)
    s.readyMem gid g (readsIn (regs ++ addrRegs a) m) regs (Order.isRel a.order) true <|
      s.accessLanes gid g (Width.bytes a.width) .write akAtomic ((lanesOf m).map fun l => (l, g.addrOf a l)) (s.rmwUse a.scope)
        (fun bs good s1 =>
          match (if a.order == .rlx then s1.logLanes gid g akAtomic bs (atomEntry a s1 gid g) else none) with
          | some s2 => ((good.foldl (atomLane a gid g) s2).pendLogged gid s1.sideLog regs).advanceGroup gid
          | none => s1.holdLanes gid g akAtomic bs)
        fun xs s1 =>
          s1.whenReleased core (Order.isRel a.order) a.scope fun s1 =>
            ((xs.foldl (atomLane a gid g) s1).acqL1 core (Order.isAcq a.order) a.scope).advanceGroup gid

/-- One lane of `CAS`: whether it acquired, and the state (06 R172, R173). -/
def casLane (a : MArgs) (gid : Nat) (g : Group) (acc : Bool × State) (x : Nat × Nat × Xlat) : Bool × State :=
  let (l, va, t) := x
  let s := acc.2
  let w := Width.bytes a.width
  let k := dataRegs a.width
  let core := s.coreOf g
  let expd := leValue (g.dataBytes a.d.toNat w l)
  let new := leValue (g.dataBytes (a.d.toNat + k) w l)
  if t.kind == 2 && !s.takesAway a.scope t then
    (acc.1, s.askPending gid { s.header g t.pa opCas (s.svcOf gid) with
        opdata := w, data := writeData (leBytes w expd ++ leBytes w new) (s.stepOf g) }
      (.atom gid (g.wbase + a.d.toNat) l w g.issue va) (vrange a.d.toNat k)
      (Order.isAcq a.order || decide (1 ≤ a.svc.toNat)))
  else
    let swap := fun (old : Nat) => if old == expd then some new else none
    let (r, s1) := if t.kind == 2 then s.rmwAway core t w swap else s.rmwAt core t w a.scope gid (va / 4096) (s.stepOf g) swap
    let hit := leValue r.bytes == expd
    (acc.1 || (!r.bad && (if hit then Order.isAcq a.order else decide (1 ≤ a.svc.toNat))),
      s1.updGroup gid fun g1 =>
        if r.bad then g1.markLane a.d.toNat k l (poisonMark va g.issue 0) else g1.putData a.d.toNat l r.bytes)

def execCas (a : MArgs) (s : State) : Host.Outcome State Fault Refusal :=
  onGroupPlain s fun gid g =>
    let m := g.active
    let core := s.coreOf g
    let k := dataRegs a.width
    s.readyMem gid g (readsIn (vrange a.d.toNat (2 * k) ++ addrRegs a) m) (vrange a.d.toNat k) (Order.isRel a.order) true <|
      s.accessLanes gid g (Width.bytes a.width) .write akAtomic ((lanesOf m).map fun l => (l, g.addrOf a l)) (s.rmwUse a.scope)
        (fun bs _ s1 => s1.holdLanes gid g akAtomic bs)
        fun xs s1 =>
          s1.whenReleased core (Order.isRel a.order) a.scope fun s1 =>
            let (acq, s2) := xs.foldl (casLane a gid g) (false, s1)
            (s2.acqL1 core acq a.scope).advanceGroup gid

/-! ### MCAS (06 R177-R180) -/

/-- `MCAS_SCOPE` with the address of the entry in the block, or the block's (13 Table 13.10). -/
def mcasScope (status addr k : Nat) : TrapInfo := { code := tcMcasScope, status := status, s58 := addr, s59 := k }

/-- Translate single addresses of a word in order; a failure holds the group. -/
def State.translateAll (s : State) (gid : Nat) (g : Group) (need : Need) (kind : Nat) (vas : List Nat)
    (k : List (Nat × Xlat) → State → State) : State :=
  match s.translateLanes (s.coreOf g) (s.ctxOf g) g.supervisor need (vas.map fun va => (0, va)) with
  | .wait s' => s'
  | .fail bs _ s1 => match bs with
    | [] => s1.stall
    | (_, va, st, lv) :: _ => s1.holdPage gid g va kind st lv g.atIssue
  | .ok xs s1 => k (xs.map fun x => (x.2.1, x.2.2)) s1

/-- The reads of `w` bytes that a word makes in other packages, in a service class: each is asked for once, after what the group and its
core wrote there, and the word goes on when all have come. -/
def State.awaitAway (s : State) (gid : Nat) (g : Group) (w : Nat) (xs : List (Nat × Xlat)) (cls : Nat) (k : State → State) : State :=
  let away := xs.filter fun x => x.2.kind == 2 && (aget g.fills (wordKey x.1)).isNone
  if away.isEmpty then k s
  else
    let new := away.filter fun x => !s.remotes.any fun r => r.what == .fill gid (wordKey x.1)
    if new.isEmpty then s.stall
    else (s.putGroup gid g).whenAway gid (s.coreOf g) (new.map Prod.snd) fun s1 =>
      (new.foldl (fun (s : State) x =>
        s.ask { s.header g x.2.pa opRead cls with opdata := w } (.fill gid (wordKey x.1))) s1).stall

/-- A read that a word makes, by its virtual address: in another package what came, else a load of the core. The bytes; and
for a failure the unreachable peer plus 1, or 0 for poison. -/
def State.readOrCame (s : State) (g : Group) (va w : Nat) (x : Xlat) (sc : Scope) (cls : Nat) : (List Byte × Option Nat) × State :=
  match (if x.kind == 2 then aget g.fills (wordKey va) else none) with
  | some r => (r, s)
  | none =>
    let (r, s1) := s.loadAt (s.coreOf g) x w sc 1 cls
    ((r.bytes, if r.bad then some 0 else none), s1)

/-- Read spans of `w` bytes as plain loads of the group, one after another; `POISON` is raised precisely. A span in another
package is asked for, and the word is tried again when it has come. -/
def State.readPlain (s : State) (gid : Nat) (g : Group) (w : Nat) (vas : List Nat) (k : List (List Byte) → State → State) : State :=
  let cls := g.svc.toNat % 4
  s.translateAll gid g .read akLoad vas fun xs s1 =>
    s1.awaitAway gid g w xs cls fun s1 =>
      s1.whenReady (xs.flatMap fun x => if x.2.kind == 2 then [] else span (locOf x.2.pa) w) false <|
        let out := xs.foldl (fun (acc : List (List Byte) × Option (Nat × Nat) × State) x =>
          let ((bs, bad), s2) := acc.2.2.readOrCame g x.1 w x.2 .grp cls
          (acc.1 ++ [bs], acc.2.1.orElse fun _ => bad.map fun p => (x.1, p), s2)) ([], none, s1)
        match out.2.1 with
        | some (va, peer) => out.2.2.trap gid g { code := tcPoison, s58 := va, s59 := g.issue, s60 := peer }
        | none => k out.1 out.2.2

/-- Read `n` 64-bit words from an address (06 R178, R188, R189). -/
def State.readWords (s : State) (gid : Nat) (g : Group) (va n : Nat) (k : List Word64 → State → State) : State :=
  s.readPlain gid g 8 ((List.range n).map fun j => va + 8 * j) fun bs s1 => k (bs.map fun b => BitVec.ofNat 64 (leValue b)) s1

/-- The compare and the writes on translated entries whose lines are locked: the mismatch mask, or the virtual address of a
poisoned line (06 R178, R180). -/
def mcasApply (gid core : Nat) (tag : Word64) (es : List (Nat × Xlat × Word64 × Word64)) (s : State) :
    (Option Nat × Nat) × State :=
  let lines := uniq (es.map fun e => locOf e.2.1.pa / 128)
  let s1 := lines.foldl (fun (s : State) l => (s.dropLine core l).request core (s.svcOf gid) (128 * l) true false (s.ctxOfId gid)) s
  let s2 := s1.verify (byCore core (s.ctxOfId gid)) (lines.flatMap fun l => span (128 * l) 128)
  match es.find? fun e => s2.isBad (span (locOf e.2.1.pa / 128 * 128) 128) with
  | some e => ((some (e.1 / 128 * 128), 0), s2)
  | none =>
    let miss := (List.range es.length).filter fun k => match es[k]? with
      | some e => BitVec.ofNat 64 (leValue (s2.readHome (locOf e.2.1.pa) 8)) != e.2.2.1
      | none => false
    if miss.isEmpty then
      ((none, 0), es.foldl (fun (s : State) e => s.homeWrite
        { cells := (List.range 8).map fun j => (locOf e.2.1.pa + j, (leBytes 8 e.2.2.2.toNat).getD j 0)
          gid := some gid, tag := tag, through := e.2.1.pt, vpage := e.1 / 4096 }) s2)
    else ((none, (miss.map (2 ^ ·)).sum), s2)

/-- `MCAS` (06 R177-R180): the block is read, the checks are made in the order of R178, the lines are locked one after another in
ascending order, and the entries are compared and written under the locks. -/
def execMcas (a : TArgs) (s : State) : Host.Outcome State Fault Refusal :=
  onGroupPlain s fun gid g =>
    let block := (g.s a.a.toNat).toNat
    let core := s.coreOf g
    s.readyMem gid g (readsS [a.a.toNat]) [.s a.d.toNat] true true <|
      if block % 8 != 0 then s.trap gid g { code := tcMisaligned, lanes := allLanes, s58 := block }
      else s.readWords gid g block 1 fun w0 s1 =>
        let word0 := (w0.headD 0).toNat
        let n := word0 % 16
        s1.readWords gid g (block + 8) (3 * n) fun ws s2 =>
          let addr := fun (k : Nat) => (ws.getD (3 * k) 0).toNat
          let ks := List.range n
          if n < 2 || 8 < n || 16 ≤ word0 then s2.trap gid g (mcasScope 3 block 0)
          else match ks.find? fun k => addr k % 8 != 0 with
          | some k => s2.trap gid g { code := tcMisaligned, lanes := allLanes, s58 := addr k }
          | none => s2.translateAll gid g .write akAtomic (ks.map addr) fun xs s3 =>
            match ks.find? fun k => match xs[k]? with | some x => decide (2 ≤ x.2.kind) | none => false with
            | some k => s3.trap gid g (mcasScope 1 (block + 8 + 24 * k) k)
            | none =>
              match ks.find? fun k => (ks.take k).any fun j => addr j % 2 ^ 57 == addr k % 2 ^ 57 with
              | some k => s3.trap gid g (mcasScope 2 (block + 8 + 24 * k) k)
              | none =>
                let es := ks.filterMap fun k => (xs[k]?).map fun x => (addr k, x.2, ws.getD (3 * k + 1) 0, ws.getD (3 * k + 2) 0)
                (s3.putGroup gid g).whenBacked core true fun s4 =>
                  s4.whenTaken [4, gid] (es.flatMap fun e => span (locOf e.2.1.pa) 8) fun s5 =>
                    let ((bad, mask), s6) := mcasApply gid core (s.stepOf g) es s5
                    ((s6.updGroup gid fun g1 => match bad with
                      | some va => g1.markScalar a.d.toNat (poisonMark va g.issue 0)
                      | none => g1.setS a.d.toNat (BitVec.ofNat 64 mask)).dropClean core).advanceGroup gid

/-! ### Signals (06 R200-R202) -/

/-- The address of a signal. -/
def Group.signalAddr (g : Group) (a : MArgs) : Nat :=
  wrap 57 ((g.s a.a.toNat).toNat + a.b.toInt * (Width.bytes a.width : Nat))

/-- A value of `bits` bits, sign-extended. -/
def signExt (bits v : Nat) : Word64 := w64 (sext v bits)

/-- `SIGADD` and `SIGDEC`: `f` gives the new value of the old one and the amount. -/
def runSignal (s : State) (a : MArgs) (dec : Bool) : Host.Outcome State Fault Refusal :=
  onGroupPlain s fun gid g =>
    let w := Width.bytes a.width
    let core := s.coreOf g
    let va := g.signalAddr a
    let amount := (g.s (a.a.toNat + 1)).toNat
    let new := fun (old : Nat) => wrap (8 * w) (if dec then (old : Int) - amount else (old : Int) + amount)
    s.readyMem gid g (readsS [a.a.toNat, a.a.toNat + 1]) [.s a.d.toNat] (Order.isRel a.order) true <|
      if va % w != 0 then s.trap gid g { code := tcMisaligned, lanes := allLanes, s58 := va }
      else if s.logsPage gid [va] then s.holdLog gid g akAtomic [(0, va)] true
      else s.translateAll gid g .write akAtomic [va] fun xs s1 =>
        let x := (xs.headD (0, { pa := 0, kind := 0, pt := false, attr := 0 })).2
        let cls := s.classOf gid a.svc.toNat
        (s1.putGroup gid g).lanesReady gid g w .write false (s1.rmwUse a.scope) [(0, va, x)] fun s1 =>
          s1.whenReleased core (Order.isRel a.order) a.scope fun s2 =>
            if x.kind == 2 && !s2.takesAway a.scope x then
              (s2.askPending gid { s2.header g x.pa opSignal cls with
                  opdata := dec.toNat * 256 + w, data := writeData (leBytes 8 amount) (s.stepOf g) }
                (.scalar gid a.d.toNat w g.issue va) [.s a.d.toNat] (Order.isAcq a.order)).advanceGroup gid
            else
              let (r, s3) := if x.kind == 2 then s2.rmwAway core x w fun old => some (new old)
                else s2.rmwAt core x w a.scope gid (va / 4096) (s.stepOf g) (fun old => some (new old)) (some cls)
              ((s3.updGroup gid fun g1 =>
                  if r.bad then g1.markScalar a.d.toNat (poisonMark va g.issue 0)
                  else g1.setS a.d.toNat (signExt (8 * w) (new (leValue r.bytes)))).acqL1 core (Order.isAcq a.order)
                a.scope).advanceGroup gid

def execSigadd (a : MArgs) (s : State) : Host.Outcome State Fault Refusal := runSignal s a false
def execSigdec (a : MArgs) (s : State) : Host.Outcome State Fault Refusal := runSignal s a true

/-- `SIGWAIT`: one read; the active lanes go on or park (06 R201). -/
def execSigwait (a : MArgs) (s : State) : Host.Outcome State Fault Refusal :=
  onGroupPlain s fun gid g =>
    let w := Width.bytes a.width
    let core := s.coreOf g
    let va := g.signalAddr a
    let cond := a.hint.toNat / 2
    let amount := g.s (a.a.toNat + 1)
    let acq := Order.isAcq a.order
    let cls := s.classOf gid a.svc.toNat
    let parked := fun (g : Group) => { g.skipOthers with fills := [], parks := g.parks ++ (lanesOf g.active).map fun l =>
      { lane := l, pc := g.issue, on := .signal va (w == 8) cond amount a.d.toNat, acquire := acq, scope := a.scope, svc := cls
        since := s.clock } }
    s.readyMem gid g (readsS [a.a.toNat, a.a.toNat + 1]) [.s a.d.toNat] false false <|
      if va % w != 0 then s.trap gid g { code := tcMisaligned, lanes := allLanes, s58 := va }
      else if s.logsPage gid [va] then s.holdLog gid g akLoad [(0, va)] true
      else s.translateAll gid g .read akLoad [va] fun xs s1 =>
        let x := (xs.headD (0, { pa := 0, kind := 0, pt := false, attr := 0 })).2
        s1.awaitAway gid g w [(va, x)] cls fun s1 =>
          s1.whenReady (if x.kind == 2 then [] else span (locOf x.pa) w) false <|
            let ((bs, bad), s2) := (s1.putGroup gid g).readOrCame g va w x .pkg cls
            let v := signExt (8 * w) (leValue bs)
            match bad with
            | some peer => s2.trap gid g { code := tcPoison, lanes := g.active, s58 := va, s59 := g.issue, s60 := peer }
            | none =>
              if condInt cond v.toInt amount.toInt then
                (s2.acqL1 core acq a.scope).done gid (g.setS a.d.toNat v).advance
              else s2.done gid (if g.active == 0 then (g.setS a.d.toNat v).advance else parked g)

end Sys2Proof.Machine
end

