-- ==== Sys2Proof/Machine/Engines.lean ====
section
/-!
DEFINITION. Handles, engine contexts, timelines, and the completion and delivery of engine operations (02 R45, R46;
06 R182; 07 R209-R212).
-/
namespace Sys2Proof.Machine

/-- The context of a handle's code, as the using group resolves it; none counts as complete (02 R45, Table 2.3, 08 R263). -/
def State.codeKey (s : State) (gid : Nat) (g : Group) (code : Nat) : Option EKey :=
  match code with
  | 0x01 => some (.copy gid)
  | 0x02 => some (.kiosk gid)
  | 0x20 => some .snap
  | 0x30 => some (.inval (s.ctxOf g))
  | c =>
    if 0x10 ≤ c && c ≤ 0x13 && (s.recOf g).acc != 0 && (aget (s.team g.team).units (c - 0x10)).isSome then
      some (.seq g.team (c - 0x10))
    else none

/-- Bits [63:56] of a handle. -/
def handleCode (h : Word64) : Nat := h.toNat / 2 ^ 56
/-- Bits [55:0]. -/
def handleSeq (h : Word64) : Nat := h.toNat % 2 ^ 56
/-- A handle of its parts. -/
def mkHandle (code seqNo : Nat) : Word64 := BitVec.ofNat 64 (code * 2 ^ 56 + seqNo)

/-- An engine context. -/
def State.engine (s : State) (k : EKey) : Engine := agetD s.engines k {}
/-- The timeline value (07 R211). -/
def Engine.timeline (e : Engine) : Nat := (minOf e.active).elim e.issued (· - 1)
/-- The operation is issued and complete. -/
def Engine.complete (e : Engine) (n : Nat) : Bool := n ≤ e.issued && !e.active.contains n
/-- The status of a complete operation. -/
def Engine.status (e : Engine) (n : Nat) : Nat := ((e.fails.find? fun f => f.seqNo == n).map Failure.status).getD 0

/-- Issue an operation: its number, and the state (07 R211). -/
def State.openOp (s : State) (k : EKey) (gid : Nat) : Nat × State :=
  let e := s.engine k
  let n := e.issued + 1
  let e1 := { e with issued := n, active := e.active ++ [n], issuers := aset e.issuers n gid }
  (n, { s with engines := aset s.engines k e1 })

/-- Complete an operation: its status and the trap it delivers, and the flags and NaN merged into the issuing group
(05 R153, 07 R209). -/
def State.completeOp (s : State) (k : EKey) (n status : Nat) (trap : Option TrapInfo) (gid : Nat) (fl : Flags)
    (nan : Option (BitVec 22)) : State :=
  let e := s.engine k
  let e1 := { e with
    active := delSet e.active n
    issuers := aerase e.issuers n
    fails := if status == 0 then e.fails else e.fails ++ [{ seqNo := n, status := status, trap := trap, gid := gid }] }
  ({ s with engines := aset s.engines k e1 } : State).updGroup gid fun g => (g.raiseLate fl).noteNan nan

/-- Mark a failure delivered. -/
def State.delivered (s : State) (k : EKey) (n : Nat) : State :=
  { s with engines := aupd s.engines k fun e =>
      { e with fails := e.fails.map fun f => if f.seqNo == n then { f with delivered := true } else f } }

/-- The failure to deliver among the operations of a context that `p` selects: the lowest number first (07 R210). -/
def Engine.undelivered (e : Engine) (p : Nat → Bool) : Option (Nat × TrapInfo) :=
  let fs := e.fails.filter fun f => !f.delivered && f.trap.isSome && p f.seqNo
  (minOf (fs.map Failure.seqNo)).bind fun n =>
    (fs.find? fun f => f.seqNo == n).bind fun f => f.trap.map fun t => (n, t)

/-- A matrix sequencer: its failures are delivered at `MJOIN` or a wait on the handle only (04 R94). -/
def EKey.isSeq : EKey → Bool | .seq _ _ => true | _ => false

/-- The first undelivered failure of an operation that a group issued without a wait (06 R182). -/
def State.owed (s : State) (gid : Nat) : Option (EKey × Nat × TrapInfo) :=
  (s.engines.filter fun e => !e.1.isSeq).findSome? fun e =>
    let mine := { e.2 with fails := e.2.fails.filter fun f => f.gid == gid }
    (mine.undelivered fun _ => true).map fun x => (e.1, x.1, x.2)

/-- A group has operations in progress (07 R236); matrix streams are the team's. -/
def State.futuresOut (s : State) (gid : Nat) : Bool :=
  s.engines.any fun e => !e.1.isSeq && e.2.issuers.any fun i => i.2 == gid

/-- The upkeep of L1 when a wait acquires an operation of a context (06 R161, 07 Table 7.6). -/
def State.acquireOp (s : State) (core : Nat) (k : EKey) : State :=
  match k with
  | .seq _ _ => s
  | _ => s.dropClean core

/-- A wait that has returned: deliver a failure, or go on (07 R210-R212). -/
def State.waited (s : State) (gid : Nat) (g : Group) (k : EKey) (p : Nat → Bool) (f : Group → Group) : State :=
  let s1 := s.acquireOp (s.coreOf g) k
  match (s1.engine k).undelivered p with
  | some (n, t) => (s1.delivered k n).trap gid g t
  | none => s1.done gid (f g)

end Sys2Proof.Machine
end

