-- ==== Sys2Proof/Machine/Scratch.lean ====
section
/-!
DEFINITION. Scratch accesses, full/empty bits and the tag table (06 R162-R168, 08 R264, R265).
-/
namespace Sys2Proof.Machine

/-- The offset of a lane (06 R162). -/
def Group.scratchOff (g : Group) (a : MArgs) (l : Nat) : Nat :=
  let x := (g.v a.a.toNat l).toNat
  if a.off then wrap 32 (x + a.b.toInt * (Width.bytes a.width : Nat))
  else wrap 32 (x + (g.v a.b.toNat l).toInt * (Width.bytes a.width : Nat))

/-- `SCRATCH_BOUND` (13 Table 13.10). -/
def scratchBound (lanes : Word32) (off alloc : Nat) : TrapInfo :=
  { code := tcScratchBound, lanes := lanes, s58 := off, s59 := alloc }

/-- The lanes of a list. -/
def laneMask (xs : List (Nat × Nat)) : Word32 := maskOf fun l => xs.any fun p => p.1 == l

/-- The checks of R162 on the offsets of the active lanes, then the access. -/
def State.checkScratch (s : State) (gid : Nat) (g : Group) (w : Nat) (offs : List (Nat × Nat)) (k : State) : State :=
  let bad := offs.filter fun p => p.2 % w != 0
  let past := offs.filter fun p => s.scratchSize g < p.2 + w
  if !bad.isEmpty then s.trap gid g (misaligned bad)
  else if !past.isEmpty then s.trap gid g (scratchBound (laneMask past) (past.headD (0, 0)).2 (s.scratchSize g))
  else k

/-- Write scratch bytes of a team; a granule written whole is no longer poisoned. -/
def Team.write (t : Team) (off : Nat) (bs : List Byte) : Team :=
  let as := span off bs.length
  { t with
    scratch := writeBytes t.scratch off bs
    spoiled := t.spoiled.filter fun g => (as.filter fun a => a / 16 == g).length < 16 }
/-- Set granules full. -/
def Team.fill (t : Team) (gs : List Nat) : Team := { t with full := gs.foldl addSet t.full }
/-- Set granules empty. -/
def Team.empty (t : Team) (gs : List Nat) : Team := { t with full := t.full.filter fun g => !gs.contains g }

/-- Wake the lanes of a team that wait on a granule that is now full, also those that a trap handler's save set holds: they run
their `LDF` again (06 R164). -/
def State.wakeGranules (s : State) (team : Nat) : State :=
  let full := (s.team team).full
  { s with groups := s.groups.map fun e =>
      if e.2.team == team then
        let waits := fun (p : Park) => match p.on with
          | .granule g => !full.contains g
          | _ => true
        (e.1, { e.2.withParks (e.2.parks.filter waits) with save := e.2.save.map fun v => { v with parks := v.parks.filter waits } })
      else e }

/-- Whether one of some scratch bytes is poisoned. -/
def Team.isBad (t : Team) (off n : Nat) : Bool := (span off n).any fun a => t.spoiled.contains (a / 16)

/-- `POISON` at a read of scratch (17 R419). -/
def scratchPoison (g : Group) (bad : List (Nat × Nat)) : TrapInfo :=
  { code := tcPoison, lanes := laneMask bad, s58 := (bad.headD (0, 0)).2, s59 := g.issue }

def execLds (a : MArgs) (s : State) : Host.Outcome State Fault Refusal :=
  onGroupPlain s fun gid g =>
    let m := g.active
    let w := Width.bytes a.width
    let offs := (lanesOf m).map fun l => (l, g.scratchOff a l)
    s.readyMem gid g (readsIn (.v a.a.toNat :: if a.off then [] else [.v a.b.toNat]) m)
        (vrange a.d.toNat (dataRegs a.width)) false false <|
      s.checkScratch gid g w offs <|
        let t := s.team g.team
        let bad := offs.filter fun p => t.isBad p.2 w
        if !bad.isEmpty then s.trap gid g (scratchPoison g bad)
        else s.done gid (offs.foldl (fun (g : Group) p => g.putData a.d.toNat p.1 (readBytes t.scratch p.2 w)) g).advance

def execSts (a : MArgs) (s : State) : Host.Outcome State Fault Refusal :=
  onGroupPlain s fun gid g =>
    let m := g.active
    let w := Width.bytes a.width
    let offs := (lanesOf m).map fun l => (l, g.scratchOff a l)
    s.readyMem gid g
        (readsIn (vrange a.d.toNat (dataRegs a.width) ++ .v a.a.toNat :: if a.off then [] else [.v a.b.toNat]) m) []
        (Order.isRel a.order) true <|
      s.checkScratch gid g w offs <|
        (s.updTeam g.team fun t => offs.foldl (fun (t : Team) p => t.write p.2 (g.dataBytes a.d.toNat w p.1)) t).done
          gid g.advance

/-- `LDF` lane by lane (06 R164): the lanes that read, with their granules cleared under `.clr`; the others park. -/
def ldfLanes (a : MArgs) (clr : Bool) (w : Nat) : List (Nat × Nat) → Group → Team → Group × Team
  | [], g, t => (g, t)
  | (l, off) :: rest, g, t =>
    if t.full.contains (off / 16) then
      let g1 := (g.putData a.d.toNat l (readBytes t.scratch off w)).setPc (BitVec.ofNat 32 (2 ^ l)) (wordMod (g.pcOf l + 1))
      ldfLanes a clr w rest g1 (if clr then t.empty [off / 16] else t)
    else ldfLanes a clr w rest { g with parks := g.parks ++ [{ lane := l, pc := g.pcOf l, on := .granule (off / 16) }] } t

def execLdf (a : MArgs) (s : State) : Host.Outcome State Fault Refusal :=
  onGroupPlain s fun gid g =>
    let m := g.active
    let w := Width.bytes a.width
    let offs := (lanesOf m).map fun l => (l, g.scratchOff a l)
    s.readyMem gid g (readsIn (.v a.a.toNat :: if a.off then [] else [.v a.b.toNat]) m)
        (vrange a.d.toNat (dataRegs a.width)) false false <|
      s.checkScratch gid g w offs <|
        let t := s.team g.team
        let bad := offs.filter fun p => t.full.contains (p.2 / 16) && t.isBad p.2 w
        if !bad.isEmpty then s.trap gid g (scratchPoison g bad)
        else
          let (g1, t1) := ldfLanes a (a.hint.getLsbD 1) w offs g.skipOthers t
          (s.updTeam g.team fun _ => t1).done gid g1

def execStf (a : MArgs) (s : State) : Host.Outcome State Fault Refusal :=
  onGroupPlain s fun gid g =>
    let m := g.active
    let w := Width.bytes a.width
    let offs := (lanesOf m).map fun l => (l, g.scratchOff a l)
    s.readyMem gid g
        (readsIn (vrange a.d.toNat (dataRegs a.width) ++ .v a.a.toNat :: if a.off then [] else [.v a.b.toNat]) m) []
        true true <|
      s.checkScratch gid g w offs <|
        ((s.updTeam g.team fun t => offs.foldl
          (fun (t : Team) p => (t.write p.2 (g.dataBytes a.d.toNat w p.1)).fill [p.2 / 16]) t).done gid g.advance).wakeGranules
          g.team

/-- `FESET` and `FECLR` (06 R166). An empty range whose start lies past the allocation raises `SCRATCH_BOUND` as any other
(DESIGN CHOICE: log 59). -/
def runRange (s : State) (a : SArgs) (rel : Bool) (f : List Nat → Team → Team) : Host.Outcome State Fault Refusal :=
  onGroupPlain s fun gid g =>
    s.readyMem gid g (readsS [a.a.toNat, a.b.toNat]) [] rel rel <|
      let base := (g.s a.a.toNat).toNat
      let len := (g.s a.b.toNat).toNat
      if base % 16 != 0 || len % 16 != 0 then
        s.trap gid g { code := tcMisaligned, lanes := allLanes, s58 := if base % 16 != 0 then base else len }
      else if s.scratchSize g < base + len then s.trap gid g (scratchBound allLanes base (s.scratchSize g))
      else ((s.updTeam g.team (f ((List.range (len / 16)).map (base / 16 + ·)))).done gid g.advance).wakeGranules g.team

def execFeset (a : SArgs) (s : State) : Host.Outcome State Fault Refusal := runRange s a true fun gs t => t.fill gs
def execFeclr (a : SArgs) (s : State) : Host.Outcome State Fault Refusal := runRange s a false fun gs t => t.empty gs

/-! ### The tag table (06 R167) -/

/-- The slot that holds a tag. -/
def Team.slotOf (t : Team) (tag : Word64) : Option Nat := (t.tags.find? fun e => e.2 == tag).map Prod.fst
/-- Invalidate every entry that holds a tag. -/
def Team.dropTag (t : Team) (tag : Word64) : Team := { t with tags := t.tags.filter fun e => e.2 != tag }

def execTlook (a : VArgs) (s : State) : Host.Outcome State Fault Refusal :=
  onGroupPlain s fun gid g =>
    let m := g.active
    s.ready gid g (readsIn (vrange a.a.toNat 2) m) [.v a.d.toNat] <|
      let t := s.team g.team
      s.done gid (g.setV a.d.toNat m fun l => match t.slotOf (g.v64 a.a.toNat l) with
        | some k => BitVec.ofNat 32 (256 * k)
        | none => 0xFFFFFFFF).advance

def execTins (a : VArgs) (s : State) : Host.Outcome State Fault Refusal :=
  onGroupPlain s fun gid g =>
    let m := g.active
    let offs := (lanesOf m).map fun l => (l, (g.v a.b.toNat l).toNat)
    s.ready gid g (readsIn (vrange a.a.toNat 2 ++ [.v a.b.toNat]) m) [] <|
      s.checkScratch gid g 256 offs <|
        (s.updTeam g.team fun t => offs.foldl (fun (t : Team) p =>
          let tag := g.v64 a.a.toNat p.1
          let t1 := t.dropTag tag
          { t1 with tags := aset t1.tags (p.2 / 256) tag }) t).done gid g.advance

def execTdrop (a : VArgs) (s : State) : Host.Outcome State Fault Refusal :=
  onGroupPlain s fun gid g =>
    let m := g.active
    s.ready gid g (readsIn (vrange a.a.toNat 2) m) [] <|
      (s.updTeam g.team fun t => (lanesOf m).foldl (fun (t : Team) l => t.dropTag (g.v64 a.a.toNat l)) t).done gid g.advance

end Sys2Proof.Machine
end

