-- ==== Sys2Proof/Machine/Control.lean ====
section
/-!
DEFINITION. Branches, calls, ends, parking and its evaluations, and the group control registers (02 R36-R40, R47;
05 R142-R153).
-/
namespace Sys2Proof.Machine

/-! ### Branches (05 R143) -/

/-- The target of a branch of class 011 (04 R83). -/
def branchTarget (g : Group) (off : BitVec 26) : WordIndex := wrap 29 (g.issue + off.toInt)

/-- A word that only moves lanes. -/
def runBranch (s : State) (reads : Group → List (RegRef × Word32)) (f : Group → Group) : Host.Outcome State Fault Refusal :=
  onGroupPlain s fun gid g => s.ready gid g (reads g) [] (s.done gid (f g))

def execBra (a : BArgs) (s : State) : Host.Outcome State Fault Refusal :=
  runBranch s (fun _ => []) fun g => g.setPc g.atIssue (branchTarget g a.off)

def execBrc (a : BArgs) (s : State) : Host.Outcome State Fault Refusal :=
  runBranch s (fun _ => []) fun g =>
    let m := g.m a.d.toNat
    let taken := g.active &&& (if a.a == 1 then ~~~ m else m)
    (g.setPc (g.atIssue &&& ~~~ taken) (wordMod (g.issue + 1))).setPc taken (branchTarget g a.off)

def execBru (a : BArgs) (s : State) : Host.Outcome State Fault Refusal :=
  runBranch s (fun _ => readsS [a.d.toNat]) fun g =>
    if (g.s a.d.toNat != 0) != (a.a == 1) then g.setPc g.atIssue (branchTarget g a.off) else g.advance

def execBrx (a : SArgs) (s : State) : Host.Outcome State Fault Refusal :=
  runBranch s (fun g => [(.v a.d.toNat, g.active)]) fun g =>
    let m := g.active
    let at_ := g.atIssue
    { g with lpc := laneIds.map fun l =>
        if m.getLsbD l then wordMod (g.v a.d.toNat l).toNat
        else if at_.getLsbD l then wordMod (g.issue + 1) else g.pcOf l }

/-! ### The spill area (02 R37-R40) -/

/-- The virtual address of a stack position in a group's spill area. -/
def State.spillAddr (s : State) (g : Group) (p : Nat) : Nat :=
  let r := s.recOf g
  r.fp + 128 * s.stackSize g * ((s.team g.team).idx * r.groups + g.idx) + 128 * p

/-- The 128 bytes of a position: lane by lane. -/
def Group.posBytes (g : Group) (p : Nat) : List Byte := laneIds.flatMap fun l => leBytes 4 (g.posLane p l).toNat

/-- Translate positions of the spill area in order; a failure holds the group (access kind 6). -/
def State.translateSpill (s : State) (gid : Nat) (g : Group) (need : Need) (ps : List Nat)
    (k : List (Nat × Nat × Xlat) → State → State) : State :=
  let vas := ps.map fun p => s.spillAddr g p
  if s.acquiring gid then s.stall
  else if s.logsPage gid vas then s.holdLog gid g akSpill (vas.map fun va => (0, va)) true
  else s.translateAll gid g need akSpill vas fun xs s1 =>
    k ((List.range xs.length).filterMap fun i => match xs[i]?, ps[i]? with
      | some (va, x), some p => some (p, va, x)
      | _, _ => none) s1

/-- The lines of the spill area that positions are stored to are ready. -/
def State.whenSpill (s : State) (gid : Nat) (g : Group) (xs : List (Nat × Nat × Xlat)) (k : State → State) : State :=
  s.lanesReady gid g 128 .write true { home := fun x => !s.storesAway .rlx x } xs k

/-- Store positions to the spill area: plain relaxed 128-byte accesses (02 R40). -/
def State.spill (s : State) (gid : Nat) (g : Group) (xs : List (Nat × Nat × Xlat)) : State :=
  xs.foldl (fun (s : State) e =>
    if e.2.2.kind == 2 then s.storeAway gid g e.2.2 (g.posBytes e.1) .rlx 1 (g.svc.toNat % 4) (e.2.1 / 4096)
    else s.storeAt (s.coreOf g) e.2.2 (g.posBytes e.1) false 1 gid (e.2.1 / 4096) (s.stepOf g) (g.svc.toNat % 4)) s

/-- A position that was read: its bytes, and for a failure the unreachable peer plus 1, or 0 for poison. -/
structure FillOut where
  pos : Nat
  va : Nat
  bytes : List Byte
  bad : Option Nat
  deriving DecidableEq, Repr

/-- Read positions of the spill area. A position in another package is asked for, and the word is tried again when it has
come. -/
def State.fill (s : State) (gid : Nat) (g : Group) (xs : List (Nat × Nat × Xlat)) (k : List FillOut → State → State) : State :=
  let away := xs.filter fun e => e.2.2.kind == 2 && (aget g.fills e.1).isNone
  let asked := fun (p : Nat) => s.remotes.any fun r => r.what == .fill gid p
  if !away.isEmpty then
    let new := away.filter fun e => !asked e.1
    if new.isEmpty then s.stall
    else s.whenAway gid (s.coreOf g) (new.map fun e => e.2.2) fun s1 =>
      (new.foldl (fun (s : State) e =>
        s.ask { s.header g e.2.2.pa opRead (g.svc.toNat % 4) with opdata := 128 } (.fill gid e.1)) s1).stall
  else
    s.whenReady (xs.flatMap fun e => if e.2.2.kind == 2 then [] else span (locOf e.2.2.pa) 128) false <|
      let out := xs.foldl (fun (acc : List FillOut × State) e =>
        match (if e.2.2.kind == 2 then aget g.fills e.1 else none) with
        | some (bs, bad) => (acc.1 ++ [⟨e.1, e.2.1, bs, bad⟩], acc.2)
        | none =>
          let (r, s1) := acc.2.loadAt (acc.2.coreOf g) e.2.2 128 .grp 1 (g.svc.toNat % 4)
          (acc.1 ++ [⟨e.1, e.2.1, r.bytes, if r.bad then some 0 else none⟩], s1)) ([], s)
      k out.1 out.2

/-- The word of lane `l` in the bytes of a position. -/
def fillLane (bs : List Byte) (l : Nat) : Word32 := BitVec.ofNat 32 (leValue ((bs.drop (4 * l)).take 4))

/-- Put positions that were read into the window. -/
def Group.putFills (g : Group) (fs : List FillOut) : Group :=
  fs.foldl (fun (g : Group) f => g.setPos f.pos allLanes (fillLane f.bytes)) g

/-- Forget positions of the ring, with their marks. -/
def Group.forget (g : Group) (p : Nat → Bool) : Group :=
  { g with vregs := g.vregs.filter (fun e => !p e.1), marks := g.marks.filter fun k => k.scalar || !p k.reg }

/-- The convergence test of R38 fails. -/
def Group.diverged (g : Group) : Bool := g.live != g.atIssue || (g.live &&& g.em) != g.live

/-- `CALL_DIVERGED`, of the live lanes that are parked, elsewhere, or have `em` clear (13 Tables 13.9 and 13.10). -/
def callDiverged (g : Group) : TrapInfo :=
  { code := tcCallDiverged, lanes := g.live &&& ~~~ g.active, s59 := g.live.toNat, s60 := g.active.toNat }

/-- `STACK_OVERFLOW`: bit [0] of `dir` the direction, bit [1] a write of `wbase`. -/
def stackOverflow (g : Group) (addr dir n : Nat) : TrapInfo :=
  { code := tcStackOverflow, lanes := g.atIssue, s58 := addr, s59 := dir, s60 := g.wbase, s61 := n }

/-- A position in a range is pending. -/
def Group.pendingIn (g : Group) (lo n : Nat) : Bool := g.pend.any fun p => !p.scalar && lo ≤ p.reg && p.reg < lo + n

/-- `CALL` and `CALLX`: slide by `n` and go to `target` (02 R38). `STACK_OVERFLOW` names the spill address of the first position that
would be spilled (DESIGN CHOICE: log 59). The spills are writes, which wait for the values of earlier reads (11 R294). -/
def runCall (s : State) (n : Nat) (srcs : List Nat) (target : Group → WordIndex) : Host.Outcome State Fault Refusal :=
  onGroupPlain s fun gid g =>
    let W := s.window g
    let ps := (List.range n).map (g.wbase + ·)
    s.ready gid g (readsS srcs ++ (List.range (n - 2)).map fun j => (.v j, allLanes)) [] <|
      if g.diverged then s.trap gid g (callDiverged g)
      else if s.stackSize g < g.wbase + n + W then s.trap gid g (stackOverflow g (s.spillAddr g g.wbase) 0 n)
      else if g.readsOut then s.stall
      else s.translateSpill gid g .write ps fun xs s1 =>
        if g.pendingIn g.wbase n then s1.stall
        else
          let g1 := (g.setPos (g.wbase + n - 2) allLanes fun _ => BitVec.ofNat 32 n).setPos (g.wbase + n - 1) allLanes
            fun _ => BitVec.ofNat 32 (wordMod (g.issue + 1))
          -- the positions that leave the window are in memory, and those that enter it are 0
          let g2 := { g1.forget (fun p => decide (g.wbase ≤ p) && decide (p < g.wbase + n) || decide (g.wbase + W ≤ p)) with
            wbase := g.wbase + n }
          s1.whenSpill gid g xs fun s1 =>
            ((s1.putGroup gid g1).spill gid g1 xs).updGroup gid fun h =>
              { g2.setPc allLanes (target g) with
                lost := h.lost, persists := h.persists, scmDirty := h.scmDirty, lastIssue := g.issuedAt s.clock, begun := false }

def execCall (a : BArgs) (s : State) : Host.Outcome State Fault Refusal :=
  runCall s (8 * a.d.toNat) [] fun g => branchTarget g a.off
def execCallx (a : SArgs) (s : State) : Host.Outcome State Fault Refusal :=
  runCall s (8 * a.d.toNat) [a.a.toNat] fun g => wordMod (g.s a.a.toNat).toNat

/-- A slide that `RET` accepts (02 R39). -/
def slideOk (n wbase W : Nat) : Bool := n % 8 == 0 && 8 ≤ n && n ≤ W && n ≤ wbase

/-- `POISON` of a fill (17 Table 17.2). -/
def fillPoison (g : Group) (fs : List FillOut) : Option TrapInfo :=
  (fs.find? fun f => f.bad.isSome).map fun f =>
    { code := tcPoison, lanes := g.atIssue, s58 := f.va, s59 := g.issue, s60 := f.bad.getD 0 }

/-- `RET` (02 R39). At `wbase` 0 no spill address or slide has been read, and the record holds zeros there (DESIGN CHOICE: log 59). -/
def execRet (_a : SArgs) (s : State) : Host.Outcome State Fault Refusal :=
  onGroupPlain s fun gid g =>
    let W := s.window g
    let linkAt := s.spillAddr g (g.wbase - 2)
    s.ready gid g [] [] <|
      if g.diverged then s.trap gid g (callDiverged g)
      else if g.wbase < 2 then s.trap gid g (stackOverflow g 0 1 0)
      else s.translateSpill gid g .read [g.wbase - 2, g.wbase - 1] fun xs s1 =>
        s1.fill gid g xs fun link s2 =>
          match fillPoison g link with
          | some t => s2.trap gid g t
          | none =>
            let at_ := fun (j l : Nat) => ((link[j]?).map fun f => fillLane f.bytes l).getD 0
            let l0 := (lanesOf g.live).headD 0
            let n := (at_ 0 l0).toNat
            let same := (lanesOf g.live).all fun l => at_ 0 l == at_ 0 l0 && at_ 1 l == at_ 1 l0
            if !same || !slideOk n g.wbase W then s2.trap gid g (stackOverflow g linkAt 1 n)
            else if g.pendingIn (g.wbase + W - n) n then s2.stall
            else s2.translateSpill gid g .read ((List.range n).map (g.wbase - n + ·)) fun ys s3 =>
              s3.fill gid g ys fun fs s4 =>
                match fillPoison g fs with
                | some t => s4.trap gid g t
                | none =>
                  let g1 := g.forget fun p => decide (g.wbase + W - n ≤ p)
                  s4.done gid ({ (g1.putFills fs) with wbase := g.wbase - n, fills := [] }.setPc allLanes
                    (wordMod (at_ 1 l0).toNat))

/-! ### The group control registers (05 R152, R153) -/

/-- The value of a selector but `rng` (02 Table 2.4). -/
def Group.ctlValue (g : Group) (sel : Nat) : Word64 :=
  match sel with
  | 0 => g.origin
  | 1 => g.fpflags
  | 3 => BitVec.ofNat 64 g.wbase
  | 4 => g.svc
  | _ => g.lastnan

def execCrd (a : SArgs) (s : State) : Host.Outcome State Fault Refusal :=
  if a.imm = 2 then runPlain s (fun _ => []) [.v a.d.toNat] fun g => g.setV a.d.toNat g.active fun l => g.rng.at l
  else runPlain s (fun _ => []) [.s a.d.toNat] fun g => g.setS a.d.toNat (g.ctlValue a.imm.toNat)

/-- The stored value of the stochastic state: zero becomes the constant (02 Table 2.4). -/
def rngStored (x : Word32) : Word32 := if x = 0 then 0x9E3779B9 else x

/-- Write a selector but `rng` and `wbase`; reserved bits are ignored. -/
def Group.setCtl (g : Group) (sel : Nat) (v : Word64) : Group :=
  match sel with
  | 0 => { g with origin := v &&& 0x3FFFFF }
  | 1 => { g with fpflags := v &&& 0x3F }
  | 4 => { g with svc := v &&& 0x3 }
  | _ => { g with lastnan := v &&& 0x803FFFFF }

/-- The key of `Group.fills` that says that the word has spilled the old window. -/
def spillKey : Nat := 2 ^ 59

/-- `CWR wbase` in supervisor mode: the whole old window is spilled and the whole new one filled (02 R47). The value is bits [13:0], the
others are reserved and ignored (00 R5, 05 R152). Marks on the old window go with it and raise nothing (DESIGN CHOICE: log 59). -/
def runSetWbase (s : State) (a : SArgs) : Host.Outcome State Fault Refusal :=
  onGroupPlain s fun gid g =>
    if !g.supervisor then s.illegal gid g .privilege
    else s.ready gid g (readsS [a.a.toNat]) [] <|
      let v := field (g.s a.a.toNat).toNat 0 14
      let W := s.window g
      if v % 8 != 0 || s.stackSize g < v + W then s.trap gid g (stackOverflow g 0 2 v)
      else if g.pendingIn g.wbase W || g.readsOut then s.stall
      else s.translateSpill gid g .write ((List.range W).map (g.wbase + ·)) fun xs s1 =>
        s1.translateSpill gid g .read ((List.range W).map (v + ·)) fun ys s2 =>
          let refill := fun (s3 : State) => s3.fill gid (agetD s3.groups gid g) ys fun fs s4 =>
            match fillPoison g fs with
            | some t => s4.trap gid g t
            | none => s4.updGroup gid fun h =>
                { (({ h.forget (fun _ => true) with wbase := v, fills := [] }.putFills fs).advance) with
                  lastIssue := g.issuedAt s.clock, begun := false }
          if (aget g.fills spillKey).isSome then refill s2
          else s2.whenSpill gid g xs fun s2 =>
            refill (((s2.putGroup gid g).spill gid g xs).updGroup gid fun h => { h with fills := aset h.fills spillKey ([], none) })

def execCwr (a : SArgs) (s : State) : Host.Outcome State Fault Refusal :=
  if a.imm = 3 then runSetWbase s a
  else if a.imm = 2 then
    runPlain s (fun g => [(.v a.a.toNat, g.active)]) [] fun g =>
      { g with rng := Lanes.make fun l => if g.active.getLsbD l then rngStored (g.v a.a.toNat l) else g.rng.at l }
  else runPlain s (fun _ => readsS [a.a.toNat]) [] fun g => g.setCtl a.imm.toNat (g.s a.a.toNat)

/-! ### Ends, yields and loops -/

/-- The groups of a team. -/
def State.groupsOf (s : State) (team : Nat) : List (Nat × Group) := s.groups.filter fun e => e.2.team == team
/-- The teams of a gang. -/
def State.teamsOf (s : State) (gang : Nat) : List (Nat × Team) := s.teams.filter fun e => e.2.gang == gang
/-- The groups of a team that have not ended. -/
def State.liveGroups (s : State) (team : Nat) : Nat := ((s.groupsOf team).filter fun e => e.2.live != 0).length

/-- Complete the team barrier's phase when the arrivals reach the count (07 R232). -/
def State.checkBar (s : State) (team : Nat) : State :=
  s.updTeam team fun t =>
    if t.barArrived != 0 && s.liveGroups team ≤ t.barArrived then { t with barArrived := 0, barPhase := !t.barPhase } else t

/-- Complete the gang barrier's phase when every team that counts has all its arrivals (07 R233). -/
def State.checkGbar (s : State) (gang : Nat) : State :=
  let ts := (s.teamsOf gang).filter fun e => s.liveGroups e.1 != 0
  if ts.any (fun e => e.2.gbarArrived != 0) && ts.all (fun e => s.liveGroups e.1 ≤ e.2.gbarArrived) then
    { s.updGang gang (fun k => { k with gbarPhase := !k.gbarPhase, gbarLevel := none }) with
      teams := s.teams.map fun e => if e.2.gang == gang then (e.1, { e.2 with gbarArrived := 0 }) else e }
  else s

/-- Lanes of a group end; when none is left the group has ended, and its barriers count it no more (05 R145, 07 R232,
R233). -/
def State.endLanes (s : State) (gid : Nat) (g : Group) (m : Word32) : State :=
  let g1 := { g with live := g.live &&& ~~~ m, parks := g.parks.filter fun p => !m.getLsbD p.lane }
  let s1 := s.done gid g1
  if g1.live == 0 then (s1.checkBar g.team).checkGbar (s.team g.team).gang else s1

/-- What precedes the end of a group's last lane: it waits for its outstanding futures and delivers their failures (07
R236). -/
def State.beforeEnd (s : State) (gid : Nat) (g : Group) (k : State) : State :=
  if s.futuresOut gid || g.pend.any (fun p => match p.by_ with | .log _ => false | _ => true) then s.stall
  else match s.owed gid with
    | some (key, n, t) => (s.delivered key n).trap gid g t
    | none => k

def execExit (_a : SArgs) (s : State) : Host.Outcome State Fault Refusal :=
  onGroupPlain s fun gid g =>
    let m := g.active
    let fin := s.endLanes gid (g.setPc (g.atIssue &&& ~~~ m) (wordMod (g.issue + 1))) m
    if (g.live &&& ~~~ m) == 0 then s.beforeEnd gid g fin else fin

/-- A group that nothing outside its word keeps from issuing (08 R257); whether the word itself could go on, its turn shows
(`ready`). -/
def State.couldIssue (s : State) (g : Group) : Bool :=
  g.issue?.isSome && g.hold == .none && g.bar == none && g.gbar == none && (s.gangOf g).run == .running && !(s.gangOf g).stopped

def execYield (_a : SArgs) (s : State) : Host.Outcome State Fault Refusal :=
  onGroupPlain s fun gid g =>
    let others := (s.groups.filter fun e =>
      e.1 != gid && s.coreOf e.2 == s.coreOf g && s.quarterOf e.2 == s.quarterOf g && s.couldIssue e.2).map Prod.fst
    s.done gid { g.advance with hold := if others.isEmpty then .none else .yielded others 32 }

def execLoopb (a : SArgs) (s : State) : Host.Outcome State Fault Refusal :=
  runPlain s (fun _ => []) [] fun g => { g with loopBuf := some { first := wordMod (g.issue + 1), len := a.imm.toNat } }

def execNop (_a : SArgs) (s : State) : Host.Outcome State Fault Refusal := runPlain s (fun _ => []) [] fun g => g

/-! ### Parking (05 R146, R147) -/

/-- A parked lane goes on at the next word. -/
def Group.wakeLane (g : Group) (p : Park) : Group :=
  let g1 := { g with parks := g.parks.filter fun q => q.lane != p.lane }.setPc (BitVec.ofNat 32 (2 ^ p.lane)) (wordMod (p.pc + 1))
  { g1 with begun := g.begun && g1.issue == g.issue }

/-- The condition of a parked word on a value. -/
def wordHolds (eq : Bool) (want got : Word32) : Bool := if eq then got == want else got != want

/-- A trap raised at the word of a parked lane, which is parked no more. -/
def State.parkTrap (s : State) (gid : Nat) (g : Group) (p : Park) (ps : List Park) (t : TrapInfo) : State :=
  s.trapWith gid { g with parks := g.parks.filter fun q => !ps.contains q } t p.pc false

/-- What a read does to a parked lane: `POISON` at its word for every lane that waits with it, a wake, or nothing. -/
def State.parkValue (s : State) (gid : Nat) (g : Group) (p : Park) (bytes : List Byte) (bad : Bool) (peer : Nat) : Option State :=
  let core := s.coreOf g
  let poisoned := fun (va : Nat) (ps : List Park) =>
    s.parkTrap gid g p ps { code := tcPoison, lanes := maskOf fun l => ps.any fun q => q.lane == l, s58 := va
                            s59 := p.pc, s60 := peer }
  match p.on with
  | .word va eq want =>
    if bad then some (poisoned va (g.parks.filter fun q => match q.on with
      | .word v2 _ _ => v2 / 32 == va / 32 && q.pc == p.pc
      | _ => false))
    else if wordHolds eq want (BitVec.ofNat 32 (leValue bytes)) then
      some ((s.acqL1 core p.acquire p.scope).putGroup gid (g.wakeLane p))
    else none
  | .signal va wide cond amount dst =>
    let ps := g.parks.filter fun q => q.on == p.on && q.pc == p.pc
    let v := signExt (if wide then 64 else 32) (leValue bytes)
    if bad then some (poisoned va ps)
    else if condInt cond v.toInt amount.toInt then
      some ((s.acqL1 core p.acquire p.scope).putGroup gid ((ps.foldl Group.wakeLane g).putSLate dst v))
    else none
  | _ => none

/-- One evaluation of a parked lane; `none` when it stays parked. A word in another package is asked for, and a line
that another package's agent holds for itself is recalled. -/
def State.evalPark (s : State) (gid : Nat) (g : Group) (p : Park) : Option State :=
  let core := s.coreOf g
  let readAt := fun (va w : Nat) =>
    if s.logsPage gid [va] then none else
    match s.translate (coreTlbs core) (s.ctxOf g) g.supervisor .read va with
    | .wait s' => some { s' with stalled := s.stalled }
    | .fail _ _ _ s1 => some (s1.putGroup gid (g.withParks (g.parks.filter fun q => q.lane != p.lane)))
    | .ok x s1 =>
      if x.kind == 2 then
        if s.remotes.any (fun r => r.what == .parkRead gid p.lane p.since) then none
        else
          let s2 := s1.whenAway gid core [x] fun s2 => s2.ask { s2.header g x.pa opRead p.svc with opdata := w } (.parkRead gid p.lane p.since)
          some { s2 with stalled := s.stalled }
      else match (match homedLines (span (locOf x.pa) w) with | [] => Ready.ready | l :: _ => s1.lineReady l false) with
        | .ready =>
          let (r, s2) := s1.loadAt core x w .pkg 1 p.svc
          s2.parkValue gid g p r.bytes r.bad 0
        | .demand s' => some s'
        | .wait => none
  match p.on with
  | .granule n =>
    if (s.team g.team).full.contains n then some (s.putGroup gid (g.withParks (g.parks.filter fun q => q.lane != p.lane))) else none
  | .word va _ _ => readAt va 4
  | .signal va wide _ _ _ => readAt va (if wide then 8 else 4)
  | .future h => match s.codeKey gid g (handleCode h) with
    | none => some (s.putGroup gid (g.wakeLane p))
    | some k =>
      let e := s.engine k
      if !e.complete (handleSeq h) then none
      else match e.undelivered fun n => n == handleSeq h with
        | some (n, t) =>
          some ((s.delivered k n).parkTrap gid g p (g.parks.filter fun q => q.on == .future h && q.pc == p.pc) t)
        | none => some ((s.acquireOp core k).putGroup gid (g.wakeLane p))

/-- Evaluate the parked lanes of a group in turn, as long as the group stays out of a trap. They are no word that takes a place at a line. -/
def State.evalParks (s : State) (gid : Nat) (sel : Park → Bool) : State :=
  match aget s.groups gid with
  | none => s
  | some g0 =>
    let s1 := (g0.parks.filter sel).foldl (fun (s : State) p => match aget s.groups gid with
      | some g => if g.parks.contains p && g.supervisor == g0.supervisor then (s.evalPark gid g p).getD s else s
      | none => s) { s with cur := .none }
    { s1 with cur := s.cur }

/-- The scope of a `PARK` (05 Table 5.14). -/
def parkScope (imm : BitVec 16) : Scope := (Scope.ofCode (imm.extractLsb' 2 4)).getD .grp

/-- `PARK.fut`: the handle is tested for the active lanes, if there is one (05 R147). -/
def runParkFut (s : State) (a : SArgs) : Host.Outcome State Fault Refusal :=
  onGroupPlain s fun gid g => s.ready gid g [] [] <|
    let h := g.h a.a.toNat
    let park := { g.skipOthers with parks := g.parks ++ (lanesOf g.active).map fun l =>
      { lane := l, pc := g.issue, on := .future h, since := s.clock } }
    match (if g.active == 0 then none else s.codeKey gid g (handleCode h)) with
    | none => s.done gid g.advance
    | some k =>
      if (s.engine k).complete (handleSeq h) then s.waited gid g k (fun n => n == handleSeq h) Group.advance
      else s.done gid park

/-- `PARK.ne` and `PARK.eq`: every active lane translates and is checked, then each goes on or parks. -/
def runParkWord (s : State) (a : SArgs) (eq : Bool) : Host.Outcome State Fault Refusal :=
  onGroupPlain s fun gid g =>
    let m := g.active
    let core := s.coreOf g
    let acq := a.imm.getLsbD 6
    let sc := parkScope a.imm
    s.readyMem gid g (readsIn [.v a.a.toNat, .v (a.a.toNat + 1), .v a.d.toNat] m) [] false false <|
      let lanes := (lanesOf m).map fun l => (l, (g.v64 a.a.toNat l).toNat % 2 ^ 57)
      let mis := lanes.filter fun p => p.2 % 4 != 0
      let misTrap := fun (s : State) => s.trap gid g (misaligned mis)
      if s.logsPage gid (lanes.map Prod.snd) then s.holdLog gid g akLoad lanes false
      else match s.translateLanes core (s.ctxOf g) g.supervisor .read lanes with
        | .wait s' => s'
        | .fail bs _ s1 =>
          if !mis.isEmpty && (mis.headD (0, 0)).1 < (bs.headD (0, 0, 0, 0)).1 then misTrap s1 else s1.holdLanes gid g akLoad bs
        | .ok xs s1 =>
          if !mis.isEmpty then misTrap s1
          else s1.awaitAway gid g 4 (xs.map Prod.snd) (g.svc.toNat % 4) fun s1 => s1.whenReady (localSpan 4 xs) false <|
            let reads := xs.foldl (fun (acc : List (Nat × Nat × List Byte × Option Nat) × State) x =>
              let (r, s2) := acc.2.readOrCame g x.2.1 4 x.2.2 .pkg (g.svc.toNat % 4)
              (acc.1 ++ [(x.1, x.2.1, r)], s2)) ([], s1)
            let bad := reads.1.filter fun e => e.2.2.2.isSome
            if !bad.isEmpty then
              let first := bad.headD (0, 0, [], none)
              reads.2.trap gid g { code := tcPoison, lanes := maskOf fun l => bad.any fun e => e.1 == l
                                   s58 := first.2.1, s59 := g.issue, s60 := first.2.2.2.getD 0 }
            else
              let holds := fun (e : Nat × Nat × List Byte × Option Nat) =>
                wordHolds eq (g.v a.d.toNat e.1) (BitVec.ofNat 32 (leValue e.2.2.1))
              let go := maskOf fun l => reads.1.any fun e => e.1 == l && holds e
              let stay := reads.1.filter fun e => !holds e
              let g1 := (g.skipOthers.setPc go (wordMod (g.issue + 1)))
              (reads.2.acqL1 core (acq && go != 0) sc).done gid { g1 with fills := [], parks := g.parks ++ stay.map fun e =>
                { lane := e.1, pc := g.issue, on := .word e.2.1 eq (g.v a.d.toNat e.1), acquire := acq, scope := sc
                  svc := g.svc.toNat % 4, since := s.clock } }

def execPark (a : SArgs) (s : State) : Host.Outcome State Fault Refusal :=
  match (a.imm.toNat % 4) with
  | 2 => runParkFut s a
  | k => runParkWord s a (k == 1)

end Sys2Proof.Machine
end

