-- ==== Sys2Proof/Machine/Kiosk.lean ====
section
/-!
DEFINITION. The issue of Kiosk operations, rows and multicast stores (06 R174-R176, R181-R191).
-/
namespace Sys2Proof.Machine

/-- The local address of a virtual one, where it translates into this package now. -/
def State.locAt (s : State) (ctx va : Nat) : Option Nat :=
  let r := s.walk ctx (va % 2 ^ 57)
  if r.status != 0 then none
  else
    let pa := pteFrame r.last + va % 2 ^ levelShift r.level
    if s.ownMemory pa then some (locOf pa) else none

/-- The Kiosk of an address, where it translates into this package now. -/
def State.kioskAt (s : State) (ctx va : Nat) : Option Nat := (s.locAt ctx va).map kioskOf

/-- The address of step `k` of a chase with pointer `p` (06 R184). -/
def chaseAddr (steps : List ChaseDesc) (k p : Nat) : Nat :=
  let d := steps.getD k { mask := 0, off := 0, width := 1 }
  wrap 57 (((BitVec.ofNat 64 p) &&& d.mask).toNat + sext d.off.toNat 32)

/-- The address of a chase's next step. -/
def Chase.addr (c : Chase) : Nat := chaseAddr c.steps c.k c.p

/-- The micro-operations of a recipe record: the 16 used bits of each of its words. -/
def recipeOps (r : List Byte) : List Nat :=
  (List.range (leValue ((r.drop 96).take 1) % 16)).map fun k => leValue ((r.drop (8 * k)).take 2)

/-- One micro-operation is well formed. -/
def microOk (u : Nat) : Bool :=
  let op := u % 16
  1 ≤ op && op ≤ 6 && field u 13 3 ≤ 4 && ((op != 3 && op != 4) || field u 10 3 ≤ 6)

/-- A recipe record is well formed (06 R188). -/
def recipeOk (r : List Byte) : Bool :=
  let ctl := leValue ((r.drop 96).take 8)
  1 ≤ ctl % 16 && ctl % 16 ≤ 8 && ctl < 256 && ((r.drop 104).all fun b => b == 0)
    && (List.range 8).all (fun k => leValue ((r.drop (8 * k + 2)).take 6) == 0) && (recipeOps r).all microOk

/-- Write-back of stream `a` is selected. -/
def recipeWrites (r : List Byte) (a : Nat) : Bool := field (leValue ((r.drop 96).take 1)) (4 + a) 1 == 1

/-- The sources of a micro-operation (06 R189). -/
def microSources (u : Nat) : List Nat :=
  let op := u % 16
  field u 6 2 :: if op == 1 || op == 4 || op == 6 then [field u 8 2] else []

/-- The stream is a source before any micro-operation writes it. -/
def readFirst (a : Nat) : List Nat → Bool
  | [] => false
  | u :: us => (microSources u).contains a || (field u 4 2 != a && readFirst a us)

/-- The recipe reads stream `a` (06 R189). -/
def recipeReads (r : List Byte) (a : Nat) : Bool :=
  readFirst a (recipeOps r) || (recipeWrites r a && !(recipeOps r).any fun u => field u 4 2 == a)

/-- Steps that a Kiosk queues at most (12 R333). -/
def kioskPlaces : Nat := 512

/-- Where a chunk of a `KVUP` lies that names the Kiosk of its step: `x0`, or the first array that it accesses (06 R189; log 64). -/
def KvUp.chunkAt (v : KvUp) (c : Nat) : Nat :=
  let used := fun (a : Nat) => recipeReads v.recipe a || recipeWrites v.recipe a
  (if used 0 then v.x0 else if used 1 then v.x1 else if used 2 then v.x2 else v.x0) + 64 * c

/-- The chunks of a `KVUP` that wait in a Kiosk's queue: no more than it has places. The others follow as it serves these (12 R333). -/
def State.chunksAt (s : State) (v : KvUp) (k : Nat) : List Nat :=
  (v.chunks.filter fun c => s.kioskAt (s.ctxOfId v.gid) (v.chunkAt c) == some k).take kioskPlaces

/-- The Kiosk where a chase waits for its next step: the one that it was forwarded to, the one that took its last step and translates the
next, or that of its start (12 R334). -/
def State.chaseKiosk (s : State) (c : Chase) : Option Nat :=
  match c.arrived, c.owner with
  | some x, _ => some (kioskOf (locOf x.pa))
  | none, some o => if o / 16 == s.own then some (o % 16) else none
  | none, none => s.kioskAt (s.ctxOfId c.gid) c.addr

/-- Steps queued at a Kiosk, or on their way from a core of this package to it (12 R333). -/
def State.kioskLoad (s : State) (k : Nat) : Nat :=
  (s.rowOps.filter fun r => r.kiosk == k).length
    + (s.chases.filter fun c => !c.away && s.chaseKiosk c == some k).length
    + ((s.listOps.filter fun o => match o.kiosk with
        | some j => j == k
        | none => s.kioskAt (s.ctxOfId o.gid) o.head == some k).map fun o => o.lanes.length).sum
    + (s.kvups.map fun v => (s.chunksAt v k).length).sum

/-- A Kiosk that some steps go to, given by their addresses, has no place for them all. -/
def State.kioskFull (s : State) (ctx : Nat) (vas : List Nat) : Bool :=
  let ks := vas.filterMap (s.kioskAt ctx)
  (uniq ks).any fun k => kioskPlaces < s.kioskLoad k + min kioskPlaces (ks.filter (· == k)).length

/-- The word is done, with a new handle in `h`n (06 R181). -/
def State.withHandle (s : State) (gid n code seqNo : Nat) : State :=
  s.updGroup gid fun g =>
    { (g.setH n (mkHandle code seqNo)).advance with lastIssue := g.issuedAt s.clock, begun := false }

/-- Issue a Kiosk operation: the group's accesses are performed first, and the group is stored (06 R181). -/
def State.issueKiosk (s : State) (gid : Nat) (g : Group) (k : Nat → State → State) : State :=
  s.whenBacked (s.coreOf g) true fun s1 =>
    let (n, s2) := (s1.putGroup gid g).openOp (.kiosk gid) gid
    k n s2

/-- `MISALIGNED` of a scalar address. -/
def misalignedAt (va : Nat) : TrapInfo := { code := tcMisaligned, lanes := allLanes, s58 := va }

/-! ### Chases (06 R183-R186) -/

/-- The steps of a descriptor of `n` steps, and whether it is well formed (06 R183). -/
def chaseSteps (n : Nat) (ws : List Word64) : List ChaseDesc × Bool :=
  let step := fun (k : Nat) =>
    let hi := (ws.getD (2 * k + 1) 0).toNat
    ({ mask := ws.getD (2 * k) 0, off := BitVec.ofNat 32 hi, width := 2 ^ field hi 32 2 } : ChaseDesc)
  let ks := List.range n
  (ks.map step, ks.all fun k =>
    (ws.getD (2 * k + 1) 0).toNat / 2 ^ 34 == 0 && (k + 1 == n || 4 ≤ (step k).width))

/-- Issue the packets of some lanes, given their pointer, step and hops; they wait for places at their Kiosks (12 R333). -/
def State.sendChases (s : State) (gid : Nat) (g : Group) (a : TArgs) (steps : List ChaseDesc)
    (lanes : List (Nat × Nat × Nat × Nat)) : State :=
  if s.kioskFull (s.ctxOf g) (lanes.map fun l => chaseAddr steps l.2.2.1 l.2.1) then s.stall
  else s.issueKiosk gid g fun n s1 =>
    let op := a.op.toNat
    let s2 : State := { s1 with chases := s1.chases ++ lanes.map fun l =>
      { gid := gid, seqNo := n, lane := l.1, dreg := g.wbase + a.d.toNat, n := op / 32 + 1, hopLimit := op / 4 % 8 + 1
        steps := steps, k := l.2.2.1, hops := l.2.2.2, p := l.2.1, supervisor := g.supervisor, resumed := decide (0 < l.2.2.1)
        word := g.issue, agent := s.coreOf g, since := s.clock } }
    let s3 := if lanes.isEmpty then s2.completeOp (.kiosk gid) n 0 none gid 0 none
      else s2.updGroup gid fun h => h.pendRegs [.v a.d.toNat, .v (a.d.toNat + 1)] (.kiosk n)
    s3.withHandle gid a.tmap.toNat 0x02 n

/-- Read a chase descriptor at issue, and go on with its steps. -/
def State.readChase (s : State) (gid : Nat) (g : Group) (a : TArgs) (k : List ChaseDesc → State → State) : State :=
  let va := (g.s a.b.toNat).toNat
  let n := a.op.toNat / 32 + 1
  if va % 128 != 0 then s.trap gid g (misalignedAt va)
  else s.readWords gid g va (2 * n) fun ws s1 =>
    let (steps, ok) := chaseSteps n ws
    if ok then k steps s1 else s1.trap gid g { code := tcChaseFault, status := 7, lanes := g.active }

def execChase (a : TArgs) (s : State) : Host.Outcome State Fault Refusal :=
  onGroupPlain s fun gid g =>
    let m := g.active
    s.readyIssue gid g (readsIn (vrange a.a.toNat 2) m ++ readsS [a.b.toNat]) (vrange a.d.toNat 2) <|
      s.readChase gid g a fun steps s1 =>
        s1.sendChases gid g a steps ((lanesOf m).map fun l => (l, (g.v64 a.a.toNat l).toNat, 0, 0))

/-- The chase fault mark that `CHASER` resumes in a lane: step and hops (06 R186). -/
def Group.resumable (g : Group) (d n l : Nat) : Option (Nat × Nat) :=
  g.marks.findSome? fun k => match k.kind with
    | .chase st kk hops =>
      if !k.scalar && k.reg == g.wbase + d && k.lane == l && 1 ≤ st && st ≤ 3 && kk < n then some (kk, hops) else none
    | _ => none

def execChaser (a : TArgs) (s : State) : Host.Outcome State Fault Refusal :=
  onGroupPlain s fun gid g =>
    let d := a.d.toNat
    s.readyIssue gid g (readsS [a.b.toNat]) (vrange d 2) <|
      s.readChase gid g a fun steps s1 =>
        let lanes := (lanesOf g.active).filterMap fun l => (g.resumable d steps.length l).map fun r =>
          (l, (g.v64 d l).toNat, r.1, r.2)
        let g1 := { g with marks := g.marks.filter fun k =>
          k.scalar || !(k.reg == g.wbase + d || k.reg == g.wbase + d + 1) || !(lanes.any fun l => l.1 == k.lane) }
        s1.sendChases gid g1 a steps lanes

/-! ### Lists (06 R187) -/

/-- `KENQ` and `KDEQ` at issue. -/
def runList (s : State) (a : TArgs) (enq : Bool) : Host.Outcome State Fault Refusal :=
  onGroupPlain s fun gid g =>
    let m := g.active
    let head := (g.s a.b.toNat).toNat
    let reg := if enq then a.a.toNat else a.d.toNat
    s.readyIssue gid g (readsS [a.b.toNat] ++ if enq then readsIn (vrange reg 2) m else [])
        (if enq then [] else vrange reg 2) <|
      if head % 16 != 0 then s.trap gid g (misalignedAt head)
      else if s.kioskFull (s.ctxOf g) ((lanesOf m).map fun _ => head) then s.stall
      else s.issueKiosk gid g fun n s1 =>
        let ls := lanesOf m
        let s2 := if ls.isEmpty then s1.completeOp (.kiosk gid) n 0 none gid 0 none
          else
            { s1 with listOps := s1.listOps ++
              [{ gid := gid, seqNo := n, enq := enq, head := head, lanes := ls
                 nodes := ls.map fun l => (g.v64 reg l).toNat, dreg := g.wbase + reg, supervisor := g.supervisor
                 word := g.issue, tag := s.stepOf g, since := s.clock }] }
        let s3 := if enq || ls.isEmpty then s2 else s2.updGroup gid fun h => h.pendRegs (vrange reg 2) (.kiosk n)
        s3.withHandle gid a.tmap.toNat 0x02 n

def execKenq (a : TArgs) (s : State) : Host.Outcome State Fault Refusal := runList s a true
def execKdeq (a : TArgs) (s : State) : Host.Outcome State Fault Refusal := runList s a false

/-! ### Recipes (06 R188, R189) -/

/-- `KIOSK_RECIPE` (13 Table 13.10); the spec gives status 7 at a `KVUP`, and this model uses it at a `KRCP` too. -/
def kioskRecipe (va slot : Nat) : TrapInfo := { code := tcKioskRecipe, status := 7, lanes := allLanes, s58 := va, s59 := slot }

def execKrcp (a : TArgs) (s : State) : Host.Outcome State Fault Refusal :=
  onGroupPlain s fun gid g =>
    let va := (g.s a.a.toNat).toNat
    let slot := a.op.toNat / 16
    let ctx := s.ctxOf g
    s.readyIssue gid g (readsS [a.a.toNat]) [] <|
      if va % 128 != 0 then s.trap gid g (misalignedAt va)
      else s.readWords gid g va 16 fun ws s1 =>
        let r := ws.flatMap fun w => leBytes 8 w.toNat
        if !recipeOk r then s1.trap gid g (kioskRecipe va slot)
        else s1.issueKiosk gid g fun n s2 =>
          State.withHandle
            { s2 with krcps := s2.krcps ++ [{ gid := gid, seqNo := n, ctx := ctx, slot := slot, recipe := r }] } gid
            a.tmap.toNat 0x02 n

def execKvup (a : TArgs) (s : State) : Host.Outcome State Fault Refusal :=
  onGroupPlain s fun gid g =>
    let va := (g.s a.a.toNat).toNat
    let slot := a.op.toNat / 16
    let ctx := s.ctxOf g
    s.readyIssue gid g (readsS [a.a.toNat]) [] <|
      if va % 32 != 0 then s.trap gid g (misalignedAt va)
      else if s.krcps.any fun k => k.ctx == ctx && k.slot == slot then s.stall
      else match aget (s.ctx ctx).recipes slot with
        | none => s.trap gid g (kioskRecipe va slot)
        | some rcp => s.readWords gid g va 4 fun ws s1 =>
          let arr := fun (k : Nat) => (ws.getD k 0).toNat
          let count := arr 3
          let off := (List.range 3).any fun k => (recipeReads rcp.bytes k || recipeWrites rcp.bytes k) && arr k % 64 != 0
          let chunks := List.range ((count + 15) / 16)
          if count == 0 || 65536 < count || off then s1.trap gid g (kioskRecipe va slot)
          else
            let op : KvUp :=
              { gid := gid, seqNo := 0, recipe := rcp.bytes, x0 := arr 0, x1 := arr 1, x2 := arr 2, n := count
                chunks := chunks, slot := slot, origin := g.origin, supervisor := g.supervisor
                tag := s.stepOf g, since := s.clock }
            if s1.kioskFull ctx (chunks.map op.chunkAt) then s1.stall
            else s1.issueKiosk gid g fun n s2 =>
              State.withHandle { s2 with kvups := s2.kvups ++ [{ op with seqNo := n }] } gid a.tmap.toNat 0x02 n

/-! ### Rows (06 R174-R176) -/

/-- `KIOSK_SCOPE` (13 Table 13.10). -/
def kioskScope (lanes : Word32) (va : Nat) : TrapInfo := { code := tcKioskScope, status := 3, lanes := lanes, s58 := va }

/-- The size of a row by its code (06 R174). -/
def rowSize (w : Word64) : Option Nat := if w.toNat ≤ 4 then some (64 * 2 ^ w.toNat) else none
/-- The registers that a row covers. -/
def rowRegs (size : Nat) : Nat := max 1 (size / 128)

/-- The bytes of the row that an executing lane holds, by offset: `f` gives the word of register `j` in lane `l`. -/
def rowCells (size : Nat) (m : Word32) (f : Nat → Nat → Word32) : List (Nat × Byte) :=
  (List.range (rowRegs size)).flatMap fun j => ((lanesOf m).filter fun l => 128 * j + 4 * l < size).flatMap fun l =>
    (List.range 4).map fun b => (128 * j + 4 * l + b, (leBytes 4 (f j l).toNat).getD b 0)

/-- The row's lines leave the core's L1, dirty bytes written back first: later row steps and plain accesses of the group
agree per location (06 R176). -/
def State.flushSpan (s : State) (core a n : Nat) : State :=
  (linesOf (span a n)).foldl (fun s l => (s.writeBackLine core l).dropLine core l) s

/-- `ROWOP` and `ROWLD`; `op` is 3 for a load (06 R175). -/
def runRow (s : State) (a : MArgs) (op : Nat) : Host.Outcome State Fault Refusal :=
  onGroupPlain s fun gid g =>
    let m := g.active
    let d := a.d.toNat
    let va := (g.s a.a.toNat).toNat
    let core := s.coreOf g
    let descFault : TrapInfo := { misalignedAt va with s59 := 1 }
    let cls := s.classOf gid a.svc.toNat
    if g.anyPending [.s a.a.toNat, .s (a.a.toNat + 1)] then s.block
    else match rowSize (g.s (a.a.toNat + 1)) with
      | none => s.readyMem gid g (readsS [a.a.toNat, a.a.toNat + 1]) [] false false (s.trap gid g descFault)
      | some size =>
        let k := rowRegs size
        let regs := vrange d k
        if d % k != 0 || s.window g < d + k then s.illegal gid g .badRegister
        else s.readyMem gid g (readsS [a.a.toNat, a.a.toNat + 1] ++ if op == 3 then [] else readsIn regs (if size == 64 then m &&& 0xFFFF else m)) regs
            (Order.isRel a.order) true <|
          if va % size != 0 then s.trap gid g descFault
          else if s.logsPage gid [va] then s.holdLog gid g akKiosk [(0, va)] true
          else s.translateAll gid g (if op == 3 then .read else .write) akKiosk [va] fun xs s1 =>
            let x := (xs.headD (0, { pa := 0, kind := 0, pt := false, attr := 0 })).2
            let cells := if op == 3 then [] else rowCells size m fun j l => g.v (d + j) l
            if x.kind == 3 then s1.trap gid g (kioskScope m va)
            else if op != 3 && (x.pt || (x.kind == 1 && s1.inRegion (locOf x.pa))) && s1.logs gid then s1.stall
            else if x.kind == 2 then (s1.putGroup gid g).whenAway gid core
                ((List.range ((size + 127) / 128)).map fun j => { x with pa := x.pa + 128 * j }) fun s1 =>
              (s1.askPending gid { s1.header g x.pa opRow cls with
                  cls := 3, opdata := g.payload.toNat * 2 ^ 24 + op * 2 ^ 16 + size, data := leBytes 8 (s.stepOf g).toNat ++ cells.flatMap fun c => leBytes 2 c.1 ++ [c.2] }
                (.row gid (g.wbase + d) size m g.issue va) regs (Order.isAcq a.order)).advanceGroup gid
            else if kioskPlaces ≤ s1.kioskLoad (kioskOf (locOf x.pa)) then s1.stall
            else
              let (id, s2) := ((s1.flushSpan core (locOf x.pa) size).putGroup gid g).fresh
              (State.updGroup { s2 with rowOps := s2.rowOps ++
                [{ id := id, gid := some gid, requester := core, cls := cls, kiosk := kioskOf (locOf x.pa), op := op
                   pa := x.pa, va := va, size := size, lanes := m, data := cells, dreg := g.wbase + d, arrived := s2.clock
                   word := g.issue, origin := g.origin, agent := gid, tag := s.stepOf g
                   acquire := Order.isAcq a.order, ctx := s.ctxOf g, xgen := (s.ctx (s.ctxOf g)).xgen.toNat, pt := x.pt }] } gid fun h => h.pendRegs regs (.row id)).advanceGroup gid

def execRowop (a : MArgs) (s : State) : Host.Outcome State Fault Refusal := runRow s a a.hint.toNat
def execRowld (a : MArgs) (s : State) : Host.Outcome State Fault Refusal := runRow s a 3

/-! ### Multicast stores (06 R190, R191) -/

def execStm (a : MArgs) (s : State) : Host.Outcome State Fault Refusal :=
  onGroupPlain s fun gid g =>
    let m := g.active
    let w := Width.bytes a.width
    let core := s.coreOf g
    let rel := Order.isRel a.order
    let lanes := (lanesOf m).map fun l => (l, (g.v64 a.a.toNat l).toNat % 2 ^ 57)
    s.readyMem gid g (readsIn (vrange a.d.toNat (dataRegs a.width) ++ vrange a.a.toNat 2) m) [] rel true <|
      let mis := lanes.filter fun p => p.2 % w != 0
      let first := (lanes.headD (0, 0)).2 / 1024
      let out := lanes.filter fun p => p.2 / 1024 != first
      if !mis.isEmpty then s.trap gid g (misaligned mis)
      else if a.scope == .row && !out.isEmpty then s.trap gid g (misaligned out)
      else if s.logsPage gid (lanes.map Prod.snd) then s.holdLog gid g akStore lanes false
      else match s.translateLanes core (s.ctxOf g) g.supervisor .write lanes with
        | .wait s' => s'
        | .fail bs _ s1 => s1.holdLanes gid g akStore bs
        | .ok xs s1 =>
          let host := xs.filter fun x => x.2.2.kind == 3
          if !host.isEmpty then
            s1.trap gid g (kioskScope (maskOf fun l => host.any fun x => x.1 == l) (host.headD (0, 0, ⟨0, 0, false, 0, 0⟩)).2.1)
          else
            (s1.putGroup gid g).whenReleased core rel .sq fun s2 => s2.whenAway gid core (xs.map fun x => x.2.2) fun s2 =>
            let s3 := xs.foldl (fun (s : State) x =>
              if s.ownMemory x.2.2.pa then s.flushSpan core (locOf x.2.2.pa) w else s) s2
            let (id, s4) := s3.fresh
            (if xs.isEmpty then s3
             else { s4 with mcasts := s4.mcasts ++
               [{ id := id, gid := gid, ctx := s.ctxOf g, svc := s.classOf gid a.svc.toNat, entry := a.b.toNat
                  row := a.scope == .row, rel := rel, tag := s.stepOf g, xgen := (s.ctx (s.ctxOf g)).xgen.toNat
                  stores := xs.map fun x => (x.2.2, g.dataBytes a.d.toNat w x.1)
                  pages := xs.map fun x => x.2.1 % 2 ^ 57 / 4096, prio := prioOf a }] }).advanceGroup gid

/-- `MCTW`: supervisor only; the entry is written at the word's first turn, and the word is passed when no copy counted against an
older version than that is left in the egress (06 R191, 12 R336). Endpoints' bits are cleared (20 R442). -/
def execMctw (a : SArgs) (s : State) : Host.Outcome State Fault Refusal :=
  onGroupPlain s fun gid g =>
    if !g.supervisor then s.illegal gid g .privilege
    else s.ready gid g (readsS [a.a.toNat]) [] <|
      let members := ((s.cfg.map CfgRec.members).getD 0) &&& ~~~ ((s.cfg.map CfgRec.endpoints).getD 0)
      let v := g.s a.a.toNat &&& members
      let ctx := s.ctxOf g
      let k := a.imm.toNat % 256
      let new := g.mctw.getD (s.mcastVersion + 1)
      let s1 := if g.mctw.isSome then s
        else { s.updCtx ctx (fun c => { c with mcast := aset c.mcast k v }) with mcastVersion := new }
      let older := s1.mcasts.any (fun x => x.left.isSome && x.ctx == ctx && x.entry == k && x.version < new)
        || s1.rowOps.any (fun r => !r.members.isEmpty && r.ctx == ctx && r.entry == k
            && match r.version with | some w => decide (w < new) | none => false)
        || s1.egress.any fun e => !e.sent && (match e.version with | some w => decide (w < new) | none => false)
            && e.pkt.ctx == ctx && e.pkt.opdata % 256 == k
      if older then (s1.updGroup gid fun h => { h with mctw := some new }).stall
      else s1.done gid { g.advance with mctw := none }

end Sys2Proof.Machine
end

