-- ==== Sys2Proof/Machine/KioskSteps.lean ====
section
/-!
DEFINITION. The steps that Kiosks perform: chases, list operations, row operations, recipe chunks and recipe installs
(06 R175, R176, R181-R189; 12 R323, R333-R337; 15 R380).
-/
namespace Sys2Proof.Machine

/-! ### Shared by the steps -/

/-- A step queued at a Kiosk: its class, when it arrived, its agent and the lines that it is known to touch (12 R333). -/
structure KStep where
  cls : Nat
  since : Nat
  agent : Nat
  lines : List Nat
  deriving DecidableEq, Repr

/-- A row operation in its Kiosk's queue. -/
def RowOp.kstep (r : RowOp) : KStep :=
  { cls := r.cls, since := r.arrived, agent := r.agent, lines := linesOf (span (locOf r.pa) r.size) }

/-- The class of a chase's steps. -/
def State.chaseClass (s : State) (c : Chase) : Nat :=
  match c.origin with
  | some (_, _, _, svc) => svc
  | none => s.svcOf c.gid

/-- The lane or packet that a chase is, as a step that takes locks and as an agent at a Kiosk: a group, or a requester of another
package. -/
def Chase.holder (c : Chase) : Holder :=
  [2, c.gid, c.seqNo, c.lane] ++ match c.origin with
    | some (pkg, tag, _, _) => [pkg, tag]
    | none => []
def Chase.by_ (c : Chase) : Nat :=
  match c.origin with
  | some (pkg, _, _, _) => 2 ^ 40 + pkg * 2 ^ 16 + c.agent
  | none => c.gid

/-- The context of a chase. -/
def State.chaseCtx (s : State) (c : Chase) : Nat :=
  match c.origin with
  | some (_, _, ctx, _) => ctx
  | none => s.ctxOfId c.gid

/-- The datum that a chase reads next. -/
def Chase.desc (c : Chase) : ChaseDesc := c.steps.getD c.k { mask := 0, off := 0, width := 1 }

/-- A chase in a Kiosk's queue; its lines are known where its next step is taken there. -/
def State.chaseStepOf (s : State) (k : Nat) (c : Chase) : KStep :=
  let at_ := match c.arrived with
    | some x => some (locOf x.pa)
    | none => (s.locAt (s.chaseCtx c) c.addr).filter fun h => kioskOf h == k
  { cls := s.chaseClass c, since := c.since, agent := c.by_, lines := (at_.map fun h => linesOf (span h c.desc.width)).getD [] }

/-- A chunk of a `KVUP` in a Kiosk's queue, with the lines of the arrays that its recipe accesses. -/
def State.chunkStepOf (s : State) (v : KvUp) (c : Nat) : KStep :=
  let used := [0, 1, 2].filter fun a => recipeReads v.recipe a || recipeWrites v.recipe a
  let lines := used.filterMap fun a =>
    (s.locAt (s.ctxOfId v.gid) ((if a == 0 then v.x0 else if a == 1 then v.x1 else v.x2) + 64 * c)).map (· / 128)
  { cls := s.svcOf v.gid, since := v.since, agent := v.gid, lines := uniq lines }

/-- The steps queued at a Kiosk (12 R333). -/
def State.kioskQueue (s : State) (k : Nat) : List KStep :=
  ((s.rowOps.filter fun r => r.kiosk == k).map RowOp.kstep)
    ++ ((s.chases.filter fun c => !c.away && c.heldPage.isNone && s.chaseKiosk c == some k).map (s.chaseStepOf k))
    ++ (s.kvups.flatMap fun v => (s.chunksAt v k).map (s.chunkStepOf v))
    ++ ((s.listOps.filter fun o => o.kiosk == some k && o.heldPage.isNone).filterMap fun o =>
      (s.locAt (s.ctxOfId o.gid) o.head).map fun h =>
        { cls := s.svcOf o.gid, since := o.since, agent := o.gid, lines := linesOf (span h 16) })

/-- Two steps touch a common line. -/
def KStep.meets (x y : KStep) : Bool := x.lines.any fun l => y.lines.contains l

/-- An earlier step of the same agent on the same lines goes first, whatever the classes (12 R333). -/
def KStep.behind (q : List KStep) (x : KStep) : Bool := q.any fun y => y.agent == x.agent && y.since < x.since && y.meets x

/-- The Kiosk serves the step now: no other step on its lines goes first, by class and then by arrival; one that has taken a lock
goes on (12 R333). -/
def State.mayServe (s : State) (k : Nat) (who : Holder) (x : KStep) : Bool :=
  let q := s.kioskQueue k
  s.dir.any (fun e => e.2.st == .locked && e.2.holder == who)
    || (!x.behind q && !q.any fun y => y.agent != x.agent && y.meets x && !y.behind q
          && (y.cls < x.cls || (y.cls == x.cls && y.since < x.since)))

/-- Inside a step that holds locks: go on if they cover some more addresses; otherwise it gives them all back and takes them again in
ascending order (12 R324). -/
def State.whenHeld (s : State) (who : Holder) (as : List Nat) (k : State) : State :=
  if (homedLines as).all (s.holdsLock who) then k else (s.unlock who).stall

/-- A response to a request of another package, by the fields of its header; `status` is 06 Table 6.5's (log 15). -/
def State.respond (s : State) (dest tag status : Nat) (data : List Byte) (spoiled : List Nat) (addr : Nat := 0) (agent : Nat := 0)
    (svc : Nat := 0) (ctx : Nat := 0) (xgen : Nat := 0) : State :=
  s.send { dest := dest, src := s.own, cls := 2, svc := svc, ctx := ctx, xgen := xgen, agent := agent, tag := tag, addr := addr
           opdata := status, data := data, spoiled := spoiled }

/-- The response to a packet. -/
def State.reply (s : State) (p : Packet) (status : Nat) (data : List Byte) (spoiled : List Nat) : Packet :=
  { dest := p.src, src := s.own, cls := 2, svc := p.svc, ctx := p.ctx, xgen := p.xgen, agent := p.agent, tag := p.tag
    addr := p.addr, opdata := status, data := data, spoiled := spoiled }

/-- Note that a lane or chunk of an open operation failed. -/
def State.failLane (s : State) (gid n lane status addr detail : Nat) : State :=
  { s with laneFails := s.laneFails ++ [(gid, n, lane, status, addr, detail)] }

/-- The failures of one operation. -/
def State.failsOf (s : State) (gid n : Nat) : List (Nat × Nat × Nat × Nat × Nat × Nat) :=
  s.laneFails.filter fun f => f.1 == gid && f.2.1 == n

/-- The failure of the lowest-numbered lane or chunk (06 R182). -/
def State.lowestFail (s : State) (gid n : Nat) : Option (Nat × Nat × Nat × Nat × Nat × Nat) :=
  (s.failsOf gid n).foldl (fun best f => match best with
    | none => some f
    | some b => if f.2.2.1 < b.2.2.1 then some f else some b) none

/-- Complete a Kiosk operation with the status of its lowest failing lane; registers that it kept pending are pending
no more. `trap` gives the trap that a wait delivers (06 R182). -/
def State.endKiosk (s : State) (gid n : Nat) (fl : Flags)
    (trap : Nat × Nat × Nat × Nat × Nat × Nat → Word32 → Option TrapInfo) : State :=
  let fs := s.failsOf gid n
  let s1 : State := { s with laneFails := s.laneFails.filter fun f => !(f.1 == gid && f.2.1 == n) }
  let s2 := match s.lowestFail gid n with
    | none => s1.completeOp (.kiosk gid) n 0 none gid fl none
    | some f =>
      let lanes := maskOf fun l => fs.any fun x => x.2.2.1 == l && x.2.2.2.1 == f.2.2.2.1
      s1.completeOp (.kiosk gid) n f.2.2.2.1 (trap f lanes) gid fl none
  s2.updGroup gid fun g => g.unpend (.kiosk n)

/-- The trap of a failed list step or chunk at a wait (06 Table 6.5, 13 Table 13.10). -/
def kioskTrap (n : Nat) (f : Nat × Nat × Nat × Nat × Nat × Nat) (lanes : Word32) : Option TrapInfo :=
  let (_, _, _, st, addr, detail) := f
  let h := (mkHandle 0x02 n).toNat
  match st with
  | 1 => some { code := tcPageFault, status := 1, lanes := lanes, s58 := addr, s59 := akKiosk, s60 := detail, s61 := h }
  | 2 => some { code := tcMisaligned, status := 2, lanes := lanes, s58 := addr, s61 := h }
  | 3 => some { code := tcKioskScope, status := 3, lanes := lanes, s58 := addr, s61 := h }
  | _ => some { code := tcPoison, status := 5, lanes := lanes, s58 := addr, s61 := h }

/-- Put a mark on one lane of two registers by stack position. -/
def Group.markPair (g : Group) (p l : Nat) (k : Mark) : Group :=
  { g with marks := (g.marks.filter fun x => x.scalar || x.lane != l || (x.reg != p && x.reg != p + 1))
      ++ [{ k with scalar := false, reg := p, lane := l }, { k with scalar := false, reg := p + 1, lane := l }] }

/-- Write one lane of a pair by stack position. -/
def Group.setPair (g : Group) (p l v : Nat) : Group :=
  let m : Word32 := BitVec.ofNat 32 (2 ^ l)
  (g.putPos p m fun _ => BitVec.ofNat 32 v).putPos (p + 1) m fun _ => BitVec.ofNat 32 (v / 2 ^ 32)

/-! ### Chases (06 R184, R185; 12 R334) -/

/-- How a chase ends. -/
inductive ChaseEnd where
  | value (x : Nat)
  /-- `peer` is one more than the package that could not be reached (12 R332); `reply` the failure reply of a page request (06 R181) -/
  | failed (status : Nat) (a : Nat) (peer : Nat := 0) (reply : Nat := 0)
  deriving DecidableEq, Repr

/-- A packet whose lane belongs to this package has returned: D is written or marked, and the operation completes with
its last lane (06 R184, R185). -/
def State.chaseReturned (s : State) (c : Chase) (k hops p : Nat) (e : ChaseEnd) : State :=
  let s0 : State := { s with chases := s.chases.filter fun x => !(x.gid == c.gid && x.seqNo == c.seqNo && x.lane == c.lane
                                                  && x.origin.isNone) }
  let s1 := match e with
    | .value x => s0.updGroup c.gid fun g => g.setPair c.dreg c.lane x
    | .failed st a peer reply =>
      let mark : Mark := { scalar := false, reg := 0, lane := 0, kind := if st == 5 then .poison else .chase st k hops, addr := a
                           aux := if st == 5 then c.word else p, handle := (mkHandle 0x02 c.seqNo).toNat, peer := peer, reply := reply }
      (s0.updGroup c.gid fun g => (g.setPair c.dreg c.lane p).markPair c.dreg c.lane mark).failLane c.gid c.seqNo c.lane st a 0
  if s1.chases.any (fun x => x.gid == c.gid && x.seqNo == c.seqNo && x.origin.isNone) then s1
  else s1.endKiosk c.gid c.seqNo 0 fun _ _ => none

/-- A chase ends here: straight to the lane, or to the package that it came from. The response holds the value or the
partial pointer, and the faulting address. -/
def State.endChase (s : State) (c : Chase) (hops : Nat) (e : ChaseEnd) : State :=
  match c.origin with
  | none => s.chaseReturned c c.k hops c.p e
  | some (pkg, tag, ctx, svc) =>
    let s1 : State := { s with chases := s.chases.filter fun x => x != c }
    let answer := fun (status : Nat) (bs : List Byte) => s1.respond pkg tag status bs [] c.reqAddr c.agent svc ctx c.xgen
    match e with
    | .value x => answer 0 (leBytes 8 x ++ leBytes 8 0)
    | .failed st a _ _ => answer (st + 256 * c.k + 65536 * hops) (leBytes 8 c.p ++ leBytes 8 a)

/-- The data of a chase packet: the steps, the pointer, and the state of the walk (log 15). -/
def chaseData (c : Chase) (a : Nat) : List Byte :=
  ((List.range 8).flatMap fun k => match c.steps[k]? with
    | some d => leBytes 8 d.mask.toNat ++ leBytes 4 d.off.toNat ++ leBytes 4 d.width
    | none => leBytes 16 0)
  ++ leBytes 8 c.p ++ leBytes 8 a
  ++ leBytes 8 (c.n + c.hopLimit * 2 ^ 8 + c.k * 2 ^ 16 + c.hops * 2 ^ 24 + c.supervisor.toNat * 2 ^ 32
      + (c.owner.getD 0) * 2 ^ 40)

/-- The chase that a packet carries. -/
def chaseOf (p : Packet) : Chase :=
  let w := fun (o n : Nat) => leValue ((p.data.drop o).take n)
  let st := w 144 8
  { gid := 0, seqNo := 0, lane := 0, dreg := 0, n := field st 0 8, hopLimit := field st 8 8
    steps := (List.range 8).map fun k => { mask := BitVec.ofNat 64 (w (16 * k) 8), off := BitVec.ofNat 32 (w (16 * k + 8) 4), width := w (16 * k + 12) 4 }
    k := field st 16 8, hops := field st 24 8, p := w 128 8, owner := some (field st 40 16), supervisor := field st 32 1 == 1
    origin := some (p.src, p.tag, p.ctx, p.svc), agent := p.agent, xgen := p.xgen, reqAddr := p.addr
    arrived := some { va := w 136 8, pa := p.addr, inv := p.opdata } }

/-- The name of the `gen`-th invalidation that package `j` issued for a context (log 15). -/
def invStamp (j gen : Nat) : Nat := 1 + gen % 2 ^ 32 + 2 ^ 32 * j

/-- A forwarded step was translated before an invalidation that this package has taken since: within the package by the translation
generation; elsewhere by the latest square-wide invalidation that its sender had taken, where this package knows a later one (13 R354,
R355; log 15). -/
def State.stale (s : State) (c : Chase) : Bool :=
  let x := s.ctx (s.chaseCtx c)
  match c.arrived with
  | none => false
  | some a => match a.xgen with
    | some g => decide (g < x.xgen.toNat)
    | none => x.invs.headD 0 != a.inv && (a.inv == 0 || x.invs.contains a.inv)

/-- Send a chase on to another package: from its origin as a request that stays open, and from anywhere else with the
origin's fields kept (12 R334). -/
def State.forwardChase (s : State) (c : Chase) (ctx a pa : Nat) : State :=
  let pkt : Packet :=
    { dest := pkgOf pa, src := s.own, cls := 3, op := opChase, ctx := ctx, xgen := (s.ctx ctx).xgen.toNat, addr := pa
      agent := c.agent, opdata := (s.ctx ctx).invs.headD 0, data := chaseData c a }
  match c.origin with
  | none =>
    let s1 : State := { s with chases := s.chases.map fun x => if x == c then { c with away := true } else x }
    s1.ask { pkt with svc := s.svcOf c.gid } (.chase c.gid c.seqNo c.lane)
  | some (pkg, tag, _, svc) =>
    ({ s with chases := s.chases.filter fun x => x != c } : State).send { pkt with src := pkg, tag := tag, svc := svc }

/-- The read of a chase step at a local address, by its owner (06 R184). A packet from another package may name an address that is no
HBM or SCM of this one; its read fails with status 1, and no hole is touched (01 R16). -/
def State.chaseRead (s : State) (c : Chase) (hops : Nat) (a pa : Nat) : State :=
  let d := c.desc
  let as := span (locOf pa) d.width
  let kiosk := kioskOf (locOf pa)
  let cls := s.chaseClass c
  if !s.ownMemory pa || a % d.width != 0 then s.endChase c hops (.failed (if a % d.width != 0 then 2 else 1) a)
  else if !s.mayServe kiosk c.holder { cls := cls, since := c.since, agent := c.by_, lines := linesOf as } then s.stall
  else s.whenTaken c.holder as fun s0 =>
    let s1 := (s0.request (257 + kiosk) cls (locOf pa) false false (s.chaseCtx c)).verify (byKiosk kiosk (s.chaseCtx c)) as
    if s1.isBad as then s1.endChase c hops (.failed 5 a)
    else
      let x := leValue (s1.readHome (locOf pa) d.width)
      if c.k + 1 == c.n then s1.endChase c hops (.value x)
      else { s1 with chases := s1.chases.map fun y =>
               if y == c then { c with p := x, k := c.k + 1, hops := hops, owner := some (s.own * 16 + kiosk), arrived := none,
                                       resumed := false, since := s.clock } else y }

/-- The chase with its hop counted goes to another package. -/
def State.forwardChaseTo (s : State) (c : Chase) (hops ctx a pa : Nat) : State :=
  let c1 := { c with hops := hops, resumed := false }
  ({ s with chases := s.chases.map fun y => if y == c then c1 else y } : State).forwardChase c1 ctx a pa

/-- The chase with its hop counted joins the queue of another Kiosk of the package, when that has a place (12 R333, R334). -/
def State.hopTo (s : State) (c : Chase) (hops ctx a pa : Nat) : State :=
  if kioskPlaces ≤ s.kioskLoad (kioskOf (locOf pa)) then s.stall
  else
    let goal : Arrival := { va := a, pa := pa, xgen := some (s.ctx ctx).xgen.toNat }
    { s with chases := s.chases.map fun y =>
        if y == c then { c with hops := hops, resumed := false, since := s.clock, arrived := some goal } else y }

/-- One step of a chase: its Kiosk takes it, or forwards it to the Kiosk of its line. -/
def State.chaseStep (s : State) (c : Chase) : State :=
  let d := c.desc
  let a := c.addr
  let ctx := s.chaseCtx c
  match c.arrived with
  | some x => if s.stale c then s.endChase c c.hops (.failed 1 x.va) else s.chaseRead c c.hops x.va x.pa
  | none =>
    let core := ((aget s.groups c.gid).map s.coreOf).getD 0
    let caches := match c.owner with
      | none => coreTlbs core
      | some o => [.kiosk (o % 16)]
    if a % d.width != 0 then s.endChase c c.hops (.failed 2 a)
    else match s.translate caches ctx c.supervisor .read a with
      | .wait s' => s'
      | .fail st lv _ s1 =>
        if c.owner.isSome then s1.endChase c c.hops (.failed 1 a)
        else match s1.pageRequest ctx a akKiosk st lv c.gid with
          | some s2 => { s2 with chases := s2.chases.map fun y => if y == c then { c with heldPage := some (a / 4096) } else y }
          | none => s1.stall
      | .ok x s1 =>
        if x.kind == 3 then s1.endChase c c.hops (.failed 3 a)
        else
          let owner := pkgOf x.pa * 16 + kioskOf (locOf x.pa)
          let hop := match c.owner with
            | none => c.resumed
            | some o => o != owner
          let hops := c.hops + hop.toNat
          if c.hopLimit < hops then s1.endChase c hops (.failed 4 a)
          else if x.kind == 2 then s1.forwardChaseTo c hops ctx a x.pa
          else if c.owner.isSome && hop then s1.hopTo c hops ctx a x.pa
          else s1.chaseRead c hops a x.pa

/-- `CHASE_STEP`: the chase in place `input.index` takes one step. -/
def execChaseStep (s : State) : Host.Outcome State Fault Refusal :=
  .next <| match s.chases[s.input.index]? with
    | some c => if c.away || c.heldPage.isSome then s.stall else s.chaseStep c
    | none => s.stall

/-! ### Lists (06 R187) -/

/-- A list operation has lanes left, or is done. -/
def State.listNext (s : State) (o : ListOp) (kiosk : Nat) : State :=
  let o1 := { o with lanes := o.lanes.drop 1, nodes := o.nodes.drop 1, kiosk := some kiosk }
  if o1.lanes.isEmpty then
    let core := ((aget s.groups o.gid).map s.coreOf).getD 0
    let s1 : State := { s with listOps := s.listOps.filter fun x => x != o }
    let s2 := s1.endKiosk o.gid o.seqNo 0 fun f m => if o.enq then kioskTrap o.seqNo f m else none
    if o.enq then s2 else s2.dropClean core
  else { s with listOps := s.listOps.map fun x => if x == o then o1 else x }

/-- A lane of a list operation fails: a `KDEQ` marks it (06 R182, R187). -/
def State.listFail (s : State) (o : ListOp) (lane status addr reply : Nat) : State :=
  let s1 := s.failLane o.gid o.seqNo lane status addr reply
  if o.enq then s1
  else s1.updGroup o.gid fun g => g.markPair o.dreg lane
    { scalar := false, reg := 0, lane := 0, kind := if status == 5 then .poison else .list status reply, addr := addr
      aux := if status == 5 then o.word else 0, handle := (mkHandle 0x02 o.seqNo).toNat }

/-- Every lane that is left fails with the head's own failure. -/
def State.listEnd (s : State) (o : ListOp) (status reply : Nat) : State :=
  let s1 := o.lanes.foldl (fun (s : State) l => s.listFail o l status o.head reply) s
  ({ s1 with listOps := s1.listOps.filter fun x => x != o } : State).endKiosk o.gid o.seqNo 0
    fun f m => if o.enq then kioskTrap o.seqNo f m else none

/-- Translate the address of a node in a Kiosk's cache: a status with the walk's, or its local address. -/
def State.nodeAt (s : State) (k ctx : Nat) (sup : Bool) (need : Need) (va : Nat) (ok : Nat → Xlat → State → State)
    (bad : Nat → Nat → State → State) : State :=
  if va % 8 != 0 then bad 2 0 s
  else match s.translate [.kiosk k] ctx sup need va with
    | .wait s' => s'
    | .fail st _ _ s1 => bad 1 st s1
    | .ok x s1 => if 2 ≤ x.kind then bad 3 0 s1 else ok (locOf x.pa) x s1

/-- Where a Kiosk finds a virtual address: by its cached translation, else by a walk. -/
def State.kioskLoc (s : State) (k ctx : Nat) (sup : Bool) (need : Need) (va : Nat) : Option Nat :=
  match (s.tlbFind (.kiosk k) ctx (va % 2 ^ 57)).filter fun e => e.serves sup need with
  | some e =>
    let pa := (e.xlat (va % 2 ^ 57)).pa
    if s.ownMemory pa then some (locOf pa) else none
  | none => s.locAt ctx va

/-- The bytes that a lane's step touches as the list now stands, its head at local address `h` (06 R187). -/
def State.listSpan (s : State) (o : ListOp) (ctx k h node : Nat) : List Nat :=
  let at_ := fun (i : Nat) => leValue (s.readRecalled (h + 8 * i) 8)
  let filled := fun (va : Nat) => if va == 0 then [] else [va]
  let nodes := (if o.enq then node :: filled (at_ 1) else filled (at_ 0)).filter fun va => va % 8 == 0
  span h 16
    ++ (nodes.filterMap (s.kioskLoc k ctx o.supervisor (if o.enq then .write else .read))).flatMap fun a => span a 8

/-- Write one 64-bit word of a Kiosk step. -/
def State.writeWord (s : State) (o : ListOp) (x : Xlat) (a v : Nat) : State :=
  s.homeWrite { cells := (List.range 8).map fun j => (a + j, (leBytes 8 v).getD j 0), gid := some o.gid, tag := o.tag, through := x.pt }

/-- The step of one lane on a head at local address `h` (06 R187). Its locks are taken in ascending order before it reads (12 R324). -/
def State.listLane (s : State) (o : ListOp) (ctx k : Nat) (hx : Xlat) (lane node : Nat) : State :=
  let h := locOf hx.pa
  let head := span h 16
  let who : Holder := [1, o.gid, o.seqNo]
  let cls := s.svcOf o.gid
  let fail := fun (addr st reply : Nat) (s : State) => (s.listFail o lane st addr reply).listNext o k
  if !s.mayServe k who { cls := cls, since := o.since, agent := o.gid, lines := linesOf head } then s.stall
  else s.whenTaken who (s.listSpan o ctx k h node) fun s0 =>
    let s1 := (s0.request (257 + k) cls h true false ctx).verify (byKiosk k ctx) head
    if s1.isBad head then fail o.head 5 0 s1
    else
      let first := leValue (s1.readHome h 8)
      let last := leValue (s1.readHome (h + 8) 8)
      if o.enq then
        s1.nodeAt k ctx o.supervisor .write node (bad := fail node) fun n nx s2 =>
          s2.whenHeld who (span n 8) <|
            let s2 := s2.request (257 + k) cls n true false ctx
            if last == 0 then
              (((s2.writeWord o nx n 0).writeWord o hx h node).writeWord o hx (h + 8) node).listNext o k
            else s2.nodeAt k ctx o.supervisor .write last (bad := fail last) fun m mx s3 =>
              s3.whenHeld who (span m 8) <|
                -- the node's own pointer is cleared before the last node's is set (06 R187)
                ((((s3.request (257 + k) cls m true false ctx).writeWord o nx n 0).writeWord o mx m node).writeWord o hx (h + 8) node).listNext o k
      else
        let deliver := fun (s : State) => (s.updGroup o.gid fun g => g.setPair o.dreg lane first).listNext o k
        if first == 0 then deliver s1
        else s1.nodeAt k ctx o.supervisor .read first (bad := fail first) fun n _ s2 =>
          s2.whenHeld who (span n 8) <|
            let s3 := (s2.request (257 + k) cls n false false ctx).verify (byKiosk k ctx) (span n 8)
            if s3.isBad (span n 8) then fail first 5 0 s3
            else
              let next := leValue (s3.readHome n 8)
              let s4 := s3.writeWord o hx h next
              deliver (if next == 0 then s4.writeWord o hx (h + 8) 0 else s4)

/-- `KIOSK_LIST_STEP`: the list operation in place `input.index` takes its next lane's step. The head is translated at
the core first, and then by its Kiosk (06 R181). -/
def execKioskListStep (s : State) : Host.Outcome State Fault Refusal :=
  .next <| match s.listOps[s.input.index]? with
    | none => s.stall
    | some o =>
      if o.heldPage.isSome then s.stall
      else
        let g := aget s.groups o.gid
        let ctx := (g.map s.ctxOf).getD 0
        let core := (g.map s.coreOf).getD 0
        let caches := match o.kiosk with
          | none => coreTlbs core
          | some k => [.kiosk k]
        match s.translate caches ctx o.supervisor .write o.head with
        | .wait s' => s'
        | .fail st lv _ s1 =>
          if o.kiosk.isSome then (s1.listFail o (o.lanes.headD 0) 1 o.head st).listNext o (o.kiosk.getD 0)
          else match s1.pageRequest ctx o.head akKiosk st lv o.gid with
            | some s2 => { s2 with listOps := s2.listOps.map fun y =>
                if y == o then { o with heldPage := some (o.head % 2 ^ 57 / 4096) } else y }
            | none => s1.stall
        | .ok x s1 =>
          if 2 ≤ x.kind then s1.listEnd o 3 0
          else s1.listLane o ctx (kioskOf (locOf x.pa)) x (o.lanes.headD 0) (o.nodes.headD 0)

/-! ### Rows (06 R175, R176; 12 R333, R335, R337) -/

/-- The new word of a row update, and its flags. -/
def rowWord (op : Nat) (origin : BitVec 22) (old d : Word32) : Word32 × Flags :=
  let half := fun (f : FVal → FVal → FVal → Exact) =>
    let o := lHalf .bf16 .rn false false f { a := old.zeroExtend 64, b := d.zeroExtend 64, origin := origin }
    (lo32 o.r, o.fl)
  match op with
  | 0 => half fun x y _ => fadd .rn origin x y
  | 1 => half fun x y _ => fminmax true x y
  | _ => (d, 0)

/-- A little-endian word of some bytes. -/
def wordAt (bs : List Byte) (o : Nat) : Word32 := BitVec.ofNat 32 (leValue ((bs.drop o).take 4))

/-- What a row operation writes: cells by offset, and flags. -/
def rowResult (r : RowOp) (old : List Byte) : List (Nat × Byte) × Flags :=
  if r.op == 3 then ([], 0)
  else if 3 < r.op || r.op == 2 then (r.data, 0)
  else
    let words := uniq (r.data.map fun c => c.1 / 4)
    let bytes := r.data
    let word := fun (w : Nat) => BitVec.ofNat 32 (leValue ((List.range 4).map fun b => (aget bytes (4 * w + b)).getD 0))
    let outs := words.map fun w => (w, rowWord r.op (r.origin.extractLsb' 0 22) (wordAt old (4 * w)) (word w))
    (outs.flatMap fun o => (List.range 4).map fun b => (4 * o.1 + b, (leBytes 4 o.2.1.toNat).getD b 0),
      Flags.union (outs.map fun o => o.2.2))

/-- The result registers of a row: the old row in the active lanes, or poison marks. -/
def Group.rowDone (g : Group) (dreg size : Nat) (lanes : Word32) (old : List Byte) (bad : Option (Nat × Nat)) (word : Nat) : Group :=
  (List.range (rowRegs size)).foldl (fun (g : Group) j =>
    let m := maskOf fun l => lanes.getLsbD l && decide (128 * j + 4 * l < size)
    match bad with
    | none => g.putPos (dreg + j) m fun l => wordAt old (128 * j + 4 * l)
    | some (addr, peer) =>
      { g with marks := (g.marks.filter fun x => x.scalar || x.reg != dreg + j || !m.getLsbD x.lane)
          ++ (lanesOf m).map fun l => { poisonMark addr word peer with reg := dreg + j, lane := l } }) g

/-- Increment a saturating 32-bit counter. -/
def bump {κ : Type} [DecidableEq κ] (m : AMap κ Nat) (k : κ) : AMap κ Nat := aset m k (min (agetD m k 0 + 1) 0xFFFFFFFF)

/-- Operations on overlapping bytes. -/
def RowOp.overlaps (x y : RowOp) : Bool := locOf x.pa < locOf y.pa + y.size && locOf y.pa < locOf x.pa + x.size

/-- A step of row operation `r` has begun: it holds a lock. -/
def State.rowBegun (s : State) (r : RowOp) : Bool := s.dir.any fun e => e.2.st == .locked && e.2.holder == [0, r.id]

/-- The row operation that a Kiosk serves next: one that has begun; else of the lowest class, in arrival order, never past an earlier
one of the same agent on the same row (12 R333). -/
def State.nextRow (s : State) (k : Nat) : Option RowOp :=
  let mine := s.rowOps.filter fun r => r.kiosk == k
  let free := mine.filter fun r => !(mine.takeWhile fun x => x != r).any fun x => x.agent == r.agent && x.kstep.meets r.kstep
  (mine.find? s.rowBegun).orElse fun _ => free.foldl (fun best r => match best with
    | none => some r
    | some b => if r.cls < b.cls then some r else some b) none

/-- Count a read that an earlier update of another agent waits for, once (12 R335). -/
def State.countLag (s : State) (r : RowOp) : State :=
  let ahead := (s.rowOps.takeWhile fun x => x != r).any fun x => x.kiosk == r.kiosk && x.op != 3 && x.agent != r.agent && x.overlaps r
  if r.op == 3 && !r.lagged && ahead then
    { s with lags := bump s.lags (r.kiosk, 4 * (if r.sender.isSome then 256 else r.requester) + r.cls)
             rowOps := s.rowOps.map fun x => if x == r then { r with lagged := true } else x } else s

/-- A row operation joins its Kiosk's queue; behind an `STM.row` update the reads of its row are looked at (12 R335). -/
def State.addRow (s : State) (r : RowOp) : State :=
  let s1 := if r.op != 4 then s
    else (s.rowOps.filter fun x => x.kiosk == r.kiosk && x.overlaps r).foldl State.countLag s
  { s1 with rowOps := s1.rowOps ++ [r] }

/-- The bytes that a row operation touches. -/
def RowOp.addrs (r : RowOp) : List Nat :=
  let a := locOf r.pa
  if 3 < r.op then r.data.map fun c => a + c.1 else span a r.size

/-- Send a packet that counts against a version of the multicast table (12 R336). -/
def State.sendCounted (s : State) (p : Packet) (version : Option Nat) : State :=
  { s with egress := s.egress ++ p.parts.map fun q => { pkt := q.sealed, since := s.now.toNat, version := version } }

/-- Perform a row operation: read, compute, write, answer (06 R175). -/
def State.rowPerform (s : State) (r : RowOp) : State :=
  let a := locOf r.pa
  let as := r.addrs
  s.whenTaken [0, r.id] as fun s0 =>
    let s1 := ((s0.countLag r).request (257 + r.kiosk) r.cls a (r.op != 3) false r.ctx (plain := decide (3 < r.op))).verify (byKiosk r.kiosk r.ctx)
      (if 3 < r.op then [] else as)
    let s2 : State := { s1 with rowOps := s1.rowOps.filter fun x => x.id != r.id }
    let old := s2.readHome a r.size
    let bad := r.op ≤ 3 && s2.isBad as
    let (cells, fl) := rowResult r old
    let lost := !cells.isEmpty && as.any fun x => inFirmware x || s2.withdrawn x
    let answer : Option Packet := r.sender.map fun x =>
      { dest := x.1, src := s2.own, cls := 2, svc := r.cls, ctx := r.ctx, xgen := r.xgen, agent := r.by_, tag := x.2, addr := r.pa
        opdata := (if bad then 5 else if lost then 7 else 0) + 256 * (if bad then 0 else fl.toNat), data := if 3 < r.op then [] else old
        spoiled := if bad then (beatsOf as).filter fun b => b ∈ s2.poison else [] }
    -- what a persist queue is to take is answered for when it does (06 R198)
    let later := r.pt && !(bad || lost || cells.isEmpty)
    let s3 := if bad || cells.isEmpty then s2
      else s2.homeWrite { cells := cells.map fun c => (a + c.1, c.2), gid := r.gid, tag := r.tag, through := r.pt
                          ack := if later then answer else none }
    let s4 := match r.gid with
      | some gid =>
        if 3 < r.op then s3
        else (if r.acquire then s3.dropClean r.requester else s3).updGroup gid fun g =>
          ((g.rowDone r.dreg r.size r.lanes old (if bad then some (r.va, 0) else none) r.word).unpend (.row r.id)).raiseLate
            (if bad then 0 else fl)
      | none => s3
    let s5 := match (if later then none else answer) with
      | some p => s4.send p
      | none => s4
    r.members.foldl (fun (s : State) j =>
      s.sendCounted { dest := j, src := r.fan.1, tag := r.fan.2, cls := 4, op := opRowUpdate, svc := r.cls, ctx := r.ctx, xgen := r.xgen, agent := r.by_
                      addr := paOf j (locOf r.pa), opdata := r.size * 256 + r.entry % 256
                      data := leBytes 8 r.tag.toNat ++ r.data.flatMap fun c => leBytes 2 c.1 ++ [c.2] } r.version) s5

/-- `ROW_STEP`: the Kiosk `input.unit` serves its next row operation. -/
def execRowStep (s : State) : Host.Outcome State Fault Refusal :=
  .next <| match s.nextRow s.input.unit with
    | some r => if s.mayServe s.input.unit [0, r.id] r.kstep then s.rowPerform r else s.stall
    | none => s.stall

/-! ### Recipes (06 R188, R189) -/

/-- The values of `e0` to `e3`. -/
abbrev Elems := List Nat

/-- Round with a micro-operation's code. -/
def microRnd (u : Nat) : Rnd := (Rnd.ofCode (BitVec.ofNat 3 (u / 2 ^ 13))).getD .rn

/-- One micro-operation on one element (06 Table 6.6). -/
def microStep (rcp : List Byte) (origin : BitVec 22) (es : Elems) (u : Nat) : Elems × Flags :=
  let ftz := field (leValue ((rcp.drop 96).take 1)) 7 1 == 1
  let rm : RMode := { rnd := microRnd u, ftz := ftz }
  let rd := fun (x : Nat) => Fmt.f32.decode ftz 0 x
  let c := fun (j : Nat) => leValue ((rcp.drop (64 + 4 * j)).take 4)
  let j := field u 10 3
  let es_ := es.getD (field u 6 2) 0
  let et_ := es.getD (field u 8 2) 0
  let (x, y, c0, c1) := (rd es_, rd et_, rd (c j), rd (c (j + 1)))
  let (r, fl) := match u % 16 with
    | 1 => Fmt.f32.write rm (nanFirst [x, y, c0] (ffma (microRnd u) origin x c0 y))
    | 2 => Fmt.f32.write rm (fmul origin x c0)
    | 3 => Fmt.f32.write rm (nanFirst [x, c0, c1] (fminmax false (fminmax true x c0).v c1))
    | 4 =>
      let inner := mulCore origin c1 x
      let sum := if inner.v.isNan then inner else addCore (microRnd u == .rd) origin y inner.v
      let prod := if sum.v.isNan then sum else mulCore origin c0 sum.v
      let all := if prod.v.isNan then prod else addCore (microRnd u == .rd) origin x prod.v.flip
      Fmt.f32.write rm (nanFirst [x, y, c0, c1] all)
    | 5 => (es_, 0)
    | _ =>
      if x.isNan || c0.isNan then Fmt.f32.write rm (nanFirst [x, c0] { v := x })
      else if fless x c0 then (et_, 0) else (es_, 0)
  (es.set (field u 4 2) r, fl)

/-- Run a recipe on one element. -/
def microRun (rcp : List Byte) (origin : BitVec 22) (es : Elems) : Elems × Flags :=
  (recipeOps rcp).foldl (fun (acc : Elems × Flags) u =>
    let (es1, fl) := microStep rcp origin acc.1 u
    (es1, acc.2 ||| fl)) (es, 0)

/-- Translate the accessed arrays of a chunk, the operation's first address by the core and the others in the cache of the Kiosk that
performs the chunk; a status and address when one fails (06 R181, R182). Where the recipe does not access `x0`, of whose stack 06 R189
names the Kiosk though `x0` is then not accessed, it is that of the first array accessed (DESIGN CHOICE: log 64). -/
def State.chunkXlat (s : State) (v : KvUp) (ctx core kiosk chunk : Nat) :
    List Nat → List (Nat × Xlat) → (List (Nat × Xlat) → State → State) → (Nat → Nat → Nat → State → State) → State
  | [], acc, ok, _ => ok acc s
  | a :: as, acc, ok, bad =>
    let used := recipeReads v.recipe a || recipeWrites v.recipe a
    let va := (if a == 0 then v.x0 else if a == 1 then v.x1 else v.x2) + 64 * chunk
    if !used then s.chunkXlat v ctx core kiosk chunk as acc ok bad
    else
      let caches := if chunk == 0 && acc.isEmpty then coreTlbs core else [.kiosk kiosk]
      match s.translate caches ctx v.supervisor (if recipeWrites v.recipe a then .write else .read) va with
      | .wait s' => s'
      | .fail st _ _ s1 => bad 1 va st s1
      | .ok x s1 =>
        if 2 ≤ x.kind then bad 3 va 0 s1
        else s1.chunkXlat v ctx core kiosk chunk as (acc ++ [(a, x)]) ok bad

/-- A chunk is done. -/
def State.chunkDone (s : State) (v : KvUp) (chunk : Nat) (fl : Flags) : State :=
  let v1 := { v with chunks := delSet v.chunks chunk, fl := (BitVec.ofNat 6 v.fl ||| fl).toNat }
  if v1.chunks.isEmpty then
    ({ s with kvups := s.kvups.filter fun x => x != v } : State).endKiosk v.gid v.seqNo (BitVec.ofNat 6 v1.fl)
      fun f m => if f.2.2.2.1 == 5 then none else kioskTrap v.seqNo f m
  else { s with kvups := s.kvups.map fun x => if x == v then v1 else x }

/-- Run the recipe over one chunk whose arrays are translated (06 R189). -/
def State.chunkRun (s : State) (v : KvUp) (chunk : Nat) (xs : List (Nat × Xlat)) : State :=
  let count := min 16 (v.n - 16 * chunk)
  let at_ := fun (x : Xlat) => span (locOf x.pa) (4 * count)
  let all := xs.flatMap fun x => at_ x.2
  let kiosk := ((xs.head?).map fun x => kioskOf (locOf x.2.pa)).getD 0
  let who : Holder := [3, v.gid, v.seqNo, chunk]
  let step : KStep := { cls := s.svcOf v.gid, since := v.since, agent := v.gid, lines := linesOf all }
  if !s.mayServe kiosk who step then s.stall
  else s.whenTaken who all fun s =>
    let reads := xs.filter fun x => recipeReads v.recipe x.1
    let ins := reads.flatMap fun x => at_ x.2
    let s0 := xs.foldl (fun (s : State) x =>
      s.request (257 + kiosk) (s.svcOf v.gid) (locOf x.2.pa) (recipeWrites v.recipe x.1) false (s.ctxOfId v.gid)
        (plain := !recipeReads v.recipe x.1)) s
    let ctx := s0.ctxOfId v.gid
    let s1 := s0.verify (byKiosk kiosk ctx) ins
    let bad := s1.isBad ins
    let bytes := xs.map fun x => (x.1, s1.readHome (locOf x.2.pa) (4 * count))
    let elem := fun (a i : Nat) => if recipeReads v.recipe a then (wordAt (agetD bytes a []) (4 * i)).toNat else 0
    let outs := (List.range count).map fun i =>
      microRun v.recipe (v.origin.extractLsb' 0 22) [elem 0 i, elem 1 i, elem 2 i, 0]
    let tag := v.tag
    let s2 := (xs.filter fun x => recipeWrites v.recipe x.1).foldl (fun (s : State) x =>
      let bs := outs.flatMap fun o => leBytes 4 (o.1.getD x.1 0)
      s.homeWrite { cells := (List.range (4 * count)).map fun k => (locOf x.2.pa + k, bs.getD k 0), gid := some v.gid, tag := tag
                    through := x.2.pt, spoiled := bad }) s1
    if bad then
      ((s2.record { kind := 0x0A, aux := (mkHandle 0x02 v.seqNo).toNat, addr := v.x0 + 64 * chunk, virt := true, unitType := 4
                    unit := kiosk, severity := 1, ctx := ctx, gen := (s2.ctx ctx).gen.toNat }).failLane v.gid v.seqNo chunk 5 (v.x0 + 64 * chunk) 0).chunkDone v chunk 0
    else s2.chunkDone v chunk (Flags.union (outs.map Prod.snd))

/-- `KVUP_CHUNK`: the operation in place `input.index` runs its chunk in place `input.unit` of those left. -/
def execKvupChunk (s : State) : Host.Outcome State Fault Refusal :=
  .next <| match s.kvups[s.input.index]? with
    | none => s.stall
    | some v => match v.chunks[s.input.unit]? with
      | none => s.stall
      | some chunk =>
        let g := aget s.groups v.gid
        let ctx := (g.map s.ctxOf).getD 0
        let kiosk := (s.kioskAt ctx (v.chunkAt chunk)).getD 0
        if (s.kioskAt ctx (v.chunkAt chunk)).isSome && !(s.chunksAt v kiosk).contains chunk then s.stall
        else s.chunkXlat v ctx ((g.map s.coreOf).getD 0) kiosk chunk [0, 1, 2] []
          (fun xs s1 => s1.chunkRun v chunk xs)
          fun st va reply s1 => (s1.failLane v.gid v.seqNo chunk st va reply).chunkDone v chunk 0

/-- `RECIPE_INSTALL`: the Kiosk `input.unit` installs the recipe of the `KRCP` in place `input.index`; with the twelfth
the slot holds it and the operation completes. It waits for every `KVUP` of the slot (06 R188). -/
def execRecipeInstall (s : State) : Host.Outcome State Fault Refusal :=
  .next <| match s.krcps[s.input.index]? with
    | none => s.stall
    | some k =>
      let inUse := s.kvups.any fun v => v.slot == k.slot && ((aget s.groups v.gid).map s.ctxOf) == some k.ctx
      if 12 ≤ s.input.unit || k.installed.contains s.input.unit || inUse then s.stall
      else
        let k1 := { k with installed := k.installed ++ [s.input.unit] }
        if k1.installed.length < 12 then { s with krcps := s.krcps.map fun x => if x == k then k1 else x }
        else
          (({ s with krcps := s.krcps.filter fun x => x != k } : State).updCtx k.ctx fun c =>
            { c with recipes := aset c.recipes k.slot { bytes := k.recipe } }).endKiosk k.gid k.seqNo 0 fun _ _ => none

end Sys2Proof.Machine
end

