-- ==== Sys2Proof/Machine/Fence.lean ====
section
/-!
DEFINITION. Fences, code synchronisation, persistence barriers and the step counter (06 R193-R199; 11 R295, R305).
-/
namespace Sys2Proof.Machine

/-- Stores of the group that were lost, if any, trap; otherwise go on (06 R194). -/
def State.noLoss (s : State) (gid : Nat) (g : Group) (k : State) : State :=
  match g.storeLost? with
  | some (t, g1) => s.trap gid g1 t
  | none => k

/-- `FENCE`: it waits for the group's reads, with acquire order those of logged `ATOM`s too, and with release order for its logged,
queued and remote writes; it delivers `STORE_LOST` and, at team scope or wider, a Kiosk failure that no wait delivered (06 R182, R193,
R194; 11 R295). -/
def execFence (a : MArgs) (s : State) : Host.Outcome State Fault Refusal :=
  onGroupPlain s fun gid g =>
    let core := s.coreOf g
    let rel := Order.isRel a.order
    let acq := Order.isAcq a.order
    if g.readsOut || s.acquiring gid || (acq && g.logsOut) || (rel && (s.logs gid || s.writesOut gid)) then s.stall
    else s.noLoss gid g <|
      match (if a.scope == .grp then none else s.owed gid) with
      | some (key, n, t) => (s.delivered key n).trap gid g t
      | none => s.whenReleased core rel a.scope fun s1 => (s1.acqL1 core acq a.scope).done gid g.advance

/-- `ISYNC`: the loop buffer goes; the model holds no other fetched word (06 R196). -/
def execIsync (_a : SArgs) (s : State) : Host.Outcome State Fault Refusal :=
  runPlain s (fun _ => []) [] fun g => { g with loopBuf := none }

/-- The cores of a package within a scope of a core. -/
def scopeHolds (scope core other : Nat) : Bool :=
  if scope == 2 then other == core else if scope == 3 then other / 64 == core / 64 else true

/-- A physical line of code lies under a range of a context's addresses. A range of 2^30 bytes or more counts as holding every line:
to drop a line that is not stale changes nothing. -/
def State.codeUnder (s : State) (ctx lo hi paLine : Nat) : Bool :=
  2 ^ 30 ≤ hi - lo || (List.range ((hi + 4095) / 4096 - lo / 4096)).any fun j =>
    let va := (lo / 4096 + j) * 4096 + paLine % 32 * 128
    lo < va + 128 && va < hi && (s.locAt ctx va).map (fun a => paOf s.own a / 128) == some paLine

/-- `ICINV`: every instruction cache of the scope gives up the lines of the range, under whatever context and address it fetched them
(06 R195, 11 R303). -/
def execIcinv (a : SArgs) (s : State) : Host.Outcome State Fault Refusal :=
  onGroupPlain s fun gid g =>
    let core := s.coreOf g
    let ctx := s.ctxOf g
    let lo := (g.s a.a.toNat).toNat
    let hi := lo + (g.s a.b.toNat).toNat
    if g.anyPending [.s a.a.toNat, .s a.b.toNat] then s.block
    else if s.unsettled gid g then s.stall
    else s.noLoss gid g <|
      s.ready gid g (readsS [a.a.toNat, a.b.toNat]) [] <|
        s.whenBacked core true fun s1 =>
          let hit := fun (k : Nat × Nat × Nat × Nat) =>
            scopeHolds (a.imm.toNat % 16) core k.1
              && ((k.2.1 == ctx && lo < 128 * (k.2.2.1 + 1) && 128 * k.2.2.1 < hi) || s1.codeUnder ctx lo hi k.2.2.2)
          { s1 with icache := s1.icache.filter fun e => !hit e.1 }.done gid g.advance

/-! ### Persistence (06 R197, R198) -/

/-- Write one 64-byte granule of cached SCM into its persist queue, with the dirty bytes of every L1 that holds it; the copies that
L2 holds are clean then. -/
def State.pushGranule (s : State) (gid : Nat) (tag : Word64) (gran : Nat) : State :=
  let line := gran / 2
  let cores := (s.l1.filter fun e => e.1.2 == line).map fun e => e.1.1
  let s1 := cores.foldl (fun (s : State) c => s.writeBackLine c line) s
  let s2 := ({ s1 with l2 := s1.l2.map fun e =>
      if e.1.2 == s1.lineKey line then (e.1, { e.2 with dirty := delSet e.2.dirty gran }) else e } : State).verify
    { detail := 5, ctx := s1.ctxOfId gid } (span (64 * gran) 64)
  s2.enqueuePersist
    { cells := (List.range 64).map fun k => (64 * gran + k, readByte s2.mem (64 * gran + k)), gid := some gid, tag := tag } 0

/-- `PWB`: only cached SCM pages of this package have granules to write (06 R197). -/
def execPwb (a : MArgs) (s : State) : Host.Outcome State Fault Refusal :=
  onGroupPlain s fun gid g =>
    let m := g.active
    let core := s.coreOf g
    s.ready gid g (readsIn (addrRegs a) m) [] <|
      let lanes := (lanesOf m).map fun l => (l, g.addrOf a l)
      if s.logsPage gid (lanes.map Prod.snd) then s.holdLog gid g akLoad lanes false
      else match s.translateLanes core (s.ctxOf g) g.supervisor .read lanes with
        | .wait s' => s'
        | .fail bs _ s1 => s1.holdLanes gid g akLoad bs
        | .ok xs s1 =>
          let mine := xs.filter fun x => x.2.2.kind == 1 && !x.2.2.pt && !s1.inRegion (locOf x.2.2.pa) && !inFirmware (locOf x.2.2.pa)
          let grans := uniq (mine.map fun x => locOf x.2.2.pa / 64)
          s1.whenReady (grans.map (64 * ·)) true <|
            let s2 := grans.foldl (fun (s : State) gr => s.pushGranule gid (s.stepOf g) gr) (s1.putGroup gid g)
            let s3 := s2.updGroup gid fun h => { h with scmDirty := h.scmDirty.filter fun gr => !grans.contains gr }
            let held := fun (line : Nat) => grans.any fun gr => gr / 2 == line
            let s4 := if !a.hint.getLsbD 1 then s3
              else (s3.l2.filter fun e => pkgOf (128 * e.1.2) == s3.own && held (locOf (128 * e.1.2) / 128)).foldl
                (fun (s : State) e => s.l2Drop e.1.1 e.1.2 false)
                ((s3.l1.filter fun e => held e.1.2).foldl (fun (s : State) e => s.dropLine e.1.1 e.1.2) s3)
            s4.advanceGroup gid

/-- A copy in progress that writes to another package. -/
def State.copiesAway (s : State) (o : CopyOp) : Bool :=
  match o.dest with
  | some va => pteKind (s.walk (s.ctxOfId o.gid) (va % 2 ^ 57)).last == 2
  | none => false

/-- Fragments of the group's `STRIPE`s and copies that their peers have not accepted, or that are still to be sent (06 R198). -/
def State.fragmentsOut (s : State) (gid : Nat) : Bool :=
  s.snap.work.any (fun w => w.kind == .stripe && w.gid == gid) || s.copyOps.any (fun o => o.gid == gid && s.copiesAway o)
    || s.remotes.any fun r => match r.what with
    | .copyUnit x _ => x == gid
    | .snap x _ _ fragment => fragment && x == gid
    | _ => false

/-- Lines of other packages' SCM in the core's L1 that hold bytes stored by the group. -/
def State.scmAway (s : State) (gid core : Nat) : List Nat :=
  (s.l1Lines core).filter fun l => isAway l && placeOf (locOf (128 * awayKey l)) == .scm &&
    (match aget s.l1 (core, l) with
      | some x => x.dirty != 0 && x.by_.any fun w => w.1 == gid
      | none => false)

/-- Bytes that the group stored there are on their way to their persist queues. -/
def State.scmBacking (s : State) (gid : Nat) : Bool :=
  s.remotes.any fun r => match r.what with
    | .back _ by_ => placeOf (locOf r.addr) == .scm && by_.any fun w => w.1 == gid
    | _ => false

/-- `PBAR`: cached stores that are not yet durable go into the queues, and the group waits until every one of its
writes is accepted (06 R198). -/
def execPbar (a : SArgs) (s : State) : Host.Outcome State Fault Refusal :=
  onGroupPlain s fun gid g =>
    let stripe := a.imm.getLsbD 0
    if s.logs gid || s.writesOut gid || g.readsOut then s.stall
    else s.noLoss gid g <|
      if !(s.scmAway gid (s.coreOf g)).isEmpty then
        ((s.scmAway gid (s.coreOf g)).foldl (fun (s : State) l => s.writeBackLine (s.coreOf g) l) s).stall
      else if s.scmBacking gid then s.stall
      else if !g.scmDirty.isEmpty then
        s.whenReady (g.scmDirty.map (64 * ·)) true <|
          let s1 := g.scmDirty.foldl (fun (s : State) gr => s.pushGranule gid (s.stepOf g) gr)
            (s.putGroup gid { g with scmDirty := [] })
          (s1.updGroup gid fun h => { h with scmDirty := [] }).stall
      else if !g.persists.isEmpty || (stripe && s.fragmentsOut gid) then s.stall
      else match (if stripe then g.stripeLost else []) with
        | peer :: rest =>
          s.trap gid { g with stripeLost := rest } { code := tcStripeFail, status := 11, s59 := peer }
        | [] => s.done gid g.advance

/-- `STEP` (06 R199). -/
def execStep (a : SArgs) (s : State) : Host.Outcome State Fault Refusal :=
  onGroupPlain s fun gid g =>
    s.ready gid g (readsS [a.a.toNat]) [.s a.d.toNat] <|
      let ctx := s.ctxOf g
      let old := (s.ctx ctx).step
      if old == g.s a.a.toNat then
        if s.logs gid || s.writesOut gid then s.stall
        else (s.updCtx ctx fun c => { c with step := old + 1 }).done gid (g.setS a.d.toNat (old + 1)).advance
      else s.done gid (g.setS a.d.toNat old).advance

end Sys2Proof.Machine
end

