-- ==== Sys2Proof/Machine/Snapshot.lean ====
section
/-!
DEFINITION. Step images, stripes and rebuilds: the ring, the code, `SNAP`, `SNAPQ`, `STRIPE` and `RBLD`, and the work
they start (07 R240-R244; 16 R389-R410).
-/
namespace Sys2Proof.Machine

/-! ### Configuration (16 R391, R392, R400) -/

/-- The context served. -/
def Snap.ctx (n : Snap) : Nat := field n.control.toNat 0 16
/-- N, ring slots. -/
def Snap.nslots (n : Snap) : Nat := field n.control.toNat 24 4
/-- k, data units of a stripe. -/
def Snap.k (n : Snap) : Nat := field n.control.toNat 28 4
/-- m, parity units of a stripe. -/
def Snap.m (n : Snap) : Nat := field n.control.toNat 32 4
/-- This package's member index. -/
def Snap.self (n : Snap) : Nat := field n.control.toNat 36 4
/-- n, members of the stripe set. -/
def Snap.n (n : Snap) : Nat := n.k + n.m
/-- U, image units of a slot. -/
def Snap.u (n : Snap) : Nat := field n.units.toNat 0 32
/-- V (16 R400). -/
def Snap.v (n : Snap) : Nat := (n.u + n.k - 1) / max n.k 1
/-- Z, bytes of a slot. -/
def Snap.z (n : Snap) : Nat := (n.u + n.v * n.m) * 4096
/-- The local address of the ring. -/
def Snap.base (n : Snap) : Nat := locOf (field n.ring.toNat 20 36 * 2 ^ 20)
/-- Bytes of the ring. -/
def Snap.ringBytes (n : Snap) : Nat := 4096 + n.nslots * n.z
/-- The local address of a slot. -/
def Snap.slotAt (n : Snap) (q : Nat) : Nat := n.base + 4096 + q * n.z
/-- The package that is member `j`, if the entry is valid. -/
def Snap.member (n : Snap) (j : Nat) : Option Nat :=
  (aget n.members j).bind fun w => if w.getLsbD 8 then some (field w.toNat 0 6) else none
/-- The state of a slot. -/
def Snap.slot (n : Snap) (q : Nat) : ImageSlot := agetD n.slots q {}
/-- The slot that holds a step in one of the states that `p` names. -/
def Snap.slotOf (n : Snap) (step : Word64) (p : SlotState → Bool) : Option Nat :=
  (List.range n.nslots).find? fun q => (n.slot q).step == step && p (n.slot q).st
/-- Busy: an image forms or a rebuild runs. -/
def Snap.busy (n : Snap) : Bool := n.forming.isSome || n.work.any fun w => w.kind != .stripe
/-- The engine serves a context. -/
def Snap.serves (n : Snap) (ctx : Nat) : Bool := n.enabled && n.ctx == ctx
/-- The local addresses of the region lines, by index in the image (16 R397). -/
def Snap.lineAt (n : Snap) (idx : Nat) : Option Nat :=
  let step := fun (acc : Option Nat × Nat) (r : Nat × Nat) =>
    match acc.1 with
    | some _ => acc
    | none => if acc.2 < r.2 / 256 then (some (locOf r.1 + 256 * acc.2), 0) else (none, acc.2 - r.2 / 256)
  (n.validRegions.foldl step (none, idx)).1
/-- The index in the image of the region line that holds a local address. -/
def Snap.lineOf (n : Snap) (a : Nat) : Option Nat :=
  let step := fun (acc : Option Nat × Nat) (r : Nat × Nat) =>
    match acc.1 with
    | some _ => acc
    | none => if locOf r.1 ≤ a && a < locOf r.1 + r.2 then (some (acc.2 + (a - locOf r.1) / 256), 0)
      else (none, acc.2 + r.2 / 256)
  (n.validRegions.foldl step (none, 0)).1
/-- Bytes of all regions. -/
def Snap.total (n : Snap) : Nat := (n.validRegions.map Prod.snd).sum

/-- The metadata of a line after a change. -/
def LineMeta.put (x : LineMeta) (c : MetaSet) : LineMeta :=
  { tag := c.tag.getD x.tag, mark := c.mark.getD x.mark, count := c.count.getD x.count }

/-- The metadata of the line that holds a local address, with what the writes on their way into the queues do to it: should the power go
before they are accepted, that is lost with them (16 R395). -/
def State.lineMetaAt (s : State) (a : Nat) : LineMeta :=
  ((s.persists.filter fun p => !p.accepted).flatMap fun p => p.sets.filter fun c => c.line == a / 256).foldl LineMeta.put
    (agetD s.lineMeta (a / 256) {})

/-- Change the metadata of a line. -/
def State.setMeta (s : State) (c : MetaSet) : State :=
  { s with lineMeta := aset s.lineMeta c.line ((agetD s.lineMeta c.line {}).put c) }

/-! ### Writes of the engine -/

/-- A write of the snapshot engine, which enters the persist queue of its stack: kind 1 an image copy, 2 a contribution. -/
def State.snapWrite (s : State) (cells : List (Nat × Byte)) (spoiled : Bool) (kind : Nat) (ack : Option Packet)
    (sets : List MetaSet := []) : State :=
  let as := cells.map Prod.fst
  if as.any inFirmware then s.discard none (paOf s.own (as.headD 0)) 0 0 1 else
  ({ s.dirTake as with
    mem := cells.foldl (fun m (c : Nat × Byte) => writeByte m c.1 c.2) s.mem
    poison := poisonAfter s.poison as spoiled
    written := (linesOf as).foldl addSet s.written
    badCheck := s.badCheck.filter fun b => !(beatsOf as).contains b.1 } : State).request 269 3 (as.headD 0) true false
    |>.enqueuePersist { cells := cells, ack := ack, sets := sets } kind

/-- Cells of consecutive bytes. -/
def cellsAt (a : Nat) (bs : List Byte) : List (Nat × Byte) := (List.range bs.length).map fun k => (a + k, bs.getD k 0)

/-- The bytes of a slot's header entry (16 R400). -/
def headerBytes (x : ImageSlot) : List Byte :=
  leBytes 8 x.step.toNat ++ leBytes 8 (match x.st with | .empty => 0 | .forming => 1 | .complete => 2 | .striped => 3)

/-- The lines of some local addresses that have metadata. -/
def State.metaLines (s : State) (lo hi : Nat) : List Nat :=
  (s.lineMeta.map Prod.fst ++ s.persists.flatMap fun p => p.sets.map MetaSet.line).filter fun l => lo / 256 ≤ l && l < hi / 256

/-- Every parity unit of a slot takes step tag 0 (19 R434). -/
def State.clearParity (s : State) (q : Nat) : List MetaSet :=
  (s.metaLines (s.snap.slotAt q + 4096 * s.snap.u) (s.snap.slotAt q + s.snap.z)).map fun l => { line := l, tag := some 0 }

/-- Write a slot's state to the ring's header. -/
def State.writeHeader (s : State) (q : Nat) (x : ImageSlot) (sets : List MetaSet := []) : State :=
  s.snapWrite (cellsAt (s.snap.base + 64 * q) (headerBytes x)) false 1 none sets

/-- Record a slot's state, in the engine and in the ring's header; with a slot that forms its parity begins anew (19 R434). -/
def State.setSlot (s : State) (q : Nat) (x : ImageSlot) (sets : List MetaSet := []) : State :=
  ({ s with snap := { s.snap with slots := aset s.snap.slots q x } } : State).writeHeader q x
    (if x.st == .forming then sets ++ s.clearParity q else sets)

/-- The engine reads at local addresses: a request, and the check of what it reads (12 R313, 17 R414). -/
def State.snapRead (s : State) (as : List Nat) : State := (s.verify { unitType := 8 } as).request 269 3 (as.headD 0) false false

/-- Image copies and headers that are not accepted yet. -/
def State.copiesOut (s : State) : Bool := s.persists.any fun p => p.kind == 1 && !p.accepted

/-- The durable value of a byte: what the queues have accepted over what the media holds (16 R397). -/
def State.durableByte (s : State) (a : Nat) : Byte :=
  ((s.persists.filter fun p => p.accepted && p.cells.any fun c => c.1 == a).getLast?.bind fun p =>
    (p.cells.find? fun c => c.1 == a).map Prod.snd).getD (readByte s.media a)
/-- The durable poison of a beat. -/
def State.durableBad (s : State) (b : Nat) : Bool :=
  match (s.persists.filter fun p => p.accepted && p.cells.any fun c => c.1 / 32 == b).getLast? with
  | some p => p.spoiled.contains b
  | none => s.mediaPoison.contains b

/-- The contents of a region line as the engine copies it: a byte that a write not yet accepted covers keeps its value
from before that write. -/
def State.imageLine (s : State) (a : Nat) : List Byte × Bool :=
  let later := fun (x : Nat) => s.persists.any fun p => !p.accepted && p.kind == 0 && p.cells.any fun c => c.1 == x
  ((List.range 256).map fun k => if later (a + k) then s.durableByte (a + k) else readByte s.mem (a + k),
    (beatsOf (span a 256)).any fun b => if later (32 * b) then s.durableBad b else s.poison.contains b)

/-- Copy a region line into the image that forms and mark it (16 R398). -/
def State.copyLine (s : State) (f : Forming) (a : Nat) : State :=
  match s.snap.lineOf a with
  | none => s
  | some idx =>
    let s0 := s.snapRead (span a 256)
    let (bs, bad) := s0.imageLine a
    let s1 := s0.snapWrite (cellsAt (s.snap.slotAt f.slot + 256 * idx) bs) bad 1 none [{ line := a / 256, mark := some f.step }]
    if !bad then s1
    else
      let s2 : State := { s1 with snap := { s1.snap with forming := s1.snap.forming.map fun g =>
        { g with spoiled := g.spoiled.orElse fun _ => some a } } }
      s2.record { kind := 8, aux := f.step.toNat, addr := paOf s.own a, unitType := 8, severity := 1
                  ctx := s.snap.ctx, gen := (s.ctx s.snap.ctx).gen.toNat }

/-- A store of the step or an earlier one is performed in the line and not accepted yet: the image must hold it, and the copy waits for its
acceptance (16 R397, R399). -/
def State.awaitsStore (s : State) (f : Forming) (a : Nat) : Bool :=
  s.persists.any fun p => !p.accepted && p.kind == 0 && p.tag.getD 0 ≤ f.step && p.cells.any fun c => c.1 / 256 == a / 256

/-- `IMAGE_LINE_COPY`: the next region line in ascending image offset is copied, unless its mark says that it is; after the last
line and once every copy is accepted, the header is written; the image is complete when that is accepted (16 R398). -/
def execImageLineCopy (s : State) : Host.Outcome State Fault Refusal :=
  .next <| match s.snap.forming with
    | none => s.stall
    | some f =>
      let upd := fun (s : State) (g : Forming → Forming) =>
        ({ s with snap := { s.snap with forming := s.snap.forming.map g } } : State)
      match s.snap.lineAt f.next with
      | some a =>
        if (s.lineMetaAt a).mark == f.step then upd s fun x => { x with next := x.next + 1 }
        else if s.awaitsStore f a then s.stall
        else s.whenReady (span a 256) false <|
          upd (s.copyLine f a) fun x => { x with next := x.next + 1 }
      | none =>
        if f.closing || s.copiesOut then s.stall
        else upd (s.writeHeader f.slot { s.snap.slot f.slot with st := .complete }) fun x => { x with closing := true }

/-! ### The code (16 R402, R403, R409) -/

/-- Multiplication in GF(2^8) with polynomial 0x11D. -/
def gfMul (x y : Nat) : Nat :=
  let step := fun (acc : Nat × Nat) (i : Nat) =>
    let p := if y.testBit i then acc.1 ^^^ acc.2 else acc.1
    let d := 2 * acc.2
    (p, if 256 ≤ d then d ^^^ 0x11D else d)
  (((List.range 8).foldl step (0, x)).1) % 256

/-- The inverse of a nonzero element. -/
def gfInv (x : Nat) : Nat := ((List.range 256).find? fun y => gfMul x y == 1).getD 0

/-- g(i, d). -/
def Snap.g (n : Snap) (i d : Nat) : Nat := gfInv (i ^^^ (n.m + d))

/-- A unit of a stripe: data `d` or parity `i`. -/
inductive StripeUnit where
  | data (d : Nat)
  | parity (i : Nat)
  deriving DecidableEq, Repr

/-- The member that holds a unit of stripe `t`. -/
def Snap.holder (n : Snap) (t : Nat) : StripeUnit → Nat
  | .data d => (t % n.n + n.m + d) % n.n
  | .parity i => (t % n.n + i) % n.n
/-- The unit that member `j` holds of stripe `t`. -/
def Snap.unitOf (n : Snap) (t j : Nat) : StripeUnit :=
  let r := (j + n.n - t % n.n) % n.n
  if r < n.m then .parity r else .data (r - n.m)
/-- The number of a unit of stripe `t` among its holder's image units or parity units. -/
def Snap.unitNo (n : Snap) (t : Nat) : StripeUnit → Nat
  | .data d => t / n.n * n.k + d
  | .parity i => t / n.n * n.m + i
/-- A unit that is not padding. -/
def Snap.real (n : Snap) (t : Nat) : StripeUnit → Bool
  | .data d => n.unitNo t (.data d) < n.u
  | .parity _ => true
/-- The stripe of image unit `u` of member `j`. -/
def Snap.stripeOf (n : Snap) (j u : Nat) : Nat := n.n * (u / n.k) + (j + 2 * n.n - n.m - u % n.k) % n.n
/-- The offset in a slot of line `l` of a unit. -/
def Snap.unitAt (n : Snap) (t : Nat) (x : StripeUnit) (l : Nat) : Nat :=
  (match x with | .data _ => n.unitNo t x | .parity _ => n.u + n.unitNo t x) * 4096 + 256 * l

/-- The contributing set of the stripe of a lost unit with the coefficients λ (16 R409). -/
def Snap.solution (n : Snap) : StripeUnit → List (StripeUnit × Nat)
  | .parity i => (List.range n.k).map fun d => (.data d, n.g i d)
  | .data d0 =>
    let inv := gfInv (n.g 0 d0)
    ((List.range n.k).filter (· != d0)).map (fun d => (StripeUnit.data d, gfMul (n.g 0 d) inv)) ++ [(.parity 0, inv)]

/-- Multiply bytes by a coefficient. -/
def gfScale (c : Nat) (bs : List Byte) : List Byte := bs.map fun b => BitVec.ofNat 8 (gfMul c b.toNat)
/-- Add bytes. -/
def gfAdd (xs ys : List Byte) : List Byte := (xs.zip ys).map fun p => p.1 ^^^ p.2

/-- The bytes of a line of a slot; those beyond the regions read as zero (16 R400). -/
def State.slotLine (s : State) (q off : Nat) : List Byte × Bool :=
  let a := s.snap.slotAt q + off
  if off < s.snap.u * 4096 && s.snap.total ≤ off then (List.replicate 256 0, false)
  else (readBytes s.mem a 256, s.isBad (span a 256))

/-! ### Sending (16 R404, R409) -/

/-- Operation codes of snapshot packets (log 15). -/
def opStripe : Nat := 10
def opRebuild : Nat := 11

/-- Send one line of a contribution or product: its step, its unit and line, and 256 bytes. -/
def State.sendProduct (s : State) (w : SnapWork) (who op unit : Nat) (bs : List Byte) (bad : Bool) : State :=
  s.ask { dest := who, src := s.own, cls := 6, op := op, ctx := s.snap.ctx
          data := leBytes 8 w.step.toNat ++ leBytes 8 unit ++ bs, spoiled := if bad then [0] else [] } (.snap w.gid w.seqNo who (w.kind == .stripe))

/-- Change an operation of the engine. -/
def State.updWork (s : State) (w : SnapWork) (f : SnapWork → SnapWork) : State :=
  { s with snap := { s.snap with work := s.snap.work.map fun x => if x.seqNo == w.seqNo then f x else x } }

/-- The next line of a `STRIPE`: line `next` mod 16 of the product of image unit `next` / (16 m) for one parity. -/
def State.stripeUnit (s : State) (w : SnapWork) : State :=
  let n := s.snap
  let u := w.next / (16 * max n.m 1)
  let i := w.next / 16 % max n.m 1
  match n.slotOf w.step fun x => x == .complete || x == .striped with
  | none => s.stall
  | some q =>
    if n.m == 0 || n.u ≤ u then s.updWork w fun x => { x with ending := true }
    else
      let t := n.stripeOf n.self u
      let l := w.next % 16
      match n.member (n.holder t (.parity i)) with
      | none => s.stall
      | some dst =>
        s.whenReady (span (n.slotAt q + 4096 * u + 256 * l) 256) false <|
          let s := s.snapRead (span (n.slotAt q + 4096 * u + 256 * l) 256)
          let (bs, bad) := s.slotLine q (4096 * u + 256 * l)
          (s.sendProduct w dst opStripe (n.unitNo t (.parity i) * 16 + l) (gfScale (n.g i (u % n.k)) bs) bad).updWork w
            fun x => { x with next := x.next + 1 }

/-- The next line of a survivor's products: line `next` mod 16 of stripe `next` / 16; stripes without a product of this
member are passed over whole. -/
def State.surviveUnit (s : State) (w : SnapWork) (lost repl : Nat) : State :=
  let n := s.snap
  let t := w.next / 16
  if n.n * n.v ≤ t then s.updWork w fun x => { x with restoring := true, next := 0 }
  else
    let skip := s.updWork w fun x => { x with next := (t + 1) * 16 }
    match (List.range n.n).find? fun j => n.member j == some lost, n.slotOf w.step fun x => x == .complete || x == .striped with
    | some j, some q =>
      let gone := n.unitOf t j
      let mine := n.unitOf t n.self
      match (n.solution gone).find? fun e => e.1 == mine with
      | none => skip
      | some (_, c) =>
        if !n.real t gone || !n.real t mine then skip
        else
          let l := w.next % 16
          let off := n.unitAt t mine l
          s.whenReady (span (n.slotAt q + off) 256) false <|
            let s := s.snapRead (span (n.slotAt q + off) 256)
            let (bs, bad) := s.slotLine q off
            let unit := n.unitNo t gone * 16 + l + (match gone with | .parity _ => 2 ^ 63 | .data _ => 0)
            (s.sendProduct w repl opRebuild unit (gfScale c bs) bad).updWork w fun x => { x with next := x.next + 1 }
    | _, _ => skip

/-- The next region line of a survivor, rewritten from the image if its tag exceeds the step; after the last, later images
go, and the cursor follows the image (16 R409). -/
def State.restoreUnit (s : State) (w : SnapWork) : State :=
  let n := s.snap
  match n.slotOf w.step fun x => x == .complete || x == .striped with
  | none => s.stall
  | some q => match n.lineAt w.next with
    | some a =>
      let s1 := s.updWork w fun x => { x with next := x.next + 1 }
      if (s.lineMetaAt a).tag ≤ w.step then s1
      else s.whenReady (span (n.slotAt q + 256 * w.next) 256 ++ span a 256) true <|
        let s1 := s1.snapRead (span (n.slotAt q + 256 * w.next) 256)
        let (bs, bad) := s1.slotLine q (256 * w.next)
        s1.snapWrite (cellsAt a bs) bad 1 none [{ line := a / 256, tag := some w.step, mark := some w.step }]
    | none =>
      let s1 := (List.range n.nslots).foldl (fun (s : State) k =>
        if (s.snap.slot k).st != .empty && w.step < (s.snap.slot k).step then s.setSlot k {} else s) s
      let s2 : State := { s1 with snap := { s1.snap with
        cursor := (q + 1) % max n.nslots 1 } }
      s2.updWork w fun x => { x with ending := true }

/-- `SURVIVOR_REBUILD_WORK`: the next product or the next restored line. -/
def execSurvivorRebuildWork (s : State) : Host.Outcome State Fault Refusal :=
  .next <| match s.snap.work.findSome? (fun w => match w.kind with
      | .survive p q => if w.ending then none else some (w, p, q)
      | _ => none) with
    | some (w, p, q) => if w.restoring then s.restoreUnit w else s.surviveUnit w p q
    | none => s.stall

/-! ### Completion -/

/-- `SNAP_FAULT` (13 Table 13.10): its lane mask names every lane, of which the spec says nothing (DESIGN CHOICE: log 63). -/
def snapFault (status addr step handle : Nat) : TrapInfo :=
  { code := tcSnapFault, status := status, lanes := allLanes, s58 := addr, s59 := step, s61 := handle }

/-- The operation of the engine ends with a status. -/
def State.endWork (s : State) (w : SnapWork) (status : Nat) (trap : Option TrapInfo) : State :=
  ({ s with snap := { s.snap with work := s.snap.work.filter fun x => x.seqNo != w.seqNo } } : State).completeOp
    .snap w.seqNo status trap w.gid 0 none

/-- A package could not be reached, or refused a contribution: status 11, and `PBAR.stripe` reports a `STRIPE` too. -/
def State.failWork (s : State) (w : SnapWork) (peer : Nat) : State :=
  s.endWork w 11 (some { code := tcStripeFail, status := 11, s59 := peer, s61 := (mkHandle 0x20 w.seqNo).toNat })

/-- A fragment of the group did not reach its peer: `PBAR.stripe` names each such peer (06 R198). -/
def State.loseFragment (s : State) (gid peer : Nat) : State := s.updGroup gid fun g => { g with stripeLost := addSet g.stripeLost peer }

/-- The replacement takes the lost member's entry, once every product is accepted and every restored line durable: after a refusal the
entry still names the lost package, and the control node may give the order again (16 R409, R410; 19 R436). -/
def State.replaceMember (s : State) (w : SnapWork) : State :=
  match w.kind with
  | .survive lost repl =>
    let entry := fun (e : Nat × Word64) =>
      if e.2.getLsbD 8 && field e.2.toNat 0 6 == lost then (e.1, e.2 - BitVec.ofNat 64 lost + BitVec.ofNat 64 repl) else e
    { s with snap := { s.snap with members := s.snap.members.map entry } }
  | _ => s

/-- Complete what has nothing left to wait for: an image whose last header is accepted, a `STRIPE` whose contributions are
all accepted, a rebuild whose products and lines are. -/
def State.settleSnap (s : State) : State :=
  let s1 : State := match s.snap.forming with
    | some f =>
      if f.closing && !s.copiesOut then
        let h := (mkHandle 0x20 f.seqNo).toNat
        let x := s.snap.slot f.slot
        let slots := if x.st == SlotState.forming && x.step == f.step then aset s.snap.slots f.slot { x with st := .complete } else s.snap.slots
        ({ s with snap := { s.snap with forming := none, slots := slots } } : State).completeOp .snap f.seqNo (if f.spoiled.isSome then 5 else 0)
          (f.spoiled.map fun a => { code := tcPoison, status := 5, s58 := paOf s.own a, s61 := h }) f.gid 0 none
      else s
    | none => s
  s1.snap.work.foldl (fun (s : State) w =>
    let open_ := s.remotes.any fun r => match r.what with | .snap _ n _ _ => n == w.seqNo | _ => false
    match w.kind with
    | .stripe => match s.snap.slotOf w.step fun x => x == .forming || x == .complete || x == .striped with
      | none => s.endWork w 12 (some (snapFault 12 0 w.step.toNat (mkHandle 0x20 w.seqNo).toNat))
      | some q => if w.ending && !open_ then (s.setSlot q { s.snap.slot q with st := .striped }).endWork w 0 none else s
    | _ => if w.ending && !open_ && !s.copiesOut then
        (s.replaceMember w).endWork w (if w.spoiled.isSome then 5 else 0) (w.spoiled.map fun a =>
          { code := tcPoison, status := 5, s58 := paOf s.own a, s61 := (mkHandle 0x20 w.seqNo).toNat })
      else s) s1

/-! ### The instructions (07 R241-R244) -/

def execSnap (a : TArgs) (s : State) : Host.Outcome State Fault Refusal :=
  onGroupPlain s fun gid g => s.readyIssue gid g (readsS [a.a.toNat]) [] <|
    let step := g.s a.a.toNat
    let ctx := s.ctxOf g
    let n := s.snap
    if step != (s.ctx ctx).step - 1 then s.trap gid g (snapFault 1 0 step.toNat 0)
    else if !n.serves ctx || n.validRegions.isEmpty then s.trap gid g (snapFault 3 0 step.toNat 0)
    else match n.slotOf step (· != .empty) with
      | some q => match (n.slot q).seqNo with
        | some k => (s.putGroup gid g).withHandle gid a.d.toNat 0x20 k
        | none =>
          let (k, s1) := (s.putGroup gid g).openOp .snap gid
          let s2 : State := { s1 with snap := { n with slots := aset n.slots q { n.slot q with seqNo := some k } } }
          (s2.completeOp .snap k 0 none gid 0 none).withHandle gid a.d.toNat 0x20 k
      | none =>
        if n.forming.isSome || (List.range n.nslots).any (fun q => (n.slot q).st == .forming) then
          s.trap gid g (snapFault 2 0 step.toNat 0)
        else s.whenBacked (s.coreOf g) true fun s0 =>
          let (k, s1) := (s0.putGroup gid g).openOp .snap gid
          let s2 : State := { s1 with snap := { n with
            cursor := (n.cursor + 1) % max n.nslots 1, forming := some { slot := n.cursor, step := step, seqNo := k, gid := gid } } }
          (s2.setSlot n.cursor { st := .forming, step := step, seqNo := some k }).withHandle gid a.d.toNat 0x20 k

/-- The value of `SNAPQ`. -/
def Snap.query (n : Snap) (ctx : Nat) (step : Word64) : Nat :=
  if !n.serves ctx then 0
  else match n.slotOf step (· != .empty) with
    | some q => match (n.slot q).st with | .empty => 0 | .forming => 1 | .complete => 2 | .striped => 3
    | none => 0
/-- The value of `SNAPQ.last`. -/
def Snap.lastStep (n : Snap) (ctx : Nat) : Option Nat :=
  if !n.serves ctx then none
  else ((List.range n.nslots).filterMap fun q =>
    if (n.slot q).st == .complete || (n.slot q).st == .striped then some (n.slot q).step.toNat else none).max?

def execSnapq (a : SArgs) (s : State) : Host.Outcome State Fault Refusal :=
  onGroupPlain s fun gid g =>
    let last := a.imm.getLsbD 0
    s.ready gid g (if last then [] else readsS [a.a.toNat]) [.s a.d.toNat] <|
      let ctx := s.ctxOf g
      let r := s.snap.lastStep ctx
      let q := s.snap.query ctx (g.s a.a.toNat)
      let acq := if last then r.isSome else 2 ≤ q
      let v := if last then r.getD (2 ^ 64 - 1) else q
      (if acq then s.dropClean (s.coreOf g) else s).done gid (g.setS a.d.toNat (BitVec.ofNat 64 v)).advance

def execStripe (a : TArgs) (s : State) : Host.Outcome State Fault Refusal :=
  onGroupPlain s fun gid g => s.readyIssue gid g (readsS [a.a.toNat]) [] <|
    let step := g.s a.a.toNat
    let (k, s1) := (s.putGroup gid g).openOp .snap gid
    let s2 :=
      if s.snap.serves (s.ctxOf g) then
        ({ s1 with snap := { s1.snap with work := s1.snap.work ++ [{ kind := .stripe, seqNo := k, gid := gid, step := step }] } } : State)
      else s1.completeOp .snap k 12 (some (snapFault 12 0 step.toNat (mkHandle 0x20 k).toNat)) gid 0 none
    s2.withHandle gid a.d.toNat 0x20 k

/-- The order block of `RBLD` is refused (07 R244). -/
def State.rebuildRefused (s : State) (ctx : Nat) (ws : List Word64) : Bool :=
  let w0 := (ws.getD 0 0).toNat
  let p := field w0 0 6
  let q := field w0 8 6
  let n := s.snap
  let role := if s.own == q then n.member n.self != some q
    else !(List.range n.n).any fun j => n.member j == some p
  w0 != p + q * 256 || (ws.drop 2).any (· != 0) || p == q || !s.isMember p || !s.isMember q || s.isEndpoint q || s.own == p || !n.serves ctx || role

/-- The replacement starts to receive: slot 0 forms, every other slot is empty (16 R408). The counts begin at zero, but where slot 0 holds
that step already: a second contribution set exceeds them (16 R410; DESIGN CHOICE: log 65). -/
def State.startReceive (s : State) (step : Word64) : State :=
  let again := (s.snap.slot 0).st != .empty && (s.snap.slot 0).step == step
  let zero := if again then [] else
    (s.metaLines (s.snap.slotAt 0) (s.snap.slotAt 0 + s.snap.z)).map fun l => ({ line := l, count := some 0 } : MetaSet)
  let s1 := ((List.range s.snap.nslots).drop 1).foldl (fun (s : State) q => s.setSlot q {}) (s.setSlot 0 { st := .forming, step := step } zero)
  { s1 with snap := { s1.snap with cursor := 1 } }

/-- Products that a unit of the replacement's slot expects (16 R408). -/
def Snap.expected (n : Snap) (parity : Bool) (no : Nat) : Nat :=
  let t := if parity then n.n * (no / max n.m 1) + (n.self + 2 * n.n - no % max n.m 1) % max n.n 1 else n.stripeOf n.self no
  let gone := n.unitOf t n.self
  ((n.solution gone).filter fun e => n.real t e.1).length

/-- Every line of the replacement's slot holds its products. -/
def State.rebuilt (s : State) : Bool :=
  let n := s.snap
  let ok := fun (off want : Nat) => (List.range 16).all fun l => want ≤ (s.lineMetaAt (n.slotAt 0 + off + 256 * l)).count
  (List.range n.u).all (fun u => ok (4096 * u) (n.expected false u))
    && (List.range (n.v * n.m)).all fun x => ok (4096 * (n.u + x)) (n.expected true x)

/-- The replacement has its image: the regions take its lines and the slot is striped (16 R408). -/
def State.endReceive (s : State) (w : SnapWork) : State :=
  let s1 := (List.range (s.snap.total / 256)).foldl (fun (s : State) idx => match s.snap.lineAt idx with
    | some a =>
      let (bs, bad) := s.slotLine 0 (256 * idx)
      s.snapWrite (cellsAt a bs) bad 1 none [{ line := a / 256, tag := some w.step, mark := some w.step }]
    | none => s) s
  (s1.setSlot 0 { st := .striped, step := w.step }).updWork w fun x => { x with ending := true }

/-- The `RBLD` that receives the products of a step. -/
def Snap.receiving (n : Snap) (step : Word64) : Option SnapWork :=
  n.work.find? fun w => match w.kind with | .receive _ => w.step == step && !w.ending | _ => false

/-- An `RBLD` whose products are all there is at its end. -/
def State.settleReceive (s : State) : State :=
  match s.snap.work.find? fun w => match w.kind with | .receive _ => !w.ending | _ => false with
  | some w => if s.rebuilt then s.endReceive w else s
  | none => s

/-- `RBLD`. A survivor holds a fragment where a slot of the step is complete or striped; one that forms counts for none, of which the spec
says nothing (DESIGN CHOICE: log 63). -/
def execRbld (a : TArgs) (s : State) : Host.Outcome State Fault Refusal :=
  onGroupPlain s fun gid g =>
    if !g.supervisor then s.illegal gid g .privilege
    else s.readyIssue gid g (readsS [a.a.toNat]) [] <|
      let va := (g.s a.a.toNat).toNat
      if va % 64 != 0 then s.trap gid g (misalignedAt va)
      else if s.logsPage gid [va] then s.holdLog gid g akLoad [(0, va)] true
      else s.readWords gid g va 8 fun ws s1 =>
        let step := ws.getD 1 0
        let p := field (ws.getD 0 0).toNat 0 6
        let q := field (ws.getD 0 0).toNat 8 6
        if s1.rebuildRefused (s.ctxOf g) ws then s1.trap gid g (snapFault 4 va step.toNat 0)
        else
          let (k, s2) := (s1.putGroup gid g).openOp .snap gid
          let start := fun (s : State) (kind : WorkKind) => ({ s with snap := { s.snap with
            work := s.snap.work ++ [{ kind := kind, seqNo := k, gid := gid, step := step }] } } : State)
          let s3 :=
            if s.own == q then (start (s2.startReceive step) (.receive p)).settleReceive
            else if (s.snap.slotOf step fun x => x == .complete || x == .striped).isSome then start s2 (.survive p q)
            else s2.completeOp .snap k 12 (some (snapFault 12 va step.toNat (mkHandle 0x20 k).toNat)) gid 0 none
          s3.withHandle gid a.d.toNat 0x20 k

end Sys2Proof.Machine
end

