-- ==== Sys2Proof/Machine/Tensor.lean ====
section
/-!
DEFINITION. Tensor-map records, their checks and address generation, and the tensor-map instructions (07 R203-R208).
-/
namespace Sys2Proof.Machine

/-- The fields of a record (07 Tables 7.1 and 7.2). -/
structure MapF where
  sbase : Nat
  base : Nat
  xcols : Nat
  xrows : Nat
  stride : Nat
  trows : Nat
  tcols : Nat
  evict : Nat
  lu : Bool
  smode : Nat
  rowmaj : Bool
  trans : Bool
  amaxen : Bool
  fewait : Bool
  code : Nat
  mscale : Nat
  sscale : Nat
  deriving DecidableEq, Repr

/-- Word `k` of a record. -/
def mapWord (ws : List Word32) (k : Nat) : Nat := (ws.getD k 0).toNat

/-- The fields of the 16 words of a record. -/
def mapOf (ws : List Word32) : MapF :=
  let w := mapWord ws
  { sbase := w 0 % 2 ^ 20, base := (w 2 + w 3 * 2 ^ 32) % 2 ^ 57, xcols := w 4, xrows := w 5
    stride := (w 6 + w 7 * 2 ^ 32) % 2 ^ 48, trows := w 8 % 65536, tcols := w 8 / 65536
    evict := field (w 9) 11 2, lu := field (w 9) 10 1 == 1, smode := field (w 9) 8 2, rowmaj := field (w 9) 7 1 == 1
    trans := field (w 9) 6 1 == 1, amaxen := field (w 9) 5 1 == 1, fewait := field (w 9) 4 1 == 1, code := w 9 % 16
    mscale := (w 10 + w 11 * 2 ^ 32) % 2 ^ 57, sscale := w 12 % 2 ^ 20 }

/-- The bits of each word that a record keeps (07 R203, R207). -/
def mapKeep (k : Nat) : Nat :=
  match k with
  | 0 => 2 ^ 20 - 1 | 1 => 0 | 3 => 2 ^ 25 - 1 | 7 => 2 ^ 16 - 1 | 9 => 2 ^ 13 - 1 | 11 => 2 ^ 25 - 1 | 12 => 2 ^ 20 - 1
  | 13 => 0 | 14 => 0 | 15 => 0 | _ => 2 ^ 32 - 1

/-- A word as it is stored: reserved bits zero. -/
def mapStored (k : Nat) (w : Word32) : Word32 := w &&& BitVec.ofNat 32 (mapKeep k)

def MapF.ty (m : MapF) : Ty := Ty.ofCode (BitVec.ofNat 4 m.code)
/-- The element size in bits. -/
def MapF.bits (m : MapF) : Nat := Ty.width m.ty
/-- A floating-point format. -/
def MapF.isFloat (m : MapF) : Bool := (Ty.fmt? m.ty).isSome
/-- The formats that scales and quantisation admit. -/
def scalable (t : Ty) : Bool := match t with | .e4m3 | .e5m2 | .e2m1 | .i8 | .i4 => true | _ => false

/-! ### Addresses (07 R205) -/

/-- The Z-order index of an element. -/
def zIndex (i j : Nat) : Nat :=
  field j 0 1 + 2 * field j 1 1 + 4 * field i 0 1 + 8 * field i 1 1
    + ([2, 3, 4, 5].map fun t => field j t 1 * 2 ^ (2 * t) + field i t 1 * 2 ^ (2 * t + 1)).sum
/-- The element of a Z-order index. -/
def zElem (z : Nat) : Nat × Nat :=
  (field z 2 1 + 2 * field z 3 1 + ([2, 3, 4, 5].map fun t => field z (2 * t + 1) 1 * 2 ^ t).sum,
   field z 0 1 + 2 * field z 1 1 + ([2, 3, 4, 5].map fun t => field z (2 * t) 1 * 2 ^ t).sum)

/-- Bytes from one tile row to the next, row-major. -/
def MapF.pitch (m : MapF) : Nat := alignUp (m.tcols * m.bits / 8) 16
/-- The bit offset of an element in scratch. -/
def MapF.elemBit (m : MapF) (i j : Nat) : Nat :=
  if m.rowmaj then 8 * (m.sbase + i * m.pitch) + j * m.bits else 8 * m.sbase + zIndex i j * m.bits
/-- Scratch bytes of the tile. -/
def MapF.tileBytes (m : MapF) : Nat := if m.rowmaj then m.trows * m.pitch else 512 * m.bits
/-- The first element of the tile's byte `o` and the byte within it; none for padding. -/
def MapF.byteElem (m : MapF) (o : Nat) : Option (Nat × Nat × Nat) :=
  let per := max (m.bits / 8) 1
  if m.rowmaj then
    let t := o % max m.pitch 1
    if t < m.tcols * m.bits / 8 then some (o / max m.pitch 1, t * 8 / m.bits, t % per) else none
  else
    let (i, j) := zElem (o * 8 / m.bits)
    some (i, j, o % per)
/-- The byte address of a tensor element. -/
def MapF.memAddr (m : MapF) (y x : Nat) : Nat := (m.base + y * m.stride + x * m.bits / 8) % 2 ^ 57

/-- Columns of 32. -/
def up32 (n : Nat) : Nat := (n + 31) / 32
/-- Scale bytes of the tile. -/
def MapF.scaleBytes (m : MapF) : Nat :=
  match m.smode with
  | 0 => 0 | 1 => m.trows * up32 m.tcols | 2 => up32 m.trows * m.tcols | _ => up32 m.trows * up32 m.tcols
/-- The scale byte of a tile element, from `sscale`. -/
def MapF.scaleAt (m : MapF) (i j : Nat) : Nat :=
  match m.smode with
  | 1 => i * up32 m.tcols + j / 32 | 2 => i / 32 * m.tcols + j | _ => i / 32 * up32 m.tcols + j / 32
/-- The first element of the block of a scale byte. -/
def MapF.scaleElem (m : MapF) (n : Nat) : Nat × Nat :=
  let w := max (up32 m.tcols) 1
  match m.smode with
  | 1 => (n / w, n % w * 32) | 2 => (n / max m.tcols 1 * 32, n % max m.tcols 1) | _ => (n / w * 32, n % w * 32)
/-- The memory byte of a tensor element's scale. -/
def MapF.scaleMem (m : MapF) (y x : Nat) : Nat :=
  (m.mscale + match m.smode with
    | 1 => y * up32 m.xcols + x / 32 | 2 => y / 32 * m.xcols + x | _ => y / 32 * up32 m.xcols + x / 32) % 2 ^ 57

/-- The raw bits of an element among scratch bytes. -/
def rawAt (mem : Memory) (bit b : Nat) : Nat :=
  if b < 8 then field (readByte mem (bit / 8)).toNat (bit % 8) b else readLE mem (bit / 8) (b / 8)

/-! ### Checks (07 R206) -/

/-- The uses of a map. -/
inductive MapUse where
  /-- a copy of a tile at an origin -/
  | copy (row0 col0 : Nat)
  | reduce (row0 col0 : Nat)
  | gather (col0 : Nat)
  /-- a matrix operand or a drain -/
  | matrix (admits : List Ty)
  deriving DecidableEq, Repr

/-- The conditions of Table 7.3 that a map fails under a use, status by status. -/
def mapFails (m : MapF) (u : MapUse) : List (Nat × Bool) :=
  let b := m.bits
  let mem := match u with | .matrix _ => false | _ => true
  let (row0, col0) := match u with
    | .copy r c => (r, c) | .reduce r c => (r, c) | .gather c => (0, c) | .matrix _ => (0, 0)
  let admits := match u with
    | .reduce _ _ => m.ty == .f32 || m.ty == .bf16
    | .matrix ts => ts.contains m.ty
    | _ => true
  [ (1, mem && (m.xrows == 0 || m.xcols == 0)),
    (2, m.code == 2 || m.code == 3 || !admits),
    (3, m.trows == 0 || m.tcols == 0 || 4096 < m.trows || 4096 < m.tcols
        || ((!m.rowmaj || !mem) && (m.trows != 64 || m.tcols != 64))),
    (4, m.sbase % 16 != 0 || (!m.rowmaj && m.sbase % 256 != 0) || m.sscale % 16 != 0 || m.base % 16 != 0
        || m.stride % 16 != 0 || (b == 4 && (m.tcols % 2 == 1 || col0 % 2 == 1))),
    (5, (m.smode != 0 && !scalable m.ty)
        || (match u with
            | .gather _ => m.smode != 0
            | _ => ((m.smode == 1 || m.smode == 3) && col0 % 32 != 0) || ((m.smode == 2 || m.smode == 3) && row0 % 32 != 0))) ]

/-- The lowest status that a map fails. -/
def mapStatus (m : MapF) (u : MapUse) : Option Nat := ((mapFails m u).find? Prod.snd).map Prod.fst

/-- The offset of a footprint that passes an allocation: the tile's, then the scales'. -/
def mapOver (m : MapF) (alloc : Nat) : Option Nat :=
  if alloc < m.sbase + m.tileBytes then some m.sbase
  else if m.smode != 0 && alloc < m.sscale + m.scaleBytes then some m.sscale else none

/-- The trap of a map at issue, if any (07 R206). -/
def mapTrap (m : MapF) (u : MapUse) (n alloc : Nat) : Option TrapInfo :=
  match mapStatus m u with
  | some st => some { code := tcTmapFault, status := st, lanes := allLanes, s59 := n }
  | none => (mapOver m alloc).map fun off => scratchBound allLanes off alloc

/-! ### Tensor-map instructions (07 R207) -/

/-- A map register of a team. -/
def Team.tmap (t : Team) (n : Nat) : TMap := agetD t.tmaps n {}
/-- Change a map register. -/
def Team.setMap (t : Team) (n : Nat) (f : TMap → TMap) : Team := { t with tmaps := aset t.tmaps n (f (t.tmap n)) }

/-- The 64 bytes of a record. -/
def mapBytes (ws : List Word32) : List Byte := (List.range 16).flatMap fun k => leBytes 4 (mapWord ws k)
/-- The record of 64 bytes. -/
def mapFrom (bs : List Byte) : List Word32 :=
  (List.range 16).map fun k => mapStored k (BitVec.ofNat 32 (leValue ((bs.drop (4 * k)).take 4)))

def execTmld (a : TArgs) (s : State) : Host.Outcome State Fault Refusal :=
  onGroupPlain s fun gid g =>
    let va := (g.s a.a.toNat).toNat
    let n := a.tmap.toNat
    s.readyMem gid g (readsS [a.a.toNat]) [] false false <|
      let load := fun (bs : List Byte) (s : State) =>
        (s.updTeam g.team fun t => t.setMap n fun m => { m with words := mapFrom bs }).done gid g.advance
      if va % 64 != 0 then s.trap gid g (misalignedAt va)
      else if a.op.getLsbD 0 then
        if s.scratchSize g < va + 64 then s.trap gid g (scratchBound allLanes va (s.scratchSize g))
        else if (s.team g.team).isBad va 64 then s.trap gid g (scratchPoison g [(0, va)])
        else load (readBytes (s.team g.team).scratch va 64) s
      else if s.logsPage gid [va] then s.holdLog gid g akLoad [(0, va)] true
      else s.readPlain gid g 64 [va] fun bs s1 => load (bs.headD []) s1

def execTmst (a : TArgs) (s : State) : Host.Outcome State Fault Refusal :=
  onGroupPlain s fun gid g =>
    let va := (g.s a.a.toNat).toNat
    let bs := mapBytes ((s.team g.team).tmap a.tmap.toNat).words
    s.readyMem gid g (readsS [a.a.toNat]) [] false true <|
      if va % 64 != 0 then s.trap gid g (misalignedAt va)
      else if a.op.getLsbD 0 then
        if s.scratchSize g < va + 64 then s.trap gid g (scratchBound allLanes va (s.scratchSize g))
        else (s.updTeam g.team fun t => t.write va bs).done gid g.advance
      else if s.logsPage gid [va] then s.holdLog gid g akStore [(0, va)] true
      else s.translateAll gid g .write akStore [va] fun xs s1 =>
        let x := (xs.headD (0, { pa := 0, kind := 0, pt := false, attr := 0 })).2
        let cls := g.svc.toNat % 4
        s1.lanesReady gid g 64 .write true { home := fun x => !s.storesAway .rlx x } [(0, va, x)] fun s1 =>
          let s2 := s1.putGroup gid g
          (if x.kind == 2 then s2.storeAway gid g x bs .rlx 1 cls (va / 4096)
           else s2.storeAt (s2.coreOf g) x bs false 1 gid (va / 4096) (s.stepOf g) cls).advanceGroup gid

/-- A tensor-map instruction that only touches a map register and a scalar. -/
def runMap (s : State) (reads : List Nat) (writes : List RegRef) (f : Group → Team → Group × Team) :
    Host.Outcome State Fault Refusal :=
  onGroupPlain s fun gid g => s.ready gid g (readsS reads) writes <|
    let (g1, t1) := f g (s.team g.team)
    (s.updTeam g.team fun _ => t1).done gid g1.advance

def execTmset (a : TArgs) (s : State) : Host.Outcome State Fault Refusal :=
  runMap s [a.a.toNat] [] fun g t =>
    let k := a.op.toNat % 16
    let word := fun (m : TMap) (j : Nat) => if j = k then mapStored k (lo32 (g.s a.a.toNat)) else m.words.getD j 0
    (g, t.setMap a.tmap.toNat fun m => { m with words := (List.range 16).map (word m) })

def execAmaxrd (a : TArgs) (s : State) : Host.Outcome State Fault Refusal :=
  runMap s [] [.s a.d.toNat] fun g t => (g.setS a.d.toNat ((t.tmap a.tmap.toNat).amax.zeroExtend 64), t)

def execAmaxclr (a : TArgs) (s : State) : Host.Outcome State Fault Refusal :=
  runMap s [] [] fun g t => (g, t.setMap a.tmap.toNat fun m => { m with amax := 0 })

def execOrigrd (a : TArgs) (s : State) : Host.Outcome State Fault Refusal :=
  runMap s [] [.s a.d.toNat] fun g t =>
    (g.setS a.d.toNat ((t.tmap a.tmap.toNat).orig.zeroExtend 64),
      if a.op.getLsbD 0 then t.setMap a.tmap.toNat fun m => { m with orig := 0 } else t)

/-- Raise `amax` to a magnitude in FP32 bits (02 R49). -/
def Team.raiseAmax (t : Team) (n : Nat) (x : Option Nat) : Team :=
  match x with
  | some v => t.setMap n fun m => if m.amax.toNat < v then { m with amax := BitVec.ofNat 32 v } else m
  | none => t

/-- The FP32 bits of an element's magnitude; none for a NaN. -/
def magBits (x : FVal) : Option Nat :=
  match x with
  | .nan .. => none
  | .inf _ => some 0x7F800000
  | .fin _ m e => some (Fmt.f32.write {} { v := .fin false m e }).1

/-- The largest of some magnitudes. -/
def maxMag (xs : List FVal) : Option Nat :=
  (xs.filterMap magBits).foldl (fun (b : Option Nat) v => match b with | none => some v | some x => some (max x v)) none

end Sys2Proof.Machine
end

