-- ==== Sys2Proof/Machine/Copy.lean ====
section
/-!
DEFINITION. The copy engine: the checks and capture at issue, and the units that it moves (07 R213-R218, 17 R416).
-/
namespace Sys2Proof.Machine

/-! ### Issue (07 R213) -/

/-- Advance the `rng` of the lowest executing lane, or of the lowest lane at the issue address (03 R60): the seed, and
the group. -/
def Group.seed (g : Group) : Word32 × Group :=
  let l := ((lanesOf g.active) ++ (lanesOf g.atIssue)).headD 0
  let x := xorshift (g.rng.at l)
  (x, { g with rng := Lanes.make fun k => if k = l then x else g.rng.at k })

/-- The trap that a finished copy delivers at a wait (07 Table 7.5, 13 Table 13.10). -/
def copyTrap (status n s58 s59 s60 : Nat) : TrapInfo :=
  { code := if status == 1 then tcPageFault else if status == 11 then tcStripeFail else tcPoison, status := status, s58 := s58
    s59 := s59, s60 := s60, s61 := (mkHandle 0x01 n).toNat }

/-- The virtual address of the first byte of memory that an operation writes. -/
def CopyKind.dest (k : CopyKind) (m : MapF) : Option Nat :=
  match k with
  | .tile store _ row0 col0 => if store then some (m.memAddr row0 col0) else none
  | .range kind dst _ _ => if kind ≤ 1 then some dst else none
  | .fill toScratch base _ _ => if toScratch then none else some base
  | .reduce _ row0 col0 => some (m.memAddr row0 col0)
  | .gather _ _ _ => none

/-- Issue a copy operation, once the core's dirty bytes are home (06 R161); one without a unit completes at once. -/
def State.issueCopy (s : State) (gid : Nat) (g : Group) (d : Nat) (units : Nat) (o : CopyOp) : State :=
  s.whenBacked (s.coreOf g) true fun s0 =>
    let (n, s1) := (s0.putGroup gid g).openOp (.copy gid) gid
    let (seed, g1) := if o.rnd == .rs then g.seed else (0, g)
    let s2 : State := if units == 0 then s1.completeOp (.copy gid) n 0 none gid 0 none
      else { s1 with copyOps := s1.copyOps ++
        [{ o with dest := o.kind.dest (mapOf o.map), gid := gid, seqNo := n, origin := g.origin, rng := seed, supervisor := g.supervisor, tag := s.stepOf g }] }
    (s2.updGroup gid fun h => { h with rng := g1.rng }).withHandle gid d 0x01 n

/-- Units of 4096 bytes. -/
def units (n : Nat) : Nat := (n + 4095) / 4096

/-- Rows and columns of a tile that lie inside the tensor. -/
def MapF.insideRows (m : MapF) (row0 : Nat) : Nat := min m.trows (m.xrows - row0)
def MapF.insideCols (m : MapF) (col0 : Nat) : Nat := min m.tcols (m.xcols - col0)

/-- Units of an operation. -/
def CopyOp.units (o : CopyOp) : Nat :=
  let m := mapOf o.map
  match o.kind with
  | .tile _ _ _ _ => Sys2Proof.Machine.units m.tileBytes + Sys2Proof.Machine.units m.scaleBytes
  | .gather _ _ _ => Sys2Proof.Machine.units m.tileBytes
  | .range _ _ _ count => Sys2Proof.Machine.units count
  | .fill _ _ len _ => Sys2Proof.Machine.units len
  | .reduce _ row0 col0 => m.insideRows row0 * m.insideCols col0

/-- A copy through a map. What the map itself raises, its footprint with it, comes before the checks of the copy's other operands
(DESIGN CHOICE: log 63). -/
def runMapCopy (s : State) (a : TArgs) (scalars : List Nat) (u : Group → MapUse) (kind : Group → CopyKind)
    (extra : Group → MapF → Option TrapInfo) : Host.Outcome State Fault Refusal :=
  onGroupPlain s fun gid g => s.readyIssue gid g (readsS scalars) [] <|
    let n := a.tmap.toNat
    let ws := ((s.team g.team).tmap n).words
    let m := mapOf ws
    match (mapTrap m (u g) n (s.scratchSize g)).orElse fun _ => extra g m with
    | some t => s.trap gid g t
    | none =>
      let o : CopyOp := { gid := gid, seqNo := 0, kind := kind g, mapNo := n, map := ws, rnd := a.rnd, ftz := a.ftz }
      s.issueCopy gid g a.d.toNat o.units o

def execAcopy (a : TArgs) (s : State) : Host.Outcome State Fault Refusal :=
  let row := fun (g : Group) => (g.s a.b.toNat).toNat % 2 ^ 32
  let col := fun (g : Group) => (g.s a.b.toNat).toNat / 2 ^ 32
  runMapCopy s a [a.b.toNat] (fun g => .copy (row g) (col g))
    (fun g => .tile (a.op.getLsbD 0) (a.op.getLsbD 1) (row g) (col g)) fun _ _ => none

def execAreduce (a : TArgs) (s : State) : Host.Outcome State Fault Refusal :=
  let row := fun (g : Group) => (g.s a.b.toNat).toNat % 2 ^ 32
  let col := fun (g : Group) => (g.s a.b.toNat).toNat / 2 ^ 32
  runMapCopy s a [a.b.toNat] (fun g => .reduce (row g) (col g))
    (fun g => .reduce (a.op.toNat % 4) (row g) (col g)) fun _ _ => none

def execAgather (a : TArgs) (s : State) : Host.Outcome State Fault Refusal :=
  let list := fun (g : Group) => (g.s a.b.toNat).toNat
  let col := fun (g : Group) => (g.s (a.b.toNat + 1)).toNat
  runMapCopy s a [a.b.toNat, a.b.toNat + 1] (fun g => .gather (col g))
    (fun g => .gather (a.op.getLsbD 0) (list g) (col g))
    fun g m =>
      if list g % 16 != 0 then some (misalignedAt (list g))
      else if s.scratchSize g < list g + 4 * m.trows then some (scratchBound allLanes (list g) (s.scratchSize g)) else none

/-- The precise checks of ranges in scratch or memory: multiples of 16, then the allocation (07 R215, R216). An offset past the allocation
traps for a count of 0 too, of which the spec says that it completes at once (DESIGN CHOICE: log 63). -/
def rangeTrap (alloc : Nat) (aligned : List Nat) (scratch : List (Nat × Nat)) : Option TrapInfo :=
  match aligned.find? fun x => x % 16 != 0 with
  | some x => some (misalignedAt x)
  | none => (scratch.find? fun p => alloc < p.1 + p.2).map fun p => scratchBound allLanes p.1 alloc

/-- A copy or fill of a range. -/
def runRangeCopy (s : State) (a : TArgs) (aligned : Group → List Nat) (scratch : Group → List (Nat × Nat))
    (kind : Group → CopyKind) : Host.Outcome State Fault Refusal :=
  onGroupPlain s fun gid g => s.readyIssue gid g (readsS [a.a.toNat, a.a.toNat + 1, a.b.toNat]) [] <|
    match rangeTrap (s.scratchSize g) (aligned g) (scratch g) with
    | some t => s.trap gid g t
    | none =>
      let o : CopyOp := { gid := gid, seqNo := 0, kind := kind g }
      s.issueCopy gid g a.d.toNat o.units o

/-- Kinds 0 `.mm`, 1 `.ms`, 2 `.sm`, 3 `.ss`, destination first. -/
def execAcopyr (a : TArgs) (s : State) : Host.Outcome State Fault Refusal :=
  let k := a.op.toNat % 4
  let dst := fun (g : Group) => (g.s a.a.toNat).toNat
  let src := fun (g : Group) => (g.s (a.a.toNat + 1)).toNat
  let n := fun (g : Group) => (g.s a.b.toNat).toNat
  runRangeCopy s a (fun g => [dst g, src g, n g])
    (fun g => (if 2 ≤ k then [(dst g, n g)] else []) ++ if k % 2 == 1 then [(src g, n g)] else [])
    fun g => .range k (dst g) (src g) (n g)

def execAfill (a : TArgs) (s : State) : Host.Outcome State Fault Refusal :=
  let base := fun (g : Group) => (g.s a.a.toNat).toNat
  let len := fun (g : Group) => (g.s (a.a.toNat + 1)).toNat
  let scr := a.op.getLsbD 0
  runRangeCopy s a (fun g => [base g, len g]) (fun g => if scr then [(base g, len g)] else [])
    fun g => .fill scr (base g) (len g) (lo32 (g.s a.b.toNat))

/-! ### What a unit reads and writes -/

/-- Replace an operation. -/
def State.setCopy (s : State) (o o' : CopyOp) : State :=
  { s with copyOps := s.copyOps.map fun x => if x.gid == o.gid && x.seqNo == o.seqNo then o' else x }

/-- A run of memory bytes within one line. -/
structure Run where
  va : Nat
  len : Nat
  xl : Xlat
  deriving DecidableEq, Repr

/-- The lines of some byte addresses, each with the span of bytes touched: address and length. -/
def lineSpans (as : List Nat) : List (Nat × Nat) :=
  (linesOf as).map fun l =>
    let mine := as.filter fun a => a / 128 == l
    let lo := mine.foldl min (128 * l + 127)
    (lo, mine.foldl max (128 * l) + 1 - lo)

/-- Translate runs in the copy engine's caches; a failure sends a page request and suspends the operation (07 R213). -/
def State.engineRuns (s : State) (o : CopyOp) (core ctx : Nat) (need : Need) :
    List (Nat × Nat) → List Run → (List Run → State → State) → State
  | [], acc, k => k acc.reverse s
  | (va, len) :: rest, acc, k =>
    match s.translate (engineTlbs core) ctx o.supervisor need va with
    | .wait s' => s'
    | .ok x s1 => s1.engineRuns o core ctx need rest ({ va := va, len := len, xl := x } :: acc) k
    | .fail st lv _ s1 => match s1.pageRequest ctx va akCopy st lv o.gid with
      | some s2 => s2.setCopy o { o with heldPage := some (va % 2 ^ 57 / 4096) }
      | none => s1.stall

/-- The eviction priority of an operation's accesses, and whether its loads are last uses: its map's (07 R213; DESIGN CHOICE for an
operation without a map: log 60). -/
def CopyOp.prio (o : CopyOp) : Nat :=
  match o.kind with
  | .range _ _ _ _ => backPrio | .fill _ _ _ _ => backPrio | _ => (mapOf o.map).evict
def CopyOp.lastUse (o : CopyOp) : Bool :=
  match o.kind with
  | .range _ _ _ _ => false | .fill _ _ _ _ => false | .reduce _ _ _ => false | .tile store _ _ _ => !store && (mapOf o.map).lu
  | .gather _ _ _ => (mapOf o.map).lu

/-- The header of a packet of the copy engine. -/
def State.engineHeader (s : State) (o : CopyOp) (core op pa : Nat) : Packet :=
  let c := s.ctxOfId o.gid
  { dest := pkgOf pa, src := s.own, cls := 5, op := op, svc := s.svcOf o.gid, ctx := c, xgen := (s.ctx c).xgen.toNat, agent := core
    addr := pa }

/-- The bytes of runs with their poison: the runs of other packages are asked for first, which starts the unit. -/
def State.engineRead (s : State) (o : CopyOp) (core : Nat) (rs : List Run)
    (k : (Nat → Byte × Bool) → State → State) : State :=
  let away := rs.filter fun r => r.xl.kind == 2 && (aget o.got r.xl.pa).isNone
  if !away.isEmpty then
    if s.remotes.any (fun r => r.what == .copyUnit o.gid o.seqNo) then s.stall
    else away.foldl (fun (s : State) r =>
      s.ask { s.engineHeader o core opRead r.xl.pa with opdata := r.len } (.copyUnit o.gid o.seqNo)) (s.setCopy o { o with begun := true })
  else
    let here := rs.filter fun r => r.xl.kind != 2
    s.whenReady (here.flatMap fun r => span (locOf r.xl.pa) r.len) false <|
      let homed := here.filter fun r => r.xl.kind != 3
      let s1 := (homed.foldl (fun (s : State) r =>
          (s.recallExclusive homeAgent (locOf r.xl.pa / 128)).l2Read core r.xl o.prio (s.svcOf o.gid) false) s).verify
        (byCopy core (s.ctxOfId o.gid)) (homed.flatMap fun r => span (locOf r.xl.pa) r.len)
      k (fun va => match rs.find? fun r => r.va ≤ va && va < r.va + r.len with
        | none => (0, false)
        | some r =>
          let a := locOf r.xl.pa + (va - r.va)
          if r.xl.kind == 2 then
            let p := agetD o.got r.xl.pa ([], [])
            (p.1.getD (va - r.va) 0, p.2.contains (a / 32))
          else if r.xl.kind == 3 then (readByte s1.mem a, s1.isBad [a])
          else ((s1.readHome a 1).headD 0, s1.isBad [a]))
        (if o.lastUse then rs.foldl (fun s r => s.dropCopies core true r.xl) s1 else s1)

/-- Cells in maximal runs of consecutive addresses, in the order given. -/
def contiguous (cs : List (Nat × Byte)) : List (Nat × List Byte) :=
  (cs.foldl (fun (acc : List (Nat × List Byte)) c => match acc with
    | (a, bs) :: rest => if c.1 == a + bs.length then (a, bs ++ [c.2]) :: rest else (c.1, [c.2]) :: acc
    | [] => [(c.1, [c.2])]) []).reverse

/-- Write cells of virtual addresses through translated runs; a cell with `true` poisons its beat (17 R416). -/
def State.engineWrite (s : State) (o : CopyOp) (core : Nat) (rs : List Run) (cells : List (Nat × Byte × Bool)) : State :=
  let tag := o.tag
  rs.foldl (fun (s : State) r =>
    let mine := cells.filter fun x => r.va ≤ x.1 && x.1 < r.va + r.len
    let pa := fun (va : Nat) => locOf r.xl.pa + (va - r.va)
    let badBeats := uniq ((mine.filter fun x => x.2.2).map fun x => pa x.1 / 32)
    let cells := mine.map fun x => (pa x.1, x.2.1)
    if r.xl.kind == 2 then
      (contiguous cells).foldl (fun (s : State) p =>
        s.ask { s.engineHeader o core opWrite (paOf (pkgOf r.xl.pa) p.1) with
                opdata := p.2.length, data := writeData p.2 tag
                spoiled := badBeats.filter fun b => p.1 ≤ 32 * b + 31 && 32 * b < p.1 + p.2.length }
          (.copyUnit o.gid o.seqNo) false [] (some (r.va / 4096))) s
    else
      let w : HomeWrite := { cells := cells, gid := some o.gid, tag := tag, through := r.xl.pt, bads := badBeats, vpage := r.va / 4096 }
      if r.xl.kind == 3 then s.homeWrite w
      else ((s.recallExclusive homeAgent (locOf r.xl.pa / 128)).l2Write core r.xl r.len o.prio (s.svcOf o.gid) false).homeWrite w) s

/-- Scratch bytes written by the engine: granules become full, and a granule that receives a byte of a poisoned source is
poisoned (07 R213). -/
def Team.engineFill (t : Team) (cells : List (Nat × Byte × Bool)) : Team :=
  let grans := uniq (cells.map fun c => c.1 / 16)
  let bad := uniq ((cells.filter fun c => c.2.2).map fun c => c.1 / 16)
  let whole := grans.filter fun g => (cells.filter fun c => c.1 / 16 == g).length == 16
  { t with
    scratch := cells.foldl (fun m (c : Nat × Byte × Bool) => writeByte m c.1 c.2.1) t.scratch
    full := grans.foldl addSet t.full
    spoiled := bad.foldl addSet (t.spoiled.filter fun g => !whole.contains g) }

/-! ### Completion -/

/-- The last unit is done and every write to another package is acknowledged: the future completes (07 R209). -/
def State.endCopy (s : State) (o : CopyOp) : State :=
  if s.remotes.any fun r => r.what == .copyUnit o.gid o.seqNo then s.stall
  else
    let s0 : State := { s with copyOps := s.copyOps.filter fun x => !(x.gid == o.gid && x.seqNo == o.seqNo) }
    let fin := fun (st : Nat) (t : Option TrapInfo) =>
      s0.completeOp (.copy o.gid) o.seqNo st t o.gid (BitVec.ofNat 6 o.fl) (o.nan.map (BitVec.ofNat 22))
    match o.lostPeer with
    | some p => fin 11 (some (copyTrap 11 o.seqNo 0 p 0))
    | none => match o.failed with
      | some (vpage, f) => fin 1 (some (copyTrap 1 o.seqNo (vpage * 4096) akCopy f))
      | none =>
        if o.cancelled && o.done < o.units then fin 6 none
        else match o.spoiled with
          | some a => fin 5 (some (copyTrap 5 o.seqNo a 0 0))
          | none => fin 0 none

/-- A unit is done: one more counted, what came from other packages forgotten, and the end when it was the last. -/
def State.unitDone (s : State) (o : CopyOp) : State :=
  let o1 := { o with done := o.done + 1, got := [], begun := false }
  let s1 := s.setCopy o o1
  if o1.done < o1.units || s1.remotes.any (fun r => r.what == .copyUnit o.gid o.seqNo) then s1 else s1.endCopy o1

/-! ### Units -/

/-- The bits of a byte whose elements lie inside the tensor. -/
def insideMask (m : MapF) (y x : Nat) : Nat :=
  if y < m.xrows then
    if m.bits == 4 then (if x < m.xcols then 0x0F else 0) + (if x + 1 < m.xcols then 0xF0 else 0)
    else if x < m.xcols then 0xFF else 0
  else 0

/-- A byte under a mask of bits. -/
def maskByte (b : Byte) (m : Nat) : Byte := b &&& BitVec.ofNat 8 m

/-- The tile bytes of a unit: scratch offset, memory address, and the mask of the bits inside the tensor, zero for pad
bytes (08 R266). `rowAt` gives the tensor row of a tile row. -/
def tileUnit (m : MapF) (u : Nat) (rowAt : Nat → Nat) (col0 : Nat) : List (Nat × Nat × Nat) :=
  let n := m.tileBytes
  (List.range (min 4096 (n - 4096 * u))).map fun k =>
    let off := m.sbase + 4096 * u + k
    match m.byteElem (4096 * u + k) with
    | some (i, j, w) => (off, m.memAddr (rowAt i) (col0 + j) + w, insideMask m (rowAt i) (col0 + j))
    | none => (off, 0, 0)

/-- The scale bytes of a unit, in the same form. -/
def scaleUnit (m : MapF) (u row0 col0 : Nat) : List (Nat × Nat × Nat) :=
  (List.range (min 4096 (m.scaleBytes - 4096 * u))).map fun k =>
    let n := 4096 * u + k
    let (i, j) := m.scaleElem n
    let (y, x) := (row0 + i, col0 + j)
    (m.sscale + n, m.scaleMem y x, if y < m.xrows && x < m.xcols then 0xFF else 0)

/-- The largest magnitude of the elements inside the tensor among tile bytes, given with their masks; an element is named by its
first byte. -/
def unitMag (m : MapF) (origin : Word64) (scratch : Memory) (bytes : List (Nat × Nat × Nat)) : Option Nat :=
  if !m.amaxen || !m.isFloat then none
  else
    let per := max (m.bits / 8) 1
    let firsts := bytes.filter fun b => (b.1 - m.sbase) % per == 0 && (m.byteElem (b.1 - m.sbase)).isSome
    maxMag (firsts.flatMap fun b => ((List.range (if m.bits == 4 then 2 else 1)).filter fun h => field b.2.2 (4 * h) 4 != 0).map fun h =>
      Ty.decode m.ty false (origin.extractLsb' 0 22) (rawAt scratch (8 * b.1 + 4 * h) m.bits))

/-- Load a list of tile bytes into scratch: `bad` tells offsets that arrive poisoned whatever their source. -/
def State.loadUnit (s : State) (o : CopyOp) (core ctx team : Nat) (bytes : List (Nat × Nat × Nat)) (elems : Bool)
    (bad : Nat → Bool) : State :=
  let m := mapOf o.map
  s.engineRuns o core ctx .read (lineSpans ((bytes.filter fun b => b.2.2 != 0).map fun b => b.2.1)) [] fun rs s1 =>
    s1.engineRead o core rs fun rd s2 =>
      let cells := bytes.map fun (off, va, mask) =>
        if mask == 0 then (off, (0 : Byte), bad off)
        else let (b, p) := rd va; (off, maskByte b mask, p || bad off)
      let s3 := s2.updTeam team fun t =>
        let t1 := t.engineFill cells
        if elems then t1.raiseAmax o.mapNo (unitMag m o.origin t1.scratch bytes) else t1
      (s3.wakeGranules team).unitDone o

/-- The tile or scale bytes whose memory beat the unit finishes: of each beat that lies in several units the last writes all, so that a
beat which the destination covers whole is written whole (18 R428). `of` gives the bytes of a unit, of `n`. -/
def beatsOfUnit (n u : Nat) (of : Nat → List (Nat × Nat × Nat)) : List (Nat × Nat × Nat) :=
  let live := fun (k : Nat) => (of k).filter fun b => b.2.2 != 0
  let later := ((List.range n).drop (u + 1)).flatMap fun k => (live k).map fun b => b.2.1 / 32
  let mine := (live u).filter fun b => !later.contains (b.2.1 / 32)
  let beats := uniq (mine.map fun b => b.2.1 / 32)
  ((List.range u).flatMap fun k => (live k).filter fun b => beats.contains (b.2.1 / 32)) ++ mine

/-- Store a list of tile bytes into memory; a byte partly inside the tensor keeps its other bits. -/
def State.storeUnit (s : State) (o : CopyOp) (core ctx team : Nat) (bytes : List (Nat × Nat × Nat)) (elems fe : Bool) : State :=
  let m := mapOf o.map
  let t := s.team team
  let live := bytes.filter fun b => b.2.2 != 0
  if fe && live.any (fun b => !t.full.contains (b.1 / 16)) then s.stall
  else
    s.engineRuns o core ctx .write (lineSpans (live.map fun b => b.2.1)) [] fun rs s1 =>
      let part := live.filter fun b => b.2.2 != 0xFF
      let partRuns := rs.filter fun r => part.any fun b => r.va ≤ b.2.1 && b.2.1 < r.va + r.len
      s1.engineRead o core partRuns fun rd s2 =>
        s2.whenReady (rs.flatMap fun r => if r.xl.kind == 2 then [] else span (locOf r.xl.pa) r.len) true <|
          let cells := live.map fun (off, va, mask) =>
            let b := maskByte (readByte t.scratch off) mask
            let keep := if mask == 0xFF then 0 else maskByte (rd va).1 (255 - mask)
            (va, b ||| keep, t.spoiled.contains (off / 16))
          let s3 := s2.engineWrite o core rs cells
          let mag := if elems then unitMag m o.origin t.scratch live else none
          (s3.updTeam team fun t => t.raiseAmax o.mapNo mag).unitDone o

/-- Operation code of a reduction step at another package (log 15). -/
def opReduce : Nat := 8

/-- One step of `AREDUCE`: the new bits and the flags (07 R217). -/
def reduceElem (t : Ty) (op : Nat) (rnd : Rnd) (ftz : Bool) (origin : BitVec 22) (u old new : Nat) : Nat × Flags :=
  let f := (Ty.fmt? t).getD .f32
  let x := f.decode ftz origin old
  let y := f.decode ftz origin new
  f.write { rnd := rnd, ftz := ftz, u := u }
    (match op with | 0 => fadd rnd origin x y | 1 => fminmax true x y | _ => fminmax false x y)

/-- The unit of `AREDUCE` is one element, in row-major order, so that the private rounding state follows R60. A result that is a NaN
leaves no payload in `orig` or `lastnan`, also under `.bf16` (DESIGN CHOICE: 07 R217 is silent; log 59). -/
def State.reduceUnit (s : State) (o : CopyOp) (core ctx team op row0 col0 : Nat) : State :=
  let m := mapOf o.map
  let cols := max (m.insideCols col0) 1
  let (i, j) := (o.done / cols, o.done % cols)
  let w := m.bits / 8
  let va := m.memAddr (row0 + i) (col0 + j)
  let off := m.elemBit i j / 8
  let t := s.team team
  let new := leValue (readBytes t.scratch off w)
  let origin := o.origin.extractLsb' 0 22
  let rng := rsNext o.rnd o.rng
  let u := rsBits rng
  let skip := fun (s : State) => s.unitDone { o with spoiled := some (match o.spoiled with | some a => min a va | none => va) }
  let finish := fun (old : Nat) (s : State) =>
    let (r, fl) := reduceElem m.ty op o.rnd o.ftz origin u old new
    let mag := if m.amaxen then maxMag [Ty.decode m.ty false origin r] else none
    (s.updTeam team fun t => t.raiseAmax o.mapNo mag).unitDone { o with rng := rng, fl := (BitVec.ofNat 6 o.fl ||| fl).toNat }
  if t.isBad off w then skip s
  else s.engineRuns o core ctx .write [(va, w)] [] fun rs s1 =>
    match rs with
    | [] => s1.stall
    | r :: _ =>
      if r.xl.kind == 2 then
        match aget o.got r.xl.pa with
        | some (bs, bad) => if bs.isEmpty || !bad.isEmpty then skip s1 else finish (leValue bs) s1
        | none =>
          if s1.remotes.any (fun x => x.what == .copyUnit o.gid o.seqNo) then s1.stall
          else
            let tag := o.tag
            (s1.setCopy o { o with begun := true }).ask { s1.engineHeader o core opReduce r.xl.pa with
                     opdata := w
                     data := leBytes w new ++ leBytes 4 (op + 4 * o.rnd.code.toNat + 32 * o.ftz.toNat + 64 * u) ++ leBytes 4 origin.toNat
                       ++ leBytes 1 m.ty.code.toNat ++ leBytes 8 tag.toNat }
              (.copyUnit o.gid o.seqNo) false [] (some (va / 4096))
      else
        let a := locOf r.xl.pa
        s1.whenReady (span a w) true <|
          let s2 := if r.xl.kind == 3 then s1
            else ((s1.recallExclusive homeAgent (a / 128)).request core (s.svcOf o.gid) a false false ctx).verify
              (byCopy core (s.ctxOfId o.gid)) (span a w)
          if s2.isBad (span a w) then skip s2
          else
            let old := leValue (s2.readHome a w)
            let v := (reduceElem m.ty op o.rnd o.ftz origin u old new).1
            finish old (s2.engineWrite o core [r] ((List.range w).map fun k => (va + k, (leBytes w v).getD k 0, false)))

/-- Write bytes of a range in memory or scratch. -/
def State.writeRange (s : State) (o : CopyOp) (core team : Nat) (toScratch : Bool) (rs : List Run) (cells : List (Nat × Byte × Bool)) :
    State :=
  if toScratch then (s.updTeam team fun t => t.engineFill cells).wakeGranules team else s.engineWrite o core rs cells

/-- The bytes of a range unit, 16 at a time in ascending order, so that overlapping ranges copy as 07 R215 says: `src`
gives what lay at the source before the unit. -/
def rangeCells (src dst same : Nat) (n : Nat) (rd : Nat → Byte × Bool) : List (Nat × Byte × Bool) :=
  (List.range n).map fun k =>
    -- where the ranges overlap with the destination above the source by `d` < n, a source byte at `k ≥ d` was
    -- written by this unit already: it holds the byte `d` lower, and so on down to an old one
    let d := dst - src
    let k' := if same == 1 && src < dst && d < n then k % d else k
    let p := rd (src + k')
    (dst + k, p.1, p.2)

/-- Where unit `u` of a range in memory at `dst` begins: units meet at a beat's edge, so that a beat which the range covers whole is
written whole (18 R428). -/
def unitStart (toScratch : Bool) (dst count u : Nat) : Nat :=
  if u == 0 then 0 else min count (4096 * u + if toScratch then 0 else (32 - dst % 32) % 32)

/-- One unit of a range copy. -/
def State.rangeUnit (s : State) (o : CopyOp) (core ctx team kind dst src count : Nat) : State :=
  let at_ := unitStart (decide (2 ≤ kind)) dst count o.done
  let n := unitStart (decide (2 ≤ kind)) dst count (o.done + 1) - at_
  let (dst, src) := (dst + at_, src + at_)
  let toScratch := decide (2 ≤ kind)
  let fromScratch := kind % 2 == 1
  let t := s.team team
  let lines := fun (base : Nat) => lineSpans ((List.range n).map fun k => (base + k) % 2 ^ 57)
  let fromMem := fun (k : (Nat → Byte × Bool) → State → State) =>
    if fromScratch then k (fun a => (readByte t.scratch a, t.spoiled.contains (a / 16))) s
    else s.engineRuns o core ctx .read (lines src) [] fun rs s1 => s1.engineRead o core rs fun rd s2 => k (fun a => rd (a % 2 ^ 57)) s2
  fromMem fun rd s1 =>
    let cells := (rangeCells src dst (if toScratch == fromScratch then 1 else 0) n rd).map fun c =>
      (if toScratch then c.1 else c.1 % 2 ^ 57, c.2)
    if toScratch then (s1.writeRange o core team true [] cells).unitDone o
    else s1.engineRuns o core ctx .write (lines dst) [] fun rs s2 =>
      s2.whenReady (rs.flatMap fun r => if r.xl.kind == 2 then [] else span (locOf r.xl.pa) r.len) true <|
        (s2.writeRange o core team false rs cells).unitDone o

/-- One unit of a fill. -/
def State.fillUnit (s : State) (o : CopyOp) (core ctx team : Nat) (toScratch : Bool) (base len : Nat) (pat : Word32) : State :=
  let at_ := unitStart toScratch base len o.done
  let n := unitStart toScratch base len (o.done + 1) - at_
  let cells := (List.range n).map fun k =>
    (if toScratch then base + at_ + k else (base + at_ + k) % 2 ^ 57, (leBytes 4 pat.toNat).getD (k % 4) 0, false)
  if toScratch then (s.writeRange o core team true [] cells).unitDone o
  else s.engineRuns o core ctx .write (lineSpans (cells.map Prod.fst)) [] fun rs s1 =>
    s1.whenReady (rs.flatMap fun r => if r.xl.kind == 2 then [] else span (locOf r.xl.pa) r.len) true <|
      (s1.writeRange o core team false rs cells).unitDone o

/-- Move the next unit of an operation. -/
def State.copyUnit (s : State) (o : CopyOp) (g : Group) : State :=
  let core := s.coreOf g
  let ctx := s.ctxOf g
  let m := mapOf o.map
  let tiles := units m.tileBytes
  match o.kind with
  | .tile store fe row0 col0 =>
    let elems := o.done < tiles
    let bytesOf := fun (u : Nat) => if elems then tileUnit m u (row0 + ·) col0 else scaleUnit m u row0 col0
    let u := if elems then o.done else o.done - tiles
    if store then s.storeUnit o core ctx g.team (beatsOfUnit (if elems then tiles else o.units - tiles) u bytesOf) elems fe
    else s.loadUnit o core ctx g.team (bytesOf u) elems fun _ => false
  | .range kind dst src count => s.rangeUnit o core ctx g.team kind dst src count
  | .fill toScratch base len pat => s.fillUnit o core ctx g.team toScratch base len pat
  | .reduce op row0 col0 => s.reduceUnit o core ctx g.team op row0 col0
  | .gather fe list col0 =>
    let t := s.team g.team
    let rows := uniq ((tileUnit m o.done id 0).filterMap fun b => (m.byteElem (b.1 - m.sbase)).map Prod.fst)
    let gran := fun (i : Nat) => (list + 4 * i) / 16
    if fe && rows.any (fun i => !t.full.contains (gran i)) then s.stall
    else
      let rowAt := fun (i : Nat) => readLE t.scratch (list + 4 * i) 4
      s.loadUnit o core ctx g.team (tileUnit m o.done rowAt col0) true fun off =>
        match m.byteElem (off - m.sbase) with
        | some (i, _, _) => t.spoiled.contains (gran i)
        | none => false

/-- A step of a copy engine for an operation, which waits for lines as that operation does. -/
def State.asEngine (s : State) (o : CopyOp) (k : State → State) : State :=
  { k { s with cur := .engine [8, o.gid, o.seqNo] } with cur := s.cur }

/-- `COPY_UNIT`: the operation in place `input.index` moves its next unit, or ends when none is left; that of a saved gang rests (13
R360). With no operation in that place, the copy engine sends the next line of the first `STRIPE` in progress (16 R404). -/
def execCopyUnit (s : State) : Host.Outcome State Fault Refusal :=
  .next <| match s.copyOps[s.input.index]? with
    | none => match s.snap.work.find? fun w => w.kind == .stripe && !w.ending with
      | some w => s.stripeUnit w
      | none => s.stall
    | some o =>
      if (o.cancelled && !o.begun) || o.failed.isSome || o.lostPeer.isSome || o.units ≤ o.done then s.endCopy o
      else if o.heldPage.isSome then s.stall
      else match aget s.groups o.gid with
        | some g => if (s.gangOf g).run == .saved then s.stall else s.asEngine o fun s => s.copyUnit o g
        | none => { s with copyOps := s.copyOps.filter fun x => !(x.gid == o.gid && x.seqNo == o.seqNo) }

end Sys2Proof.Machine
end

