-- ==== Sys2Proof/Machine/Futures.lean ====
section
/-!
DEFINITION. Futures and timelines (07 R209-R212).
-/
namespace Sys2Proof.Machine

/-- The handle that a future instruction names: a handle register, or a scalar under `.s`. -/
def Group.handleOf (g : Group) (a : TArgs) : Word64 := if a.op.getLsbD 0 then g.s a.a.toNat else g.h a.a.toNat
/-- The scalars that it reads. -/
def handleReads (a : TArgs) : List (RegRef × Word32) := if a.op.getLsbD 0 then readsS [a.a.toNat] else []

def execFwait (a : TArgs) (s : State) : Host.Outcome State Fault Refusal :=
  onGroupPlain s fun gid g => s.ready gid g (handleReads a) [] <|
    let h := g.handleOf a
    match s.codeKey gid g (handleCode h) with
    | none => s.done gid g.advance
    | some k =>
      if (s.engine k).complete (handleSeq h) then s.waited gid g k (fun n => n == handleSeq h) Group.advance else s.stall

def execFtest (a : TArgs) (s : State) : Host.Outcome State Fault Refusal :=
  onGroupPlain s fun gid g => s.ready gid g (handleReads a) [.s a.d.toNat] <|
    let h := g.handleOf a
    let n := handleSeq h
    match s.codeKey gid g (handleCode h) with
    | none => s.done gid (g.setS a.d.toNat 1).advance
    | some k =>
      if (s.engine k).complete n then
        let st := (s.engine k).status n
        ((s.acquireOp (s.coreOf g) k).delivered k n).done gid (g.setS a.d.toNat (BitVec.ofNat 64 (1 + 256 * st))).advance
      else s.done gid (g.setS a.d.toNat 0).advance

/-- Cancel a copy operation of the group: units not yet started are not performed; one that has started is finished. -/
def State.cancelCopy (s : State) (gid n : Nat) : State :=
  match s.copyOps.find? fun o => o.gid == gid && o.seqNo == n with
  | none => s
  | some o =>
    if o.units ≤ o.done then s
    else
      let o1 := { o with cancelled := true, heldPage := if o.begun then o.heldPage else none }
      let s1 := s.setCopy o o1
      if o.begun || s1.remotes.any (fun r => r.what == .copyUnit gid n) then s1 else s1.endCopy o1

def execFcancel (a : TArgs) (s : State) : Host.Outcome State Fault Refusal :=
  onGroupPlain s fun gid g => s.ready gid g (handleReads a) [] <|
    let h := g.handleOf a
    let s1 := s.putGroup gid g
    (if handleCode h == 1 then s1.cancelCopy gid (handleSeq h) else s1).advanceGroup gid

def execTlwait (a : TArgs) (s : State) : Host.Outcome State Fault Refusal :=
  onGroupPlain s fun gid g => s.ready gid g (readsS [a.a.toNat]) [] <|
    let x := g.s a.a.toNat
    match s.codeKey gid g (handleCode x) with
    | none => s.done gid g.advance
    | some k =>
      if handleSeq x ≤ (s.engine k).timeline then s.waited gid g k (fun n => n ≤ handleSeq x) Group.advance else s.stall

def execTlrd (a : TArgs) (s : State) : Host.Outcome State Fault Refusal :=
  runPlain s (fun _ => []) [.s a.d.toNat] fun g =>
    if a.b == 1 then g.setS a.d.toNat (g.h a.a.toNat)
    else
      let value := match s.cur with
        | .group gid => match s.codeKey gid g a.op.toNat with
          | some k => (s.engine k).timeline
          | none => 0
        | _ => 0
      g.setS a.d.toNat (mkHandle a.op.toNat value)

end Sys2Proof.Machine
end

