-- ==== Sys2Proof/Machine/Matrix.lean ====
section
/-!
DEFINITION. Matrix streams: forking and joining, numbered barriers, stationary planes, matrix products, accumulator
tiles and drains (07 R219-R230; 08 R256, R261-R263, R266).
-/
namespace Sys2Proof.Machine

/-- Change the matrix unit of a quarter. -/
def State.updUnit (s : State) (t q : Nat) (f : MUnit → MUnit) : State :=
  s.updTeam t fun x => { x with units := aset x.units q (f (agetD x.units q {})) }
/-- Change the stream of a quarter. -/
def State.updStream (s : State) (t q : Nat) (f : Stream → Stream) : State :=
  s.updUnit t q fun u => { u with stream := u.stream.map f }

/-- The stream completes with a status and the trap that delivers it (07 R223). -/
def State.endStream (s : State) (t q : Nat) (st : Stream) (status : Nat) (trap : Option TrapInfo) : State :=
  (s.completeOp (.seq t q) st.seqNo status trap st.forker st.fl st.nan).updStream t q fun x =>
    { x with running := false, waiting := false, chunk := 0, started := false, maps := [], fl := 0, nan := none }

/-- The stream stops at its word: the record names the word and the handle. -/
def State.failStream (s : State) (t q : Nat) (st : Stream) (status : Nat) (i : TrapInfo) : State :=
  s.endStream t q st status (some { i with s60 := st.pc, s61 := (mkHandle (0x10 + q) st.seqNo).toNat })

/-- Run a meaning on the stream whose word is executed. -/
def onStream (s : State) (f : Nat → Nat → Team → MUnit → Stream → State) : Host.Outcome State Fault Refusal :=
  match s.cur with
  | .stream t q => match aget s.teams t with
    | some team =>
      let u := agetD team.units q {}
      match u.stream with
      | some st => if st.running then .next (f t q team u st) else .fault .noAgent
      | none => .fault .noAgent
    | none => .fault .noAgent
  | _ => .fault .noAgent

/-- The word is done: the stream goes on with the next. -/
def State.nextWord (s : State) (t q : Nat) : State :=
  s.updStream t q fun x =>
    { x with pc := wordMod (x.pc + 1), waiting := false, chunk := 0, started := false, maps := [], lastIssue := s.clock }

/-- Flags of a word of the stream, kept until its future completes (05 R153). -/
def State.streamFlags (s : State) (t q : Nat) (fl : Flags) : State := s.updStream t q fun x => { x with fl := x.fl ||| fl }

/-- The scratch allocation of a team. -/
def State.teamScratch (s : State) (t : Team) : Nat := 4096 * (s.gang t.gang).rec_.scratch

/-! ### Forking and joining (07 R219) -/

/-- The group is first among those whose `MFORK` waits for a unit; a group that waits there no more holds none up (07 R219). -/
def State.forkTurn (s : State) (u : MUnit) (gid : Nat) : Bool :=
  (u.forks.find? fun k => k == gid || ((aget s.groups k).map fun g => g.begun && g.live != 0).getD false) == some gid

/-- `MFORK`: the forks of one quarter are served in the order in which they issued (07 R219). -/
def execMfork (a : BArgs) (s : State) : Host.Outcome State Fault Refusal :=
  onGroupPlain s fun gid g =>
    let t := g.team
    let q := s.unitOf g
    if (s.recOf g).acc == 0 then s.illegal gid g .wrongStream
    else
      let s0 := s.updUnit t q fun u => { u with forks := if u.forks.contains gid then u.forks else u.forks ++ [gid] }
      let u := agetD (s0.team t).units q {}
      if ((u.stream).map Stream.running).getD false || !s0.forkTurn u gid then s0.stall
      else s0.readyIssue gid g [] [] <|
        let (seed, g1) := g.seed
        let (n, s1) := ((s0.putGroup gid g1).openOp (.seq t q) gid)
        let st : Stream :=
          { pc := branchTarget g a.off, forker := gid, seqNo := n, rng := seed, origin := g.origin, supervisor := g.supervisor }
        let s2 := s1.updUnit t q fun u => { u with stream := some st, forks := u.forks.filter (· != gid) }
        s2.withHandle gid a.d.toNat (0x10 + q) n

def execMjoin (_a : TArgs) (s : State) : Host.Outcome State Fault Refusal :=
  onGroupPlain s fun gid g =>
    let q := s.unitOf g
    match (agetD (s.team g.team).units q {}).stream with
    | none => s.done gid g.advance
    | some st => if st.running then s.stall else s.waited gid g (.seq g.team q) (fun n => n == st.seqNo) Group.advance

/-! ### Numbered barriers (07 R220) -/

/-- An arrival; none when the expected counts differ. -/
def NBar.arrive (b : NBar) (n : Nat) : Option NBar :=
  if b.expected != 0 && b.expected != n then none
  else if b.arrived + 1 == n then some { expected := 0, arrived := 0, phase := !b.phase }
  else some { b with expected := n, arrived := b.arrived + 1 }

/-- A numbered barrier of a team. -/
def Team.nbar (t : Team) (k : Nat) : NBar := agetD t.nbars k {}

/-- `NBAR.arr`. Its `BARRIER_FAULT`, and the one that `MBAR.arr` leaves, has lane mask 0: the spec gives none for a word that executes once
per issue (DESIGN CHOICE: log 63). -/
def execNbara (a : TArgs) (s : State) : Host.Outcome State Fault Refusal :=
  onGroupPlain s fun gid g =>
    let k := a.b.toNat
    if s.unsettled gid g then s.stall
    else match ((s.team g.team).nbar k).arrive a.op.toNat with
      | none => s.trap gid g { code := tcBarrierFault, status := 2, s59 := k }
      | some b => (s.updTeam g.team fun t => { t with nbars := aset t.nbars k b }).done gid g.advance

def execNbarw (a : TArgs) (s : State) : Host.Outcome State Fault Refusal :=
  onGroupPlain s fun gid g =>
    if ((s.team g.team).nbar a.b.toNat).phase == a.op.getLsbD 0 then s.stall else s.done gid g.advance

/-- `MBAR.arr`: the stream's earlier words are complete (08 R261). -/
def execMbarArr (a : TArgs) (s : State) : Host.Outcome State Fault Refusal :=
  onStream s fun t q team _ st =>
    let k := a.b.toNat
    match (team.nbar k).arrive a.op.toNat with
    | none => s.failStream t q st 13 { code := tcBarrierFault, status := 2, s59 := k }
    | some b => (s.updTeam t fun x => { x with nbars := aset x.nbars k b }).nextWord t q

/-- `MBAR.wait`: the stream blocks until the phase differs (07 R220). -/
def execMbarWait (a : TArgs) (s : State) : Host.Outcome State Fault Refusal :=
  onStream s fun t q team _ st =>
    if (team.nbar a.b.toNat).phase != a.op.getLsbD 0 then s.nextWord t q
    else if st.waiting then s.stall
    else s.updStream t q fun x => { x with waiting := true }

def execMexit (_a : TArgs) (s : State) : Host.Outcome State Fault Refusal :=
  onStream s fun t q _ _ st => (s.endStream t q st 0 none).updStream t q fun x => { x with pc := wordMod (x.pc + 1) }

/-! ### Reading operands (07 R205, R222, R224) -/

/-- The smode in view terms. -/
def MapF.viewMode (m : MapF) : Nat := if m.trans && (m.smode == 1 || m.smode == 2) then 3 - m.smode else m.smode

/-- The scratch granules of a map's tile and scales. -/
def MapF.granules (m : MapF) : List Nat :=
  let of := fun (o n : Nat) => (List.range ((n + 15) / 16)).map (o / 16 + ·)
  of m.sbase m.tileBytes ++ (if m.smode == 0 then [] else of m.sscale m.scaleBytes)

/-- The stored element of view element (i, j). -/
def MapF.stored (m : MapF) (view : Bool) (i j : Nat) : Nat × Nat := if view && m.trans then (j, i) else (i, j)

/-- The 4096 element encodings of a 64 x 64 map, row-major in view or stored coordinates. -/
def readElems (m : MapF) (view : Bool) (scratch : Memory) : List Nat :=
  (List.range 4096).map fun n =>
    let (i, j) := m.stored view (n / 64) (n % 64)
    rawAt scratch (m.elemBit i j) m.bits
/-- The scale byte of each view element; empty without scales. -/
def readScales (m : MapF) (scratch : Memory) : List Nat :=
  if m.smode == 0 then []
  else (List.range 4096).map fun n =>
    let (i, j) := m.stored true (n / 64) (n % 64)
    (readByte scratch (m.sscale + m.scaleAt i j)).toNat

/-- The failure of a map at the start of a stream instruction: a status of 07 Table 7.3, or of the use (`more`; 07 R225, R227), or the
offset of a footprint that passes the allocation (07 R206, R223). -/
def streamMapFail (m : MapF) (alloc : Nat) (admits : Ty → Bool) (more : MapF → Option Nat) : Option (Nat ⊕ Nat) :=
  let bad := (mapFails m (.matrix [m.ty])).map fun p => (p.1, p.2 || (p.1 == 2 && !admits m.ty) || more m == some p.1)
  match ((bad.find? Prod.snd).map Prod.fst).orElse fun _ => more m with
  | some x => some (.inl x)
  | none => (mapOver m alloc).map .inr

/-- The records that a stream word names, as it read them when it started (08 R261). -/
def Stream.records (st : Stream) (team : Team) (ns : List Nat) : AMap Nat (List Word32) :=
  ns.map fun n => (n, if st.started then agetD st.maps n [] else (team.tmap n).words)

/-- Read the maps of a stream instruction at its start: the checks of every one, in the order given, before any access; then the wait
of `fewait`, and poison (07 R206, R222, R223; 08 R262). -/
def State.streamMaps (s : State) (t q : Nat) (team : Team) (st : Stream) (ns : List Nat) (admits : Ty → Bool)
    (more : MapF → Option Nat) (operand : Bool) (k : List MapF → State) : State :=
  let recs := st.records team ns
  let ms := recs.map fun r => (r.1, mapOf r.2)
  let alloc := s.teamScratch team
  match ms.findSome? fun x => (streamMapFail x.2 alloc admits more).map fun e => (x.1, e) with
  | some (n, .inl x) => s.failStream t q st 10 { code := tcTmapFault, status := x, lanes := allLanes, s59 := n }
  | some (_, .inr off) => s.failStream t q st 8 { scratchBound allLanes off alloc with status := 8 }
  | none =>
    if operand && ms.any (fun x => x.2.fewait && x.2.granules.any fun g => !team.full.contains g) then
      (s.updStream t q fun x => { x with started := true, maps := recs }).stall
    else match (if operand then (ms.flatMap fun x => x.2.granules).find? fun g => team.spoiled.contains g else none) with
      | some g => s.endStream t q st 5
          (some { code := tcPoison, status := 5, s58 := 16 * g, s59 := st.pc, s61 := (mkHandle (0x10 + q) st.seqNo).toNat })
      | none => k (ms.map Prod.snd)

/-- The same of one map. -/
def State.streamMap (s : State) (t q : Nat) (team : Team) (st : Stream) (n : Nat) (admits : Ty → Bool)
    (more : MapF → Option Nat) (operand : Bool) (k : MapF → State) : State :=
  s.streamMaps t q team st [n] admits more operand fun ms => k (ms.headD (mapOf []))

/-- Formats of Table 7.10. -/
def matrixTy (t : Ty) : Bool := match t with | .e4m3 | .e5m2 | .i8 | .e2m1 | .i4 | .bf16 | .f16 => true | _ => false
/-- Formats that combine share a class. -/
def combines (x y : Ty) : Bool := x == y || ((x == .e4m3 || x == .e5m2) && (y == .e4m3 || y == .e5m2))

def execLdstat (a : TArgs) (s : State) : Host.Outcome State Fault Refusal :=
  onStream s fun t q team _ st =>
    let n := a.tmap.toNat
    s.streamMap t q team st n matrixTy (fun _ => none) true fun m =>
      (s.updUnit t q fun u => { u with shadow :=
        { loaded := true, fmt := m.ty, smode := m.viewMode, map := n, elems := readElems m true team.scratch
          scales := readScales m team.scratch } }).nextWord t q

def execSwaps (_a : TArgs) (s : State) : Host.Outcome State Fault Refusal :=
  onStream s fun t q _ _ _ => (s.updUnit t q fun u => { u with active := u.shadow, shadow := u.active }).nextWord t q

/-! ### Products (07 R225-R227) -/

/-- The values of element encodings under their scales (03 R67). -/
def elemVals (ty : Ty) (origin : BitVec 22) (elems scales : List Nat) : List FVal :=
  (elems.zip (if scales.isEmpty then elems.map fun _ => 127 else scales)).map fun (e, sb) =>
    scaled origin sb (Ty.decode ty false origin e)

/-- The values of a plane; one never loaded holds +0 (07 R224). -/
def Plane.vals (p : Plane) (origin : BitVec 22) : List FVal :=
  let zeros := List.replicate 4096 (.fin false 0 0)
  if p.loaded then (elemVals p.fmt origin p.elems p.scales ++ zeros).take 4096 else zeros

/-- The products of a plane never loaded are +0: the signs of finite streamed operands do not enter (07 R224). -/
def unsigned (p : Plane) (vs : List FVal) : List FVal :=
  if p.loaded then vs else vs.map fun v => match v with | .fin _ m e => .fin false m e | v => v

/-- Row `i` of 64 x 64 values. -/
def rowOf (vs : List FVal) (i : Nat) : List FVal := (vs.drop (64 * i)).take 64
/-- The transposed values. -/
def transposed (vs : List FVal) : List FVal :=
  let rows := (List.range 64).map (rowOf vs)
  (List.range 64).flatMap fun j => rows.map fun r => r.getD j (.fin false 0 0)

/-- A tile as 4096 words. -/
def tileWords (t : Tile) : List Word32 := (t ++ List.replicate 4096 0).take 4096

/-- acc[i][j] += sum over k of a[i][k] * b[j][k], in two groups of 32, `int` for integer elements (07 R226, 03 R72). -/
def tileProduct (origin : BitVec 22) (int : Bool) (acc : Tile) (a b : List FVal) : Tile × Flags :=
  let as := (List.range 64).map (rowOf a)
  let bs := (List.range 64).map (rowOf b)
  let outs := (as.zip ((List.range 64).map fun i => ((tileWords acc).drop (64 * i)).take 64)).flatMap fun (ar, cr) =>
    (bs.zip cr).map fun (br, c) => dotGroups origin 32 int 2 ar br c.toNat
  (outs.map fun o => BitVec.ofNat 32 o.1, Flags.union (outs.map Prod.snd))

/-- Put a tile with its poisoned elements. -/
def State.putTile (s : State) (t q k : Nat) (tile : Tile) (bad : List Nat) : State :=
  s.updUnit t q fun u => { u with tiles := aset u.tiles k tile, spoiled := if bad.isEmpty then aerase u.spoiled k else aset u.spoiled k bad }

/-- The poisoned elements of a tile after a product that adds into `p`'s elements (17 R419; log 31). -/
def MUnit.spoiledAfter (u : MUnit) (k : Nat) (p : Nat → Bool) : List Nat :=
  (List.range 4096).filter fun e => (agetD u.spoiled k []).contains e || p e

/-- The tile's poisoned elements after a product, when there is anything to poison. -/
def MUnit.spoil (u : MUnit) (k : Nat) (plane : Plane) (p : Nat → Bool) : List Nat :=
  if plane.spoiled.isEmpty then agetD u.spoiled k [] else u.spoiledAfter k p

/-- The failure of a plane at a matrix operation (07 R225, R227). -/
def State.failPlane (s : State) (t q : Nat) (st : Stream) (p : Plane) (x : Nat) : State :=
  s.failStream t q st 10 { code := tcTmapFault, status := x, lanes := allLanes, s59 := 16 + p.map }

def execMma (a : TArgs) (s : State) : Host.Outcome State Fault Refusal :=
  onStream s fun t q team u st =>
    let p := u.active
    if p.loaded && p.smode == 1 then s.failPlane t q st p 5
    else
      let more := fun (m : MapF) =>
        if m.viewMode == 2 then some 5 else if p.loaded && !combines p.fmt m.ty then some 6 else none
      s.streamMap t q team st a.tmap.toNat matrixTy more true fun m =>
        let origin := st.origin.extractLsb' 0 22
        let x := unsigned p (elemVals m.ty origin (readElems m true team.scratch) (readScales m team.scratch))
        let (tile, fl) := tileProduct origin (Ty.isInt m.ty) (agetD u.tiles a.d.toNat []) x (transposed (p.vals origin))
        let bad := u.spoil a.d.toNat p fun e => p.spoiled.any fun x => x / 64 == e % 64
        ((s.putTile t q a.d.toNat tile bad).streamFlags t q fl).nextWord t q

def execMmad (a : TArgs) (s : State) : Host.Outcome State Fault Refusal :=
  onStream s fun t q team u st =>
    let p := u.active
    let fp8 := fun (x : Ty) => x == .e4m3 || x == .e5m2
    if p.loaded && (p.smode == 1 || p.smode == 2) then s.failPlane t q st p 5
    else if p.loaded && !fp8 p.fmt then s.failPlane t q st p 6
    else
      let more := fun (m : MapF) => if m.viewMode == 2 then some 5 else if !fp8 m.ty then some 6 else none
      s.streamMaps t q team st [a.b.toNat, a.tmap.toNat] (fun _ => true) more true fun ms =>
          let mw := ms.getD 0 (mapOf [])
          let mx := ms.getD 1 (mapOf [])
          let origin := st.origin.extractLsb' 0 22
          let vals := fun (m : MapF) => unsigned p (elemVals m.ty origin (readElems m true team.scratch) (readScales m team.scratch))
          let w := vals mw   -- rows k, columns n
          let x := vals mx   -- rows k, columns b
          let sv := p.vals origin   -- rows b, columns n
          let (dx, f1) := tileProduct origin false (agetD u.tiles a.d.toNat []) sv w
          let (dw, f2) := tileProduct origin false (agetD u.tiles a.a.toNat []) x (transposed sv)
          let badX := u.spoil a.d.toNat p fun e => p.spoiled.any fun x => x / 64 == e / 64
          let badW := u.spoil a.a.toNat p fun e => p.spoiled.any fun x => x % 64 == e % 64
          (((s.putTile t q a.d.toNat dx badX).putTile t q a.a.toNat dw badW).streamFlags t q (f1 ||| f2)).nextWord t q

/-! ### Tiles (07 R228, R229) -/

def execAclr (a : TArgs) (s : State) : Host.Outcome State Fault Refusal :=
  onStream s fun t q _ _ _ =>
    (s.updUnit t q fun u => { u with tiles := u.tiles.filter (fun e => !a.op.getLsbD e.1),
                                          spoiled := u.spoiled.filter fun e => !a.op.getLsbD e.1 }).nextWord t q

/-- An element as `ALD` loads it: an `.f32` as it stands, a `.bf16` widened exactly; a BF16 NaN has no origin of its own and becomes a
quiet NaN with the stream's, and a signalling one sets invalid (03 R67, 07 R228). -/
def aldElem (ty : Ty) (origin : BitVec 22) (x : Nat) : Word32 × Flags :=
  match ty == .f32, Ty.decode ty false origin x with
  | false, .nan neg pay sig => (BitVec.ofNat 32 (nan32 neg pay), Flags.when sig Flags.invalid)
  | false, _ => (BitVec.ofNat 32 (x * 2 ^ 16), 0)
  | true, _ => (BitVec.ofNat 32 x, 0)

def execAld (a : TArgs) (s : State) : Host.Outcome State Fault Refusal :=
  onStream s fun t q team _ st =>
    s.streamMap t q team st a.tmap.toNat (fun x => x == .f32 || x == .bf16) (fun _ => none) true fun m =>
      let raw := readElems m false team.scratch
      let out := raw.map (aldElem m.ty (st.origin.extractLsb' 0 22))
      ((s.putTile t q a.d.toNat (out.map Prod.fst) []).streamFlags t q (Flags.union (out.map Prod.snd))).nextWord t q

/-- The scale bytes of a quantising drain, by offset from `sscale` (07 R229). -/
def drainScales (m : MapF) (vals : List FVal) : List Nat :=
  (List.range m.scaleBytes).map fun n =>
    let (i0, j0) := m.scaleElem n
    let (rows, cols) := match m.smode with | 1 => (1, 32) | 2 => (32, 1) | _ => (32, 32)
    blockScale m.ty ((List.range rows).flatMap fun i => ((vals.drop (64 * (i0 + i) + j0)).take cols))

/-- The elements of a chunk in row-major order: encodings and flags, with the rounding state threaded (03 R60). -/
def drainElems (m : MapF) (rnd : Rnd) (ftz quant : Bool) (scales : List Nat) :
    List (Nat × Nat × Word32 × FVal) → Word32 → List (Nat × Flags) × Word32
  | [], rng => ([], rng)
  | (i, j, raw, v) :: rest, rng =>
    let rng1 := rsNext rnd rng
    let rm : RMode := { rnd := rnd, ftz := ftz, u := rsBits rng1 }
    let out := if quant then quantElem m.ty rm (scales.getD (m.scaleAt i j) 0) v
      else if m.ty == .f32 then (raw.toNat, 0) else Ty.write m.ty rm { v := v, fl := Flags.when v.isSig Flags.invalid }
    let (outs, r) := drainElems m rnd ftz quant scales rest rng1
    (out :: outs, r)

/-- The scratch cells of chunk `c`: element bytes and pads (08 R266). -/
def chunkCells (m : MapF) (c : Nat) (raw : Nat → Nat → Nat) (bad : Nat → Nat → Bool) : List (Nat × Byte × Bool) :=
  (List.range m.tileBytes).filterMap fun o =>
    match m.byteElem o with
    | some (i, j, w) =>
      if i / 8 != c then none
      else if m.bits == 4 then some (m.sbase + o, BitVec.ofNat 8 (raw i j + 16 * raw i (j + 1)), bad i j || bad i (j + 1))
      else some (m.sbase + o, BitVec.ofNat 8 (raw i j / 256 ^ w), bad i j)
    | none => if o / max m.pitch 1 / 8 == c then some (m.sbase + o, 0, false) else none

/-- Write one chunk of a drain; the scales come before the first (07 R229). -/
def State.drainChunk (s : State) (t q : Nat) (team : Team) (u : MUnit) (st : Stream) (m : MapF) (n d : Nat) (rnd : Rnd)
    (ftz quant : Bool) : State :=
  let words := tileWords (agetD u.tiles d [])
  let vals := words.map fun w => Fmt.f32.decode (quant && ftz) 0 w.toNat
  let scales := if quant then drainScales m vals else []
  let c := st.chunk
  let items := (List.range 512).map fun k =>
    (8 * c + k / 64, k % 64, words.getD (512 * c + k) 0, vals.getD (512 * c + k) (.fin false 0 0))
  let (outs, rng) := drainElems m rnd ftz quant scales items st.rng
  let raw := fun (i j : Nat) => (outs.getD ((i - 8 * c) * 64 + j) (0, 0)).1
  let first := (items.filter fun x => x.2.2.2.isNan).head? |>.bind fun x => x.2.2.2.payload?
  let top := maxMag (items.map fun x => Fmt.f32.decode false 0 x.2.2.1.toNat)
  let scaleCells := if quant && c == 0 then
      (List.range scales.length).map fun k => (m.sscale + k, BitVec.ofNat 8 (scales.getD k 0), false)
    else []
  let mapNan := ((team.tmap n).orig.getLsbD 31)
  let s1 := s.updTeam t fun x =>
    let x1 := ((x.engineFill scaleCells).engineFill (chunkCells m c raw fun i j => (agetD u.spoiled d []).contains (64 * i + j))).raiseAmax n top
    match first with
    | some p => if mapNan then x1 else x1.setMap n fun r => { r with orig := BitVec.ofNat 32 (2 ^ 31 + p.toNat) }
    | none => x1
  let s2 := s1.updStream t q fun x =>
    { x with fl := x.fl ||| Flags.union (outs.map Prod.snd), nan := (if mapNan then first else none).orElse fun _ => x.nan }
  let s3 := (s2.wakeGranules t).updStream t q fun x => { x with rng := rng, chunk := c + 1, map := st.map }
  if c == 7 then s3.nextWord t q else s3

/-- `DRAIN` and `DRAINQ`: one chunk a step; the map is read once, at the start (08 R261). -/
def runDrain (s : State) (a : TArgs) (quant : Bool) : Host.Outcome State Fault Refusal :=
  onStream s fun t q team u st =>
    let n := a.tmap.toNat
    if st.chunk == 0 then
      s.streamMap t q team st n (if quant then scalable else fun x => x == .f32 || x == .bf16)
        (fun m => if quant && m.smode == 0 then some 5 else none) false
        fun m => s.drainChunk t q team u { st with map := agetD (st.records team [n]) n [] } m n a.d.toNat a.rnd a.ftz quant
    else s.drainChunk t q team u st (mapOf st.map) n a.d.toNat a.rnd a.ftz quant

def execDrain (a : TArgs) (s : State) : Host.Outcome State Fault Refusal := runDrain s a false
def execDrainq (a : TArgs) (s : State) : Host.Outcome State Fault Refusal := runDrain s a true

end Sys2Proof.Machine
end

