-- ==== Sys2Proof/Machine/Barrier.lean ====
section
/-!
DEFINITION. The team barrier and the gang barrier (07 R231-R233).
-/
namespace Sys2Proof.Machine

/-- `BARRIER_FAULT` (13 Table 13.10). -/
def barrierFault (g : Group) (status s59 : Nat) : TrapInfo :=
  { code := tcBarrierFault, status := status, lanes := g.atIssue, s59 := s59 }

/-- Some live lane is parked or not at the issue address (07 R231). -/
def Group.scattered (g : Group) : Bool := g.live != g.atIssue

/-- Arrive at the team barrier; the arrivals may complete the phase (07 R232). -/
def State.arriveBar (s : State) (team : Nat) : State :=
  (s.updTeam team fun t => { t with barArrived := t.barArrived + 1 }).checkBar team

/-- `BAR`: the first turn arrives, later turns wait for the phase to change. -/
def execBar (_a : SArgs) (s : State) : Host.Outcome State Fault Refusal :=
  onGroupPlain s fun gid g =>
    let t := s.team g.team
    match g.bar with
    | some p => if t.barPhase == p then s.stall else s.done gid { g with bar := none }.advance
    | none =>
      if g.scattered then s.trap gid g (barrierFault g 1 0)
      else if s.unsettled gid g then s.stall
      else (s.putGroup gid { g.begin s.clock with bar := some t.barPhase }).arriveBar g.team

/-- `BARA`: arrives and reports the phase it arrived in. -/
def execBara (a : SArgs) (s : State) : Host.Outcome State Fault Refusal :=
  onGroupPlain s fun gid g => s.ready gid g [] [.s a.d.toNat] <|
    if g.scattered then s.trap gid g (barrierFault g 1 0)
    else if s.unsettled gid g then s.stall
    else (s.done gid (g.setS a.d.toNat (if (s.team g.team).barPhase then 1 else 0)).advance).arriveBar g.team

/-- `BARW`: waits until the phase differs from bit 0 of the scalar. -/
def execBarw (a : SArgs) (s : State) : Host.Outcome State Fault Refusal :=
  onGroupPlain s fun gid g => s.ready gid g (readsS [a.a.toNat]) [] <|
    if (s.team g.team).barPhase == (g.s a.a.toNat).getLsbD 0 then s.stall else s.done gid g.advance

/-- `GBAR`: the first turn arrives as a release at the named scope, later turns wait and acquire (07 R233). -/
def execGbar (a : SArgs) (s : State) : Host.Outcome State Fault Refusal :=
  onGroupPlain s fun gid g =>
    let level := a.imm.toNat % 16
    let k := (s.team g.team).gang
    let gang := s.gang k
    match g.gbar with
    | some p =>
      if gang.gbarPhase == p then s.stall
      else (s.dropClean (s.coreOf g)).done gid { g with gbar := none }.advance
    | none =>
      if g.scattered then s.trap gid g (barrierFault g 1 level)
      else if level == 3 && gang.rec_.place then s.trap gid g (barrierFault g 3 level)
      else if gang.gbarLevel.isSome && gang.gbarLevel != some level then s.trap gid g (barrierFault g 2 level)
      else if s.unsettled gid g then s.stall
      else s.whenBacked (s.coreOf g) true fun s0 =>
        let s1 := s0.putGroup gid { g.begin s.clock with gbar := some gang.gbarPhase }
        let s2 := s1.updTeam g.team fun t => { t with gbarArrived := t.gbarArrived + 1 }
        (s2.updGang k fun x => { x with gbarLevel := some level }).checkGbar k

end Sys2Proof.Machine
end

