-- ==== Sys2Proof/Machine/Tasks.lean ====
section
/-!
DEFINITION. Continuation records and queues as words see them, and the task instructions (07 R234-R239; 14 R365-R368).
-/
namespace Sys2Proof.Machine

/-! ### Records (14 R365, R366) -/

/-- The fields of the 64 bytes of a record (14 Table 14.1). -/
def recordOf (bs : List Byte) : Record :=
  let n := leValue bs
  let f := fun (lo w : Nat) => field n lo w
  { entry := f 0 29, fp := f 64 57, join := BitVec.ofNat 32 (f 128 32), prio := f 160 3, queue := f 168 10, groups := f 192 8
    window := f 200 8, stack := f 208 12, scratch := f 220 9, acc := f 229 4, teams := f 233 9, place := f 242 1 == 1
    signal := f 256 57, sig32 := f 319 1 == 1, ctx := f 320 16, steptag := f 336 48, arg0 := BitVec.ofNat 64 (f 384 64)
    arg1 := BitVec.ofNat 64 (f 448 64)
    clean := f 29 35 == 0 && f 121 7 == 0 && f 163 5 == 0 && f 178 14 == 0 && f 243 13 == 0 && f 313 6 == 0 }

/-- Groups of one quarter (08 R253): ⌈groups / 4⌉. -/
def Record.perQuarter (r : Record) : Nat := (r.groups + 3) / 4

/-- The lowest cause from 1 to 9 that applies (14 Table 14.2). -/
def Record.cause (r : Record) (ctx : Nat) : Option Nat :=
  if r.groups == 0 || 128 < r.groups then some 1
  else if r.window == 0 || 128 < r.window || r.stack < r.window || 2048 < r.stack then some 2
  else if 256 < r.scratch then some 3
  else if 8 < r.acc then some 4
  else if r.teams == 0 || 256 < r.teams || (64 < r.teams && !r.place) then some 5
  else if 1536 < r.perQuarter * (8 * r.window) then some 6
  else if !r.clean then some 7
  else if r.fp % 128 != 0 then some 8
  else if r.ctx != ctx then some 9
  else none

/-! ### Queues (14 R367, R368) -/

/-- A queue's registers. -/
def State.queue (s : State) (q : Nat) : Queue := agetD s.queues q {}
/-- *n* of the config. -/
def Queue.logSize (q : Queue) : Nat := field q.config.toNat 0 5
/-- The context it is bound to while enabled. -/
def Queue.owner (q : Queue) : Nat := field q.config.toNat 16 16
def Queue.enabled (q : Queue) : Bool := q.config.getLsbD 32
def Queue.spawn (q : Queue) : Bool := q.config.getLsbD 33
/-- Entries not yet consumed or passed. -/
def Queue.count (q : Queue) : Nat := (q.tail - q.head).toNat
/-- The local address of a ring entry. -/
def Queue.entryAt (q : Queue) (i : Nat) : Nat :=
  locOf (field q.base.toNat 12 44 * 4096 + 8 * (i % 2 ^ q.logSize))
/-- A ring entry lies in the memory of this package; one that lies in a hole is never read or written, and counts as 0 (01 R16, log
61). -/
def Queue.holds (q : Queue) (i : Nat) : Bool := placeOf (q.entryAt i) == .hbm || placeOf (q.entryAt i) == .scm
/-- Change a queue. -/
def State.updQueue (s : State) (k : Nat) (f : Queue → Queue) : State := { s with queues := aset s.queues k (f (s.queue k)) }

/-- The queue becomes eligible if it is not empty; the time of its first notify counts (14 R369). -/
def Queue.notify (q : Queue) (now : Nat) : Queue :=
  if q.head == q.tail then q else { q with eligible := true, notified := if q.eligible then q.notified else now }

/-- `n` entries are appended, each at this time. -/
def Queue.append (q : Queue) (n now : Nat) : Queue :=
  { q with tail := q.tail + BitVec.ofNat 32 n
           times := (List.range n).foldl (fun m k => aset m ((q.tail.toNat + k) % 2 ^ 32) now) q.times }

/-- `SPAWN` (07 R235), check by check. -/
def execSpawn (a : SArgs) (s : State) : Host.Outcome State Fault Refusal :=
  onGroupPlain s fun gid g => s.ready gid g (readsS [a.a.toNat]) [] <|
    let va := (g.s a.a.toNat).toNat % 2 ^ 57
    if va % 64 != 0 then s.trap gid g { code := tcMisaligned, lanes := g.atIssue, s58 := va }
    else if s.acquiring gid then s.stall
    else if s.logsPage gid [va] then s.holdLog gid g akLoad [(0, va)] true
    else s.readPlain gid g 64 [va] fun bs s1 =>
      let r := recordOf (bs.headD [])
      match r.cause (s.ctxOf g) with
      | some c => s1.trap gid g { code := tcResShape, status := c, lanes := g.atIssue, s58 := va }
      | none =>
        let q := s1.queue r.queue
        let refuse := fun (s : State) (st : Nat) =>
          s.trap gid g { code := tcSpawnRefused, status := st, lanes := g.atIssue, s58 := va, s59 := r.queue }
        if !(q.enabled && q.spawn && (s.ctx (s.ctxOf g)).queues.contains r.queue) then refuse s1 1
        else if s1.unsettled gid g then s1.stall
        else s1.whenBacked (s.coreOf g) true fun s2 =>
          if q.count == 2 ^ q.logSize then refuse s2 2
          else
            let at_ := q.entryAt q.tail.toNat
            s2.whenReady (span at_ 8) true <|
              let x : Xlat := { pa := paOf s.own at_, kind := 0, pt := false, attr := 0, ctx := s.ctxOf g }
              let s3 := s2.putGroup gid g
              let s4 := if q.holds q.tail.toNat
                then s3.storeAt (s.coreOf g) x (leBytes 8 va) true 1 gid (at_ / 4096) (s.stepOf g) (s.svcOf gid) else s3
              (s4.updQueue r.queue fun q => { (q.append 1 s.now.toNat).notify s.now.toNat with refused := false }).advanceGroup gid

/-- `RETIRE`: every live lane ends (07 R237). -/
def execRetire (_a : SArgs) (s : State) : Host.Outcome State Fault Refusal :=
  onGroupPlain s fun gid g => s.beforeEnd gid g (s.endLanes gid g g.live)

/-- The status of `HANDOFF_SHAPE` that applies first (07 R238). -/
def handoffStatus (old new : Record) (fixed : Option Nat) (va : Nat) (starter : Nat) : Option Nat :=
  if new.groups != old.groups then some 1
  else if new.teams != old.teams || new.place != old.place then some 2
  else if old.window < new.window || old.stack < new.stack || old.scratch < new.scratch || old.acc < new.acc then some 3
  else if fixed.isSome && fixed != some va then some 4
  else if field starter 409 103 != 0 then some 5
  else none

/-- `HANDOFF` (07 R238), check by check. -/
def execHandoff (a : SArgs) (s : State) : Host.Outcome State Fault Refusal :=
  onGroupPlain s fun gid g => s.ready gid g (readsS [a.a.toNat, a.b.toNat]) [] <|
    let va := (g.s a.a.toNat).toNat % 2 ^ 57
    let vb := (g.s a.b.toNat).toNat % 2 ^ 57
    let k := (s.team g.team).gang
    if g.scattered then s.trap gid g (barrierFault g 1 0)
    else if va % 64 != 0 then s.trap gid g { code := tcMisaligned, lanes := g.atIssue, s58 := va }
    else if vb % 64 != 0 then s.trap gid g { code := tcMisaligned, lanes := g.atIssue, s58 := vb }
    else if s.acquiring gid then s.stall
    else if s.logsPage gid [va, vb] then s.holdLog gid g akLoad [(0, va), (0, vb)] true
    else s.readPlain gid g 64 [va, vb] fun bs s1 =>
      let r := recordOf (bs.headD [])
      let block := bs.getD 1 []
      match r.cause (s.ctxOf g) with
      | some c => s1.trap gid g { code := tcResShape, status := c, lanes := g.atIssue, s58 := va }
      | none => match handoffStatus (s.recOf g) r ((s.gang k).successor.map Prod.fst) va (leValue block) with
        | some st => s1.trap gid g { code := tcHandoffShape, status := st, lanes := g.atIssue, s58 := va, s59 := vb }
        | none => s1.beforeEnd gid g <|
          ((s1.updGang k fun x => { x with successor := x.successor.orElse fun _ => some (va, r) }).updTeam g.team
            fun t => { t with starter := some block }).endLanes gid g g.live

end Sys2Proof.Machine
end

