-- ==== Sys2Proof/Machine/System.lean ====
section
/-!
DEFINITION. The system instructions (07 R245-R251; 13 R353, R354, R358; 20 R445) and words that are no instruction
(04 R95).
-/
namespace Sys2Proof.Machine

/-- `TRAP`: the resume word is the next one (07 R246). The record names every lane at the issue address, whatever `em`, of which the spec
says nothing (DESIGN CHOICE: log 63). -/
def execTrap (a : SArgs) (s : State) : Host.Outcome State Fault Refusal :=
  onGroupPlain s fun gid g =>
    s.trapWith gid g { code := tcUserTrap, lanes := g.atIssue, s59 := a.imm.toNat } g.issue true

/-- Events posted by `EVENT` that are not delivered yet. -/
def State.userEvents (s : State) : Nat := (s.events.filter fun e => e.kind == .user).length

def execEvent (a : SArgs) (s : State) : Host.Outcome State Fault Refusal :=
  onGroupPlain s fun gid g =>
    if a.imm.getLsbD 15 && !g.supervisor then s.illegal gid g .privilege
    else s.ready gid g (readsS [a.a.toNat]) [] <|
      if s.unsettled gid g || 1024 ≤ s.userEvents then s.stall
      else s.whenBacked (s.coreOf g) true fun s1 =>
        let e : Event := { kind := .user, args := [s.ctxOf g, (s.gangOf g).recAddr, (s.team g.team).idx, g.idx, a.imm.toNat,
          (g.s a.a.toNat).toNat] }
        (s1.post e).done gid g.advance

def execRdtime (a : SArgs) (s : State) : Host.Outcome State Fault Refusal :=
  runPlain s (fun _ => []) [.s a.d.toNat] fun g => g.setS a.d.toNat s.now

/-- The value of a `PRD` selector (07 Table 7.16). -/
def State.prdValue (s : State) (g : Group) (sel : Nat) : Word64 :=
  let c := s.ctxOf g
  match sel with
  | 0 => (s.ctx c).step
  | 1 => BitVec.ofNat 64 c
  | 2 => (s.ctx c).gen.zeroExtend 64
  | 3 => BitVec.ofNat 64 s.own
  | 4 => BitVec.ofNat 64 (s.quarterOf g + s.coreOf g % 64 * 4 + s.coreOf g / 64 * 256)
  | _ => BitVec.ofNat 64 (s.scratchSize g)

def execPrd (a : SArgs) (s : State) : Host.Outcome State Fault Refusal :=
  runPlain s (fun _ => []) [.s a.d.toNat] fun g => g.setS a.d.toNat (s.prdValue g a.imm.toNat)

/-- `ERET`: the save set is restored, and lanes saved as parked are evaluated at once (13 R358). It writes `s56` to `s63`, and waits until
none of them is pending (02 R46). -/
def execEret (_a : SArgs) (s : State) : Host.Outcome State Fault Refusal :=
  onGroupPlain s fun gid g =>
    if !g.supervisor then s.illegal gid g .privilege
    else s.ready gid g (readsS [56]) ((List.range 8).map fun k => .s (56 + k)) <| (s.done gid g.leave).evalParks gid fun _ => true

/-! ### `TLBINV` (07 R249, 13 R353, R354) -/

/-- Operation code of an invalidation sent to another package (log 15). -/
def opInval : Nat := 9

/-- The group that issued an open request. -/
def RemoteFor.gid? : RemoteFor → Option Nat
  | .load g _ _ _ _ _ => some g
  | .atom g _ _ _ _ _ => some g
  | .write g _ => some g
  | .scmWrite g _ => some g
  | .scalar g _ _ _ _ => some g
  | .back _ _ => none
  | .copyUnit g _ => some g
  | .chase g _ _ => some g
  | .row g _ _ _ _ _ => some g
  | .fill g _ => some g
  | .parkRead g _ _ => some g
  | .inval _ _ _ => none
  | .snap _ _ _ _ => none
  | .record _ _ => none
  | .signal _ _ => none

/-- The context of an open request that belongs to no group (14 R370, R375). -/
def RemoteFor.ctx? : RemoteFor → Option Nat
  | .record c _ => some c
  | .signal c _ => some c
  | _ => none

/-- A group of the context. -/
def State.gidIn (s : State) (ctx gid : Nat) : Bool := ((aget s.groups gid).map s.ctxOf) == some ctx

/-- Drop the cached translations of a context that overlap a range, and raise its generation (13 R353, R354). -/
def State.dropTlb (s : State) (ctx base len : Nat) : State :=
  { s with tlbs := s.tlbs.filter fun p =>
      !(p.2.ctx == ctx && (len == 0 || (p.2.base < base + len && base < p.2.base + 2 ^ p.2.bits))) }.updCtx ctx
    fun c => { c with xgen := c.xgen + 1 }

/-- Dirty bytes of a line were stored by a group of the context. -/
def State.storedIn (s : State) (ctx : Nat) (by_ : List (Nat × Nat × Word64)) : Bool := by_.any fun x => s.gidIn ctx x.1

/-- Every core writes back the dirty bytes that groups of a context stored: they were translated before now (13 R354). -/
def State.backCtx (s : State) (ctx : Nat) : State :=
  (s.l1.filter fun e => e.2.dirty != 0 && s.storedIn ctx e.2.by_).foldl (fun (s : State) e => s.writeBackLine e.1.1 e.1.2) s

/-- The work of a context translated before now and not yet performed. -/
def State.invalOf (s : State) (ctx : Nat) : Inval :=
  { ctx := ctx
    gen := (s.ctx ctx).xgen.toNat + 1
    tags := (s.remotes.filter fun r => (r.what.gid?.map (s.gidIn ctx)).getD false || r.what.ctx? == some ctx
      || match r.what with | .back _ by_ => s.storedIn ctx by_ | _ => false).map Remote.tag
    backs := (s.backs.filter fun b => s.storedIn ctx b.by_).map fun b => (b.core, b.line)
    rows := (s.rowOps.filter fun r => r.ctx == ctx).map RowOp.id
    casts := (s.mcasts.filter fun m => m.ctx == ctx).map Mcast.id }

/-- A chase translated before an invalidation, queued here or not yet arrived where it was sent: its step is never performed, and it is
failed back (13 R354, R355). -/
def State.staleChase (s : State) (i : Inval) : Bool :=
  s.chases.any (fun c => s.chaseCtx c == i.ctx && s.stale c)
    || s.egress.any fun e => e.pkt.cls == 3 && e.pkt.op == opChase && e.pkt.ctx == i.ctx && e.pkt.xgen < i.gen

/-- Everything an invalidation waited for is performed, and no stack is held (17 R421). -/
def State.invalMet (s : State) (i : Inval) : Bool :=
  !s.anyHeld && !s.staleChase i && !s.remotes.any (fun r => i.tags.contains r.tag) && !s.rowOps.any (fun r => i.rows.contains r.id)
    && !s.mcasts.any (fun m => i.casts.contains m.id) && !s.backs.any fun b => i.backs.contains (b.core, b.line)

/-- `STRIPE_FAIL` naming a peer. -/
def stripeFail (peer handle : Nat) : TrapInfo := { code := tcStripeFail, status := 11, s59 := peer, s61 := handle }

/-- Complete the invalidations whose conditions hold. -/
def State.settleInvals (s : State) : State :=
  s.invals.foldl (fun (s : State) i =>
    if !s.invalMet i then s
    else
      let s1 : State := { s with invals := s.invals.filter fun j => j != i }
      match i.issuer, i.sender with
      | some (c, n, gid), _ => match i.lost with
        | some p => s1.completeOp (.inval c) n 11 (some (stripeFail p (mkHandle 0x30 n).toNat)) gid 0 none
        | none => s1.completeOp (.inval c) n 0 none gid 0 none
      | none, some (pkg, tag) => s1.respond pkg tag 0 [] [] (ctx := i.ctx) (xgen := i.gen)
      | none, none => s1) s

/-- The other packages of the square that hold translations. -/
def State.otherMembers (s : State) : List Nat :=
  (List.range 64).filter fun j => j != s.own && s.isMember j && !s.isEndpoint j

/-- A package takes a square-wide invalidation that package `j` issued as its `gen`-th (13 R353-R355). -/
def Ctx.takeInv (c : Ctx) (j gen : Nat) : Ctx := { c with invs := invStamp j gen :: c.invs }

/-- `TLBINV`. Where only the length is no multiple of 4096 the record of `MISALIGNED` holds the length in `s58`, of which the spec says
nothing (DESIGN CHOICE: log 63). -/
def execTlbinv (a : TArgs) (s : State) : Host.Outcome State Fault Refusal :=
  onGroupPlain s fun gid g =>
    if !g.supervisor then s.illegal gid g .privilege
    else
      let n := a.a.toNat
      s.readyIssue gid g (readsS [n, n + 1, a.b.toNat]) [] <|
        let base := (g.s n).toNat
        let len := (g.s (n + 1)).toNat
        if base % 4096 != 0 then s.trap gid g (misalignedAt base)
        else if len % 4096 != 0 then s.trap gid g (misalignedAt len)
        else s.whenBacked (s.coreOf g) true fun s0 =>
          let ctx := (g.s a.b.toNat).toNat % 65536
          let own := s.ctxOf g
          let (seqNo, s1a) := (s0.putGroup gid g).openOp (.inval own) gid
          let s1 := s1a.backCtx ctx
          let old := s1.invalOf ctx
          let s2a := s1.dropTlb ctx base len
          let s2 := if a.op == 5 then s2a.updCtx ctx fun c => c.takeInv s.own c.xgen.toNat else s2a
          let peers := if a.op == 5 then s.otherMembers else []
          let s3 := peers.foldl (fun (s : State) p =>
            s.ask { dest := p, src := s.own, cls := 0, op := opInval, ctx := ctx, xgen := (s.ctx ctx).xgen.toNat, agent := s.coreOf g
                    data := leBytes 8 base ++ leBytes 8 len } (.inval own seqNo p)) s2
          let mine := (s3.remotes.filter fun r => match r.what with
            | .inval c k _ => c == own && k == seqNo
            | _ => false).map Remote.tag
          let i := { old with issuer := some (own, seqNo, gid), tags := old.tags ++ mine }
          State.withHandle { s3 with invals := s3.invals ++ [i] } gid a.d.toNat 0x30 seqNo

/-- `XLATE`: a walk that reads the tables and nothing else (07 R250). Bits [63:16] of s[B] are ignored, as R249 says for `TLBINV` and R250
does not say (DESIGN CHOICE: log 63). -/
def execXlate (a : SArgs) (s : State) : Host.Outcome State Fault Refusal :=
  onGroupPlain s fun gid g =>
    if !g.supervisor then s.illegal gid g .privilege
    else
      let d := a.d.toNat
      s.ready gid g (readsS [a.a.toNat, a.b.toNat]) [.s d, .s (d + 1)] <|
        let va := (g.s a.a.toNat).toNat % 2 ^ 57
        let ctx := (g.s a.b.toNat).toNat % 65536
        let fin := fun (s : State) (pa : Nat) (last : Word64) =>
          s.done gid ((g.setS d (BitVec.ofNat 64 pa)).setS (d + 1) last).advance
        let failed := fun (s : State) (status : Nat) (last : Word64) =>
          fin s 0 (BitVec.ofNat 64 (2 ^ 63 + status % 128 * 2 ^ 56 + last.toNat % 2 ^ 56))
        if (aget s.ctxs ctx).isNone then failed s 1 0
        else
          let r := s.walk ctx va
          s.whenReady r.reads false <|
            let s1 := ((homedLines r.reads).foldl (fun (s : State) l => s.request (s.coreOf g) 1 (128 * l) false false ctx) s).verify
              (byWalk (s.coreOf g) ctx) r.reads
            let r := s1.walk ctx va
            if r.status != 0 then failed s1 r.status r.last
            else
              let e := r.entry ctx va true
              match permStatus true (if a.imm.getLsbD 0 then .write else .read) e.w e.x e.u with
              | 0 => fin s1 (e.xlat va).pa r.last
              | st => failed s1 st r.last

/-! ### `PREEMPT` (07 R251, 13 R360-R363) -/

/-- The gang of a context that was admitted from a record and is resident: of several, the first listed (DESIGN CHOICE: log 63). -/
def State.gangNamed (s : State) (ctx va : Nat) : Option (Nat × Gang) :=
  s.gangs.find? fun e => e.2.ctx == ctx && e.2.recAddr == va && e.2.run != .saved && e.2.run != .killed

/-- A gang runs, and is not between its admission as a successor and its first issue (08 R269). -/
def Gang.canStop (x : Gang) : Bool := x.run == .running && !x.entering

/-- Ask a resident gang to stop, unless it is stopping already or between gang and successor. -/
def State.stopGang (s : State) (k : Nat) : State :=
  s.updGang k fun x => if x.canStop then { x with run := .stopping } else x

/-- The resume list has room for one more gang, beside those that are stopping to join it (14 R376). -/
def State.resumeRoom (s : State) : Bool := s.resumeList.length + (s.gangs.filter fun e => e.2.run == .stopping).length < 1024

def execPreempt (a : SArgs) (s : State) : Host.Outcome State Fault Refusal :=
  onGroupPlain s fun gid g =>
    if !g.supervisor then s.illegal gid g .privilege
    else s.ready gid g (readsS [a.a.toNat]) [.s a.d.toNat] <|
      let fin := fun (r : Nat) =>
        s.done gid { g.setS a.d.toNat (BitVec.ofNat 64 r) with preempting := none }.advance
      let own := (s.team g.team).gang
      match g.preempting with
      | some (_, some r) => fin r
      | some (k, none) => match aget s.gangs k with
        | none => fin 1
        | some x => if x.run == .killed then fin 1
          else if x.canStop && !x.stopped && s.resumeRoom then s.stopGang k else s.stall
      | none => match s.gangNamed (s.ctxOf g) ((g.s a.a.toNat).toNat % 2 ^ 57) with
        | none => fin 1
        | some (k, x) =>
          if k == own then fin 2
          else
            let s1 := s.putGroup gid { g.begin s.clock with preempting := some (k, none) }
            if x.stopped || !s.resumeRoom then s1 else s1.stopGang k

/-! ### `PWR` (20 R445) -/

/-- The value of a power selector (20 Table 20.3). -/
def Power.value (p : Power) (sel : Nat) : Nat :=
  match sel with
  | 0 => p.cap
  | 1 => p.throttle
  | 2 => p.power
  | 3 => p.energy / 1000 % 2 ^ 64
  | 4 => p.temp
  | _ => p.coolant

/-- Write a power selector: only the cap is writable, and it is clamped. -/
def Power.write (p : Power) (sel v : Nat) : Power := if sel = 0 then { p with cap := min 3200 (max 1200 v) } else p

def execPwr (a : SArgs) (s : State) : Host.Outcome State Fault Refusal :=
  onGroupPlain s fun gid g =>
    if !g.supervisor then s.illegal gid g .privilege
    else s.ready gid g (readsS [a.a.toNat]) [.s a.d.toNat] <|
      let sel := a.imm.toNat
      ({ s with power := s.power.write sel (g.s a.a.toNat).toNat } : State).done gid
        (g.setS a.d.toNat (BitVec.ofNat 64 (s.power.value sel))).advance

/-! ### Words that are no instruction (04 R95) -/

/-- The word has the form of a chain member: a paired word, or class 000 or 001 with an opcode below 0x280 (02 R29). -/
def memberForm (word : Word64) : Bool :=
  word.getLsbD 63 || (decide (word.toNat / 2 ^ 52 % 2 ^ 11 < 0x280) && decide (word.toNat / 2 ^ 16 % 8 ≤ 1))

/-- `ILLEGAL_INSTR` with its cause: precise in a group, where a word of a member's form in the lanes of the open chain traps as its member
(02 R34, R35), and the end of a stream with status 9. -/
def execIllegalInstr (word : Word64) (cause : Cause) (s : State) : Host.Outcome State Fault Refusal :=
  match s.cur with
  | .stream _ _ => onStream s fun t q _ _ st =>
      s.failStream t q st 9 { code := tcIllegalInstr, status := cause.code, s59 := word.toNat }
  | _ => onGroup s fun gid g =>
      s.trap gid (if memberForm word && g.continues then g else g.endChain)
        { code := tcIllegalInstr, status := cause.code, s59 := word.toNat }

end Sys2Proof.Machine
end

