-- ==== Sys2Proof/Machine/Persistence.lean ====
section
/-!
DEFINITION. Persist queues, contributions to images of other packages, the snapshot control word, and the loss and
return of power (11 R305, R306; 16 R391-R410; 20 R448).
-/
namespace Sys2Proof.Machine

/-! ### Persist queues (16 R394, R396-R399) -/

/-- Bytes of accepted entries in the queue of a stack. -/
def State.queued (s : State) (stack : Nat) : Nat :=
  ((s.persists.filter fun p => p.accepted && p.stack == stack).map fun p => p.cells.length).sum

/-- An entry is accepted: it takes its place behind those accepted before it, and who waits for it is told. -/
def State.acceptEntry (s : State) (p : Persist) : State :=
  let rest := s.persists.filter fun x => x.id != p.id
  let s1 : State := { s with
    persists := rest.filter Persist.accepted ++ [{ p with accepted := true }] ++ rest.filter fun x => !x.accepted }
  let s2 := match p.gid with
    | some g => (p.sets.foldl State.setMeta s1).updGroup g fun x => { x with persists := delSet x.persists p.id }
    | none => p.sets.foldl State.setMeta s1
  match p.ack with
  | some pkt => s2.send pkt
  | none => s2

/-- Region lines, by local address, that a write touches. -/
def State.regionLines (s : State) (p : Persist) : List Nat :=
  (uniq (p.cells.map fun c => c.1 / 256 * 256)).filter s.inRegion

/-- Lines that the image that forms takes before a write tagged `t` (16 R398). -/
def State.toCopy (s : State) (p : Persist) : List Nat :=
  match s.snap.forming with
  | some f => if p.kind == 0 && f.step < p.tag.getD 0 then
      (s.regionLines p).filter fun a => (s.lineMetaAt a).mark != f.step else []
  | none => []

/-- A write is late at its acceptance (16 R399). -/
def State.isLate (s : State) (p : Persist) : Bool :=
  (s.regionLines p).any fun a => (s.lineMetaAt a).mark != 0xFFFFFFFFFFFFFFFF && p.tag.getD 0 ≤ (s.lineMetaAt a).mark

/-- The other pieces of a late write learn that it is counted (16 R399). -/
def State.tellPieces (s : State) (p x : Persist) : Persist :=
  if x.piece == p.piece && s.isLate p then { x with counted := true } else x

/-- Tags and the late-write counter at the acceptance of a store (16 R396, R399). -/
def State.applyTag (s : State) (p : Persist) : State :=
  let t := p.tag.getD 0
  let s1 := (s.regionLines p).foldl (fun (s : State) a =>
    s.setMeta { line := a / 256, tag := some (let old := (agetD s.lineMeta (a / 256) {}).tag; if old < t then t else old) }) s
  { s1 with
    persists := s1.persists.map (s.tellPieces p)
    snap := if s.isLate p && !p.counted then { s1.snap with late := min (s1.snap.late + 1) (2 ^ 32 - 1) } else s1.snap }

/-- `PERSIST_ACCEPT`: the queue of SCM stack `input.unit` accepts the oldest write that waits for it, if it has room; an
image copy that the write waits for goes ahead of it. -/
def execPersistAccept (s : State) : Host.Outcome State Fault Refusal :=
  .next <| match s.persists.find? fun p => !p.accepted && p.stack == s.input.unit with
    | none => s.stall
    | some p =>
      if 2 ^ 24 < s.queued p.stack + p.cells.length then s.stall
      else
        let copies := s.toCopy p
        if !copies.isEmpty then
          let s1 := match s.snap.forming with
            | some f => copies.foldl (fun (s : State) a => s.copyLine f a) s
            | none => s
          let new := s1.persists.filter fun x => !x.accepted && s.nextId ≤ x.id
          -- every queue that takes a copy has room for it (16 R394)
          if new.any fun x => 2 ^ 24 < s.queued x.stack + ((new.filter fun y => y.stack == x.stack).map fun y => y.cells.length).sum then s.stall
          else new.foldl State.acceptEntry s1
        else (if p.kind == 0 then s.applyTag p else s).acceptEntry p

/-- No write to a beat comes after those that its queue has taken: none is queued, and no L2 copy holds it dirty. -/
def State.settledBeat (s : State) (b : Nat) : Bool :=
  !s.persists.any (fun x => x.cells.any fun c => c.1 / 32 == b) && !s.l2.any fun e => e.2.dirty.contains (b / 2)

/-- Apply an entry to the media of its stack. The beats that an error of the queue spoiled read as poison, unless a later write
stands (17 R419). -/
def State.drainEntry (s : State) (p : Persist) : State :=
  let as := p.cells.map Prod.fst
  let clean := poisonAfter s.mediaPoison as false
  let s1 := { s with
    media := p.cells.foldl (fun m (c : Nat × Byte) => writeByte m c.1 c.2) s.media
    mediaPoison := p.spoiled.foldl addSet clean
    persists := s.persists.filter fun x => x.id != p.id }
  { s1 with poison := (p.spoiled.filter s1.settledBeat).foldl addSet s1.poison }

/-- `PERSIST_DRAIN`: the oldest accepted entry of SCM stack `input.unit` reaches the media (11 R306); a thermal hold delays
it (17 R421). -/
def execPersistDrain (s : State) : Host.Outcome State Fault Refusal :=
  .next <| match s.persists.find? fun p => p.accepted && p.stack == s.input.unit with
    | none => s.stall
    | some p => if (s.stack (8 + p.stack)).held then s.stall else s.drainEntry p

/-! ### Contributions (16 R404, R405, R408, R410) -/

/-- The step, unit number with its line, and bytes of a snapshot packet. -/
def productOf (p : Packet) : Word64 × Nat × List Byte :=
  (BitVec.ofNat 64 (leValue (p.data.take 8)), leValue ((p.data.drop 8).take 8), p.data.drop 16)

/-- A contribution is refused: its sender sees it fail back with status 11. -/
def State.refuse (s : State) (p : Packet) : State := s.send (s.reply p 11 [] [])

/-- A contribution that names no line of the units that it may go to, or carries none: it is discarded with an event (01 R16). -/
def State.strayProduct (s : State) (p : Packet) : State := s.post { kind := .fabricProtocol, args := [p.src] }

/-- A contribution goes into a line: alone, or added to what the line holds. What it finds there is checked and asked for first
(12 R313, 17 R414). -/
def State.addProduct (s0 : State) (p : Packet) (a : Nat) (alone : Bool) (bs : List Byte) (c : MetaSet) : State :=
  let s := if alone then s0 else s0.snapRead (span a 256)
  let now := if alone then bs else gfAdd (readBytes s.mem a 256) bs
  s.snapWrite (cellsAt a now) (!p.spoiled.isEmpty || (!alone && s.isBad (span a 256))) 2 (some (s.reply p 0 [] [])) [c]

/-- `STRIPE_CONTRIBUTION`: a holder applies a parity contribution to its slot of that step, or refuses it; the
acknowledgement follows when the queue accepts it. -/
def execStripeContribution (s : State) : Host.Outcome State Fault Refusal :=
  s.receive [(6, opStripe)] fun s p =>
    let (step, unit, bs) := productOf p
    match (if s.snap.enabled then s.snap.slotOf step (· != .empty) else none) with
    | none => s.refuse p
    | some q =>
      let a := s.snap.slotAt q + (s.snap.u + unit / 16) * 4096 + unit % 16 * 256
      let old := (s.lineMetaAt a).tag
      if s.snap.v * s.snap.m ≤ unit / 16 || bs.length != 256 then s.strayProduct p
      else if step < old then s.refuse p
      else s.whenReady (span a 256) true <| s.addProduct p a (old != step) bs { line := a / 256, tag := some step }

/-- `REBUILD_CONTRIBUTION`: the replacement counts a product into slot 0, or discards one beyond the count; it refuses what it holds no
forming or complete image for (16 R405, R408, R410). -/
def execRebuildContribution (s : State) : Host.Outcome State Fault Refusal :=
  s.receive [(6, opRebuild)] fun s p =>
    let (step, word, bs) := productOf p
    let n := s.snap
    let parity := decide (2 ^ 63 ≤ word)
    let unit := word % 2 ^ 63
    let a := n.slotAt 0 + ((if parity then n.u else 0) + unit / 16) * 4096 + unit % 16 * 256
    if !n.enabled || (n.slot 0).st == .empty || (n.slot 0).step != step then s.refuse p
    else if (if parity then n.v * n.m else n.u) ≤ unit / 16 || bs.length != 256 then s.strayProduct p
    else
      let count := (s.lineMetaAt a).count
      if n.expected parity (unit / 16) ≤ count then
        (s.record { kind := 9, aux := step.toNat, addr := paOf s.own a, unitType := 8, severity := 0, ctx := n.ctx, gen := (s.ctx n.ctx).gen.toNat }).send
          (s.reply p 0 [] [])
      else s.whenReady (span a 256) true <|
        let s1 := s.addProduct p a (count == 0) bs { line := a / 256, count := some (count + 1) }
        let s2 := if p.spoiled.isEmpty then s1
          else (match n.receiving step with
            | some w => s1.updWork w fun x => { x with spoiled := x.spoiled.orElse fun _ => some a }
            | none => s1).record
              { kind := 8, aux := step.toNat, addr := paOf s.own a, unitType := 8, severity := 1
                ctx := n.ctx, gen := (s.ctx n.ctx).gen.toNat }
        s2.settleReceive

/-! ### The control word (16 R391, R392, R401) -/

/-- Two ranges of bytes overlap. -/
def overlaps (a n b m : Nat) : Bool := a < b + m && b < a + n && 0 < n && 0 < m
/-- A range lies in the SCM of this package and clear of the firmware area. -/
def State.ownScm (s : State) (pa n : Nat) : Bool :=
  pkgOf pa == s.own && 0x40000000000 ≤ locOf pa && locOf pa + n ≤ 0x60000000000 && !overlaps (locOf pa) n 0x5FFFC000000 (2 ^ 26)

/-- An enable is refused (16 R392; 20 R442, R443). -/
def State.enableRefused (s : State) (n : Snap) : Bool :=
  let rs := n.validRegions
  let ms := (List.range n.n).map n.member
  n.nslots < 2 || 8 < n.nslots || n.k < 1 || 8 < n.m || 16 < n.n || n.n ≤ n.self || n.u < 1 || 2 ^ 27 < n.u
    || (n.m == 0 && n.k != 1)
    || ms.any (· == none) || (uniq ms).length != ms.length || n.member n.self != some s.own
    || ms.any (fun m => (m.map s.isEndpoint).getD false)
    || rs.any (fun r => r.2 == 0 || r.2 % 256 != 0 || !s.ownScm r.1 r.2 || overlaps (locOf r.1) r.2 n.base n.ringBytes)
    || (List.range rs.length).any (fun i => (List.range i).any fun j => match rs[i]?, rs[j]? with
        | some x, some y => overlaps (locOf x.1) x.2 (locOf y.1) y.2
        | _, _ => false)
    || n.u * 4096 < n.total || !s.ownScm (field n.ring.toNat 20 36 * 2 ^ 20) n.ringBytes

/-- The slots and the cursor that an enable finds in the ring's header (16 R401). -/
def State.readRing (s : State) (n : Snap) : Snap :=
  let entry := fun (q : Nat) =>
    let at_ := n.base + 64 * q
    let st : SlotState := match readLE s.mem (at_ + 8) 8 % 4 with | 2 => .complete | 3 => .striped | _ => .empty
    (q, { st := st, step := BitVec.ofNat 64 (readLE s.mem at_ 8) : ImageSlot })
  let es := (List.range n.nslots).map entry
  let best := (es.filter fun e => e.2.st != .empty).foldl (fun (b : Option (Nat × ImageSlot)) e => match b with
    | none => some e
    | some x => if x.2.step < e.2.step then some e else some x) none
  { n with slots := es, cursor := (best.map fun e => (e.1 + 1) % max n.nslots 1).getD 0 }

/-- The bits of the control word that a write keeps. -/
def controlMask : Word64 := 0x000000FFFF01FFFF

/-- Write the snapshot control word. -/
def State.writeControl (s : State) (v0 : Word64) : State :=
  let v := v0 &&& controlMask
  if s.snap.enabled then
    if v.getLsbD 16 || s.snap.busy then s else { s with snap := { s.snap with control := v } }
  else if !v.getLsbD 16 then { s with snap := { s.snap with control := v } }
  else
    let n := { s.snap with control := v, refused := false }
    if s.enableRefused n then { s with snap := { s.snap with control := v - 0x10000, refused := true } }
    else { s with snap := s.readRing n }

/-- `SNAPSHOT_CONTROL_WRITE` of `input.value`. -/
def execSnapshotControlWrite (s : State) : Host.Outcome State Fault Refusal :=
  .next (s.whenRunning (s.writeControl s.input.value))

/-! ### Power and reset (16 R395, 20 R448) -/

/-- Every accepted write reaches the media, in order. -/
def State.drainAll (s : State) : State := (s.persists.filter Persist.accepted).foldl State.drainEntry s

/-- The package after a reset: SCM holds what its media hold, the metadata and the firmware's counters stay, and the memory
behind the host window is the host's; HBM is zero and everything else is as at reset (20 R448). The agenda, the model's own
counters and answers already given stay. -/
def State.packageReset (s0 : State) : State :=
  let s := s0.drainAll
  { State.reset with
    clock := s.clock, turns := s.turns, input := s.input, draws := s.draws, nextId := s.nextId
    mem := (s.mem.filter fun c => placeOf c.1 == .host).foldl (fun m (c : Nat × Byte) => writeByte m c.1 c.2) s.media
    media := s.media
    poison := s.mediaPoison, mediaPoison := s.mediaPoison
    lineMeta := s.lineMeta, rollback := s.rollback, leaf := s.leaf, replies := s.replies }

/-- Self-test of the firmware: a free value says which cause fails it, 0 for none (20 R441; log 37). It trains both control
ports and ends awaiting a configuration, or stays failed. -/
def State.selfTest (s : State) : State :=
  let cause := Config.selfTestCause s.draws
  let s1 : State := { s with draws := s.draws + 1, ports := [0, 1] }
  if cause == 0 then { s1 with boot := .awaiting }.post { kind := .bootReady }
  else { s1 with boot := .failed }.post { kind := .bootFailed, args := [cause] }

/-- `POWER_LOSS`: writes not accepted are lost, the queues drain, and the part is without power. -/
def execPowerLoss (s : State) : Host.Outcome State Fault Refusal :=
  .next { s.packageReset with boot := .off }

/-- `POWER_RETURN`: a package reset, whether or not the drain came before, and boot from self-test. -/
def execPowerReturn (s : State) : Host.Outcome State Fault Refusal := .next s.packageReset.selfTest

/-- Append the firmware's answer to a command (20 R440). -/
def State.answerWith (s : State) (r : Reply) : State := { s with replies := s.replies ++ [r] }

/-- A command reaches the firmware: without power nothing answers, and while a command is being served the next one waits. -/
def State.hearCmd (s : State) (k : State) : State := if s.boot == .off || s.killing.isSome then s.stall else k

/-- `RESET`: a package reset on command, and boot from self-test (20 R440, R448). -/
def execReset (s : State) : Host.Outcome State Fault Refusal :=
  .next (s.hearCmd (s.packageReset.selfTest.answerWith { status := 0 }))

end Sys2Proof.Machine
end

