-- ==== Sys2Proof/Machine/Directory.lean ====
section
/-!
DEFINITION. The directory: what a home slice and an L2 agent do with each message, and lines held locked (12 R316-R324,
R332). A step of this family takes the message in place `input.index` of those in flight within the package, or, under
`input.code` 1, the packet `input.pkt` from another package; under `input.code` 2 the agent of die `input.unit` sends the
message for the line of `input.addr`. What the dies of this package exchange over lines of their own home is one step with the access
(log 14); messages go between packages, and from a home to its own dies on behalf of another package.
-/
namespace Sys2Proof.Machine

/-! ### Messages -/

/-- Operation codes of directory packets (log 15). -/
def CohOp.code : CohOp → Nat
  | .getS => 0 | .getM => 1 | .upg => 2 | .putE => 3 | .putO => 4 | .putM => 5 | .inval => 6 | .fwdS => 7 | .fwdM => 8
  | .data => 9 | .upgAck => 10 | .invAck => 11 | .putAck => 12 | .fin => 13
/-- The operation of a code. -/
def CohOp.ofCode (n : Nat) : CohOp :=
  match n with
  | 0 => .getS | 1 => .getM | 2 => .upg | 3 => .putE | 4 => .putO | 5 => .putM | 6 => .inval | 7 => .fwdS | 8 => .fwdM
  | 9 => .data | 10 => .upgAck | 11 => .invAck | 12 => .putAck | _ => .fin
/-- The packet class of a message (12 R319, Table 12.8). -/
def CohOp.cls : CohOp → Nat
  | .getS => 0 | .getM => 0 | .upg => 0 | .putE => 0 | .putO => 0 | .putM => 0 | .inval => 1 | .fwdS => 1 | .fwdM => 1
  | _ => 2

/-- The package that a message goes to. -/
def CohMsg.target (m : CohMsg) : Nat := if m.dst = homeAgent then pkgOf m.line else m.dst / 4

/-- A message as a packet. -/
def State.cohPacket (s : State) (m : CohMsg) : Packet :=
  { dest := m.target, src := s.own, cls := m.op.cls, op := 16 + m.op.code, agent := m.src, tag := m.dst, addr := m.line
    opdata := m.req + 512 * m.excl.toNat, data := m.data, spoiled := m.spoiled }
/-- The message that a packet carries. -/
def cohOf (p : Packet) : CohMsg :=
  { op := CohOp.ofCode (p.op - 16), line := p.addr, src := p.agent, dst := p.tag, req := p.opdata % 512
    excl := p.opdata / 512 % 2 == 1, data := p.data, spoiled := p.spoiled }

/-- Send a message. -/
def State.sendCoh (s : State) (m : CohMsg) : State := { s with msgs := s.msgs ++ [m] }

/-- Messages for other packages leave through the egress. -/
def State.settleMsgs (s : State) : State :=
  (s.msgs.filter fun m => m.target != s.own).foldl (fun (s : State) m => s.send (s.cohPacket m))
    { s with msgs := s.msgs.filter fun m => m.target == s.own }

/-! ### The home (12 R317, R318, R320, R322) -/

/-- The agent number of a home. -/
def State.homeOf (s : State) (ln : Nat) : Nat := 4 * s.own + homeDie (128 * ln)

/-- The home sends the line, whose beats are verified as they leave (12 R313, 17 R413). -/
def State.sendLine (s0 : State) (ln : Nat) (m : CohMsg) (excl : Bool) : State :=
  let s := (s0.request 256 1 (128 * ln) false false).verify { detail := 1 } (span (128 * ln) 128)
  s.sendCoh
    { op := .data, line := m.line, src := s.homeOf ln, dst := m.src, excl := excl, data := s.readHome (128 * ln) 128
      spoiled := (List.range 4).filter fun k => s.isBad [128 * ln + 32 * k] }

/-- Write a whole line to the home copy. -/
def State.putLine (s0 : State) (ln : Nat) (data : List Byte) (spoiled : List Nat) : State :=
  let s := s0.request 256 1 (128 * ln) true false (plain := true)
  let part := fun (bad : Bool) => ((List.range 128).filter fun k => spoiled.contains (k / 32) == bad).map fun k =>
    (128 * ln + k, data.getD k 0)
  (s.homeWrite { cells := part false }).homeWrite { cells := part true, spoiled := true }

/-- The requester owns the line alone. -/
def State.owned (s : State) (ln : Nat) (e : DirEntry) (a : Nat) : State :=
  s.setEntry ln { st := .modified, owner := a, waiting := e.waiting }

/-- Grant a GetM or Upg once no InvAck is awaited: permission to a sharer that asked for it, the line from the home, or
the owner's copy (12 R320). A coarse entry does not say that the requester still is a sharer: it gets the line (log 15). -/
def State.grantCoh (s : State) (ln : Nat) (e : DirEntry) (m : CohMsg) (prior : DirState) : State :=
  let a := m.src
  let owner := prior == .excl || prior == .owned || prior == .modified
  if m.op == .upg && (!e.coarse && (prior == .shared || prior == .owned) && e.agents.contains a || owner && e.owner == a) then
    (s.sendCoh { op := .upgAck, line := m.line, src := s.homeOf ln, dst := a }).owned ln e a
  else if owner && e.owner != a then
    (s.sendCoh { op := .fwdM, line := m.line, src := s.homeOf ln, dst := e.owner, req := a }).setEntry ln
      { e with st := .busy, prior := prior, serving := some m, acks := [] }
  else
    ((s.recallExclusive homeAgent ln).sendLine ln m true).owned ln e a

/-- Serve a request of a line that is not busy. An owner of a line in O is no sharer, though its group may be marked (Table 12.3). -/
def State.serveCoh (s : State) (ln : Nat) (m : CohMsg) : State :=
  let e := s.entry ln
  let a := m.src
  let owner := e.isOwned
  let others := e.agents.filter fun x => x != a && !(owner && x == e.owner)
  let invalidate := fun (who : List Nat) =>
    (who.foldl (fun (s : State) x => s.sendCoh { op := .inval, line := m.line, src := s.homeOf ln, dst := x, req := homeAgent }) s).setEntry
      ln { e with st := .busy, prior := e.st, serving := some m, acks := who }
  match m.op with
  | .getS =>
    if owner && e.owner != a then
      (s.sendCoh { op := .fwdS, line := m.line, src := s.homeOf ln, dst := e.owner, req := a }).setEntry ln
        { e with st := .busy, prior := e.st, serving := some m, acks := [] }
    else
      let s1 := s.recallExclusive homeAgent ln
      if e.st == .shared then (s1.sendLine ln m false).setEntry ln (e.addSharer a)
      else (s1.sendLine ln m true).setEntry ln { st := .excl, owner := a, waiting := e.waiting }
  | .getM =>
    if others.isEmpty then s.grantCoh ln e m e.st else invalidate others
  | .upg =>
    let sharer := !e.coarse && (e.st == .shared || e.st == .owned) && e.agents.contains a
    let who := others ++ if owner && sharer && e.owner != a then [e.owner] else []
    if who.isEmpty then s.grantCoh ln e m e.st else invalidate who
  | _ =>
    let ack : CohMsg := { op := .putAck, line := m.line, src := s.homeOf ln, dst := a }
    if owner && e.owner == a then
      let s1 := if m.op == .putE then s else s.putLine ln m.data m.spoiled
      (s1.sendCoh ack).setEntry ln { e with st := if e.st == .owned && !e.sharers.isEmpty then .shared else .inv, owner := 0 }
    else s.sendCoh ack

/-- The message names a line of this package, and carries a whole one where it carries data (01 R16). -/
def State.homeTakes (s : State) (m : CohMsg) : Bool :=
  pkgOf m.line == s.own && memorySpan (locOf m.line) 128 && m.line % 128 == 0
    && (m.data.length == 128 || !(m.op == .putO || m.op == .putM || m.op == .data))

/-- A request arrives: it is served, or waits in arrival order (12 R320, R323). An endpoint takes no part in coherence (01 R24). -/
def State.arriveCoh (s : State) (m : CohMsg) : State :=
  let ln := locOf m.line / 128
  let e := s.entry ln
  if !s.homeTakes m || s.isEndpoint (m.src / 4) then
    s.post { kind := .fabricProtocol, args := [m.src / 4] }
  else if e.st == .busy || e.st == .locked || !e.waiting.isEmpty || (s.stack (stackOf (128 * ln))).held then
    s.setEntry ln { e with waiting := e.waiting ++ [.msg m] }
  else s.serveCoh ln m

/-- An InvAck is collected; after the last the request is granted, or the home's own access goes on. -/
def State.invAcked (s : State) (m : CohMsg) : State :=
  let ln := locOf m.line / 128
  let e := s.entry ln
  let e1 := { e with acks := delSet e.acks m.src }
  if e.st != .busy || !e.acks.contains m.src then s
  else if !e1.acks.isEmpty then s.setEntry ln e1
  else match e.serving with
    | some r => s.grantCoh ln e1 r e.prior
    | none =>
      if e.prior == .owned then s.setEntry ln { st := .owned, owner := e.owner, waiting := e.waiting }
      else s.setEntry ln { waiting := e.waiting }

/-- The owner's line comes back to the home, which leaves it uncached. -/
def State.recalled (s : State) (m : CohMsg) : State :=
  let ln := locOf m.line / 128
  if !s.homeTakes m then s.post { kind := .fabricProtocol, args := [m.src / 4] }
  else (s.putLine ln m.data m.spoiled).setEntry ln { waiting := (s.entry ln).waiting }

/-- A forwarded transfer has arrived: the home leaves busy (12 R320). -/
def State.transferred (s : State) (m : CohMsg) : State :=
  let ln := locOf m.line / 128
  let e := s.entry ln
  match e.serving with
  | none => s
  | some r =>
    if r.src != m.src || e.st != .busy then s
    else if r.op == .getS then s.setEntry ln (({ e with st := .owned, serving := none, acks := [] } : DirEntry).addSharer r.src)
    else s.owned ln e r.src

/-- The owner of a forward cannot be reached: its dirty data is lost, the home copy is poisoned, and the home answers for
it (12 R332). -/
def State.lostForward (s : State) (m : CohMsg) : State :=
  let ln := locOf m.line / 128
  let e := s.entry ln
  let s1 := ((List.range 4).foldl (fun (s : State) k => s.poisonBeat (4 * ln + k)) s).record
    { kind := 0xB, addr := m.line, severity := 1, unitType := 1, unit := sliceUnit (128 * ln) }
  match e.serving with
  | some r =>
    let s2 := s1.sendLine ln r (r.op != .getS)
    if r.op == .getS then s2.setEntry ln (({ st := .shared, waiting := e.waiting, sharers := e.sharers, coarse := e.coarse } : DirEntry).addSharer r.src)
    else s2.owned ln e r.src
  | none => s1.setEntry ln { waiting := e.waiting }

/-- The home answers for an agent that cannot be reached, as its owner does for one that it was sent to. An agent whose request cannot
reach the home waits no more; the dirty data of its eviction is lost as a discarded store's is (12 R332). -/
def State.lostCoh (s : State) (m : CohMsg) : State :=
  match m.op with
  | .inval => s.invAcked { m with src := m.dst }
  | .fwdS => s.lostForward m
  | .fwdM => s.lostForward m
  | .data => if m.req == 1 then s.sendCoh { op := .fin, line := m.line, src := m.dst, dst := homeAgent } else s
  | .upgAck => s
  | .invAck => s
  | .putAck => s
  | .fin => s
  | _ =>
    let die := m.src % 4
    let x := s.agentLine die (m.line / 128)
    let s1 := s.setAgent die (m.line / 128) { x with waiting := none, access := [], held := [], buffer := none, due := [] }
    if m.op == .putO || m.op == .putM then s1.discard none m.line 0 0 1 else s1

/-! ### An agent (12 R321) -/

/-- What an agent sends of its copy: the bytes of a line of this package are those of its memory (log 14). -/
def State.agentCopy (s : State) (die ln : Nat) : List Byte × List Nat :=
  if pkgOf (128 * ln) == s.own then s.homeCopy (locOf (128 * ln) / 128)
  else ((s.agentLine die ln).data, (s.agentLine die ln).spoiled)

/-- An agent drops its copy; SCM that was dirty in it is written on (11 R305). -/
def State.dropAgent (s0 : State) (die ln : Nat) : State :=
  let s := s0.recallAway die ln
  (({ s with l2 := aerase s.l2 (die, ln) } : State).setAgent die ln
    { s.agentLine die ln with st := .inv, data := [], spoiled := [], under := none }).persistGranules (agetD s.l2 (die, ln) {}).dirty

/-- Serve a forward from the copy, with what an L1 holds of it exclusively (12 R311), or from the write-back buffer. -/
def State.serveForward (s0 : State) (m : CohMsg) : State :=
  let die := m.dst % 4
  let ln := m.line / 128
  let s := s0.recallAway die ln
  let x := s.agentLine die ln
  let held := if x.st == .inv then x.buffer else some (s.agentCopy die ln)
  match held with
  | none => s
  | some (bs, bad) =>
    let s1 := s.sendCoh { op := .data, line := m.line, src := m.dst, dst := m.req, req := 1, excl := m.op == .fwdM, data := bs
                          spoiled := bad }
    if m.op == .fwdM then s1.dropAgent die ln
    else s1.setAgent die ln { x with st := if x.st == .excl || x.st == .modified then .owned else x.st }

/-- A forward waits for the agent's own grant and for the access that asked for it, or is served. -/
def State.forwarded (s : State) (m : CohMsg) : State :=
  let x := s.agentLine (m.dst % 4) (m.line / 128)
  if x.waiting.isSome || !x.due.isEmpty then s.setAgent (m.dst % 4) (m.line / 128) { x with held := x.held ++ [m] } else s.serveForward m

/-- An Inv is acknowledged at once, and the copy dropped. -/
def State.invalidated (s : State) (m : CohMsg) : State :=
  (s.dropAgent (m.dst % 4) (m.line / 128)).sendCoh
    { op := .invAck, line := m.line, src := m.dst, dst := homeAgent }

/-- The loads of a die that wait for a line get what came of it. -/
def State.lineCame (s : State) (die key : Nat) (bs : List Byte) (bad : List Nat) : State :=
  { s with remotes := s.remotes.map fun r => match r.line with
    | some w => if w.die == die && r.addr / 128 == key then { r with came := some (bs, bad) } else r
    | none => r }

/-- A grant: the one access that asked for it is performed, then the forwards that it held off. Those that hold off for a word wait for
it (log 50). -/
def State.granted (s : State) (m : CohMsg) (bs : List Byte) (bad : List Nat) (st : DirState) : State :=
  let die := m.dst % 4
  let ln := m.line / 128
  let x := s.agentLine die ln
  let bs1 := x.access.foldl (fun (d : List Byte) (c : Nat × Byte) => d.set c.1 c.2) bs
  let y : AgentLine := { x with
    st := if x.access.isEmpty then st else .modified, data := bs1, spoiled := bad, waiting := none, access := [] }
  let s1 := s.lineCame die ln bs1 bad
  if x.due.isEmpty then x.held.foldl State.serveForward (s1.setAgent die ln { y with held := [] }) else s1.setAgent die ln y

/-- Data at an agent; a line that came from an owner is confirmed to the home. -/
def State.dataArrived (s : State) (m : CohMsg) : State :=
  let x := s.agentLine (m.dst % 4) (m.line / 128)
  let st : DirState := if !m.excl then .shared else if x.waiting == some .getS then .excl else .modified
  let s1 := s.granted m m.data m.spoiled st
  if m.req == 1 then s1.sendCoh { op := .fin, line := m.line, src := m.dst, dst := homeAgent } else s1

/-- UpgAck: the line that the agent holds may be written. -/
def State.upgraded (s : State) (m : CohMsg) : State :=
  let x := s.agentLine (m.dst % 4) (m.line / 128)
  s.granted m x.data x.spoiled .modified

/-- PutAck: the buffer is free. -/
def State.putAcked (s : State) (m : CohMsg) : State :=
  s.setAgent (m.dst % 4) (m.line / 128) { s.agentLine (m.dst % 4) (m.line / 128) with buffer := none }

/-- The agent of die `input.unit` asks for a line of another package, with the bytes it will write, or gives one up. It asks no endpoint
(01 R24). -/
def State.agentSends (s : State) (op : CohOp) : State :=
  let die := s.input.unit % 4
  let line := s.input.addr / 128 * 128
  let ln := line / 128
  let x := s.agentLine die ln
  let m : CohMsg := { op := op, line := line, src := 4 * s.own + die, dst := homeAgent }
  let held := x.st == (match op with | .upg => .shared | .putE => .excl | .putO => .owned | .putM => .modified | _ => .inv)
  let noRoom := s.l2Full die ln && (s.l2Victim die ln).isNone
  if x.waiting.isSome || x.buffer.isSome || !held || noRoom || !s.isMember (pkgOf line) || s.isEndpoint (pkgOf line) then s.stall
  else if op == .getS || op == .getM || op == .upg then
    ((s.l2Use die ln 1).setAgent die ln { x with
      waiting := some op
      access := (List.range s.input.bytes.length).map fun k => (s.input.addr % 128 + k, s.input.bytes.getD k 0) }).sendCoh m
  else s.putAway die ln false

/-- The agent of die `input.unit` takes a line of this package, with the bytes that it writes, or gives one up: its messages with the
home and the other dies are one step (log 14). -/
def State.ownSends (s : State) (op : CohOp) : State :=
  let die := s.input.unit % 4
  let ln := locOf s.input.addr / 128
  let st := (s.agentLine die (s.lineKey ln)).st
  let cells := (cellsAt (locOf s.input.addr) s.input.bytes).filter fun c => c.1 / 128 == ln
  let take := fun (write : Bool) => s.whenReady [128 * ln] write <|
    let s1 := (s.recallExclusive homeAgent ln).dieTake die ln write
    if die == homeDie (128 * ln) then s1 else (s1.l2Use die (s.lineKey ln) 1)
  if (homedLines [128 * ln]).isEmpty then s.stall
  else match op with
    | .getS => if st == .inv then take false else s.stall
    | .getM => if st == .inv then (let s1 := take true; if s1.stalled then s1 else s1.homeWrite { cells := cells }) else s.stall
    | .upg => if st == .shared then (let s1 := take true; if s1.stalled then s1 else s1.homeWrite { cells := cells }) else s.stall
    | .putE => if st == .excl then s.l2Drop die (s.lineKey ln) false else s.stall
    | .putO => if st == .owned then s.l2Drop die (s.lineKey ln) false else s.stall
    | .putM => if st == .modified then s.l2Drop die (s.lineKey ln) false else s.stall
    | _ => s.stall

/-! ### The steps -/

/-- Take the message that a step names. -/
def State.takeCoh (s : State) (op : CohOp) (k : CohMsg → State → State) : Host.Outcome State Fault Refusal :=
  if s.input.code == 0 then
    .next <| match s.msgs[s.input.index]? with
      | some m => if m.op == op && m.target == s.own then k m { s with msgs := s.msgs.eraseIdx s.input.index } else s.stall
      | none => s.stall
  else if s.input.code == 1 then s.receive [(op.cls, 16 + op.code)] fun s p => k (cohOf p) s
  else .next (if pkgOf s.input.addr == s.own then s.ownSends op else s.agentSends op)

/-- A request at its home. -/
def State.homeStep (s : State) (op : CohOp) : Host.Outcome State Fault Refusal := s.takeCoh op fun m s1 => s1.arriveCoh m

/-- `GETS` (12 R320). -/
def execGets (s : State) : Host.Outcome State Fault Refusal := s.homeStep .getS
/-- `GETM` (12 R320). -/
def execGetm (s : State) : Host.Outcome State Fault Refusal := s.homeStep .getM
/-- `UPG` (12 R320). -/
def execUpg (s : State) : Host.Outcome State Fault Refusal := s.homeStep .upg
/-- `PUTE` (12 R322). -/
def execPute (s : State) : Host.Outcome State Fault Refusal := s.homeStep .putE
/-- `PUTO` (12 R322). -/
def execPuto (s : State) : Host.Outcome State Fault Refusal := s.homeStep .putO
/-- `PUTM` (12 R322). -/
def execPutm (s : State) : Host.Outcome State Fault Refusal := s.homeStep .putM

/-- A message that no agent sends of its own accord. -/
def State.answerStep (s : State) (op : CohOp) (k : CohMsg → State → State) : Host.Outcome State Fault Refusal :=
  if 2 ≤ s.input.code then .next s.stall else s.takeCoh op k

/-- `INV` (12 R321). -/
def execInvMsg (s : State) : Host.Outcome State Fault Refusal := s.answerStep .inval fun m s1 => s1.invalidated m
/-- `FWDS` (12 R321). -/
def execFwds (s : State) : Host.Outcome State Fault Refusal := s.answerStep .fwdS fun m s1 => s1.forwarded m
/-- `FWDM` (12 R321). -/
def execFwdm (s : State) : Host.Outcome State Fault Refusal := s.answerStep .fwdM fun m s1 => s1.forwarded m
/-- `DATA`, at the agent that asked or at a home that recalled its line (12 R321, R323). -/
def execDataMsg (s : State) : Host.Outcome State Fault Refusal :=
  s.answerStep .data fun m s1 => if m.dst == homeAgent then s1.recalled m else s1.dataArrived m
/-- `UPGACK` (12 R320). -/
def execUpgack (s : State) : Host.Outcome State Fault Refusal := s.answerStep .upgAck fun m s1 => s1.upgraded m
/-- `INVACK` (12 R320). -/
def execInvack (s : State) : Host.Outcome State Fault Refusal := s.answerStep .invAck fun m s1 => s1.invAcked m
/-- `PUTACK` (12 R321). -/
def execPutack (s : State) : Host.Outcome State Fault Refusal := s.answerStep .putAck fun m s1 => s1.putAcked m
/-- `DONE` (12 R320). -/
def execDoneMsg (s : State) : Host.Outcome State Fault Refusal := s.answerStep .fin fun m s1 => s1.transferred m

/-- Whether the step that holds a lock is still to be performed. -/
def State.holderWaits (s : State) (who : Holder) : Bool :=
  match who with
  | [0, id] => s.rowOps.any fun r => r.id == id
  | [1, gid, n] => s.listOps.any fun o => o.gid == gid && o.seqNo == n
  | [3, gid, n, c] => s.kvups.any fun v => v.gid == gid && v.seqNo == n && v.chunks.contains c
  | [4, gid] => ((aget s.groups gid).map Group.begun).getD false
  | [5, core, line] => s.backs.any fun b => b.core == core && b.line == line
  | [6, gid, word] => match aget s.groups gid with
    | some g => g.begun && g.issue == word && g.hold == .none && (s.gangOf g).run == .running && !(s.gangOf g).stopped
    | none => false
  | [7, t, q, pc] => match (agetD (s.team t).units q {}).stream with
    | some st => st.running && st.pc == pc && st.heldPage.isNone && !((s.gang (s.team t).gang).run == .saved || (s.gang (s.team t).gang).run == .killed)
    | none => false
  | [8, gid, n] => s.copyOps.any fun o => o.gid == gid && o.seqNo == n && o.heldPage.isNone && !o.cancelled
  | _ => s.chases.any fun c => c.holder == who && !c.away && c.heldPage.isNone

/-- `LINE_LOCK`: the home takes the next line, in ascending order, of the row operation that Kiosk `input.unit` serves next, locked for
it, once the line's copies are recalled (12 R323, R324). Other steps, and `MCAS`, take their locks as they go on. -/
def execLineLock (s : State) : Host.Outcome State Fault Refusal :=
  .next <| match s.nextRow s.input.unit with
    | none => s.stall
    | some r =>
      let who : Holder := [0, r.id]
      match (ascending (homedLines r.addrs)).find? fun l => !s.holdsLock who l with
      | none => s.stall
      | some l =>
        if s.mayServe s.input.unit who r.kstep then (match s.takeLocks who [l] with | (true, s1) => s1 | (false, s1) => s1.stall)
        else s.stall

/-- Serve what waits for lines that are free again, in arrival order; the lock of a step that is no more is released, and one that waits no
more gives up its place. A step that still waits takes its line when it is tried again. -/
def State.settleDir (s : State) : State :=
  s.dir.foldl (fun (s : State) x =>
    let e := s.entry x.1
    if e.st == .locked && !s.holderWaits e.holder then s.setEntry x.1 { waiting := e.waiting }
    else if e.st == .busy || e.st == .locked || (s.stack (stackOf (128 * x.1))).held then s
    else match e.waiting with
      | [] => s
      | .msg m :: ms => (s.setEntry x.1 { e with waiting := ms }).serveCoh x.1 m
      | .own who :: ms => if s.holderWaits who then s else s.setEntry x.1 { e with waiting := ms }) s

/-- Lines of other packages that were kept for a word which has performed its access, or is no more, are forwarded. -/
def State.settleAgents (s : State) : State :=
  (s.agents.filter fun e => !e.2.due.isEmpty || (e.2.waiting.isNone && !e.2.held.isEmpty)).foldl (fun (s : State) e =>
    let x := s.agentLine e.1.1 e.1.2
    let due := if !x.due.isEmpty && s.holderWaits x.due then x.due else []
    if !due.isEmpty || x.waiting.isSome then s.setAgent e.1.1 e.1.2 { x with due := due }
    else x.held.foldl State.serveForward (s.setAgent e.1.1 e.1.2 { x with due := [], held := [] })) s

end Sys2Proof.Machine
end

