-- ==== Sys2Proof/Machine/Fabric.lean ====
section
/-!
DEFINITION. The fabric: links and their plan, the egress, packets that arrive, what a response completes, packets that fail
back, and multicast copies (01 R24; 06 R190; 12 R325-R338).
-/
namespace Sys2Proof.Machine

/-! ### The channel plan and the links (12 R325-R329) -/

/-- The written entry of a fibre. -/
def State.planEntry (s : State) (f : Nat) : Word64 := agetD s.planWritten f (evenEntry f)
/-- The channel of a laser, numbered 4 × fibre + laser. -/
def State.channel (s : State) (link : Nat) : Nat := field (agetD s.planApplied (link / 4) (evenEntry (link / 4))).toNat (8 * (link % 4)) 6
/-- The package that a laser reaches (01 R18). -/
def State.reach (s : State) (link : Nat) : Nat := (s.own + s.channel link) % 64
/-- The trained lasers to a peer, ascending. -/
def State.trainedTo (s : State) (j : Nat) : List Nat :=
  (List.range 2048).filter fun k => aget s.links k == some .trained && s.reach k == j

/-- A laser of the change under way is not yet back (12 R328). -/
def State.planRuns (s : State) : Bool := s.links.any fun e => e.2 == .draining || e.2 == .retuning
/-- Busy clears when every changed laser has resumed or is down. -/
def State.settlePlan (s : State) : State := { s with planBusy := s.planBusy && s.planRuns }

/-- The failure of a plan entry, in the order of 12 Table 12.7. -/
def entryFails (w : Word64) : Option Nat :=
  let tx := (List.range 4).map fun l => field w.toNat (8 * l) 6
  let rx := (List.range 4).map fun l => field w.toNat (32 + 8 * l) 6
  if (uniq tx).length < 4 || (uniq rx).length < 4 then some 1
  else if tx.contains 0 || rx.contains 0 then some 2
  else if (List.range 8).any (fun k => field w.toNat (8 * k + 6) 2 != 0) then some 3
  else none

/-- Write the plan control register: a write of apply checks every entry and puts the plan in force (12 R325). -/
def State.planControl (s : State) (v : Word64) : State :=
  if !v.getLsbD 0 || s.planBusy then s
  else
    let epoch := field v.toNat 4 32
    match (List.range 512).findSome? fun f => entryFails (s.planEntry f) with
    | some r => { s with planResult := r, planEpoch := epoch }
    | none =>
      let changed := (List.range 2048).filter fun k => field (s.planEntry (k / 4)).toNat (8 * (k % 4)) 6 != s.channel k
      { s with
        planApplied := s.planWritten, planResult := 0, planEpoch := epoch, planBusy := !changed.isEmpty
        links := changed.foldl (fun m k => aset m k LinkState.draining) s.links }

/-- `PLAN_APPLY` of `input.value`. -/
def execPlanApply (s : State) : Host.Outcome State Fault Refusal :=
  .next (s.whenRunning (s.planControl s.input.value))

/-- `LASER_RETUNE` of laser `input.unit`: once every flit sent on it is acknowledged it retunes (12 R328). -/
def execLaserRetune (s : State) : Host.Outcome State Fault Refusal :=
  let k := s.input.unit
  .next <| if aget s.links k == some .draining && !s.egress.any (fun e => e.sent && e.link == some k) then
      { s with links := aset s.links k .retuning }
    else s.stall

/-- `LINK_TRAINING` of laser `input.unit`: it trains, unless `input.code` says that it failed or the plan names no member
there (12 R327). A peer that a link reaches again is known unreachable no more (12 R332). -/
def execLinkTraining (s : State) : Host.Outcome State Fault Refusal :=
  let k := s.input.unit
  .next <|
    if 2048 ≤ k || aget s.links k == some .trained || aget s.links k == some .draining then s.stall
    else if s.input.code == 0 && s.isMember (s.reach k) then
      ({ s with links := aset s.links k .trained, retries := aerase s.retries k
                unreachable := delSet s.unreachable (s.reach k) } : State).settlePlan
    else (({ s with links := aset s.links k .down } : State).post { kind := .fabricLinkDown, args := [k] }).settlePlan

/-- A link is declared down: what it has not delivered goes out again on the peer's other links, before anything newer (12 R331). -/
def State.linkDown (s : State) (k : Nat) : State :=
  (({ s with
      links := aset s.links k .down, retries := aerase s.retries k
      egress := s.egress.map fun e => if e.link == some k then { e with sent := false, link := none, since := s.now.toNat } else e } :
    State).post { kind := .fabricLinkDown, args := [k] }).settlePlan

/-- A run's check failed on a link and it is sent again; where that was the sixteenth failed resend on end, the link is down
(12 R331). -/
def State.runFailed (s : State) (k : Nat) : State :=
  match aget s.retries k with
  | none => { s with retries := aset s.retries k 0 }
  | some n => if 15 ≤ n then s.linkDown k else { s with retries := aset s.retries k (n + 1) }

/-! ### What a response completes (12 R330, R332) -/

/-- Mark one lane of registers by stack position. -/
def Group.markPos (g : Group) (p k l : Nat) (m : Mark) : Group :=
  { g with marks := (g.marks.filter fun x => x.scalar || x.lane != l || x.reg < p || p + k ≤ x.reg)
      ++ (List.range k).map fun j => { m with scalar := false, reg := p + j, lane := l } }

/-- Put a datum into registers by stack position in one lane. -/
def Group.putAt (g : Group) (p l : Nat) (bs : List Byte) : Group :=
  (List.range ((bs.length + 3) / 4)).foldl
    (fun (g : Group) j => g.putPos (p + j) (BitVec.ofNat 32 (2 ^ l)) fun _ => BitVec.ofNat 32 (leValue bs / 2 ^ (32 * j))) g

/-- The groups and virtual pages whose stores or reduction a request is (06 R194, 12 R332). -/
def Remote.loses (r : Remote) : List (Nat × Nat) :=
  match r.what with
  | .atom g _ _ _ _ va => [(g, va % 2 ^ 57 / 4096)]
  | .scalar g _ _ _ va => [(g, va % 2 ^ 57 / 4096)]
  | .row g _ _ _ _ va => [(g, va % 2 ^ 57 / 4096)]
  | .write g page => [(g, page)]
  | .scmWrite g page => [(g, page)]
  | .copyUnit g _ => (r.page.map fun page => (g, page)).toList
  | .back _ by_ => uniq (by_.map fun x => (x.1, x.2.1))
  | _ => []

/-- Stores that a request carried are discarded here (12 R332, 06 R194). -/
def State.discardAll (s : State) (r : Remote) : State :=
  r.loses.foldl (fun (s : State) x => s.discard (some x.1) r.addr x.2 0 1) s

/-- Complete an open request: `bads` are the poisoned beats of its data, and `peer` one more than its package when that could not be
reached. Status 7 says that its owner discarded what it wrote (06 R194). -/
def State.answer (s0 : State) (r : Remote) (status : Nat) (data : List Byte) (bads : List Nat) (peer : Nat) : State :=
  let s : State := { s0 with remotes := s0.remotes.filter fun x => x.tag != r.tag || x.peer != r.peer }
  let lost := status % 256 == 7
  let failed := !bads.isEmpty || (status % 256 != 0 && !lost) || peer != 0
  let fl : Flags := BitVec.ofNat 6 (status / 256)
  let core := fun (gid : Nat) => ((aget s.groups gid).map s.coreOf).getD 0
  let fresh := fun (s : State) (gid : Nat) => if r.acquire then s.dropClean (core gid) else s
  let lanes := fun (gid dreg : Nat) (ls : List Nat) (w word va : Nat) =>
    fresh (s.updGroup gid fun g =>
      (ls.foldl (fun (g : Group) l =>
        if failed then g.markPos dreg ((w + 3) / 4) l (poisonMark va word peer)
        else (g.putAt dreg l (data.take w)).raiseLate fl) g).unpend (.remote r.tag)) gid
  let store := if peer != 0 then s.discardAll r else s
  let done := match r.what with
  | .load gid dreg l w word va => lanes gid dreg (l :: r.also) w word va
  | .atom gid dreg l w word va => lanes gid dreg [l] w word va
  | .write _ _ => store
  | .scmWrite _ _ => store
  | .back _ _ => store
  | .scalar gid dreg w word va =>
    fresh (s.updGroup gid fun g =>
      (if failed then g.markScalar dreg (poisonMark va word peer)
       else g.putS dreg (signExt (8 * w) (leValue (data.take w)))).unpend (.remote r.tag)) gid
  | .copyUnit gid n =>
    -- a fragment that could not be written is reported at `PBAR.stripe` too (06 R198)
    let s := if peer != 0 && r.page.isSome then s.loseFragment gid (peer - 1) else s
    if data.isEmpty && peer == 0 && status % 256 != 5 then s
    else { s with copyOps := s.copyOps.map fun o =>
        if o.gid == gid && o.seqNo == n then
          { o with got := aset o.got r.addr (data, bads), lostPeer := if peer != 0 then some (peer - 1) else o.lostPeer }
        else o }
  | .chase gid n l => match s.chases.find? fun c => c.gid == gid && c.seqNo == n && c.lane == l && c.away with
    | none => s
    | some c =>
      if peer != 0 then s.chaseReturned c c.k c.hops c.p (.failed 5 c.addr peer)
      else if status % 256 == 0 then s.chaseReturned c c.k c.hops c.p (.value (leValue (data.take 8)))
      else s.chaseReturned c (status / 256 % 256) (status / 65536) (leValue (data.take 8))
        (.failed (status % 256) (leValue ((data.drop 8).take 8)))
  | .row gid dreg size lanes word va =>
    fresh (s.updGroup gid fun g =>
      ((g.rowDone dreg size lanes data (if failed then some (va, peer) else none) word).unpend (.remote r.tag)).raiseLate fl) gid
  | .fill gid key => s.updGroup gid fun g => { g with fills := aset g.fills key (data, if failed then some peer else none) }
  | .parkRead gid l since => match aget s.groups gid with
    | none => s
    | some g => match g.parks.find? fun p => p.lane == l && p.since == since with
      | none => s
      | some p => (s.parkValue gid g p data failed peer).getD s
  | .inval c n p =>
    if peer == 0 then s
    else { s with invals := s.invals.map fun i => match i.issuer with
      | some (c', n', _) => if c' == c && n' == n then { i with lost := i.lost.orElse fun _ => some p } else i
      | none => i }
  | .snap gid n p fragment =>
    if !failed then s
    else
      let s1 := if fragment then s.loseFragment gid p else s
      match s1.snap.work.find? fun w => w.seqNo == n with
      | some w => s1.failWork w p
      | none => s1
  | .record ctx va => { s with fetched := aset s.fetched (ctx, va) (data, failed) }
  | .signal ctx va =>
    if failed || lost then s.record { kind := 7, addr := va, virt := true, ctx := ctx, gen := (s.ctx ctx).gen.toNat } else s
  if lost then r.loses.foldl (fun (s : State) x => s.updGroup x.1 fun g => g.lose x.2 1 0) done else done

/-- A chase, whose answer comes from the package where it ended (12 R334). -/
def RemoteFor.isChase : RemoteFor → Bool | .chase _ _ _ => true | _ => false

/-- The open request that a packet's tag names. -/
def State.openFor (s : State) (tag peer : Nat) : Option Remote :=
  s.remotes.find? fun r => r.tag == tag && (r.peer == peer || r.what.isChase)

/-! ### The egress (12 R329, R332, R338) -/

/-- A request that reads and changes a word or row of another package (12 R332). -/
def Packet.reduces (p : Packet) : Bool :=
  p.cls == 0 && (p.op == opAtomic || p.op == opCas || p.op == opSignal) || p.cls == 5 && p.op == opReduce
    || p.cls == 3 && p.op == opRow && p.opdata / 2 ^ 16 % 256 != 3

/-- Operation code of an `STM.row` on its way to the home replica (log 15). -/
def opRowStore : Nat := 12
/-- The answer for a member that the home replica could not reach: this and 256 times the member (log 15). -/
def stMember : Nat := 12

/-- The loads that wait for a line of another package whose home could not be reached fail (12 R332). -/
def State.lineLost (s : State) (die key peer : Nat) : State :=
  (s.remotes.filter fun r => r.addr / 128 == key && (match r.line with | some w => w.die == die | none => false)).foldl
    (fun (s : State) r => s.answer r 0 [] [] (peer + 1)) s

/-- A packet fails back to its source (12 R332): its request ends; a reduction is discarded like a store. A chase, or a row update of
another package, that only passed through is answered at its origin. A multicast copy is dropped with an event (12 R338); an `STM.row`
that does not reach the home replica is lost for every member. -/
def State.failBack (s0 : State) (p0 : Packet) : State :=
  -- a packet of several parts fails as one
  let p := if opPart ≤ p0.op then p0.whole else p0
  let s : State := if opPart ≤ p0.op then { s0 with egress := s0.egress.filter fun e => e.pkt.op < opPart || e.pkt.whole != p } else s0
  let s1 :=
    if p.isCoh then
      let m := cohOf p
      let s2 := s.lostCoh m
      if m.op == .getS || m.op == .getM || m.op == .upg then s2.lineLost (m.src % 4) (m.line / 128) p.dest else s2
    else if p.cls == 2 then s
    else if p.cls == 3 && p.op == opChase && p.src != s.own then
      s.respond p.src p.tag (5 + 256 * (chaseOf p).k + 65536 * (chaseOf p).hops) ((p.data.drop 128).take 16) [] p.addr p.agent p.svc p.ctx p.xgen
    else if p.cls == 4 && p.op == opRowUpdate && p.src != s.own then
      (s.record { kind := 7, addr := p.addr, ctx := p.ctx, gen := (s.ctx p.ctx).gen.toNat, severity := 2 }).respond p.src p.tag
        (stMember + 256 * p.dest) [] [] p.addr p.agent p.svc p.ctx p.xgen
    else if p.cls == 4 && p.op == opRowStore then
      (s.remotes.filter fun r => r.tag == p.tag).foldl (fun (s : State) r => s.answer r 0 [] [] (p.dest + 1)) s
    else match s.openFor p.tag p.dest with
      | some r =>
        let s2 := s.answer r 0 [] [] (p.dest + 1)
        if p.reduces then s2.discardAll { r with addr := p.addr } else s2
      | none => s
  if p.cls == 4 then s1.post { kind := .mcastDrop, args := [p.dest, p.opdata % 256] } else s1

/-- A link carries flits: it is trained, or still empties before it retunes. -/
def State.linkRuns (s : State) (k : Nat) : Bool := aget s.links k == some .trained || aget s.links k == some .draining

/-- `LINK_RUN_RETRY` on laser `input.unit`: under `input.code` 0 the receiver acknowledges the oldest `input.index` packets sent on it;
under 2 it discarded the header of the oldest, which fails back as to an unreachable peer (12 R330; log 15); otherwise a run's check
failed (12 R331). -/
def execLinkRunRetry (s : State) : Host.Outcome State Fault Refusal :=
  let k := s.input.unit
  let mine := s.egress.filter fun e => e.sent && e.link == some k
  let acked := fun (es : List Egress) => ({ s with egress := s.egress.filter (fun e => !es.contains e), retries := aerase s.retries k } : State)
  .next <|
    if !s.linkRuns k then s.stall
    else if s.input.code == 0 then acked (mine.take s.input.index)
    else if s.input.code == 2 then match mine with
      | [] => s.stall
      | e :: _ => (acked [e]).failBack e.pkt
    else s.runFailed k

/-- `LINK_DOWN` of laser `input.unit`: its sixteenth resend on end fails. -/
def execLinkDown (s : State) : Host.Outcome State Fault Refusal :=
  .next <| if s.linkRuns s.input.unit && aget s.retries s.input.unit == some 15 then s.runFailed s.input.unit else s.stall

/-- Whether a packet waits, goes out on a link, or fails back at once. -/
inductive Out where
  | wait | go (link : Nat) | fail
  deriving DecidableEq, Repr

/-- The choice of R329: the trained laser to the peer by line address. A line's packets keep one link until those sent are
acknowledged. An endpoint takes only requests, responses and engine packets (01 R24). -/
def State.route (s : State) (p : Packet) : Out :=
  if s.isEndpoint p.dest && (p.cls == 1 || p.cls == 3 || p.cls == 4 || p.cls == 6 || p.isCoh) then .fail
  else
    let ls := s.trainedTo p.dest
    match ls[p.addr / 128 % max ls.length 1]? with
    | none => if s.unreachable.contains p.dest then .fail else .wait
    | some k =>
      if s.egress.any fun e => e.sent && e.pkt.dest == p.dest && e.pkt.addr / 128 == p.addr / 128 && e.link != some k then .wait
      else .go k

/-- A response of class 2 completes the request of its tag; one that names none is dropped. -/
def State.respondTo (s : State) (p : Packet) : State :=
  let member := p.opdata % 256 == stMember
  match s.openFor p.tag (if member then p.opdata / 256 % 64 else p.src) with
  | none => s
  | some r => if member then s.answer r 0 [] [] (r.peer + 1) else s.answer r p.opdata p.data p.spoiled 0

/-- A response to this package itself, of work that came back to it through another, needs no link (12 R334). -/
def State.settleOwn (s : State) : State :=
  (s.egress.filter fun e => e.pkt.dest == s.own && e.pkt.cls == 2 && e.pkt.op == 0).foldl (fun (s : State) e => s.respondTo e.pkt)
    { s with egress := s.egress.filter fun e => !(e.pkt.dest == s.own && e.pkt.cls == 2 && e.pkt.op == 0) }

/-- The width of a load that waits for a line. -/
def RemoteFor.width : RemoteFor → Nat
  | .load _ _ _ w _ _ => w
  | .scalar _ _ w _ _ => w
  | _ => 0

/-- A load that waits for a line of another package goes on: with what the die's L2 was granted or holds, once the group's own writes to
the line are performed (11 R292); or it fails where the line's home cannot be reached, or its line is asked for again (12 R316). -/
def State.settleLine (s : State) (r : Remote) (w : LineWait) : State :=
  let key := r.addr / 128
  let gid := r.what.gid?.getD 0
  let core := ((aget s.groups gid).map s.coreOf).getD 0
  if s.lineOut gid core r.addr then
    { s with remotes := s.remotes.map fun x => if x.tag == r.tag && x.peer == r.peer then { x with came := none } else x }
  else match r.came.orElse fun _ => s.agentHas w.die key with
    | some (bs, bad) =>
      let x : Xlat := { pa := r.addr, kind := 2, pt := false, attr := w.attr }
      let out := s.sliceAway core x r.what.width bs bad
      (if w.attr == 0 then s.l1FillWith core x.key w.prio false bs bad else s).answer r 0 out.bytes (if out.bad then [0] else []) 0
    | none =>
      if s.unreachable.contains r.peer then s.answer r 0 [] [] (r.peer + 1) else s.fetchAway w.die key w.prio false []

/-- Every load that waits for a line is looked at. -/
def State.settleLines (s : State) : State :=
  s.remotes.foldl (fun (s : State) r => match s.remotes.find? fun x => x.tag == r.tag && x.peer == r.peer with
    | some x => match x.line with
      | some w => s.settleLine x w
      | none => s
    | none => s) s

/-- Every packet in egress that can leave does; one that waits while a link to its peer is trained does not wait for a link (12 R332). -/
def State.settleEgress (s : State) : State :=
  s.egress.foldl (fun (s : State) e =>
    if e.sent then s
    else match s.route e.pkt with
      | .wait => if (s.trainedTo e.pkt.dest).isEmpty then s
          else { s with egress := s.egress.map fun x => if x == e then { e with since := s.now.toNat } else x }
      | .go k => { s with egress := s.egress.map fun x => if x == e then { e with sent := true, link := some k } else x }
      | .fail => ({ s with egress := s.egress.filter fun x => x != e } : State).failBack e.pkt) s

/-- `PEER_UNREACHABLE`: the packet in place `input.index` of the egress has waited 10 ms with no link (12 R332). -/
def execPeerUnreachable (s : State) : Host.Outcome State Fault Refusal :=
  .next <| match s.egress[s.input.index]? with
    | none => s.stall
    | some e =>
      if e.sent || !(s.trainedTo e.pkt.dest).isEmpty || s.now.toNat < e.since + 12000000 then s.stall
      else
        let s1 : State := { s with
          egress := s.egress.filter fun x => x != e, unreachable := addSet s.unreachable e.pkt.dest }
        (s1.failBack e.pkt).post { kind := .peerUnreachable, args := [e.pkt.dest] }

/-! ### Packets that arrive (12 R330) -/

/-- A read for another package. -/
def State.serveRead (s : State) (p : Packet) : State :=
  let a := locOf p.addr
  let n := p.opdata % 2 ^ 16
  if !memorySpan a n || 128 < n then s.post { kind := .fabricProtocol, args := [p.src] }
  else s.whenReady (span a n) false <|
    let s0 := (s.recallExclusive homeAgent (a / 128)).dieTake (homeDie a) (a / 128) false
    let s1 := (s0.request 256 p.svc a false false p.ctx).verify { detail := 1, ctx := p.ctx } (span a n)
    s1.send (s1.reply p 0 (s1.readHome a n) ((beatsOf (span a n)).filter fun b => s1.isBad [32 * b]))

/-- A write for another package of some bytes, acknowledged when performed, or when a persist queue accepts it (11 R286,
06 R198); its poisoned beats arrive poisoned. -/
def State.serveWrite (s : State) (p : Packet) (bs : List Byte) (tag : Word64) (status : Nat) (data : List Byte) : State :=
  let a := locOf p.addr
  let as := span a bs.length
  if !memorySpan a bs.length || bs.isEmpty then s.post { kind := .fabricProtocol, args := [p.src] }
  else s.whenReady as true <|
    let s1 := ((s.recallExclusive homeAgent (a / 128)).dirTake as).request 256 p.svc a true false p.ctx (plain := true)
    let lost := as.any fun x => inFirmware x || s.withdrawn x
    let scm := placeOf a == .scm
    let ok := s1.reply p status data []
    let w : HomeWrite := { cells := cellsAt a bs, tag := tag, through := scm, bads := p.spoiled.filter fun b => (beatsOf as).contains b
                           ack := if scm && !lost then some ok else none }
    let s2 := if bs.length == 16 && !lost then s1.homeHalves w else s1.homeWrite w
    if lost then s2.send (s1.reply p (status / 256 * 256 + 7) data []) else if scm then s2 else s2.send ok

/-- A read-modify-write for another package: `f` gives the new value of the old one, its flags, and what is returned. -/
def State.serveRmw (s : State) (p : Packet) (w : Nat) (tag : Word64) (f : Nat → Option Nat × Flags × Nat) : State :=
  let a := locOf p.addr
  if !memorySpan a w then s.post { kind := .fabricProtocol, args := [p.src] }
  else s.whenReady (span a w) true <|
    let s1 := ((s.recallExclusive homeAgent (a / 128)).request 256 p.svc a false false p.ctx).verify { detail := 5, ctx := p.ctx } (span a w)
    if s1.isBad (span a w) then s1.send (s1.reply p 5 [] [])
    else
      let (new, fl, back) := f (leValue (s1.readHome a w))
      match new with
      | some v => s1.serveWrite p (leBytes w v) tag (256 * fl.toNat) (leBytes w back)
      | none => s1.send (s1.reply p (256 * fl.toNat) (leBytes w back) [])

/-- The cells of a row packet, after its step. -/
def rowCellsOf (bs : List Byte) : List (Nat × Byte) :=
  (List.range (bs.length / 3)).map fun k => (leValue ((bs.drop (3 * k)).take 2), bs.getD (3 * k + 2) 0)

/-- Queue a row operation of another package at its Kiosk. -/
def State.queueRow (s : State) (p : Packet) (r : Nat → RowOp) : State :=
  let k := kioskOf (locOf p.addr)
  let x := r 0
  if !memorySpan (locOf p.addr) x.size || 1024 < x.size || x.data.any fun c => x.size ≤ c.1 then
    s.post { kind := .fabricProtocol, args := [p.src] }
  else if kioskPlaces ≤ s.kioskLoad k then s.stall
  else
    let (id, s1) := s.fresh
    s1.addRow (r id)

/-- A row operation of another package. -/
def queuedRow (p : Packet) (op size entry now : Nat) (origin : Word64) (data : List Byte) (members : List Nat) (id : Nat) : RowOp :=
  { id := id, gid := none, requester := 256, cls := p.svc, kiosk := kioskOf (locOf p.addr), op := op, pa := p.addr, size := size
    lanes := 0, data := rowCellsOf (data.drop 8), arrived := now, origin := origin
    sender := some (p.src, p.tag), agent := 2 ^ 40 + p.src * 2 ^ 16 + p.agent, by_ := p.agent, ctx := p.ctx, xgen := p.xgen
    pt := placeOf (locOf p.addr) == .scm
    tag := BitVec.ofNat 64 (leValue (data.take 8)), entry := entry, members := members, fan := (p.src, p.tag) }

/-- `FABRIC_REQUEST`: a request of class 0 is performed at its home slice, and a Kiosk packet of class 3 joins its Kiosk's
queue. -/
def execFabricRequest (s : State) : Host.Outcome State Fault Refusal :=
  s.receive [(0, opRead), (0, opWrite), (0, opAtomic), (0, opCas), (0, opSignal), (3, opRow), (3, opChase)] fun s p =>
    let w := p.opdata % 256
    let val := fun (o n : Nat) => leValue ((p.data.drop o).take n)
    let tagAt := fun (o : Nat) => (BitVec.ofNat 64 (val o 8) : Word64)
    if p.cls == 3 && p.op == opChase then
      let c := chaseOf p
      if kioskPlaces ≤ s.kioskLoad (kioskOf (locOf p.addr)) then s.stall
      else { s with chases := s.chases ++ [{ c with since := s.clock }] }
    else if p.cls == 3 then
      s.queueRow p (queuedRow p (p.opdata / 2 ^ 16 % 256) (p.opdata % 2 ^ 16) 0 s.clock (BitVec.ofNat 64 (p.opdata / 2 ^ 24)) p.data [])
    else if p.op == opRead then s.serveRead p
    else if p.op == opWrite then s.serveWrite p (p.data.take w) (tagAt w) 0 []
    else if p.op == opAtomic then
      let origin : BitVec 22 := BitVec.ofNat 22 (val w 4)
      s.serveRmw p w (tagAt (w + 4)) fun old =>
        let (v, fl) := atomNew (p.opdata / 256 % 256) (8 * w) origin old (val 0 w)
        (some v, fl, old)
    else if p.op == opCas then
      s.serveRmw p w (tagAt (2 * w)) fun old => (if old == val 0 w then some (val w w) else none, 0, old)
    else
      s.serveRmw p w (tagAt 8) fun old =>
        let d : Int := val 0 8
        let v := wrap (8 * w) (if p.opdata / 256 % 256 == 1 then old - d else old + d)
        (some v, 0, v)

/-- `COPY_ENGINE_PACKET`: a packet of class 5 is served as a memory access (01 R24). -/
def execCopyEnginePacket (s : State) : Host.Outcome State Fault Refusal :=
  s.receive [(5, opRead), (5, opWrite), (5, opReduce)] fun s p =>
    let w := p.opdata % 256
    let val := fun (o n : Nat) => leValue ((p.data.drop o).take n)
    if p.op == opRead then s.serveRead p
    else if p.op == opWrite then s.serveWrite p (p.data.take w) (BitVec.ofNat 64 (val w 8)) 0 []
    else
      let c := val w 4
      let ty := Ty.ofCode (BitVec.ofNat 4 (val (w + 8) 1))
      let rnd := (Rnd.ofCode (BitVec.ofNat 3 (c / 4))).getD .rn
      s.serveRmw p w (BitVec.ofNat 64 (val (w + 9) 8)) fun old =>
        let (v, fl) := reduceElem ty (c % 4) rnd (c / 32 % 2 == 1) (BitVec.ofNat 22 (val (w + 4) 4)) (c / 64) old (val 0 w)
        (some v, fl, old)

/-- `FABRIC_RESPONSE` (12 R330). -/
def execFabricResponse (s : State) : Host.Outcome State Fault Refusal := s.receive [(2, 0)] State.respondTo

/-- `REMOTE_WRITE_ACK`: a write in another package is performed, or durable (11 R286, 06 R198). -/
def execRemoteWriteAck (s : State) : Host.Outcome State Fault Refusal := s.receive [(2, 0)] State.respondTo

/-- `TLB_INVALIDATE_MESSAGE`: this package writes back what its cores stored under the context and drops the translations; it answers when
what was translated before is performed (13 R354). The generation in the header names the invalidation among those of its sender. -/
def execTlbInvalidateMessage (s : State) : Host.Outcome State Fault Refusal :=
  s.receive [(0, opInval)] fun s0 p =>
    let s := s0.backCtx p.ctx
    let old := s.invalOf p.ctx
    let s1 := (s.updCtx p.ctx fun c => c.takeInv p.src p.xgen).dropTlb p.ctx (leValue (p.data.take 8)) (leValue ((p.data.drop 8).take 8))
    { s1 with invals := s1.invals ++ [{ old with sender := some (p.src, p.tag) }] }

/-! ### Multicast (06 R190, 12 R336-R338) -/

/-- Send a copy that counts against a version of the multicast table. -/
def State.askCopy (s : State) (p : Packet) (what : RemoteFor) (version : Nat) : State :=
  let s1 := s.ask p what
  { s1 with egress := s.egress ++ (s1.egress.drop s.egress.length).map fun e => { e with version := some version } }

/-- The members of a multicast entry, ascending. -/
def State.membersOf (s : State) (ctx entry : Nat) : List Nat :=
  let w := (aget (s.ctx ctx).mcast entry).getD 0
  (List.range 64).filter fun j => w.getLsbD j

/-- The cells of an `STM.row` by offset in its 1024-byte row. -/
def Mcast.cells (m : Mcast) : List (Nat × Byte) :=
  m.stores.foldl (fun (cs : List (Nat × Byte)) x =>
    (cellsAt (x.1.pa % 1024) x.2).foldl (fun cs c => aset cs c.1 c.2) cs) []

/-- Keep a request open to every other member for its copy of an `STM.row`, under one tag: each answers when it has performed it, or the
home replica for one that it cannot reach (11 R286, 12 R338). -/
def State.awaitMembers (s : State) (m : Mcast) (tag base page : Nat) (js : List Nat) : State :=
  { s with remotes := s.remotes ++ js.map fun j => { tag := tag, peer := j, addr := paOf j (locOf base), what := .write m.gid page } }

/-- Send one copy of an `STM` to member `j`; the own package's is written locally. -/
def State.sendCopy (s : State) (m : Mcast) (j : Nat) (rest : List Nat) : State :=
  let after := fun (left : List Nat) (ms : List Mcast) =>
    if left.isEmpty then ms.filter fun x => x.id != m.id
    else ms.map fun x => if x.id == m.id then { m with left := some left } else x
  let next := fun (s : State) (left : List Nat) => ({ s with mcasts := after left s.mcasts } : State)
  let core := ((aget s.groups m.gid).map s.coreOf).getD 0
  let pkt : Packet := { dest := j, src := s.own, cls := 4, svc := m.svc, ctx := m.ctx, xgen := m.xgen, agent := core }
  let row := m.stores.headD ({ pa := 0, kind := 0, pt := false, attr := 0 }, [])
  let base := row.1.pa / 1024 * 1024
  let page := m.pages.headD 0
  let stores := (List.range m.stores.length).filterMap fun n => m.stores[n]?.map fun x => (x, m.pages.getD n 0)
  if m.row then
    if j == s.own then
      if kioskPlaces ≤ s.kioskLoad (kioskOf (locOf base)) then s.stall
      else
        let tag := s.freeTag
        let (id, s1) := (s.awaitMembers m tag base page rest).fresh
        next (s1.addRow
          { id := id, gid := some m.gid, requester := core, cls := m.svc, kiosk := kioskOf (locOf base), op := 4, pa := paOf j (locOf base)
            size := 1024, lanes := 0, data := m.cells, arrived := s1.clock, agent := m.gid, entry := m.entry, tag := m.tag, ctx := m.ctx
            xgen := m.xgen, pt := row.1.pt, members := rest, fan := (s.own, tag), by_ := core, version := some m.version }) []
    else
      let mask := (rest.map (2 ^ ·)).sum
      let s1 := s.askCopy { pkt with op := opRowStore, addr := paOf j (locOf base), opdata := 1024 * 256 + m.entry
                                     data := leBytes 8 mask ++ leBytes 8 m.tag.toNat ++ m.cells.flatMap fun c => leBytes 2 c.1 ++ [c.2] }
        (.write m.gid page) m.version
      next (s1.awaitMembers m s.freeTag base page rest) []
  else if j == s.own then
    s.whenReady (m.stores.flatMap fun x => span (locOf x.1.pa) x.2.length) true <|
      next (stores.foldl (fun (s : State) x =>
        s.storeAt core { x.1.1 with pa := paOf j (locOf x.1.1.pa) } x.1.2 true m.prio m.gid x.2 m.tag m.svc) s) rest
  else
    next (stores.foldl (fun (s : State) x =>
      s.askCopy { pkt with op := opWrite, addr := paOf j (locOf x.1.1.pa)
                           opdata := x.1.2.length * 256 + m.entry, data := writeData x.1.2 m.tag }
        (.write m.gid x.2) m.version) s) rest

/-- `MULTICAST_COPY`: the `STM` in place `input.index` reads its entry at its first packet, and then sends the copy of its
next member (12 R336). A group's copies leave in the order of its words.  -/
def execMulticastCopy (s : State) : Host.Outcome State Fault Refusal :=
  .next <| match s.mcasts[s.input.index]? with
    | none => s.stall
    | some m => if (s.mcasts.take s.input.index).any fun x => x.gid == m.gid then s.stall else match m.left with
      | some (j :: rest) => s.sendCopy m j rest
      | some [] => { s with mcasts := s.mcasts.filter fun x => x.id != m.id }
      | none =>
        let ms := s.membersOf m.ctx m.entry
        { s with mcasts := if ms.isEmpty then s.mcasts.filter (fun x => x.id != m.id)
            else s.mcasts.map fun x => if x.id == m.id then { m with left := some ms, version := s.mcastVersion } else x }

/-- `MULTICAST_REPLICA_WRITE`: a copy of an `STM` under square scope is a plain store at its replica (06 R190). -/
def execMulticastReplicaWrite (s : State) : Host.Outcome State Fault Refusal :=
  s.receive [(4, opWrite)] fun s p =>
    let w := p.opdata / 256 % 256
    s.serveWrite p (p.data.take w) (BitVec.ofNat 64 (leValue ((p.data.drop w).take 8))) 0 []

/-- The agent that row updates sent on by home replicas have at a member's Kiosk, which applies them in the order received (06 R190, R192;
12 R337). -/
def updateAgent : Nat := 2 ^ 41

/-- `MULTICAST_ROW_UPDATE`: an `STM.row` joins the home replica's queue, with the members it goes on to, or a member's
queue (12 R337). -/
def execMulticastRowUpdate (s : State) : Host.Outcome State Fault Refusal :=
  s.receive [(4, opRowStore), (4, opRowUpdate)] fun s p =>
    if p.op == opRowStore then
      let mask := leValue (p.data.take 8)
      s.queueRow p (queuedRow p 4 (p.opdata / 256) (p.opdata % 256) s.clock 0 (p.data.drop 8)
        ((List.range 64).filter fun j => mask.testBit j))
    else s.queueRow p fun id => { queuedRow p 4 (p.opdata / 256) (p.opdata % 256) s.clock 0 p.data [] id with agent := updateAgent }

end Sys2Proof.Machine
end

