-- ==== Sys2Proof/Machine/Integrity.lean ====
section
/-!
DEFINITION. Memory requests and their deadlines, codes and what strikes them, row counters, thermal holds, patrol scrub, and
the retirement of a channel (12 R313-R315; 17 R417-R426).
-/
namespace Sys2Proof.Machine

/-! ### Channel schedulers (12 R314, R315) -/

/-- A request that no earlier one of its requester to its line precedes. -/
def MemReq.first (r : MemReq) (before : List MemReq) : Bool :=
  !before.any fun x => x.channel == r.channel && x.requester == r.requester && x.line == r.line

/-- `r` is served ahead of `x`. -/
def MemReq.ahead (now : Nat) (r x : MemReq) : Bool :=
  let old := fun (q : MemReq) => decide (q.arrived + 65536 ≤ now)
  if old r != old x then old r
  else if old r then r.arrived < x.arrived
  else if r.cls != x.cls then r.cls < x.cls
  else if r.deadline != x.deadline then r.deadline < x.deadline
  else r.arrived < x.arrived

/-- The request that a channel scheduler serves next. -/
def nextReq (now channel : Nat) : List MemReq → List MemReq → Option MemReq → Option MemReq
  | _, [], best => best
  | before, r :: rest, best =>
    let best1 := if r.channel == channel && r.first before then
        match best with
        | none => some r
        | some b => if r.ahead now b then some r else best
      else best
    nextReq now channel (before ++ [r]) rest best1

/-- Count a miss of a request served after its deadline (12 R315). -/
def State.served (s : State) (r : MemReq) : State :=
  let s1 : State := { s with memReqs := s.memReqs.erase r }
  if s.now.toNat ≤ r.deadline then s1 else { s1 with misses := bump s1.misses (4 * r.requester + r.cls) }

/-! ### Errors of on-chip stores (17 R419) -/

/-- Every cached copy of a line of this package is invalidated, dirty bytes included; other packages' agents are told. -/
def State.dropEverywhere (s : State) (ln : Nat) : State :=
  let e := s.entry ln
  let who := e.agents ++ if e.isOwned then [e.owner] else []
  let away := who.filter fun a => a / 4 != s.own
  let s1 := away.foldl (fun (s : State) x =>
    s.sendCoh { op := .inval, line := paOf s.own (128 * ln), src := s.homeOf ln, dst := x, req := homeAgent }) s
  let s2 := s1.setEntry ln (if away.isEmpty then { waiting := e.waiting } else { st := .busy, prior := .inv, acks := away, waiting := e.waiting })
  let s3 := s2.dropOwn ln who
  { s3 with l1 := s3.l1.filter fun x => x.1.2 != ln, l2 := s3.l2.filter fun x => x.1.2 != s.lineKey ln }

/-- A record of kind 0x05 for a store. -/
def State.struck (s : State) (store unitType unit : Nat) : State :=
  s.record { kind := 5, aux := store, unitType := unitType, unit := unit, severity := 1 }

/-- The unit that a translation cache belongs to: a core, or a Kiosk (17 Table 17.4). The L2 TLB of a die counts as its first core's
(DESIGN CHOICE: log 65). -/
def TlbKey.unit : TlbKey → Nat × Nat
  | .l1 c => (0, c) | .ahead c => (0, c) | .l2 d => (0, 64 * d) | .kiosk k => (4, k)

/-- An uncorrectable error strikes an on-chip store: 0 a register lane (group `unit`, position `index`, lane `addr`), 1 a
scratch granule, 2 an accumulator element (team `unit`, quarter `addr`, tile and element in `index`) or, from tile 16, an
element of the active or shadow plane, 3 a line of L1 (core `unit`, line `index`), 4 a line of L2 (its line `index`), 5 a
directory entry, 6 an entry of a TLB, 7 an entry of a persist queue. -/
def State.strike (s : State) (i : Input) (store : Nat) : State :=
  match store with
  | 0 => match aget s.groups i.unit with
    | none => s.stall
    | some g => (s.updGroup i.unit fun g =>
        { g with marks := g.marks ++ [{ poisonMark 0 0 0 with reg := i.index, lane := i.addr % 32 }] }).struck 0 0 (s.coreOf g)
  | 1 => (s.updTeam i.unit fun t => { t with spoiled := addSet t.spoiled i.index }).struck 1 0 (s.team i.unit).core
  | 2 =>
    let tile := i.index / 4096
    let e := i.index % 4096
    (s.updTeam i.unit fun t => { t with units := aset t.units i.addr (
      let u := agetD t.units i.addr {}
      if tile == 16 then { u with active := { u.active with spoiled := addSet u.active.spoiled e } }
      else if tile == 17 then { u with shadow := { u.shadow with spoiled := addSet u.shadow.spoiled e } }
      else { u with spoiled := aset u.spoiled tile (addSet (agetD u.spoiled tile []) e) }) }).struck 2 0 (s.team i.unit).core
  | 3 => match aget s.l1 (i.unit, i.index) with
    | none => s.stall
    | some l =>
      if l.dirty == 0 then
        (s.dropLine i.unit i.index).recordCorrected { kind := 4, aux := 3, unitType := 0, unit := i.unit, severity := 0 }
      else s.whenReady [128 * i.index] true <|
        let cells := l.cells i.index
        (((s.dropLine i.unit i.index).dirTake [128 * i.index]).homeWrite { cells := cells, spoiled := true }).struck 3 0 i.unit
  | 4 =>
    let s := s.recallAway i.unit i.index
    let l := s.agentLine i.unit i.index
    let e := agetD s.l2 (i.unit, i.index) {}
    let changed := l.st == .modified || l.st == .owned
    let u := 32 * i.unit + homeSlice (locOf (128 * i.index))
    let line := locOf (128 * i.index) / 128
    if (aget s.l2 (i.unit, i.index)).isNone && l.st == .inv then s.stall
    else if pkgOf (128 * i.index) != s.own then
      if changed then (s.setAgent i.unit i.index { l with spoiled := (List.range 4).foldl addSet l.spoiled }).struck 4 1 u
      else (({ s with l2 := aerase s.l2 (i.unit, i.index) } : State).setAgent i.unit i.index { l with st := .inv, data := [], spoiled := [] }).recordCorrected
        { kind := 4, aux := 4, unitType := 1, unit := u, severity := 0 }
    else if changed || !e.dirty.isEmpty then
      let beats := if changed then (List.range 4).map (4 * line + ·) else e.dirty.flatMap fun g => [2 * g, 2 * g + 1]
      ({ s with poison := beats.foldl addSet s.poison, badCheck := s.badCheck.filter fun b => !beats.contains b.1 } : State).struck 4 1 u
    else (s.l2Drop i.unit i.index false).recordCorrected { kind := 4, aux := 4, unitType := 1, unit := u, severity := 0 }
  | 5 =>
    let line := paOf s.own (128 * i.index)
    let s2 := s.dropEverywhere i.index
    let s3 : State := { s2 with poison := (List.range 4).foldl (fun p k => addSet p (4 * i.index + k)) s2.poison
                                badCheck := s2.badCheck.filter fun b => b.1 / 4 != i.index }
    let u := 32 * homeDie (128 * i.index) + homeSlice (128 * i.index)
    (s3.record { kind := 0xB, addr := line, unitType := 1, unit := u, severity := 1 }).struck 5 1 u
  | 6 => match s.tlbs[i.index]? with
    | none => s.stall
    | some e => ({ s with tlbs := s.tlbs.eraseIdx i.index } : State).recordCorrected
      { kind := 4, aux := 6, unitType := e.1.unit.1, unit := e.1.unit.2, severity := 0 }
  | _ => match s.persists[i.index]? with
    | none => s.stall
    | some x => ({ s with persists := (List.range s.persists.length).filterMap fun k => s.persists[k]?.map fun p =>
      if k == i.index then { p with spoiled := beatsOf (p.cells.map Prod.fst) } else p } : State).struck 7 3 x.stack

/-- The unit whose on-chip store it is, for an error that the store's code corrects: `input.unit` as Table 17.4 numbers it, a TLB of a
Kiosk under `input.addr` 1 (17 R419). -/
def storeUnitType (store addr : Nat) : Nat :=
  match store with
  | 4 => 1 | 5 => 1 | 6 => if addr == 1 then 4 else 0 | 7 => 3 | _ => 0

/-- An error comes into being: under 1 to 3 in the cells of the line of `input.addr`, in the beats of `input.value`, one that the symbol
code, that channel parity, or that nothing corrects; under 4 on the way of the next write to the beat, and under 5 in its side bits, as a
change of the check value by `input.value`. What reads or writes there meets it (17 R412-R418). -/
def State.errs (s : State) (i : Input) : State :=
  let b := i.addr / 32
  let beats := (List.range 4).filter fun k => i.value.getLsbD k
  let flaw := fun (k : FlawKind) => ({ s with flaws := aset s.flaws (i.addr / 128) { kind := k, beats := beats } } : State)
  let place := placeOf i.addr
  if i.code == 4 then
    if place == .hole || place == .ctl || i.value.toNat % 2 ^ 16 == 0 then s.stall else { s with transit := aset s.transit b (i.value.toNat % 2 ^ 16) }
  else if (place != .hbm && place != .scm) || (i.code < 4 && beats.isEmpty) then s.stall
  else match i.code with
    | 1 => flaw .symbol
    | 2 => flaw .parity
    | 3 => flaw .hard
    | _ => { s with badCheck := aset s.badCheck b (s.beatCheck b ^^^ i.value.toNat % 2 ^ 16) }

/-- `MEMORY_REQUEST_SERVICE`: under code 0 the channel scheduler `input.unit` serves its next request (12 R314, R315); what the codes found
of it was settled when its bytes were taken. Codes 1 to 5 bring errors into the memory and its data, and codes from 16 into on-chip stores:
16 + store corrected, 32 + store not (17 R417, R419). -/
def execMemoryRequestService (s : State) : Host.Outcome State Fault Refusal :=
  let i := s.input
  .next <|
    if 32 ≤ i.code then s.strike i (i.code - 32)
    else if 16 ≤ i.code then
      s.recordCorrected { kind := 4, aux := i.code - 16, unitType := storeUnitType (i.code - 16) i.addr, unit := i.unit, severity := 0 }
    else if 6 ≤ i.code then s.stall
    else if 1 ≤ i.code then s.errs i
    else match nextReq s.now.toNat i.unit [] s.memReqs none with
      | none => s.stall
      | some r =>
        if (s.stack (stackOf (128 * r.line))).held then s.stall
        else s.served r

/-- `COUNTER_CLEAR`: a 32-bit write of zero clears the counter at `input.addr`: a miss or replica-lag counter, or the count of
a stack (12 R315, Table 12.2; 17 Table 17.3). -/
def State.clearCounter (s : State) (a : Nat) (v : Nat) : State :=
  let q := a / 16 % 512
  let c := a / 4 % 4
  if v % 2 ^ 32 != 0 || a % 4 != 0 then s
  else if 0x80000100000 ≤ a && a < 0x80000100000 + 16 * 270 then { s with misses := aerase s.misses (4 * q + c) }
  else if 0x80000200000 ≤ a && a < 0x80000200000 + 0x2000 * 12 && a % 0x2000 < 16 * 257 then
    { s with lags := aerase s.lags ((a - 0x80000200000) / 0x2000, 4 * q + c) }
  else
    let k := (a - 0x80000600000) / 64
    let hbm := 0x80000600000 ≤ a && a < 0x80000600200
    let scm := 0x80000600200 ≤ a && a < 0x80000600300
    if !hbm && !scm then s
    else if a % 64 == 0x10 then s.updStack k fun x => { x with corrected := 0 }
    else if a % 64 == 0x18 then s.updStack k fun x => { x with poisoned := 0 }
    else s

/-- `COUNTER_CLEAR`. -/
def execCounterClear (s : State) : Host.Outcome State Fault Refusal :=
  .next (s.whenRunning (s.clearCounter s.input.addr s.input.value.toNat))

/-! ### Row counters (17 R420) -/

/-- `ROW_ACTIVATION_REFRESH` of row `input.index` in bank `input.addr` of channel `input.unit`, 32 × stack + channel: an activation under code 0, a
precharge under code 1, and a precharge at which the counter's parity fails under code 2. Values do not change; the refresh
brings the counter back to zero. -/
def execRowActivationRefresh (s : State) : Host.Outcome State Fault Refusal :=
  let i := s.input
  let key := (i.unit, i.addr, i.index)
  let n := agetD s.rowActs key 0
  let reset : State := { s with rowActs := aerase s.rowActs key }
  .next <| match i.code with
    | 0 => { s with rowActs := aset s.rowActs key (min 4095 (n + 1)) }
    | 1 => if 4000 ≤ n then reset else s
    | _ => reset.recordCorrected
        { kind := 6, aux := i.addr * 2 ^ 32 + i.index, unitType := 2, unit := i.unit, severity := 0 }

/-! ### Thermal holds (17 R421) -/

/-- `STACK_THERMAL_HOLD`: stack `input.unit` reaches `input.value` degrees. -/
def execStackThermalHold (s : State) : Host.Outcome State Fault Refusal :=
  let k := s.input.unit
  .next <|
    if 12 ≤ k || (s.stack k).held || s.input.value.toNat < (if k < 8 then 105 else 95) then s.stall
    else s.updStack k fun x => { x with held := true, heldSince := s.now.toNat, holdTold := false }

/-- `STACK_THERMAL_RELEASE`: it falls to `input.value` degrees. -/
def execStackThermalRelease (s : State) : Host.Outcome State Fault Refusal :=
  let k := s.input.unit
  .next <|
    if !(s.stack k).held || (if k < 8 then 95 else 85) ≤ s.input.value.toNat then s.stall
    else (s.updStack k fun x => { x with held := false }).record
      { kind := 0xD, aux := s.now.toNat - (s.stack k).heldSince, severity := 0
        unitType := if k < 8 then 2 else 3, unit := if k < 8 then 32 * k else k - 8 }

/-- `TEMP_HOLD`: the hold of stack `input.unit` has lasted 10 ms. -/
def execTempHold (s : State) : Host.Outcome State Fault Refusal :=
  let k := s.input.unit
  .next <|
    if !(s.stack k).held || (s.stack k).holdTold || s.now.toNat < (s.stack k).heldSince + 10 * msClocks then s.stall
    else (s.updStack k fun x => { x with holdTold := true }).post { kind := .tempHold, args := [k] }

/-! ### The error ring (17 R422) -/

/-- `ERROR_RING_HEAD_WRITE` of `input.value`. -/
def execErrorRingHeadWrite (s : State) : Host.Outcome State Fault Refusal :=
  .next (s.whenRunning { s with errRing := { s.errRing with head := s.input.value.toNat, told := false } })

/-! ### Patrol scrub (17 R425) -/

/-- The local address of stack-local line `n` of a stack. -/
def stackAddr (k n : Nat) : Nat :=
  if 8 ≤ k then 0x40000000000 + (k - 8) * 2 ^ 39 + 128 * n
  else
    let y := 128 * n
    let high := y / 4096 * 32768 + y % 4096
    -- bits [14:12] make the stack number of 12 R309
    high + ((k ^^^ field high 15 3 ^^^ field high 18 3) * 4096)

/-- Lines of a stack; those that a retirement withdrew are none any more (17 R424). -/
def State.stackLines (s : State) (k : Nat) : Nat := if 8 ≤ k then 2 ^ 32 else if (s.stack k).mode == 0 then 31 * 2 ^ 24 else 30 * 2 ^ 24

/-- The scrub of a line: a corrected value is written back, which leaves no error; a line that the codes cannot correct is not written
(17 R425). -/
def State.scrubLine (s : State) (a : Nat) : State :=
  match aget s.flaws (a / 128) with
  | none => s.meetFlaw a 0
  | some f => match f.kind with
    | .hard => { s.codesFind a f 0 with flaws := s.flaws, poison := s.poison, mediaPoison := s.mediaPoison, badCheck := s.badCheck }
    | _ => { s.codesFind a f 0 with flaws := aerase s.flaws (a / 128) }

/-- `PATROL_SCRUB`: the scrub of stack `input.unit` reads its next line. -/
def execPatrolScrub (s : State) : Host.Outcome State Fault Refusal :=
  let k := s.input.unit
  let st := s.stack k
  .next <|
    if 12 ≤ k || st.scrub == 0 || st.held then s.stall
    else (s.updStack k fun x => { x with scrubAt := (x.scrubAt + 1) % s.stackLines k }).scrubLine (stackAddr k (st.scrubAt % s.stackLines k))

/-! ### Retirement of a channel (17 R424) -/

/-- Every cached copy of the withdrawn lines is dropped, dirty bytes included. -/
def State.dropWithdrawn (s : State) : State :=
  let gone := fun (l : Nat) => s.withdrawn (128 * l)
  let s1 : State := { s with l1 := s.l1.filter fun e => !gone e.1.2 }
  (uniq ((s1.dir.map Prod.fst ++ s1.l2.map fun e => locOf (128 * e.1.2) / 128).filter gone)).foldl State.dropEverywhere s1

/-- A write of a stack's command register; one with retire set orders the retirement of its channel. -/
def State.stackCommand (s : State) (k v : Nat) : State :=
  let st := s.stack k
  if 8 ≤ k then s.updStack k fun x => { x with scrub := field v 16 16 }
  else if field v 8 1 == 0 then s.updStack k fun x => { x with scrub := field v 16 16 }
  else if st.mode != 0 || field v 5 3 != 0 || field v 9 7 != 0 || field v 32 32 != 0 then s.updStack k fun x => { x with refused := true }
  else (s.updStack k fun x =>
    { x with scrub := field v 16 16, refused := false, mode := 1, retired := field v 0 5, watermark := 2 ^ 24 }).dropWithdrawn

/-- `CHANNEL_RETIRE`: the command `input.value` for stack `input.unit`. -/
def execChannelRetire (s : State) : Host.Outcome State Fault Refusal :=
  .next (if 8 ≤ s.input.unit then s.stall else s.whenRunning (s.stackCommand s.input.unit s.input.value.toNat))

/-- Data lines below λ = 30 × 2^24 that the 31+1 layout holds in a channel: the lines that the migration rebuilds. -/
def rebuiltLines (x : Nat) : Nat :=
  let n := 30 * 2 ^ 24
  let full := n / 31
  let parity := (full + 31 - x) / 32
  full - parity + (if (x + 63 - full % 32) % 32 < n % 31 then 1 else 0)

/-- `MIGRATE_STRIPE`: stack `input.unit` moves its next stripe and lowers the watermark; after the last it enters mode 2. -/
def execMigrateStripe (s : State) : Host.Outcome State Fault Refusal :=
  let k := s.input.unit
  let st := s.stack k
  .next <|
    if st.mode != 1 || st.held || st.watermark == 0 then s.stall
    else if 1 < st.watermark then s.updStack k fun x => { x with watermark := x.watermark - 1 }
    else (s.updStack k fun x => { x with watermark := 0, mode := 2 }).record
      { kind := 0xC, aux := 2 ^ 24, count := rebuiltLines st.retired, unitType := 2, unit := 32 * k + st.retired, severity := 0 }

end Sys2Proof.Machine
end

