-- ==== Sys2Proof/Machine/Paging.lean ====
section
/-!
DEFINITION. Page replies: what waits on a page walks again or fails, and the side log is replayed or discarded (07 R223;
06 R181; 13 R346-R352, R361).
-/
namespace Sys2Proof.Machine

/-! ### The side log (13 R351, R352) -/

/-- The entry leaves the log; the registers of its `ATOM` no longer wait for it. -/
def State.dropLog (s : State) (e : LogEntry) : State :=
  ({ s with sideLog := s.sideLog.filter fun x => x.id != e.id } : State).updGroup e.gid fun g => g.unpend (.log e.id)

/-- The core that performs an entry: the one whose log holds it. -/
def LogEntry.xlatBy (e : LogEntry) : List TlbKey := coreTlbs e.core

/-- Perform an entry as its original access through a translation, at its scope and with the registers of an `ATOM` (13 R351). A store
is performed then, at its home (11 R302). -/
def State.replayAt (s0 : State) (e : LogEntry) (x : Xlat) : State :=
  let s := s0.dropLog e
  let g := agetD s.groups e.gid { team := 0, idx := 0 }
  let page := e.addr / 4096
  let bs := leBytes e.width e.data
  let k := (e.width + 3) / 4
  let origin : BitVec 22 := e.origin.extractLsb' 0 22
  match e.atom with
  | none =>
    if x.kind == 2 then
      s.ask { s.header g x.pa opWrite e.cls with opdata := e.width, data := writeData bs e.tag }
        (if placeOf (locOf x.pa) == .scm && !s.isEndpoint (pkgOf x.pa) then .scmWrite e.gid page else .write e.gid page)
    else s.storeAt e.core x bs true e.prio e.gid page e.tag e.cls
  | some (op, reg, lane) =>
    if x.kind == 2 then
      let tag := s.freeTag
      (s.updGroup e.gid fun g => { g with pend := g.pend ++ (List.range k).map fun j =>
          { scalar := false, reg := reg + j, by_ := .remote tag } }).ask
        { s.header g x.pa opAtomic e.cls with
          opdata := op * 256 + e.width, data := writeData (bs ++ leBytes 4 origin.toNat) e.tag }
        (.atom e.gid reg lane e.width e.word e.addr)
    else
      let new := atomNew op (8 * e.width) origin
      let (r, s1) := s.rmwAt e.core x e.width e.scope e.gid page e.tag (fun old => some (new old e.data).1) (some e.cls)
      s1.updGroup e.gid fun g =>
        if r.bad then g.markPos reg k lane (poisonMark e.addr e.word 0)
        else (g.putAt reg lane r.bytes).raiseLate (new (leValue r.bytes) e.data).2

/-- The entries of a page of a context that the logs hold, in log order; those of a saved gang are out of the logs. -/
def State.logOf (s : State) (ctx vpage : Nat) : List LogEntry :=
  s.sideLog.filter fun e => e.ctx == ctx && e.addr / 4096 == vpage && e.core < 256

/-- A lane above it in its word stores to the same location (06 R157). -/
def LogEntry.covered (e : LogEntry) (es : List LogEntry) : Bool :=
  e.atom.isNone && es.any fun x => x.batch == e.batch && x.addr == e.addr && e.id < x.id

/-- Walk again for the entries of a page and replay them; a walk that fails sends a new request. -/
def State.replay : List LogEntry → State → State
  | [], s => s
  | e :: es, s => match s.translate e.xlatBy e.ctx e.supervisor .write e.addr with
    | .wait s' => s'
    | .fail st lv _ s1 => (s1.pageRequest e.ctx e.addr (if e.atom.isSome then akAtomic else akStore) st lv e.gid).getD s1
    | .ok x s1 => State.replay es (if e.covered es then s1.dropLog e else s1.replayAt e x)

/-- A page request of a logged access that found no free place is sent once there is one (13 R346, R362). -/
def State.settleLogs (s : State) : State :=
  (s.sideLog.filter fun e => e.core < 256).foldl (fun (s : State) e =>
    (s.pageRequest e.ctx e.addr e.fault.1 e.fault.2.1 e.fault.2.2 e.gid).getD s) s

/-- What the entries' cores hold of lines of other packages goes home first (11 R292). -/
def State.replayFlush (s : State) (ws : List (LogEntry × Xlat)) : State :=
  ws.foldl (fun (s : State) p => if p.2.kind == 2 then s.flushAway p.1.core p.2 else s) s

/-- Whether the lines of the entries, and of their walks, are ready; those of other packages once earlier writes of the group are
performed there. -/
def State.replayReady (s : State) (es : List LogEntry) : Ready :=
  let walks := es.map fun e => (e, s.translate e.xlatBy e.ctx e.supervisor .write e.addr)
  match walks.findSome? fun p => match p.2 with | .wait s' => some s' | _ => none with
  | some s' => .demand s'
  | none =>
    let done := walks.filterMap fun p => match p.2 with | .ok x _ => some (p.1, x) | _ => none
    let s1 := s.replayFlush done
    if done.any fun p => p.2.kind == 2 && s1.lineOut p.1.gid p.1.core p.2.pa then .demand s1
    else s.linesReady false (done.flatMap fun p =>
      if p.2.kind == 2 then [] else (homedLines (span (locOf p.2.pa) p.1.width)).map fun l => (l, true))

/-- Discard the entries of a page with status `f`: the record of the page, what each group lost, and the marks of its
`ATOM`s (13 R352). -/
def State.discardLog (s : State) (ctx vpage f : Nat) : State :=
  let es := s.logOf ctx vpage
  if es.isEmpty then s
  else
    let unit := ((es.head?).map LogEntry.core).getD 0
    let s1 := s.record { kind := 7, aux := f, addr := vpage * 4096, virt := true, count := es.length, unitType := 0, unit := unit
                         ctx := ctx, gen := (s.ctx ctx).gen.toNat }
    es.foldl (fun (s : State) e => (s.dropLog e).updGroup e.gid fun g =>
      let g1 := g.lose vpage 1 f
      match e.atom with
      | none => g1
      | some (_, reg, lane) =>
        g1.markPos reg ((e.width + 3) / 4) lane { scalar := false, reg := 0, lane := 0, kind := .discarded f, addr := e.addr, aux := e.last.toNat }) s1

/-! ### What waits on a page -/

/-- `PAGE_FAULT` of a held word (13 Table 13.10). -/
def pageFault (va kind status : Nat) (last : Word64) (lanes : Word32) : TrapInfo :=
  { code := tcPageFault, status := status, lanes := lanes, s58 := va, s59 := kind, s60 := last.toNat }

/-- A group held on the page walks again, or raises `PAGE_FAULT`; while its gang is saved the failure is kept for the held
word (13 R347, R360). -/
def State.pageGroup (s : State) (ctx vpage f gid : Nat) : State :=
  match aget s.groups gid with
  | none => s
  | some g => match g.hold with
    | .page va kind last lanes word =>
      if s.ctxOf g != ctx || va / 4096 != vpage then s
      else if f == 0 then s.putGroup gid { g with hold := .none }
      else if (s.gangOf g).run == .saved then s.putGroup gid { g with hold := .pageFailed va kind last lanes word f }
      else s.trapWith gid { g with hold := .none } (pageFault va kind f last lanes) word false
    | _ => s

/-- The context of a group's operations. -/
def State.ctxOfGid (s : State) (gid : Nat) : Option Nat := (aget s.groups gid).map s.ctxOf

/-- A copy operation suspended on the page goes on, or completes with status 1 once the writes of its earlier units are acknowledged
(11 R297). -/
def State.pageCopy (s : State) (vpage f : Nat) (o : CopyOp) : State :=
  if o.heldPage != some vpage then s
  else if f == 0 then s.setCopy o { o with heldPage := none }
  else
    let o1 := { o with heldPage := none, failed := some (vpage, f) }
    let s1 := s.setCopy o o1
    if s1.remotes.any fun r => r.what == .copyUnit o.gid o.seqNo then s1 else s1.endCopy o1

/-- A chase that waits at its origin goes on, or its lane ends with status 1 (06 R181). -/
def State.pageChase (s : State) (vpage f : Nat) (c : Chase) : State :=
  if c.heldPage != some vpage then s
  else if f == 0 then { s with chases := s.chases.map fun y => if y == c then { c with heldPage := none } else y }
  else s.endChase c c.hops (.failed 1 c.addr (reply := f))

/-- A list operation that waits at its origin goes on, or ends with status 1. -/
def State.pageList (s : State) (vpage f : Nat) (o : ListOp) : State :=
  if o.heldPage != some vpage then s
  else if f == 0 then { s with listOps := s.listOps.map fun y => if y == o then { o with heldPage := none } else y }
  else s.listEnd o 1 f

/-- A stream that waits at its word fetches again, or stops there with status 1 (07 R223). -/
def State.pageStream (s : State) (vpage f t q : Nat) (st : Stream) : State :=
  if st.heldPage != some vpage then s
  else if f == 0 then s.updStream t q fun x => { x with heldPage := none }
  else (s.endStream t q st 1 (some { code := tcPageFault, status := 1, lanes := 0, s58 := 8 * st.pc, s59 := akFetch, s60 := f
                                     s61 := (mkHandle (0x10 + q) st.seqNo).toNat })).updStream t q fun x => { x with heldPage := none }

/-- A pre-emption is abandoned: the gang issues again where it stopped, and who waits for it learns so (13 R361). -/
def State.preemptFailed (s : State) (k : Nat) (x : Gang) (vpage : Nat) : State :=
  ({ s.updGang k (fun x => { x with run := .running, heldPage := none }) with
      groups := s.groups.map fun e =>
        if e.2.preempting == some (k, none) then (e.1, { e.2 with preempting := some (k, some 3) }) else e } : State).post
    { kind := .preemptFailed, args := [x.ctx, x.recAddr, vpage] }

/-- A save or a resumption that waits on the page walks again; a failed reply abandons a save. -/
def State.pageGang (s : State) (vpage f k : Nat) (x : Gang) : State :=
  if x.heldPage != some vpage then s
  else if f == 0 || x.run != .stopping then s.updGang k fun x => { x with heldPage := none }
  else s.preemptFailed k x vpage

/-- Everything that waits on a page of a context hears a reply with result `f`. -/
def State.pageWaiters (s : State) (ctx vpage f : Nat) : State :=
  let mine := fun (gid : Nat) => s.ctxOfGid gid == some ctx
  let s1 := (s.copyOps.filter fun o => mine o.gid).foldl (fun s o => s.pageCopy vpage f o) s
  let s2 := (s1.chases.filter fun c => c.origin.isNone && mine c.gid).foldl (fun s c => s.pageChase vpage f c) s1
  let s3 := (s2.listOps.filter fun o => mine o.gid).foldl (fun s o => s.pageList vpage f o) s2
  let s4 := (s3.teams.filter fun t => (s3.gang t.2.gang).ctx == ctx).foldl (fun (s : State) t =>
    t.2.units.foldl (fun (s : State) u => match u.2.stream with
      | some st => s.pageStream vpage f t.1 u.1 st
      | none => s) s) s3
  let s5 := (s4.gangs.filter fun e => e.2.ctx == ctx).foldl (fun (s : State) e => s.pageGang vpage f e.1 e.2) s4
  (s5.groups.map Prod.fst).foldl (fun s gid => s.pageGroup ctx vpage f gid) s5

/-- `PAGE_REPLY` for page `input.index` of context `input.unit` and its generation `input.value`, with result `input.code`. -/
def execPageReply (s : State) : Host.Outcome State Fault Refusal :=
  let i := s.input
  .next <|
    if (aget s.ctxs i.unit).isNone || (s.ctx i.unit).gen.toNat != i.value.toNat || !s.requested i.unit i.index then s
    else
      let s1 : State := { s with pageReqs := s.pageReqs.filter fun r => !(r.ctx == i.unit && r.vpage == i.index) }
      if i.code == 0 then
        match s1.replayReady (s1.logOf i.unit i.index) with
        | .ready => (State.replay (s1.logOf i.unit i.index) s1).pageWaiters i.unit i.index 0
        | .demand s' => { s' with pageReqs := s.pageReqs }.stall
        | .wait => s.stall
      else (s1.discardLog i.unit i.index i.code).pageWaiters i.unit i.index i.code

end Sys2Proof.Machine
end

