-- ==== Sys2Proof/Machine/SaveArea.lean ====
section
/-!
DEFINITION. The save area of a team: where its parts lie, what they hold when the team is saved, and the team as it is read back
(13 R360-R362). The spec gives the size of the area and not its layout, which is the model's (log 35).
-/
namespace Sys2Proof.Machine

/-- Bytes of a team's save area (13 R361). -/
def saveBytes (r : Record) (units : Nat) : Nat :=
  let c := 4096 * r.scratch
  65536 + 8192 * r.groups + c + c / 16 + c / 128 + 196608 * units
/-- Where it starts. -/
def saveBase (r : Record) (t units : Nat) : Nat := r.fp + 128 * (8 * r.stack) * r.teams * r.groups + t * saveBytes r units

/-! ### Where the parts lie -/

/-- The registers of group `g`, the scratch bytes, the tag table, the full/empty bits and matrix unit `u`; the maps lie at 0. -/
def groupAt (g : Nat) : Nat := 65536 + 8192 * g
def scratchAt (r : Record) : Nat := groupAt r.groups
def tagsAt (r : Record) : Nat := scratchAt r + 4096 * r.scratch
def fullAt (r : Record) : Nat := tagsAt r + 256 * r.scratch
def unitAt (r : Record) (u : Nat) : Nat := fullAt r + 32 * r.scratch + 196608 * u

/-- Numbers of `w` bytes, one after another. -/
def packed (w : Nat) (xs : List Nat) : List Byte := xs.flatMap (leBytes w)
/-- The number of `w` bytes in place `k` from offset `o`. -/
def placeIn (bs : List Byte) (o w k : Nat) : Nat := leValue ((bs.drop (o + w * k)).take w)

/-! ### What they hold -/

/-- The lanes that are parked. -/
def parkedLanes (ps : List Park) : Nat := ((List.range 32).map fun l => if ps.any fun p => p.lane == l then 2 ^ l else 0).sum

/-- The mode and the lanes of a group: supervisor, whether it holds a save set, its living and its parked lanes, and its save set: `em`,
the resume word, the parked lanes, `s56` to `s63` and the word indices. -/
def Group.handlerImage (g : Group) : List Byte :=
  let x := g.save.getD { lpc := [], parks := [], em := 0, sregs := [], resume := 0 }
  packed 4 [g.supervisor.toNat, g.save.isSome.toNat, g.live.toNat, parkedLanes g.parks, x.em.toNat, x.resume, parkedLanes x.parks, 0]
    ++ packed 8 ((List.range 8).map fun n => (x.sregs.getD n 0).toNat) ++ packed 4 (laneIds.map fun l => x.lpc.getD l 0)

/-- The scalar registers, handles, masks, word indices, stochastic state and control registers of a group. -/
def Group.image (g : Group) : List Byte :=
  packed 8 ((List.range 64).map fun n => (g.s n).toNat) ++ packed 8 ((List.range 16).map fun n => (g.h n).toNat)
    ++ packed 8 [g.origin.toNat, g.fpflags.toNat, g.svc.toNat, g.lastnan.toNat]
    ++ packed 4 (laneIds.map g.pcOf) ++ packed 4 (laneIds.map fun l => (g.rng.at l).toNat)
    ++ packed 4 ((List.range 9).map fun n => (g.m n).toNat) ++ leBytes 4 0 ++ g.handlerImage

/-- The tiles and the two planes of a matrix unit. -/
def MUnit.image (u : MUnit) : List Byte :=
  let plane := fun (p : Plane) => packed 4 ((p.elems ++ List.replicate 4096 0).take 4096) ++ packed 1 ((p.scales ++ List.replicate 16384 0).take 16384)
  packed 4 ((List.range 8).flatMap fun k => (tileWords (agetD u.tiles k [])).map BitVec.toNat) ++ plane u.active ++ plane u.shadow

/-- The maps of a team with their live words. -/
def Team.mapsImage (t : Team) : List Byte :=
  packed 4 ((List.range 16).flatMap fun n =>
    let m := t.tmap n
    (List.range 16).map (mapWord m.words) ++ [m.amax.toNat, m.orig.toNat])

/-- The numbered barriers, the team barrier and the matrix streams of a team: of a stream its word index, rounding state, origin and
number. -/
def Team.waitImage (t : Team) : List Byte :=
  let stream := fun (k : Nat) => match (t.units[k]?).bind fun u => u.2.stream with
    | some st => packed 4 [st.pc, st.rng.toNat] ++ packed 8 [st.origin.toNat, st.seqNo]
    | none => leBytes 24 0
  packed 4 ((List.range 16).flatMap fun n => let b := agetD t.nbars n {}; [b.expected, b.arrived, b.phase.toNat])
    ++ packed 4 [t.barArrived, t.barPhase.toNat, t.gbarArrived, 0] ++ (List.range 4).flatMap stream

/-- The numbers issued on the timelines of a team's groups, and the units that its copies have finished. -/
def State.timelineImage (s : State) (t : Nat) : List Byte :=
  packed 8 ((List.range 128).flatMap fun g => [(s.engine (.copy (gidOf t g))).issued, (s.engine (.kiosk (gidOf t g))).issued])
def State.progressImage (s : State) (t : Nat) : List Byte := packed 4 (((s.copyOps.filter fun o => o.gid / 128 == t).map CopyOp.done).take 15360)

/-- The parts of a team's save area, by offset. -/
def State.areaParts (s : State) (t : Nat) : List (Nat × List Byte) :=
  let x := s.team t
  let r := (s.gang x.gang).rec_
  let full := fun (k : Nat) => ((List.range 8).map fun j => if x.full.contains (8 * k + j) then 2 ^ j else 0).sum
  let tag := fun (k : Nat) => match aget x.tags k with
    | some v => leBytes 8 v.toNat ++ leBytes 8 1
    | none => leBytes 16 0
  [(0, x.mapsImage), (1152, x.waitImage), (2048, s.timelineImage t), (4096, s.progressImage t), (scratchAt r, readBytes x.scratch 0 (4096 * r.scratch)), (tagsAt r, (List.range (16 * r.scratch)).flatMap tag),
    (fullAt r, packed 1 ((List.range (32 * r.scratch)).map full))]
    ++ ((s.groupsOf t).map fun e => (groupAt e.2.idx, e.2.image))
    ++ (List.range x.units.length).filterMap fun k => x.units[k]?.map fun u => (unitAt r k, u.2.image)

/-- The bytes of a team's save area; what no part covers is a free value (log 35). -/
def State.areaBytes (s : State) (t n : Nat) : List Byte :=
  let parts := s.areaParts t
  (List.range n).map fun o =>
    (parts.findSome? fun p => if p.1 ≤ o then p.2[o - p.1]? else none).getD (Config.saveByte (s.draws + o))

/-! ### The team as it is read back -/

/-- The mode, the lanes and the save set that lie from offset `o`: a lane that is not parked there parks no more. -/
def Group.handlerOf (g : Group) (bs : List Byte) (o : Nat) : Group :=
  let w := placeIn bs o 4
  let parked := fun (mask : Nat) (ps : List Park) => ps.filter fun p => mask.testBit p.lane
  { g with
    supervisor := (w 0).testBit 0, live := BitVec.ofNat 32 (w 2), parks := parked (w 3) g.parks
    save := if (w 1).testBit 0 then
        some { lpc := laneIds.map fun l => wordMod (placeIn bs (o + 96) 4 l), parks := parked (w 6) ((g.save.map SaveSet.parks).getD [])
               em := BitVec.ofNat 32 (w 4), sregs := (List.range 8).map fun n => BitVec.ofNat 64 (placeIn bs (o + 32) 8 n)
               resume := wordMod (w 5) }
      else none }

/-- A group with the registers that lie from offset `o`; a scalar read from a poisoned beat is marked (log 35). -/
def Group.ofImage (g : Group) (bs : List Byte) (bad : Nat → Bool) (va o : Nat) : Group :=
  let w64 := fun (k : Nat) => BitVec.ofNat 64 (placeIn bs o 8 k)
  let w32 := fun (k : Nat) => BitVec.ofNat 32 (placeIn bs (o + 672) 4 k)
  let g1 := { g with
    sregs := (List.range 64).map fun n => (n, w64 n)
    handles := (List.range 16).map fun n => (n, w64 (64 + n))
    -- reserved bits are ignored (00 R5)
    origin := w64 80 &&& 0x3FFFFF, fpflags := w64 81 &&& 0x3F, svc := w64 82 &&& 0x3, lastnan := w64 83 &&& 0x803FFFFF
    lpc := laneIds.map fun l => wordMod (w32 l).toNat
    rng := Lanes.make fun l => rngStored (w32 (32 + l))
    masks := (List.range 8).map fun n => (n, w32 (64 + n))
    em := w32 72 }.handlerOf bs (o + 968)
  (List.range 64).foldl (fun (g : Group) n =>
    if bad (o + 8 * n) then g.markScalar n (poisonMark (va + o + 8 * n) 0 0) else g) g1

/-- A matrix unit with the tiles and plane elements that lie from offset `o`. -/
def MUnit.ofImage (u : MUnit) (acc : Nat) (bs : List Byte) (bad : Nat → Bool) (o : Nat) : MUnit :=
  let plane := fun (p : Plane) (o : Nat) => { p with
    elems := (List.range p.elems.length).map (placeIn bs o 4)
    scales := (List.range p.scales.length).map (placeIn bs (o + 16384) 1)
    spoiled := p.spoiled ++ (List.range p.elems.length).filter fun k => bad (o + 4 * k) }
  let struck := fun (k : Nat) => (List.range 4096).filter fun n => (agetD u.spoiled k []).contains n || bad (o + 16384 * k + 4 * n)
  { u with
    tiles := (List.range acc).map fun k => (k, (List.range 4096).map fun n => BitVec.ofNat 32 (placeIn bs (o + 16384 * k) 4 n))
    spoiled := ((List.range acc).map fun k => (k, struck k)).filter fun e => !e.2.isEmpty
    active := plane u.active (o + 131072), shadow := plane u.shadow (o + 163840) }

/-- The stream of a unit with the word index, rounding state, origin and number that lie from offset `o`. -/
def MUnit.streamOf (u : MUnit) (bs : List Byte) (o : Nat) : MUnit :=
  { u with stream := u.stream.map fun st =>
      { st with pc := wordMod (placeIn bs o 4 0), rng := rngStored (BitVec.ofNat 32 (placeIn bs o 4 1))
                origin := BitVec.ofNat 64 (placeIn bs o 8 1) &&& 0x3FFFFF, seqNo := placeIn bs o 8 2 } }

/-- A team with the maps, scratch, tags and units of its save area. -/
def Team.ofArea (x : Team) (r : Record) (bs : List Byte) (bad : Nat → Bool) : Team :=
  let grans := List.range (256 * r.scratch)
  { x with
    tmaps := (List.range 16).map fun n => (n,
      { words := (List.range 16).map fun k => mapStored k (BitVec.ofNat 32 (placeIn bs (72 * n) 4 k))
        amax := BitVec.ofNat 32 (placeIn bs (72 * n) 4 16), orig := BitVec.ofNat 32 (placeIn bs (72 * n) 4 17) : TMap })
    scratch := writeBytes [] 0 ((bs.drop (scratchAt r)).take (4096 * r.scratch))
    spoiled := grans.filter fun g => x.spoiled.contains g || bad (scratchAt r + 16 * g)
    tags := ((List.range (16 * r.scratch)).filter fun k => placeIn bs (tagsAt r + 16 * k + 8) 1 0 == 1).map fun k =>
      (k, BitVec.ofNat 64 (placeIn bs (tagsAt r + 16 * k) 8 0))
    full := grans.filter fun g => (placeIn bs (fullAt r + g / 8) 1 0).testBit (g % 8)
    nbars := (List.range 16).map fun n =>
      let w := fun (k : Nat) => placeIn bs (1152 + 12 * n) 4 k
      (n, { expected := w 0, arrived := w 1, phase := w 2 % 2 == 1 : NBar })
    barArrived := placeIn bs 1344 4 0, barPhase := placeIn bs 1344 4 1 % 2 == 1, gbarArrived := placeIn bs 1344 4 2
    units := (List.range x.units.length).filterMap fun k => x.units[k]?.map fun u =>
      (u.1, (u.2.ofImage r.acc bs bad (unitAt r k)).streamOf bs (1360 + 24 * k)) }

/-- The timelines and the copies of a team as its save area gives them: their numbers issued, and the units finished. -/
def State.restoreProgress (s : State) (t : Nat) (bs : List Byte) : State :=
  let issued := fun (k : EKey) (e : Engine) => match k with
    | .copy gid => if gid / 128 == t then { e with issued := placeIn bs 2048 8 (2 * (gid % 128)) } else e
    | .kiosk gid => if gid / 128 == t then { e with issued := placeIn bs 2048 8 (2 * (gid % 128) + 1) } else e
    | _ => e
  let mine := s.copyOps.filter fun o => o.gid / 128 == t
  let place := fun (o : CopyOp) => (mine.idxOf? o).getD 0
  { s with
    engines := s.engines.map fun e => (e.1, issued e.1 e.2)
    copyOps := s.copyOps.map fun o => if o.gid / 128 == t && place o < 15360 then { o with done := placeIn bs 4096 4 (place o) } else o }

/-- A team and its groups as their save area at `va` gives them back. -/
def State.restoreTeam (s : State) (t va : Nat) (bs : List Byte) (bad : Nat → Bool) : State :=
  let r := (s.gang (s.team t).gang).rec_
  ((s.groupsOf t).foldl (fun (s : State) e => s.updGroup e.1 fun g => g.ofImage bs bad va (groupAt g.idx))
    (s.updTeam t fun x => x.ofArea r bs bad)).restoreProgress t bs

end Sys2Proof.Machine
end

