-- ==== Sys2Proof/Machine/Schedule.lean ====
section
/-!
DEFINITION. Queues and the mapper, readiness and candidates, admission and refusal, time slices, pre-emption and
resumption, retirement and successors (07 R236-R239; 08 R253-R256, R267-R271; 13 R360-R363; 14 R365-R377).
-/
namespace Sys2Proof.Machine

/-! ### Queues (14 R367-R369) -/

/-- The context that owns a queue. -/
def State.ownerOf (s : State) (q : Nat) : Option Nat := (s.ctxs.find? fun c => c.2.queues.contains q).map Prod.fst

/-- Bind a queue to a context, or to none. -/
def State.bind (s : State) (q : Nat) (ctx : Option Nat) : State :=
  { s with ctxs := s.ctxs.map fun c =>
      (c.1, { c.2 with queues := if ctx == some c.1 then addSet c.2.queues q else delSet c.2.queues q }) }

/-- The bits of config that a write keeps. -/
def queueConfigMask : Word64 := 0x00000003FFFF001F

/-- A write of a queue's config register. -/
def State.queueConfig (s : State) (k : Nat) (v0 : Word64) : State :=
  let q := s.queue k
  if q.enabled && q.head != q.tail then s
  else
    let v := v0 &&& queueConfigMask
    let n := field v.toNat 0 5
    let on := v.getLsbD 32 && 4 ≤ n && n ≤ 16
    let q1 := { q with config := if on then v else v &&& ~~~ 0x100000000, eligible := false, slot := none }
    if on then (s.updQueue k fun _ => { q1 with head := 0, tail := 0, times := [] }).bind k (some (field v.toNat 16 16))
    else (s.updQueue k fun _ => q1).bind k none

/-- `QUEUE_CONFIG_WRITE` of `input.value` to queue `input.unit`. -/
def execQueueConfigWrite (s : State) : Host.Outcome State Fault Refusal :=
  .next (if 1024 ≤ s.input.unit then s.stall else s.whenRunning (s.queueConfig s.input.unit s.input.value))

/-- A write of a queue's notify register (14 Table 14.4). -/
def State.queueNotify (s : State) (k v : Nat) : State :=
  let q := s.queue k
  let now := s.now.toNat
  let n := (BitVec.ofNat 32 v - q.tail).toNat
  if !q.enabled then s.updQueue k fun q => { q with refused := true }
  else if q.spawn then s.updQueue k fun q => { q.notify now with refused := false }
  else if 2 ^ q.logSize - q.count < n then s.updQueue k fun q => { q with refused := true }
  else s.updQueue k fun q => { (q.append n now).notify now with refused := false }

/-- `QUEUE_NOTIFY` of `input.value` to queue `input.unit`. -/
def execQueueNotify (s : State) : Host.Outcome State Fault Refusal :=
  .next (if 1024 ≤ s.input.unit then s.stall else s.whenRunning (s.queueNotify s.input.unit s.input.value.toNat))

/-- The record address in a ring entry, as the home reads it; an entry in a hole counts as 0 (log 61). -/
def State.ringEntry (s : State) (q : Queue) (i : Nat) : Nat :=
  if q.holds i then leValue (s.readRecalled (q.entryAt i) 8) % 2 ^ 57 else 0

/-- The indices of the entries not consumed, oldest first. -/
def State.pendingEntries (s : State) (q : Queue) : List Nat :=
  ((List.range q.count).map fun k => (q.head.toNat + k) % 2 ^ 32).filter fun i => s.ringEntry q i != 0

/-- What reading a record gives. -/
inductive RecView where
  /-- it lies in another package, at this physical address, and has not been read -/
  | away (pa : PAddr)
  | unreadable
  | record (bs : List Byte)
  deriving DecidableEq, Repr

/-- Read the record at a virtual address of a context (14 R365, R366, R370; log 33). -/
def State.recordView (s : State) (ctx : Option Nat) (va : Nat) : RecView :=
  match ctx with
  | none => .unreadable
  | some c =>
    let r := s.walk c va
    if r.status != 0 || va % 64 != 0 then .unreadable
    else
      let x := (r.entry c va false).xlat va
      if x.kind == 2 then
        match aget s.fetched (c, va) with
        | none => .away x.pa
        | some (bs, bad) => if bad then .unreadable else .record bs
      else
        let as := span (locOf x.pa) 64
        if s.isBad as || (beatsOf as).any s.mismatch then .unreadable else .record (s.readRecalled (locOf x.pa) 64)

/-- The prio of the record that an entry names; 0 for one that cannot be read (log 33). -/
def State.entryPrio (s : State) (k : Nat) (q : Queue) (i : Nat) : Nat :=
  match s.recordView (s.ownerOf k) (s.ringEntry q i) with
  | .record bs => (recordOf bs).prio
  | _ => 0

/-- The rank of a queue: prio of its head entry, first notify, number. -/
def State.rank (s : State) (k : Nat) (q : Queue) : Nat × Nat × Nat :=
  ((((s.pendingEntries q).head?).map (s.entryPrio k q)).getD 0, q.notified, k)

/-- A rank is higher. -/
def outranks (a b : Nat × Nat × Nat) : Bool :=
  b.1 < a.1 || (a.1 == b.1 && (a.2.1 < b.2.1 || (a.2.1 == b.2.1 && a.2.2 < b.2.2)))

/-- The head record of the queue lies in another package and has not been read: the queue has no rank yet (14 R369). -/
def State.unranked (s : State) (k : Nat) (q : Queue) : Bool :=
  match ((s.pendingEntries q).head?).map fun i => s.recordView (s.ownerOf k) (s.ringEntry q i) with
  | some (.away _) => true
  | _ => false

/-- An eligible queue has no rank yet: slots are given when its record has come. -/
def State.ranking (s : State) : Bool := s.queues.any fun e => e.2.eligible && s.unranked e.1 e.2

/-- The eligible inactive queue of highest rank. -/
def State.bestInactive (s : State) : Option (Nat × Nat × Nat) :=
  (s.queues.filter fun e => e.2.eligible && e.2.slot.isNone).foldl (fun best e =>
    let r := s.rank e.1 e.2
    match best with
    | none => some r
    | some b => if outranks r b then some r else best) none

/-- The lowest-ranked active queue. -/
def State.worstActive (s : State) : Option (Nat × Nat × Nat) :=
  (s.queues.filter fun e => e.2.slot.isSome).foldl (fun worst e =>
    let r := s.rank e.1 e.2
    match worst with
    | none => some r
    | some b => if outranks b r then some r else worst) none

/-- Free slots take the eligible queues of highest rank. -/
def State.fillSlots (s : State) : State :=
  if s.ranking then s else (List.range 32).foldl (fun (s : State) n =>
    if s.queues.any fun e => e.2.slot == some n then s
    else match s.bestInactive with
      | none => s
      | some (_, _, k) => s.updQueue k fun q => { q with slot := some n }) s

/-- `MAPPER_REBALANCE`: an inactive queue that outranks the lowest-ranked active one takes its slot. -/
def execMapperRebalance (s : State) : Host.Outcome State Fault Refusal :=
  let s1 := s.fillSlots
  .next <| if s.ranking then s.stall else match s1.bestInactive, s1.worstActive with
    | some a, some b =>
      if outranks a b then
        let slot := (s1.queue b.2.2).slot
        (s1.updQueue b.2.2 fun q => { q with slot := none }).updQueue a.2.2 fun q => { q with slot := slot }
      else s1
    | _, _ => s1

/-! ### Candidates (14 R370, R371) -/

/-- A ready record of a window, by queue and ring index, or a gang of the resume list, under queue number 1024. -/
structure Cand where
  key : Nat × Nat
  prio : Nat
  appended : Nat
  deriving DecidableEq, Repr

/-- A candidate stands before another. -/
def Cand.before (a b : Cand) : Bool :=
  b.prio < a.prio || (a.prio == b.prio && (a.appended < b.appended
    || (a.appended == b.appended && (a.key.1 < b.key.1 || (a.key.1 == b.key.1 && a.key.2 < b.key.2)))))

/-- Put a candidate in order. -/
def insertCand (c : Cand) : List Cand → List Cand
  | [] => [c]
  | x :: xs => if c.before x then c :: x :: xs else x :: insertCand c xs

/-- The window of an active queue. -/
def State.windowOf (s : State) (q : Queue) : List Nat := (s.pendingEntries q).take 32

/-- The prio of a ready record; one that cannot be read counts as ready. -/
def State.readyPrio (s : State) (k : Nat) (q : Queue) (i : Nat) : Option Nat :=
  match s.recordView (s.ownerOf k) (s.ringEntry q i) with
  | .away _ => none
  | .unreadable => some 0
  | .record bs =>
    let r := recordOf bs
    if r.join == 0 && (r.steptag == 0 || r.steptag ≤ (s.ctx ((s.ownerOf k).getD 0)).step.toNat) then some r.prio else none

/-- Every candidate, the highest standing first. -/
def State.candidates (s : State) : List Cand :=
  let records := (s.queues.filter fun e => e.2.slot.isSome).flatMap fun e =>
    (s.windowOf e.2).filterMap fun i => (s.readyPrio e.1 e.2 i).map fun p =>
      { key := (e.1, i), prio := p, appended := agetD e.2.times i 0 : Cand }
  let saved := s.resumeList.map fun k =>
    { key := (1024, k), prio := (s.gang k).rec_.prio, appended := (s.gang k).appended : Cand }
  (records ++ saved).foldr insertCand []

/-- A record in another package is being read. -/
def State.reading (s : State) (ctx va : Nat) : Bool := s.remotes.any fun r => r.what == .record ctx va

/-- Read a record in another package. -/
def State.askRecord (s : State) (ctx va pa : Nat) : State :=
  s.ask { dest := pkgOf pa, src := s.own, cls := 0, op := opRead, svc := 1, ctx := ctx, xgen := (s.ctx ctx).xgen.toNat, addr := pa, opdata := 64 }
    (.record ctx va)

/-- The candidate being read for its admission still is one, or its read is under way. -/
def State.stillAdmitting (s : State) (waiting : AMap (Nat × Nat) Nat) (key : Nat × Nat) : Bool :=
  (aget waiting key).isSome || s.reading ((s.ownerOf key.1).getD 65536) (s.ringEntry (s.queue key.1) key.2)


/-- The entries whose records the scheduler reads: the window of an active queue, and the head of an eligible one for its rank (14
R369, R370). -/
def State.examined (s : State) (q : Queue) : List Nat :=
  if q.slot.isSome then s.windowOf q else if q.eligible then (s.pendingEntries q).take 1 else []

/-- The lines of this package that readiness and rank are read from: the ring entries, what stands at each head, and the records. -/
def State.readinessLines (s : State) : List Nat :=
  let seen := s.queues.filter fun e => e.2.slot.isSome || e.2.eligible
  homedLines (seen.flatMap fun e =>
    let is := e.2.head.toNat :: s.examined e.2
    (is.filter e.2.holds).flatMap (fun i => span (e.2.entryAt i) 8) ++ (s.examined e.2).flatMap fun i =>
      let va := s.ringEntry e.2 i
      match s.ownerOf e.1 with
      | none => []
      | some c =>
        let r := s.walk c va
        let x := (r.entry c va false).xlat va
        if r.status == 0 && x.kind < 2 then span (locOf x.pa) 64 else [])

/-- Lines that other packages' agents hold for themselves are recalled before readiness is read from them (12 R320). -/
def State.recallReadiness (s : State) : State :=
  s.readinessLines.foldl (fun (s : State) l => match s.lineReady l false with
    | .demand s' => s'
    | _ => s) s

/-- Read the records in other packages that the scheduler examines: all of them anew, or those that have not been read (14 R369, R370). -/
def State.readRecords (s : State) (anew : Bool) : State :=
  let away := s.queues.flatMap fun e => match s.ownerOf e.1 with
    | none => []
    | some c => (s.examined e.2).filterMap fun i =>
      match ({ s with fetched := if anew then [] else s.fetched } : State).recordView (some c) (s.ringEntry e.2 i) with
      | .away pa => some (c, s.ringEntry e.2 i, pa)
      | _ => none
  away.foldl (fun (s : State) x => if s.reading x.1 x.2.1 then s else s.askRecord x.1 x.2.1 x.2.2) s

/-- Records in other packages are read anew, and lines that others hold are recalled (14 R370). -/
def State.rereadRecords (s : State) : State := s.recallReadiness.readRecords true

/-! ### Placement (08 R253, 14 R372) -/

/-- The teams that hold resources on a core, with their records: those of gangs that are resident. -/
def State.teamsOn (s : State) (core : Nat) : List (Team × Record) :=
  (s.teams.filter fun t => t.2.core == core && (s.gang t.2.gang).run != .saved && (s.gang t.2.gang).run != .killed).map fun t => (t.2, (s.gang t.2.gang).rec_)

/-- Groups of a team in a quarter. -/
def groupsIn (t : Team) (r : Record) (q : Nat) : Nat :=
  ((List.range r.groups).filter fun g => t.quarters.getD (g % max t.quarters.length 1) 4 == q).length

/-- A quarter of a core can receive its share of a team. -/
def quarterFits (held : List (Team × Record)) (r : Record) (q : Nat) : Bool :=
  let n := r.perQuarter
  let slots := (held.map fun h => groupsIn h.1 h.2 q).sum
  let regs := (held.map fun h => groupsIn h.1 h.2 q * 8 * h.2.window).sum
  slots + n ≤ 32 && regs + n * 8 * r.window ≤ 1536 && (r.acc == 0 || !held.any fun h => !h.1.units.isEmpty && h.1.quarters.contains q)

/-- The lowest place for a range of scratch on a core. -/
def scratchPlace (held : List (Team × Record)) (n : Nat) : Option Nat :=
  ((List.range 257).map (4096 * ·)).find? fun b =>
    b + n ≤ 2 ^ 20 && !held.any fun h => b < h.1.scratchBase + 4096 * h.2.scratch && h.1.scratchBase < b + n

/-- Where a team of a record would sit on a core: its quarters and scratch. -/
def State.coreFits (s : State) (r : Record) (core : Nat) : Option (Nat × List Nat × Nat) :=
  let held := s.teamsOn core
  let k := min r.groups 4
  let qs := ((List.range 4).filter (quarterFits held r)).take k
  if qs.length < k then none else (scratchPlace held (4096 * r.scratch)).map fun b => (core, qs, b)

/-- A place for every team of a gang, in their order. -/
def State.placement (s : State) (r : Record) : Option (List (Nat × List Nat × Nat)) :=
  let on := fun (cores : List Nat) =>
    let ps := (cores.filterMap (s.coreFits r)).take r.teams
    if ps.length < r.teams then none else some ps
  if r.place then on (List.range 256)
  else (List.range 4).findSome? fun d => on ((List.range 64).map (64 * d + ·))

/-- What a candidate would be given: none if it does not fit. A record that will be refused needs nothing (14 R370; log 33). -/
def State.fits (s : State) (c : Cand) : Option (List (Nat × List Nat × Nat)) :=
  if c.key.1 == 1024 then s.placement (s.gang c.key.2).rec_
  else match s.recordView (s.ownerOf c.key.1) (s.ringEntry (s.queue c.key.1) c.key.2) with
    | .record bs => match (recordOf bs).cause ((s.ownerOf c.key.1).getD 65536) with
      | some _ => some []
      | none => s.placement (recordOf bs)
    | _ => some []

/-- The candidate that the scheduler admits now, with its places (14 R371). -/
def State.choice (s : State) : Option (Cand × List (Nat × List Nat × Nat)) :=
  let cs := s.candidates
  match cs.find? fun c => s.reserving.contains c.key with
  | some c => (s.fits c).map fun p => (c, p)
  | none => cs.findSome? fun c => (s.fits c).map fun p => (c, p)

/-- The candidate being read for its admission still is the scheduler's choice: otherwise its record is read again when it is chosen (14
R365, R373). -/
def State.keepsAdmitting (s : State) (waiting : AMap (Nat × Nat) Nat) : Bool :=
  match s.admitting with
  | none => false
  | some key => s.stillAdmitting waiting key && (s.choice.map fun c => c.1.key) == some key

/-- Evaluate readiness: when each candidate became ready, and which reserve. -/
def State.evalReady (s0 : State) : State :=
  let s := s0.fillSlots
  let now := s.now.toNat
  let waiting := s.candidates.map fun c => (c.key, agetD s.waiting c.key now)
  let s1 : State := { s with waiting := waiting, reserving := (waiting.filter fun w => w.2 + 2 ^ 20 ≤ now).map Prod.fst }
  if s1.keepsAdmitting waiting then s1 else { s1 with admitting := none }

/-- `READINESS_PERIODIC_EVALUATION`. -/
def execReadinessPeriodicEvaluation (s : State) : Host.Outcome State Fault Refusal := .next s.rereadRecords.evalReady

/-- `CANDIDATE_RESERVING`: a candidate that has waited 2^20 clocks reserves. -/
def execCandidateReserving (s : State) : Host.Outcome State Fault Refusal := .next s.evalReady

/-! ### The start of a gang (02 R28, 08 R255) -/

/-- A group at admission (02 Tables 2.1 and 2.4). -/
def newGroup (r : Record) (team t g clock : Nat) (step : Word64) : Group :=
  { team := team, idx := g, lpc := laneIds.map fun _ => r.entry
    sregs := [(0, r.arg0), (1, r.arg1), (2, BitVec.ofNat 64 t), (3, BitVec.ofNat 64 g)]
    rng := Lanes.make fun l => rngStored (0x9E3779B9 ^^^ BitVec.ofNat 32 (t * 4096 + g * 32 + l))
    origin := step &&& 0xFFF, lastIssue := clock, admitted := clock }

/-- A team at admission. -/
def newTeam (r : Record) (gang t : Nat) (p : Nat × List Nat × Nat) : Team :=
  { gang := gang, idx := t, core := p.1, quarters := p.2.1, scratchBase := p.2.2
    units := if r.acc == 0 then [] else p.2.1.map fun q => (q, {}) }

/-- A gang starts on its places; admission is an acquire at package scope (14 R373). -/
def State.startGang (s0 : State) (x : Gang) (ps : List (Nat × List Nat × Nat)) : State :=
  let (k, s) := s0.fresh
  let r := x.rec_
  let ts := (List.range ps.length).filterMap fun t => ps[t]?.map fun p => (t, p)
  let s1 := ps.foldl (fun (s : State) p => s.dropClean p.1) s
  { s1 with
    gangs := aset s1.gangs k { x with cores := ps.map Prod.fst, admitted := s.clock, sliceStart := s.now.toNat }
    teams := ts.foldl (fun m x => aset m (teamOf k x.1) (newTeam r k x.1 x.2)) s1.teams
    groups := ts.foldl (fun m x => (List.range r.groups).foldl (fun m g =>
      aset m (gidOf (teamOf k x.1) g) (newGroup r (teamOf k x.1) x.1 g s.clock (s.ctx r.ctx).step)) m) s1.groups }

/-! ### Completion signals (07 R236; 14 R374, R375) -/

/-- The scheduler as a requester. R315 lists no number and no counter for it: 270 lies past the counters of Table 12.2 (log 32). -/
def scheduler : Nat := 270

/-- The record of a completion signal left unwritten (17 Table 17.5). -/
def State.signalLost (s : State) (ctx va : Nat) : State :=
  s.record { kind := 7, addr := va, virt := true, ctx := ctx, gen := (s.ctx ctx).gen.toNat, unitType := 1, unit := 0 }

/-- An atomic update of the completion signal of a record, at its home slice: `f` gives the new value, and the packet
fields say the same to another package. Where the address does not translate, `lost` says what becomes of it (log 34). A poisoned beat is
left as it is, with a record. -/
def State.signalUpdate (s : State) (ctx : Nat) (r : Record) (f : Nat → Nat) (op opdata : Nat) (data : List Byte)
    (lost : State → State) (k : State → State) : State :=
  let w := if r.sig32 then 4 else 8
  let va := r.signal / w * w
  if r.signal == 0 then k s
  else match s.translate [] ctx true .write va with
    | .wait s' => s'
    | .fail _ _ _ s1 => lost s1
    | .ok x s1 =>
      if x.kind == 2 then
        k (s1.ask { dest := pkgOf x.pa, src := s1.own, cls := 0, op := op, svc := 1, ctx := ctx, xgen := (s1.ctx ctx).xgen.toNat, addr := x.pa
                    opdata := opdata + w, data := writeData data (s1.ctx ctx).step } (.signal ctx va))
      else
        let as := span (locOf x.pa) w
        s1.whenReady as true <|
          let s2 := (((s1.recallExclusive homeAgent (locOf x.pa / 128)).dirTake as).request scheduler 1 (locOf x.pa) true false ctx).verify
            { detail := 5, ctx := ctx } as
          if s2.isBad as then k (s2.signalLost ctx va)
          else
            let new := f (leValue (readBytes s2.mem (locOf x.pa) w)) % 2 ^ (8 * w)
            k (s2.homeWrite { cells := cellsAt (locOf x.pa) (leBytes w new), tag := (s2.ctx ctx).step, through := x.pt })

/-! ### Admission and refusal (14 R373, R374) -/

/-- A ring entry that stands at head is consumed: it reads 0, and no other package holds its line for itself. -/
def State.passed (s : State) (q : Queue) (i : Nat) : Bool :=
  s.ringEntry q i == 0 && (!q.holds i || match s.lineReady (q.entryAt i / 128) false with | .ready => true | _ => false)

/-- Head passes the consumed entries that stand there, and a queue that is empty leaves its slot (14 R368, R369). -/
def State.passHead (s : State) (k : Nat) : State :=
  let q := s.queue k
  let n := ((List.range q.count).takeWhile fun j => s.passed q ((q.head.toNat + j) % 2 ^ 32)).length
  if n == 0 then s
  else
    let head := q.head + BitVec.ofNat 32 n
    let q1 := { q with head := head, times := q.times.filter fun e => (BitVec.ofNat 32 e.1 - head).toNat < q.count - n }
    s.updQueue k fun _ => if q.count == n then { q1 with eligible := false, slot := none } else q1

/-- Head passes consumed entries in every enabled queue. -/
def State.passHeads (s : State) : State :=
  ((s.queues.filter fun e => e.2.enabled && e.2.head != e.2.tail).map Prod.fst).foldl State.passHead s

/-- An entry is consumed: it becomes 0, and head passes the leading consumed entries. -/
def State.consume (s : State) (k i : Nat) : State :=
  let at_ := (s.queue k).entryAt i
  let s1 := ((((s.recallExclusive homeAgent (at_ / 128)).dirTake (span at_ 8)).request scheduler 1 at_ true false).homeWrite { cells := cellsAt at_ (leBytes 8 0) }).passHead k
  { s1 with waiting := s1.waiting.filter fun w => w.1 != (k, i), reserving := s1.reserving.filter fun w => w != (k, i)
            admitting := none }

/-- A record that was read for its admission: it goes back to its window if its counter is not 0, is refused if a check fails, and
starts otherwise (14 R373, R374). -/
def State.admitRecord (s : State) (k i : Nat) (c : Cand) (ctx va : Nat) (ps : List (Nat × List Nat × Nat)) (bs : Option (List Byte)) : State :=
  let refuse := fun (cause : Nat) (s : State) => (s.consume k i).post { kind := .launchRefused, args := [ctx, k, va, cause] }
  match bs with
  | none => refuse 10 s
  | some bs =>
    let r := recordOf bs
    if r.join != 0 then s.stall
    else match r.cause ctx with
      | some cause =>
        -- a signal that does not translate is left unwritten; the record is consumed all the same (log 34)
        s.signalUpdate ctx r (fun _ => 2 ^ 64 - cause) opAtomic (8 * 256)
          (leBytes (if r.sig32 then 4 else 8) (2 ^ 64 - cause) ++ leBytes 4 0)
          (fun s => refuse cause (s.signalLost ctx r.signal)) (refuse cause)
      | none => (s.consume k i).startGang { ctx := ctx, recAddr := va, rec_ := r, appended := c.appended } ps

/-- `TASK_ADMISSION`: the record of the scheduler's choice is read, as an acquire, and admitted or refused. One in another package is
asked for first. -/
def execTaskAdmission (s0 : State) : Host.Outcome State Fault Refusal :=
  let s := s0.evalReady
  .next <| match s.choice with
    | none => s0.stall
    | some (c, ps) =>
      let (k, i) := c.key
      if k == 1024 then s0.stall
      else
        let va := s.ringEntry (s.queue k) i
        let ctx := (s.ownerOf k).getD 65536
        s.whenReady (span ((s.queue k).entryAt i) 8) true <|
          if (s.ownerOf k).isNone || va % 64 != 0 then s.admitRecord k i c ctx va ps none
          else match s.translate [] ctx true .read va with
            | .wait s' => s'
            | .fail _ _ _ s1 => s1.admitRecord k i c ctx va ps none
            | .ok x s1 =>
              if x.kind == 2 then
                if s1.reading ctx va then s0.stall
                else match (if s1.admitting == some (k, i) then aget s1.fetched (ctx, va) else none) with
                  | none => { s1.askRecord ctx va x.pa with admitting := some (k, i) }
                  | some (bs, bad) =>
                    State.admitRecord { s1 with fetched := aerase s1.fetched (ctx, va) } k i c ctx va ps (if bad then none else some bs)
              else
                let as := span (locOf x.pa) 64
                s1.whenReady as false <|
                  let s2 := ((s1.recallExclusive homeAgent (locOf x.pa / 128)).request scheduler 1 (locOf x.pa) false false ctx).verify
                    { detail := 5, ctx := ctx } as
                  s2.admitRecord k i c ctx va ps (if s2.isBad as then none else some (s2.readHome (locOf x.pa) 64))

/-! ### Retirement (07 R236) -/

/-- The groups of a gang. -/
def State.gidsOf (s : State) (k : Nat) : List Nat :=
  (s.groups.filter fun e => (s.team e.2.team).gang == k && (aget s.teams e.2.team).isSome).map Prod.fst

/-- A handle's context belongs to one of some groups or teams. -/
def EKey.of (gids teams : List Nat) : EKey → Bool
  | .copy g => gids.contains g
  | .kiosk g => gids.contains g
  | .seq t _ => teams.contains t
  | _ => false

/-- Engine contexts and operations of some groups and teams are gone; what they had in flight is dropped when it returns. -/
def State.dropEngines (s : State) (gids teams : List Nat) : State :=
  { s with
    engines := s.engines.filter fun e => !e.1.of gids teams
    copyOps := s.copyOps.filter fun o => !gids.contains o.gid
    chases := s.chases.filter fun c => c.origin.isSome || !gids.contains c.gid
    listOps := s.listOps.filter fun o => !gids.contains o.gid
    kvups := s.kvups.filter fun v => !gids.contains v.gid
    krcps := s.krcps.filter fun v => !gids.contains v.gid
    laneFails := s.laneFails.filter fun f => !gids.contains f.1 }

/-- A gang and everything of it is gone, and its resources are free. -/
def State.removeGang (s : State) (k : Nat) : State :=
  let gids := s.gidsOf k
  let teams := (s.teamsOf k).map Prod.fst
  { s.dropEngines gids teams with
    gangs := aerase s.gangs k
    teams := s.teams.filter fun t => t.2.gang != k
    groups := s.groups.filter fun g => !gids.contains g.1
    sideLog := s.sideLog.filter fun e => !gids.contains e.gid
    resumeList := delSet s.resumeList k
    waiting := s.waiting.filter fun w => w.1 != (1024, k)
    reserving := s.reserving.filter fun w => w != (1024, k) }

/-- Streams of a team whose groups have all ended, when every one still running waits on a numbered barrier: stopped. -/
def State.orphans (s : State) (t : Nat) : State :=
  let running := (s.team t).units.filterMap fun u => match u.2.stream with
    | some st => if st.running then some (u.1, st) else none
    | none => none
  if running.isEmpty || running.any fun e => !e.2.waiting then s
  else
    let x := s.gang (s.team t).gang
    (running.foldl (fun (s : State) e => s.endStream t e.1 e.2 14 none) s).post
      { kind := .streamOrphaned, args := [x.ctx, x.recAddr, (s.team t).idx] ++ running.map Prod.fst }

/-- Go on once every dirty byte of some cores has reached its home slice (11 R286). -/
def State.whenAllBacked (s : State) (cores : List Nat) (k : State → State) : State :=
  let s1 := cores.foldl (fun (s : State) c => s.writeBackCore c) s
  if cores.any s1.backing then s1.stall else k s1

/-- `TEAM_RETIREMENT` of team `input.index`. With the gang's last team, its successor is due, or the completion signal is
decremented as a release at system scope and the gang's resources are free. A pre-emption that was under way is due of the successor
(08 R269). -/
def execTeamRetirement (s : State) : Host.Outcome State Fault Refusal :=
  let t := s.input.index
  .next <| match aget s.teams t with
    | none => s.stall
    | some x =>
      let k := x.gang
      let gang := s.gang k
      let logs := s.sideLog.any fun e => (aget s.groups e.gid).map Group.team == some t
      if x.retired || gang.run == .saved || gang.run == .killed || gang.stopped || s.liveGroups t != 0 || logs then s.stall
      else
        let s1 := s.orphans t
        let retire := fun (s : State) =>
          s.updTeam t fun x => { x with retired := true, nbars := [], tags := [], barArrived := 0, gbarArrived := 0 }
        if ((s1.team t).units.any fun u => (u.2.stream.map Stream.running).getD false) then s.stall
        else if (s1.teamsOf k).any fun y => y.1 != t && !y.2.retired then (retire s1).checkGbar k
        else if gang.successor.isSome then
          (retire s1).updGang k fun x => { x with run := .handing, preemptDue := x.preemptDue || x.run == .stopping }
        else if (s1.gidsOf k).any fun g => s1.writesOut g then s1.stall
        else s1.whenAllBacked gang.cores fun s2 =>
          s2.signalUpdate gang.ctx gang.rec_ (fun old => old + 2 ^ 64 - 1) opSignal 256 (leBytes 8 1) State.stall fun s => s.removeGang k

/-! ### Killed gangs (13 R364) -/

/-- A step that holds a lock of the directory has begun. -/
def State.hasLock (s : State) (who : Holder) : Bool := s.dir.any fun e => e.2.st == .locked && e.2.holder == who

/-- What a gang's groups have not yet sent to a Kiosk or started is dropped; of the rest, the step or unit in flight is left (log 53). -/
def State.dropUnstarted (s : State) (gids : List Nat) : State :=
  let mine := fun (g : Nat) => gids.contains g
  { s with
    copyOps := (s.copyOps.filter fun o => !mine o.gid || (o.begun && o.heldPage.isNone)).map fun o =>
      if mine o.gid then { o with cancelled := true } else o
    chases := s.chases.filter fun c => c.origin.isSome || !mine c.gid
      || (c.heldPage.isNone && (c.away || c.owner.isSome || s.hasLock c.holder))
    listOps := (s.listOps.filter fun o => !mine o.gid || (o.heldPage.isNone && (o.kiosk.isSome || s.hasLock [1, o.gid, o.seqNo]))).map
      fun o => if mine o.gid then { o with lanes := o.lanes.take 1, nodes := o.nodes.take 1 } else o
    kvups := (s.kvups.map fun v => if mine v.gid then { v with chunks := v.chunks.filter fun c => s.hasLock [3, v.gid, v.seqNo, c] } else v).filter
      fun v => !mine v.gid || !v.chunks.isEmpty
    krcps := s.krcps.filter fun v => !mine v.gid }

/-- Kiosk steps, chases or copy units of some groups are in flight. -/
def State.inFlight (s : State) (gids : List Nat) : Bool :=
  let mine := fun (g : Nat) => gids.contains g
  s.copyOps.any (fun o => mine o.gid) || s.chases.any (fun c => c.origin.isNone && mine c.gid) || s.listOps.any (fun o => mine o.gid)
    || s.kvups.any fun v => mine v.gid

/-- A gang is removed without being saved; while something of it is in flight it stays, stripped, to take what returns. -/
def State.killGang (s : State) (k : Nat) : State :=
  let gids := s.gidsOf k
  let s1 := s.dropUnstarted gids
  if !s1.inFlight gids then s1.removeGang k
  else
    let s2 := gids.foldl (fun (s : State) gid => (s.unlock [4, gid]).updGroup gid fun g => { g with parks := [], hold := .stopped }) s1
    { s2.updGang k (fun x => { x with run := .killed, heldPage := none, preemptDue := false }) with
      sideLog := s2.sideLog.filter fun e => !gids.contains e.gid
      resumeList := delSet s2.resumeList k
      waiting := s2.waiting.filter fun w => w.1 != (1024, k)
      reserving := s2.reserving.filter fun w => w != (1024, k) }

/-- Killed gangs of which nothing is in flight any more are gone. -/
def State.settleKilled (s : State) : State :=
  ((s.gangs.filter fun e => e.2.run == .killed).map Prod.fst).foldl (fun (s : State) k =>
    if s.inFlight (s.gidsOf k) then s else s.removeGang k) s

/-! ### Successors (07 R239, 08 R268-R271) -/

/-- The items of a list whose unit a mask keeps. -/
def keptUnits (block lo count : Nat) (n : Nat) : Bool := n < count && block.testBit (lo + n)

/-- A group of a successor: what the starter block keeps of the group before it, and the stores it lost (07 R239, 08 R271). -/
def heir (old new : Record) (block : Nat) (g : Group) (team t clock : Nat) (step : Word64) : Group :=
  let w := 8 * min old.window new.window
  let keep := fun (n : Nat) => n < w && block.testBit (n / 8)
  let g1 := newGroup new team t g.idx clock step
  { g1 with
    vregs := (List.range w).filterMap fun n => if keep n then (aget g.vregs (g.wbase + n)).map fun v => (n, v) else none
    marks := g.marks.filterMap fun m => if !m.scalar && g.wbase ≤ m.reg && keep (m.reg - g.wbase) then
      some { m with reg := m.reg - g.wbase } else none
    lost := g.lost }

/-- A team of a successor: kept scratch with its granules, tiles, planes and maps. -/
def Team.heir (x : Team) (old new : Record) (block : Nat) : Team :=
  let units := min old.scratch new.scratch
  let tiles := min old.acc new.acc
  let keep := keptUnits block 128 units
  let planes := block.testBit 408
  { gang := x.gang, idx := x.idx, core := x.core, quarters := x.quarters, scratchBase := x.scratchBase
    scratch := x.scratch.filter fun c => keep (c.1 / 4096)
    full := x.full.filter fun g => keep (g / 256)
    spoiled := x.spoiled.filter fun g => keep (g / 256)
    tmaps := x.tmaps.filter fun m => block.testBit (384 + m.1)
    -- the codes 0x10 + q name the quarters that the successor holds (08 R263)
    units := (x.units.zip (x.quarters ++ (x.units.drop x.quarters.length).map Prod.fst)).map fun (u, q) =>
      (q, { active := if planes then u.2.active else {}, shadow := if planes then u.2.shadow else {},
            tiles := u.2.tiles.filter fun t => keptUnits block 400 tiles t.1,
            spoiled := u.2.spoiled.filter fun t => keptUnits block 400 tiles t.1 : MUnit }) }

/-- `SUCCESSOR_ADMISSION`: the fixed successor of gang `input.index` starts in its place. -/
def execSuccessorAdmission (s : State) : Host.Outcome State Fault Refusal :=
  let k := s.input.index
  .next <| match aget s.gangs k with
    | none => s.stall
    | some x => match x.run, x.successor with
      | .handing, some (va, r) =>
        let gids := s.gidsOf k
        if gids.any fun g => s.writesOut g then s.stall else
        let teams := (s.teamsOf k).map Prod.fst
        let block := fun (t : Nat) => leValue ((s.team t).starter.getD [])
        let s1 := s.dropEngines gids teams
        { s1 with
          gangs := aset s1.gangs k
            { ctx := x.ctx, recAddr := va, rec_ := r, cores := x.cores, admitted := s.clock, entering := true, preemptDue := x.preemptDue
              appended := x.appended, sliceStart := s.now.toNat }
          groups := s1.groups.map fun e =>
            if gids.contains e.1 then (e.1, heir x.rec_ r (block e.2.team) e.2 e.2.team (s.team e.2.team).idx s.clock (s.ctx x.ctx).step) else e
          teams := s1.teams.map fun t => if t.2.gang == k then (t.1, t.2.heir x.rec_ r (block t.1)) else t }
      | _, _ => s.stall

/-! ### Pre-emption (13 R360-R362, 14 R376) -/

/-- `PREEMPT_COMMAND` of the gang of context `input.unit` admitted from the record at `input.addr`. In the interval between a gang and its
successor it waits (08 R269). A gang is not pre-empted while the resume list is full. -/
def execPreemptCommand (s : State) : Host.Outcome State Fault Refusal :=
  .next <| match s.gangNamed s.input.unit s.input.addr with
    | none => s
    | some (k, x) =>
      if x.stopped || !s.resumeRoom then s
      else if x.canStop then s.stopGang k
      else s.updGang k fun x => if x.run == .stopping then x else { x with preemptDue := true }

/-- Pre-emptions that came between a gang and its successor act on the successor once it has issued (08 R269). -/
def State.settlePreempts (s : State) : State :=
  ((s.gangs.filter fun e => e.2.preemptDue && e.2.canStop).map Prod.fst).foldl (fun (s : State) k =>
    let s1 := s.updGang k fun x => { x with preemptDue := false }
    if (s.gang k).stopped || !s1.resumeRoom then s1 else s1.stopGang k) s

/-- The victims of a candidate: lowest prio first, then latest admitted. -/
def State.victims (s : State) (prio : Nat) : List Nat :=
  let slice := 4096 * (s.slice.toNat % 2 ^ 32)
  let vs := (s.gangs.filter fun e => e.2.canStop && !e.2.stopped && e.2.rec_.prio < prio
    && e.2.sliceStart + slice ≤ s.now.toNat).map fun e => { key := (0, e.1), prio := 7 - e.2.rec_.prio, appended := 2 ^ 64 - e.2.admitted : Cand }
  (vs.foldr insertCand []).map fun c => c.key.2

/-- The state as if some gangs were saved. -/
def State.without (s : State) (ks : List Nat) : State :=
  { s with gangs := s.gangs.map fun e => if ks.contains e.1 then (e.1, { e.2 with run := .saved }) else e }

/-- `TIME_SLICE_EXPIRY`: gangs make way for the reserving candidate of highest standing. -/
def execTimeSliceExpiry (s0 : State) : Host.Outcome State Fault Refusal :=
  let s := s0.evalReady
  .next <| match s.candidates.find? fun c => s.reserving.contains c.key with
    | none => s0.stall
    | some c =>
      let vs := s.victims c.prio
      let room := 1024 - s.resumeList.length - (s.gangs.filter fun e => e.2.run == .stopping).length
      let going := (s.gangs.filter fun e => e.2.run == .stopping).map Prod.fst
      let fits := fun (n : Nat) => ((s.without (going ++ vs.take n)).fits c).isSome
      if s.slice.toNat % 2 ^ 32 == 0 || room == 0 || fits 0 then s0.stall
      else match (List.range (vs.length + 1)).find? fits with
        | none => s0.stall
        | some n => (vs.take (min n room)).foldl (fun (s : State) k => s.stopGang k) s

/-- A group stands where it may be switched out: its chain has ended or holds nine members (02 R35), and no `MCAS` of it holds locks
(06 R179). -/
def State.atStop (s : State) (g : Group) : Bool :=
  (g.live == 0 || !g.chain.isOpen || 9 ≤ g.chain.members || g.hold != .none) && !s.hasLock [4, gidOf g.team g.idx]

/-- The gang's work in flight has settled (13 R360). -/
def State.settled (s : State) (k : Nat) : Bool :=
  let gids := s.gidsOf k
  let mine := fun (g : Nat) => gids.contains g
  (gids.all fun g => s.atStop (agetD s.groups g { team := 0, idx := 0 }))
    && !(s.remotes.any fun r => (r.what.gid?.map mine).getD false)
    && !(s.copyOps.any fun o => mine o.gid && o.begun)
    && !(s.mcasts.any fun m => mine m.gid)
    && !(s.chases.any fun c => c.origin.isNone && mine c.gid)
    && !(s.listOps.any fun o => mine o.gid) && !(s.kvups.any fun v => mine v.gid) && !(s.krcps.any fun v => mine v.gid)
    && !(s.rowOps.any fun r => (r.gid.map mine).getD false)
    && !((s.teamsOf k).any fun t => t.2.units.any fun u => (u.2.stream.map fun st => st.running && st.chunk != 0).getD false)
    && !s.anyHeld

/-- The addresses of a gang's save: the resident windows by group, stack position and address, also of groups that have ended, and the
32-byte pieces of the save areas by team, place and address. -/
def State.saveWindows (s : State) (k : Nat) : List (Nat × Nat × Nat) :=
  (s.gidsOf k).flatMap fun gid =>
    let g := agetD s.groups gid { team := 0, idx := 0 }
    (List.range (s.window g)).map fun n => (gid, g.wbase + n, s.spillAddr g (g.wbase + n) % 2 ^ 57)
def State.saveAreas (s : State) (k : Nat) : List (Nat × Nat × Nat) :=
  let r := (s.gang k).rec_
  (s.teamsOf k).flatMap fun t =>
    let u := t.2.units.length
    (List.range (saveBytes r u / 32)).map fun n => (t.1, n, (saveBase r t.2.idx u + 32 * n) % 2 ^ 57)

/-- The pages of a gang's save, each with the mode in which it is accessed: supervisor only where every group whose window, or whose
team's area, lies there is in that mode; a team's area counts as its first group's (13 R343; DESIGN CHOICE: log 35). -/
def State.savePageModes (s : State) (k : Nat) : List (Nat × Bool) :=
  let sup := fun (gid : Nat) => ((aget s.groups gid).map Group.supervisor).getD false
  let all := (s.saveWindows k).map (fun w => (w.2.2 / 4096, sup w.1)) ++ (s.saveAreas k).map fun a => (a.2.2 / 4096, sup (gidOf a.1 0))
  (uniq (all.map Prod.fst)).map fun p => (p, all.all fun x => x.1 != p || x.2)

/-- The virtual addresses of a gang's save. -/
def State.saveAddrs (s : State) (k : Nat) : List Nat :=
  (s.saveWindows k).map (fun w => w.2.2) ++ (s.saveAreas k).map fun w => w.2.2

/-- Translate pages for the save or the resumption of a gang; a failure sends a page request and the gang waits on it. -/
def State.savePages (s : State) (k core : Nat) (need : Need) : List (Nat × Bool) → AMap Nat Xlat → (AMap Nat Xlat → State → State) → State
  | [], acc, cont => cont acc s
  | (p, sup) :: ps, acc, cont =>
    let ctx := (s.gang k).ctx
    match s.translate (coreTlbs core) ctx sup need (4096 * p) with
    | .wait s' => s'
    | .ok x s1 => s1.savePages k core need ps (aset acc p x) cont
    | .fail st lv _ s1 => match s1.pageRequest ctx (4096 * p) akSpill st lv ((s.gidsOf k).headD 0) with
      | some s2 => s2.updGang k fun x => { x with heldPage := some p }
      | none => s.stall

/-- The translation of an address by its page. -/
def pageXlat (ps : AMap Nat Xlat) (va : Nat) : Xlat :=
  let x := agetD ps (va / 4096) { pa := 0, kind := 0, pt := false, attr := 0 }
  { x with pa := x.pa + va % 4096 }

/-- The local lines of some addresses. -/
def localPieces (ps : AMap Nat Xlat) (vas : List Nat) : List Nat :=
  vas.filterMap fun va => if (pageXlat ps va).kind == 2 then none else some (locOf (pageXlat ps va).pa)

/-- Store a piece of a save area: a plain relaxed access at team scope (13 R361). -/
def State.savePiece (s : State) (t : Nat) (x : Xlat) (va : Nat) (bs : List Byte) : State :=
  let gid := gidOf t 0
  let g := agetD s.groups gid { team := 0, idx := 0 }
  if x.kind == 2 then
    s.ask { s.header g x.pa opWrite 1 with opdata := 32, data := writeData bs (s.stepOf g) } (.write gid (va / 4096))
  else s.storeAt (s.team t).core x bs false 1 gid (va / 4096) (s.stepOf g) 1

/-- Store the save area of each team. -/
def State.saveTeams (s : State) (k : Nat) (ps : AMap Nat Xlat) : State :=
  (s.teamsOf k).foldl (fun (s : State) t =>
    let n := saveBytes (s.gang k).rec_ t.2.units.length
    let bs := s.areaBytes t.1 n
    ((s.saveAreas k).filter fun a => a.1 == t.1).foldl (fun (s : State) a =>
      s.savePiece t.1 (pageXlat ps a.2.2) a.2.2 ((bs.drop (32 * a.2.1)).take 32)) { s with draws := s.draws + n }) s

/-- A group as it is saved: its chain undone, its window spilled. -/
def Group.saved (g : Group) : Group :=
  let g1 := g.rollback.endChain
  { g1 with vregs := [], fills := [], loopBuf := none, begun := false, hold := match g1.hold with | .yielded _ _ => .none | h => h }

/-- `PREEMPTION_SAVE` of gang `input.index`, which stops: once its work has settled its windows go to their spill areas and
the rest of its state to its save area (log 35). -/
def execPreemptionSave (s : State) : Host.Outcome State Fault Refusal :=
  let k := s.input.index
  .next <| match aget s.gangs k with
    | none => s.stall
    | some x =>
      if x.run != .stopping || x.stopped || x.heldPage.isSome || !s.settled k || 1024 ≤ s.resumeList.length then s.stall
      -- the gang's stores are performed before the save (13 R363)
      else s.whenAllBacked x.cores fun s =>
        let ws := s.saveWindows k
        let vas := s.saveAddrs k
        s.savePages k (x.cores.headD 0) .write (s.savePageModes k) [] fun ps s1 =>
          s1.whenReady (localPieces ps vas) true <|
            -- windows hold the values of the chain's head (02 R34)
            let s2 : State := (s1.gidsOf k).foldl (fun (s : State) gid => s.updGroup gid fun g => g.rollback.endChain) s1
            let s3 := ws.foldl (fun (s : State) w =>
              s.spill w.1 (agetD s.groups w.1 { team := 0, idx := 0 }) [(w.2.1, w.2.2, pageXlat ps w.2.2)]) s2
            let s5 := x.cores.foldl (fun (s : State) c => s.writeBackCore c) (s3.saveTeams k ps)
            let gids := s5.gidsOf k
            { s5.updGang k (fun x => { x with run := .saved }) with
              groups := s5.groups.map fun e =>
                if gids.contains e.1 then (e.1, e.2.saved)
                else if e.2.preempting == some (k, none) then (e.1, { e.2 with preempting := some (k, some 0) }) else e
              sideLog := s5.sideLog.map fun e => if gids.contains e.gid then { e with core := 256 } else e
              resumeList := addSet s5.resumeList k }

/-- Log a saved gang's entries again, in its new cores' logs; their page requests are sent with the next step's start (13 R362). -/
def State.relog (s : State) (k : Nat) : State :=
  let gids := s.gidsOf k
  { s with sideLog := s.sideLog.map fun e =>
      if gids.contains e.gid then { e with core := ((aget s.groups e.gid).map s.coreOf).getD 0 } else e }

/-- What is read of a gang's spill and save areas at its resumption: the group that a piece in another package is asked for by, the key
of the piece there, its address and its bytes. -/
structure BackPiece where
  gid : Nat
  key : Nat
  va : Nat
  len : Nat
  deriving DecidableEq, Repr

/-- The windows and pieces of a gang. -/
def State.backPieces (s : State) (k : Nat) : List BackPiece :=
  ((s.saveWindows k).map fun w => ⟨w.1, w.2.1, w.2.2, 128⟩) ++ (s.saveAreas k).map fun a => ⟨gidOf a.1 0, 2 ^ 40 + a.2.1, a.2.2, 32⟩

/-- Read a piece through the core of its group: bytes, and for poison or a failure what a mark says (12 R332). -/
def State.readBack (s : State) (pages : AMap Nat Xlat) (p : BackPiece) : List Byte × Option Nat × State :=
  let g := agetD s.groups p.gid { team := 0, idx := 0 }
  match (if (pageXlat pages p.va).kind == 2 then aget g.fills p.key else none) with
  | some (bs, bad) => (bs, bad, s)
  | none =>
    let (r, s') := s.loadAt (s.coreOf g) (pageXlat pages p.va) p.len (if p.len == 32 then .team else .grp) 1 1
    (r.bytes, if r.bad then some 0 else none, s')

/-- Put a window position that was read back; a poisoned one marks its lanes. -/
def Group.fillBack (g : Group) (pos va : Nat) (bs : List Byte) (bad : Option Nat) : Group :=
  let g1 := { g.putPos pos allLanes (fillLane bs) with marks := g.marks }
  match bad with
  | some peer => (lanesOf allLanes).foldl (fun g l => g.markPos pos 1 l (poisonMark va 0 peer)) g1
  | none => g1

/-- Read back the save area of a team. -/
def State.readTeam (s : State) (pages : AMap Nat Xlat) (k t : Nat) : State :=
  let ps := (s.saveAreas k).filter fun a => a.1 == t
  let out := ps.foldl (fun (acc : List Byte × List Nat × State) a =>
    let (bs, bad, s1) := acc.2.2.readBack pages ⟨gidOf t 0, 2 ^ 40 + a.2.1, a.2.2, 32⟩
    (acc.1 ++ bs, if bad.isSome then acc.2.1 ++ [a.2.1] else acc.2.1, s1)) ([], [], s)
  let r := (s.gang k).rec_
  out.2.2.restoreTeam t (saveBase r (s.team t).idx (s.team t).units.length) out.1 fun o => out.2.1.contains (o / 32)

/-- Put a gang on its new places, its teams in their order. -/
def State.replace (s : State) (k : Nat) (ps : List (Nat × List Nat × Nat)) : State :=
  let s1 := ps.foldl (fun (s : State) p => s.dropClean p.1) s
  { s1.updGang k (fun x => { x with run := .running, cores := ps.map Prod.fst, sliceStart := s.now.toNat, admitted := s.clock }) with
    teams := s1.teams.map fun t =>
      if t.2.gang != k then t
      else match ps[t.2.idx]? with
        | some p => (t.1, { t.2 with
            core := p.1, quarters := p.2.1, scratchBase := p.2.2 })
        | none => t
    groups := s1.groups.map fun e =>
      if (s.team e.2.team).gang == k then (e.1, { e.2 with lastIssue := s.clock }) else e
    resumeList := delSet s1.resumeList k
    waiting := s1.waiting.filter fun w => w.1 != (1024, k)
    reserving := s1.reserving.filter fun w => w != (1024, k) }

/-- `GANG_RESUME`: the scheduler's choice, a saved gang, is restored: its windows are read back, its side-log entries logged
again, and every parked lane evaluated (13 R362). -/
def execGangResume (s0 : State) : Host.Outcome State Fault Refusal :=
  let s := s0.evalReady
  .next <| match s.choice with
    | none => s0.stall
    | some (c, ps) =>
      let k := c.key.2
      if c.key.1 != 1024 then s0.stall
      else
        let x := s.gang k
        let ws := s.saveWindows k
        let vas := s.saveAddrs k
        let core := (ps.headD (0, [], 0)).1
        let gids := s.gidsOf k
        let room := (List.range ps.length).all fun t => match ps[t]? with
          | some p => s.logUsed p.1 + (s.sideLog.filter fun e => ((aget s.groups e.gid).map Group.team) == some (teamOf k t)).length ≤ 512
          | none => true
        let backing := s.remotes.any fun r => match r.what with | .back _ by_ => by_.any fun w => gids.contains w.1 | _ => false
        if x.heldPage.isSome || !room || backing || gids.any (fun g => s.writesOut g) then s0.stall
        else s.savePages k core .read (s.savePageModes k) [] fun pages s1 =>
          let away := (s1.backPieces k).filter fun p => (pageXlat pages p.va).kind == 2
            && (aget (agetD s1.groups p.gid { team := 0, idx := 0 }).fills p.key).isNone
          if !away.isEmpty then
            away.foldl (fun (s : State) p =>
              if s.remotes.any fun r => r.what == .fill p.gid p.key then s
              else s.ask { s.header (agetD s.groups p.gid { team := 0, idx := 0 }) (pageXlat pages p.va).pa opRead 1 with opdata := p.len }
                (.fill p.gid p.key)) s1
          else s1.whenReady (localPieces pages vas) false <|
            let s2 := s1.replace k ps
            let s3 := ws.foldl (fun (s : State) w =>
              let (bs, bad, s') := s.readBack pages ⟨w.1, w.2.1, w.2.2, 128⟩
              s'.updGroup w.1 fun g => g.fillBack w.2.1 w.2.2 bs bad) s2
            let s4 := ((s.teamsOf k).map Prod.fst).foldl (fun (s : State) t => s.readTeam pages k t) s3
            let s5 : State := { s4 with groups := s4.groups.map fun e => if gids.contains e.1 then (e.1, { e.2 with fills := [] }) else e }
            gids.foldl (fun (s : State) gid => s.evalParks gid fun _ => true) (s5.relog k)

end Sys2Proof.Machine
end

