-- ==== Sys2Proof/Machine/Firmware.lean ====
section
/-!
DEFINITION. The firmware: configuration and attestation, contexts, the control registers, and power (12 Table 12.2; 13 R364;
14 R367, R376; 16 R391; 17 R422; 20 R440-R447).
-/
namespace Sys2Proof.Machine

/-! ### Control registers -/

/-- The status word of a queue (14 Table 14.3). -/
def Queue.statusWord (q : Queue) : Nat :=
  q.eligible.toNat + 2 * q.slot.isSome.toNat + 4 * q.slot.getD 0 + 256 * q.refused.toNat

/-- A register of a queue. -/
def Queue.reg (q : Queue) (off : Nat) : Nat :=
  match off with
  | 0 => q.base.toNat
  | 8 => q.config.toNat
  | 16 => q.head.toNat
  | 24 => q.tail.toNat
  | 40 => q.statusWord
  | _ => 0

/-- A snapshot register by its offset (16 Tables 16.1 and 16.2). -/
def Snap.reg (n : Snap) (off : Nat) : Nat :=
  if off == 0 then n.control.toNat + n.busy.toNat * 2 ^ 17
  else if off == 8 then n.ring.toNat
  else if off == 0x10 then n.units.toNat
  else if off == 0x18 then n.late + n.cursor * 2 ^ 32 + n.refused.toNat * 2 ^ 40
  else if 0x40 ≤ off && off < 0xC0 then (agetD n.members ((off - 0x40) / 8) 0).toNat
  else if 0x1000 ≤ off && off < 0x1400 then
    let r := agetD n.regions ((off - 0x1000) / 16) (0, 0)
    (if off % 16 == 0 then r.1 else r.2).toNat
  else 0

/-- The stack that an integrity register is about, and its offset there: HBM stacks, then SCM stacks. -/
def stackReg (off : Nat) : Nat × Nat := (off / 64, off % 64)

/-- An integrity register (17 Table 17.3). -/
def State.integrityReg (s : State) (off width : Nat) : Nat :=
  let (k, o) := stackReg off
  let st := s.stack k
  if off < 0x300 then
    if o == 0 && width == 8 then st.scrub * 2 ^ 16
    else if o == 8 && width == 8 && k < 8 then st.mode + st.retired * 256 + st.refused.toNat * 2 ^ 13 + st.watermark * 2 ^ 32
    else if o == 0x10 && width == 4 then st.corrected
    else if o == 0x18 && width == 4 then st.poisoned
    else 0
  else if width != 8 then 0
  else match off with
    | 0x10000 => s.errRing.base
    | 0x10008 => s.errRing.n
    | 0x10010 => s.errRing.head
    | 0x10018 => s.errRing.tail
    | 0x10020 => s.errRing.overflow
    | _ => 0

/-- The named fields of a channel-plan entry: reserved bits read zero, also where a write set them (00 R5, 12 Table 12.6). -/
def planMask : Word64 := 0x3F3F3F3F3F3F3F3F

/-- Read a control register. -/
def State.readReg (s : State) (a width : Nat) : Nat :=
  let off := fun (b : Nat) => a - b
  if 0x80000100000 ≤ a && a < 0x80000100000 + 16 * 270 then
    if width == 4 then agetD s.misses (off 0x80000100000 / 4) 0 else 0
  else if 0x80000200000 ≤ a && a < 0x80000200000 + 0x2000 * 12 then
    let o := off 0x80000200000
    if width == 4 && o % 0x2000 < 16 * 257 then agetD s.lags (o / 0x2000, o % 0x2000 / 4) 0 else 0
  else if 0x80000300000 ≤ a && a < 0x80000301000 then if width == 8 then (s.planEntry (off 0x80000300000 / 8) &&& planMask).toNat else 0
  else if a == 0x80000301000 then
    if width == 8 then s.planBusy.toNat * 2 + s.planResult * 4 + s.planEpoch * 16 else 0
  else if 0x80000400000 ≤ a && a < 0x80000410000 then
    if width == 8 then (s.queue (off 0x80000400000 / 64)).reg (a % 64) else 0
  else if a == 0x80000410000 then if width == 8 then s.slice.toNat else 0
  else if 0x80000500000 ≤ a && a < 0x80000501400 then if width == 8 then s.snap.reg (off 0x80000500000) else 0
  else if 0x80000600000 ≤ a && a < 0x80000610028 then s.integrityReg (off 0x80000600000) width
  else if 0x80000700000 ≤ a && a < 0x80000700030 then if width == 8 then s.power.value (off 0x80000700000 / 8) else 0
  else 0

/-- A range of local addresses touches the firmware area. -/
def touchesFirmware (a n : Nat) : Bool := a < 0x60000000000 && 0x5FFFC000000 < a + n

/-- Write a register of a queue (14 R367; 20 R443). -/
def State.writeQueueReg (s : State) (k off : Nat) (v : Word64) : State :=
  match off with
  | 0 =>
    let base : Word64 := v &&& 0x00FFFFFFFFFFF000
    if touchesFirmware (locOf base.toNat) (8 * 2 ^ (s.queue k).logSize) then s else s.updQueue k fun q => { q with base := base }
  | 8 => s.queueConfig k v
  | 32 => s.queueNotify k (v.toNat % 2 ^ 32)
  | _ => s

/-- Write a snapshot register (16 R391, R392). -/
def State.writeSnapReg (s : State) (off : Nat) (v : Word64) : State :=
  let n := s.snap
  if off == 0 then s.writeControl v
  else if n.enabled then s
  else if off == 8 then { s with snap := { n with ring := v &&& 0x00FFFFFFFFF00000 } }
  else if off == 0x10 then { s with snap := { n with units := v &&& 0xFFFFFFFF } }
  else if 0x40 ≤ off && off < 0xC0 then { s with snap := { n with members := aset n.members ((off - 0x40) / 8) (v &&& 0x13F) } }
  else if 0x1000 ≤ off && off < 0x1400 then
    let g := (off - 0x1000) / 16
    let r := agetD n.regions g (0, 0)
    let r' := if off % 16 == 0 then (v &&& 0x00FFFFFFFFFFFF01, r.2) else (r.1, v &&& 0xFFFFFFFFFF)
    { s with snap := { n with regions := aset n.regions g r' } }
  else s

/-- Write an integrity register (17 R422; 20 R443). -/
def State.writeIntegrity (s : State) (a off width : Nat) (v : Word64) : State :=
  let (k, o) := stackReg off
  let e := s.errRing
  if off < 0x300 then
    if o == 0 && width == 8 then s.stackCommand k v.toNat else if width == 4 then s.clearCounter a v.toNat else s
  else if width != 8 then s
  else match off with
    | 0x10000 =>
      let base := (v &&& 0x00FFFFFFFFFFF000).toNat
      if touchesFirmware (locOf base) (64 * 2 ^ e.n) then s else { s with errRing := { e with base := base } }
    | 0x10008 => { s with errRing := { e with n := v.toNat % 32 } }
    | 0x10010 => { s with errRing := { e with head := v.toNat, told := false } }
    | _ => s

/-- Write a control register; one at an address that no table names, or of another width, changes nothing. -/
def State.writeReg (s : State) (a width : Nat) (v : Word64) : State :=
  let off := fun (b : Nat) => a - b
  if 0x80000100000 ≤ a && a < 0x80000218000 then if width == 4 then s.clearCounter a v.toNat else s
  else if 0x80000300000 ≤ a && a < 0x80000301000 then
    if width == 8 then { s with planWritten := aset s.planWritten (off 0x80000300000 / 8) v } else s
  else if a == 0x80000301000 then if width == 8 then s.planControl v else s
  else if 0x80000400000 ≤ a && a < 0x80000410000 then
    if width == 8 then s.writeQueueReg (off 0x80000400000 / 64) (a % 64) v else s
  else if a == 0x80000410000 then if width == 8 then { s with slice := v &&& 0xFFFFFFFF } else s
  else if 0x80000500000 ≤ a && a < 0x80000501400 then if width == 8 then s.writeSnapReg (off 0x80000500000) v else s
  else if 0x80000600000 ≤ a && a < 0x80000610028 then s.writeIntegrity a (off 0x80000600000) width v
  else if 0x80000700000 ≤ a && a < 0x80000700030 then
    if width == 8 then { s with power := s.power.write (off 0x80000700000 / 8) v.toNat } else s
  else s

/-! ### Commands (20 R440) -/

/-- A command that the running state serves. -/
def State.serveCmd (s : State) (k : State) : State :=
  s.hearCmd (if s.boot == .running then k else s.answerWith { status := 2 })

/-- A message with a code that Table 20.1 does not list. -/
def State.unknownCmd (s : State) : State := s.hearCmd (s.answerWith { status := 1 })

/-- The checks of a register command: the range, the width code and the alignment. -/
def regOperands (a code : Nat) : Bool :=
  0x80000000000 ≤ a && a < 0x80040000000 && code ≤ 1 && a % (if code == 0 then 4 else 8) == 0

/-- `REG_READ` of the register at `input.addr` with width code `input.code`. -/
def execRegRead (s : State) : Host.Outcome State Fault Refusal :=
  let i := s.input
  .next <| s.serveCmd <|
    if regOperands i.addr i.code then s.answerWith { status := 0, value := s.readReg i.addr (if i.code == 0 then 4 else 8) }
    else s.answerWith { status := 3 }

/-- `REG_WRITE` of `input.value` to the register at `input.addr` with width code `input.code`. -/
def execRegWrite (s : State) : Host.Outcome State Fault Refusal :=
  let i := s.input
  .next <| s.serveCmd <|
    if regOperands i.addr i.code then (s.writeReg i.addr (if i.code == 0 then 4 else 8) i.value).answerWith { status := 0 }
    else s.answerWith { status := 3 }

/-! ### Contexts (13 R364, 20 R440) -/

/-- The snapshot engine stops its work for a context: handles complete cancelled, and the slot of an image that forms, or
of a replacement, is empty. -/
def State.stopSnap (s : State) (ctx : Nat) : State :=
  if !s.snap.serves ctx then s
  else
    let s1 := match s.snap.forming with
      | some f => ((({ s with snap := { s.snap with forming := none } } : State).setSlot f.slot {}).completeOp .snap f.seqNo 6 none f.gid 0 none)
      | none => s
    s1.snap.work.foldl (fun (s : State) w =>
      let s2 := s.endWork w 6 none
      match w.kind with
      | .receive _ => s2.setSlot 0 {}
      | _ => s2) s1

/-- Kill a context: its gangs go without being saved, and its queued records, side-log entries and cached translations with
them (13 R364). -/
def State.killCtx (s : State) (ctx : Nat) : State :=
  let gone := (s.gangs.filter fun e => e.2.ctx == ctx && e.2.run != .killed).map Prod.fst
  let bound := (s.ctx ctx).queues
  let s1 := gone.foldl (fun (s : State) k => s.killGang k) s
  let s2 := bound.foldl (fun (s : State) k =>
    s.updQueue k fun q => { q with head := q.tail, eligible := false, slot := none, times := [] }) s1
  let s3 : State := { s2 with
    sideLog := s2.sideLog.filter fun e => e.ctx != ctx
    tlbs := s2.tlbs.filter fun t => t.2.ctx != ctx
    pageReqs := s2.pageReqs.filter fun r => r.ctx != ctx
    waiting := s2.waiting.filter fun w => !bound.contains w.1.1
    reserving := s2.reserving.filter fun w => !bound.contains w.1 }
  (s3.stopSnap ctx).updCtx ctx fun c => { c with gen := c.gen + 1 }

/-- `CTX_CREATE` of identifier `input.unit`: generation `input.code`, root `input.addr`, trap vector `input.value` and step
`input.index`. A living context of the identifier is killed and replaced. -/
def execCtxCreate (s : State) : Host.Outcome State Fault Refusal :=
  let i := s.input
  .next <| s.serveCmd <|
    if 2 ^ 16 ≤ i.unit || 2 ^ 32 ≤ i.code || 2 ^ 64 ≤ i.addr || 2 ^ 64 ≤ i.index then s.answerWith { status := 3 }
    else
      let s1 := if (aget s.ctxs i.unit).isSome then s.killCtx i.unit else s
      let c : Ctx := { root := BitVec.ofNat 64 i.addr, gen := BitVec.ofNat 32 i.code, step := BitVec.ofNat 64 i.index, vector := i.value
                       xgen := (s.ctx i.unit).xgen }
      ({ s1 with ctxs := aset s1.ctxs i.unit c } : State).answerWith { status := 0 }

/-- The answer to `CTX_KILL`, once no killed gang of its context is left. -/
def State.answerKill (s : State) : State :=
  match s.killing with
  | some c => if s.gangs.any fun e => e.2.ctx == c && e.2.run == .killed then s else ({ s with killing := none } : State).answerWith { status := 0 }
  | none => s

/-- `CTX_KILL` of context `input.unit`: it answers when the last of its gangs is removed, at once where nothing of them is in flight. -/
def execCtxKill (s : State) : Host.Outcome State Fault Refusal :=
  .next <| s.serveCmd <|
    if (aget s.ctxs s.input.unit).isNone then s.answerWith { status := 3 }
    else ({ s.killCtx s.input.unit with killing := some s.input.unit } : State).answerKill

/-- `CTX_STEP`: the step of context `input.unit` becomes `input.value`, unless a gang of it is resident. -/
def execCtxStep (s : State) : Host.Outcome State Fault Refusal :=
  let i := s.input
  .next <| s.serveCmd <|
    if (aget s.ctxs i.unit).isNone then s.answerWith { status := 3 }
    else if s.gangs.any fun e => e.2.ctx == i.unit && e.2.run != .saved && e.2.run != .killed then s.answerWith { status := 2 }
    else (s.updCtx i.unit fun c => { c with step := i.value }).answerWith { status := 0 }

/-! ### Configuration and identity (20 R441-R444) -/

/-- The fields of a configuration record that hold apart from its signatures: the record as it would be applied, or none. -/
def cfgOf (bs : List Byte) (rollback : Nat) : Option (CfgRec × Nat) :=
  let w := fun (o : Nat) => leValue ((bs.drop o).take 8)
  let pkg := w 16
  let ends := w 40
  let members := w 24
  if bs.length != 6064 || w 0 != 1 || 64 ≤ pkg || w 48 != 0 || w 56 != 0 || ends &&& members != ends || ends.testBit pkg
      || w 8 < rollback then none
  else some ({ version := w 8, pkg := pkg, members := BitVec.ofNat 64 members, cap := w 32, endpoints := BitVec.ofNat 64 ends
               digest := Crypto.hash384 bs }, min 3200 (max 1200 (w 32)))

/-- Bytes of a record. -/
def slice (bs : List Byte) (lo hi : Nat) : List Byte := (bs.drop lo).take (hi - lo)

/-- An ECDSA signature and an LMS signature, one after the other, verify under a pair of keys over a message. -/
def signedBy (keys message sigs : List Byte) : Bool :=
  Crypto.ecdsaVerifies (slice keys 0 96) message (slice sigs 0 96) && Crypto.lmsVerifies (slice keys 96 152) message (slice sigs 96 2924)

/-- The root keys in ROM. -/
def rootKeys : List Byte := (List.range 152).map Config.rootKeyByte

/-- The vendor's and the owner's signatures of a record verify. -/
def cfgSigned (bs : List Byte) : Bool :=
  signedBy rootKeys (slice bs 64 216) (slice bs 216 3140)
    && signedBy (slice bs 64 216) (Crypto.hash384 (slice bs 0 3140)) (slice bs 3140 6064)

/-- The device's secrets as its keys use them, and its public keys (20 R443). -/
def deviceSecret : Nat := 1 + Config.deviceSecret % (Crypto.order384 - 1)
def lmsSeed : List Byte := (List.range 32).map Config.lmsSeedByte
def lmsId : List Byte := (List.range 16).map Config.lmsIdByte
def deviceKeys : List Byte := Crypto.ecdsaKey deviceSecret ++ Crypto.lmsKey lmsId lmsSeed

/-- The ROM digest. -/
def romDigest : List Byte := (List.range 48).map Config.romByte

/-- The signatures of a report by both device keys, with an LMS leaf. -/
def signatures (report : List Byte) (leaf : Nat) : List Byte :=
  Crypto.ecdsaSign deviceSecret (1 + Config.ecdsaDraw leaf % (Crypto.order384 - 1)) report
    ++ Crypto.lmsSign lmsId lmsSeed leaf ((List.range 32).map (Config.lmsDraw leaf)) report

/-- `CFG_LOAD` of the record `input.bytes`. Boot that has not run its self-test yet runs it first. -/
def execCfgLoad (s0 : State) : Host.Outcome State Fault Refusal :=
  let s := if s0.boot == .selfTest then s0.selfTest else s0
  .next <| s.hearCmd <|
    if s.boot != .awaiting then s.answerWith { status := 2 }
    else
      let refuse := fun (st : Nat) => (s.post { kind := .bootRefused, args := [st] }).answerWith { status := st }
      match cfgOf s.input.bytes s.rollback with
      | none => refuse 3
      | some (c, cap) =>
        if !cfgSigned s.input.bytes then refuse 4
        else ({ s with cfg := some c, rollback := c.version, boot := .running, power := { s.power with cap := cap } } : State).answerWith
          { status := 0 }

/-- `ATTEST` over the nonce `input.bytes`: the report with its signatures, which verify under the device keys of the report; its leaf is
used up first. -/
def execAttest (s : State) : Host.Outcome State Fault Refusal :=
  .next <| s.hearCmd <|
    if (s.boot != .awaiting && s.boot != .running) || 2 ^ 20 ≤ s.leaf then s.answerWith { status := 2 }
    else if s.input.bytes.length != 48 then s.answerWith { status := 3 }
    else
      let digest := match s.cfg with
        | some c => c.digest
        | none => List.replicate 48 0
      let report := s.input.bytes ++ romDigest ++ digest ++ deviceKeys ++ leBytes 8 s.leaf
        ++ leBytes 1 (if s.boot == .running then 2 else 1)
      ({ s with leaf := s.leaf + 1 } : State).answerWith { status := 0, bytes := report ++ signatures report s.leaf }

/-! ### Power (20 R445-R447) -/

/-- `POWER_CAP_WRITE` of `input.value` to selector `input.unit`. -/
def execPowerCapWrite (s : State) : Host.Outcome State Fault Refusal :=
  .next (s.whenRunning { s with power := s.power.write s.input.unit s.input.value.toNat })

/-- `POWER_CONTROL_TICK`: a millisecond of mean power `input.value` with die temperature `input.index` and coolant
`input.addr`. Above the cap the throttle falls, to a value that the spec leaves open; otherwise it may rise (log 39). -/
def execPowerControlTick (s : State) : Host.Outcome State Fault Refusal :=
  let p := s.power
  let w := s.input.value.toNat
  let x := Config.throttle s.draws w p.cap
  let throttle := if p.cap < w then x % max p.throttle 1 else p.throttle + x % (257 - min p.throttle 256)
  .next (if s.boot == .off then s.stall else { s with
    draws := s.draws + 1
    power := { p with power := w, energy := p.energy + w, temp := s.input.index, coolant := s.input.addr % 2 ^ 32, throttle := throttle
                      withheld := decide (p.cap < w) && p.throttle == 0 } })

/-- `THERMAL_LIMIT`: a die reaches 95 °C, or the coolant leaves its limits (20 R447). -/
def execThermalLimit (s : State) : Host.Outcome State Fault Refusal :=
  let i := s.input
  .next <|
    if i.index < 95 * 16 && i.addr % 2 ^ 16 ≤ 40 * 16 && 400 ≤ i.addr / 2 ^ 16 % 2 ^ 16 then s.stall
    else ({ s with power := { s.power with throttle := 64, temp := i.index, coolant := i.addr % 2 ^ 32 } } : State).post
      { kind := .thermalLimit, args := [i.index, i.addr] }

/-- `THERMAL_TRIP`: a die reaches 110 °C; issue stops, the persist queues drain, and the package resets. Its own event
stands before those of the boot (log 40). -/
def execThermalTrip (s : State) : Host.Outcome State Fault Refusal :=
  .next <|
    if s.input.index < 110 * 16 then s.stall
    else (s.packageReset.post { kind := .thermalTrip, args := [s.input.index] }).selfTest

end Sys2Proof.Machine
end

