-- ==== Sys2Proof/Machine/Upkeep.lean ====
section
/-!
DEFINITION. What happens beside the words: L1 upkeep, evaluations of parked lanes, the control ports, and what each step
settles before its turn (01 R23; 05 R147, R149; 06 R201; 07 R246; 11 R286, R304).
-/
namespace Sys2Proof.Machine

/-! ### L1 (11 R286) -/

/-- `L1_DIRTY_WRITEBACK` of line `input.index` in the L1 of core `input.unit`. -/
def execL1DirtyWriteback (s : State) : Host.Outcome State Fault Refusal :=
  let core := s.input.unit
  let line := s.input.index
  .next <| match aget s.l1 (core, line) with
    | none => s.stall
    | some l =>
      if l.dirty == 0 then s.stall
      else s.writeBackLine core line

/-- `L1_CLEAN_DROP` of line `input.index` in the L1 of core `input.unit`. -/
def execL1CleanDrop (s : State) : Host.Outcome State Fault Refusal :=
  .next <| match aget s.l1 (s.input.unit, s.input.index) with
    | none => s.stall
    | some l => if l.dirty == 0 then s.dropLine s.input.unit s.input.index else s.stall

/-! ### Parked lanes (05 R147, 06 R201) -/

/-- The virtual address that a parked lane waits on. -/
def ParkFor.addr? : ParkFor → Option Nat
  | .word a _ _ => some a
  | .signal a _ _ _ _ => some a
  | _ => none

/-- It waits in a `SIGWAIT`. -/
def ParkFor.isSignal : ParkFor → Bool | .signal _ _ _ _ _ => true | _ => false

/-- A group whose parked lanes are evaluated: its gang is neither saved nor stopped. -/
def State.evaluates (s : State) (gid : Nat) : Bool :=
  match aget s.groups gid with
  | none => false
  | some g => (s.gangOf g).run != .saved && (s.gangOf g).run != .killed && !(s.gangOf g).stopped

/-- Evaluate the lanes of a group that `sel` selects. -/
def State.evaluate (s : State) (gid : Nat) (sel : Group → Park → Bool) : State :=
  match aget s.groups gid with
  | none => s.stall
  | some g => if s.evaluates gid && g.parks.any (sel g) then s.evalParks gid (sel g) else s.stall

/-- A parked lane's word lies on the line of a physical address, in whatever package its home is; the host window sends no notice (06
R201). -/
def State.onLine (s : State) (a : Nat) (g : Group) (p : Park) : Bool :=
  match p.on.addr? with
  | none => false
  | some va =>
    let r := s.walk (s.ctxOf g) (va % 2 ^ 57)
    let x := (r.entry (s.ctxOf g) (va % 2 ^ 57) false).xlat (va % 2 ^ 57)
    r.status == 0 && x.kind ≤ 2 && x.pa / 128 == a / 128

/-- `PARK_WRITE_EVALUATION`: a write to the line of `input.addr` was performed; group `input.unit` has lanes parked on it. -/
def execParkWriteEvaluation (s : State) : Host.Outcome State Fault Refusal :=
  .next (s.evaluate s.input.unit fun g p => !p.on.isSignal && s.onLine s.input.addr g p)
/-- `PARK_PERIODIC_EVALUATION` of lane `input.index` of group `input.unit`. -/
def execParkPeriodicEvaluation (s : State) : Host.Outcome State Fault Refusal :=
  .next (s.evaluate s.input.unit fun _ p => !p.on.isSignal && p.lane == s.input.index)
/-- `SIGWAIT_WRITE_EVALUATION`: the same for `SIGWAIT`. -/
def execSigwaitWriteEvaluation (s : State) : Host.Outcome State Fault Refusal :=
  .next (s.evaluate s.input.unit fun g p => p.on.isSignal && s.onLine s.input.addr g p)
/-- `SIGWAIT_PERIODIC_EVALUATION`. -/
def execSigwaitPeriodicEvaluation (s : State) : Host.Outcome State Fault Refusal :=
  .next (s.evaluate s.input.unit fun _ p => p.on.isSignal && p.lane == s.input.index)

/-! ### The control ports (01 R23, 07 R246, 11 R304) -/

/-- `CONTROL_PORT_FAILURE` of port `input.unit`: the other port carries all traffic. -/
def execControlPortFailure (s : State) : Host.Outcome State Fault Refusal :=
  .next <| if s.ports.contains s.input.unit then
      ({ s with ports := delSet s.ports s.input.unit } : State).post { kind := .portFailed, args := [s.input.unit] }
    else s.stall

/-- Lines of some addresses that a core's L1 holds exclusively are recalled (12 R311). -/
def State.recallLines (s : State) (as : List Nat) : State := (linesOf as).foldl (fun (s : State) l => s.recallExclusive homeAgent l) s

/-- `CONTROL_NODE_MEMORY_WRITE` of `input.bytes` at local address `input.addr` of HBM or SCM: performed at the home slice. -/
def execControlNodeMemoryWrite (s : State) : Host.Outcome State Fault Refusal :=
  let as := span s.input.addr s.input.bytes.length
  .next <|
    if as.isEmpty || !memorySpan s.input.addr s.input.bytes.length then s.stall
    else s.whenReady as true <|
      (((s.recallLines as).dirTake as).homeWrite { cells := cellsAt s.input.addr s.input.bytes, through := placeOf s.input.addr == .scm })

/-- `EVENT_DELIVERY`: the oldest event goes to the control node through a port that works. -/
def execEventDelivery (s : State) : Host.Outcome State Fault Refusal :=
  .next <| if s.ports.isEmpty || s.events.isEmpty then s.stall else { s with events := s.events.drop 1 }

/-! ### What each step settles first -/

/-- Parked lanes whose word lies on a line that was written at its home are evaluated (05 R147, 06 R200, R201). -/
def State.settleParks (s : State) : State :=
  let lines := s.written
  if lines.isEmpty then s
  else
    let sel := fun (s : State) (g : Group) (p : Park) => lines.any fun l => s.onLine (paOf s.own (128 * l)) g p
    (s.groups.filter fun e => !e.2.parks.isEmpty && s.evaluates e.1).foldl (fun (s : State) e => s.evalParks e.1 (sel s e.2))
      { s with written := [] }

/-- What the units settle: invalidations, images, lines kept for words, directory messages, waiting requests, write-backs and loads,
packets that can leave or that come back, and the plan's end. -/
def State.settleUnits (s : State) : State :=
  let s1 := ((((s.settleInvals).settleSnap).settleAgents).settleMsgs).settleDir
  ((((s1.settleBacks).settleLines).settleEgress).settleOwn).settlePlan

/-- What the scheduler settles: page requests of side logs, killed gangs, pre-emptions that are due, queue heads, and readiness. -/
def State.settleWork (s : State) : State :=
  let s1 := ((((s.settleLogs).settleKilled.answerKill).settlePreempts).passHeads).settleParks
  (if s.clock % 4096 == 0 then s1.rereadRecords else s1.readRecords false).evalReady

/-- What follows from the state without a turn of its own. -/
def State.settle (s : State) : State := s.settleUnits.settleWork

end Sys2Proof.Machine
end

