-- ==== Sys2Proof/Machine/Fetch.lean ====
section
/-!
DEFINITION. Fetching words, and whose turn it is when nothing else orders the agents (04 R74, R94, R95; 05 R149, R150; 06 R195;
07 R223; 08 R257, R258; 17 Table 17.2).
-/
namespace Sys2Proof.Machine

/-! ### Fetching -/

/-- The outcome of fetching a word. -/
inductive Fetched where
  | word (w : Word64) (s : State)
  /-- the translation failed: status and level -/
  | fault (status level : Nat) (s : State)
  | poison (s : State)
  | wait (s : State)
  deriving DecidableEq, Repr

/-- The word at offset `o` of a line's bytes. -/
def wordIn (line : List Byte) (o : Nat) : Word64 := BitVec.ofNat 64 (leValue ((line.drop o).take 8))

/-- Fetch a word through a core's instruction cache, which keeps clean lines until `ICINV` (06 R195; log 41). -/
def State.fetchLine (s : State) (core ctx svc : Nat) (wi : WordIndex) (x : Xlat) : Fetched :=
  let va := 8 * wi
  let key := (core, ctx, va / 128, x.pa / 128)
  let a := locOf x.pa
  match aget s.icache key with
  | some bs => .word (wordIn bs (va % 128)) s
  | none => match s.linesReady false [(a / 128, false)] with
    | .demand s' => .wait s'.stall
    | .wait => .wait s.stall
    | .ready =>
      let beats := (List.range 4).map fun k => a / 128 * 128 + 32 * k
      let s1 := (s.l2Read core x 1 svc false).verify { byCore core ctx with aux := wi } [a]
      if s1.isBad [a] then .poison s1
      else
        let line := s1.readHome (a / 128 * 128) 128
        let clean := !s1.isBad beats && !beats.any fun b => s1.mismatch (b / 32)
        .word (wordIn line (va % 128)) (if clean then { s1 with icache := aset s1.icache key line } else s1)

/-- Translate a word's address in the core's TLBs with execute permission, and fetch it (04 R74). -/
def State.fetchAt (s : State) (core ctx svc : Nat) (sup : Bool) (wi : WordIndex) : Fetched :=
  match s.translate (coreTlbs core) ctx sup .fetch (8 * wi) with
  | .wait s' => .wait s'.stall
  | .fail st lv _ s1 => .fault st lv s1
  | .ok x s1 => s1.fetchLine core ctx svc wi x

/-- The place of a word in a loop body. -/
def LoopBuf.offset (b : LoopBuf) (wi : WordIndex) : Nat := wordMod (wi + 2 ^ 29 - b.first)

/-- The loop buffer holds the word at the issue address. -/
def Group.buffered (g : Group) : Bool :=
  match g.loopBuf with
  | some b => b.offset g.issue < b.len && (aget b.words (b.offset g.issue)).isSome
  | none => false

/-- Fetch the word at a group's issue address: from its loop buffer, when that holds it; a word outside the body releases
the buffer (05 R150). -/
def State.fetchGroup (s : State) (gid : Nat) (g : Group) : Fetched :=
  let wi := g.issue
  let buf := g.loopBuf.filter fun b => b.offset wi < b.len
  match buf.bind fun b => aget b.words (b.offset wi) with
  | some w => .word w s
  | none => match s.fetchAt (s.coreOf g) (s.ctxOf g) (g.svc.toNat % 4) g.supervisor wi with
    | .word w s1 => .word w (s1.updGroup gid fun x =>
        { x with loopBuf := buf.map fun b => { b with words := aset b.words (b.offset wi) w } })
    | r => r

/-! ### A turn of a group or a stream -/

/-- What a turn comes to: an instruction to execute in a state, or a state that ends the turn. -/
inductive TurnOf where
  | run (i : Instr) (s : State)
  | ended (s : State)
  deriving DecidableEq, Repr

/-- The group's gang lets it issue: it runs, or is being pre-empted while the group's chain may go on (02 R35, 13 R359). -/
def State.mayIssue (s : State) (g : Group) : Bool :=
  let x := s.gangOf g
  s.boot == .running && !x.stopped && (x.run == .running || (x.run == .stopping && !s.atStop g))

/-- What the decoder knows of a group. -/
def State.reader (s : State) (g : Group) : Reader := { window := s.window g, acc := (s.recOf g).acc, matrix := false }

/-- `POISON` at a fetched word (17 Table 17.2). -/
def fetchPoison (wi : WordIndex) : TrapInfo := { code := tcPoison, s58 := 8 * wi, s59 := wi }

/-- A fetch waits on its page; the word has not issued, and an open chain stays open (02 R34, 13 R346). -/
def State.holdFetch (s : State) (gid : Nat) (g : Group) : State :=
  s.putGroup gid { g with hold := .page (8 * g.issue) akFetch (s.walk (s.ctxOf g) (8 * g.issue)).last 0 g.issue }

/-- A group that is not held: its word is fetched and decoded; a fetch that faults comes before decoding (04 R95), and one from a page
on which the group has logged stores waits for them (13 R350). -/
def State.issueTurn (s : State) (gid : Nat) (g : Group) : TurnOf :=
  if !g.buffered && s.logsPage gid [8 * g.issue] then
    .ended (if s.requested (s.ctxOf g) (8 * g.issue / 4096) then s.holdFetch gid g else s.stall)
  else match s.fetchGroup gid g with
  | .wait s' => .ended s'
  | .fault st lv s' => .ended (match s'.pageRequest (s.ctxOf g) (8 * g.issue) akFetch st lv gid with
    | some s1 => s1.holdFetch gid g
    | none => s'.stall)
  | .poison s' => .ended (s'.trap gid g (fetchPoison g.issue))
  | .word w s' => .run (decode (s.reader g) w) { s' with cur := .group gid, word := w }

/-- A group's turn (08 R257). -/
def State.groupTurn (s : State) (gid : Nat) : TurnOf :=
  match aget s.groups gid with
  | none => .ended s.stall
  | some g =>
    if !s.mayIssue g || g.issue?.isNone then .ended s.stall
    else match g.hold with
      | .none => s.issueTurn gid g
      | .pageFailed va kind last lanes word f =>
        .ended (s.trapWith gid { g with hold := .none } (pageFault va kind f last lanes) word false)
      | _ => .ended s.stall

/-- A stream that goes on: it runs, waits on no page, and its gang lets it (07 R223, 13 R360). -/
def State.streamGoes (s : State) (team : Team) (st : Stream) : Bool :=
  let x := s.gang team.gang
  s.boot == .running && st.running && st.heldPage.isNone && !x.stopped
    && (x.run == .running || (x.run == .stopping && st.chunk != 0))

/-- A stream's turn: its word is fetched, once for all the chunks of a drain, and decoded as a matrix-stream word (04 R94). -/
def State.streamTurn (s : State) (t q : Nat) : TurnOf :=
  match aget s.teams t with
  | none => .ended s.stall
  | some team => match (agetD team.units q {}).stream with
    | none => .ended s.stall
    | some st =>
      if !s.streamGoes team st then .ended s.stall
      else
        let ctx := (s.gang team.gang).ctx
        let rd : Reader := { window := 8 * (s.gang team.gang).rec_.window, acc := (s.gang team.gang).rec_.acc, matrix := true }
        let go := fun (w : Word64) (s : State) =>
          TurnOf.run (decode rd w) { s.updStream t q (fun x => { x with word := w }) with cur := .stream t q, word := w }
        if st.chunk != 0 then go st.word s
        else match s.fetchAt team.core ctx 1 st.supervisor st.pc with
          | .wait s' => .ended s'
          | .fault fs lv s' => .ended (match s'.pageRequest ctx (8 * st.pc) akFetch fs lv st.forker with
            | some s1 => s1.updStream t q fun x => { x with heldPage := some (8 * st.pc / 4096) }
            | none => s'.stall)
          | .poison s' => .ended (s'.endStream t q st 5 (some { fetchPoison st.pc with
              status := 5, s61 := (mkHandle (0x10 + q) st.seqNo).toNat }))
          | .word w s' => go w s'

/-! ### `YIELD` (05 R149) -/

/-- Another group of the quarter issued, or (`slot` false) is not ready: a held group counts it no longer. -/
def Group.unyield (g : Group) (gid : Nat) (slot : Bool) : Group :=
  match g.hold with
  | .yielded ws n =>
    let left := delSet ws gid
    if left.isEmpty || (slot && n ≤ 1) then { g with hold := .none } else { g with hold := .yielded left (n - slot.toNat) }
  | _ => g

/-- Tell the groups of a quarter that a group of it issued, or is not ready. -/
def State.unyield (s : State) (core q gid : Nat) (slot : Bool) : State :=
  { s with groups := s.groups.map fun e =>
      if e.1 != gid && s.coreOf e.2 == core && s.quarterOf e.2 == q then (e.1, e.2.unyield gid slot) else e }

/-- After a group's try in state `s` that led to `s'`. -/
def State.afterTry (s s' : State) (gid : Nat) : State :=
  match aget s.groups gid with
  | none => s'
  | some g =>
    -- a word that issues and then waits has taken its slot
    let began := !g.begun && ((aget s'.groups gid).map Group.begun).getD false
    s'.unyield (s.coreOf g) (s.quarterOf g) gid (!s'.stalled || began)

/-- Groups that a `YIELD` counts and that stopped being ready count no longer. -/
def State.settleYields (s : State) : State :=
  { s with groups := s.groups.map fun e => match e.2.hold with
      | .yielded ws n =>
        let left := ws.filter fun k => ((aget s.groups k).map s.couldIssue).getD false
        (e.1, { e.2 with hold := if left.isEmpty then .none else .yielded left n })
      | _ => e }

/-! ### Whose turn it is (08 R258; log 2) -/

/-- The part's own work that can go on, one turn for each piece; arrivals, faults and commands are not among it. -/
def State.work (s : State) : List Turn :=
  let each := fun {α : Type} (l : List α) (i : Instr) => (List.range l.length).map fun k => Turn.device i { index := k }
  let units := fun (n : Nat) (i : Instr) => (List.range n).map fun k => Turn.device i { unit := k }
  each s.copyOps .copyUnit ++ each s.chases .chaseStep ++ each s.listOps .kioskListStep
    ++ (if s.rowOps.isEmpty then [] else units 12 .rowStep)
    ++ each s.kvups .kvupChunk
    ++ ((List.range s.krcps.length).flatMap fun j => (List.range 12).map fun k => Turn.device .recipeInstall { index := j, unit := k })
    ++ (if s.snap.forming.isSome then [.device .imageLineCopy {}] else [])
    ++ (if s.snap.work.isEmpty then [] else [.device .survivorRebuildWork {}, .device .copyUnit { index := s.copyOps.length }])
    ++ each s.mcasts .multicastCopy
    ++ (if s.persists.isEmpty then [] else units 4 .persistAccept ++ units 4 .persistDrain)
    ++ (uniq (s.memReqs.map MemReq.channel)).map (fun c => .device .memoryRequestService { unit := c })
    ++ (s.teams.map fun t => Turn.device .teamRetirement { index := t.1 })
    ++ (s.gangs.filter fun k => k.2.run == .handing).map (fun k => .device .successorAdmission { index := k.1 })
    ++ (s.gangs.filter fun k => k.2.run == .stopping).map (fun k => .device .preemptionSave { index := k.1 })
    ++ (if s.waiting.isEmpty then [] else [.device .taskAdmission {}, .device .gangResume {}, .device .timeSliceExpiry {}])

/-- The turn that writes back a dirty line or drops a clean one. -/
def upkeepTurn (e : (Nat × Nat) × L1Line) : Turn :=
  .device (if e.2.dirty == 0 then .l1CleanDrop else .l1DirtyWriteback) { unit := e.1.1, index := e.1.2 }

/-- An L1 line that has been dirty, or filled and clean, for 4096 steps (11 R286; a step takes a clock or more). -/
def State.agedLines (s : State) : List Turn := ((s.l1.filter fun e => e.2.since + 4096 ≤ s.clock).take 1).map upkeepTurn

/-- The parked lane whose turn it is to be evaluated (05 R147): they take turns. -/
def State.parkTurn (s : State) : List Turn :=
  let ps := s.groups.flatMap fun e => e.2.parks.map fun p =>
    Turn.device (if p.on.isSignal then .sigwaitPeriodicEvaluation else .parkPeriodicEvaluation) { unit := e.1, index := p.lane }
  (ps.drop (s.clock / 2 % max ps.length 1)).take 1

/-- A group or a stream with its place in the order of R258. -/
structure Runner where
  turn : Turn
  lastIssue : Nat
  admitted : Nat
  idx : Nat
  deriving DecidableEq, Repr

/-- Its last issue lies further in the past; ties go to the one admitted first, then to the lower index (08 R258). -/
def Runner.before (a b : Runner) : Bool :=
  if a.lastIssue != b.lastIssue then decide (a.lastIssue < b.lastIssue)
  else if a.admitted != b.admitted then decide (a.admitted < b.admitted) else decide (a.idx ≤ b.idx)

/-- Put a runner into its place. -/
def Runner.insert (r : Runner) : List Runner → List Runner
  | [] => [r]
  | x :: xs => if r.before x then r :: x :: xs else x :: Runner.insert r xs

/-- The groups that are ready as far as their state says, and the streams that go on, in the order of R258. -/
def State.runners (s : State) : List Turn :=
  let groups := (s.groups.filter fun e => s.mayIssue e.2 && e.2.issue?.isSome).map fun e =>
    ({ turn := .group e.1, lastIssue := e.2.lastIssue, admitted := e.2.admitted, idx := e.2.idx } : Runner)
  let streams := s.teams.flatMap fun t => t.2.units.filterMap fun u => match u.2.stream with
    | some st => if s.streamGoes t.2 st then
        some ({ turn := .stream t.1 u.1, lastIssue := st.lastIssue, admitted := (s.gang t.2.gang).admitted, idx := 128 + u.1 } : Runner)
      else none
    | none => none
  ((groups ++ streams).foldr Runner.insert []).map Runner.turn

/-- The turns to try, in order, when the agenda is empty: the mapper, L1 lines that are due, the part's own work, at every other step a
parked lane, a group or a stream, any L1 line, and a parked lane (log 2). -/
def State.defaultTurns (s : State) : List Turn :=
  (if s.clock % 4096 == 0 && s.bestInactive.isSome then [.device .mapperRebalance {}] else []) ++ s.agedLines ++ s.work ++ (if s.clock % 2 == 0 then s.parkTurn else []) ++ s.runners ++ (s.l1.take 1).map upkeepTurn ++ s.parkTurn

/-! ### The start of a step -/

/-- A step begins: its time, and what follows from what the last one left. -/
def State.tick (s : State) : State :=
  ({ s with clock := s.clock + 1, time := s.time + Config.clocksOf s.clock, stalled := false, blocked := false, cur := .none } : State).settle.settleYields

end Sys2Proof.Machine
end

