-- ==== Sys2Proof/Machine/Loader.lean ====
section
/-!
DEFINITION. A word placed where the next step fetches: at the place that the agenda's head fetches from, or, in a package that
has nothing to run, in a smallest program that the loader sets up (log 42).
-/
namespace Sys2Proof.Machine

/-- Where the agent at the head of the agenda fetches its next word, as a local address: a stream when `matrix`, else a
group. -/
def State.fetchPlace (s : State) (matrix : Bool) : Option Nat :=
  let at_ := fun (ctx wi : Nat) =>
    let r := s.walk ctx (8 * wi)
    if r.status == 0 then some (locOf ((r.entry ctx (8 * wi) false).xlat (8 * wi)).pa) else none
  match s.turns with
  | .group gid :: _ => match aget s.groups gid with
    | some g => if !matrix && s.mayIssue g && g.issue?.isSome && g.hold == .none then at_ (s.ctxOf g) g.issue else none
    | none => none
  | .stream t q :: _ => match aget s.teams t with
    | some team => match (agetD team.units q {}).stream with
      | some st => if matrix && s.streamGoes team st && st.chunk == 0 then at_ (s.gang team.gang).ctx st.pc else none
      | none => none
    | none => none
  | _ => none

/-- The loader's gang, team and group, and the word index of its code. -/
def loadGang : Nat := 1
def loadTeam : Nat := 256
def loadGroup : Nat := 32768
def loadWord : WordIndex := 8192

/-- A gang of one team of one group with the largest window and eight tiles. -/
def loadRecord : Record := { entry := loadWord, window := 128, stack := 256, scratch := 16, acc := 8, ctx := 1 }

/-- Three page-table entries that map the lowest gibibyte onto HBM for every access: two tables and a leaf (13 R340-R342). -/
def loadTables : List (Nat × Nat) := [(0x1000, 0x200F), (0x2000, 0x300F), (0x3000, 0x7F)]

/-- A running context, gang, team and group, and for a matrix word a stream, that fetch at `loadWord`. -/
def State.load (s : State) (matrix : Bool) : State :=
  let st : Stream := { pc := loadWord, forker := loadGroup, seqNo := 1, rng := 0, origin := 0, supervisor := false }
  let unit : MUnit := { stream := if matrix then some st else none }
  let g : Group := { team := loadTeam, idx := 0, lpc := List.replicate 32 loadWord }
  { s with
    boot := .running
    turns := [if matrix then .stream loadTeam 0 else .group loadGroup]
    mem := loadTables.foldl (fun m p => writeLE m p.1 8 p.2) s.mem
    ctxs := aset s.ctxs 1 { root := 0x1000 }
    gangs := aset s.gangs loadGang { ctx := 1, recAddr := 0, rec_ := loadRecord, cores := [0] }
    teams := aset s.teams loadTeam { gang := loadGang, idx := 0, core := 0, quarters := [0], units := [(0, unit)] }
    groups := aset s.groups loadGroup g
    tlbs := [] }

/-- Put the 8 bytes of a word at a local address, clean, and out of every instruction cache and loop buffer. -/
def State.putWord (s : State) (a : Nat) (w : Nat) : State :=
  { s with
    mem := writeLE s.mem a 8 w
    poison := delSet s.poison (a / 32)
    badCheck := aerase s.badCheck (a / 32)
    icache := []
    groups := s.groups.map fun e => (e.1, { e.2 with loopBuf := none }) }

end Sys2Proof.Machine
end

