-- ==== Sys2Proof/Machine/Convert.lean ====
section
/-!
DEFINITION. Conversion, quantisation and sub-word dot products (05 R125-R132).
-/
namespace Sys2Proof.Machine

/-- A 64-bit type (05 R125). -/
def wideTy (t : Ty) : Bool := Ty.width t == 64
/-- The type that `type2` names. -/
def VArgs.src2 (a : VArgs) : Ty := Ty.ofCode a.ty2

def execCvt (a : VArgs) (s : State) : Host.Outcome State Fault Refusal :=
  runVec s (dstV a (wideTy a.ty)) (srcA a (wideTy (VArgs.src2 a))) .none
    (lCvt a.ty (VArgs.src2 a) a.rnd a.ftz a.sat a.sub.toNat)

/-- The block of `QBLK`: the values of A in the active lanes (05 R127). -/
def blockOf (g : Group) (x : VSrc) (ftz : Bool) : List FVal :=
  (lanesOf g.active).map fun l => Fmt.f32.decode ftz 0 (lo32 (g.src x l)).toNat

def execQblk (a : VArgs) (s : State) : Host.Outcome State Fault Refusal :=
  runVecG s (dstV a) (srcA a false) .none (fun _ => []) fun g i =>
    i.out (BitVec.ofNat 64 (blockScale a.ty (blockOf g (srcA a false) a.ftz)))

/-- `QPACK4` and `QPACK8` on `n` consecutive registers from A (05 R128). -/
def runPack (s : State) (a : VArgs) (n : Nat) : Host.Outcome State Fault Refusal :=
  let regs := (List.range n).map (a.a.toNat + ·)
  runVecG s (dstV a) .none (srcB a false) (fun g => regs.map fun r => (.v r, g.active)) fun g i =>
    lPack a.ty a.rnd a.ftz a.sat (regs.map fun r => g.v r i.lane) i

def execQpack4 (a : VArgs) (s : State) : Host.Outcome State Fault Refusal := runPack s a 8
def execQpack8 (a : VArgs) (s : State) : Host.Outcome State Fault Refusal := runPack s a 4
def execQunpk (a : VArgs) (s : State) : Host.Outcome State Fault Refusal :=
  vec2 s a (lUnpack (VArgs.src2 a) a.rnd a.ftz a.sub.toNat)

/-- The lane whose scale word a lane reads (05 R131). -/
def octetHead (l : Nat) : Nat := l / 8 * 8

/-- The lanes whose scale words the lanes of `m` read. -/
def octetHeads (m : Word32) : Word32 := maskOf fun l => (lanesOf m).any fun k => octetHead k == l

/-- The scale byte of a lane: byte `c` of the upper half of a pair or latch, at the head of the octet. -/
def scaleByte (g : Group) (x : VSrc) (c l : Nat) : Nat := field (g.src x (octetHead l)).toNat (32 + 8 * c) 8

/-- A scaled dot product (05 R131): `step` says that lanes with bit 2 set read the next byte. -/
def runDot (s : State) (a : VArgs) (t : Ty) (step : Bool) : Host.Outcome State Fault Refusal :=
  let A := srcA a true
  let B := srcB a true
  let up := fun (latch : Bool) (n : Nat) (g : Group) =>
    if latch then [] else [(RegRef.v (n + 1), octetHeads g.active)]
  let sel := fun (k l : Nat) => (k + (if step then l / 4 % 2 else 0)) % 4
  runVecG s (dstVD a) (srcA a false) (srcB a false)
    (fun g => up a.la a.a.toNat g ++ up a.lb a.b.toNat g)
    fun g i => lDotScaled t (scaleByte g A (sel (a.ty2.toNat / 4) i.lane) i.lane)
      (scaleByte g B (sel (a.ty2.toNat % 4) i.lane) i.lane) i

def execDot4E4m3 (a : VArgs) (s : State) : Host.Outcome State Fault Refusal := runDot s a .e4m3 false
def execDot4E5m2 (a : VArgs) (s : State) : Host.Outcome State Fault Refusal := runDot s a .e5m2 false
def execDot4I8 (a : VArgs) (s : State) : Host.Outcome State Fault Refusal :=
  if a.ty = .f32 then runDot s a .i8 false else vec3 s a (lDotInt 8)
def execDot8E2m1 (a : VArgs) (s : State) : Host.Outcome State Fault Refusal := runDot s a .e2m1 true
def execDot8I4 (a : VArgs) (s : State) : Host.Outcome State Fault Refusal :=
  if a.ty = .f32 then runDot s a .i4 true else vec3 s a (lDotInt 4)

end Sys2Proof.Machine
end

