-- ==== Sys2Proof/Machine/Integer.lean ====
section
/-!
DEFINITION. Integer and address arithmetic (05 R109-R111).
-/
namespace Sys2Proof.Machine

def execIadd (a : VArgs) (s : State) : Host.Outcome State Fault Refusal := vec2 s a (lInt2 a.ty (· + ·))
def execIaddImm (a : IArgs) (s : State) : Host.Outcome State Fault Refusal := vecImm s a (immS a) (lInt2 .i32 (· + ·))
def execIsub (a : VArgs) (s : State) : Host.Outcome State Fault Refusal := vec2 s a (lInt2 a.ty (· - ·))
def execIsubImm (a : IArgs) (s : State) : Host.Outcome State Fault Refusal := vecImm s a (immS a) (lInt2 .i32 (· - ·))

/-- `IADDC` (05 R110): the sum of a lane with its carry, exact. -/
def addCarry (g : Group) (a : VArgs) (l : Nat) : Nat :=
  (lo32 (g.src (srcA a false) l)).toNat + (lo32 (g.src (srcB a false) l)).toNat + ((g.m a.sub.toNat).getLsbD l).toNat

/-- `IADDC` (05 R110): the carry mask is written even under `NW`. -/
def execIaddc (a : VArgs) (s : State) : Host.Outcome State Fault Refusal :=
  onGroup s fun gid g0 =>
    let m := g0.active
    let A := srcA a false
    let B := srcB a false
    s.member gid g0 (A.latches ++ B.latches) (A.reads m ++ B.reads m) (dstV a).writes fun g =>
      let outs := g.laneOuts (dstV a) A B fun i => i.out (BitVec.ofNat 64 (addCarry g a i.lane % 2 ^ 32))
      let g1 := g.writeOuts (dstV a) m outs
      let carry := maskOf fun l => if m.getLsbD l then decide (2 ^ 32 ≤ addCarry g a l) else (g.m a.sub.toNat).getLsbD l
      s.memberDone gid ((g1.setM a.sub.toNat carry).shiftLatches m fun l => (outAt outs l).r) 1 1

def execIadds (a : VArgs) (s : State) : Host.Outcome State Fault Refusal := vec2 s a (lAdds a.ty)
def execImul (a : VArgs) (s : State) : Host.Outcome State Fault Refusal := vec2 s a (lInt2 a.ty (· * ·))
def execImulImm (a : IArgs) (s : State) : Host.Outcome State Fault Refusal := vecImm s a (immS a) (lInt2 .i32 (· * ·))
def execImulh (a : VArgs) (s : State) : Host.Outcome State Fault Refusal := vec2 s a (lInt2 a.ty imulh)
def execImad (a : VArgs) (s : State) : Host.Outcome State Fault Refusal := vec3 s a (lInt3 a.ty fun x y d => x * y + d)
def execIdiv (a : VArgs) (s : State) : Host.Outcome State Fault Refusal := vec2 s a (lInt2 a.ty idiv)
def execIrem (a : VArgs) (s : State) : Host.Outcome State Fault Refusal := vec2 s a (lInt2 a.ty irem)
def execImin (a : VArgs) (s : State) : Host.Outcome State Fault Refusal := vec2 s a (lInt2 a.ty min)
def execIminImm (a : IArgs) (s : State) : Host.Outcome State Fault Refusal := vecImm s a (immS a) (lInt2 .i32 min)
def execImax (a : VArgs) (s : State) : Host.Outcome State Fault Refusal := vec2 s a (lInt2 a.ty max)
def execImaxImm (a : IArgs) (s : State) : Host.Outcome State Fault Refusal := vecImm s a (immS a) (lInt2 .i32 max)
def execIabs (a : VArgs) (s : State) : Host.Outcome State Fault Refusal :=
  vec1 s a (lUnaryInt a.sat fun x => (x.natAbs : Int))
def execIneg (a : VArgs) (s : State) : Host.Outcome State Fault Refusal := vec1 s a (lUnaryInt a.sat fun x => -x)

/-- A comparison that writes one bit of a mask for each executing lane (05 R110, R119). -/
def runCompare (s : State) (a : VArgs) (f : Word64 → Word64 → Bool × Flags) : Host.Outcome State Fault Refusal :=
  let A : VSrc := .vec a.a.toNat false
  let B : VSrc := .vec a.b.toNat false
  let d := a.d.toNat
  let res := fun (g : Group) (l : Nat) => f (g.src A l) (g.src B l)
  let eff := fun (g : Group) =>
    let m := g.active
    (g.setM d (maskOf fun l => if m.getLsbD l then (res g l).1 else (g.m d).getLsbD l)).raise
      (Flags.union ((lanesOf m).map fun l => (res g l).2))
  let reads := fun (g : Group) => A.reads g.active ++ B.reads g.active
  if d = 8 then runPlain s reads [] eff else runOnce s reads [] eff

def execIcmp (a : VArgs) (s : State) : Host.Outcome State Fault Refusal :=
  runCompare s a fun x y => (condInt a.sub.toNat (opInt a.ty x) (opInt a.ty y), 0)

def execIsel (a : VArgs) (s : State) : Host.Outcome State Fault Refusal :=
  runVecG s (dstV a) (srcA a false) (srcB a false) (fun _ => []) fun g i =>
    i.out ((lo32 (if (g.m a.sub.toNat).getLsbD i.lane then i.a else i.b)).zeroExtend 64)

def execIclamp (a : VArgs) (s : State) : Host.Outcome State Fault Refusal :=
  vec3 s a (lInt3 a.ty fun x y d => min (max d x) y)
def execIsad (a : VArgs) (s : State) : Host.Outcome State Fault Refusal := vec3 s a (lSad a.ty)
def execIadd64 (a : VArgs) (s : State) : Host.Outcome State Fault Refusal := vec2w s a (lInt64 (· + ·))
def execIsub64 (a : VArgs) (s : State) : Host.Outcome State Fault Refusal := vec2w s a (lInt64 (· - ·))
def execImul64 (a : VArgs) (s : State) : Host.Outcome State Fault Refusal := vec2w s a (lInt64 (· * ·))
def execAadd (a : VArgs) (s : State) : Host.Outcome State Fault Refusal :=
  runVec s (dstV a true) (srcA a true) (srcB a false) fun i => i.out (addr57 i.a i.b a.sub.toNat)
def execAlea (a : VArgs) (s : State) : Host.Outcome State Fault Refusal :=
  runVec s (dstV a true) (.sca a.a.toNat) (srcB a false) fun i => i.out (addr57 i.a i.b a.sub.toNat)
def execImovw (a : IArgs) (s : State) : Host.Outcome State Fault Refusal :=
  runVec s { d := a.d.toNat, nw := a.nw, readsD := true } .none .none (lMovw a.imm)

end Sys2Proof.Machine
end

