-- ==== Sys2Proof/Machine/Float.lean ====
section
/-!
DEFINITION. Floating-point instructions (05 R116-R124). Values, rounding, NaNs and flags are those of Fp.lean.
-/
namespace Sys2Proof.Machine

/-- A unary FP32 effect on a lane. -/
def lF1 (rnd : Rnd) (ftz : Bool) (f : BitVec 22 → FVal → Exact) (i : LaneIn) : LaneOut :=
  lF32 rnd ftz (fun x _ _ => f i.origin x) i
/-- A binary one. -/
def lF2 (rnd : Rnd) (ftz : Bool) (f : BitVec 22 → FVal → FVal → Exact) (i : LaneIn) : LaneOut :=
  lF32 rnd ftz (fun x y _ => f i.origin x y) i

/-- a - b, with NaNs kept as they are read (03 R66). -/
def fsub (rnd : Rnd) (origin : BitVec 22) (x y : FVal) : Exact := nanFirst [x, y] (fadd rnd origin x y.flip)

def execFadd (a : VArgs) (s : State) : Host.Outcome State Fault Refusal := vec2 s a (lF2 a.rnd a.ftz (fadd a.rnd))
def execFsub (a : VArgs) (s : State) : Host.Outcome State Fault Refusal := vec2 s a (lF2 a.rnd a.ftz (fsub a.rnd))
def execFmul (a : VArgs) (s : State) : Host.Outcome State Fault Refusal := vec2 s a (lF2 a.rnd a.ftz fmul)
def execFfma (a : VArgs) (s : State) : Host.Outcome State Fault Refusal :=
  vec3 s a fun i => lF32 a.rnd a.ftz (ffma a.rnd i.origin) i
def execFmin (a : VArgs) (s : State) : Host.Outcome State Fault Refusal :=
  vec2 s a (lF2 a.rnd a.ftz fun _ => fminmax false)
def execFmax (a : VArgs) (s : State) : Host.Outcome State Fault Refusal :=
  vec2 s a (lF2 a.rnd a.ftz fun _ => fminmax true)
def execFabs (a : VArgs) (s : State) : Host.Outcome State Fault Refusal := vec1 s a (lFabs a.ftz)
def execFneg (a : VArgs) (s : State) : Host.Outcome State Fault Refusal := vec1 s a (lFneg a.ftz)
def execFcmp (a : VArgs) (s : State) : Host.Outcome State Fault Refusal := runCompare s a (fcond a.sub.toNat a.ftz)
def execFclass (a : VArgs) (s : State) : Host.Outcome State Fault Refusal := vec1 s a (lFclass a.ftz)
def execFrcp (a : VArgs) (s : State) : Host.Outcome State Fault Refusal := vec1 s a (lF1 a.rnd a.ftz frcp)
def execFrsq (a : VArgs) (s : State) : Host.Outcome State Fault Refusal := vec1 s a (lF1 a.rnd a.ftz frsq)
def execFsqrt (a : VArgs) (s : State) : Host.Outcome State Fault Refusal := vec1 s a (lF1 a.rnd a.ftz fsqrt)
def execFdiv (a : VArgs) (s : State) : Host.Outcome State Fault Refusal := vec2 s a (lF2 a.rnd a.ftz fdiv)
def execFex2 (a : VArgs) (s : State) : Host.Outcome State Fault Refusal := vec1 s a (lF1 a.rnd a.ftz fex2)
def execFlg2 (a : VArgs) (s : State) : Host.Outcome State Fault Refusal := vec1 s a (lF1 a.rnd a.ftz flg2)
def execFtanh (a : VArgs) (s : State) : Host.Outcome State Fault Refusal :=
  vec1 s a (lF1 a.rnd a.ftz fun _ => ftanh)
def execFrnd (a : VArgs) (s : State) : Host.Outcome State Fault Refusal :=
  vec1 s a (lF1 a.rnd a.ftz fun _ => frnd { rnd := a.rnd, ftz := a.ftz })
/-- `FSCALE` in a lane: b is read as `.i32`. -/
def lFscale (rnd : Rnd) (ftz : Bool) (i : LaneIn) : LaneOut :=
  lF32 rnd ftz (fun x _ _ => fscale x (lo32 i.b).toInt) i
def execFscale (a : VArgs) (s : State) : Host.Outcome State Fault Refusal := vec2 s a (lFscale a.rnd a.ftz)
def execHadd2 (a : VArgs) (s : State) : Host.Outcome State Fault Refusal :=
  vec2 s a fun i => lHalf a.ty a.rnd a.ftz a.sat (fun x y _ => fadd a.rnd i.origin x y) i
def execHmul2 (a : VArgs) (s : State) : Host.Outcome State Fault Refusal :=
  vec2 s a fun i => lHalf a.ty a.rnd a.ftz a.sat (fun x y _ => fmul i.origin x y) i
def execHfma2 (a : VArgs) (s : State) : Host.Outcome State Fault Refusal :=
  vec3 s a fun i => lHalf a.ty a.rnd a.ftz a.sat (ffma a.rnd i.origin) i
def execHdot2 (a : VArgs) (s : State) : Host.Outcome State Fault Refusal := vec3 s a (lHdot a.ty)

end Sys2Proof.Machine
end

