-- ==== Sys2Proof/Machine/Logic.lean ====
section
/-!
DEFINITION. Logic and bit operations (05 R112-R115).
-/
namespace Sys2Proof.Machine

def execAnd (a : VArgs) (s : State) : Host.Outcome State Fault Refusal := vec2 s a (lBit2 (· &&& ·))
def execAndImm (a : IArgs) (s : State) : Host.Outcome State Fault Refusal := vecImm s a (immZ a) (lBit2 (· &&& ·))
def execOr (a : VArgs) (s : State) : Host.Outcome State Fault Refusal := vec2 s a (lBit2 (· ||| ·))
def execOrImm (a : IArgs) (s : State) : Host.Outcome State Fault Refusal := vecImm s a (immZ a) (lBit2 (· ||| ·))
def execXor (a : VArgs) (s : State) : Host.Outcome State Fault Refusal := vec2 s a (lBit2 (· ^^^ ·))
def execXorImm (a : IArgs) (s : State) : Host.Outcome State Fault Refusal := vecImm s a (immZ a) (lBit2 (· ^^^ ·))
def execAndn (a : VArgs) (s : State) : Host.Outcome State Fault Refusal := vec2 s a (lBit2 fun x y => x &&& ~~~ y)
def execAndnImm (a : IArgs) (s : State) : Host.Outcome State Fault Refusal :=
  vecImm s a (immZ a) (lBit2 fun x y => x &&& ~~~ y)
def execNot (a : VArgs) (s : State) : Host.Outcome State Fault Refusal := vec1 s a (lBit1 (~~~ ·))
def execShl (a : VArgs) (s : State) : Host.Outcome State Fault Refusal := vec2 s a (lBit2 shl)
def execShlImm (a : IArgs) (s : State) : Host.Outcome State Fault Refusal := vecImm s a (immZ a) (lBit2 shl)
def execShr (a : VArgs) (s : State) : Host.Outcome State Fault Refusal := vec2 s a (lBit2 shr)
def execShrImm (a : IArgs) (s : State) : Host.Outcome State Fault Refusal := vecImm s a (immZ a) (lBit2 shr)
def execSar (a : VArgs) (s : State) : Host.Outcome State Fault Refusal := vec2 s a (lBit2 sar)
def execSarImm (a : IArgs) (s : State) : Host.Outcome State Fault Refusal := vecImm s a (immZ a) (lBit2 sar)
def execRot (a : VArgs) (s : State) : Host.Outcome State Fault Refusal := vec2 s a (lBit2 rot)
def execRotImm (a : IArgs) (s : State) : Host.Outcome State Fault Refusal := vecImm s a (immZ a) (lBit2 rot)
def execFshl (a : VArgs) (s : State) : Host.Outcome State Fault Refusal := vec3 s a (lBit3 fshl)
def execFshr (a : VArgs) (s : State) : Host.Outcome State Fault Refusal := vec3 s a (lBit3 fshr)
def execBfx (a : VArgs) (s : State) : Host.Outcome State Fault Refusal := vec2 s a (lBit2 (bfx (Ty.signed a.ty)))
def execBfi (a : VArgs) (s : State) : Host.Outcome State Fault Refusal := vec3 s a (lBit3 bfi)
def execPopc (a : VArgs) (s : State) : Host.Outcome State Fault Refusal := vec1 s a (lBit1 popc)
def execClz (a : VArgs) (s : State) : Host.Outcome State Fault Refusal := vec1 s a (lBit1 clz)
def execBrev (a : VArgs) (s : State) : Host.Outcome State Fault Refusal := vec1 s a (lBit1 brev)
def execBytx (a : VArgs) (s : State) : Host.Outcome State Fault Refusal := vec3 s a (lBit3 bytx)

end Sys2Proof.Machine
end

