-- ==== Sys2Proof/Machine/Masks.lean ====
section
/-!
DEFINITION. Mask instructions and scalar instructions (05 R139-R141).
-/
namespace Sys2Proof.Machine

/-- `MSET` (05 Table 5.11). -/
def msetValue (imm : BitVec 26) : Word32 :=
  let lo := field imm.toNat 0 5
  let hi := field imm.toNat 5 5
  let m := maskOf fun l => decide (lo ≤ l) && decide (l ≤ hi)
  if imm.getLsbD 10 then ~~~ m else m

def execMset (a : IArgs) (s : State) : Host.Outcome State Fault Refusal :=
  runMask s a.d.toNat (fun _ => []) fun _ => msetValue a.imm

/-- An instruction that writes one scalar, once per issue. -/
def runScalar (s : State) (d : Nat) (srcs : List Nat) (f : Group → Word64) : Host.Outcome State Fault Refusal :=
  runOnce s (fun _ => readsS srcs) [.s d] fun g => g.setS d (f g)

def execMmov (a : VArgs) (s : State) : Host.Outcome State Fault Refusal :=
  match a.sub.toNat with
  | 0 => runMask s a.d.toNat (fun _ => []) fun g => g.m a.a.toNat
  | 1 => runMask s a.d.toNat (fun _ => readsS [a.a.toNat]) fun g => lo32 (g.s a.a.toNat)
  | _ => runScalar s a.d.toNat [] fun g => (g.m a.a.toNat).zeroExtend 64

def execMand (a : VArgs) (s : State) : Host.Outcome State Fault Refusal :=
  runMask s a.d.toNat (fun _ => []) fun g => g.m a.a.toNat &&& g.m a.b.toNat
def execMor (a : VArgs) (s : State) : Host.Outcome State Fault Refusal :=
  runMask s a.d.toNat (fun _ => []) fun g => g.m a.a.toNat ||| g.m a.b.toNat
def execMxor (a : VArgs) (s : State) : Host.Outcome State Fault Refusal :=
  runMask s a.d.toNat (fun _ => []) fun g => g.m a.a.toNat ^^^ g.m a.b.toNat
def execMnot (a : VArgs) (s : State) : Host.Outcome State Fault Refusal :=
  runMask s a.d.toNat (fun _ => []) fun g => ~~~ g.m a.a.toNat
def execMpopc (a : VArgs) (s : State) : Host.Outcome State Fault Refusal :=
  runScalar s a.d.toNat [] fun g => BitVec.ofNat 64 (popcount (g.m a.a.toNat))
def execMffs (a : VArgs) (s : State) : Host.Outcome State Fault Refusal :=
  runScalar s a.d.toNat [] fun g => BitVec.ofNat 64 ((lanesOf (g.m a.a.toNat)).headD 32)

/-! ### Scalars (05 Table 5.12) -/

/-- The immediate as a signed 64-bit value. -/
def scaImmS (a : IArgs) : Word64 := a.imm.signExtend 64
/-- The immediate as an unsigned one. -/
def scaImmZ (a : IArgs) : Word64 := a.imm.zeroExtend 64

/-- A binary scalar instruction. -/
def sca2 (s : State) (a : VArgs) (f : Word64 → Word64 → Word64) : Host.Outcome State Fault Refusal :=
  runScalar s a.d.toNat [a.a.toNat, a.b.toNat] fun g => f (g.s a.a.toNat) (g.s a.b.toNat)
/-- One with an immediate. -/
def scaImm (s : State) (a : IArgs) (imm : Word64) (f : Word64 → Word64 → Word64) : Host.Outcome State Fault Refusal :=
  runScalar s a.d.toNat [a.a.toNat] fun g => f (g.s a.a.toNat) imm

/-- `SSHL`: zero for a count of 64 or more. -/
def sshl (x c : Word64) : Word64 := if c.toNat < 64 then x <<< c.toNat else 0
/-- `SSHR`: logical, or arithmetic under `.i64`. -/
def sshr (signed : Bool) (x c : Word64) : Word64 :=
  if signed then x.sshiftRight (min c.toNat 63) else if c.toNat < 64 then x >>> c.toNat else 0

def execSmov (a : VArgs) (s : State) : Host.Outcome State Fault Refusal :=
  runScalar s a.d.toNat [a.a.toNat] fun g => g.s a.a.toNat
def execSmovi (a : IArgs) (s : State) : Host.Outcome State Fault Refusal :=
  runScalar s a.d.toNat [] fun _ => scaImmS a
def execSadd (a : VArgs) (s : State) : Host.Outcome State Fault Refusal := sca2 s a (· + ·)
def execSaddImm (a : IArgs) (s : State) : Host.Outcome State Fault Refusal := scaImm s a (scaImmS a) (· + ·)
def execSsub (a : VArgs) (s : State) : Host.Outcome State Fault Refusal := sca2 s a (· - ·)
def execSsubImm (a : IArgs) (s : State) : Host.Outcome State Fault Refusal := scaImm s a (scaImmS a) (· - ·)
def execSmul (a : VArgs) (s : State) : Host.Outcome State Fault Refusal := sca2 s a (· * ·)
def execSmulImm (a : IArgs) (s : State) : Host.Outcome State Fault Refusal := scaImm s a (scaImmS a) (· * ·)
def execSand (a : VArgs) (s : State) : Host.Outcome State Fault Refusal := sca2 s a (· &&& ·)
def execSandImm (a : IArgs) (s : State) : Host.Outcome State Fault Refusal := scaImm s a (scaImmZ a) (· &&& ·)
def execSor (a : VArgs) (s : State) : Host.Outcome State Fault Refusal := sca2 s a (· ||| ·)
def execSorImm (a : IArgs) (s : State) : Host.Outcome State Fault Refusal := scaImm s a (scaImmZ a) (· ||| ·)
def execSxor (a : VArgs) (s : State) : Host.Outcome State Fault Refusal := sca2 s a (· ^^^ ·)
def execSxorImm (a : IArgs) (s : State) : Host.Outcome State Fault Refusal := scaImm s a (scaImmZ a) (· ^^^ ·)
def execSshl (a : VArgs) (s : State) : Host.Outcome State Fault Refusal := sca2 s a sshl
def execSshlImm (a : IArgs) (s : State) : Host.Outcome State Fault Refusal := scaImm s a (scaImmZ a) sshl
def execSshr (a : VArgs) (s : State) : Host.Outcome State Fault Refusal := sca2 s a (sshr (a.ty == .i64))
def execSshrImm (a : IArgs) (s : State) : Host.Outcome State Fault Refusal := scaImm s a (scaImmZ a) (sshr false)
def execScmp (a : VArgs) (s : State) : Host.Outcome State Fault Refusal :=
  sca2 s a fun x y => if condInt a.sub.toNat (opInt a.ty x) (opInt a.ty y) then 1 else 0

end Sys2Proof.Machine
end

