-- ==== Sys2Proof/Machine/Movement.lean ====
section
/-!
DEFINITION. Movement and cross-lane operations (05 R133-R138).
-/
namespace Sys2Proof.Machine

/-- A 64-bit type. -/
def pairTy (t : Ty) : Bool := t == .n64 || t == .i64

def execMov (a : VArgs) (s : State) : Host.Outcome State Fault Refusal :=
  runVec s (dstV a (pairTy a.ty)) (srcA a (pairTy a.ty)) .none fun i => i.out i.a
def execMovi (a : IArgs) (s : State) : Host.Outcome State Fault Refusal :=
  runVec s (dstI a) .none (immS a) fun i => i.out i.b
def execMovs (a : VArgs) (s : State) : Host.Outcome State Fault Refusal :=
  runVec s (dstV a (pairTy a.ty)) (.sca a.a.toNat) .none fun i =>
    i.out (if pairTy a.ty then i.a else (lo32 i.a).zeroExtend 64)

/-- `RDLANE`: the lane is read whether or not it executes (05 R134). -/
def execRdlane (a : IArgs) (s : State) : Host.Outcome State Fault Refusal :=
  let l := a.imm.toNat % 32
  runOnce s (fun _ => [(.v a.a.toNat, BitVec.ofNat 32 (2 ^ l))]) [.s a.d.toNat] fun g =>
    g.setS a.d.toNat ((g.v a.a.toNat l).zeroExtend 64)

/-- `WRLANE`: the other executing lanes keep D, and that value enters the latches (05 R134; log 23). -/
def execWrlane (a : IArgs) (s : State) : Host.Outcome State Fault Refusal :=
  onGroup s fun gid g0 =>
    let m := g0.active
    let lane := m &&& BitVec.ofNat 32 (2 ^ (a.imm.toNat % 32))
    s.member gid g0 [] [(.s a.a.toNat, lane)] [.v a.d.toNat] fun g =>
      let r := fun l => if l == a.imm.toNat % 32 then lo32 (g.s a.a.toNat) else g.v a.d.toNat l
      let g1 := if a.nw then g else g.setV a.d.toNat lane r
      s.memberDone gid (g1.shiftLatches m fun l => (r l).zeroExtend 64) 1 1

/-- The lane whose value lane `l` takes in a `SHFL` of mode `md` and count `c` (05 R135). -/
def shuffleFrom (mk : Word32) (md l c : Nat) : Nat :=
  let j : Int := match md with
    | 0 => (c % 32 : Nat)
    | 1 => (l : Int) - c
    | 2 => (l + c : Nat)
    | _ => (l ^^^ (c % 32) : Nat)
  if 0 ≤ j && j ≤ 31 && mk.getLsbD j.toNat then j.toNat else l

/-- `SHFL` from a source A, with the count of each lane (05 R135). -/
def runShuffle (s : State) (d : VDst) (A B : VSrc) (md mk : Nat) : Host.Outcome State Fault Refusal :=
  let from_ := fun (g : Group) (l : Nat) => shuffleFrom (g.m mk) md l (lo32 (g.src B l)).toNat
  let seen := fun (g : Group) => maskOf fun j => (lanesOf g.active).any fun l => from_ g l == j
  onGroup s fun gid g0 =>
    let m := g0.active
    s.member gid g0 (A.latches ++ B.latches) (A.reads (seen g0.chainFor) ++ B.reads m) d.writes fun g =>
      let outs := g.laneOuts d .none .none fun i => i.out (g.src A (from_ g i.lane))
      s.memberDone gid ((g.writeOuts d m outs).shiftLatches m fun l => (outAt outs l).r) 1 1

def execShfl (a : VArgs) (s : State) : Host.Outcome State Fault Refusal :=
  runShuffle s (dstV a) (srcA a false) (srcB a false) (a.sub.toNat % 4) a.ty2.toNat
def execShflImm (a : IArgs) (s : State) : Host.Outcome State Fault Refusal :=
  let i := a.imm.toNat
  runShuffle s (dstI a) (srcAI a) (.imm (BitVec.ofNat 64 (i % 32))) (field i 5 2) (field i 7 4)

/-- What `VOTE` writes (05 R136). -/
def voteValue (mode : Nat) (m : Word32) (v : Nat → Word32) : Nat :=
  let act := lanesOf m
  let ps := act.filter fun l => v l != 0
  match mode with
  | 0 => ps.length
  | 1 => ps.headD 32
  | 2 => (maskOf fun l => ps.contains l).toNat
  | 3 => if act.all fun l => v l == v (act.headD 0) then 1 else 0
  | 4 => ps.getLastD 32
  | _ => m.toNat

def execVote (a : VArgs) (s : State) : Host.Outcome State Fault Refusal :=
  runOnce s (fun g => [(.v a.a.toNat, g.active)]) [.s a.d.toNat] fun g =>
    g.setS a.d.toNat (BitVec.ofNat 64 (voteValue a.sub.toNat g.active (g.v a.a.toNat)))

def execMatchV (a : VArgs) (s : State) : Host.Outcome State Fault Refusal :=
  let A := srcA a (pairTy a.ty)
  runVecG s (dstV a) A .none (fun _ => []) fun g i =>
    i.out ((maskOf fun j => g.active.getLsbD j && g.src A j == i.a).zeroExtend 64)

/-- The identity of a reduction (05 R138). -/
def reduceStart (t : Ty) (op : Nat) : Word32 :=
  match op with
  | 1 => if t = .f32 then 0x7F800000 else if t = .i32 then 0x7FFFFFFF else 0xFFFFFFFF
  | 2 => if t = .f32 then 0xFF800000 else if t = .i32 then 0x80000000 else 0
  | 3 => 0xFFFFFFFF
  | _ => 0

/-- One step of a reduction, with the flags it raises (05 R138). -/
def reduceStep (t : Ty) (op : Nat) (origin : BitVec 22) (x y : Word32) : Word32 × Flags :=
  if t = .f32 then
    let u := Fmt.f32.decode false 0 x.toNat
    let v := Fmt.f32.decode false 0 y.toNat
    let (r, fl) := Fmt.f32.write {} (if op = 0 then fadd .rn origin u v else fminmax (op = 2) u v)
    (BitVec.ofNat 32 r, fl)
  else
    let n := fun (w : Word32) => opInt t (w.zeroExtend 64)
    (match op with
      | 0 => x + y
      | 1 => w32 (min (n x) (n y))
      | 2 => w32 (max (n x) (n y))
      | 3 => x &&& y
      | 4 => x ||| y
      | _ => x ^^^ y, 0)

/-- The combination of the values of some lanes in order, from the identity. -/
def reduceOver (t : Ty) (op : Nat) (origin : BitVec 22) (v : Nat → Word32) (ls : List Nat) : Word32 × Flags :=
  ls.foldl (fun (acc : Word32 × Flags) l =>
    let (r, fl) := reduceStep t op origin acc.1 (v l)
    (r, acc.2 ||| fl)) (reduceStart t op, 0)

def execRedux (a : VArgs) (s : State) : Host.Outcome State Fault Refusal :=
  runOnce s (fun g => [(.v a.a.toNat, g.active)]) [.s a.d.toNat] fun g =>
    let (r, fl) := reduceOver a.ty a.sub.toNat g.payload (g.v a.a.toNat) (lanesOf g.active)
    (g.setS a.d.toNat (if a.ty = .i32 then r.signExtend 64 else r.zeroExtend 64)).raise fl

def execScan (a : VArgs) (s : State) : Host.Outcome State Fault Refusal :=
  let A := srcA a false
  runVecG s (dstV a) A .none (fun _ => []) fun g i =>
    let ls := (lanesOf g.active).filter fun j => if a.ty2 = 0 then decide (j ≤ i.lane) else decide (j < i.lane)
    let (r, fl) := reduceOver a.ty a.sub.toNat g.payload (fun l => lo32 (g.src A l)) ls
    i.out (r.zeroExtend 64) fl

end Sys2Proof.Machine
end

