-- ==== Sys2Proof/Machine/Paired.lean ====
section
/-!
DEFINITION. The paired word: two slot operations that read before either writes (02 R32, 04 R86-R90).
-/
namespace Sys2Proof
open Sys2Proof.Machine

/-- The rounding mode of a slot, in bits [3:1] of its modifier (04 Table 4.9). -/
def Slot.rnd (x : Slot) : Rnd := (Rnd.ofCode (x.mode.extractLsb' 1 3)).getD .rn
/-- `.ftz` of a slot, in bit [0]. -/
def Slot.ftz (x : Slot) : Bool := x.mode.getLsbD 0
/-- `.i32` or `.n32` of a slot, in bit [0]. -/
def Slot.ity (x : Slot) : Ty := if x.mode.getLsbD 0 then .n32 else .i32
/-- The type of a half slot, in bit [3]. -/
def Slot.hty (x : Slot) : Ty := if x.mode.getLsbD 3 then .bf16 else .f16
/-- The rounding mode of a half slot, in bits [2:0]. -/
def Slot.hrnd (x : Slot) : Rnd := (Rnd.ofCode (x.mode.extractLsb' 0 3)).getD .rn

/-- The effect of a slot in a lane whose first source is `a` and second `b` (04 R87). -/
def Slot.effect (x : Slot) (i : LaneIn) : LaneOut :=
  match x.op with
  | .iadd => lInt2 .i32 (· + ·) i
  | .isub => lInt2 .i32 (· - ·) i
  | .imul => lInt2 .i32 (· * ·) i
  | .imulh => lInt2 x.ity imulh i
  | .iadds => lAdds x.ity i
  | .imin => lInt2 x.ity min i
  | .imax => lInt2 x.ity max i
  | .iabs => lUnaryInt false (fun v => (v.natAbs : Int)) i
  | .ineg => lUnaryInt false (fun v => -v) i
  | .land => lBit2 (· &&& ·) i
  | .lor => lBit2 (· ||| ·) i
  | .lxor => lBit2 (· ^^^ ·) i
  | .landn => lBit2 (fun u v => u &&& ~~~ v) i
  | .lnot => lBit1 (~~~ ·) i
  | .shl => lBit2 shl i
  | .shr => lBit2 shr i
  | .sar => lBit2 sar i
  | .rot => lBit2 rot i
  | .popc => lBit1 popc i
  | .clz => lBit1 clz i
  | .brev => lBit1 brev i
  | .mov => i.out ((lo32 i.a).zeroExtend 64)
  | .fadd => lF2 x.rnd x.ftz (fadd x.rnd) i
  | .fsub => lF2 x.rnd x.ftz (fsub x.rnd) i
  | .fmul => lF2 x.rnd x.ftz fmul i
  | .fmin => lF2 .rn x.ftz (fun _ => fminmax false) i
  | .fmax => lF2 .rn x.ftz (fun _ => fminmax true) i
  | .fabs => lFabs x.ftz i
  | .fneg => lFneg x.ftz i
  | .frcp => lF1 x.rnd x.ftz frcp i
  | .frsq => lF1 x.rnd x.ftz frsq i
  | .fsqrt => lF1 x.rnd x.ftz fsqrt i
  | .fex2 => lF1 x.rnd x.ftz fex2 i
  | .flg2 => lF1 x.rnd x.ftz flg2 i
  | .ftanh => lF1 x.rnd x.ftz (fun _ => ftanh) i
  | .frnd => lF1 x.rnd x.ftz (fun _ => frnd { rnd := x.rnd, ftz := x.ftz }) i
  | .fscale => lFscale x.rnd x.ftz i
  | .fclass => lFclass x.ftz i
  | .hadd2 => lHalf x.hty x.hrnd false false (fun u v _ => fadd x.hrnd i.origin u v) i
  | .hmul2 => lHalf x.hty x.hrnd false false (fun u v _ => fmul i.origin u v) i

/-- The field `A` of a slot as a source. -/
def Slot.srcA (x : Slot) : VSrc := if x.la then .latch x.a.toNat false else .vec x.a.toNat false
/-- The first source: D of a binary operation, A of a unary one. -/
def Slot.first (x : Slot) : VSrc := if x.op.binary then .vec x.d.toNat false else x.srcA
/-- The second source. -/
def Slot.second (x : Slot) : VSrc := if x.op.binary then x.srcA else .none
/-- The destination of a slot. -/
def Slot.dst (x : Slot) : VDst := { d := x.d.toNat, nw := x.nw }
/-- The results of a slot. -/
def Slot.outs (x : Slot) (g : Group) : List LaneOut := g.laneOuts x.dst x.first x.second x.effect

end Sys2Proof

namespace Sys2Proof.Machine

/-- `PAIRED_WORD`: both slots read, slot A's result enters the chain, then slot B's (02 R32); two members (02 R29). -/
def execPairedWord (p : PArgs) (s : State) : Host.Outcome State Fault Refusal :=
  onGroup s fun gid g0 =>
    let m := g0.active
    let x := p.slotA
    let y := p.slotB
    let srcs := [x.first, x.second, y.first, y.second]
    s.member gid g0 (srcs.flatMap VSrc.latches) (srcs.flatMap fun k => k.reads m) (x.dst.writes ++ y.dst.writes) fun g =>
      let ox := x.outs g
      let oy := y.outs g
      let g1 := (g.writeOuts x.dst m ox).shiftLatches m fun l => (outAt ox l).r
      let g2 := (g1.writeOuts y.dst m oy).shiftLatches m fun l => (outAt oy l).r
      s.memberDone gid g2 2 2

end Sys2Proof.Machine
end

