-- ==== Sys2Proof/Machine/Dispatch.lean ====
section
/-!
DEFINITION. One arm for each constructor of `Instr`.
-/
namespace Sys2Proof.Machine

def exec (i : Instr) (s : State) : Host.Outcome State Fault Refusal :=
  match i with
  | .pairedWord p => Sys2Proof.Machine.execPairedWord p s
  | .iadd a => Sys2Proof.Machine.execIadd a s
  | .iaddImm a => Sys2Proof.Machine.execIaddImm a s
  | .isub a => Sys2Proof.Machine.execIsub a s
  | .isubImm a => Sys2Proof.Machine.execIsubImm a s
  | .iaddc a => Sys2Proof.Machine.execIaddc a s
  | .iadds a => Sys2Proof.Machine.execIadds a s
  | .imul a => Sys2Proof.Machine.execImul a s
  | .imulImm a => Sys2Proof.Machine.execImulImm a s
  | .imulh a => Sys2Proof.Machine.execImulh a s
  | .imad a => Sys2Proof.Machine.execImad a s
  | .idiv a => Sys2Proof.Machine.execIdiv a s
  | .irem a => Sys2Proof.Machine.execIrem a s
  | .imin a => Sys2Proof.Machine.execImin a s
  | .iminImm a => Sys2Proof.Machine.execIminImm a s
  | .imax a => Sys2Proof.Machine.execImax a s
  | .imaxImm a => Sys2Proof.Machine.execImaxImm a s
  | .iabs a => Sys2Proof.Machine.execIabs a s
  | .ineg a => Sys2Proof.Machine.execIneg a s
  | .icmp a => Sys2Proof.Machine.execIcmp a s
  | .isel a => Sys2Proof.Machine.execIsel a s
  | .iclamp a => Sys2Proof.Machine.execIclamp a s
  | .isad a => Sys2Proof.Machine.execIsad a s
  | .iadd64 a => Sys2Proof.Machine.execIadd64 a s
  | .isub64 a => Sys2Proof.Machine.execIsub64 a s
  | .imul64 a => Sys2Proof.Machine.execImul64 a s
  | .aadd a => Sys2Proof.Machine.execAadd a s
  | .alea a => Sys2Proof.Machine.execAlea a s
  | .imovw a => Sys2Proof.Machine.execImovw a s
  | .and a => Sys2Proof.Machine.execAnd a s
  | .andImm a => Sys2Proof.Machine.execAndImm a s
  | .or a => Sys2Proof.Machine.execOr a s
  | .orImm a => Sys2Proof.Machine.execOrImm a s
  | .xor a => Sys2Proof.Machine.execXor a s
  | .xorImm a => Sys2Proof.Machine.execXorImm a s
  | .andn a => Sys2Proof.Machine.execAndn a s
  | .andnImm a => Sys2Proof.Machine.execAndnImm a s
  | .not a => Sys2Proof.Machine.execNot a s
  | .shl a => Sys2Proof.Machine.execShl a s
  | .shlImm a => Sys2Proof.Machine.execShlImm a s
  | .shr a => Sys2Proof.Machine.execShr a s
  | .shrImm a => Sys2Proof.Machine.execShrImm a s
  | .sar a => Sys2Proof.Machine.execSar a s
  | .sarImm a => Sys2Proof.Machine.execSarImm a s
  | .rot a => Sys2Proof.Machine.execRot a s
  | .rotImm a => Sys2Proof.Machine.execRotImm a s
  | .fshl a => Sys2Proof.Machine.execFshl a s
  | .fshr a => Sys2Proof.Machine.execFshr a s
  | .bfx a => Sys2Proof.Machine.execBfx a s
  | .bfi a => Sys2Proof.Machine.execBfi a s
  | .popc a => Sys2Proof.Machine.execPopc a s
  | .clz a => Sys2Proof.Machine.execClz a s
  | .brev a => Sys2Proof.Machine.execBrev a s
  | .bytx a => Sys2Proof.Machine.execBytx a s
  | .fadd a => Sys2Proof.Machine.execFadd a s
  | .fsub a => Sys2Proof.Machine.execFsub a s
  | .fmul a => Sys2Proof.Machine.execFmul a s
  | .ffma a => Sys2Proof.Machine.execFfma a s
  | .fmin a => Sys2Proof.Machine.execFmin a s
  | .fmax a => Sys2Proof.Machine.execFmax a s
  | .fabs a => Sys2Proof.Machine.execFabs a s
  | .fneg a => Sys2Proof.Machine.execFneg a s
  | .fcmp a => Sys2Proof.Machine.execFcmp a s
  | .fclass a => Sys2Proof.Machine.execFclass a s
  | .frcp a => Sys2Proof.Machine.execFrcp a s
  | .frsq a => Sys2Proof.Machine.execFrsq a s
  | .fsqrt a => Sys2Proof.Machine.execFsqrt a s
  | .fdiv a => Sys2Proof.Machine.execFdiv a s
  | .fex2 a => Sys2Proof.Machine.execFex2 a s
  | .flg2 a => Sys2Proof.Machine.execFlg2 a s
  | .ftanh a => Sys2Proof.Machine.execFtanh a s
  | .frnd a => Sys2Proof.Machine.execFrnd a s
  | .fscale a => Sys2Proof.Machine.execFscale a s
  | .hadd2 a => Sys2Proof.Machine.execHadd2 a s
  | .hmul2 a => Sys2Proof.Machine.execHmul2 a s
  | .hfma2 a => Sys2Proof.Machine.execHfma2 a s
  | .hdot2 a => Sys2Proof.Machine.execHdot2 a s
  | .dot4E4m3 a => Sys2Proof.Machine.execDot4E4m3 a s
  | .dot4E5m2 a => Sys2Proof.Machine.execDot4E5m2 a s
  | .dot4I8 a => Sys2Proof.Machine.execDot4I8 a s
  | .dot8E2m1 a => Sys2Proof.Machine.execDot8E2m1 a s
  | .dot8I4 a => Sys2Proof.Machine.execDot8I4 a s
  | .cvt a => Sys2Proof.Machine.execCvt a s
  | .qblk a => Sys2Proof.Machine.execQblk a s
  | .qpack4 a => Sys2Proof.Machine.execQpack4 a s
  | .qpack8 a => Sys2Proof.Machine.execQpack8 a s
  | .qunpk a => Sys2Proof.Machine.execQunpk a s
  | .mov a => Sys2Proof.Machine.execMov a s
  | .movi a => Sys2Proof.Machine.execMovi a s
  | .movs a => Sys2Proof.Machine.execMovs a s
  | .rdlane a => Sys2Proof.Machine.execRdlane a s
  | .wrlane a => Sys2Proof.Machine.execWrlane a s
  | .shfl a => Sys2Proof.Machine.execShfl a s
  | .shflImm a => Sys2Proof.Machine.execShflImm a s
  | .vote a => Sys2Proof.Machine.execVote a s
  | .matchV a => Sys2Proof.Machine.execMatchV a s
  | .redux a => Sys2Proof.Machine.execRedux a s
  | .scan a => Sys2Proof.Machine.execScan a s
  | .mset a => Sys2Proof.Machine.execMset a s
  | .mmov a => Sys2Proof.Machine.execMmov a s
  | .mand a => Sys2Proof.Machine.execMand a s
  | .mor a => Sys2Proof.Machine.execMor a s
  | .mxor a => Sys2Proof.Machine.execMxor a s
  | .mnot a => Sys2Proof.Machine.execMnot a s
  | .mpopc a => Sys2Proof.Machine.execMpopc a s
  | .mffs a => Sys2Proof.Machine.execMffs a s
  | .smov a => Sys2Proof.Machine.execSmov a s
  | .smovi a => Sys2Proof.Machine.execSmovi a s
  | .sadd a => Sys2Proof.Machine.execSadd a s
  | .saddImm a => Sys2Proof.Machine.execSaddImm a s
  | .ssub a => Sys2Proof.Machine.execSsub a s
  | .ssubImm a => Sys2Proof.Machine.execSsubImm a s
  | .smul a => Sys2Proof.Machine.execSmul a s
  | .smulImm a => Sys2Proof.Machine.execSmulImm a s
  | .sand a => Sys2Proof.Machine.execSand a s
  | .sandImm a => Sys2Proof.Machine.execSandImm a s
  | .sor a => Sys2Proof.Machine.execSor a s
  | .sorImm a => Sys2Proof.Machine.execSorImm a s
  | .sxor a => Sys2Proof.Machine.execSxor a s
  | .sxorImm a => Sys2Proof.Machine.execSxorImm a s
  | .sshl a => Sys2Proof.Machine.execSshl a s
  | .sshlImm a => Sys2Proof.Machine.execSshlImm a s
  | .sshr a => Sys2Proof.Machine.execSshr a s
  | .sshrImm a => Sys2Proof.Machine.execSshrImm a s
  | .scmp a => Sys2Proof.Machine.execScmp a s
  | .crd a => Sys2Proof.Machine.execCrd a s
  | .cwr a => Sys2Proof.Machine.execCwr a s
  | .bra a => Sys2Proof.Machine.execBra a s
  | .brc a => Sys2Proof.Machine.execBrc a s
  | .bru a => Sys2Proof.Machine.execBru a s
  | .brx a => Sys2Proof.Machine.execBrx a s
  | .call a => Sys2Proof.Machine.execCall a s
  | .callx a => Sys2Proof.Machine.execCallx a s
  | .ret a => Sys2Proof.Machine.execRet a s
  | .exit a => Sys2Proof.Machine.execExit a s
  | .park a => Sys2Proof.Machine.execPark a s
  | .yield a => Sys2Proof.Machine.execYield a s
  | .loopb a => Sys2Proof.Machine.execLoopb a s
  | .nop a => Sys2Proof.Machine.execNop a s
  | .ld a => Sys2Proof.Machine.execLd a s
  | .st a => Sys2Proof.Machine.execSt a s
  | .lds a => Sys2Proof.Machine.execLds a s
  | .sts a => Sys2Proof.Machine.execSts a s
  | .ldf a => Sys2Proof.Machine.execLdf a s
  | .stf a => Sys2Proof.Machine.execStf a s
  | .feset a => Sys2Proof.Machine.execFeset a s
  | .feclr a => Sys2Proof.Machine.execFeclr a s
  | .tlook a => Sys2Proof.Machine.execTlook a s
  | .tins a => Sys2Proof.Machine.execTins a s
  | .tdrop a => Sys2Proof.Machine.execTdrop a s
  | .pref a => Sys2Proof.Machine.execPref a s
  | .drop a => Sys2Proof.Machine.execDrop a s
  | .stm a => Sys2Proof.Machine.execStm a s
  | .mctw a => Sys2Proof.Machine.execMctw a s
  | .atom a => Sys2Proof.Machine.execAtom a s
  | .cas a => Sys2Proof.Machine.execCas a s
  | .rowop a => Sys2Proof.Machine.execRowop a s
  | .rowld a => Sys2Proof.Machine.execRowld a s
  | .mcas a => Sys2Proof.Machine.execMcas a s
  | .chase a => Sys2Proof.Machine.execChase a s
  | .chaser a => Sys2Proof.Machine.execChaser a s
  | .kenq a => Sys2Proof.Machine.execKenq a s
  | .kdeq a => Sys2Proof.Machine.execKdeq a s
  | .kvup a => Sys2Proof.Machine.execKvup a s
  | .krcp a => Sys2Proof.Machine.execKrcp a s
  | .fence a => Sys2Proof.Machine.execFence a s
  | .isync a => Sys2Proof.Machine.execIsync a s
  | .icinv a => Sys2Proof.Machine.execIcinv a s
  | .pwb a => Sys2Proof.Machine.execPwb a s
  | .pbar a => Sys2Proof.Machine.execPbar a s
  | .step a => Sys2Proof.Machine.execStep a s
  | .sigadd a => Sys2Proof.Machine.execSigadd a s
  | .sigdec a => Sys2Proof.Machine.execSigdec a s
  | .sigwait a => Sys2Proof.Machine.execSigwait a s
  | .tmld a => Sys2Proof.Machine.execTmld a s
  | .tmst a => Sys2Proof.Machine.execTmst a s
  | .tmset a => Sys2Proof.Machine.execTmset a s
  | .amaxrd a => Sys2Proof.Machine.execAmaxrd a s
  | .amaxclr a => Sys2Proof.Machine.execAmaxclr a s
  | .origrd a => Sys2Proof.Machine.execOrigrd a s
  | .acopy a => Sys2Proof.Machine.execAcopy a s
  | .acopyr a => Sys2Proof.Machine.execAcopyr a s
  | .afill a => Sys2Proof.Machine.execAfill a s
  | .areduce a => Sys2Proof.Machine.execAreduce a s
  | .agather a => Sys2Proof.Machine.execAgather a s
  | .fwait a => Sys2Proof.Machine.execFwait a s
  | .ftest a => Sys2Proof.Machine.execFtest a s
  | .fcancel a => Sys2Proof.Machine.execFcancel a s
  | .tlwait a => Sys2Proof.Machine.execTlwait a s
  | .tlrd a => Sys2Proof.Machine.execTlrd a s
  | .mfork a => Sys2Proof.Machine.execMfork a s
  | .mjoin a => Sys2Proof.Machine.execMjoin a s
  | .nbara a => Sys2Proof.Machine.execNbara a s
  | .nbarw a => Sys2Proof.Machine.execNbarw a s
  | .ldstat a => Sys2Proof.Machine.execLdstat a s
  | .swaps a => Sys2Proof.Machine.execSwaps a s
  | .mma a => Sys2Proof.Machine.execMma a s
  | .mmad a => Sys2Proof.Machine.execMmad a s
  | .aclr a => Sys2Proof.Machine.execAclr a s
  | .ald a => Sys2Proof.Machine.execAld a s
  | .drain a => Sys2Proof.Machine.execDrain a s
  | .drainq a => Sys2Proof.Machine.execDrainq a s
  | .mbarArr a => Sys2Proof.Machine.execMbarArr a s
  | .mbarWait a => Sys2Proof.Machine.execMbarWait a s
  | .mexit a => Sys2Proof.Machine.execMexit a s
  | .bar a => Sys2Proof.Machine.execBar a s
  | .bara a => Sys2Proof.Machine.execBara a s
  | .barw a => Sys2Proof.Machine.execBarw a s
  | .gbar a => Sys2Proof.Machine.execGbar a s
  | .spawn a => Sys2Proof.Machine.execSpawn a s
  | .handoff a => Sys2Proof.Machine.execHandoff a s
  | .retire a => Sys2Proof.Machine.execRetire a s
  | .snap a => Sys2Proof.Machine.execSnap a s
  | .snapq a => Sys2Proof.Machine.execSnapq a s
  | .rbld a => Sys2Proof.Machine.execRbld a s
  | .stripe a => Sys2Proof.Machine.execStripe a s
  | .trap a => Sys2Proof.Machine.execTrap a s
  | .event a => Sys2Proof.Machine.execEvent a s
  | .rdtime a => Sys2Proof.Machine.execRdtime a s
  | .prd a => Sys2Proof.Machine.execPrd a s
  | .eret a => Sys2Proof.Machine.execEret a s
  | .tlbinv a => Sys2Proof.Machine.execTlbinv a s
  | .xlate a => Sys2Proof.Machine.execXlate a s
  | .preempt a => Sys2Proof.Machine.execPreempt a s
  | .pwr a => Sys2Proof.Machine.execPwr a s
  | .illegalInstr word cause => Sys2Proof.Machine.execIllegalInstr word cause s
  | .cfgLoad => Sys2Proof.Machine.execCfgLoad s
  | .attest => Sys2Proof.Machine.execAttest s
  | .regRead => Sys2Proof.Machine.execRegRead s
  | .regWrite => Sys2Proof.Machine.execRegWrite s
  | .ctxCreate => Sys2Proof.Machine.execCtxCreate s
  | .ctxKill => Sys2Proof.Machine.execCtxKill s
  | .ctxStep => Sys2Proof.Machine.execCtxStep s
  | .reset => Sys2Proof.Machine.execReset s
  | .queueNotify => Sys2Proof.Machine.execQueueNotify s
  | .queueConfigWrite => Sys2Proof.Machine.execQueueConfigWrite s
  | .planApply => Sys2Proof.Machine.execPlanApply s
  | .counterClear => Sys2Proof.Machine.execCounterClear s
  | .snapshotControlWrite => Sys2Proof.Machine.execSnapshotControlWrite s
  | .channelRetire => Sys2Proof.Machine.execChannelRetire s
  | .errorRingHeadWrite => Sys2Proof.Machine.execErrorRingHeadWrite s
  | .powerCapWrite => Sys2Proof.Machine.execPowerCapWrite s
  | .migrateStripe => Sys2Proof.Machine.execMigrateStripe s
  | .parkWriteEvaluation => Sys2Proof.Machine.execParkWriteEvaluation s
  | .parkPeriodicEvaluation => Sys2Proof.Machine.execParkPeriodicEvaluation s
  | .sigwaitWriteEvaluation => Sys2Proof.Machine.execSigwaitWriteEvaluation s
  | .sigwaitPeriodicEvaluation => Sys2Proof.Machine.execSigwaitPeriodicEvaluation s
  | .l1DirtyWriteback => Sys2Proof.Machine.execL1DirtyWriteback s
  | .l1CleanDrop => Sys2Proof.Machine.execL1CleanDrop s
  | .mapperRebalance => Sys2Proof.Machine.execMapperRebalance s
  | .readinessPeriodicEvaluation => Sys2Proof.Machine.execReadinessPeriodicEvaluation s
  | .candidateReserving => Sys2Proof.Machine.execCandidateReserving s
  | .taskAdmission => Sys2Proof.Machine.execTaskAdmission s
  | .timeSliceExpiry => Sys2Proof.Machine.execTimeSliceExpiry s
  | .preemptionSave => Sys2Proof.Machine.execPreemptionSave s
  | .gangResume => Sys2Proof.Machine.execGangResume s
  | .teamRetirement => Sys2Proof.Machine.execTeamRetirement s
  | .successorAdmission => Sys2Proof.Machine.execSuccessorAdmission s
  | .pageReply => Sys2Proof.Machine.execPageReply s
  | .copyUnit => Sys2Proof.Machine.execCopyUnit s
  | .chaseStep => Sys2Proof.Machine.execChaseStep s
  | .kioskListStep => Sys2Proof.Machine.execKioskListStep s
  | .rowStep => Sys2Proof.Machine.execRowStep s
  | .kvupChunk => Sys2Proof.Machine.execKvupChunk s
  | .recipeInstall => Sys2Proof.Machine.execRecipeInstall s
  | .imageLineCopy => Sys2Proof.Machine.execImageLineCopy s
  | .persistAccept => Sys2Proof.Machine.execPersistAccept s
  | .persistDrain => Sys2Proof.Machine.execPersistDrain s
  | .stripeContribution => Sys2Proof.Machine.execStripeContribution s
  | .rebuildContribution => Sys2Proof.Machine.execRebuildContribution s
  | .powerLoss => Sys2Proof.Machine.execPowerLoss s
  | .powerReturn => Sys2Proof.Machine.execPowerReturn s
  | .powerControlTick => Sys2Proof.Machine.execPowerControlTick s
  | .thermalLimit => Sys2Proof.Machine.execThermalLimit s
  | .thermalTrip => Sys2Proof.Machine.execThermalTrip s
  | .stackThermalHold => Sys2Proof.Machine.execStackThermalHold s
  | .stackThermalRelease => Sys2Proof.Machine.execStackThermalRelease s
  | .tempHold => Sys2Proof.Machine.execTempHold s
  | .rowActivationRefresh => Sys2Proof.Machine.execRowActivationRefresh s
  | .patrolScrub => Sys2Proof.Machine.execPatrolScrub s
  | .memoryRequestService => Sys2Proof.Machine.execMemoryRequestService s
  | .linkRunRetry => Sys2Proof.Machine.execLinkRunRetry s
  | .linkDown => Sys2Proof.Machine.execLinkDown s
  | .linkTraining => Sys2Proof.Machine.execLinkTraining s
  | .laserRetune => Sys2Proof.Machine.execLaserRetune s
  | .peerUnreachable => Sys2Proof.Machine.execPeerUnreachable s
  | .fabricRequest => Sys2Proof.Machine.execFabricRequest s
  | .fabricResponse => Sys2Proof.Machine.execFabricResponse s
  | .copyEnginePacket => Sys2Proof.Machine.execCopyEnginePacket s
  | .multicastCopy => Sys2Proof.Machine.execMulticastCopy s
  | .multicastRowUpdate => Sys2Proof.Machine.execMulticastRowUpdate s
  | .remoteWriteAck => Sys2Proof.Machine.execRemoteWriteAck s
  | .tlbInvalidateMessage => Sys2Proof.Machine.execTlbInvalidateMessage s
  | .controlPortFailure => Sys2Proof.Machine.execControlPortFailure s
  | .controlNodeMemoryWrite => Sys2Proof.Machine.execControlNodeMemoryWrite s
  | .eventDelivery => Sys2Proof.Machine.execEventDelivery s
  | .gets => Sys2Proof.Machine.execGets s
  | .getm => Sys2Proof.Machine.execGetm s
  | .upg => Sys2Proof.Machine.execUpg s
  | .pute => Sys2Proof.Machine.execPute s
  | .puto => Sys2Proof.Machine.execPuto s
  | .putm => Sys2Proof.Machine.execPutm s
  | .invMsg => Sys2Proof.Machine.execInvMsg s
  | .fwds => Sys2Proof.Machine.execFwds s
  | .fwdm => Sys2Proof.Machine.execFwdm s
  | .dataMsg => Sys2Proof.Machine.execDataMsg s
  | .upgack => Sys2Proof.Machine.execUpgack s
  | .invack => Sys2Proof.Machine.execInvack s
  | .putack => Sys2Proof.Machine.execPutack s
  | .doneMsg => Sys2Proof.Machine.execDoneMsg s
  | .lineLock => Sys2Proof.Machine.execLineLock s
  | .preemptCommand => Sys2Proof.Machine.execPreemptCommand s
  | .multicastReplicaWrite => Sys2Proof.Machine.execMulticastReplicaWrite s
  | .survivorRebuildWork => Sys2Proof.Machine.execSurvivorRebuildWork s

end Sys2Proof.Machine
end

