-- ==== Sys2Proof/Machine/Turn.lean ====
section
/-!
DEFINITION. Turns: a word of a group or a stream, or a step of the part; and the first of several turns that can be taken (05 R149;
08 R257-R259, R269; log 2).
-/
namespace Sys2Proof.Machine

/-! ### Readiness of groups held by `YIELD` (05 R149) -/

/-- A group could take its turn now: its word could issue, or, where it has issued and waits, it could go on (08 R257). -/
def State.readyNow (s : State) (gid : Nat) : Bool :=
  let begun := ((aget s.groups gid).map Group.begun).getD false
  match s.groupTurn gid with
  | .ended s' => !s'.stalled
  | .run i s' => match exec i s' with
    | .next s'' => if begun then !s''.stalled else !s''.blocked
    | _ => true

/-- The state as the next turn finds it. -/
def State.retry (s : State) : State := { s with stalled := false, blocked := false, cur := .none }

/-- Groups that a `YIELD` counts and that are not ready count no longer. -/
def State.countYields (s : State) : State :=
  { s with groups := s.groups.map fun e => match e.2.hold with
      | .yielded ws n =>
        let left := ws.filter s.retry.readyNow
        (e.1, { e.2 with hold := if left.isEmpty then .none else .yielded left n })
      | _ => e }

/-! ### Turns -/

/-- A group's word has issued: its gang is no longer between predecessor and first issue (08 R269). -/
def State.firstIssue (s : State) (gid : Nat) : State :=
  match aget s.groups gid with
  | some g => if !s.blocked && (s.gangOf g).entering then s.updGang (s.team g.team).gang fun x => { x with entering := false } else s
  | none => s

/-- What follows a group's turn in `s` that led to `s'`. -/
def State.afterTurn (s s' : State) (gid : Nat) : State := (s.afterTry s' gid).countYields

/-- Another group of the quarter issued a word in this step, which waits: the quarter issues one word a clock (08 R258). -/
def State.quarterIssued (s : State) (gid : Nat) : Bool :=
  match aget s.groups gid with
  | none => false
  | some g => !g.begun && s.groups.any fun e =>
      e.1 != gid && e.2.begun && e.2.lastIssue == s.clock && s.coreOf e.2 == s.coreOf g && s.quarterOf e.2 == s.quarterOf g

/-- The command of a code byte (20 Table 20.1). -/
def commandOf (code : Nat) : Option Instr :=
  match code with
  | 0x01 => some .cfgLoad
  | 0x02 => some .attest
  | 0x03 => some .regRead
  | 0x08 => some .regWrite
  | 0x04 => some .ctxCreate
  | 0x05 => some .ctxKill
  | 0x06 => some .ctxStep
  | 0x07 => some .reset
  | _ => none

/-- Take a turn in a state. An agenda entry for a device step whose instruction is a word is passed over. -/
def takeTurn (s : State) : Turn → Host.Outcome State Fault Refusal
  | .group gid => if s.quarterIssued gid then .next s.stall else match s.groupTurn gid with
    | .ended s' => .next (s.afterTurn s' gid)
    | .run i s' => match exec i s' with
      | .next s'' => .next (s.afterTurn (s''.firstIssue gid) gid)
      | o => o
  | .stream t q => match s.streamTurn t q with
    | .ended s' => .next s'
    | .run i s' => exec i s'
  | .command code input =>
    let s' := { s with cur := .none, input := input }
    match commandOf code with
    | some i => exec i s'
    | none => .next s'.unknownCmd
  | .device i input =>
    match i.shape with
    | .device => exec i { s with cur := .none, input := input }
    | _ => .next s.stall

/-- Try turns in order; the first that does not have to wait is the one taken, and a step in which all wait is idle. What a turn that
waits has asked for stays asked for. -/
def firstTurn : List Turn → State → Host.Outcome State Fault Refusal
  | [], s => .next s
  | t :: ts, s => match takeTurn s t with
    | .next s' => if s'.stalled then firstTurn ts s'.retry else .next s'
    | o => o

end Sys2Proof.Machine
end

