-- ==== Sys2Proof/Machine/Step.lean ====
section
/-!
DEFINITION. One step of the package: time passes, what follows from the last step settles, and one agent has its turn.
-/
namespace Sys2Proof.Machine

/-- One step: the head of the agenda, or the default order when the agenda is empty (08 R258; log 2). -/
def step (s : State) : Host.Outcome State Fault Refusal :=
  match s.turns with
  | t :: ts => takeTurn { s.tick with turns := ts } t
  | [] => firstTurn s.tick.defaultTurns s.tick

/-- The state with a word where the next step fetches: where the agenda's head fetches from, or in a program that the loader
sets up (log 42). -/
def State.withFetchWord (s : State) (nbits w : Nat) : State :=
  let word := w % 2 ^ (min nbits 64)
  let matrix := word < 2 ^ 63 && isMatrixOp (word / 2 ^ 52 % 2 ^ 11)
  match s.fetchPlace matrix with
  | some a => s.putWord a word
  | none => (s.load matrix).putWord (8 * loadWord) word

end Sys2Proof.Machine
end

