-- ==== Sys2Proof/Safety.lean ====
section
/-!
DEFINITION. The terms that claims use: what holds of every state that a run reaches, the group that acts, what a word reads
and writes, and the results of the words as the spec's tables give them.
-/
namespace Sys2Proof.Machine

/-! ### Whole states -/

/-- Every byte memory of the package is in its canonical form: the coherent memory, the SCM media and each team's scratch. -/
def State.MemoryOk (s : State) : Prop :=
  s.mem.wf = true ∧ s.media.wf = true ∧ ∀ t ∈ s.teams, t.2.scratch.wf = true

/-- No check and no code waits to find an error, none came with a write on its way, and no read rebuilds a line of a retired channel (17
R413, R417, R424). -/
def State.Faultless (s : State) : Prop :=
  s.badCheck = [] ∧ s.flaws = [] ∧ s.transit = [] ∧ ∀ a, s.rebuilds a = false

/-- A line of this package that any step can read and write now: nothing waits for it, and its entry lists none but dies of this package
(12 R318, R320, R323). -/
structure State.LineFree (s : State) (line : Nat) : Prop where
  first : (s.entry line).waiting = []
  open_ : s.lineOpen line true = .ready
  exact : (s.entry line).coarse = false ∧ (s.entry line).sharers.length < 16
  here : ∀ a ∈ (s.entry line).sharers, a / 4 = s.own

/-- The state after some steps, when no step stops. -/
inductive State.Reaches : State → State → Prop where
  | refl (s : State) : State.Reaches s s
  | step {s s1 s2 : State} (h : step s = .next s1) (r : State.Reaches s1 s2) : State.Reaches s s2

/-! ### The group that acts -/

/-- Group `gid` stands as `g` and executes the word, as at the start of its turn. -/
structure State.Acts (s : State) (gid : Nat) (g : Group) : Prop where
  turn : s.cur = .group gid
  is : aget s.groups gid = some g
  untried : s.stalled = false

/-- The word of `g` has completed at `now`: it issued then, or where it had to wait, when it began to wait (08 R258). -/
def Group.CompletedAt (g h : Group) (now : Nat) : Prop := h.lastIssue = g.issuedAt now ∧ h.begun = false

/-- No register of the word is pending (02 R46), and no register that it reads bears a mark that is due (06 R156). -/
structure Group.Free (g : Group) (reads : List (RegRef × Word32)) (writes : List RegRef) : Prop where
  here : g.anyPending (refsOf reads ++ writes) = false
  clean : g.deferred? reads = none

/-- Each latch that a member names holds a result of its chain (02 R33). -/
def Group.Latched (g : Group) (ks : List Nat) : Prop := ∀ k ∈ ks, k < g.chainFor.chain.vecs

/-- What neither a chain member nor a word that only writes registers changes of its group. -/
structure Group.Kept (g h : Group) : Prop where
  team : h.team = g.team
  idx : h.idx = g.idx
  live : h.live = g.live
  parks : h.parks = g.parks
  wbase : h.wbase = g.wbase
  handles : h.handles = g.handles
  origin : h.origin = g.origin
  svc : h.svc = g.svc
  supervisor : h.supervisor = g.supervisor
  save : h.save = g.save
  pend : h.pend = g.pend
  hold : h.hold = g.hold
  loopBuf : h.loopBuf = g.loopBuf
  lost : h.lost = g.lost
  stripeLost : h.stripeLost = g.stripeLost
  persists : h.persists = g.persists
  scmDirty : h.scmDirty = g.scmDirty
  bar : h.bar = g.bar
  gbar : h.gbar = g.gbar
  preempting : h.preempting = g.preempting
  mctw : h.mctw = g.mctw
  admitted : h.admitted = g.admitted

/-- Lanes at the issue address advance by one; the others stay (02 R42). -/
def Group.Advanced (g h : Group) : Prop :=
  ∀ l < 32, h.pcOf l = if g.atIssue.getLsbD l then wordMod (g.issue + 1) else g.pcOf l

/-- No vector register changes. -/
def Group.SameVectors (g h : Group) : Prop := ∀ p, ∀ l < 32, h.posLane p l = g.posLane p l
/-- No scalar register changes. -/
def Group.SameScalars (g h : Group) : Prop := ∀ n, h.s n = g.s n
/-- No mask register changes, `em` (number 8) among them. -/
def Group.SameMasks (g h : Group) : Prop := ∀ n, h.m n = g.m n
/-- `fpflags`, `rng` and `lastnan` do not change. -/
def Group.SameFloat (g h : Group) : Prop := h.fpflags = g.fpflags ∧ h.rng = g.rng ∧ h.lastnan = g.lastnan

/-! ### Results on words -/

/-- The smaller of two words under `.i32` or `.n32`. -/
def lesser (signed : Bool) (x y : Word32) : Word32 := if (if signed then x.slt y else x.ult y) then x else y
/-- The larger of two words. -/
def greater (signed : Bool) (x y : Word32) : Word32 := if (if signed then x.slt y else x.ult y) then y else x
/-- Bits [63:32] of the product (05 R110). -/
def highProduct (signed : Bool) (x y : Word32) : Word32 :=
  (if signed then x.signExtend 64 * y.signExtend 64 else x.zeroExtend 64 * y.zeroExtend 64 : Word64).extractLsb' 32 32
/-- The quotient, truncated towards zero; all ones for a divisor of zero. -/
def quotient (signed : Bool) (x y : Word32) : Word32 :=
  if y = 0 then 0xFFFFFFFF else if signed then x.sdiv y else x.udiv y
/-- The remainder; the dividend for a divisor of zero. -/
def remainder (signed : Bool) (x y : Word32) : Word32 :=
  if y = 0 then x else if signed then x.srem y else x.umod y
/-- |x - y|. -/
def distance (signed : Bool) (x y : Word32) : Word32 := greater signed x y - lesser signed x y
/-- The flags of a clamp (05 R110). -/
def clampFlags : Flags := Flags.saturated ||| Flags.inexact
/-- `IADDS`: the sum, or the bound of the type that it passes, with its flags. -/
def addClamped (signed : Bool) (i : LaneIn) : LaneOut :=
  let x := lo32 i.a
  let y := lo32 i.b
  if signed then
    if x.saddOverflow y then i.out (if x.msb then 0x80000000 else 0x7FFFFFFF) clampFlags
    else i.out ((x + y).zeroExtend 64)
  else if x.uaddOverflow y then i.out 0xFFFFFFFF clampFlags else i.out ((x + y).zeroExtend 64)
/-- `IABS` and `INEG`: -2^31 gives itself, or the largest number with the flags of a clamp under `.sat`. -/
def clampedUnary (sat : Bool) (f : Word32 → Word32) (i : LaneIn) : LaneOut :=
  if sat && lo32 i.a == 0x80000000 then i.out 0x7FFFFFFF clampFlags else i.out ((f (lo32 i.a)).zeroExtend 64)
/-- Byte `k` of a word. -/
def byteAt (x : Word32) (k : Nat) : Word32 := (x.extractLsb' (8 * k) 8).zeroExtend 32
/-- `ISAD`. -/
def sumAbsDiff (t : Ty) (i : LaneIn) : LaneOut :=
  let x := lo32 i.a
  let y := lo32 i.b
  let part := fun k => distance false (byteAt x k) (byteAt y k)
  i.out ((lo32 i.d + if t = .n8 then part 0 + part 1 + part 2 + part 3 else distance (Ty.signed t) x y).zeroExtend 64)
/-- `AADD` and `ALEA`: the sum modulo 2^57. -/
def lAddr (k : Nat) (i : LaneIn) : LaneOut :=
  i.out (((i.a + (lo32 i.b).signExtend 64 <<< k).extractLsb' 0 57).zeroExtend 64)
/-- `IMOVW`: bits [15:0] of the immediate replace the half of D that bit [16] names. -/
def lHalfWord (imm : BitVec 26) (i : LaneIn) : LaneOut :=
  let d := lo32 i.d
  let half := imm.extractLsb' 0 16
  i.out ((if imm.getLsbD 16 then half ++ d.extractLsb' 0 16 else d.extractLsb' 16 16 ++ half : Word32).zeroExtend 64)
/-- The position and the clipped length of `BFX` and `BFI` (05 R114). -/
def fieldPos (y : Word32) : Nat := (y.extractLsb' 0 5).toNat
def fieldLen (y : Word32) : Nat := min (y.extractLsb' 8 6).toNat (32 - fieldPos y)
/-- `BFX`. -/
def extractField (signed : Bool) (x y : Word32) : Word32 :=
  let v := x.extractLsb' (fieldPos y) (fieldLen y)
  if fieldLen y = 0 then 0 else if signed then v.signExtend 32 else v.zeroExtend 32
/-- `BFI`. -/
def insertField (x y d : Word32) : Word32 :=
  BitVec.ofFnLE fun k : Fin 32 =>
    if fieldPos y ≤ k.val ∧ k.val < fieldPos y + fieldLen y then x.getLsbD (k.val - fieldPos y) else d.getLsbD k.val
/-- `CLZ`. -/
def leadingZeros (x : Word32) : Word32 := BitVec.ofNat 32 (laneIds.reverse.takeWhile fun k => !x.getLsbD k).length

/-! ### Vector members -/

/-- A vector member: where its results go, the latches it names, the registers it reads, and the results of the lanes from
the group as the member finds it. -/
structure VecForm where
  dst : VDst
  latches : List Nat
  reads : Group → List (RegRef × Word32)
  outs : Group → List LaneOut

/-- One whose lanes see their own operands and the group. -/
def VecForm.ofGroup (d : VDst) (a b : VSrc) (extra : Group → List (RegRef × Word32)) (f : Group → LaneIn → LaneOut) :
    VecForm where
  dst := d
  latches := a.latches ++ b.latches
  reads g := a.reads g.active ++ b.reads g.active ++ (if d.readsD then [(RegRef.v d.d, g.active)] else []) ++ extra g
  outs g := g.laneOuts d a b (f g)

/-- One whose lanes see only their own operands. -/
def VecForm.lanes (d : VDst) (a b : VSrc) (f : LaneIn → LaneOut) : VecForm := .ofGroup d a b (fun _ => []) fun _ => f
def VecForm.one (a : VArgs) (f : LaneIn → LaneOut) : VecForm := .lanes (dstV a) (srcA a false) .none f
def VecForm.two (a : VArgs) (f : LaneIn → LaneOut) : VecForm := .lanes (dstV a) (srcA a false) (srcB a false) f
def VecForm.three (a : VArgs) (f : LaneIn → LaneOut) : VecForm := .lanes (dstVD a) (srcA a false) (srcB a false) f
def VecForm.withImm (a : IArgs) (imm : VSrc) (f : LaneIn → LaneOut) : VecForm := .lanes (dstI a) (srcAI a) imm f

/-- `QPACK4` and `QPACK8` (05 R128). -/
def VecForm.pack (a : VArgs) (n : Nat) : VecForm :=
  let regs := (List.range n).map (a.a.toNat + ·)
  .ofGroup (dstV a) .none (srcB a false) (fun g => regs.map fun r => (.v r, g.active)) fun g i =>
    lPack a.ty a.rnd a.ftz a.sat (regs.map fun r => g.v r i.lane) i

/-- A scaled dot product: the lanes that head the octets give the scale words (05 R131). -/
def VecForm.dot (a : VArgs) (t : Ty) (step : Bool) : VecForm :=
  let up := fun (latch : Bool) (n : Nat) (g : Group) =>
    if latch then [] else [(RegRef.v (n + 1), octetHeads g.active)]
  let sel := fun (k l : Nat) => (k + (if step then l / 4 % 2 else 0)) % 4
  .ofGroup (dstVD a) (srcA a false) (srcB a false)
    (fun g => up a.la a.a.toNat g ++ up a.lb a.b.toNat g)
    fun g i => lDotScaled t (scaleByte g (srcA a true) (sel (a.ty2.toNat / 4) i.lane) i.lane)
      (scaleByte g (srcB a true) (sel (a.ty2.toNat % 4) i.lane) i.lane) i

/-- `SHFL`: the lanes read of A are those that some executing lane names (05 R135). -/
def VecForm.shuffle (d : VDst) (a b : VSrc) (md mk : Nat) : VecForm :=
  let pick := fun (g : Group) (l : Nat) => shuffleFrom (g.m mk) md l (lo32 (g.src b l)).toNat
  { dst := d
    latches := a.latches ++ b.latches
    reads := fun g => a.reads (maskOf fun j => (lanesOf g.active).any fun l => pick g.chainFor l == j) ++ b.reads g.active
    outs := fun g => g.laneOuts d .none .none fun i => i.out (g.src a (pick g i.lane)) }

/-- A lane of `SCAN`: the lanes up to it, or before it under `.excl`, combined in order (05 R138). -/
def scanLane (a : VArgs) (g : Group) (i : LaneIn) : LaneOut :=
  let ls := (lanesOf g.active).filter fun j => if a.ty2 = 0 then decide (j ≤ i.lane) else decide (j < i.lane)
  let r := reduceOver a.ty a.sub.toNat g.payload (fun l => lo32 (g.src (srcA a false) l)) ls
  i.out (r.1.zeroExtend 64) r.2

/-- The words of 05 that write a vector register from values of their lanes, each with its form and its results. `IADDC`,
`WRLANE` and the paired word have statements of their own. -/
def vecForm : Instr → Option VecForm
  | .iadd a => some (.two a (lBit2 (· + ·)))
  | .iaddImm a => some (.withImm a (immS a) (lBit2 (· + ·)))
  | .isub a => some (.two a (lBit2 (· - ·)))
  | .isubImm a => some (.withImm a (immS a) (lBit2 (· - ·)))
  | .iadds a => some (.two a (addClamped (Ty.signed a.ty)))
  | .imul a => some (.two a (lBit2 (· * ·)))
  | .imulImm a => some (.withImm a (immS a) (lBit2 (· * ·)))
  | .imulh a => some (.two a (lBit2 (highProduct (Ty.signed a.ty))))
  | .imad a => some (.three a (lBit3 fun x y d => x * y + d))
  | .idiv a => some (.two a (lBit2 (quotient (Ty.signed a.ty))))
  | .irem a => some (.two a (lBit2 (remainder (Ty.signed a.ty))))
  | .imin a => some (.two a (lBit2 (lesser (Ty.signed a.ty))))
  | .iminImm a => some (.withImm a (immS a) (lBit2 (lesser true)))
  | .imax a => some (.two a (lBit2 (greater (Ty.signed a.ty))))
  | .imaxImm a => some (.withImm a (immS a) (lBit2 (greater true)))
  | .iabs a => some (.one a (clampedUnary a.sat fun x => if x.msb then -x else x))
  | .ineg a => some (.one a (clampedUnary a.sat fun x => -x))
  | .isel a =>
      some (.ofGroup (dstV a) (srcA a false) (srcB a false) (fun _ => [])
        fun g i => i.out ((lo32 (if (g.m a.sub.toNat).getLsbD i.lane then i.a else i.b)).zeroExtend 64))
  | .iclamp a => some (.three a (lBit3 fun x y d => lesser (Ty.signed a.ty) (greater (Ty.signed a.ty) d x) y))
  | .isad a => some (.three a (sumAbsDiff a.ty))
  | .iadd64 a => some (.lanes (dstV a true) (srcA a true) (srcB a true) (lInt64 (· + ·)))
  | .isub64 a => some (.lanes (dstV a true) (srcA a true) (srcB a true) (lInt64 (· - ·)))
  | .imul64 a => some (.lanes (dstV a true) (srcA a true) (srcB a true) (lInt64 (· * ·)))
  | .aadd a => some (.lanes (dstV a true) (srcA a true) (srcB a false) (lAddr a.sub.toNat))
  | .alea a => some (.lanes (dstV a true) (.sca a.a.toNat) (srcB a false) (lAddr a.sub.toNat))
  | .imovw a => some (.lanes { d := a.d.toNat, nw := a.nw, readsD := true } .none .none (lHalfWord a.imm))
  | .and a => some (.two a (lBit2 (· &&& ·)))
  | .andImm a => some (.withImm a (immZ a) (lBit2 (· &&& ·)))
  | .or a => some (.two a (lBit2 (· ||| ·)))
  | .orImm a => some (.withImm a (immZ a) (lBit2 (· ||| ·)))
  | .xor a => some (.two a (lBit2 (· ^^^ ·)))
  | .xorImm a => some (.withImm a (immZ a) (lBit2 (· ^^^ ·)))
  | .andn a => some (.two a (lBit2 fun x y => x &&& ~~~ y))
  | .andnImm a => some (.withImm a (immZ a) (lBit2 fun x y => x &&& ~~~ y))
  | .not a => some (.one a (lBit1 (~~~ ·)))
  | .shl a => some (.two a (lBit2 fun x c => x <<< c))
  | .shlImm a => some (.withImm a (immZ a) (lBit2 fun x c => x <<< c))
  | .shr a => some (.two a (lBit2 fun x c => x >>> c))
  | .shrImm a => some (.withImm a (immZ a) (lBit2 fun x c => x >>> c))
  | .sar a => some (.two a (lBit2 fun x c => x.sshiftRight c.toNat))
  | .sarImm a => some (.withImm a (immZ a) (lBit2 fun x c => x.sshiftRight c.toNat))
  | .rot a => some (.two a (lBit2 fun x c => x.rotateLeft (c.toNat % 32)))
  | .rotImm a => some (.withImm a (immZ a) (lBit2 fun x c => x.rotateLeft (c.toNat % 32)))
  | .fshl a => some (.three a (lBit3 fun x c d => ((d ++ x) <<< (c.toNat % 32)).extractLsb' 32 32))
  | .fshr a => some (.three a (lBit3 fun x c d => ((x ++ d) >>> (c.toNat % 32)).extractLsb' 0 32))
  | .bfx a => some (.two a (lBit2 (extractField (Ty.signed a.ty))))
  | .bfi a => some (.three a (lBit3 insertField))
  | .popc a => some (.one a (lBit1 fun x => BitVec.ofNat 32 (laneIds.countP x.getLsbD)))
  | .clz a => some (.one a (lBit1 leadingZeros))
  | .brev a => some (.one a (lBit1 BitVec.reverse))
  | .bytx a => some (.three a (lBit3 bytx))
  | .fadd a => some (.two a (lF2 a.rnd a.ftz (fadd a.rnd)))
  | .fsub a => some (.two a (lF2 a.rnd a.ftz (fsub a.rnd)))
  | .fmul a => some (.two a (lF2 a.rnd a.ftz fmul))
  | .ffma a => some (.three a fun i => lF32 a.rnd a.ftz (ffma a.rnd i.origin) i)
  | .fmin a => some (.two a (lF2 a.rnd a.ftz fun _ => fminmax false))
  | .fmax a => some (.two a (lF2 a.rnd a.ftz fun _ => fminmax true))
  | .fabs a => some (.one a (lFabs a.ftz))
  | .fneg a => some (.one a (lFneg a.ftz))
  | .fclass a => some (.one a (lFclass a.ftz))
  | .frcp a => some (.one a (lF1 a.rnd a.ftz frcp))
  | .frsq a => some (.one a (lF1 a.rnd a.ftz frsq))
  | .fsqrt a => some (.one a (lF1 a.rnd a.ftz fsqrt))
  | .fdiv a => some (.two a (lF2 a.rnd a.ftz fdiv))
  | .fex2 a => some (.one a (lF1 a.rnd a.ftz fex2))
  | .flg2 a => some (.one a (lF1 a.rnd a.ftz flg2))
  | .ftanh a => some (.one a (lF1 a.rnd a.ftz fun _ => ftanh))
  | .frnd a => some (.one a (lF1 a.rnd a.ftz fun _ => frnd { rnd := a.rnd, ftz := a.ftz }))
  | .fscale a => some (.two a (lFscale a.rnd a.ftz))
  | .hadd2 a => some (.two a fun i => lHalf a.ty a.rnd a.ftz a.sat (fun x y _ => fadd a.rnd i.origin x y) i)
  | .hmul2 a => some (.two a fun i => lHalf a.ty a.rnd a.ftz a.sat (fun x y _ => fmul i.origin x y) i)
  | .hfma2 a => some (.three a fun i => lHalf a.ty a.rnd a.ftz a.sat (ffma a.rnd i.origin) i)
  | .hdot2 a => some (.three a (lHdot a.ty))
  | .cvt a =>
      some (.lanes (dstV a (wideTy a.ty)) (srcA a (wideTy (VArgs.src2 a))) .none
        (lCvt a.ty (VArgs.src2 a) a.rnd a.ftz a.sat a.sub.toNat))
  | .qblk a =>
      some (.ofGroup (dstV a) (srcA a false) .none (fun _ => [])
        fun g i => i.out (BitVec.ofNat 64 (blockScale a.ty (blockOf g (srcA a false) a.ftz))))
  | .qpack4 a => some (.pack a 8)
  | .qpack8 a => some (.pack a 4)
  | .qunpk a => some (.two a (lUnpack (VArgs.src2 a) a.rnd a.ftz a.sub.toNat))
  | .dot4E4m3 a => some (.dot a .e4m3 false)
  | .dot4E5m2 a => some (.dot a .e5m2 false)
  | .dot4I8 a => some (if a.ty = .f32 then .dot a .i8 false else .three a (lDotInt 8))
  | .dot8E2m1 a => some (.dot a .e2m1 true)
  | .dot8I4 a => some (if a.ty = .f32 then .dot a .i4 true else .three a (lDotInt 4))
  | .mov a => some (.lanes (dstV a (pairTy a.ty)) (srcA a (pairTy a.ty)) .none fun i => i.out i.a)
  | .movi a => some (.lanes (dstI a) .none (immS a) fun i => i.out i.b)
  | .movs a =>
      some (.lanes (dstV a (pairTy a.ty)) (.sca a.a.toNat) .none
        fun i => i.out (if pairTy a.ty then i.a else (lo32 i.a).zeroExtend 64))
  | .shfl a => some (.shuffle (dstV a) (srcA a false) (srcB a false) (a.sub.toNat % 4) a.ty2.toNat)
  | .shflImm a =>
      some (.shuffle (dstI a) (srcAI a) (.imm (BitVec.ofNat 64 (a.imm.toNat % 32)))
        (field a.imm.toNat 5 2) (field a.imm.toNat 7 4))
  | .matchV a =>
      some (.ofGroup (dstV a) (srcA a (pairTy a.ty)) .none (fun _ => [])
        fun g i => i.out ((maskOf fun j => g.active.getLsbD j && g.src (srcA a (pairTy a.ty)) j == i.a).zeroExtend 64))
  | .scan a => some (.ofGroup (dstV a) (srcA a false) .none (fun _ => []) (scanLane a))
  | _ => none

/-- What a lane of the register at stack position `p` holds after a member with its result `r`. -/
def VDst.put (d : VDst) (wbase p : Nat) (r : Word64) (old : Word32) : Word32 :=
  if d.nw then old else if d.wide = true ∧ p = wbase + d.d + 1 then hi32 r else if p = wbase + d.d then lo32 r else old

/-- A member with destination `d` writes the register at stack position `p`. -/
def VDst.hits (d : VDst) (wbase p : Nat) : Prop :=
  d.nw = false ∧ (p = wbase + d.d ∨ d.wide = true ∧ p = wbase + d.d + 1)

/-- The group after a vector member with the results `outs` (05 R103, 02 R30, 03 R68): D is written in the lanes that execute,
flags and the first NaN are recorded, the results enter the latches, and the lanes at the issue address advance. -/
structure Group.VectorDone (g h : Group) (d : VDst) (outs : List LaneOut) : Prop where
  kept : g.Kept h
  scalars : g.SameScalars h
  masks : g.SameMasks h
  vectors : ∀ p, ∀ l < 32, h.posLane p l =
    if g.active.getLsbD l then d.put g.wbase p (outAt outs l).r (g.posLane p l) else g.posLane p l
  marks : ∀ k, k ∈ h.marks ↔
    k ∈ g.marks ∧ ¬(k.scalar = false ∧ g.active.getLsbD k.lane = true ∧ d.hits g.wbase k.reg)
  flags : h.fpflags = (g.raise (Flags.union ((lanesOf g.active).map fun l => (outAt outs l).fl))).fpflags
  rng : ∀ l < 32, h.rng.at l = if g.active.getLsbD l then (outAt outs l).rng else g.rng.at l
  nan : h.lastnan = (g.noteNan ((lanesOf g.active).findSome? fun l => (outAt outs l).nan)).lastnan
  latch0 : ∀ l < 32, h.latch 0 l = if g.active.getLsbD l then (outAt outs l).r else 0
  latches : ∀ k < 3, ∀ l < 32, h.latch (k + 1) l = g.chainFor.latch k l
  counted : h.chain.vecs = g.chainFor.chain.vecs + 1 ∧ h.chain.members = g.chainFor.chain.members + 1
  advanced : g.Advanced h

/-! ### Members that write a scalar or a mask -/

/-- A word that writes one scalar or one mask, once per issue: its number, what it reads, the value, and its flags. -/
structure OnceForm (α : Type) where
  d : Nat
  reads : Group → List (RegRef × Word32)
  value : Group → α
  flags : Group → Flags := fun _ => 0

/-- Scalar words with two scalar operands, and with an immediate. -/
def OnceForm.sca2 (a : VArgs) (f : Word64 → Word64 → Word64) : OnceForm Word64 :=
  { d := a.d.toNat, reads := fun _ => readsS [a.a.toNat, a.b.toNat], value := fun g => f (g.s a.a.toNat) (g.s a.b.toNat) }
def OnceForm.scaImm (a : IArgs) (imm : Word64) (f : Word64 → Word64 → Word64) : OnceForm Word64 :=
  { d := a.d.toNat, reads := fun _ => readsS [a.a.toNat], value := fun g => f (g.s a.a.toNat) imm }
/-- A scalar from a mask. -/
def OnceForm.ofMask (a : VArgs) (f : Word32 → Word64) : OnceForm Word64 :=
  { d := a.d.toNat, reads := fun _ => [], value := fun g => f (g.m a.a.toNat) }

/-- The condition of `ICMP` or `SCMP` (05, before R109). -/
def holds {w : Nat} (signed : Bool) (c : Nat) (x y : BitVec w) : Bool :=
  match c with
  | 0 => x == y
  | 1 => x != y
  | 2 => if signed then x.slt y else x.ult y
  | 3 => if signed then x.sle y else x.ule y
  | 4 => if signed then y.slt x else y.ult x
  | _ => if signed then y.sle x else y.ule x

/-- The words of 05 that write a scalar (05 R134, R136, R138, R140, R141). -/
def scalarForm : Instr → Option (OnceForm Word64)
  | .rdlane a => some
      { d := a.d.toNat, reads := fun _ => [(.v a.a.toNat, BitVec.ofNat 32 (2 ^ (a.imm.toNat % 32)))]
        value := fun g => (g.v a.a.toNat (a.imm.toNat % 32)).zeroExtend 64 }
  | .vote a => some
      { d := a.d.toNat, reads := fun g => [(.v a.a.toNat, g.active)]
        value := fun g => BitVec.ofNat 64 (voteValue a.sub.toNat g.active (g.v a.a.toNat)) }
  | .redux a => some
      { d := a.d.toNat, reads := fun g => [(.v a.a.toNat, g.active)]
        value := fun g =>
          let r := (reduceOver a.ty a.sub.toNat g.payload (g.v a.a.toNat) (lanesOf g.active)).1
          if a.ty = .i32 then r.signExtend 64 else r.zeroExtend 64
        flags := fun g => (reduceOver a.ty a.sub.toNat g.payload (g.v a.a.toNat) (lanesOf g.active)).2 }
  | .mmov a => if a.sub = 2 then some (.ofMask a fun m => m.zeroExtend 64) else none
  | .mpopc a => some (.ofMask a fun m => BitVec.ofNat 64 (laneIds.countP m.getLsbD))
  | .mffs a => some (.ofMask a fun m => BitVec.ofNat 64 ((laneIds.find? m.getLsbD).getD 32))
  | .smov a => some { d := a.d.toNat, reads := fun _ => readsS [a.a.toNat], value := fun g => g.s a.a.toNat }
  | .smovi a => some { d := a.d.toNat, reads := fun _ => [], value := fun _ => a.imm.signExtend 64 }
  | .sadd a => some (.sca2 a (· + ·))
  | .saddImm a => some (.scaImm a (a.imm.signExtend 64) (· + ·))
  | .ssub a => some (.sca2 a (· - ·))
  | .ssubImm a => some (.scaImm a (a.imm.signExtend 64) (· - ·))
  | .smul a => some (.sca2 a (· * ·))
  | .smulImm a => some (.scaImm a (a.imm.signExtend 64) (· * ·))
  | .sand a => some (.sca2 a (· &&& ·))
  | .sandImm a => some (.scaImm a (a.imm.zeroExtend 64) (· &&& ·))
  | .sor a => some (.sca2 a (· ||| ·))
  | .sorImm a => some (.scaImm a (a.imm.zeroExtend 64) (· ||| ·))
  | .sxor a => some (.sca2 a (· ^^^ ·))
  | .sxorImm a => some (.scaImm a (a.imm.zeroExtend 64) (· ^^^ ·))
  | .sshl a => some (.sca2 a (· <<< ·))
  | .sshlImm a => some (.scaImm a (a.imm.zeroExtend 64) (· <<< ·))
  | .sshr a => some (.sca2 a fun x c => if a.ty = .i64 then x.sshiftRight c.toNat else x >>> c)
  | .sshrImm a => some (.scaImm a (a.imm.zeroExtend 64) (· >>> ·))
  | .scmp a => some (.sca2 a fun x y => if holds (Ty.signed a.ty) a.sub.toNat x y then 1 else 0)
  | _ => none

/-- The group after a word that wrote the scalar `F.d` (05 R103, R141). -/
structure Group.ScalarDone (g h : Group) (F : OnceForm Word64) : Prop where
  kept : g.Kept h
  vectors : g.SameVectors h
  masks : g.SameMasks h
  scalars : ∀ n, h.s n = if n = F.d then F.value g else g.s n
  marks : ∀ k, k ∈ h.marks ↔ k ∈ g.marks ∧ ¬(k.scalar = true ∧ k.reg = F.d)
  flags : h.fpflags = g.fpflags ||| (F.flags g).zeroExtend 64
  float : h.rng = g.rng ∧ h.lastnan = g.lastnan
  latches : ∀ k < 4, ∀ l < 32, h.latch k l = g.chainFor.latch k l
  counted : h.chain.vecs = g.chainFor.chain.vecs ∧ h.chain.members = g.chainFor.chain.members + 1
  advanced : g.Advanced h

/-- A mask that keeps its bits in the lanes that do not execute. -/
def Group.maskWith (g : Group) (d : Nat) (p : Nat → Bool) : Word32 :=
  maskOf fun l => if g.active.getLsbD l then p l else (g.m d).getLsbD l

/-- A mask word without reads of other registers. -/
def OnceForm.mask (a : VArgs) (f : Word32 → Word32 → Word32) : OnceForm Word32 :=
  { d := a.d.toNat, reads := fun _ => [], value := fun g => f (g.m a.a.toNat) (g.m a.b.toNat) }

/-- The words of 05 that write a mask, `em` (number 8) among them (05 R110, R119, R140). -/
def maskForm : Instr → Option (OnceForm Word32)
  | .icmp a => some
      { d := a.d.toNat, reads := fun g => [(.v a.a.toNat, g.active), (.v a.b.toNat, g.active)]
        value := fun g => g.maskWith a.d.toNat fun l =>
          holds (Ty.signed a.ty) a.sub.toNat (g.v a.a.toNat l) (g.v a.b.toNat l) }
  | .fcmp a =>
      let at_ := fun (g : Group) (l : Nat) =>
        fcond a.sub.toNat a.ftz ((g.v a.a.toNat l).zeroExtend 64) ((g.v a.b.toNat l).zeroExtend 64)
      some
      { d := a.d.toNat, reads := fun g => [(.v a.a.toNat, g.active), (.v a.b.toNat, g.active)]
        value := fun g => g.maskWith a.d.toNat fun l => (at_ g l).1
        flags := fun g => Flags.union ((lanesOf g.active).map fun l => (at_ g l).2) }
  | .mset a => some
      { d := a.d.toNat, reads := fun _ => []
        value := fun _ =>
          let m := maskOf fun l => decide ((a.imm.extractLsb' 0 5).toNat ≤ l ∧ l ≤ (a.imm.extractLsb' 5 5).toNat)
          if a.imm.getLsbD 10 then ~~~ m else m }
  | .mmov a =>
      if a.sub = 0 then some (.mask a fun x _ => x)
      else if a.sub = 1 then some
        { d := a.d.toNat, reads := fun _ => readsS [a.a.toNat], value := fun g => lo32 (g.s a.a.toNat) }
      else none
  | .mand a => some (.mask a (· &&& ·))
  | .mor a => some (.mask a (· ||| ·))
  | .mxor a => some (.mask a (· ^^^ ·))
  | .mnot a => some (.mask a fun x _ => ~~~ x)
  | _ => none

/-- The group after a word that wrote the mask `F.d`: a member that shifts no latch, or, for `em`, a word that ends the chain
(05 R139). -/
structure Group.MaskDone (g h : Group) (F : OnceForm Word32) : Prop where
  kept : g.Kept h
  vectors : g.SameVectors h
  scalars : g.SameScalars h
  masks : ∀ n, h.m n = if n = F.d then F.value g else g.m n
  marks : h.marks = g.marks
  flags : h.fpflags = g.fpflags ||| (F.flags g).zeroExtend 64
  float : h.rng = g.rng ∧ h.lastnan = g.lastnan
  latches : F.d ≠ 8 → ∀ k < 4, ∀ l < 32, h.latch k l = g.chainFor.latch k l
  counted : F.d ≠ 8 → h.chain.vecs = g.chainFor.chain.vecs ∧ h.chain.members = g.chainFor.chain.members + 1
  ended : F.d = 8 → h.chain.isOpen = false
  advanced : g.Advanced h

/-- The type of an integer word is one that Table 5.2 admits for it, as it is in every word that decodes. -/
def tyAdmitted : Instr → Prop
  | .iadds a | .imulh a | .idiv a | .irem a | .imin a | .imax a | .iclamp a | .icmp a => a.ty = .i32 ∨ a.ty = .n32
  | .isad a => a.ty = .i32 ∨ a.ty = .n32 ∨ a.ty = .n8
  | .scmp a => a.ty = .i64 ∨ a.ty = .n64
  | _ => True

/-! ### Control words -/

/-- A word that is no chain member and changes registers of its group alone: the chain has ended and the lanes advance. -/
structure Group.Plain (g h : Group) : Prop where
  kept : g.Kept h
  ended : h.chain.isOpen = false ∧ h.latches = []
  advanced : g.Advanced h

/-- The target of a branch (04 R83, 05 R143). -/
def targetOf (g : Group) (off : BitVec 26) : WordIndex := (((g.issue : Int) + off.toInt) % 2 ^ 29).toNat

/-- A branch: the registers it reads, and where a lane at the issue address goes (05 R143, R151). -/
structure BranchForm where
  reads : Group → List (RegRef × Word32)
  next : Group → Nat → WordIndex

/-- The branches and `NOP`. -/
def branchForm : Instr → Option BranchForm
  | .bra a => some { reads := fun _ => [], next := fun g _ => targetOf g a.off }
  | .brc a => some
      { reads := fun _ => []
        next := fun g l => if g.em.getLsbD l = true ∧ (g.m a.d.toNat).getLsbD l = (a.a == 0) then targetOf g a.off
          else wordMod (g.issue + 1) }
  | .bru a => some
      { reads := fun _ => readsS [a.d.toNat]
        next := fun g _ => if decide (g.s a.d.toNat ≠ 0) = (a.a == 0) then targetOf g a.off else wordMod (g.issue + 1) }
  | .brx a => some
      { reads := fun g => [(.v a.d.toNat, g.active)]
        next := fun g l => if g.em.getLsbD l then wordMod (g.v a.d.toNat l).toNat else wordMod (g.issue + 1) }
  | .nop _ => some { reads := fun _ => [], next := fun g _ => wordMod (g.issue + 1) }
  | _ => none

/-- A branch whose field for `.not` is 0 or 1, as in every word that decodes (05 R142). -/
def notField : Instr → Prop
  | .brc a | .bru a => a.a = 0 ∨ a.a = 1
  | _ => True

/-- The barriers of the groups that live in `t`, when one of team `team` has ended: the phase of the team barrier, and of the gang's,
changes when no group that counts is short (07 R232, R233). -/
def State.BarriersWithout (s t : State) (team : Nat) : Prop :=
  let gang := (s.team team).gang
  ∀ all : Bool, (all = true ↔ (∃ e ∈ s.teams, e.2.gang = gang ∧ t.liveGroups e.1 ≠ 0 ∧ e.2.gbarArrived ≠ 0) ∧
      ∀ e ∈ s.teams, e.2.gang = gang → t.liveGroups e.1 ≠ 0 → t.liveGroups e.1 ≤ e.2.gbarArrived) →
    (∀ k x, aget s.teams k = some x →
      let last := decide (k = team ∧ x.barArrived ≠ 0 ∧ t.liveGroups k ≤ x.barArrived)
      aget t.teams k = some { x with
        barArrived := if last then 0 else x.barArrived
        barPhase := xor x.barPhase last
        gbarArrived := if all = true ∧ x.gang = gang then 0 else x.gbarArrived }) ∧
    ∀ k w, aget s.gangs k = some w → aget t.gangs k = some
      (if all = true ∧ k = gang then { w with gbarPhase := !w.gbarPhase, gbarLevel := none } else w)

/-! ### Memory words -/

/-- The byte that a core's own accesses find at a local address: its dirty byte in L1, or the home's (06 R161, 12 R310). -/
def State.seen (s : State) (core a : Nat) : Byte :=
  match aget s.l1 (core, a / 128) with
  | some l => if l.dirty.getLsbD (a % 128) then l.data.getD (a % 128) 0 else (s.readHome a 1).getD 0 0
  | none => (s.readHome a 1).getD 0 0

/-- A home byte that changes from `s` to `t` only by the write-back of a core's dirty byte. -/
def State.HomeKept (s t : State) (core a : Nat) : Prop :=
  readByte t.mem a = readByte s.mem a ∨ readByte t.mem a = s.seen core a

/-- Both caches of a core hold a translation of the address that serves the access (13 R345). -/
def State.Hit (s : State) (core ctx : Nat) (sup : Bool) (need : Need) (va : Nat) (x : Xlat) : Prop :=
  ∃ e, s.tlbFind (.l1 core) ctx (va % 2 ^ 57) = some e ∧ s.tlbFind (.l2 (core / 64)) ctx (va % 2 ^ 57) = some e ∧
    e.serves sup need = true ∧ x = e.xlat (va % 2 ^ 57)

/-- Nothing that precedes a memory word's effect holds it up: its registers are free, no acquire is out, a release finds no
logged store, no write on its way and no lost store, and a write finds no read without its value (06 R193, R194; 11 R294). -/
structure State.MayAccess (s : State) (gid : Nat) (g : Group) (reads : List (RegRef × Word32)) (writes : List RegRef)
    (rel write : Bool) : Prop where
  free : g.Free reads writes
  acquired : s.acquiring gid = false
  released : rel = true → s.logs gid = false ∧ s.writesOut gid = false ∧ g.lost = []
  ordered : write = true → g.readsOut = false

/-- Nothing holds up a word that issues an operation (06 R181, 07 R213). -/
structure State.MayIssue (s : State) (gid : Nat) (g : Group) (reads : List (RegRef × Word32)) (writes : List RegRef) :
    Prop where
  free : g.Free reads writes
  acquired : s.acquiring gid = false
  settled : s.logs gid = false ∧ s.writesOut gid = false
  ordered : g.readsOut = false

/-- Memory is canonical and no error waits to be found; no write-back of the core waits; its L1 lists each line once, with 128 bytes,
and its dirty lines are of this package and can be written back at once. -/
structure State.CacheSound (s : State) (core : Nat) : Prop where
  memory : s.mem.wf = true
  checks : s.Faultless
  idle : s.backing core = false
  keys : (s.l1.map Prod.fst).Nodup
  backs : ∀ line l, aget s.l1 (core, line) = some l → l.data.length = 128 ∧
    (l.dirty ≠ 0 → isAway line = false ∧ s.LineFree line ∧ (placeOf (128 * line) = .hbm ∨ placeOf (128 * line) = .scm)) ∧
    ∀ k < 128, l.dirty.getLsbD k = true → inFirmware (128 * line + k) = false ∧ s.withdrawn (128 * line + k) = false

/-- Bytes of this package's HBM or SCM that an access performs on at once: in one line, open in the directory, without error,
outside the firmware area, and held exclusively by no other core. -/
structure State.Sound (s : State) (core : Nat) (x : Xlat) (n : Nat) (write : Bool) : Prop where
  kind : x.kind < 2
  place : placeOf (locOf x.pa) = .hbm ∨ placeOf (locOf x.pa) = .scm
  inLine : locOf x.pa % 128 + n ≤ 128
  some_ : 0 < n
  ready : s.lineReady (locOf x.pa / 128) write = .ready
  clean : s.isBad (span (locOf x.pa) n) = false
  firmware : ∀ k < n, inFirmware (locOf x.pa + k) = false
  alone : ∀ e ∈ s.l1, e.1.2 = locOf x.pa / 128 → e.1.1 ≠ core → e.2.exclusive = false
  cache : s.CacheSound core

/-- The scratch offsets of the executing lanes are aligned and lie in the allocation (06 R162). -/
def State.ScratchOk (s : State) (g : Group) (w : Nat) (off : Nat → Nat) : Prop :=
  ∀ l < 32, g.active.getLsbD l = true → off l % w = 0 ∧ off l + w ≤ s.scratchSize g

/-- The byte that the lanes of `m` store at an address, the highest lane deciding, over `old`. -/
def storedByte (m : Word32) (off : Nat → Nat) (bytes : Nat → List Byte) (a : Nat) (old : Byte) : Byte :=
  (lanesOf m).foldl (fun b l => if off l ≤ a ∧ a < off l + (bytes l).length then (bytes l).getD (a - off l) 0 else b) old

/-- The registers that form a scratch offset. -/
def scratchRegs (a : MArgs) : List RegRef := .v a.a.toNat :: if a.off then [] else [.v a.b.toNat]

/-- A group executes in lane `l` alone. -/
def Group.Only (g : Group) (l : Nat) : Prop := l < 32 ∧ g.active = BitVec.ofNat 32 (2 ^ l)

/-- A word whose lanes each name an address or a scratch offset: the size that it is aligned to, the address of a lane, what the word reads
and writes, whether it is a release, a write or an `.sc` read, and its access kind (06 R154, R162; 13 after Table 13.9). -/
structure LaneForm where
  bytes : Nat
  addr : Group → Nat → Nat
  scratch : Bool
  reads : Group → List (RegRef × Word32)
  writes : List RegRef := []
  rel : Bool := false
  write : Bool := false
  sc : Bool := false
  kind : Nat := 0
  /-- a lane that faults retires into the side log (13 R349) -/
  logged : Bool := false

/-- The lane forms. -/
def laneForm : Instr → Option LaneForm
  | .ld a => some { bytes := Width.bytes a.width, addr := fun g => g.addrOf a, scratch := false
                    reads := fun g => readsIn (addrRegs a) g.active, writes := vrange a.d.toNat (dataRegs a.width), sc := a.order == .sc }
  | .st a => some { bytes := Width.bytes a.width, addr := fun g => g.addrOf a, scratch := false
                    reads := fun g => readsIn (vrange a.d.toNat (dataRegs a.width) ++ addrRegs a) g.active
                    rel := Order.isRel a.order, write := true, kind := 1, logged := a.order == .rlx }
  | .atom a => some { bytes := Width.bytes a.width, addr := fun g => g.addrOf a, scratch := false
                      reads := fun g => readsIn (vrange a.d.toNat (dataRegs a.width) ++ addrRegs a) g.active
                      writes := vrange a.d.toNat (dataRegs a.width), rel := Order.isRel a.order, write := true, kind := 2
                      logged := a.order == .rlx }
  | .cas a => some { bytes := Width.bytes a.width, addr := fun g => g.addrOf a, scratch := false
                     reads := fun g => readsIn (vrange a.d.toNat (2 * dataRegs a.width) ++ addrRegs a) g.active
                     writes := vrange a.d.toNat (dataRegs a.width), rel := Order.isRel a.order, write := true, kind := 2 }
  | .lds a => some { bytes := Width.bytes a.width, addr := fun g => g.scratchOff a, scratch := true
                     reads := fun g => readsIn (scratchRegs a) g.active, writes := vrange a.d.toNat (dataRegs a.width) }
  | .ldf a => some { bytes := Width.bytes a.width, addr := fun g => g.scratchOff a, scratch := true
                     reads := fun g => readsIn (scratchRegs a) g.active, writes := vrange a.d.toNat (dataRegs a.width) }
  | .sts a => some { bytes := Width.bytes a.width, addr := fun g => g.scratchOff a, scratch := true
                     reads := fun g => readsIn (vrange a.d.toNat (dataRegs a.width) ++ scratchRegs a) g.active
                     rel := Order.isRel a.order, write := true }
  | .stf a => some { bytes := Width.bytes a.width, addr := fun g => g.scratchOff a, scratch := true
                     reads := fun g => readsIn (vrange a.d.toNat (dataRegs a.width) ++ scratchRegs a) g.active
                     rel := true, write := true }
  | .tins a => some { bytes := 256, addr := fun g l => (g.v a.b.toNat l).toNat, scratch := true
                      reads := fun g => readsIn (vrange a.a.toNat 2 ++ [.v a.b.toNat]) g.active }
  | _ => none

/-- The values at some locations after the lanes of a list have performed there, in their order, each putting `new l` of what it finds
at its location `at_ l` (06 R157). -/
def afterLanes (at_ : Nat → Nat) (new : Nat → Nat → Nat) (ls : List Nat) (val : Nat → Nat) : Nat → Nat :=
  ls.foldl (fun v l p => if p = at_ l then new l (v p) else v p) val

/-- What lane `l` finds at its location, after the lower executing lanes. -/
def foundByLane (m : Word32) (at_ : Nat → Nat) (new : Nat → Nat → Nat) (val : Nat → Nat) (l : Nat) : Nat :=
  afterLanes at_ new ((lanesOf m).filter (· < l)) val (at_ l)

/-- No cached translation of an address serves an access, and the walk for it fails with status `st` at `level`: its tables are free, and
held exclusively by no L1 (13 R342, R343, R345). -/
structure State.Faults (s : State) (core ctx : Nat) (sup : Bool) (need : Need) (va st level : Nat) : Prop where
  uncached : ∀ k ∈ [TlbKey.l1 core, .l2 (core / 64)], ∀ e, s.tlbFind k ctx (va % 2 ^ 57) = some e → e.serves sup need = false
  free : ∀ b ∈ (s.walk ctx (va % 2 ^ 57)).reads, s.LineFree (b / 128)
  alone : ∀ e ∈ s.l1, ∀ b ∈ (s.walk ctx (va % 2 ^ 57)).reads, e.1.2 = b / 128 → e.2.exclusive = false
  checks : s.Faultless
  fails : st ≠ 0 ∧ level = (s.walk ctx (va % 2 ^ 57)).level ∧
    st = if (s.walk ctx (va % 2 ^ 57)).status ≠ 0 then (s.walk ctx (va % 2 ^ 57)).status
      else let e := (s.walk ctx (va % 2 ^ 57)).entry ctx (va % 2 ^ 57) true
        permStatus sup need e.w e.x e.u

/-- The word brought values into `k` registers from `v`d in the lanes that execute: the low 32 bits of `val l` in the first,
and so on; the chain has ended and the lanes advance (06 R160). -/
structure Group.Loaded (g h : Group) (d k : Nat) (val : Nat → Nat) : Prop where
  plain : g.Plain { h with scmDirty := g.scmDirty, persists := g.persists, lost := g.lost }
  scalars : g.SameScalars h
  masks : g.SameMasks h
  vectors : ∀ p, ∀ l < 32, h.posLane p l =
    if g.active.getLsbD l = true ∧ g.wbase + d ≤ p ∧ p < g.wbase + d + k then
      BitVec.ofNat 32 (val l / 2 ^ (32 * (p - (g.wbase + d))))
    else g.posLane p l

/-- Only group `gid` differs among the groups, and it is `h`; teams, gangs and contexts stand as they were. -/
structure State.OnlyGroup (s t : State) (gid : Nat) (h : Group) : Prop where
  is : aget t.groups gid = some h
  others : ∀ k, k ≠ gid → aget t.groups k = aget s.groups k
  teams : t.teams = s.teams
  gangs : t.gangs = s.gangs
  ctxs : t.ctxs = s.ctxs
  engines : t.engines = s.engines
  running : t.stalled = s.stalled

/-- The core's L1 copy of a line holds no clean byte that differs from the home's. -/
def State.NotStale (s : State) (core line : Nat) : Prop :=
  ∀ l, aget s.l1 (core, line) = some l → ∀ k < 128, l.valid.getLsbD k = true → l.dirty.getLsbD k = false →
    l.data.getD k 0 = (s.readHome (128 * line + k) 1).getD 0 0

/-- The little-endian number that a core's own accesses find in `n` bytes from a local address. -/
def State.seenValue (s : State) (core a n : Nat) : Nat := leValue ((List.range n).map fun k => s.seen core (a + k))

/-- The translations of the spill area's positions `p`, ..., `p + n - 1`, each to a whole line, no two to one line. -/
structure State.SpillMapped (s : State) (g : Group) (need : Need) (p n : Nat) (X : Nat → Xlat) : Prop where
  hit : ∀ k < n, s.Hit (s.coreOf g) (s.ctxOf g) g.supervisor need (s.spillAddr g (p + k)) (X k)
  sound : ∀ k < n, s.Sound (s.coreOf g) (X k) 128 (need == .write)
  apart : ∀ j < n, ∀ k < n, locOf (X j).pa / 128 = locOf (X k).pa / 128 → j = k

/-- Nothing in the core's log and no acquire keeps the group from the positions `p`, ..., `p + n - 1` of its spill area (13 R350, 11 R289). -/
def State.SpillOpen (s : State) (gid : Nat) (g : Group) (p n : Nat) : Prop :=
  s.acquiring gid = false ∧ s.logsPage gid ((List.range n).map fun k => s.spillAddr g (p + k)) = false

/-- A store of the group to a page waits for none of its logged stores: the page is not persist-through, the bytes lie in no snapshot
region, or the group has logged none (11 R305, 13 R350). -/
def State.QueueOpen (s : State) (gid : Nat) (x : Xlat) : Prop :=
  x.pt = true ∨ x.kind = 1 ∧ s.inRegion (locOf x.pa) = true → s.logs gid = false

/-- Every live lane stands at the issue address and executes (02 R38). -/
def Group.Converged (g : Group) : Prop := g.live ≠ 0 ∧ g.atIssue = g.live ∧ g.live &&& g.em = g.live

/-- The word that `CALL` puts into lane `l` of the frame position `wbase + k` that it spills: the slide and the return word
index in the last two, the register itself in the others (02 R38). -/
def linkWord (g : Group) (n k l : Nat) : Word32 :=
  if k + 2 = n then BitVec.ofNat 32 n else if k + 1 = n then BitVec.ofNat 32 (wordMod (g.issue + 1))
  else g.posLane (g.wbase + k) l

/-- The words of the block of an `MCAS` of `n` entries and the entries' words are readable and writable at once (06 R178): word
`j` of the block at `B j`, the word of entry `k` at `X k`. -/
structure State.BlockMapped (s : State) (g : Group) (block n : Nat) (B X : Nat → Xlat) : Prop where
  count : 2 ≤ n ∧ n ≤ 8 ∧ block % 8 = 0 ∧ s.seenValue (s.coreOf g) (locOf (B 0).pa) 8 = n
  block : ∀ j ≤ 3 * n, s.Hit (s.coreOf g) (s.ctxOf g) g.supervisor .read (block + 8 * j) (B j) ∧
    s.Sound (s.coreOf g) (B j) 8 false ∧ s.NotStale (s.coreOf g) (locOf (B j).pa / 128)
  entries : ∀ k < n, let va := s.seenValue (s.coreOf g) (locOf (B (1 + 3 * k)).pa) 8
    va % 8 = 0 ∧ s.Hit (s.coreOf g) (s.ctxOf g) g.supervisor .write va (X k) ∧ s.Sound (s.coreOf g) (X k) 8 true ∧
      s.isBad (span (locOf (X k).pa / 128 * 128) 128) = false
  apart : ∀ j < n, ∀ k < n, j ≠ k →
    s.seenValue (s.coreOf g) (locOf (B (1 + 3 * j)).pa) 8 % 2 ^ 57 ≠
      s.seenValue (s.coreOf g) (locOf (B (1 + 3 * k)).pa) 8 % 2 ^ 57 ∧
    (locOf (X j).pa + 8 ≤ locOf (X k).pa ∨ locOf (X k).pa + 8 ≤ locOf (X j).pa)

/-! ### Words that issue an operation -/

/-- `n` 64-bit words from an address are readable at once, word `j` at `B j`. -/
def State.WordsMapped (s : State) (g : Group) (va n : Nat) (B : Nat → Xlat) : Prop :=
  ∀ j < n, s.Hit (s.coreOf g) (s.ctxOf g) g.supervisor .read (va + 8 * j) (B j) ∧ s.Sound (s.coreOf g) (B j) 8 false ∧
    s.NotStale (s.coreOf g) (locOf (B j).pa / 128)

/-- Word `j` of such words. -/
def State.wordOf (s : State) (g : Group) (B : Nat → Xlat) (j : Nat) : Word64 :=
  BitVec.ofNat 64 (s.seenValue (s.coreOf g) (locOf (B j).pa) 8)

/-- Every Kiosk has room for a step (12 R333). -/
def State.KioskRoom (s : State) : Prop := ∀ k, s.kioskLoad k < 512

/-- Every Kiosk has room for `n` more steps, wherever the pages of the steps that wait lie: together they are no more than 512 (12 R333). -/
def State.KioskFree (s : State) (n : Nat) : Prop :=
  s.rowOps.length + s.chases.length + (s.listOps.map fun o => o.lanes.length).sum + (s.kvups.map fun v => v.chunks.length).sum + n ≤ 512

/-- The group issued operation `n` of an engine context and holds its handle (06 R181, 07 R211, 02 R45): the operation is in
progress, the group waits for the registers `pends`, and nothing else of the groups, teams, gangs and contexts changed. -/
structure State.Issued (s t : State) (gid : Nat) (g h : Group) (key : EKey) (code hreg n : Nat) (pends : List RegRef)
    (rng : Lanes := g.rng) : Prop where
  number : n = (s.engine key).issued + 1
  progress : (t.engine key).issued = n ∧ (t.engine key).active = (s.engine key).active ++ [n] ∧
    (t.engine key).fails = (s.engine key).fails
  issuer : aget (t.engine key).issuers n = some gid
  engines : ∀ k, k ≠ key → t.engine k = s.engine k
  is : aget t.groups gid = some h
  others : ∀ k, k ≠ gid → aget t.groups k = aget s.groups k
  around : t.teams = s.teams ∧ t.gangs = s.gangs ∧ t.ctxs = s.ctxs ∧ t.stalled = s.stalled
  handle : ∀ r, h.h r = if r = hreg then mkHandle code n else g.h r
  rest : g.Plain { h with handles := g.handles, pend := g.pend }
  pend : ∃ b, h.pend = (g.pendRegs pends b).pend
  vectors : g.SameVectors h
  scalars : g.SameScalars h
  masks : g.SameMasks h
  float : h.fpflags = g.fpflags ∧ h.rng = rng ∧ h.lastnan = g.lastnan

/-! ### Units of copies -/

/-- Memory bytes differ at most at some addresses. -/
def State.MemoryBut (s t : State) (as : List Nat) : Prop := ∀ b, b ∉ as → readByte t.mem b = readByte s.mem b

/-- Some bytes can be read at their home at once: no error waits to be found, their lines are free, and no L1 holds one exclusively. -/
structure State.HomeRead (s : State) (as : List Nat) : Prop where
  checks : s.Faultless
  ready : ∀ a ∈ as, s.LineFree (a / 128)
  alone : ∀ e ∈ s.l1, (∃ a ∈ as, e.1.2 = a / 128) → e.2.exclusive = false

/-- The bytes are of this package's memory and a write of them lands: no error waits to be found, and they lie neither in the
firmware area nor on a withdrawn line. -/
structure State.Storable (s : State) (as : List Nat) : Prop where
  memory : s.mem.wf = true
  checks : s.Faultless
  place : ∀ a ∈ as, placeOf a = .hbm ∨ placeOf a = .scm
  lands : ∀ a ∈ as, inFirmware a = false ∧ s.withdrawn a = false

/-- Both translation caches of a core's copy engine hold a translation of the address that serves the access (13 R345). -/
def State.EngineHit (s : State) (core ctx : Nat) (sup : Bool) (need : Need) (va : Nat) (x : Xlat) : Prop :=
  ∃ e, s.tlbFind (.ahead core) ctx (va % 2 ^ 57) = some e ∧ s.tlbFind (.l2 (core / 64)) ctx (va % 2 ^ 57) = some e ∧
    e.serves sup need = true ∧ x = e.xlat (va % 2 ^ 57)

/-- The step is a copy engine's for operation `o` of group `g` and its team: nothing that it asked of another package is out, and nothing
suspended, cancelled or failed it. -/
structure State.CopyTurn (s : State) (o : CopyOp) (g : Group) (t : Team) : Prop where
  is : s.copyOps[s.input.index]? = some o
  only : ∀ x ∈ s.copyOps, x.gid = o.gid → x.seqNo = o.seqNo → x = o
  issuer : aget s.groups o.gid = some g
  team : aget s.teams g.team = some t
  scratch : t.scratch.wf = true
  quiet : ∀ r ∈ s.remotes, r.what ≠ .copyUnit o.gid o.seqNo
  open_ : o.heldPage = none ∧ o.failed = none ∧ o.lostPeer = none ∧ o.cancelled = false ∧ o.begun = false

/-- The operation after one more of its units. -/
def CopyOp.next (o : CopyOp) : CopyOp := { o with done := o.done + 1, got := [], begun := false }

/-- The engine context and the groups after a unit left the operation as `o'` (05 R153, 07 R209): when no unit is left its future completes,
with status 5 where an `AREDUCE` left elements unwritten (07 R217), and the issuing group gets its flags and NaN. Lanes stay parked
that `keep` keeps. -/
structure State.UnitDone (s t : State) (o o' : CopyOp) (keep : Group → Park → Bool) : Prop where
  ops : t.copyOps = if o.units ≤ o'.done then s.copyOps.filter fun x => !(x.gid == o.gid && x.seqNo == o.seqNo)
    else s.copyOps.map fun x => if x.gid == o.gid && x.seqNo == o.seqNo then o' else x
  engines : ∀ k, k ≠ .copy o.gid → t.engine k = s.engine k
  before : o'.done < o.units → t.engine (.copy o.gid) = s.engine (.copy o.gid)
  finished : o.units ≤ o'.done → (t.engine (.copy o.gid)).issued = (s.engine (.copy o.gid)).issued ∧
    (t.engine (.copy o.gid)).fails = (s.engine (.copy o.gid)).fails ++ (o'.spoiled.elim [] fun a =>
      [{ seqNo := o.seqNo, status := 5, trap := some { code := 0x09, status := 5, s58 := a, s61 := (mkHandle 0x01 o.seqNo).toNat }
         gid := o.gid }]) ∧
    ∀ k, k ∈ (t.engine (.copy o.gid)).active ↔ k ∈ (s.engine (.copy o.gid)).active ∧ k ≠ o.seqNo
  groups : ∀ j x, aget s.groups j = some x → ∃ y, aget t.groups j = some y ∧ y.parks = x.parks.filter (keep x) ∧
    { y with parks := x.parks, save := x.save, begun := x.begun, persists := x.persists, scmDirty := x.scmDirty } =
      if o.units ≤ o'.done ∧ j = o.gid then (x.raiseLate (BitVec.ofNat 6 o'.fl)).noteNan (o'.nan.map (BitVec.ofNat 22)) else x
  around : t.gangs = s.gangs ∧ t.ctxs = s.ctxs ∧ t.stalled = s.stalled

/-- A lane waits for a granule of the team that is full now (06 R165). -/
def wokenBy (team : Nat) (full : List Nat) (g : Group) (p : Park) : Bool :=
  match p.on with
  | .granule z => g.team == team && full.contains z
  | _ => false

/-- The engine can read the bytes of some virtual addresses now, in this package's memory. -/
structure State.EngineReads (s : State) (o : CopyOp) (g : Group) (vas : List Nat) (X : Nat → Xlat) : Prop where
  hit : ∀ va ∈ vas, s.EngineHit (s.coreOf g) (s.ctxOf g) o.supervisor .read va (X va)
  kind : ∀ va ∈ vas, (X va).kind < 2 ∧ (placeOf (locOf (X va).pa) = .hbm ∨ placeOf (locOf (X va).pa) = .scm)
  home : s.HomeRead (vas.map fun va => locOf (X va).pa)

/-- The engine can write them now: no two lines are one, no L1 holds one exclusively, and the bytes land. -/
structure State.EngineWrites (s : State) (o : CopyOp) (g : Group) (vas : List Nat) (X : Nat → Xlat) : Prop where
  hit : ∀ va ∈ vas, s.EngineHit (s.coreOf g) (s.ctxOf g) o.supervisor .write va (X va)
  kind : ∀ va ∈ vas, (X va).kind < 2
  home : s.HomeRead (vas.map fun va => locOf (X va).pa)
  lands : s.Storable (vas.map fun va => locOf (X va).pa)
  apart : ∀ u ∈ vas, ∀ v ∈ vas, locOf (X u).pa / 128 = locOf (X v).pa / 128 → u % 2 ^ 57 / 128 = v % 2 ^ 57 / 128

/-- A byte at its home, and whether its beat is poisoned. -/
def State.engineByte (s : State) (x : Xlat) : Byte × Bool :=
  ((s.readHome (locOf x.pa) 1).getD 0 0, s.isBad [locOf x.pa])

/-- A byte of scratch, and whether its granule is poisoned. -/
def Team.engineByte (t : Team) (a : Nat) : Byte × Bool := (readByte t.scratch a, t.spoiled.contains (a / 16))

/-- The engine put the cells of `cell` into scratch: their granules are full, and poisoned where a cell is, or where one was that is not
written whole (07 R213, 17 R416). Only the map registers may differ beside. -/
structure Team.Received (t u : Team) (cell : Nat → Option (Byte × Bool)) : Prop where
  bytes : ∀ b, readByte u.scratch b = ((cell b).map Prod.fst).getD (readByte t.scratch b)
  full : ∀ z, z ∈ u.full ↔ z ∈ t.full ∨ ∃ k < 16, (cell (16 * z + k)).isSome = true
  spoiled : ∀ z, z ∈ u.spoiled ↔ (∃ k < 16, ∃ x, cell (16 * z + k) = some (x, true)) ∨ z ∈ t.spoiled ∧ ∃ k < 16, cell (16 * z + k) = none
  rest : { u with scratch := t.scratch, full := t.full, spoiled := t.spoiled, tmaps := t.tmaps } = t

/-- The engine wrote the cells of `cell`, by virtual address, to their homes: every other byte of memory stays, and the beats are poisoned
where a cell is, or where one was that is not written whole (17 R416). -/
structure State.Received (s t : State) (vas : List Nat) (X : Nat → Xlat) (cell : Nat → Byte × Bool) : Prop where
  bytes : ∀ va ∈ vas, readByte t.mem (locOf (X va).pa) = (cell va).1
  others : s.MemoryBut t (vas.map fun va => locOf (X va).pa)
  poison : ∀ b, b ∈ t.poison ↔ (∃ va ∈ vas, locOf (X va).pa / 32 = b ∧ (cell va).2 = true) ∨
    b ∈ s.poison ∧ ∃ k < 32, ∀ va ∈ vas, locOf (X va).pa ≠ 32 * b + k

/-- The map register of an operation took the largest magnitude of a unit (02 R49), and no other differs. -/
def Team.Raised (t u : Team) (n : Nat) (mag : Option Nat) : Prop :=
  (∀ z, z ≠ n → u.tmap z = t.tmap z) ∧ u.tmap n = { t.tmap n with
    amax := mag.elim (t.tmap n).amax fun v => if (t.tmap n).amax.toNat < v then BitVec.ofNat 32 v else (t.tmap n).amax }

/-- The offset, in a range copy of `n` bytes, of the byte that comes to offset `k`: where the destination overlaps the end of its source it
is a byte that the unit has copied already (07 R215). -/
def overlapped (same : Bool) (src dst n k : Nat) : Nat := if same = true ∧ src < dst ∧ dst - src < n then k % (dst - src) else k

/-! ### Members with effects of their own -/

/-- `IADDC`: the sum of A, B and the lane's bit of the carry mask (05 R110). -/
def carryForm (a : VArgs) : VecForm :=
  .ofGroup (dstV a) (srcA a false) (srcB a false) (fun _ => [])
    fun g i => i.out ((lo32 i.a + lo32 i.b + if (g.m a.sub.toNat).getLsbD i.lane then 1 else 0).zeroExtend 64)

/-- The carry out of lane `l` of `IADDC`. -/
def Group.carryOut (g : Group) (a : VArgs) (l : Nat) : Bool :=
  decide (2 ^ 32 ≤ (lo32 (g.src (srcA a false) l)).toNat + (lo32 (g.src (srcB a false) l)).toNat +
    if (g.m a.sub.toNat).getLsbD l then 1 else 0)

/-- The operands of the full-form instruction that a slot stands for: `op D, D, A` or `op D, A` (04 R87). -/
def Slot.args (x : Slot) (ty : Ty) (rnd : Rnd) (ftz : Bool) : VArgs :=
  let d := x.d.zeroExtend 10
  let n := x.a.zeroExtend 10
  let two := x.op.binary
  { d := d, a := if two then d else n, b := if two then n else 0, la := !two && x.la, lb := two && x.la, nw := x.nw, ty := ty
    rnd := rnd, ftz := ftz, sat := false, ty2 := 0, sub := 0 }

/-- The full-form instruction that a slot stands for, its type, rounding and flush by its modifier (04 R87, Table 4.9). -/
def Slot.alone (x : Slot) : Instr :=
  let code := fun (c : BitVec 3) => (Rnd.ofCode c).getD .rn
  let bits := Slot.args x .n32 .rn false
  let int := Slot.args x (if x.mode.getLsbD 0 then .n32 else .i32) .rn false
  let flt := Slot.args x .f32 (code (x.mode.extractLsb' 1 3)) (x.mode.getLsbD 0)
  let half := Slot.args x (if x.mode.getLsbD 3 then .bf16 else .f16) (code (x.mode.extractLsb' 0 3)) false
  match x.op with
  | .iadd => .iadd int
  | .isub => .isub int
  | .imul => .imul int
  | .imulh => .imulh int
  | .iadds => .iadds int
  | .imin => .imin int
  | .imax => .imax int
  | .iabs => .iabs int
  | .ineg => .ineg int
  | .land => .and bits
  | .lor => .or bits
  | .lxor => .xor bits
  | .landn => .andn bits
  | .lnot => .not bits
  | .shl => .shl bits
  | .shr => .shr bits
  | .sar => .sar bits
  | .rot => .rot bits
  | .popc => .popc bits
  | .clz => .clz bits
  | .brev => .brev bits
  | .mov => .mov bits
  | .fadd => .fadd flt
  | .fsub => .fsub flt
  | .fmul => .fmul flt
  | .fmin => .fmin flt
  | .fmax => .fmax flt
  | .fabs => .fabs flt
  | .fneg => .fneg flt
  | .frcp => .frcp flt
  | .frsq => .frsq flt
  | .fsqrt => .fsqrt flt
  | .fex2 => .fex2 flt
  | .flg2 => .flg2 flt
  | .ftanh => .ftanh flt
  | .frnd => .frnd flt
  | .fscale => .fscale flt
  | .fclass => .fclass flt
  | .hadd2 => .hadd2 half
  | .hmul2 => .hmul2 half

/-- The group after a paired word with the results `xs` of slot A and `ys` of slot B (02 R29, R32): both are written, A's results
enter the latches before B's, and the pair counts as two members. -/
structure Group.PairDone (g h : Group) (dx dy : VDst) (xs ys : List LaneOut) : Prop where
  kept : g.Kept h
  scalars : g.SameScalars h
  masks : g.SameMasks h
  rng : ∀ l < 32, h.rng.at l = g.rng.at l
  vectors : ∀ p, ∀ l < 32, h.posLane p l =
    if g.active.getLsbD l then
      dy.put g.wbase p (outAt ys l).r (dx.put g.wbase p (outAt xs l).r (g.posLane p l))
    else g.posLane p l
  marks : ∀ k, k ∈ h.marks ↔
    k ∈ g.marks ∧ ¬(k.scalar = false ∧ g.active.getLsbD k.lane = true ∧ (dx.hits g.wbase k.reg ∨ dy.hits g.wbase k.reg))
  flags : h.fpflags = g.fpflags ||| (Flags.union ((lanesOf g.active).map fun l => (outAt xs l).fl)).zeroExtend 64
    ||| (Flags.union ((lanesOf g.active).map fun l => (outAt ys l).fl)).zeroExtend 64
  nan : h.lastnan = g.lastnan
  latch0 : ∀ l < 32, h.latch 0 l = if g.active.getLsbD l then (outAt ys l).r else 0
  latch1 : ∀ l < 32, h.latch 1 l = if g.active.getLsbD l then (outAt xs l).r else 0
  latches : ∀ k < 2, ∀ l < 32, h.latch (k + 2) l = g.chainFor.latch k l
  counted : h.chain.vecs = g.chainFor.chain.vecs + 2 ∧ h.chain.members = g.chainFor.chain.members + 2
  advanced : g.Advanced h

/-! ### Words on a team -/

/-- Only map register `n` of the team differs. -/
structure Team.OnlyMap (t u : Team) (n : Nat) : Prop where
  rest : { u with tmaps := t.tmaps } = t
  others : ∀ k, k ≠ n → u.tmap k = t.tmap k

/-- Group `gid` is `h`, its team `k` is `u`, and no other group, team, gang or context differs. -/
structure State.OnlyTeam (s t : State) (gid : Nat) (h : Group) (k : Nat) (u : Team) : Prop where
  groups : s.OnlyGroup { t with teams := s.teams } gid h
  teams : t.teams = aset s.teams k u

/-- No byte that the core finds in memory changes. -/
def State.BytesKept (s t : State) (core : Nat) : Prop := ∀ b, t.seen core b = s.seen core b ∧ s.HomeKept t core b

/-- The group changed no register. -/
structure Group.SameRegisters (g h : Group) : Prop where
  vectors : g.SameVectors h
  scalars : g.SameScalars h
  masks : g.SameMasks h
  float : g.SameFloat h

/-- The word wrote the scalar `d` alone and advanced. -/
structure Group.WroteScalar (g h : Group) (d : Nat) (v : Word64) : Prop where
  plain : g.Plain h
  vectors : g.SameVectors h
  masks : g.SameMasks h
  float : g.SameFloat h
  scalars : ∀ n, h.s n = if n = d then v else g.s n

/-- The word changed no register and advanced. -/
structure Group.Passed (g h : Group) : Prop where
  plain : g.Plain h
  registers : g.SameRegisters h

/-! ### Matrix streams -/

/-- The stream of unit `q` of team `k` executes the word. -/
structure State.Streams (s : State) (k q : Nat) (t : Team) (u : MUnit) (st : Stream) : Prop where
  turn : s.cur = .stream k q
  team : aget s.teams k = some t
  unit : aget t.units q = some u
  stream : u.stream = some st
  running : st.running = true

/-- The stream after a word: at the next one (07 R222). -/
def Stream.past (st : Stream) (now : Nat) : Stream :=
  { st with pc := wordMod (st.pc + 1), waiting := false, chunk := 0, started := false, maps := [], lastIssue := now }

/-- The stream that has ended at its word; its flags and its NaN are the group's now (07 R209, R223). -/
def Stream.ended (st : Stream) : Stream :=
  { st with running := false, waiting := false, chunk := 0, started := false, maps := [], fl := 0, nan := none }

/-- The record of map register `n` that the stream's word goes by: as it read it when it started (08 R261). -/
def Stream.recordOf (st : Stream) (t : Team) (n : Nat) : List Word32 :=
  if st.started then agetD st.maps n [] else (t.tmap n).words

/-- The state whose team `k` has unit `q` as `u` and is else `t`. -/
def State.withUnit (s : State) (k : Nat) (t : Team) (q : Nat) (u : MUnit) : State :=
  { s with teams := aset s.teams k { t with units := aset t.units q u } }

/-- A map passes every check of its use as a matrix operand or a drain (07 R206, R223). -/
structure State.MapFits (s : State) (t : Team) (m : MapF) : Prop where
  fields : ∀ p ∈ mapFails m (.matrix [m.ty]), p.2 = false
  inside : mapOver m (s.teamScratch t) = none

/-- Its scratch can be read now: full under `fewait`, and not poisoned (07 R222, 17 R419). -/
def Team.operandReady (t : Team) (m : MapF) : Prop :=
  (m.fewait = true → ∀ g ∈ m.granules, g ∈ t.full) ∧ ∀ g ∈ m.granules, g ∉ t.spoiled

/-- The encoding of the view element (i, j) of a map, and its scale byte, 1 where the map has none (07 R205, R224). -/
def MapF.viewElem (m : MapF) (mem : Memory) (i j : Nat) : Nat :=
  if m.trans then rawAt mem (m.elemBit j i) m.bits else rawAt mem (m.elemBit i j) m.bits
def MapF.viewScale (m : MapF) (mem : Memory) (i j : Nat) : Nat :=
  if m.smode = 0 then 127
  else (readByte mem (m.sscale + if m.trans then m.scaleAt j i else m.scaleAt i j)).toNat

/-- The scaled value of a streamed element; past a plane never loaded a finite one counts without its sign, so that every product
is +0 (07 R224, R226). -/
def MapF.viewVal (m : MapF) (p : Plane) (origin : BitVec 22) (mem : Memory) (i j : Nat) : FVal :=
  match scaled origin (m.viewScale mem i j) (Ty.decode m.ty false origin (m.viewElem mem i j)) with
  | .fin n x e => .fin (n && p.loaded) x e
  | x => x

/-- The scaled value of a plane's element (07 R224). -/
def Plane.val (p : Plane) (origin : BitVec 22) (i j : Nat) : FVal := (p.vals origin).getD (64 * i + j) (.fin false 0 0)

/-- An element of a tile. -/
def Tile.at (t : Tile) (i j : Nat) : Word32 := t.getD (64 * i + j) 0

/-- `acc` plus the products of 64 pairs, of integers where `int`, in two groups of 32 (03 R72, R73; 07 R226). -/
def dot64 (origin : BitVec 22) (int : Bool) (x y : Nat → FVal) (acc : Word32) : Nat × Flags :=
  dotGroups origin 32 int 2 ((List.range 64).map x) ((List.range 64).map y) acc.toNat

/-- A tile whose element (i, j) is the result `f i j`. -/
structure Tile.Holds (t : Tile) (f : Nat → Nat → Nat × Flags) : Prop where
  length : t.length = 4096
  elems : ∀ i < 64, ∀ j < 64, Tile.at t i j = BitVec.ofNat 32 (f i j).1

/-- The stream's flags and NaN are merged into the group that forked it, if it is there, and no other group changes (05 R153). -/
def State.StreamMerged (s t : State) (st : Stream) : Prop :=
  (∀ j, j ≠ st.forker → aget t.groups j = aget s.groups j) ∧
    aget t.groups st.forker = (aget s.groups st.forker).map fun g => (g.raiseLate st.fl).noteNan st.nan

/-- Flag `b` is raised by some element. -/
def someFlag (f : Nat → Nat → Nat × Flags) (b : Nat) : Prop := ∃ i < 64, ∃ j < 64, (f i j).2.getLsbD b = true

/-- The encoding that a drain writes for the element of a chunk with number `e` in it (07 R229, 03 R60): exact to `.f32`, rounded to
`.bf16`, and scaled and rounded by `DRAINQ`. The private state advances once for every element. -/
def drainElem (m : MapF) (rnd : Rnd) (ftz quant : Bool) (tile : Tile) (rng : Word32) (c e : Nat) : Nat × Flags :=
  let i := 8 * c + e / 64
  let j := e % 64
  let raw := Tile.at tile i j
  let v := Fmt.f32.decode (quant && ftz) 0 raw.toNat
  let mode : RMode := { rnd := rnd, ftz := ftz, u := rsBits (Nat.repeat (rsNext rnd) (e + 1) rng) }
  if quant then
    quantElem m.ty mode ((drainScales m ((tileWords tile).map fun w => Fmt.f32.decode ftz 0 w.toNat)).getD (m.scaleAt i j) 0) v
  else if m.ty = .f32 then (raw.toNat, 0)
  else Ty.write m.ty mode { v := v, fl := Flags.when v.isSig Flags.invalid }

/-- The byte at offset `o` of the tile that chunk `c` writes, when it writes one: elements, and zero pads (07 R205, 08 R266). -/
def chunkByte (m : MapF) (c : Nat) (elem : Nat → Nat → Nat) (o : Nat) : Option Byte :=
  match m.byteElem o with
  | some (i, j, w) =>
    if i / 8 ≠ c then none
    else if m.bits = 4 then some (BitVec.ofNat 8 (elem i j + 16 * elem i (j + 1)))
    else some (BitVec.ofNat 8 (elem i j / 256 ^ w))
  | none => if o / max m.pitch 1 / 8 = c then some 0 else none

/-! ### Traps -/

/-- Word `k` of the trap record (13 Table 13.9). -/
def recordWord (t : TrapInfo) (resume head : WordIndex) (ctx : Nat) (gen : Word32) (k : Nat) : Word64 :=
  match k with
  | 0 => BitVec.ofNat 64 (resume * 2 ^ 32 + t.status % 256 * 2 ^ 16 + t.code % 2 ^ 16)
  | 1 => BitVec.ofNat 64 (t.lanes.toNat * 2 ^ 32 + head)
  | 2 => BitVec.ofNat 64 t.s58
  | 3 => BitVec.ofNat 64 t.s59
  | 4 => BitVec.ofNat 64 t.s60
  | 5 => BitVec.ofNat 64 t.s61
  | 7 => BitVec.ofNat 64 (ctx % 2 ^ 16 * 2 ^ 32 + gen.toNat)
  | _ => 0

/-- Trap entry that undoes the open chain (02 R34): its lanes stand at the head again, and the registers that its members wrote, `rng` and
`fpflags` hold what they held there. -/
structure Group.Unwound (g h : Group) : Prop where
  saved : ∃ sv, h.save = some sv ∧ sv.resume = g.issue ∧
    ∀ l < 32, sv.lpc.getD l 0 = if g.chain.lanes.getLsbD l then g.chain.head else g.pcOf l
  undone : ∀ p x, aget g.chain.oldVec p = some x → (g.chain.oldVec.map Prod.fst).Nodup → ∀ l < 32, h.posLane p l = x.at l
  others : ∀ p, (∀ x, (p, x) ∉ g.chain.oldVec) → ∀ l < 32, h.posLane p l = g.posLane p l
  float : h.fpflags = g.chain.oldFlags ∧ h.rng = g.chain.oldRng

/-- Trap entry of a group without an open chain (13 R356): the save set, the record, supervisor mode, and every live lane at the
context's vector. -/
structure Group.Entered (g h : Group) (t : TrapInfo) (resume : WordIndex) (ctx : Nat) (gen : Word32) (vector : WordIndex) :
    Prop where
  mode : h.supervisor = true ∧ h.em = 0xFFFFFFFF ∧ h.parks = [] ∧ h.hold = .none
  lanes : h.live = g.live ∧ ∀ l < 32, h.pcOf l = if g.live.getLsbD l then vector else g.pcOf l
  saved : ∃ sv, h.save = some sv ∧ sv.resume = resume ∧ sv.em = g.em ∧ sv.parks = g.parks ∧
    (∀ l < 32, sv.lpc.getD l 0 = if g.atIssue.getLsbD l then resume else g.pcOf l) ∧
    ∀ k < 8, sv.sregs.getD k 0 = g.s (56 + k)
  scalars : ∀ n, h.s n = if 56 ≤ n ∧ n < 64 then recordWord t resume g.issue ctx gen (n - 56) else g.s n
  ended : h.chain.isOpen = false ∧ h.latches = []
  vectors : g.SameVectors h
  masks : ∀ n, n ≠ 8 → h.m n = g.m n
  float : g.SameFloat h
  rest : h.origin = g.origin ∧ h.svc = g.svc ∧ h.wbase = g.wbase ∧ h.handles = g.handles ∧ h.pend = g.pend ∧
    h.team = g.team ∧ h.idx = g.idx
  marks : ∀ k, k ∈ h.marks ↔ k ∈ g.marks ∧ ¬(k.scalar = true ∧ 56 ≤ k.reg ∧ k.reg < 64)

/-- Return from a trap to the save set `sv` (13 R358). -/
structure Group.Left (g h : Group) (sv : SaveSet) : Prop where
  mode : h.supervisor = false ∧ h.em = sv.em ∧ h.save = none ∧ h.parks = sv.parks
  lanes : h.live = g.live ∧ ∀ l < 32, h.pcOf l = if g.live.getLsbD l = true then
    (if sv.lpc.getD l 0 = sv.resume then wordMod ((g.s 56).toNat / 2 ^ 32) else sv.lpc.getD l 0) else g.pcOf l
  scalars : ∀ n, h.s n = if 56 ≤ n ∧ n < 64 then sv.sregs.getD (n - 56) 0 else g.s n
  ended : h.chain.isOpen = false ∧ h.latches = []
  vectors : g.SameVectors h
  masks : ∀ n, n ≠ 8 → h.m n = g.m n
  float : g.SameFloat h
  rest : h.origin = g.origin ∧ h.svc = g.svc ∧ h.wbase = g.wbase ∧ h.handles = g.handles ∧ h.pend = g.pend ∧
    h.team = g.team ∧ h.idx = g.idx

/-! ### Tasks and images -/

/-- 64 bytes from an address are readable at once, in one line. -/
structure State.BlockRead (s : State) (g : Group) (va : Nat) (x : Xlat) : Prop where
  hit : s.Hit (s.coreOf g) (s.ctxOf g) g.supervisor .read va x
  sound : s.Sound (s.coreOf g) x 64 false
  fresh : s.NotStale (s.coreOf g) (locOf x.pa / 128)

/-- Those bytes. -/
def State.blockOf (s : State) (g : Group) (x : Xlat) : List Byte :=
  (List.range 64).map fun k => s.seen (s.coreOf g) (locOf x.pa + k)

/-- A local address, as a translation without a page of its own. -/
def atLocal (a : Nat) : Xlat := { pa := a, kind := 0, pt := false, attr := 0 }

/-- The value that `XLATE` gives for a failure: bit 63, the status, and the last entry read (07 R250). -/
def xlateFailed (status : Nat) (last : Word64) : Word64 :=
  BitVec.ofNat 64 (2 ^ 63 + status % 128 * 2 ^ 56 + last.toNat % 2 ^ 56)

/-! ### Steps of the part's own units -/

/-- The little-endian number at the home of `n` bytes. -/
def State.homeValue (s : State) (a n : Nat) : Nat := leValue (s.readHome a n)

/-- A unit can take the bytes now: memory is canonical, no error waits to be found, the lines are free in the directory and held by
no L1, and the bytes are without error and outside the firmware area (12 R323). -/
structure State.Takes (s : State) (as : List Nat) : Prop where
  memory : s.mem.wf = true
  checks : s.Faultless
  place : ∀ a ∈ as, placeOf a = .hbm ∨ placeOf a = .scm
  ready : ∀ a ∈ as, s.LineFree (a / 128)
  alone : ∀ e ∈ s.l1, (∃ a ∈ as, e.1.2 = a / 128) → e.2.exclusive = false
  clean : s.isBad as = false
  firmware : ∀ a ∈ as, inFirmware a = false

/-- A Kiosk's translation cache holds a translation of the address that serves the access (12 R334, 13 R345). -/
def State.KioskHit (s : State) (k ctx : Nat) (sup : Bool) (need : Need) (va : Nat) (x : Xlat) : Prop :=
  ∃ e, s.tlbFind (.kiosk k) ctx (va % 2 ^ 57) = some e ∧ e.serves sup need = true ∧ x = e.xlat (va % 2 ^ 57)

/-- Every group is as it was, but for group `gid`, which is `h`. -/
def State.GroupTo (s t : State) (gid : Nat) (h : Group) : Prop :=
  aget t.groups gid = some h ∧ ∀ k, k ≠ gid → aget t.groups k = aget s.groups k

/-- Operation `n` of a group's Kiosk context completed without failure, and no register waits for it any more. -/
structure State.KioskDone (s t : State) (gid n : Nat) (g h : Group) : Prop where
  active : ∀ k, k ∈ (t.engine (.kiosk gid)).active ↔ k ∈ (s.engine (.kiosk gid)).active ∧ k ≠ n
  fails : (t.engine (.kiosk gid)).fails = (s.engine (.kiosk gid)).fails
  pend : ∀ q, q ∈ h.pend ↔ q ∈ g.pend ∧ q.by_ ≠ .kiosk n

/-- Lane `l` of a pair of registers by stack position holds the two halves of `v`; no other register changes. -/
def Group.PairSet (g h : Group) (p l v : Nat) : Prop :=
  ∀ q, ∀ k < 32, h.posLane q k =
    if k = l ∧ q = p then BitVec.ofNat 32 v else if k = l ∧ q = p + 1 then BitVec.ofNat 32 (v / 2 ^ 32) else g.posLane q k

/-- A walk without a cache gives the translation at once, and marks no entry: it only reads its tables, and their channels note the reads
(12 R313, 13 R342). -/
def State.Walks (s : State) (ctx : Nat) (need : Need) (va : Nat) (x : Xlat) : Prop :=
  ∃ reqs, s.translate [] ctx true need va = .ok x { s with memReqs := reqs }

/-! ### Packets that arrive -/

/-- The packet of the step is taken, and with it all of packet `k` is here: a packet of one part is `k`, and the parts of any other join to
it (12 R330; log 15). -/
structure State.Delivers (s : State) (k : Packet) : Prop where
  untried : s.stalled = false
  heard : s.input.pkt.direct = true → s.hears s.input.pkt.src = true
  framed : s.input.pkt.framed = true
  checked : s.input.pkt.checkOk = true
  clear : s.input.pkt.reserved = 0
  kind : s.input.pkt.cls = k.cls ∧ s.input.pkt.op % opPart = k.op
  whole : if s.input.pkt.op < opPart then k = s.input.pkt
    else joinParts s.input.pkt (s.parts.filter (fun q => q.whole = s.input.pkt.whole) ++ [s.input.pkt]) = some k

/-- The state in which that packet is served: its parts are kept no more. -/
def State.heard (s : State) : State :=
  if s.input.pkt.op < opPart then s else { s with parts := s.parts.filter fun q => q.whole ≠ s.input.pkt.whole }

/-- A write of another package was performed at `a`, and is answered with a status and data: at once, and for SCM when the persist queue has
accepted the last of it (12 R330, 06 R198). The halves of 16 bytes are two writes (11 R306). -/
structure State.Served (s t : State) (p : Packet) (a : Nat) (bs : List Byte) (status : Nat) (data : List Byte) : Prop where
  bytes : ∀ k < bs.length, readByte t.mem (a + k) = bs.getD k 0
  others : s.MemoryBut t (span a bs.length)
  hbm : placeOf a = .hbm → t.egress = s.egress ++ [{ pkt := (s.reply p status data []).sealed, since := s.now.toNat }]
  scm : placeOf a = .scm → t.egress = s.egress ∧ ∃ es new, t.persists = s.persists ++ es ++ new ∧
    new.flatMap Persist.cells = cellsAt a bs ∧ (∀ e ∈ new, e.accepted = false) ∧ (bs.length = 16 → 2 ≤ new.length) ∧
    (new.getLast?).map Persist.ack = some (some (s.reply p status data []))

/-- A request to another package left under a new tag, in as many packets as carry its data, and is kept open. -/
def State.Asked (s t : State) (p : Packet) (what : RemoteFor) (acquire : Bool := false) : Prop :=
  ∃ tag, (∀ r ∈ s.remotes, r.tag < tag) ∧
    t.remotes = s.remotes ++ [{ tag := tag, peer := p.dest, addr := p.addr, what := what, acquire := acquire }] ∧
    t.egress = s.egress ++ ({ p with tag := tag } : Packet).parts.map fun k => { pkt := k.sealed, since := s.now.toNat }

/-- The snapshot engine wrote `now` to the line at `a` for packet `p`, and a persist queue has the write, which sets `c` in the line's
metadata and then answers the sender (16 R394, R395, R404). -/
def State.TookProduct (s t : State) (p : Packet) (a : Nat) (now : List Byte) (c : MetaSet) : Prop :=
  (∀ k < 256, readByte t.mem (a + k) = now.getD k 0) ∧ s.MemoryBut t (span a 256) ∧ t.lineMeta = s.lineMeta ∧ t.snap = s.snap ∧
    ∃ es e, t.persists = s.persists ++ es ++ [e] ∧ e.kind = 2 ∧ e.cells = cellsAt a now ∧ e.ack = some (s.reply p 0 [] []) ∧
      e.accepted = false ∧ e.sets = [c]

/-- A line that the snapshot engine can add to: its memory is canonical, without error and free, and lies outside the firmware area. -/
structure State.ProductLine (s : State) (a : Nat) : Prop where
  memory : s.mem.wf = true
  checks : s.Faultless
  free : ∀ b ∈ span a 256, s.LineFree (b / 128)
  clean : s.isBad (span a 256) = false
  firmware : ∀ k < 256, inFirmware (a + k) = false

/-! ### Launch -/

/-- A group as admission leaves it, apart from its vector registers (02 R28, Tables 2.1 and 2.4). -/
structure Group.Fresh (h : Group) (r : Record) (team t idx clock : Nat) (step : Word64) : Prop where
  place : h.team = team ∧ h.idx = idx ∧ h.wbase = 0
  lanes : h.live = 0xFFFFFFFF ∧ h.em = 0xFFFFFFFF ∧ h.parks = [] ∧ h.hold = .none ∧ ∀ l < 32, h.pcOf l = r.entry
  scalars : ∀ n, h.s n = if n = 0 then r.arg0 else if n = 1 then r.arg1 else if n = 2 then BitVec.ofNat 64 t
    else if n = 3 then BitVec.ofNat 64 idx else 0
  masks : ∀ n, n ≠ 8 → h.m n = 0
  handles : ∀ n, h.h n = 0
  control : h.origin = step &&& 0xFFF ∧ h.fpflags = 0 ∧ h.svc = 1 ∧ h.lastnan = 0 ∧ h.supervisor = false ∧ h.save = none
  rng : ∀ l < 32, h.rng.at l =
    if (0x9E3779B9 : Word32) = BitVec.ofNat 32 (4096 * t + 32 * idx + l) then 0x9E3779B9
    else 0x9E3779B9 ^^^ BitVec.ofNat 32 (4096 * t + 32 * idx + l)
  ended : h.chain.isOpen = false ∧ h.pend = [] ∧ h.loopBuf = none
  time : h.admitted = clock ∧ h.lastIssue = clock

/-- Ring entry `i` of queue `k` is consumed (14 R368, R369, R373): it reads 0, head passes the entries consumed, and a queue that is
empty leaves its slot. -/
structure State.EntryGone (s t : State) (k i : Nat) : Prop where
  entry : t.homeValue ((s.queue k).entryAt i) 8 = 0
  last : (s.pendingEntries (s.queue k)).filter (· ≠ i) = [] → t.queue k = { s.queue k with
    head := (s.queue k).tail
    eligible := false
    slot := none
    times := (t.queue k).times }
  more : ∀ j js, (s.pendingEntries (s.queue k)).filter (· ≠ i) = j :: js → t.queue k = { s.queue k with
    head := BitVec.ofNat 32 j
    times := (t.queue k).times }
  others : ∀ m, m ≠ k → t.queue m = s.queue m

/-- A candidate of the scheduler (14 R370, R371): an entry in the first 32 of an active queue whose record is ready or cannot be read,
or a gang of the resume list, under queue number 1024. -/
def State.isCandidate (s : State) (key : Nat × Nat) : Prop :=
  (∃ q, (key.1, q) ∈ s.queues ∧ q.slot ≠ none ∧ key.2 ∈ (s.pendingEntries q).take 32 ∧
    match s.recordView (s.ownerOf key.1) (s.ringEntry q key.2) with
    | .away _ => False
    | .unreadable => True
    | .record bs => (recordOf bs).join = 0 ∧
      ((recordOf bs).steptag = 0 ∨ (recordOf bs).steptag ≤ (s.ctx ((s.ownerOf key.1).getD 0)).step.toNat)) ∨
  (key.1 = 1024 ∧ key.2 ∈ s.resumeList)

/-- No eligible queue waits for a slot. -/
def State.NoInactive (s : State) : Prop := ∀ e ∈ s.queues, e.2.eligible = true → e.2.slot ≠ none

/-- The translation of an address by its page's. -/
def pieceAt (X : Nat → Xlat) (va : Nat) : Xlat := { X (va / 4096) with pa := (X (va / 4096)).pa + va % 4096 }

/-- The pieces of a gang's save: its windows, of 128 bytes, and the pieces of its teams' save areas, of 32 (13 R361; log 35). -/
def State.savePieces (s : State) (k : Nat) : List (Nat × Nat) :=
  ((s.saveWindows k).map fun w => (w.2.2, 128)) ++ (s.saveAreas k).map fun w => (w.2.2, 32)

/-- The pages of a gang's save translate at once, each in the mode in which it is accessed, to this package; their lines are free, held
exclusively by no L1, and each piece is aligned there, in HBM or SCM, and apart from the others. -/
structure State.PagesReady (s : State) (k core ctx : Nat) (need : Need) (X : Nat → Xlat) : Prop where
  pages : ∀ pm ∈ s.savePageModes k, s.Hit core ctx pm.2 need (4096 * pm.1) (X pm.1) ∧ (X pm.1).kind < 2
  free : ∀ va ∈ s.saveAddrs k, s.LineFree (locOf (pieceAt X va).pa / 128)
  aligned : ∀ p ∈ s.savePieces k, let a := locOf (pieceAt X p.1).pa
    a % p.2 = 0 ∧ (placeOf a = .hbm ∨ placeOf a = .scm)
  apart : (s.savePieces k).Pairwise fun p q =>
    let a := locOf (pieceAt X p.1).pa
    let b := locOf (pieceAt X q.1).pa
    a + p.2 ≤ b ∨ b + q.2 ≤ a
  alone : ∀ e ∈ s.l1, ∀ va ∈ s.saveAddrs k, e.1.2 = locOf (pieceAt X va).pa / 128 → e.2.exclusive = false

/-- The groups and teams of a gang are listed once, under their numbers, and stand on the gang's cores. -/
structure State.GangSound (s : State) (k : Nat) (x : Gang) : Prop where
  keys : (s.groups.map Prod.fst).Nodup ∧ (s.teams.map Prod.fst).Nodup
  groups : ∀ gid ∈ s.gidsOf k, ∀ g, aget s.groups gid = some g →
    gid = gidOf g.team g.idx ∧ gid / 128 = g.team ∧ g.idx < x.rec_.groups ∧ s.coreOf g ∈ x.cores
  teams : ∀ e ∈ s.teams, e.2.gang = k → e.2.core ∈ x.cores

/-- The address at its home of byte `o` of the save area of a team. -/
def areaByte (X : Nat → Xlat) (r : Record) (u : Team) (o : Nat) : Nat :=
  locOf (pieceAt X ((saveBase r u.idx u.units.length + 32 * (o / 32)) % 2 ^ 57)).pa + o % 32

/-- The number of `w` bytes at offset `o` of the save area of a team. -/
def State.areaNumber (s : State) (X : Nat → Xlat) (r : Record) (u : Team) (o w : Nat) : Nat :=
  leValue ((List.range w).map fun j => BitVec.ofNat 8 (s.homeValue (areaByte X r u (o + j)) 1))

/-- The completion signal of a record is a word of this package that can be written at once, clear of some bytes. -/
structure State.SignalReady (s : State) (ctx : Nat) (r : Record) (x : Xlat) (clear : List Nat) : Prop where
  named : r.signal ≠ 0 ∧ r.signal % (if r.sig32 then 4 else 8) = 0
  hit : s.Walks ctx .write r.signal x
  kind : x.kind < 2
  takes : s.Takes (span (locOf x.pa) (if r.sig32 then 4 else 8))
  apart : ∀ a ∈ span (locOf x.pa) (if r.sig32 then 4 else 8), a ∉ clear

/-! ### Directory -/

/-- The step takes message `m` of those in flight within the package (12 R319). -/
structure State.Message (s : State) (op : CohOp) (m : CohMsg) : Prop where
  code : s.input.code = 0
  is : s.msgs[s.input.index]? = some m
  op : m.op = op
  here : m.target = s.own

/-- A line of this package's memory that its home can serve: no L1 holds it exclusively and its stack is not held. -/
structure State.HomeLine (s : State) (line : PAddr) : Prop where
  own : pkgOf line = s.own
  place : placeOf (locOf line) = .hbm ∨ placeOf (locOf line) = .scm
  held : (s.stack (stackOf (128 * (locOf line / 128)))).held = false
  alone : ∀ x ∈ s.l1, x.1.2 = locOf line / 128 → x.2.exclusive = false
  checks : s.Faultless

/-- After the step that took its message, the package has the messages `new` in flight, and the entry of no other line differs. -/
structure State.Sends (s t : State) (ln : Nat) (new : List CohMsg) : Prop where
  msgs : t.msgs = s.msgs.eraseIdx s.input.index ++ new
  others : ∀ k, k ≠ ln → t.entry k = s.entry k

/-! ### Word indexes -/

/-- Every word index that a group holds is below 2^29: its lanes, its parked lanes, its chain, its save set, its loop buffer, and the
word of a page fault that it waits on (02 R42). -/
structure Group.WordsOk (g : Group) : Prop where
  lanes : ∀ x ∈ g.lpc, x < 2 ^ 29
  parks : ∀ p ∈ g.parks, p.pc < 2 ^ 29
  chain : g.chain.head < 2 ^ 29
  save : ∀ sv, g.save = some sv → sv.resume < 2 ^ 29 ∧ (∀ x ∈ sv.lpc, x < 2 ^ 29) ∧ ∀ p ∈ sv.parks, p.pc < 2 ^ 29
  loop : ∀ b, g.loopBuf = some b → b.first < 2 ^ 29
  hold : ∀ va kind last lanes word, (g.hold = .page va kind last lanes word → word < 2 ^ 29) ∧
    ∀ f, g.hold = .pageFailed va kind last lanes word f → word < 2 ^ 29

/-- Every word index of the package is below 2^29: those of the groups, of the streams, and the entries of the records that
succeed. -/
structure State.WordsOk (s : State) : Prop where
  groups : ∀ e ∈ s.groups, e.2.WordsOk
  streams : ∀ e ∈ s.teams, ∀ u ∈ e.2.units, ∀ st, u.2.stream = some st → st.pc < 2 ^ 29
  successors : ∀ e ∈ s.gangs, ∀ f, e.2.successor = some f → f.2.entry < 2 ^ 29

end Sys2Proof.Machine
end

