-- ==== Sys2Proof/WellFormed.lean ====
section
/-!
DEFINITION. Which instructions are well formed for a reader: those whose word raises no cause of 04 Table 4.12.
-/
namespace Sys2Proof

/-- `MBAR` has two constructors, told apart by its field D (07 Table 7.9a). -/
def Instr.mbarOk : Instr → Bool
  | .mbarArr a => a.d == 0
  | .mbarWait a => a.d != 0
  | _ => true

/-- The instruction is well formed for a reader. A word that is no instruction is so when the decoder finds its cause; a step of
the part has no word to be formed badly. -/
def Instr.wf (rd : Reader) (i : Instr) : Bool :=
  match i.shape with
  | .p a => !rd.matrix && (PArgs.cause rd a).isNone
  | .raw w => decide (decode rd w = i)
  | .device => true
  | sh => ((sh.fields.map fun f => (f.cause rd).isNone).getD false) && i.mbarOk

end Sys2Proof
end

