-- ==== Sys2Proof/Certificates/Slice0/Obligations.lean ====
section
/-!
DEFINITION. The statements about the model.
-/
open Sys2Proof Sys2Proof.Machine

/-! ### Vector members -/

/-- 05 R103 with the results of Tables 5.3 to 5.9: a vector word that nothing holds up completes. It writes D in the lanes that
execute, merges flags, shifts the latches and advances; nothing else of the package changes. -/
def Claim.VectorMembers : Prop :=
  ∀ (i : Instr) (F : VecForm) (s : State) (gid : Nat) (g : Group),
    vecForm i = some F → tyAdmitted i → s.Acts gid g → g.Latched F.latches → g.Free (F.reads g) F.dst.writes →
    ∃ h, exec i s = .next { s with groups := aset s.groups gid h } ∧ g.CompletedAt h s.clock ∧
      g.VectorDone h F.dst (F.outs g.chainFor)

/-- 05 R134, R136, R138, R140, R141: a word that writes a scalar completes once per issue; it names no latch and shifts none. -/
def Claim.ScalarMembers : Prop :=
  ∀ (i : Instr) (F : OnceForm Word64) (s : State) (gid : Nat) (g : Group),
    scalarForm i = some F → tyAdmitted i → s.Acts gid g → g.Free (F.reads g) [.s F.d] →
    ∃ h, exec i s = .next { s with groups := aset s.groups gid h } ∧ g.CompletedAt h s.clock ∧ g.ScalarDone h F

/-- 05 R110, R119, R139, R140: a word that writes a mask completes once per issue. -/
def Claim.MaskMembers : Prop :=
  ∀ (i : Instr) (F : OnceForm Word32) (s : State) (gid : Nat) (g : Group),
    maskForm i = some F → tyAdmitted i → s.Acts gid g → g.Free (F.reads g) [] →
    ∃ h, exec i s = .next { s with groups := aset s.groups gid h } ∧ g.CompletedAt h s.clock ∧ g.MaskDone h F

/-! ### Control words -/

/-- 05 R143, R151: a branch moves the lanes at the issue address and changes nothing else; `NOP` advances them. -/
def Claim.Branches : Prop :=
  ∀ (i : Instr) (F : BranchForm) (s : State) (gid : Nat) (g : Group),
    branchForm i = some F → notField i → s.Acts gid g → g.Free (F.reads g) [] →
    ∃ h, exec i s = .next { s with groups := aset s.groups gid h } ∧ g.CompletedAt h s.clock ∧ g.Kept h ∧
      g.SameVectors h ∧ g.SameScalars h ∧ g.SameMasks h ∧ g.SameFloat h ∧ h.marks = g.marks ∧ h.chain.isOpen = false ∧
      ∀ l < 32, h.pcOf l = if g.atIssue.getLsbD l then F.next g l else g.pcOf l

/-- 05 R149, R150: `LOOPB` declares the next words a loop body; `YIELD` advances and holds the group for the other groups of
its quarter that could issue. -/
def Claim.YieldAndLoop : Prop :=
  (∀ (a : SArgs) (s : State) (gid : Nat) (g : Group), s.Acts gid g →
    ∃ h, exec (.loopb a) s = .next { s with groups := aset s.groups gid h } ∧ g.CompletedAt h s.clock ∧
      g.Plain { h with loopBuf := g.loopBuf } ∧ g.SameVectors h ∧ g.SameScalars h ∧ g.SameMasks h ∧ g.SameFloat h ∧
      h.loopBuf = some { first := wordMod (g.issue + 1), len := a.imm.toNat, words := [] }) ∧
  (∀ (a : SArgs) (s : State) (gid : Nat) (g : Group), s.Acts gid g →
    ∃ h ws, exec (.yield a) s = .next { s with groups := aset s.groups gid h } ∧ g.CompletedAt h s.clock ∧
      g.Plain { h with hold := g.hold } ∧ g.SameVectors h ∧ g.SameScalars h ∧ g.SameMasks h ∧ g.SameFloat h ∧
      (∀ k, k ∈ ws ↔ ∃ x, (k, x) ∈ s.groups ∧ k ≠ gid ∧ s.coreOf x = s.coreOf g ∧ s.quarterOf x = s.quarterOf g ∧
        s.couldIssue x = true) ∧
      h.hold = if ws = [] then .none else .yielded ws 32)

/-- 05 R152, 02 Table 2.4: `CRD` reads a group control register into a scalar, or `rng` into the executing lanes of a vector. -/
def Claim.ReadControl : Prop :=
  ∀ (a : SArgs) (s : State) (gid : Nat) (g : Group), s.Acts gid g → a.imm.toNat < 6 →
    (a.imm ≠ 2 → g.Free [] [.s a.d.toNat] →
      ∃ h, exec (.crd a) s = .next { s with groups := aset s.groups gid h } ∧ g.CompletedAt h s.clock ∧ g.Plain h ∧
        g.SameVectors h ∧ g.SameMasks h ∧ g.SameFloat h ∧
        ∀ n, h.s n = if n ≠ a.d.toNat then g.s n else if a.imm = 0 then g.origin else if a.imm = 1 then g.fpflags
          else if a.imm = 3 then BitVec.ofNat 64 g.wbase else if a.imm = 4 then g.svc else g.lastnan) ∧
    (a.imm = 2 → g.Free [] [.v a.d.toNat] →
      ∃ h, exec (.crd a) s = .next { s with groups := aset s.groups gid h } ∧ g.CompletedAt h s.clock ∧ g.Plain h ∧
        g.SameScalars h ∧ g.SameMasks h ∧ g.SameFloat h ∧
        ∀ p, ∀ l < 32, h.posLane p l =
          if p = g.wbase + a.d.toNat ∧ g.active.getLsbD l = true then g.rng.at l else g.posLane p l)

/-- 05 R152, 02 R47 and Table 2.4: `CWR` writes a group control register; reserved bits are ignored, a zero state of `rng` is
stored as the constant, and `wbase` is a supervisor's: the old window is spilled and the new one filled, and a base that is no multiple
of 8 or leaves no room for the window is `STACK_OVERFLOW`. What that record holds beside the base is the model's choice (log 59). -/
def Claim.WriteControl : Prop :=
  ∀ (a : SArgs) (s : State) (gid : Nat) (g : Group), s.Acts gid g → a.imm.toNat < 6 →
    (a.imm ≠ 2 → a.imm ≠ 3 → g.Free (readsS [a.a.toNat]) [] →
      ∃ h, exec (.cwr a) s = .next { s with groups := aset s.groups gid h } ∧ g.CompletedAt h s.clock ∧
        g.Plain { h with origin := g.origin, svc := g.svc } ∧ g.SameVectors h ∧ g.SameScalars h ∧ g.SameMasks h ∧
        h.rng = g.rng ∧
        h.origin = (if a.imm = 0 then g.s a.a.toNat &&& 0x3FFFFF else g.origin) ∧
        h.fpflags = (if a.imm = 1 then g.s a.a.toNat &&& 0x3F else g.fpflags) ∧
        h.svc = (if a.imm = 4 then g.s a.a.toNat &&& 0x3 else g.svc) ∧
        h.lastnan = (if a.imm = 5 then g.s a.a.toNat &&& 0x803FFFFF else g.lastnan)) ∧
    (a.imm = 2 → g.Free [(.v a.a.toNat, g.active)] [] →
      ∃ h, exec (.cwr a) s = .next { s with groups := aset s.groups gid h } ∧ g.CompletedAt h s.clock ∧ g.Plain h ∧
        g.SameVectors h ∧ g.SameScalars h ∧ g.SameMasks h ∧ h.fpflags = g.fpflags ∧ h.lastnan = g.lastnan ∧
        ∀ l < 32, h.rng.at l = if g.active.getLsbD l then
          (if g.v a.a.toNat l = 0 then 0x9E3779B9 else g.v a.a.toNat l) else g.rng.at l) ∧
    (a.imm = 3 → g.supervisor = false →
      exec (.cwr a) s = .next (s.trap gid g.endChain { code := 1, status := 8, s59 := s.word.toNat })) ∧
    (a.imm = 3 → g.supervisor = true → g.Free (readsS [a.a.toNat]) [] →
      let core := s.coreOf g
      let v := (g.s a.a.toNat).toNat % 2 ^ 14
      let W := s.window g
      (v % 8 ≠ 0 ∨ s.stackSize g < v + W → exec (.cwr a) s = .next (s.trap gid g.endChain
        { code := 0x04, lanes := g.atIssue, s59 := 2, s60 := g.wbase, s61 := v })) ∧
      ∀ X Y : Nat → Xlat, v % 8 = 0 → v + W ≤ s.stackSize g → g.pendingIn g.wbase W = false → g.readsOut = false → g.fills = [] →
        s.SpillOpen gid g g.wbase W → s.SpillOpen gid g v W → (∀ k < W, s.QueueOpen gid (X k)) →
        s.SpillMapped g .write g.wbase W X → s.SpillMapped g .read v W Y → (∀ k < W, s.NotStale core (locOf (Y k).pa / 128)) →
        (∀ j < W, ∀ k < W, locOf (X j).pa / 128 = locOf (Y k).pa / 128 → g.wbase + j = v + k) →
        ∃ t h, exec (.cwr a) s = .next t ∧ s.OnlyGroup t gid h ∧ g.CompletedAt h s.clock ∧
          g.Plain { h with wbase := g.wbase, lost := g.lost, persists := g.persists, scmDirty := g.scmDirty } ∧
          g.SameScalars h ∧ g.SameMasks h ∧ g.SameFloat h ∧ h.wbase = v ∧
          (∀ k < W, ∀ l < 32, (h.posLane (v + k) l).toNat =
            if g.wbase ≤ v + k ∧ v + k < g.wbase + W then (g.posLane (v + k) l).toNat
            else s.seenValue core (locOf (Y k).pa + 4 * l) 4) ∧
          (∀ p, p < v ∨ v + W ≤ p → ∀ l < 32, h.posLane p l = 0) ∧
          (∀ k < W, ∀ l < 32, t.seenValue core (locOf (X k).pa + 4 * l) 4 = (g.posLane (g.wbase + k) l).toNat) ∧
          ∀ b, (∀ k < W, locOf (X k).pa / 128 ≠ b / 128) → t.seen core b = s.seen core b ∧ s.HomeKept t core b)

/-- 02 R38, R40, 05 R144: `CALL` and `CALLX` spill the `n` lowest registers of the window with the link in the last two, slide
the window, whose entering positions hold 0, and go to the target. A group whose live lanes do not all stand and execute there is
`CALL_DIVERGED`; a window past the stack is `STACK_OVERFLOW`, of which the address is the model's choice (log 59). -/
def Claim.Calls : Prop :=
  ∀ (i : Instr) (s : State) (gid : Nat) (g : Group) (n : Nat) (srcs : List Nat) (target : WordIndex) (X : Nat → Xlat),
    ((∃ a, i = .call a ∧ n = 8 * a.d.toNat ∧ srcs = [] ∧ target = targetOf g a.off) ∨
      ∃ a, i = .callx a ∧ n = 8 * a.d.toNat ∧ srcs = [a.a.toNat] ∧ target = wordMod (g.s a.a.toNat).toNat) →
    s.Acts gid g → 8 ≤ n → n ≤ s.window g → g.Free (readsS srcs ++ (List.range (n - 2)).map fun j => (.v j, allLanes)) [] →
    (g.live ≠ 0 → ¬g.Converged → exec i s = .next (s.trap gid g.endChain
      { code := 0x03, lanes := g.live &&& ~~~ g.active, s59 := g.live.toNat, s60 := g.active.toNat })) ∧
    (g.Converged → s.stackSize g < g.wbase + n + s.window g → exec i s = .next (s.trap gid g.endChain
      { code := 0x04, lanes := g.atIssue, s58 := s.spillAddr g g.wbase, s60 := g.wbase, s61 := n })) ∧
    (g.Converged → g.wbase + n + s.window g ≤ s.stackSize g → g.readsOut = false → g.pendingIn g.wbase n = false →
    s.SpillOpen gid g g.wbase n → (∀ k < n, s.QueueOpen gid (X k)) → s.SpillMapped g .write g.wbase n X →
    ∃ t h, exec i s = .next t ∧ s.OnlyGroup t gid h ∧ g.CompletedAt h s.clock ∧
      g.Kept { h with wbase := g.wbase, lost := g.lost, persists := g.persists, scmDirty := g.scmDirty } ∧
      g.SameScalars h ∧ g.SameMasks h ∧ g.SameFloat h ∧ h.chain.isOpen = false ∧
      h.wbase = g.wbase + n ∧ (∀ l < 32, h.pcOf l = target) ∧
      (∀ p, ∀ l < 32, h.posLane p l =
        if p < g.wbase ∨ g.wbase + n ≤ p ∧ p < g.wbase + s.window g then g.posLane p l else 0) ∧
      (∀ k < n, ∀ l < 32, t.seenValue (s.coreOf g) (locOf (X k).pa + 4 * l) 4 = (linkWord g n k l).toNat) ∧
      ∀ b, (∀ k < n, locOf (X k).pa / 128 ≠ b / 128) →
        t.seen (s.coreOf g) b = s.seen (s.coreOf g) b ∧ s.HomeKept t (s.coreOf g) b)

/-- 02 R39, R40: `RET` takes the slide and the return word index from the two link positions, slides the window back, fills
the positions that enter it and goes to the return word. A group whose live lanes do not all stand and execute there is
`CALL_DIVERGED`; a link that gives no slide is `STACK_OVERFLOW`, of which the record at the bottom is the model's choice (log 59). -/
def Claim.Returns : Prop :=
  ∀ (a : SArgs) (s : State) (gid : Nat) (g : Group) (n ret : Nat) (L X : Nat → Xlat),
    let core := s.coreOf g
    let good := n % 8 = 0 ∧ 8 ≤ n ∧ n ≤ s.window g ∧ n ≤ g.wbase
    s.Acts gid g → g.Free [] [] →
    (g.live ≠ 0 → ¬g.Converged → exec (.ret a) s = .next (s.trap gid g.endChain
      { code := 0x03, lanes := g.live &&& ~~~ g.active, s59 := g.live.toNat, s60 := g.active.toNat })) ∧
    (g.Converged → g.wbase < 2 → exec (.ret a) s = .next (s.trap gid g.endChain
      { code := 0x04, lanes := g.atIssue, s59 := 1, s60 := g.wbase })) ∧
    (g.Converged → 2 ≤ g.wbase → s.SpillOpen gid g (g.wbase - 2) 2 → s.SpillMapped g .read (g.wbase - 2) 2 L →
    (∀ k < 2, s.NotStale core (locOf (L k).pa / 128)) →
    (∀ l < 32, g.live.getLsbD l = true → s.seenValue core (locOf (L 0).pa + 4 * l) 4 = n ∧
      s.seenValue core (locOf (L 1).pa + 4 * l) 4 = ret) →
    (¬good → ∃ t : State, exec (.ret a) s = .next (t.trap gid g.endChain
      { code := 0x04, lanes := g.atIssue, s58 := s.spillAddr g (g.wbase - 2), s59 := 1, s60 := g.wbase, s61 := n }) ∧
      t.groups = s.groups ∧ s.BytesKept t core) ∧
    (good → g.pendingIn (g.wbase + s.window g - n) n = false → s.SpillOpen gid g (g.wbase - n) n →
    s.SpillMapped g .read (g.wbase - n) n X → (∀ k < n, s.NotStale core (locOf (X k).pa / 128)) →
    ∃ t h, exec (.ret a) s = .next t ∧ s.OnlyGroup t gid h ∧ g.CompletedAt h s.clock ∧ g.Kept { h with wbase := g.wbase } ∧
      g.SameScalars h ∧ g.SameMasks h ∧ g.SameFloat h ∧ h.chain.isOpen = false ∧
      h.wbase = g.wbase - n ∧ (∀ l < 32, h.pcOf l = wordMod ret) ∧
      (∀ p, p < g.wbase - n ∨ g.wbase ≤ p → ∀ l < 32, h.posLane p l =
        if p < g.wbase + s.window g - n then g.posLane p l else 0) ∧
      (∀ k < n, ∀ l < 32, (h.posLane (g.wbase - n + k) l).toNat = s.seenValue core (locOf (X k).pa + 4 * l) 4) ∧
      ∀ b, t.seen core b = s.seen core b ∧ s.HomeKept t core b))

/-- 05 R145, 07 R232, R233: `EXIT` ends the lanes that execute, and the lanes at the issue address that do not advance; when its last lane
ends, the group ends, and its barriers count it no more: a phase that waited for it alone changes. -/
def Claim.Exits : Prop :=
  ∀ (a : SArgs) (s : State) (gid : Nat) (g : Group), s.Acts gid g →
    (g.live &&& ~~~ g.active ≠ 0 →
      ∃ h, exec (.exit a) s = .next { s with groups := aset s.groups gid h } ∧ g.CompletedAt h s.clock ∧
        g.Kept { h with live := g.live, parks := g.parks } ∧ h.live = g.live &&& ~~~ g.active ∧ h.parks = g.parks ∧
        g.SameVectors h ∧ g.SameScalars h ∧ g.SameMasks h ∧ g.SameFloat h ∧ h.chain.isOpen = false ∧
        ∀ l < 32, h.pcOf l =
          if g.atIssue.getLsbD l = true ∧ g.em.getLsbD l = false then wordMod (g.issue + 1) else g.pcOf l) ∧
    (g.live &&& ~~~ g.active = 0 → s.futuresOut gid = false → s.owed gid = none →
      (∀ p ∈ g.pend, ∃ id, p.by_ = .log id) →
      ∃ t h, exec (.exit a) s = .next t ∧ aget t.groups gid = some h ∧ h.live = 0 ∧ g.SameScalars h ∧ g.SameVectors h ∧
        t = { s with groups := aset s.groups gid h, teams := t.teams, gangs := t.gangs } ∧ s.BarriersWithout t g.team)

/-- 05 R146, R147: `PARK` on a word reads it once in each executing lane; a lane whose condition holds goes on, and the others
park at the word. `PARK` on a handle advances when no lane executes, when the handle has no context, or when the operation is complete, of
which it acquires the effects or delivers the failure; while it is not complete it parks the executing lanes. -/
def Claim.Parks : Prop :=
  (∀ (a : SArgs) (s : State) (gid : Nat) (g : Group) (X : Nat → Xlat), s.Acts gid g →
    a.imm.toNat % 4 < 2 →
    g.Free (readsIn [.v a.a.toNat, .v (a.a.toNat + 1), .v a.d.toNat] g.active) [] →
    (∀ l < 32, g.active.getLsbD l = true →
      let va := (g.v64 a.a.toNat l).toNat % 2 ^ 57
      va % 4 = 0 ∧ s.logsPage gid [va] = false ∧ s.Hit (s.coreOf g) (s.ctxOf g) g.supervisor .read va (X l) ∧
        s.Sound (s.coreOf g) (X l) 4 false) →
    let met := fun l => decide (s.seenValue (s.coreOf g) (locOf (X l).pa) 4 = (g.v a.d.toNat l).toNat) == (a.imm.toNat % 4 == 1)
    ∃ t h, exec (.park a) s = .next t ∧ s.OnlyGroup t gid h ∧ g.CompletedAt h s.clock ∧ g.Kept { h with parks := g.parks } ∧
      g.SameVectors h ∧ g.SameScalars h ∧ g.SameMasks h ∧ g.SameFloat h ∧ h.chain.isOpen = false ∧
      (∀ l < 32, h.pcOf l = if g.atIssue.getLsbD l = true ∧ (g.active.getLsbD l = false ∨ met l) then wordMod (g.issue + 1)
        else g.pcOf l) ∧
      h.parks = g.parks ++ ((lanesOf g.active).filter fun l => !met l).map (fun l =>
        { lane := l, pc := g.issue
          on := .word ((g.v64 a.a.toNat l).toNat % 2 ^ 57) (a.imm.toNat % 4 == 1) (g.v a.d.toNat l)
          acquire := a.imm.getLsbD 6, scope := parkScope a.imm, svc := g.svc.toNat % 4, since := s.clock }) ∧
      ∀ b, t.seen (s.coreOf g) b = s.seen (s.coreOf g) b ∧ s.HomeKept t (s.coreOf g) b) ∧
  (∀ (a : SArgs) (s : State) (gid : Nat) (g : Group), s.Acts gid g → a.imm.toNat % 4 = 2 → g.Free [] [] →
    let x := g.h a.a.toNat
    let n := handleSeq x
    (g.active = 0 ∨ s.codeKey gid g (handleCode x) = none →
      ∃ h, exec (.park a) s = .next { s with groups := aset s.groups gid h } ∧ g.CompletedAt h s.clock ∧ g.Passed h) ∧
    ∀ k, g.active ≠ 0 → s.codeKey gid g (handleCode x) = some k →
      let e := s.engine k
      let mine := fun (f : Failure) => f.seqNo = n ∧ f.delivered = false ∧ f.trap.isSome = true
      (e.complete n = false →
        ∃ h, exec (.park a) s = .next { s with groups := aset s.groups gid h } ∧ g.CompletedAt h s.clock ∧
          g.Kept { h with parks := g.parks } ∧ g.SameVectors h ∧ g.SameScalars h ∧ g.SameMasks h ∧ g.SameFloat h ∧
          (∀ l < 32, h.pcOf l = if g.atIssue.getLsbD l = true ∧ g.active.getLsbD l = false then wordMod (g.issue + 1)
            else g.pcOf l) ∧
          h.parks = g.parks ++ (lanesOf g.active).map fun l => { lane := l, pc := g.issue, on := .future x, since := s.clock }) ∧
      (e.complete n = true → s.CacheSound (s.coreOf g) →
        ((∀ f ∈ e.fails, ¬mine f) →
          ∃ t h, exec (.park a) s = .next t ∧ s.OnlyGroup t gid h ∧ g.CompletedAt h s.clock ∧ g.Passed h ∧
            s.BytesKept t (s.coreOf g)) ∧
        ∀ f ∈ e.fails, mine f → (∀ f' ∈ e.fails, mine f' → f' = f) →
          ∃ (t : State) (i : TrapInfo), f.trap = some i ∧ exec (.park a) s = .next (t.trap gid g.endChain i) ∧
            aget t.groups gid = some g ∧
            (t.engine k).fails = e.fails.map fun y => if y.seqNo = n then { y with delivered := true } else y))

/-! ### Memory words -/

/-- 06 R160, R161, 12 R310: one executing lane of `LD` reads the bytes that its core's L1 serves, or else its own dirty bytes
over the home's, into whole registers. Nothing that the core finds in memory changes, unless `.lu` gives the line up. -/
def Claim.Loads : Prop :=
  ∀ (a : MArgs) (s : State) (gid : Nat) (g : Group) (l : Nat) (x : Xlat),
    let core := s.coreOf g
    let w := Width.bytes a.width
    let at_ := locOf x.pa
    s.Acts gid g → g.Only l →
    s.MayAccess gid g (readsIn (addrRegs a) g.active) (vrange a.d.toNat (dataRegs a.width)) false false →
    (a.order = .sc → s.logs gid = false ∧ s.writesOut gid = false) →
    g.addrOf a l % w = 0 → s.logsPage gid [g.addrOf a l] = false →
    s.Hit core (s.ctxOf g) g.supervisor .read (g.addrOf a l) x → s.Sound core x w false →
    ∃ t h, exec (.ld a) s = .next t ∧ s.OnlyGroup t gid h ∧ g.CompletedAt h s.clock ∧
      g.Loaded h a.d.toNat (dataRegs a.width) (fun _ =>
        if s.l1Serves core x w a.scope then
          leValue ((List.range w).map fun k => ((aget s.l1 (core, at_ / 128)).elim [] L1Line.data).getD (at_ % 128 + k) 0)
        else s.seenValue core at_ w) ∧
      g.SameFloat h ∧
      ∀ b, (a.hint.getLsbD 1 = false ∨ b / 128 ≠ at_ / 128) → t.seen core b = s.seen core b ∧ s.HomeKept t core b

/-- 06 R157, R160, R169: every executing lane of `LD` reads its datum. No line that its core's L1 holds clean differs from the home's. -/
def Claim.LaneLoads : Prop :=
  ∀ (a : MArgs) (s : State) (gid : Nat) (g : Group) (X : Nat → Xlat),
    let core := s.coreOf g
    let w := Width.bytes a.width
    s.Acts gid g →
    s.MayAccess gid g (readsIn (addrRegs a) g.active) (vrange a.d.toNat (dataRegs a.width)) false false →
    (a.order = .sc → s.logs gid = false ∧ s.writesOut gid = false) →
    s.logsPage gid ((lanesOf g.active).map (g.addrOf a)) = false →
    (∀ l < 32, g.active.getLsbD l = true → g.addrOf a l % w = 0 ∧
      s.Hit core (s.ctxOf g) g.supervisor .read (g.addrOf a l) (X l) ∧ s.Sound core (X l) w false ∧
      s.NotStale core (locOf (X l).pa / 128)) →
    ∃ t h, exec (.ld a) s = .next t ∧ s.OnlyGroup t gid h ∧ g.CompletedAt h s.clock ∧
      g.Loaded h a.d.toNat (dataRegs a.width) (fun l => s.seenValue core (locOf (X l).pa) w) ∧ g.SameFloat h ∧
      ∀ b, (a.hint.getLsbD 1 = false ∨ ∀ l < 32, g.active.getLsbD l = true → b / 128 ≠ locOf (X l).pa / 128) →
        t.seen core b = s.seen core b ∧ s.HomeKept t core b

/-- 06 R160, R161, 13 Table 13.3: one executing lane of `ST` stores its datum where its core's accesses find it, and nowhere
else; an ordered store, and one to a page that does not cache, is performed at the home. -/
def Claim.Stores : Prop :=
  ∀ (a : MArgs) (s : State) (gid : Nat) (g : Group) (l : Nat) (x : Xlat),
    let core := s.coreOf g
    let w := Width.bytes a.width
    let at_ := locOf x.pa
    s.Acts gid g → g.Only l →
    s.MayAccess gid g (readsIn (vrange a.d.toNat (dataRegs a.width) ++ addrRegs a) g.active) [] (Order.isRel a.order) true →
    g.addrOf a l % w = 0 → s.logsPage gid [g.addrOf a l] = false → s.QueueOpen gid x →
    s.Hit core (s.ctxOf g) g.supervisor .write (g.addrOf a l) x → s.Sound core x w true →
    ∃ t h, exec (.st a) s = .next t ∧ s.OnlyGroup t gid h ∧ g.CompletedAt h s.clock ∧
      g.Plain { h with scmDirty := g.scmDirty, persists := g.persists, lost := g.lost } ∧
      g.SameVectors h ∧ g.SameScalars h ∧ g.SameMasks h ∧ g.SameFloat h ∧
      (∀ k < w, t.seen core (at_ + k) = (g.dataBytes a.d.toNat w l).getD k 0) ∧
      (a.order ≠ .rlx ∨ x.attr ≠ 0 ∨ x.pt = true → ∀ k < w, readByte t.mem (at_ + k) = (g.dataBytes a.d.toNat w l).getD k 0) ∧
      ∀ b, b < at_ ∨ at_ + w ≤ b → t.seen core b = s.seen core b ∧ s.HomeKept t core b

/-- 06 R157, R160: every executing lane of `ST` stores its datum; of lanes that store to one location the highest decides. -/
def Claim.LaneStores : Prop :=
  ∀ (a : MArgs) (s : State) (gid : Nat) (g : Group) (X : Nat → Xlat),
    let core := s.coreOf g
    let w := Width.bytes a.width
    let stored := fun (b : Nat) (old : Byte) =>
      storedByte g.active (fun l => locOf (X l).pa) (g.dataBytes a.d.toNat w) b old
    s.Acts gid g →
    s.MayAccess gid g (readsIn (vrange a.d.toNat (dataRegs a.width) ++ addrRegs a) g.active) [] (Order.isRel a.order) true →
    s.logsPage gid ((lanesOf g.active).map (g.addrOf a)) = false →
    (∀ l < 32, g.active.getLsbD l = true → g.addrOf a l % w = 0 ∧ s.QueueOpen gid (X l) ∧
      s.Hit core (s.ctxOf g) g.supervisor .write (g.addrOf a l) (X l) ∧ s.Sound core (X l) w true) →
    ∃ t h, exec (.st a) s = .next t ∧ s.OnlyGroup t gid h ∧ g.CompletedAt h s.clock ∧
      g.Plain { h with scmDirty := g.scmDirty, persists := g.persists, lost := g.lost } ∧
      g.SameVectors h ∧ g.SameScalars h ∧ g.SameMasks h ∧ g.SameFloat h ∧
      (∀ b, t.seen core b = stored b (s.seen core b)) ∧
      (a.order ≠ .rlx → ∀ l < 32, g.active.getLsbD l = true → ∀ k < w,
        readByte t.mem (locOf (X l).pa + k) = t.seen core (locOf (X l).pa + k)) ∧
      ∀ b, (∀ l < 32, g.active.getLsbD l = true → b < locOf (X l).pa ∨ locOf (X l).pa + w ≤ b) → s.HomeKept t core b

/-- 06 R171 to R173: one executing lane of `ATOM` or `CAS` returns the old value and performs the new one at the home in one
step; a failed `CAS` stores nothing. -/
def Claim.Atomics : Prop :=
  ∀ (a : MArgs) (s : State) (gid : Nat) (g : Group) (l : Nat) (x : Xlat),
    let core := s.coreOf g
    let w := Width.bytes a.width
    let k := dataRegs a.width
    let at_ := locOf x.pa
    let old := s.seenValue core at_ w
    s.Acts gid g → g.Only l → g.addrOf a l % w = 0 → s.logsPage gid [g.addrOf a l] = false → s.QueueOpen gid x →
    s.Hit core (s.ctxOf g) g.supervisor .write (g.addrOf a l) x → s.Sound core x w true →
    (s.MayAccess gid g (readsIn (vrange a.d.toNat k ++ addrRegs a) g.active) (vrange a.d.toNat k) (Order.isRel a.order) true →
      let new := atomNew a.hint.toNat (8 * w) g.payload old (leValue (g.dataBytes a.d.toNat w l))
      ∃ t h, exec (.atom a) s = .next t ∧ s.OnlyGroup t gid h ∧ g.CompletedAt h s.clock ∧
        g.Loaded h a.d.toNat k (fun _ => old) ∧ h.rng = g.rng ∧ h.lastnan = g.lastnan ∧
        h.fpflags = g.fpflags ||| new.2.zeroExtend 64 ∧
        (∀ j < w, t.seen core (at_ + j) = (leBytes w new.1).getD j 0 ∧
          readByte t.mem (at_ + j) = (leBytes w new.1).getD j 0) ∧
        ∀ b, b < at_ ∨ at_ + w ≤ b → t.seen core b = s.seen core b ∧ s.HomeKept t core b) ∧
    (s.MayAccess gid g (readsIn (vrange a.d.toNat (2 * k) ++ addrRegs a) g.active) (vrange a.d.toNat k) (Order.isRel a.order)
        true →
      let hit := old = leValue (g.dataBytes a.d.toNat w l)
      ∃ t h, exec (.cas a) s = .next t ∧ s.OnlyGroup t gid h ∧ g.CompletedAt h s.clock ∧
        g.Loaded h a.d.toNat k (fun _ => old) ∧ g.SameFloat h ∧
        (∀ j < w, t.seen core (at_ + j) =
          if hit then (g.dataBytes (a.d.toNat + k) w l).getD j 0 else s.seen core (at_ + j)) ∧
        ∀ b, b < at_ ∨ at_ + w ≤ b → t.seen core b = s.seen core b ∧ s.HomeKept t core b)

/-- 06 R157, R171 to R173: the executing lanes of `ATOM` or `CAS` perform in ascending order, each on what the lower ones left. -/
def Claim.LaneAtomics : Prop :=
  ∀ (a : MArgs) (s : State) (gid : Nat) (g : Group) (X : Nat → Xlat),
    let core := s.coreOf g
    let w := Width.bytes a.width
    let k := dataRegs a.width
    let at_ := fun (l : Nat) => locOf (X l).pa
    let val := fun (p : Nat) => s.seenValue core p w
    let operand := fun (n l : Nat) => leValue (g.dataBytes n w l)
    let op := fun (l old : Nat) => atomNew a.hint.toNat (8 * w) g.payload old (operand a.d.toNat l)
    let swap := fun (l old : Nat) => if old = operand a.d.toNat l then operand (a.d.toNat + k) l else old
    let performed := fun (t : State) (new : Nat → Nat → Nat) =>
      (∀ l < 32, g.active.getLsbD l = true → ∀ j < w,
        t.seen core (at_ l + j) = (leBytes w (afterLanes at_ new (lanesOf g.active) val (at_ l))).getD j 0) ∧
      ∀ b, (∀ l < 32, g.active.getLsbD l = true → b < at_ l ∨ at_ l + w ≤ b) →
        t.seen core b = s.seen core b ∧ s.HomeKept t core b
    s.Acts gid g → s.logsPage gid ((lanesOf g.active).map (g.addrOf a)) = false →
    (∀ l < 32, g.active.getLsbD l = true → g.addrOf a l % w = 0 ∧ s.QueueOpen gid (X l) ∧
      s.Hit core (s.ctxOf g) g.supervisor .write (g.addrOf a l) (X l) ∧ s.Sound core (X l) w true ∧ at_ l % w = 0) →
    (s.MayAccess gid g (readsIn (vrange a.d.toNat k ++ addrRegs a) g.active) (vrange a.d.toNat k) (Order.isRel a.order) true →
      let new := fun (l old : Nat) => (op l old).1 % 2 ^ (8 * w)
      let found := foundByLane g.active at_ new val
      ∃ t h, exec (.atom a) s = .next t ∧ s.OnlyGroup t gid h ∧ g.CompletedAt h s.clock ∧
        g.Loaded h a.d.toNat k found ∧ h.rng = g.rng ∧ h.lastnan = g.lastnan ∧
        h.fpflags = (lanesOf g.active).foldl (fun f l => f ||| (op l (found l)).2.zeroExtend 64) g.fpflags ∧
        performed t new) ∧
    (s.MayAccess gid g (readsIn (vrange a.d.toNat (2 * k) ++ addrRegs a) g.active) (vrange a.d.toNat k) (Order.isRel a.order)
        true →
      ∃ t h, exec (.cas a) s = .next t ∧ s.OnlyGroup t gid h ∧ g.CompletedAt h s.clock ∧
        g.Loaded h a.d.toNat k (foundByLane g.active at_ swap val) ∧ g.SameFloat h ∧ performed t swap)

/-- 06 R200: `SIGADD` and `SIGDEC` add to or subtract from a signal once per issue and return its new value. -/
def Claim.Signals : Prop :=
  ∀ (a : MArgs) (s : State) (gid : Nat) (g : Group) (x : Xlat) (dec : Bool),
    let core := s.coreOf g
    let w := Width.bytes a.width
    let at_ := locOf x.pa
    let amount := (g.s (a.a.toNat + 1)).toNat
    let old := s.seenValue core at_ w
    let new := ((if dec then (old : Int) - amount else (old : Int) + amount) % 2 ^ (8 * w)).toNat
    s.Acts gid g → a.width = .w32 ∨ a.width = .w64 → g.signalAddr a % w = 0 → s.logsPage gid [g.signalAddr a] = false →
    s.QueueOpen gid x → s.Hit core (s.ctxOf g) g.supervisor .write (g.signalAddr a) x → s.Sound core x w true →
    s.MayAccess gid g (readsS [a.a.toNat, a.a.toNat + 1]) [.s a.d.toNat] (Order.isRel a.order) true →
    ∃ t h, exec (if dec then .sigdec a else .sigadd a) s = .next t ∧ s.OnlyGroup t gid h ∧ g.CompletedAt h s.clock ∧
      g.Plain { h with scmDirty := g.scmDirty, persists := g.persists, lost := g.lost } ∧
      g.SameVectors h ∧ g.SameMasks h ∧ g.SameFloat h ∧
      (∀ n, h.s n = if n = a.d.toNat then (if a.width = .w64 then BitVec.ofNat 64 new
        else (BitVec.ofNat 32 new).signExtend 64) else g.s n) ∧
      (∀ j < w, readByte t.mem (at_ + j) = (leBytes w new).getD j 0 ∧ t.seen core (at_ + j) = (leBytes w new).getD j 0) ∧
      ∀ b, b < at_ ∨ at_ + w ≤ b → t.seen core b = s.seen core b ∧ s.HomeKept t core b

/-- 06 R201: `SIGWAIT` reads the signal once; if its condition holds the value enters D and the lanes advance, and otherwise
the executing lanes park at the word. -/
def Claim.SignalWaits : Prop :=
  ∀ (a : MArgs) (s : State) (gid : Nat) (g : Group) (x : Xlat),
    let core := s.coreOf g
    let w := Width.bytes a.width
    let v : Word64 := if a.width = .w64 then BitVec.ofNat 64 (s.seenValue core (locOf x.pa) w)
      else (BitVec.ofNat 32 (s.seenValue core (locOf x.pa) w)).signExtend 64
    let met := holds true (a.hint.toNat / 2) v (g.s (a.a.toNat + 1))
    s.Acts gid g → a.width = .w32 ∨ a.width = .w64 → a.hint.toNat / 2 < 6 → g.active ≠ 0 → g.signalAddr a % w = 0 →
    s.logsPage gid [g.signalAddr a] = false →
    s.Hit core (s.ctxOf g) g.supervisor .read (g.signalAddr a) x → s.Sound core x w false →
    s.MayAccess gid g (readsS [a.a.toNat, a.a.toNat + 1]) [.s a.d.toNat] false false →
    ∃ t h, exec (.sigwait a) s = .next t ∧ s.OnlyGroup t gid h ∧ g.CompletedAt h s.clock ∧
      g.Kept { h with parks := g.parks } ∧ g.SameVectors h ∧ g.SameMasks h ∧ g.SameFloat h ∧ h.chain.isOpen = false ∧
      (∀ n, h.s n = if met = true ∧ n = a.d.toNat then v else g.s n) ∧
      (∀ l < 32, h.pcOf l = if g.atIssue.getLsbD l = true ∧ (met = true ∨ g.active.getLsbD l = false) then
        wordMod (g.issue + 1) else g.pcOf l) ∧
      h.parks = g.parks ++ (if met then [] else (lanesOf g.active).map fun l =>
        { lane := l, pc := g.issue, acquire := Order.isAcq a.order, scope := a.scope
          on := .signal (g.signalAddr a) (w == 8) (a.hint.toNat / 2) (g.s (a.a.toNat + 1)) a.d.toNat
          svc := s.classOf gid a.svc.toNat, since := s.clock }) ∧
      ∀ b, t.seen core b = s.seen core b ∧ s.HomeKept t core b

/-- 06 R162, R163, 08 R264: `LDS` reads and `STS` writes the team's scratch in the executing lanes, in the order of the lanes,
and nothing else. -/
def Claim.ScratchAccess : Prop :=
  ∀ (a : MArgs) (s : State) (gid : Nat) (g : Group) (t : Team),
    let w := Width.bytes a.width
    s.Acts gid g → aget s.teams g.team = some t → t.scratch.wf = true → s.ScratchOk g w (g.scratchOff a) →
    (s.MayAccess gid g (readsIn (scratchRegs a) g.active) (vrange a.d.toNat (dataRegs a.width)) false false →
      (∀ l < 32, g.active.getLsbD l = true → t.isBad (g.scratchOff a l) w = false) →
      ∃ h, exec (.lds a) s = .next { s with groups := aset s.groups gid h } ∧ g.CompletedAt h s.clock ∧ g.SameFloat h ∧
        g.Loaded h a.d.toNat (dataRegs a.width) fun l => readLE t.scratch (g.scratchOff a l) w) ∧
    (s.MayAccess gid g (readsIn (vrange a.d.toNat (dataRegs a.width) ++ scratchRegs a) g.active) [] (Order.isRel a.order) true →
      ∃ h t', exec (.sts a) s = .next { s with groups := aset s.groups gid h, teams := aset s.teams g.team t' } ∧
        g.CompletedAt h s.clock ∧ g.Plain h ∧ g.SameVectors h ∧ g.SameScalars h ∧ g.SameMasks h ∧ g.SameFloat h ∧
        { t' with scratch := t.scratch, spoiled := t.spoiled } = t ∧ t'.scratch.wf = true ∧
        ∀ b, readByte t'.scratch b =
          storedByte g.active (g.scratchOff a) (g.dataBytes a.d.toNat w) b (readByte t.scratch b))

/-- 06 R164, R165: an executing lane of `LDF` reads when its granule is full, empties it under `.clr`, and parks when it is
empty; `STF` writes and fills, and the lanes that wait on a full granule run again. -/
def Claim.FullEmpty : Prop :=
  ∀ (a : MArgs) (s : State) (gid : Nat) (g : Group) (t : Team) (l : Nat),
    let w := Width.bytes a.width
    let off := g.scratchOff a l
    s.Acts gid g → aget s.teams g.team = some t → t.scratch.wf = true → g.Only l → s.ScratchOk g w (g.scratchOff a) →
    (s.MayAccess gid g (readsIn (scratchRegs a) g.active) (vrange a.d.toNat (dataRegs a.width)) false false →
      (off / 16 ∈ t.full → t.isBad off w = false →
        ∃ h t', exec (.ldf a) s = .next { s with groups := aset s.groups gid h, teams := aset s.teams g.team t' } ∧
          g.CompletedAt h s.clock ∧ g.SameFloat h ∧
          g.Loaded h a.d.toNat (dataRegs a.width) (fun _ => readLE t.scratch off w) ∧
          { t' with full := t.full } = t ∧
          ∀ k, k ∈ t'.full ↔ k ∈ t.full ∧ ¬(a.hint.getLsbD 1 = true ∧ k = off / 16)) ∧
      (off / 16 ∉ t.full →
        ∃ h, exec (.ldf a) s = .next { s with groups := aset s.groups gid h } ∧ g.CompletedAt h s.clock ∧
          g.Kept { h with parks := g.parks } ∧ g.SameVectors h ∧ g.SameScalars h ∧ g.SameMasks h ∧ g.SameFloat h ∧
          h.parks = g.parks ++ [{ lane := l, pc := g.issue, on := .granule (off / 16) }] ∧
          ∀ k < 32, h.pcOf k = if g.atIssue.getLsbD k = true ∧ k ≠ l then wordMod (g.issue + 1) else g.pcOf k)) ∧
    (s.MayAccess gid g (readsIn (vrange a.d.toNat (dataRegs a.width) ++ scratchRegs a) g.active) [] true true →
      ∃ n h t', exec (.stf a) s = .next n ∧ n = { s with groups := n.groups, teams := aset s.teams g.team t' } ∧
        aget n.groups gid = some h ∧ g.CompletedAt h s.clock ∧ g.Plain { h with parks := g.parks, save := g.save } ∧
        g.SameVectors h ∧ g.SameScalars h ∧ g.SameMasks h ∧ g.SameFloat h ∧
        { t' with scratch := t.scratch, spoiled := t.spoiled, full := t.full } = t ∧ off / 16 ∈ t'.full ∧
        (∀ b, readByte t'.scratch b =
          if off ≤ b ∧ b < off + w then (g.dataBytes a.d.toNat w l).getD (b - off) 0 else readByte t.scratch b) ∧
        ∀ k x, k ≠ gid → aget s.groups k = some x → ∃ y, aget n.groups k = some y ∧
          { y with parks := x.parks, save := x.save, begun := x.begun } = x ∧ (x.team ≠ g.team → y = x) ∧
          (x.team = g.team → (∀ p, p ∈ y.parks ↔ p ∈ x.parks ∧ ∀ q, p.on = .granule q → q ∉ t'.full) ∧
            ∀ v, x.save = some v → ∃ v', y.save = some v' ∧ { v' with parks := v.parks } = v ∧
              ∀ p, p ∈ v'.parks ↔ p ∈ v.parks ∧ ∀ q, p.on = .granule q → q ∉ t'.full))

/-- 06 R157, R164, R165, R167: the executing lanes of `LDF`, `STF` and `TINS` go in ascending order. A lane of `LDF` reads when its granule
is full and no lower lane has emptied it under `.clr`, and parks otherwise; of `STF` the highest lane decides a byte, and every granule
stored to is full; each tag that `TINS` puts leaves the slots that held it. -/
def Claim.LaneScratch : Prop :=
  ∀ (s : State) (gid : Nat) (g : Group) (t : Team), s.Acts gid g → aget s.teams g.team = some t → t.scratch.wf = true →
    (∀ a : MArgs,
      let w := Width.bytes a.width
      let off := g.scratchOff a
      let clr := a.hint.getLsbD 1
      let reads := fun (l : Nat) => off l / 16 ∈ t.full ∧
        ¬(clr = true ∧ ∃ j < l, g.active.getLsbD j = true ∧ off j / 16 = off l / 16)
      s.ScratchOk g w off →
      (s.MayAccess gid g (readsIn (scratchRegs a) g.active) (vrange a.d.toNat (dataRegs a.width)) false false →
        (∀ l < 32, g.active.getLsbD l = true → off l / 16 ∈ t.full → t.isBad (off l) w = false) →
        ∃ h t', exec (.ldf a) s = .next { s with groups := aset s.groups gid h, teams := aset s.teams g.team t' } ∧
          g.CompletedAt h s.clock ∧ g.Kept { h with parks := g.parks } ∧ g.SameScalars h ∧ g.SameMasks h ∧ g.SameFloat h ∧
          (∀ p, ∀ l < 32, (g.active.getLsbD l = true ∧ reads l ∧ g.wbase + a.d.toNat ≤ p ∧ p < g.wbase + a.d.toNat + dataRegs a.width →
              h.posLane p l = BitVec.ofNat 32 (readLE t.scratch (off l) w / 2 ^ (32 * (p - (g.wbase + a.d.toNat))))) ∧
            (¬(g.active.getLsbD l = true ∧ reads l ∧ g.wbase + a.d.toNat ≤ p ∧ p < g.wbase + a.d.toNat + dataRegs a.width) →
              h.posLane p l = g.posLane p l)) ∧
          (∀ l < 32, g.atIssue.getLsbD l = true → (g.active.getLsbD l = false ∨ reads l) → h.pcOf l = wordMod (g.issue + 1)) ∧
          (∀ l < 32, g.atIssue.getLsbD l = false ∨ g.active.getLsbD l = true ∧ ¬reads l → h.pcOf l = g.pcOf l) ∧
          (∃ ps, h.parks = g.parks ++ ps ∧ ∀ p, p ∈ ps ↔ ∃ l < 32, g.active.getLsbD l = true ∧ ¬reads l ∧
            p = { lane := l, pc := g.issue, on := .granule (off l / 16) }) ∧
          { t' with full := t.full } = t ∧
          ∀ k, k ∈ t'.full ↔ k ∈ t.full ∧ ¬(clr = true ∧ ∃ l < 32, g.active.getLsbD l = true ∧ off l / 16 = k)) ∧
      (s.MayAccess gid g (readsIn (vrange a.d.toNat (dataRegs a.width) ++ scratchRegs a) g.active) [] true true →
        ∃ n h t', exec (.stf a) s = .next n ∧ n = { s with groups := n.groups, teams := aset s.teams g.team t' } ∧
          aget n.groups gid = some h ∧ g.CompletedAt h s.clock ∧ g.Plain { h with parks := g.parks, save := g.save } ∧
          g.SameVectors h ∧ g.SameScalars h ∧ g.SameMasks h ∧ g.SameFloat h ∧
          { t' with scratch := t.scratch, spoiled := t.spoiled, full := t.full } = t ∧
          (∀ b, readByte t'.scratch b = storedByte g.active off (g.dataBytes a.d.toNat w) b (readByte t.scratch b)) ∧
          (∀ k, k ∈ t'.full ↔ k ∈ t.full ∨ ∃ l < 32, g.active.getLsbD l = true ∧ off l / 16 = k) ∧
          ∀ k x, k ≠ gid → aget s.groups k = some x → ∃ y, aget n.groups k = some y ∧ (x.team ≠ g.team → y = x) ∧
            (x.team = g.team → { y with parks := x.parks, save := x.save, begun := x.begun } = x ∧
              ∀ p, p ∈ y.parks ↔ p ∈ x.parks ∧ ∀ q, p.on = .granule q → q ∉ t'.full))) ∧
    ∀ a : VArgs, g.Free (readsIn (vrange a.a.toNat 2 ++ [.v a.b.toNat]) g.active) [] →
      s.ScratchOk g 256 (fun l => (g.v a.b.toNat l).toNat) → (t.tags.map Prod.fst).Nodup →
      ∃ h t', exec (.tins a) s = .next { s with groups := aset s.groups gid h, teams := aset s.teams g.team t' } ∧
        g.CompletedAt h s.clock ∧ g.Plain h ∧ g.SameVectors h ∧ g.SameScalars h ∧ g.SameMasks h ∧ g.SameFloat h ∧
        { t' with tags := t.tags } = t ∧
        ∀ k, aget t'.tags k = (lanesOf g.active).foldl (fun v l =>
          if k = (g.v a.b.toNat l).toNat / 256 then some (g.v64 a.a.toNat l)
          else if v = some (g.v64 a.a.toNat l) then none else v) (aget t.tags k)

/-- 06 R166: `FESET` and `FECLR` set and clear the full bits of the granules of a range, which lies in the allocation. -/
def Claim.GranuleRanges : Prop :=
  ∀ (a : SArgs) (s : State) (gid : Nat) (g : Group) (t : Team),
    let base := (g.s a.a.toNat).toNat
    let len := (g.s a.b.toNat).toNat
    s.Acts gid g → aget s.teams g.team = some t → base % 16 = 0 → len % 16 = 0 → base + len ≤ s.scratchSize g →
    (s.MayAccess gid g (readsS [a.a.toNat, a.b.toNat]) [] true true →
      ∃ n h t', exec (.feset a) s = .next n ∧ n = { s with groups := n.groups, teams := aset s.teams g.team t' } ∧
        aget n.groups gid = some h ∧ g.CompletedAt h s.clock ∧ g.Plain { h with parks := g.parks, save := g.save } ∧
        g.SameVectors h ∧ g.SameScalars h ∧ g.SameMasks h ∧ g.SameFloat h ∧
        { t' with full := t.full } = t ∧
        ∀ k, k ∈ t'.full ↔ k ∈ t.full ∨ (base / 16 ≤ k ∧ k < (base + len) / 16)) ∧
    (s.MayAccess gid g (readsS [a.a.toNat, a.b.toNat]) [] false false →
      ∃ n h t', exec (.feclr a) s = .next n ∧ n = { s with groups := n.groups, teams := aset s.teams g.team t' } ∧
        aget n.groups gid = some h ∧ g.CompletedAt h s.clock ∧ g.Plain { h with parks := g.parks, save := g.save } ∧
        g.SameVectors h ∧ g.SameScalars h ∧ g.SameMasks h ∧ g.SameFloat h ∧
        { t' with full := t.full } = t ∧
        ∀ k, k ∈ t'.full ↔ k ∈ t.full ∧ ¬(base / 16 ≤ k ∧ k < (base + len) / 16))

/-- 06 R167: `TLOOK` finds a slot of the tag table by its tag, `TINS` puts a tag into one slot alone, and `TDROP` removes
it. -/
def Claim.TagTable : Prop :=
  ∀ (a : VArgs) (s : State) (gid : Nat) (g : Group) (t : Team), s.Acts gid g → aget s.teams g.team = some t →
    (g.Free (readsIn (vrange a.a.toNat 2) g.active) [.v a.d.toNat] →
      ∃ h, exec (.tlook a) s = .next { s with groups := aset s.groups gid h } ∧ g.CompletedAt h s.clock ∧ g.Plain h ∧
        g.SameScalars h ∧ g.SameMasks h ∧ g.SameFloat h ∧
        ∀ p, ∀ l < 32, h.posLane p l = if p = g.wbase + a.d.toNat ∧ g.active.getLsbD l = true then
          ((t.tags.find? fun e => e.2 == g.v64 a.a.toNat l).elim 0xFFFFFFFF fun e => BitVec.ofNat 32 (256 * e.1))
          else g.posLane p l) ∧
    (∀ l, g.Only l → g.Free (readsIn (vrange a.a.toNat 2 ++ [.v a.b.toNat]) g.active) [] →
      s.ScratchOk g 256 (fun l => (g.v a.b.toNat l).toNat) →
      ∃ h t', exec (.tins a) s = .next { s with groups := aset s.groups gid h, teams := aset s.teams g.team t' } ∧
        g.CompletedAt h s.clock ∧ g.Plain h ∧ g.SameVectors h ∧ g.SameScalars h ∧ g.SameMasks h ∧ g.SameFloat h ∧
        { t' with tags := t.tags } = t ∧
        ∀ k, aget t'.tags k = if k = (g.v a.b.toNat l).toNat / 256 then some (g.v64 a.a.toNat l)
          else aget (t.tags.filter fun e => e.2 ≠ g.v64 a.a.toNat l) k) ∧
    (g.Free (readsIn (vrange a.a.toNat 2) g.active) [] →
      ∃ h t', exec (.tdrop a) s = .next { s with groups := aset s.groups gid h, teams := aset s.teams g.team t' } ∧
        g.CompletedAt h s.clock ∧ g.Plain h ∧ g.SameVectors h ∧ g.SameScalars h ∧ g.SameMasks h ∧ g.SameFloat h ∧
        { t' with tags := t.tags } = t ∧
        t'.tags = t.tags.filter fun e => (lanesOf g.active).all fun l => decide (e.2 ≠ g.v64 a.a.toNat l))

/-- 06 R169, R170: `PREF` changes no byte that the core finds. `DROP` removes the lines from the core's L1, after a write-back
unless `.lu` gives their dirty bytes up. -/
def Claim.Hints : Prop :=
  ∀ (a : MArgs) (s : State) (gid : Nat) (g : Group) (X : Nat → Xlat),
    let core := s.coreOf g
    s.Acts gid g → s.MayAccess gid g (readsIn (addrRegs a) g.active) [] false false → s.CacheSound core →
    (∀ l < 32, g.active.getLsbD l = true → s.Hit core (s.ctxOf g) g.supervisor .read (g.addrOf a l) (X l) ∧
      s.Sound core (X l) 1 false) →
    (∃ t h, exec (.pref a) s = .next t ∧ s.OnlyGroup t gid h ∧ g.CompletedAt h s.clock ∧ g.Plain h ∧ g.SameVectors h ∧
      g.SameScalars h ∧ g.SameMasks h ∧ g.SameFloat h ∧ ∀ b, t.seen core b = s.seen core b ∧ s.HomeKept t core b) ∧
    (∃ t h, exec (.drop a) s = .next t ∧ s.OnlyGroup t gid h ∧ g.CompletedAt h s.clock ∧ g.Plain h ∧ g.SameVectors h ∧
      g.SameScalars h ∧ g.SameMasks h ∧ g.SameFloat h ∧
      (∀ l < 32, g.active.getLsbD l = true → aget t.l1 (core, locOf (X l).pa / 128) = none) ∧
      ∀ b, (a.hint.getLsbD 1 = false ∨ ∀ l < 32, g.active.getLsbD l = true → locOf (X l).pa / 128 ≠ b / 128) →
        t.seen core b = s.seen core b ∧ s.HomeKept t core b)

/-- 06 R178, R179: `MCAS` compares every entry of its block and writes all the new values or none; D tells the entries that
differ. -/
def Claim.MultiCompare : Prop :=
  ∀ (a : TArgs) (s : State) (gid : Nat) (g : Group) (n : Nat) (B X : Nat → Xlat),
    let core := s.coreOf g
    let word := fun j => s.seenValue core (locOf (B j).pa) 8
    let miss := (List.range n).filter fun k => s.seenValue core (locOf (X k).pa) 8 ≠ word (2 + 3 * k)
    s.Acts gid g → s.MayAccess gid g (readsS [a.a.toNat]) [.s a.d.toNat] true true →
    s.BlockMapped g (g.s a.a.toNat).toNat n B X →
    ∃ t h, exec (.mcas a) s = .next t ∧ s.OnlyGroup t gid h ∧ g.CompletedAt h s.clock ∧
      g.Plain { h with scmDirty := g.scmDirty, persists := g.persists, lost := g.lost } ∧
      g.SameVectors h ∧ g.SameMasks h ∧ g.SameFloat h ∧
      (∀ r, h.s r = if r = a.d.toNat then BitVec.ofNat 64 (miss.map (2 ^ ·)).sum else g.s r) ∧
      (∀ k < n, t.seenValue core (locOf (X k).pa) 8 =
        if miss = [] then word (3 + 3 * k) else s.seenValue core (locOf (X k).pa) 8) ∧
      ∀ b, (∀ k < n, b < locOf (X k).pa ∨ locOf (X k).pa + 8 ≤ b) →
        t.seen core b = s.seen core b ∧ s.HomeKept t core b

/-- 06 R161, R193, 11 R295: a `FENCE` that has nothing to wait for and nothing to deliver completes; with release order at core
scope or wider it leaves no dirty byte in the core's L1, and with acquire order at die scope or wider no clean one. -/
def Claim.Fences : Prop :=
  ∀ (a : MArgs) (s : State) (gid : Nat) (g : Group),
    let core := s.coreOf g
    s.Acts gid g → s.CacheSound core → g.readsOut = false → s.acquiring gid = false → g.lost = [] →
    (Order.isRel a.order = true → s.logs gid = false ∧ s.writesOut gid = false) →
    (Order.isAcq a.order = true → g.logsOut = false) →
    (a.scope ≠ .grp → s.owed gid = none) →
    ∃ t h, exec (.fence a) s = .next t ∧ s.OnlyGroup t gid h ∧ g.CompletedAt h s.clock ∧ g.Plain h ∧ g.SameVectors h ∧
      g.SameScalars h ∧ g.SameMasks h ∧ g.SameFloat h ∧
      (Order.isRel a.order = true → Scope.coreWide a.scope = true →
        ∀ line l, aget t.l1 (core, line) = some l → l.dirty = 0) ∧
      (Order.isAcq a.order = true → Scope.wide a.scope = true →
        ∀ line l, aget t.l1 (core, line) = some l → l.valid = l.dirty) ∧
      ∀ b, t.seen core b = s.seen core b ∧ s.HomeKept t core b

/-- 06 R195, R196: `ICINV` removes the lines of the range from the instruction caches of its scope, whatever address they were fetched
under, after the core's write-back; `ISYNC` forgets the loop buffer. That `ICINV` also removes what other contexts fetched of the lines
that its range covers is the model's choice (log 41). -/
def Claim.CodeWords : Prop :=
  ∀ (a : SArgs) (s : State) (gid : Nat) (g : Group), s.Acts gid g →
    (∃ h, exec (.isync a) s = .next { s with groups := aset s.groups gid h } ∧ g.CompletedAt h s.clock ∧
      g.Plain { h with loopBuf := g.loopBuf } ∧ g.SameVectors h ∧ g.SameScalars h ∧ g.SameMasks h ∧ g.SameFloat h ∧
      h.loopBuf = none) ∧
    (let core := s.coreOf g
      let lo := (g.s a.a.toNat).toNat
      let hi := lo + (g.s a.b.toNat).toNat
      s.CacheSound core → g.Free (readsS [a.a.toNat, a.b.toNat]) [] → s.unsettled gid g = false → g.lost = [] →
      ∃ t h, exec (.icinv a) s = .next t ∧ s.OnlyGroup t gid h ∧ g.CompletedAt h s.clock ∧ g.Plain h ∧ g.SameVectors h ∧
        g.SameScalars h ∧ g.SameMasks h ∧ g.SameFloat h ∧
        (∀ e, e ∈ t.icache ↔ e ∈ s.icache ∧ ¬(scopeHolds (a.imm.toNat % 16) core e.1.1 = true ∧
          (e.1.2.1 = s.ctxOf g ∧ lo < 128 * (e.1.2.2.1 + 1) ∧ 128 * e.1.2.2.1 < hi ∨
            t.codeUnder (s.ctxOf g) lo hi e.1.2.2.2 = true))) ∧
        (∀ line l, aget t.l1 (core, line) = some l → l.dirty = 0) ∧
        ∀ b, t.seen core b = s.seen core b ∧ s.HomeKept t core b)

/-- 06 R197 to R199: `PWB` sends a cached granule of SCM to its persist queue; `PBAR` completes when nothing of the group is on
its way; `STEP` advances the step counter of the context when it equals A, and returns the counter. -/
def Claim.PersistWords : Prop :=
  (∀ (a : MArgs) (s : State) (gid : Nat) (g : Group) (l : Nat) (x : Xlat),
    let core := s.coreOf g
    let gran := locOf x.pa / 64
    s.Acts gid g → g.Only l → g.Free (readsIn (addrRegs a) g.active) [] → s.logsPage gid [g.addrOf a l] = false →
    s.Hit core (s.ctxOf g) g.supervisor .read (g.addrOf a l) x → s.Sound core x 1 true → x.kind = 1 → x.pt = false →
    placeOf (locOf x.pa) = .scm → s.inRegion (locOf x.pa) = false → (∀ k < 128, s.inRegion (128 * (gran / 2) + k) = false) →
    ∃ t h p, exec (.pwb a) s = .next t ∧ s.OnlyGroup t gid h ∧ g.CompletedAt h s.clock ∧
      g.Plain { h with scmDirty := g.scmDirty, persists := g.persists } ∧ g.SameVectors h ∧ g.SameScalars h ∧
      g.SameMasks h ∧ g.SameFloat h ∧ (∀ q, q ∈ h.scmDirty ↔ q ∈ g.scmDirty ∧ q ≠ gran) ∧
      (∀ q ∈ s.persists, q ∈ t.persists) ∧ p ∈ t.persists ∧ p.id ∈ h.persists ∧ p.gid = some gid ∧ p.accepted = false ∧
      p.cells = (List.range 64).map fun k => (64 * gran + k, readByte t.mem (64 * gran + k))) ∧
  (∀ (a : SArgs) (s : State) (gid : Nat) (g : Group), s.Acts gid g → s.logs gid = false → s.writesOut gid = false →
    g.readsOut = false → g.lost = [] → g.scmDirty = [] → g.persists = [] → s.scmAway gid (s.coreOf g) = [] →
    s.scmBacking gid = false →
    (a.imm.getLsbD 0 = true → s.fragmentsOut gid = false ∧ g.stripeLost = []) →
    ∃ h, exec (.pbar a) s = .next { s with groups := aset s.groups gid h } ∧ g.CompletedAt h s.clock ∧ g.Plain h ∧
      g.SameVectors h ∧ g.SameScalars h ∧ g.SameMasks h ∧ g.SameFloat h) ∧
  (∀ (a : SArgs) (s : State) (gid : Nat) (g : Group) (c : Ctx), s.Acts gid g → g.Free (readsS [a.a.toNat]) [.s a.d.toNat] →
    s.logs gid = false → s.writesOut gid = false → aget s.ctxs (s.ctxOf g) = some c →
    ∃ h, exec (.step a) s = .next { s with
        groups := aset s.groups gid h
        ctxs := if c.step = g.s a.a.toNat then aset s.ctxs (s.ctxOf g) { c with step := c.step + 1 } else s.ctxs } ∧
      g.CompletedAt h s.clock ∧ g.Plain h ∧ g.SameVectors h ∧ g.SameMasks h ∧ g.SameFloat h ∧
      ∀ n, h.s n = if n = a.d.toNat then (if c.step = g.s a.a.toNat then c.step + 1 else c.step) else g.s n)

/-- 06 R197: `PWB` sends the granule of every executing lane to its persist queue. -/
def Claim.LanePersists : Prop :=
  ∀ (a : MArgs) (s : State) (gid : Nat) (g : Group) (X : Nat → Xlat),
    let core := s.coreOf g
    let gran := fun (l : Nat) => locOf (X l).pa / 64
    s.Acts gid g → g.Free (readsIn (addrRegs a) g.active) [] → s.logsPage gid ((lanesOf g.active).map (g.addrOf a)) = false →
    (∀ l < 32, g.active.getLsbD l = true → s.Hit core (s.ctxOf g) g.supervisor .read (g.addrOf a l) (X l) ∧
      s.Sound core (X l) 1 true ∧ (X l).kind = 1 ∧ (X l).pt = false ∧ placeOf (locOf (X l).pa) = .scm ∧
      s.inRegion (locOf (X l).pa) = false ∧ ∀ k < 128, s.inRegion (128 * (gran l / 2) + k) = false) →
    ∃ t h, exec (.pwb a) s = .next t ∧ s.OnlyGroup t gid h ∧ g.CompletedAt h s.clock ∧
      g.Plain { h with scmDirty := g.scmDirty, persists := g.persists } ∧ g.SameVectors h ∧ g.SameScalars h ∧
      g.SameMasks h ∧ g.SameFloat h ∧
      (∀ q, q ∈ h.scmDirty ↔ q ∈ g.scmDirty ∧ ∀ l < 32, g.active.getLsbD l = true → q ≠ gran l) ∧
      (∀ q ∈ s.persists, q ∈ t.persists) ∧
      ∀ l < 32, g.active.getLsbD l = true → ∃ p ∈ t.persists, p.id ∈ h.persists ∧ p.gid = some gid ∧ p.accepted = false ∧
        p.cells = (List.range 64).map fun k => (64 * gran l + k, readByte t.mem (64 * gran l + k))

/-! ### Kiosk words -/

/-- 06 R183 to R186: `CHASE` reads its descriptor and sends one packet for each executing lane, from the lane's pointer; `CHASER`
sends one for each lane whose mark can be resumed, from the step and the pointer of the mark. -/
def Claim.Chases : Prop :=
  ∀ (a : TArgs) (s : State) (gid : Nat) (g : Group) (B : Nat → Xlat),
    let n := a.op.toNat / 32 + 1
    let va := (g.s a.b.toNat).toNat
    let words := (List.range (2 * n)).map (s.wordOf g B)
    let d := a.d.toNat
    s.Acts gid g → s.CacheSound (s.coreOf g) → s.KioskFree (lanesOf g.active).length → va % 128 = 0 → s.WordsMapped g va (2 * n) B →
    (chaseSteps n words).2 = true →
    (s.MayIssue gid g (readsIn (vrange a.a.toNat 2) g.active ++ readsS [a.b.toNat]) (vrange d 2) → g.active ≠ 0 →
      ∃ t h q, exec (.chase a) s = .next t ∧
        s.Issued t gid g h (.kiosk gid) 0x02 a.tmap.toNat q [.v d, .v (d + 1)] ∧ s.BytesKept t (s.coreOf g) ∧
        h.marks = g.marks ∧
        t.chases = s.chases ++ (lanesOf g.active).map fun l =>
          { gid := gid, seqNo := q, lane := l, dreg := g.wbase + d, n := n, hopLimit := a.op.toNat / 4 % 8 + 1
            steps := (chaseSteps n words).1, k := 0, hops := 0, p := (g.v64 a.a.toNat l).toNat
            supervisor := g.supervisor, word := g.issue, agent := s.coreOf g, since := s.clock }) ∧
    (s.MayIssue gid g (readsS [a.b.toNat]) (vrange d 2) →
      let lanes := (lanesOf g.active).filterMap fun l => (g.resumable d n l).map fun r => (l, r)
      lanes ≠ [] →
      ∃ t h q, exec (.chaser a) s = .next t ∧
        s.Issued t gid g h (.kiosk gid) 0x02 a.tmap.toNat q [.v d, .v (d + 1)] ∧ s.BytesKept t (s.coreOf g) ∧
        (∀ k, k ∈ h.marks ↔ k ∈ g.marks ∧ ¬(k.scalar = false ∧ (k.reg = g.wbase + d ∨ k.reg = g.wbase + d + 1) ∧
          ∃ e ∈ lanes, e.1 = k.lane)) ∧
        t.chases = s.chases ++ lanes.map fun e =>
          { gid := gid, seqNo := q, lane := e.1, dreg := g.wbase + d, n := n, hopLimit := a.op.toNat / 4 % 8 + 1
            steps := (chaseSteps n words).1, k := e.2.1, hops := e.2.2, p := (g.v64 d e.1).toNat
            supervisor := g.supervisor, resumed := decide (0 < e.2.1), word := g.issue, agent := s.coreOf g, since := s.clock })

/-- 06 R187: `KENQ` and `KDEQ` issue one list operation for the executing lanes, ascending; `KDEQ` leaves its registers
pending. -/
def Claim.Lists : Prop :=
  ∀ (a : TArgs) (s : State) (gid : Nat) (g : Group) (enq : Bool),
    let head := (g.s a.b.toNat).toNat
    let reg := if enq then a.a.toNat else a.d.toNat
    s.Acts gid g → s.CacheSound (s.coreOf g) → s.KioskFree (lanesOf g.active).length → head % 16 = 0 → g.active ≠ 0 →
    s.MayIssue gid g (readsS [a.b.toNat] ++ (if enq then readsIn (vrange reg 2) g.active else []))
      (if enq then [] else vrange reg 2) →
    ∃ t h q, exec (if enq then .kenq a else .kdeq a) s = .next t ∧
      s.Issued t gid g h (.kiosk gid) 0x02 a.tmap.toNat q (if enq then [] else [.v reg, .v (reg + 1)]) ∧
      s.BytesKept t (s.coreOf g) ∧
      t.listOps = s.listOps ++
        [{ gid := gid, seqNo := q, enq := enq, head := head, lanes := lanesOf g.active
           nodes := (lanesOf g.active).map fun l => (g.v64 reg l).toNat, dreg := g.wbase + reg, supervisor := g.supervisor
           word := g.issue, tag := s.stepOf g, since := s.clock }]

/-- 06 R188, R189: `KRCP` installs a well-formed recipe record in a slot of the context, and `KVUP` starts the chunks of an update
with the recipe of its slot. -/
def Claim.Recipes : Prop :=
  ∀ (a : TArgs) (s : State) (gid : Nat) (g : Group) (B : Nat → Xlat),
    let va := (g.s a.a.toNat).toNat
    let slot := a.op.toNat / 16
    let r := (List.range 16).flatMap fun j => leBytes 8 (s.wordOf g B j).toNat
    s.Acts gid g → s.CacheSound (s.coreOf g) → s.MayIssue gid g (readsS [a.a.toNat]) [] →
    (va % 128 = 0 → s.WordsMapped g va 16 B → recipeOk r = true →
      ∃ t h q, exec (.krcp a) s = .next t ∧ s.Issued t gid g h (.kiosk gid) 0x02 a.tmap.toNat q [] ∧
        s.BytesKept t (s.coreOf g) ∧
        t.krcps = s.krcps ++ [{ gid := gid, seqNo := q, ctx := s.ctxOf g, slot := slot, recipe := r }]) ∧
    (∀ rcp : Recipe,
      let count := (s.wordOf g B 3).toNat
      va % 32 = 0 → s.WordsMapped g va 4 B → (∀ k ∈ s.krcps, ¬(k.ctx = s.ctxOf g ∧ k.slot = slot)) →
      s.KioskFree (min 512 ((count + 15) / 16)) → aget (s.ctx (s.ctxOf g)).recipes slot = some rcp → 1 ≤ count → count ≤ 65536 →
      (∀ k < 3, recipeReads rcp.bytes k = true ∨ recipeWrites rcp.bytes k = true → (s.wordOf g B k).toNat % 64 = 0) →
      ∃ t h q, exec (.kvup a) s = .next t ∧ s.Issued t gid g h (.kiosk gid) 0x02 a.tmap.toNat q [] ∧
        s.BytesKept t (s.coreOf g) ∧
        t.kvups = s.kvups ++
          [{ gid := gid, seqNo := q, recipe := rcp.bytes, x0 := (s.wordOf g B 0).toNat, x1 := (s.wordOf g B 1).toNat
             x2 := (s.wordOf g B 2).toNat, n := count, chunks := List.range ((count + 15) / 16), slot := slot
             origin := g.origin, supervisor := g.supervisor, tag := s.stepOf g, since := s.clock }])

/-- 06 R174 to R176: `ROWOP` and `ROWLD` send one row step to the Kiosk of the row, with the bytes of the executing lanes, and
leave their registers pending. -/
def Claim.Rows : Prop :=
  ∀ (a : MArgs) (s : State) (gid : Nat) (g : Group) (size : Nat) (x : Xlat) (load : Bool),
    let core := s.coreOf g
    let d := a.d.toNat
    let va := (g.s a.a.toNat).toNat
    let regs := vrange d (rowRegs size)
    s.Acts gid g → s.CacheSound core → rowSize (g.s (a.a.toNat + 1)) = some size → d % rowRegs size = 0 →
    d + rowRegs size ≤ s.window g → (load = false → a.hint.toNat ≠ 3) →
    s.MayAccess gid g (readsS [a.a.toNat, a.a.toNat + 1] ++ (if load then [] else readsIn regs (if size = 64 then g.active &&& 0xFFFF else g.active))) regs
      (Order.isRel a.order) true →
    va % size = 0 → s.logsPage gid [va] = false →
    s.Hit core (s.ctxOf g) g.supervisor (if load then .read else .write) va x → x.kind < 2 → s.KioskRoom →
    (load = false → s.QueueOpen gid x) →
    ∃ t h r, exec (if load then .rowld a else .rowop a) s = .next t ∧ s.OnlyGroup t gid h ∧ g.CompletedAt h s.clock ∧
      g.Plain { h with pend := g.pend } ∧ g.SameVectors h ∧ g.SameScalars h ∧ g.SameMasks h ∧ g.SameFloat h ∧
      h.pend = (g.pendRegs regs (.row r.id)).pend ∧ t.rowOps = s.rowOps ++ [r] ∧ r.gid = some gid ∧
      r.op = (if load then 3 else a.hint.toNat) ∧ r.pa = x.pa ∧ r.size = size ∧ r.lanes = g.active ∧
      r.kiosk = kioskOf (locOf x.pa) ∧ r.dreg = g.wbase + d ∧ r.acquire = Order.isAcq a.order ∧
      (r.data = if load then [] else rowCells size g.active fun j l => g.v (d + j) l) ∧
      ∀ b, t.seen core b = s.seen core b ∧ s.HomeKept t core b

/-- 06 R190, R191: `STM` sends the executing lanes' stores into the egress under its multicast entry; `MCTW` writes an entry of the
table, in supervisor mode alone, with the bits of packages that are no members cleared; it passes when no copy counted against an
older version of the entry is left (12 R336). -/
def Claim.Multicast : Prop :=
  (∀ (a : MArgs) (s : State) (gid : Nat) (g : Group) (X : Nat → Xlat),
    let core := s.coreOf g
    let w := Width.bytes a.width
    let va := fun l => (g.v64 a.a.toNat l).toNat % 2 ^ 57
    s.Acts gid g → s.CacheSound core → g.active ≠ 0 →
    s.MayAccess gid g (readsIn (vrange a.d.toNat (dataRegs a.width) ++ vrange a.a.toNat 2) g.active) []
      (Order.isRel a.order) true →
    (∀ l < 32, g.active.getLsbD l = true → va l % w = 0 ∧ s.logsPage gid [va l] = false ∧
      s.Hit core (s.ctxOf g) g.supervisor .write (va l) (X l) ∧ (X l).kind ≠ 3 ∧
      ((X l).kind = 2 → s.lineOut gid core (X l).pa = false) ∧
      (a.scope = .row → ∀ k < 32, g.active.getLsbD k = true → va k / 1024 = va l / 1024)) →
    ∃ t h q, exec (.stm a) s = .next t ∧ s.OnlyGroup t gid h ∧ g.CompletedAt h s.clock ∧ g.Plain h ∧ g.SameVectors h ∧
      g.SameScalars h ∧ g.SameMasks h ∧ g.SameFloat h ∧ t.mcasts = s.mcasts ++ [q] ∧ q.gid = gid ∧ q.ctx = s.ctxOf g ∧
      q.entry = a.b.toNat ∧ q.row = (a.scope == .row) ∧ q.tag = s.stepOf g ∧ q.left = none ∧
      q.stores = ((lanesOf g.active).map fun l => (X l, g.dataBytes a.d.toNat w l)) ∧
      ∀ b, t.seen core b = s.seen core b ∧ s.HomeKept t core b) ∧
  (∀ (a : SArgs) (s : State) (gid : Nat) (g : Group) (c : Ctx) (r : CfgRec), s.Acts gid g →
    (g.supervisor = false → exec (.mctw a) s = .next (s.trap gid g.endChain { code := 1, status := 8, s59 := s.word.toNat })) ∧
    (g.supervisor = true → g.Free (readsS [a.a.toNat]) [] → aget s.ctxs (s.ctxOf g) = some c → s.cfg = some r → g.mctw = none →
      (∀ m ∈ s.mcasts, m.left ≠ none → m.ctx = s.ctxOf g → m.entry = a.imm.toNat % 256 → s.mcastVersion < m.version) →
      (∀ r ∈ s.rowOps, r.members ≠ [] → r.ctx = s.ctxOf g → r.entry = a.imm.toNat % 256 → ∀ w, r.version = some w →
        s.mcastVersion < w) →
      (∀ e ∈ s.egress, e.sent = false → ∀ w, e.version = some w → e.pkt.ctx = s.ctxOf g → e.pkt.opdata % 256 = a.imm.toNat % 256 →
        s.mcastVersion < w) →
      ∃ h, exec (.mctw a) s = .next { s with
          groups := aset s.groups gid h
          ctxs := aset s.ctxs (s.ctxOf g)
            { c with mcast := aset c.mcast (a.imm.toNat % 256) (g.s a.a.toNat &&& (r.members &&& ~~~ r.endpoints)) }
          mcastVersion := s.mcastVersion + 1 } ∧
        g.CompletedAt h s.clock ∧ g.Plain h ∧ g.SameVectors h ∧ g.SameScalars h ∧ g.SameMasks h ∧ g.SameFloat h))

/-! ### Paired words, carries and one lane -/

/-- 02 R32, 04 R87: both slots of a paired word read the group as it stood before the pair, and each gives the results of the
full-form instruction that it stands for. -/
def Obligations.PairedWords : Prop :=
  ∀ (p : PArgs) (s : State) (gid : Nat) (g : Group) (F G : VecForm),
    vecForm (Slot.alone p.slotA) = some F → vecForm (Slot.alone p.slotB) = some G →
    p.slotA.op.modeOk p.slotA.mode = true → p.slotB.op.modeOk p.slotB.mode = true →
    s.Acts gid g → g.Latched (F.latches ++ G.latches) → g.Free (F.reads g ++ G.reads g) (F.dst.writes ++ G.dst.writes) →
    ∃ h, exec (.pairedWord p) s = .next { s with groups := aset s.groups gid h } ∧ g.CompletedAt h s.clock ∧
      g.PairDone h F.dst G.dst (F.outs g.chainFor) (G.outs g.chainFor)

/-- 05 R110, R134: `IADDC` writes the sums and the carries out; `WRLANE` writes one lane of D, and the other executing lanes' values of
D enter the latches. That a marked D does not stop `WRLANE`, and that its other lanes keep their marks, is the model's choice (log 23).
-/
def Claim.CarryAndLane : Prop :=
  (∀ (a : VArgs) (s : State) (gid : Nat) (g : Group),
    let F := carryForm a
    s.Acts gid g → g.Latched F.latches → g.Free (F.reads g) F.dst.writes →
    ∃ h, exec (.iaddc a) s = .next { s with groups := aset s.groups gid h } ∧ g.CompletedAt h s.clock ∧
      g.VectorDone { h with masks := g.masks } F.dst (F.outs g.chainFor) ∧
      ∀ n, h.m n = if n = a.sub.toNat then g.maskWith n (g.chainFor.carryOut a) else g.m n) ∧
  (∀ (a : IArgs) (s : State) (gid : Nat) (g : Group),
    let d := a.d.toNat
    let k := a.imm.toNat % 32
    let x := lo32 (g.s a.a.toNat)
    s.Acts gid g → g.Free (readsS [a.a.toNat]) [.v d] →
    ∃ h, exec (.wrlane a) s = .next { s with groups := aset s.groups gid h } ∧ g.CompletedAt h s.clock ∧ g.Kept h ∧
      g.SameScalars h ∧ g.SameMasks h ∧ g.SameFloat h ∧ g.Advanced h ∧
      (∀ p, ∀ l < 32, h.posLane p l =
        if a.nw = false ∧ p = g.wbase + d ∧ l = k ∧ g.active.getLsbD l = true then x else g.posLane p l) ∧
      (∀ m, m ∈ h.marks ↔ m ∈ g.marks ∧ ¬(a.nw = false ∧ m.scalar = false ∧ m.reg = g.wbase + d ∧ m.lane = k ∧
        g.active.getLsbD m.lane = true)) ∧
      (∀ l < 32, h.latch 0 l = if g.active.getLsbD l then (if l = k then x else g.v d l).zeroExtend 64 else 0) ∧
      (∀ j < 3, ∀ l < 32, h.latch (j + 1) l = g.chainFor.latch j l) ∧
      h.chain.vecs = g.chainFor.chain.vecs + 1 ∧ h.chain.members = g.chainFor.chain.members + 1)

/-! ### Tensor maps -/

/-- 07 R203, R207: `TMLD` reads the 64 bytes of a record into a map register, reserved bits zero, and `TMST` stores them, in memory
or in scratch. -/
def Claim.MapRecords : Prop :=
  ∀ (a : TArgs) (s : State) (gid : Nat) (g : Group) (t : Team),
    let core := s.coreOf g
    let va := (g.s a.a.toNat).toNat
    let n := a.tmap.toNat
    s.Acts gid g → aget s.teams g.team = some t → va % 64 = 0 →
    (s.MayAccess gid g (readsS [a.a.toNat]) [] false false →
      (a.op.getLsbD 0 = true → va + 64 ≤ s.scratchSize g → t.isBad va 64 = false →
        ∃ h u, exec (.tmld a) s = .next { s with groups := aset s.groups gid h, teams := aset s.teams g.team u } ∧
          g.CompletedAt h s.clock ∧ g.Passed h ∧ t.OnlyMap u n ∧ (u.tmap n).amax = (t.tmap n).amax ∧
          (u.tmap n).orig = (t.tmap n).orig ∧
          (u.tmap n).words = (List.range 16).map fun j => mapStored j (BitVec.ofNat 32 (readLE t.scratch (va + 4 * j) 4))) ∧
      (∀ x : Xlat, a.op.getLsbD 0 = false → s.logsPage gid [va] = false →
        s.Hit core (s.ctxOf g) g.supervisor .read va x → s.Sound core x 64 false → s.NotStale core (locOf x.pa / 128) →
        ∃ m h u, exec (.tmld a) s = .next m ∧ s.OnlyTeam m gid h g.team u ∧ g.CompletedAt h s.clock ∧ g.Passed h ∧
          t.OnlyMap u n ∧ (u.tmap n).amax = (t.tmap n).amax ∧ (u.tmap n).orig = (t.tmap n).orig ∧
          (u.tmap n).words = ((List.range 16).map fun j =>
            mapStored j (BitVec.ofNat 32 (s.seenValue core (locOf x.pa + 4 * j) 4))) ∧ s.BytesKept m core)) ∧
    (s.MayAccess gid g (readsS [a.a.toNat]) [] false true →
      let byte := fun k => (leBytes 4 ((t.tmap n).words.getD (k / 4) 0).toNat).getD (k % 4) 0
      (a.op.getLsbD 0 = true → va + 64 ≤ s.scratchSize g → t.scratch.wf = true →
        ∃ h u, exec (.tmst a) s = .next { s with groups := aset s.groups gid h, teams := aset s.teams g.team u } ∧
          g.CompletedAt h s.clock ∧ g.Passed h ∧ { u with scratch := t.scratch, spoiled := t.spoiled } = t ∧
          ∀ b, readByte u.scratch b = if va ≤ b ∧ b < va + 64 then byte (b - va) else readByte t.scratch b) ∧
      (∀ x : Xlat, a.op.getLsbD 0 = false → s.logsPage gid [va] = false →
        s.Hit core (s.ctxOf g) g.supervisor .write va x → s.Sound core x 64 true → s.QueueOpen gid x →
        ∃ m h, exec (.tmst a) s = .next m ∧ s.OnlyGroup m gid h ∧ g.CompletedAt h s.clock ∧
          g.Plain { h with scmDirty := g.scmDirty, persists := g.persists, lost := g.lost } ∧ g.SameRegisters h ∧
          (∀ k < 64, m.seen core (locOf x.pa + k) = byte k) ∧
          ∀ b, b < locOf x.pa ∨ locOf x.pa + 64 ≤ b → m.seen core b = s.seen core b ∧ s.HomeKept m core b))

/-- 02 R49, 07 R207: `TMSET` writes one word of a map register; `AMAXRD` and `ORIGRD` read its largest magnitude and its NaN origin
into a scalar, `AMAXCLR` and the `.clr` of `ORIGRD` clear them. -/
def Claim.MapRegisters : Prop :=
  ∀ (a : TArgs) (s : State) (gid : Nat) (g : Group) (t : Team),
    let n := a.tmap.toNat
    s.Acts gid g → aget s.teams g.team = some t →
    (g.Free (readsS [a.a.toNat]) [] →
      ∃ h u, exec (.tmset a) s = .next { s with groups := aset s.groups gid h, teams := aset s.teams g.team u } ∧
        g.CompletedAt h s.clock ∧ g.Passed h ∧ t.OnlyMap u n ∧ (u.tmap n).amax = (t.tmap n).amax ∧
        (u.tmap n).orig = (t.tmap n).orig ∧ ∀ j < 16, (u.tmap n).words.getD j 0 =
          if j = a.op.toNat % 16 then mapStored j (lo32 (g.s a.a.toNat)) else (t.tmap n).words.getD j 0) ∧
    (g.Free [] [.s a.d.toNat] →
      ∃ h, exec (.amaxrd a) s = .next { s with groups := aset s.groups gid h, teams := aset s.teams g.team t } ∧
        g.CompletedAt h s.clock ∧ g.WroteScalar h a.d.toNat ((t.tmap n).amax.zeroExtend 64)) ∧
    (∃ h u, exec (.amaxclr a) s = .next { s with groups := aset s.groups gid h, teams := aset s.teams g.team u } ∧
      g.CompletedAt h s.clock ∧ g.Passed h ∧ t.OnlyMap u n ∧ u.tmap n = { t.tmap n with amax := 0 }) ∧
    (g.Free [] [.s a.d.toNat] →
      ∃ h u, exec (.origrd a) s = .next { s with groups := aset s.groups gid h, teams := aset s.teams g.team u } ∧
        g.CompletedAt h s.clock ∧ g.WroteScalar h a.d.toNat ((t.tmap n).orig.zeroExtend 64) ∧ t.OnlyMap u n ∧
        u.tmap n = if a.op.getLsbD 0 then { t.tmap n with orig := 0 } else t.tmap n)

/-! ### Futures -/

/-- 07 R209 to R212: `FWAIT` and `TLWAIT` return when the operation, or every operation up to the value, is complete; they acquire
its effects and deliver an undelivered failure, the lowest first. A handle of no context returns at once. -/
def Claim.Waits : Prop :=
  ∀ (i : Instr) (s : State) (gid : Nat) (g : Group) (x : Word64) (reads : List (RegRef × Word32)) (upTo : Bool),
    (∃ a : TArgs, upTo = false ∧ i = .fwait a ∧ x = (if a.op.getLsbD 0 then g.s a.a.toNat else g.h a.a.toNat) ∧
        reads = (if a.op.getLsbD 0 then readsS [a.a.toNat] else [])) ∨
      (∃ a : TArgs, upTo = true ∧ i = .tlwait a ∧ x = g.s a.a.toNat ∧ reads = readsS [a.a.toNat]) →
    s.Acts gid g → g.Free reads [] → s.CacheSound (s.coreOf g) →
    let n := handleSeq x
    (s.codeKey gid g (handleCode x) = none →
      ∃ h, exec i s = .next { s with groups := aset s.groups gid h } ∧ g.CompletedAt h s.clock ∧ g.Passed h) ∧
    ∀ k, s.codeKey gid g (handleCode x) = some k →
      let e := s.engine k
      (if upTo = true then n ≤ e.timeline else n ≤ e.issued ∧ n ∉ e.active) →
      let mine := fun (f : Failure) => f.delivered = false ∧ f.trap.isSome = true ∧
        (if upTo = true then f.seqNo ≤ n else f.seqNo = n)
      ((∀ f ∈ e.fails, ¬mine f) →
        ∃ t h, exec i s = .next t ∧ s.OnlyGroup t gid h ∧ g.CompletedAt h s.clock ∧ g.Passed h ∧
          (k.isSeq = false → ∀ line l, aget t.l1 (s.coreOf g, line) = some l → l.valid = l.dirty) ∧
          s.BytesKept t (s.coreOf g)) ∧
      (∀ f ∈ e.fails, mine f → (∀ f' ∈ e.fails, mine f' → f' = f ∨ f.seqNo < f'.seqNo) →
        ∃ (t : State) (i' : TrapInfo), f.trap = some i' ∧ exec i s = .next (t.trap gid g.endChain i') ∧ aget t.groups gid = some g ∧
          (t.engine k).fails = (e.fails.map fun y => if y.seqNo = f.seqNo then { y with delivered := true } else y))

/-- 07 R209 to R212: `FTEST` reports completion and status without waiting and counts as the delivery; `TLRD` reads a handle
or a timeline; `FCANCEL` cancels a copy that has units left: it ends with status 6 at once, or when the unit that has started and the
writes to other packages are done; any other operation is left alone. -/
def Claim.FutureTests : Prop :=
  ∀ (a : TArgs) (s : State) (gid : Nat) (g : Group) (x : Word64),
    let reads := if a.op.getLsbD 0 then readsS [a.a.toNat] else []
    let n := handleSeq x
    x = (if a.op.getLsbD 0 then g.s a.a.toNat else g.h a.a.toNat) → s.Acts gid g →
    (g.Free reads [.s a.d.toNat] → s.CacheSound (s.coreOf g) →
      (s.codeKey gid g (handleCode x) = none →
        ∃ h, exec (.ftest a) s = .next { s with groups := aset s.groups gid h } ∧ g.CompletedAt h s.clock ∧
          g.WroteScalar h a.d.toNat 1) ∧
      ∀ k, s.codeKey gid g (handleCode x) = some k →
        let e := s.engine k
        (n ≤ e.issued → n ∉ e.active →
          ∃ t h, exec (.ftest a) s = .next t ∧ s.OnlyGroup { t with engines := s.engines } gid h ∧ g.CompletedAt h s.clock ∧
            g.WroteScalar h a.d.toNat (BitVec.ofNat 64 (1 + 256 * e.status n)) ∧
            (∀ k', k' ≠ k → t.engine k' = s.engine k') ∧ t.engine k = { e with
              fails := e.fails.map fun y => if y.seqNo = n then { y with delivered := true } else y } ∧
            s.BytesKept t (s.coreOf g)) ∧
        (e.issued < n ∨ n ∈ e.active →
          ∃ h, exec (.ftest a) s = .next { s with groups := aset s.groups gid h } ∧ g.CompletedAt h s.clock ∧
            g.WroteScalar h a.d.toNat 0)) ∧
    (g.Free [] [.s a.d.toNat] →
      ∃ h, exec (.tlrd a) s = .next { s with groups := aset s.groups gid h } ∧ g.CompletedAt h s.clock ∧
        g.WroteScalar h a.d.toNat (if a.b = 1 then g.h a.a.toNat
          else mkHandle a.op.toNat (((s.codeKey gid g a.op.toNat).map fun k => (s.engine k).timeline).getD 0))) ∧
    (g.Free reads [] →
      (handleCode x ≠ 1 ∨ (∀ o ∈ s.copyOps, o.gid = gid → o.seqNo = n → o.units ≤ o.done) →
        ∃ h, exec (.fcancel a) s = .next { s with groups := aset s.groups gid h } ∧ g.CompletedAt h s.clock ∧ g.Passed h) ∧
      (∀ o, handleCode x = 1 → s.copyOps = [o] → o.gid = gid → o.seqNo = n → o.done < o.units →
        (o.begun = true ∨ ∃ r ∈ s.remotes, r.what = .copyUnit gid n) →
        ∃ h, exec (.fcancel a) s = .next { s with
            groups := aset s.groups gid h
            copyOps := [{ o with cancelled := true, heldPage := if o.begun then o.heldPage else none }] } ∧
          g.CompletedAt h s.clock ∧ g.Passed h) ∧
      (∀ o, handleCode x = 1 → s.copyOps = [o] → o.gid = gid → o.seqNo = n → o.done < o.units → o.lostPeer = none →
        o.failed = none → o.begun = false → (∀ r ∈ s.remotes, r.what ≠ .copyUnit gid n) →
        ∃ t h, exec (.fcancel a) s = .next t ∧ s.OnlyGroup { t with engines := s.engines } gid h ∧ g.CompletedAt h s.clock ∧
          g.Plain h ∧ g.SameVectors h ∧ g.SameScalars h ∧ g.SameMasks h ∧ h.rng = g.rng ∧ t.copyOps = [] ∧
          n ∉ (t.engine (.copy gid)).active ∧
          (t.engine (.copy gid)).fails = (s.engine (.copy gid)).fails ++
            [{ seqNo := n, status := 6, trap := none, gid := gid }]))

/-! ### Copies -/

/-- 07 R213 to R218: a copy instruction whose checks pass issues its operation, with what it captures of the group; under `.rs` it
advances the `rng` of one lane. An operation without a unit is complete at once. -/
def Claim.Copies : Prop :=
  ∀ (i : Instr) (s : State) (gid : Nat) (g : Group) (reads : List Nat) (o : CopyOp) (d : Nat),
    let S := fun (n : BitVec 10) (k : Nat) => (g.s (n.toNat + k)).toNat
    let words := fun (a : TArgs) => ((s.team g.team).tmap a.tmap.toNat).words
    let row := fun (a : TArgs) => (g.s a.b.toNat).toNat % 2 ^ 32
    let col := fun (a : TArgs) => (g.s a.b.toNat).toNat / 2 ^ 32
    let fits := fun (a : TArgs) (u : MapUse) =>
      mapStatus (mapOf (words a)) u = none ∧ mapOver (mapOf (words a)) (s.scratchSize g) = none
    let base : CopyOp :=
      { gid := gid, seqNo := (s.engine (.copy gid)).issued + 1, kind := o.kind, origin := g.origin
        supervisor := g.supervisor, tag := s.stepOf g, dest := o.kind.dest (mapOf o.map) }
    let mapped := fun (a : TArgs) =>
      { base with mapNo := a.tmap.toNat, map := words a, rnd := a.rnd, ftz := a.ftz
                  rng := if a.rnd = .rs then g.seed.1 else 0 }
    (∃ a : TArgs, i = .acopy a ∧ d = a.d.toNat ∧ reads = [a.b.toNat] ∧ fits a (.copy (row a) (col a)) ∧ o = mapped a ∧
        o.kind = .tile (a.op.getLsbD 0) (a.op.getLsbD 1) (row a) (col a)) ∨
      (∃ a : TArgs, i = .areduce a ∧ d = a.d.toNat ∧ reads = [a.b.toNat] ∧ fits a (.reduce (row a) (col a)) ∧ o = mapped a ∧
        o.kind = .reduce (a.op.toNat % 4) (row a) (col a)) ∨
      (∃ a : TArgs, i = .agather a ∧ d = a.d.toNat ∧ reads = [a.b.toNat, a.b.toNat + 1] ∧ fits a (.gather (S a.b 1)) ∧
        S a.b 0 % 16 = 0 ∧ S a.b 0 + 4 * (mapOf (words a)).trows ≤ s.scratchSize g ∧ o = mapped a ∧
        o.kind = .gather (a.op.getLsbD 0) (S a.b 0) (S a.b 1)) ∨
      (∃ a : TArgs, i = .acopyr a ∧ d = a.d.toNat ∧ reads = [a.a.toNat, a.a.toNat + 1, a.b.toNat] ∧
        S a.a 0 % 16 = 0 ∧ S a.a 1 % 16 = 0 ∧ S a.b 0 % 16 = 0 ∧
        (2 ≤ a.op.toNat % 4 → S a.a 0 + S a.b 0 ≤ s.scratchSize g) ∧
        (a.op.toNat % 2 = 1 → S a.a 1 + S a.b 0 ≤ s.scratchSize g) ∧ o = base ∧
        o.kind = .range (a.op.toNat % 4) (S a.a 0) (S a.a 1) (S a.b 0)) ∨
      (∃ a : TArgs, i = .afill a ∧ d = a.d.toNat ∧ reads = [a.a.toNat, a.a.toNat + 1, a.b.toNat] ∧
        S a.a 0 % 16 = 0 ∧ S a.a 1 % 16 = 0 ∧ (a.op.getLsbD 0 = true → S a.a 0 + S a.a 1 ≤ s.scratchSize g) ∧ o = base ∧
        o.kind = .fill (a.op.getLsbD 0) (S a.a 0) (S a.a 1) (lo32 (g.s a.b.toNat))) →
    s.Acts gid g → s.CacheSound (s.coreOf g) → s.MayIssue gid g (readsS reads) [] →
    let rng := if o.rnd = .rs then g.seed.2.rng else g.rng
    (o.units ≠ 0 →
      ∃ t h, exec i s = .next t ∧ s.Issued t gid g h (.copy gid) 0x01 d o.seqNo [] rng ∧
        s.BytesKept t (s.coreOf g) ∧ g.CompletedAt h s.clock ∧
        t.copyOps = s.copyOps ++ [o]) ∧
    (o.units = 0 →
      ∃ t h, exec i s = .next t ∧ s.OnlyGroup { t with engines := s.engines } gid h ∧ g.CompletedAt h s.clock ∧
        g.Plain { h with handles := g.handles } ∧ g.SameVectors h ∧ g.SameScalars h ∧ g.SameMasks h ∧
        h.fpflags = g.fpflags ∧ h.rng = rng ∧ h.lastnan = g.lastnan ∧
        (∀ r, h.h r = if r = d then mkHandle 0x01 o.seqNo else g.h r) ∧ t.copyOps = s.copyOps ∧
        (t.engine (.copy gid)).complete o.seqNo = true ∧ (t.engine (.copy gid)).fails = (s.engine (.copy gid)).fails ∧
        s.BytesKept t (s.coreOf g))

/-- 07 R213 to R218: `COPY_UNIT` moves the next 4096 bytes of a copy or a fill, or the next element of an `AREDUCE`: the bytes that its
destination gets, the granules that become full, the poison that follows the bytes, and the largest magnitude for the map. After the last
unit the future completes. The units of an operation meet at a beat's edge where their destination is memory, which is the model's choice
(log 65). -/
def Claim.CopyUnits : Prop :=
  ∀ (s : State) (o : CopyOp) (g : Group) (tm : Team) (X : Nat → Xlat),
    let m := mapOf o.map
    let tiles := units m.tileBytes
    let all := fun (_ : Group) (_ : Park) => true
    let same := fun (t : State) => t.teams = s.teams ∧ t.l1 = s.l1
    let intoScratch := fun (t : State) (cell : Nat → Option (Byte × Bool)) (mag : Team → Option Nat) => ∃ u,
      tm.Received u cell ∧ tm.Raised u o.mapNo (mag u) ∧ aget t.teams g.team = some u ∧
        (∀ k, k ≠ g.team → aget t.teams k = aget s.teams k) ∧ s.UnitDone t o o.next fun x p => !wokenBy g.team u.full x p
    s.CopyTurn o g tm →
    (o.units ≤ o.done → ∃ t, exec .copyUnit s = .next t ∧ s.UnitDone t o o all ∧ same t ∧ t.mem = s.mem ∧ t.poison = s.poison) ∧
    ((s.gangOf g).run ≠ .saved → o.done < o.units →
      (∀ kind dst src count, o.kind = .range kind dst src count →
        let at_ := unitStart (decide (2 ≤ kind)) dst count o.done
        let n := unitStart (decide (2 ≤ kind)) dst count (o.done + 1) - at_
        let from_ := fun (k : Nat) =>
          src + at_ + overlapped (decide (2 ≤ kind) == (kind % 2 == 1)) (src + at_) (dst + at_) n k
        let byte := fun (k : Nat) =>
          if kind % 2 = 1 then tm.engineByte (from_ k) else s.engineByte (X (from_ k % 2 ^ 57))
        kind < 4 →
        (kind % 2 = 0 → s.EngineReads o g ((List.range n).map fun k => (src + at_ + k) % 2 ^ 57) X) →
        (2 ≤ kind → ∃ t, exec .copyUnit s = .next t ∧ t.mem = s.mem ∧ t.poison = s.poison ∧ t.l1 = s.l1 ∧
          intoScratch t (fun b => if dst + at_ ≤ b ∧ b < dst + at_ + n then some (byte (b - (dst + at_))) else none) fun _ => none) ∧
        (kind < 2 → dst + count ≤ 2 ^ 57 → s.EngineWrites o g ((List.range n).map (dst + at_ + ·)) X →
          ∃ t, exec .copyUnit s = .next t ∧ s.UnitDone t o o.next all ∧ same t ∧
            s.Received t ((List.range n).map (dst + at_ + ·)) X fun va => byte (va - (dst + at_)))) ∧
      (∀ toScratch base len pat, o.kind = .fill toScratch base len pat →
        let at_ := base + unitStart toScratch base len o.done
        let n := base + unitStart toScratch base len (o.done + 1) - at_
        let byte := fun (b : Nat) => ((leBytes 4 (BitVec.toNat pat)).getD ((b - at_) % 4) 0, false)
        (toScratch = true → ∃ t, exec .copyUnit s = .next t ∧ t.mem = s.mem ∧ t.poison = s.poison ∧ t.l1 = s.l1 ∧
          intoScratch t (fun b => if at_ ≤ b ∧ b < at_ + n then some (byte b) else none) fun _ => none) ∧
        (toScratch = false → base + len ≤ 2 ^ 57 → s.EngineWrites o g ((List.range n).map (at_ + ·)) X →
          ∃ t, exec .copyUnit s = .next t ∧ s.UnitDone t o o.next all ∧ same t ∧
            s.Received t ((List.range n).map (at_ + ·)) X byte)) ∧
      (∀ store fe row0 col0, o.kind = .tile store fe row0 col0 →
        let elems := decide (o.done < tiles)
        let u := if elems then o.done else o.done - tiles
        let bytesOf := fun (k : Nat) => if elems then tileUnit m k (row0 + ·) col0 else scaleUnit m k row0 col0
        let mine := bytesOf u
        let out := (beatsOfUnit (if elems then tiles else o.units - tiles) u bytesOf)
        (store = false → s.EngineReads o g ((mine.filter fun b => b.2.2 ≠ 0).map fun b => b.2.1) X →
          ∃ t, exec .copyUnit s = .next t ∧
            (o.lastUse = false → t.mem = s.mem ∧ t.poison = s.poison ∧ t.l1 = s.l1) ∧
            intoScratch t
              (fun a => (mine.find? fun b => b.1 == a).map fun b =>
                if b.2.2 = 0 then (0, false) else (maskByte (s.engineByte (X b.2.1)).1 b.2.2, (s.engineByte (X b.2.1)).2))
              fun v => if elems then unitMag m o.origin v.scratch mine else none) ∧
        (store = true → (out.map fun b => b.2.1).Nodup → s.EngineWrites o g (out.map fun b => b.2.1) X →
          (fe = true → ∀ b ∈ out, b.1 / 16 ∈ tm.full) →
          ∃ t v, exec .copyUnit s = .next t ∧ s.UnitDone t o o.next all ∧ t.l1 = s.l1 ∧ aget t.teams g.team = some v ∧
            (∀ k, k ≠ g.team → aget t.teams k = aget s.teams k) ∧ tm.Received v (fun _ => none) ∧
            tm.Raised v o.mapNo (if elems then unitMag m o.origin tm.scratch out else none) ∧
            s.Received t (out.map fun b => b.2.1) X fun va => ((out.find? fun b => b.2.1 == va).map fun b =>
              (maskByte (readByte tm.scratch b.1) b.2.2 |||
                  (if b.2.2 = 0xFF then 0 else maskByte (s.engineByte (X va)).1 (255 - b.2.2)),
                tm.spoiled.contains (b.1 / 16))).getD (0, false))) ∧
      (∀ fe list col0, o.kind = .gather fe list col0 →
        let rowAt := fun (i : Nat) => readLE tm.scratch (list + 4 * i) 4
        let mine := tileUnit m o.done rowAt col0
        let row := fun (b : Nat) => (m.byteElem (b - m.sbase)).map Prod.fst
        (fe = true → ∀ b ∈ mine, ∀ i, row b.1 = some i → (list + 4 * i) / 16 ∈ tm.full) →
        s.EngineReads o g ((mine.filter fun b => b.2.2 ≠ 0).map fun b => b.2.1) X →
        ∃ t, exec .copyUnit s = .next t ∧
          (o.lastUse = false → t.mem = s.mem ∧ t.poison = s.poison ∧ t.l1 = s.l1) ∧
          intoScratch t
            (fun a => (mine.find? fun b => b.1 == a).map fun b =>
              let bad := (row b.1).any fun i => tm.spoiled.contains ((list + 4 * i) / 16)
              if b.2.2 = 0 then (0, bad) else (maskByte (s.engineByte (X b.2.1)).1 b.2.2, (s.engineByte (X b.2.1)).2 || bad))
            fun v => unitMag m o.origin v.scratch mine) ∧
      (∀ op row0 col0, o.kind = .reduce op row0 col0 →
        let cols := max (m.insideCols col0) 1
        let w := m.bits / 8
        let va := m.memAddr (row0 + o.done / cols) (col0 + o.done % cols)
        let off := m.elemBit (o.done / cols) (o.done % cols) / 8
        let a := locOf (X va).pa
        let rng := rsNext o.rnd o.rng
        let r := reduceElem m.ty op o.rnd o.ftz (o.origin.extractLsb' 0 22) (rsBits rng) (s.homeValue a w) (readLE tm.scratch off w)
        let skipped := { o.next with spoiled := some ((o.spoiled.map fun b => min b va).getD va) }
        (m.ty = .f32 ∨ m.ty = .bf16) → s.EngineWrites o g (span va w) X →
        (tm.isBad off w = true ∨ s.isBad (span a w) = true →
          ∃ t, exec .copyUnit s = .next t ∧ s.UnitDone t o skipped all ∧ same t ∧ t.mem = s.mem ∧ t.poison = s.poison) ∧
        (tm.isBad off w = false → s.isBad (span a w) = false →
          ∃ t v, exec .copyUnit s = .next t ∧
            s.UnitDone t o { o.next with rng := rng, fl := (BitVec.ofNat 6 o.fl ||| r.2).toNat } all ∧ t.l1 = s.l1 ∧
            aget t.teams g.team = some v ∧ (∀ k, k ≠ g.team → aget t.teams k = aget s.teams k) ∧ tm.Received v (fun _ => none) ∧
            tm.Raised v o.mapNo (if m.amaxen then maxMag [Ty.decode m.ty false (o.origin.extractLsb' 0 22) r.1] else none) ∧
            s.Received t (span va w) X fun b => ((leBytes w r.1).getD (b - va) 0, false))))

/-! ### Matrix streams -/

/-- 07 R219: `MFORK` starts the stream of the group's quarter at its target, with what it captures of the group, when no group that
waits in another `MFORK` came before it; `MJOIN` passes when
no stream was forked, or when the last one has ended and left no failure to deliver. -/
def Claim.ForkAndJoin : Prop :=
  (∀ (a : BArgs) (s : State) (gid : Nat) (g : Group) (t : Team),
    let q := s.unitOf g
    let u := agetD t.units q {}
    s.Acts gid g → aget s.teams g.team = some t → (s.recOf g).acc ≠ 0 → (∀ st, u.stream = some st → st.running = false) →
    (∀ k ∈ u.forks.takeWhile (· ≠ gid), ∀ x, aget s.groups k = some x → x.begun = false ∨ x.live = 0) →
    s.MayIssue gid g [] [] →
    ∃ n h m, exec (.mfork a) s = .next n ∧
      s.Issued { n with teams := s.teams } gid g h (.seq g.team q) (0x10 + q) a.d.toNat m [] g.seed.2.rng ∧
      s.BytesKept n (s.coreOf g) ∧
      n.teams = aset s.teams g.team { t with units := aset t.units q { u with
        stream := some
          { pc := targetOf g a.off, forker := gid, seqNo := m, rng := g.seed.1, origin := g.origin
            supervisor := g.supervisor }
        forks := u.forks.filter (· ≠ gid) } }) ∧
  (∀ (a : TArgs) (s : State) (gid : Nat) (g : Group) (t : Team), s.Acts gid g → aget s.teams g.team = some t →
    (∀ st, (agetD t.units (s.unitOf g) {}).stream = some st → st.running = false ∧
      ∀ f ∈ (s.engine (.seq g.team (s.unitOf g))).fails, f.seqNo = st.seqNo → f.delivered = true ∨ f.trap = none) →
    ∃ h, exec (.mjoin a) s = .next { s with groups := aset s.groups gid h } ∧ g.CompletedAt h s.clock ∧ g.Passed h)

/-- 07 R220: `NBARA` and `MBAR.arr` arrive at a numbered barrier of the team; the last of the expected arrivals changes the phase.
`NBARW` and `MBAR.wait` pass when the phase differs from the parity that they name. `NBARA` with another count than the phase
expects is `BARRIER_FAULT` with status 2. -/
def Claim.NumberedBarriers : Prop :=
  ∀ (a : TArgs) (s : State) (k : Nat) (t : Team),
    let b := t.nbar a.b.toNat
    let n := a.op.toNat
    let b' : NBar := if b.arrived + 1 = n then { expected := 0, arrived := 0, phase := !b.phase }
      else { b with expected := n, arrived := b.arrived + 1 }
    let t' := { t with nbars := aset t.nbars a.b.toNat b' }
    aget s.teams k = some t →
    (∀ (gid : Nat) (g : Group), g.team = k → s.Acts gid g →
      (s.unsettled gid g = false →
        (b.expected = 0 ∨ b.expected = n →
          ∃ h, exec (.nbara a) s = .next { s with groups := aset s.groups gid h, teams := aset s.teams k t' } ∧
            g.CompletedAt h s.clock ∧ g.Passed h) ∧
        (b.expected ≠ 0 → b.expected ≠ n →
          exec (.nbara a) s = .next (s.trap gid g.endChain { code := 0x10, status := 2, s59 := a.b.toNat }))) ∧
      (b.phase ≠ a.op.getLsbD 0 →
        ∃ h, exec (.nbarw a) s = .next { s with groups := aset s.groups gid h } ∧ g.CompletedAt h s.clock ∧ g.Passed h)) ∧
    (∀ (q : Nat) (u : MUnit) (st : Stream), s.Streams k q t u st →
      (b.expected = 0 ∨ b.expected = n →
        exec (.mbarArr a) s = .next (s.withUnit k t' q { u with stream := some (Stream.past st s.clock) })) ∧
      (b.phase ≠ a.op.getLsbD 0 →
        exec (.mbarWait a) s = .next (s.withUnit k t q { u with stream := some (Stream.past st s.clock) })) ∧
      (b.phase = a.op.getLsbD 0 → st.waiting = false →
        exec (.mbarWait a) s = .next (s.withUnit k t q { u with stream := some { st with waiting := true } })))

/-- 07 R230, 05 R153: `MEXIT` ends the stream; its handle completes, the forking group gets its flags and its NaN, and planes and
tiles stay. -/
def Claim.StreamEnds : Prop :=
  ∀ (a : TArgs) (s : State) (k q : Nat) (t : Team) (u : MUnit) (st : Stream), s.Streams k q t u st →
    ∃ n, exec (.mexit a) s = .next n ∧
      { n with groups := s.groups, engines := s.engines } = s.withUnit k t q
        { u with stream := some { st.ended with pc := wordMod (st.pc + 1) } } ∧
      s.StreamMerged n st ∧ (∀ j, j ≠ EKey.seq k q → n.engine j = s.engine j) ∧
      (n.engine (.seq k q)).fails = (s.engine (.seq k q)).fails ∧
      (n.engine (.seq k q)).issued = (s.engine (.seq k q)).issued ∧
      ∀ j, j ∈ (n.engine (.seq k q)).active ↔ j ∈ (s.engine (.seq k q)).active ∧ j ≠ st.seqNo

/-- 07 R224: `LDSTAT` reads a map's view and its scales into the shadow plane, and `SWAPS` exchanges the planes. -/
def Claim.Planes : Prop :=
  ∀ (a : TArgs) (s : State) (k q : Nat) (t : Team) (u : MUnit) (st : Stream),
    let m := mapOf (st.recordOf t a.tmap.toNat)
    s.Streams k q t u st →
    (exec (.swaps a) s = .next (s.withUnit k t q
      { u with active := u.shadow, shadow := u.active, stream := some (Stream.past st s.clock) })) ∧
    (s.MapFits t m → matrixTy m.ty = true → t.operandReady m →
      ∃ p : Plane, exec (.ldstat a) s = .next (s.withUnit k t q
          { u with shadow := p, stream := some (Stream.past st s.clock) }) ∧
        p.loaded = true ∧ p.fmt = m.ty ∧ p.map = a.tmap.toNat ∧ p.spoiled = [] ∧
        p.smode = (if m.trans = true ∧ m.smode = 1 then 2 else if m.trans = true ∧ m.smode = 2 then 1 else m.smode) ∧
        ∀ i < 64, ∀ j < 64, p.elems.getD (64 * i + j) 0 = m.viewElem t.scratch i j ∧
          (if p.scales = [] then 127 else p.scales.getD (64 * i + j) 0) = m.viewScale t.scratch i j)

/-- 07 R225 to R227: `MMA` adds the products of a map's view and the active plane to a tile; `MMAD` adds those of the plane and tmW
to one tile, and those of tmX and the plane to another. The stream keeps the flags until its future completes (05 R153). -/
def Claim.Products : Prop :=
  ∀ (a : TArgs) (s : State) (k q : Nat) (t : Team) (u : MUnit) (st : Stream),
    let p := u.active
    let origin := st.origin.extractLsb' 0 22
    let old := fun (d : BitVec 10) => Tile.at (agetD u.tiles d.toNat [])
    let mx := mapOf (st.recordOf t a.tmap.toNat)
    let mw := mapOf (st.recordOf t a.b.toNat)
    let x := mx.viewVal p origin t.scratch
    let w := mw.viewVal p origin t.scratch
    let v := Plane.val p origin
    s.Streams k q t u st → s.MapFits t mx → t.operandReady mx →
    (matrixTy mx.ty = true → mx.viewMode ≠ 2 → (p.loaded = true → p.smode ≠ 1 ∧ combines p.fmt mx.ty = true) →
      let f := fun i j => dot64 origin (Ty.isInt mx.ty) (x i) (fun c => v c j) (old a.d i j)
      ∃ tile bad fl, Tile.Holds tile f ∧ (∀ b, fl.getLsbD b = true ↔ st.fl.getLsbD b = true ∨ someFlag f b) ∧
        exec (.mma a) s = .next (s.withUnit k t q
          { u with tiles := aset u.tiles a.d.toNat tile, spoiled := bad, stream := some { Stream.past st s.clock with fl := fl } })) ∧
    (s.MapFits t mw → t.operandReady mw → a.d ≠ a.a →
      (∀ m ∈ [mw, mx], (m.ty = .e4m3 ∨ m.ty = .e5m2) ∧ m.viewMode ≠ 2) →
      (p.loaded = true → p.smode ≠ 1 ∧ p.smode ≠ 2 ∧ (p.fmt = .e4m3 ∨ p.fmt = .e5m2)) →
      let f := fun i j => dot64 origin false (v i) (w j) (old a.d i j)
      let f' := fun i j => dot64 origin false (x i) (fun c => v c j) (old a.a i j)
      ∃ tile tile' bad fl, Tile.Holds tile f ∧ Tile.Holds tile' f' ∧
        (∀ b, fl.getLsbD b = true ↔ st.fl.getLsbD b = true ∨ someFlag f b ∨ someFlag f' b) ∧
        exec (.mmad a) s = .next (s.withUnit k t q
          { u with
            tiles := aset (aset u.tiles a.d.toNat tile) a.a.toNat tile'
            spoiled := bad
            stream := some { Stream.past st s.clock with fl := fl } }))

/-- 07 R228, 03 R67: `ACLR` clears the tiles of its mask; `ALD` loads a tile from a map, exactly; a BF16 NaN becomes a quiet NaN with the
stream's origin, and a signalling one sets invalid. -/
def Claim.Tiles : Prop :=
  ∀ (a : TArgs) (s : State) (k q : Nat) (t : Team) (u : MUnit) (st : Stream),
    let m := mapOf (st.recordOf t a.tmap.toNat)
    s.Streams k q t u st →
    (∃ tiles bad, exec (.aclr a) s = .next (s.withUnit k t q
        { u with tiles := tiles, spoiled := bad, stream := some (Stream.past st s.clock) }) ∧
      ∀ n, (∀ i j, Tile.at (agetD tiles n []) i j = if a.op.getLsbD n then 0 else Tile.at (agetD u.tiles n []) i j) ∧
        agetD bad n [] = if a.op.getLsbD n then [] else agetD u.spoiled n []) ∧
    (s.MapFits t m → (m.ty = .f32 ∨ m.ty = .bf16) → t.operandReady m →
      let f := fun (i j : Nat) =>
        let x := rawAt t.scratch (m.elemBit i j) m.bits
        let origin := st.origin.extractLsb' 0 22
        if m.ty = .f32 then (x, (0 : Flags))
        else match Fmt.bf16.decode false origin x with
          | .nan neg _ signals => (nan32 neg origin, Flags.when signals Flags.invalid)
          | _ => (x * 2 ^ 16, 0)
      ∃ tile bad fl, exec (.ald a) s = .next (s.withUnit k t q
          { u with tiles := aset u.tiles a.d.toNat tile, spoiled := bad, stream := some { Stream.past st s.clock with fl := fl } }) ∧
        Tile.Holds tile f ∧ (∀ b, fl.getLsbD b = true ↔ st.fl.getLsbD b = true ∨ someFlag f b) ∧
        ∀ n, agetD bad n [] = if n = a.d.toNat then [] else agetD u.spoiled n [])

/-- 07 R229: one chunk of a `DRAIN` or `DRAINQ`: its bytes, before the first the scale bytes, the full bits, the map's largest
magnitude and its first NaN, and the flags, which the stream keeps; the tile stays, and the eighth chunk ends the word. -/
def Claim.Drains : Prop :=
  ∀ (a : TArgs) (quant : Bool) (s : State) (k q : Nat) (t : Team) (u : MUnit) (st : Stream),
    let n := a.tmap.toNat
    let c := st.chunk
    let live := if c = 0 then st.recordOf t n else st.map
    let m := mapOf live
    let tile := agetD u.tiles a.d.toNat []
    let out := drainElem m a.rnd a.ftz quant tile st.rng c
    let val := fun (e : Nat) => Fmt.f32.decode (quant && a.ftz) 0 (Tile.at tile (8 * c + e / 64) (e % 64)).toNat
    let first := (List.range 512).findSome? fun e => (val e).payload?
    let noted := (t.tmap n).orig.getLsbD 31
    let cell := fun (o : Nat) => chunkByte m c (fun i j => (out ((i - 8 * c) * 64 + j)).1) o
    let scales := drainScales m ((tileWords tile).map fun w => Fmt.f32.decode a.ftz 0 w.toNat)
    let scaled := fun (b : Nat) => quant = true ∧ c = 0 ∧ m.sscale ≤ b ∧ b < m.sscale + m.scaleBytes
    s.Streams k q t u st → c < 8 → t.scratch.wf = true → s.MapFits t m →
    (if quant then scalable m.ty = true ∧ m.smode ≠ 0 else m.ty = .f32 ∨ m.ty = .bf16) →
    ∃ r t', exec (if quant then .drainq a else .drain a) s = .next r ∧
      r = { s with groups := r.groups, teams := aset s.teams k t' } ∧
      (∀ b, readByte t'.scratch b =
        ((if m.sbase ≤ b ∧ b < m.sbase + m.tileBytes then cell (b - m.sbase) else none).getD
          (if scaled b then BitVec.ofNat 8 (scales.getD (b - m.sscale) 0) else readByte t.scratch b))) ∧
      (∀ z, z ∈ t'.full ↔ z ∈ t.full ∨ (∃ o < m.tileBytes, (cell o).isSome = true ∧ (m.sbase + o) / 16 = z) ∨
        ∃ b, scaled b ∧ b / 16 = z) ∧
      { t' with scratch := t.scratch, full := t.full, spoiled := t.spoiled, tmaps := t.tmaps, units := t.units } = t ∧
      (∀ z, z ≠ n → t'.tmap z = t.tmap z) ∧ (t'.tmap n).words = (t.tmap n).words ∧
      (t'.tmap n).amax = ((maxMag ((List.range 512).map fun e =>
        Fmt.f32.decode false 0 (Tile.at tile (8 * c + e / 64) (e % 64)).toNat)).elim (t.tmap n).amax
          fun v => if (t.tmap n).amax.toNat < v then BitVec.ofNat 32 v else (t.tmap n).amax) ∧
      (t'.tmap n).orig = ((if noted then none else first).elim (t.tmap n).orig fun v => BitVec.ofNat 32 (2 ^ 31 + v.toNat)) ∧
      (∃ st', t'.units = aset t.units q { u with stream := some st' } ∧
        st'.rng = Nat.repeat (rsNext a.rnd) 512 st.rng ∧
        (∀ b, st'.fl.getLsbD b = true ↔ st.fl.getLsbD b = true ∨ ∃ e < 512, (out e).2.getLsbD b = true) ∧
        st'.nan = ((if noted then first else none).orElse fun _ => st.nan) ∧ st'.map = live ∧
        let kept := { st' with rng := st.rng, fl := st.fl, nan := st.nan, map := st.map }
        if c = 7 then kept = Stream.past st s.clock else { kept with chunk := c } = st ∧ st'.chunk = c + 1) ∧
      ∀ j x, aget s.groups j = some x → ∃ y, aget r.groups j = some y ∧
        { y with parks := x.parks, save := x.save, begun := x.begun } = x ∧ (x.team ≠ k → y = x) ∧
        (x.team = k → (∀ p, p ∈ y.parks ↔ p ∈ x.parks ∧ ∀ z, p.on = .granule z → z ∉ t'.full) ∧
          ∀ v, x.save = some v → ∃ v', y.save = some v' ∧ { v' with parks := v.parks } = v ∧
            ∀ p, p ∈ v'.parks ↔ p ∈ v.parks ∧ ∀ z, p.on = .granule z → z ∉ t'.full)

/-! ### Barriers of teams and gangs, and tasks -/

/-- 07 R231, R232: a first turn of `BAR` arrives, and `BARA` arrives and reports the phase; `BARW` passes in another phase than its
operand names, and a `BAR` that has arrived passes in another phase than it arrived in. The last arrival changes the phase. -/
def Claim.TeamBarrier : Prop :=
  ∀ (a : SArgs) (s : State) (gid : Nat) (g : Group) (t : Team),
    let last := s.liveGroups g.team ≤ t.barArrived + 1
    let t' := { t with barArrived := if last then 0 else t.barArrived + 1, barPhase := xor t.barPhase (decide last) }
    s.Acts gid g → aget s.teams g.team = some t →
    (g.live = g.atIssue → s.unsettled gid g = false →
      (g.bar = none → exec (.bar a) s = .next { s with
        groups := aset s.groups gid { g.begin s.clock with bar := some t.barPhase }
        teams := aset s.teams g.team t' }) ∧
      (g.Free [] [.s a.d.toNat] →
        ∃ h, exec (.bara a) s = .next { s with groups := aset s.groups gid h, teams := aset s.teams g.team t' } ∧
          g.CompletedAt h s.clock ∧ g.WroteScalar h a.d.toNat (if t.barPhase then 1 else 0))) ∧
    (∀ p, g.bar = some p → p ≠ t.barPhase →
      ∃ h, exec (.bar a) s = .next { s with groups := aset s.groups gid h } ∧ g.CompletedAt h s.clock ∧
        g.Plain { h with bar := g.bar } ∧ h.bar = none ∧ g.SameRegisters h) ∧
    (g.Free (readsS [a.a.toNat]) [] → t.barPhase ≠ (g.s a.a.toNat).getLsbD 0 →
      ∃ h, exec (.barw a) s = .next { s with groups := aset s.groups gid h } ∧ g.CompletedAt h s.clock ∧ g.Passed h)

/-- 07 R231, R233: a first turn of `GBAR` arrives for its team at a level that agrees with the phase's, as a release; the arrival
that leaves no team short changes the phase; a `GBAR` that has arrived passes in another phase than it arrived in. -/
def Claim.GangBarrier : Prop :=
  ∀ (a : SArgs) (s : State) (gid : Nat) (g : Group) (t : Team) (w : Gang),
    let level := a.imm.toNat % 16
    let core := s.coreOf g
    s.Acts gid g → aget s.teams g.team = some t → aget s.gangs t.gang = some w → s.CacheSound core →
    (g.gbar = none → g.live = g.atIssue → ¬(level = 3 ∧ w.rec_.place = true) →
      (w.gbarLevel = none ∨ w.gbarLevel = some level) → s.unsettled gid g = false →
      let teams1 := aset s.teams g.team { t with gbarArrived := t.gbarArrived + 1 }
      ∃ n, exec (.gbar a) s = .next n ∧
        aget n.groups gid = some { g.begin s.clock with gbar := some w.gbarPhase } ∧
        s.BytesKept n core ∧ (∀ line l, aget n.l1 (core, line) = some l → l.dirty = 0) ∧
        ∀ all : Bool, (all = true ↔ ∀ e ∈ teams1, e.2.gang = t.gang → s.liveGroups e.1 ≠ 0 →
            s.liveGroups e.1 ≤ e.2.gbarArrived) →
          s.liveGroups g.team ≠ 0 →
          (all = false → n.teams = teams1 ∧ n.gangs = aset s.gangs t.gang { w with gbarLevel := some level }) ∧
          (all = true → n.gangs = aset s.gangs t.gang { w with gbarLevel := none, gbarPhase := !w.gbarPhase } ∧
            n.teams = teams1.map fun e => if e.2.gang = t.gang then (e.1, { e.2 with gbarArrived := 0 }) else e)) ∧
    (∀ p, g.gbar = some p → p ≠ w.gbarPhase →
      ∃ n h, exec (.gbar a) s = .next n ∧ s.OnlyGroup n gid h ∧ g.CompletedAt h s.clock ∧
        g.Plain { h with gbar := g.gbar } ∧ h.gbar = none ∧ g.SameRegisters h ∧
        (∀ line l, aget n.l1 (core, line) = some l → l.valid = l.dirty) ∧ s.BytesKept n core)

/-- 07 R235, 14 R365 to R368: `SPAWN` of a well-formed record into a queue of its context that admits it and has room writes the
record's address into the ring and notifies the queue. -/
def Claim.Spawns : Prop :=
  ∀ (a : SArgs) (s : State) (gid : Nat) (g : Group) (x : Xlat),
    let core := s.coreOf g
    let va := (g.s a.a.toNat).toNat % 2 ^ 57
    let r := recordOf (s.blockOf g x)
    let q := s.queue r.queue
    let at_ := q.entryAt q.tail.toNat
    s.Acts gid g → g.Free (readsS [a.a.toNat]) [] → va % 64 = 0 → s.unsettled gid g = false →
    s.BlockRead g va x → r.cause (s.ctxOf g) = none → q.enabled = true → q.spawn = true →
    r.queue ∈ (s.ctx (s.ctxOf g)).queues → q.count < 2 ^ q.logSize → s.Sound core (atLocal at_) 8 true →
    ∃ t h, exec (.spawn a) s = .next t ∧ s.OnlyGroup t gid h ∧ g.CompletedAt h s.clock ∧
      g.Plain { h with scmDirty := g.scmDirty, persists := g.persists, lost := g.lost } ∧ g.SameRegisters h ∧
      t.queues = aset s.queues r.queue { q with
        tail := q.tail + 1
        eligible := true
        refused := false
        notified := if q.eligible then q.notified else s.now.toNat
        times := aset q.times q.tail.toNat s.now.toNat } ∧
      (∀ k < 8, readByte t.mem (at_ + k) = (leBytes 8 va).getD k 0) ∧
      ∀ b, b < at_ ∨ at_ + 8 ≤ b → t.seen core b = s.seen core b ∧ s.HomeKept t core b

/-- 07 R236 to R238: `RETIRE` ends every live lane of its group; `HANDOFF` does so after it has fixed the gang's successor and given
its team the block that starts it. That the successor is the record as the `HANDOFF` that fixed it read it is the model's choice (log
30). -/
def Claim.RetireAndHandoff : Prop :=
  ∀ (s : State) (gid : Nat) (g : Group) (t : Team) (w : Gang),
    let ended := fun (n : State) (u : Team) (v : Gang) => ∃ h, aget n.groups gid = some h ∧ h.live = 0 ∧ g.CompletedAt h s.clock ∧
      g.SameScalars h ∧ g.SameVectors h ∧ g.SameMasks h ∧ (∀ k, k ≠ gid → aget n.groups k = aget s.groups k) ∧
      n.ctxs = s.ctxs ∧ n.engines = s.engines ∧
      (∃ u', aget n.teams g.team = some u' ∧
        { u' with barArrived := u.barArrived, barPhase := u.barPhase, gbarArrived := u.gbarArrived } = u) ∧
      ∃ v', aget n.gangs t.gang = some v' ∧ { v' with gbarPhase := v.gbarPhase, gbarLevel := v.gbarLevel } = v
    s.Acts gid g → aget s.teams g.team = some t → aget s.gangs t.gang = some w → s.futuresOut gid = false →
    s.owed gid = none → (∀ p ∈ g.pend, ∃ id, p.by_ = .log id) →
    (∀ a : SArgs, ∃ n, exec (.retire a) s = .next n ∧ ended n t w) ∧
    ∀ (a : SArgs) (x y : Xlat),
      let va := (g.s a.a.toNat).toNat % 2 ^ 57
      let vb := (g.s a.b.toNat).toNat % 2 ^ 57
      let new := recordOf (s.blockOf g x)
      let old := w.rec_
      g.Free (readsS [a.a.toNat, a.b.toNat]) [] → g.live = g.atIssue → va % 64 = 0 → vb % 64 = 0 →
      s.acquiring gid = false → s.logsPage gid [va, vb] = false → s.BlockRead g va x → s.BlockRead g vb y → new.cause w.ctx = none →
      new.groups = old.groups → new.teams = old.teams → new.place = old.place → new.window ≤ old.window →
      new.stack ≤ old.stack → new.scratch ≤ old.scratch → new.acc ≤ old.acc →
      (∀ f, w.successor = some f → f.1 = va) → leValue (s.blockOf g y) / 2 ^ 409 = 0 →
      ∃ n, exec (.handoff a) s = .next n ∧
        ended n { t with starter := some (s.blockOf g y) }
          { w with successor := some (w.successor.getD (va, new)) } ∧ s.BytesKept n (s.coreOf g)

/-! ### Images -/

/-- 07 R241, R242; 16 R398: `SNAP` of the last step starts an image in the slot at the cursor, or returns the handle of the image
that the ring holds; `SNAPQ` reads the state of an image, or the last complete step. -/
def Claim.Images : Prop :=
  (∀ (a : TArgs) (s : State) (gid : Nat) (g : Group),
    let n := s.snap
    let step := g.s a.a.toNat
    let k := (s.engine .snap).issued + 1
    let head := n.base + 64 * n.cursor
    s.Acts gid g → s.CacheSound (s.coreOf g) → s.MayIssue gid g (readsS [a.a.toNat]) [] →
    step = (s.ctx (s.ctxOf g)).step - 1 → n.serves (s.ctxOf g) = true → n.validRegions ≠ [] →
    (n.slotOf step (· != .empty) = none → n.forming = none → (∀ q < n.nslots, (n.slot q).st ≠ .forming) →
      (∀ j < 16, inFirmware (head + j) = false) →
      ∃ t h, exec (.snap a) s = .next t ∧ s.Issued t gid g h .snap 0x20 a.d.toNat k [] ∧ g.CompletedAt h s.clock ∧
        t.snap = { n with
          cursor := (n.cursor + 1) % max n.nslots 1
          forming := some { slot := n.cursor, step := step, seqNo := k, gid := gid }
          slots := aset n.slots n.cursor { st := .forming, step := step, seqNo := some k } } ∧
        (∀ j < 16, readByte t.mem (head + j) = (leBytes 8 step.toNat ++ leBytes 8 1).getD j 0) ∧
        ∀ b, b < head ∨ head + 16 ≤ b → t.seen (s.coreOf g) b = s.seen (s.coreOf g) b ∧ s.HomeKept t (s.coreOf g) b) ∧
    (∀ q m, n.slotOf step (· != .empty) = some q → (n.slot q).seqNo = some m →
      ∃ h, exec (.snap a) s = .next { s with groups := aset s.groups gid h } ∧ g.CompletedAt h s.clock ∧
        g.Plain { h with handles := g.handles } ∧ g.SameRegisters h ∧
        ∀ r, h.h r = if r = a.d.toNat then mkHandle 0x20 m else g.h r)) ∧
  (∀ (a : SArgs) (s : State) (gid : Nat) (g : Group),
    let n := s.snap
    let ctx := s.ctxOf g
    let step := g.s a.a.toNat
    let last := a.imm.getLsbD 0
    let done := fun (q : Nat) => q < n.nslots ∧ ((n.slot q).st = .complete ∨ (n.slot q).st = .striped)
    s.Acts gid g → s.CacheSound (s.coreOf g) → g.Free (if last then [] else readsS [a.a.toNat]) [.s a.d.toNat] →
    ∃ t h v, exec (.snapq a) s = .next t ∧ s.OnlyGroup t gid h ∧ g.CompletedAt h s.clock ∧
      g.WroteScalar h a.d.toNat v ∧ s.BytesKept t (s.coreOf g) ∧
      (last = false → v = if n.serves ctx then
          ((n.slotOf step (· != .empty)).elim 0 fun q => match (n.slot q).st with
            | .empty => 0 | .forming => 1 | .complete => 2 | .striped => 3) else 0) ∧
      (last = true → n.serves ctx = true → (∃ q, done q) →
        (∃ q, done q ∧ v = (n.slot q).step) ∧ ∀ q, done q → (n.slot q).step.toNat ≤ v.toNat) ∧
      (last = true → (n.serves ctx = false ∨ ∀ q, ¬done q) → v = 0xFFFFFFFFFFFFFFFF))

/-- 07 R243, R244; 16 R404, R408: `STRIPE` and `RBLD` start their work in the snapshot engine that serves the context; a `STRIPE`
without such an engine, and an `RBLD` at a survivor without the image, complete at once with status 12. Status 12 of a `STRIPE` that
the configuration does not serve is the model's choice (log 48). -/
def Claim.StripeAndRebuild : Prop :=
  ∀ (a : TArgs) (s : State) (gid : Nat) (g : Group),
    let n := s.snap
    let core := s.coreOf g
    let k := (s.engine .snap).issued + 1
    let item := fun (kind : WorkKind) (step : Word64) => ({ kind := kind, seqNo := k, gid := gid, step := step } : SnapWork)
    let fault := fun (va : Nat) (step : Word64) =>
      ({ code := 0x14, status := 12, lanes := 0xFFFFFFFF, s58 := va, s59 := step.toNat
         s61 := (mkHandle 0x20 k).toNat } : TrapInfo)
    let refused := fun (t : State) (h : Group) (va : Nat) (step : Word64) =>
      (t.engine .snap).complete k = true ∧
      (t.engine .snap).fails = (s.engine .snap).fails ++
        [{ seqNo := k, status := 12, gid := gid, trap := some (fault va step) }] ∧
      s.OnlyGroup { t with engines := s.engines } gid h ∧ g.Plain { h with handles := g.handles } ∧ g.SameRegisters h ∧
      (∀ r, h.h r = if r = a.d.toNat then mkHandle 0x20 k else g.h r) ∧ t.snap = n ∧ s.BytesKept t core
    s.Acts gid g → s.MayIssue gid g (readsS [a.a.toNat]) [] →
    (n.serves (s.ctxOf g) = true →
      ∃ t h, exec (.stripe a) s = .next t ∧ s.Issued t gid g h .snap 0x20 a.d.toNat k [] ∧ g.CompletedAt h s.clock ∧
        t.snap = { n with work := n.work ++ [item .stripe (g.s a.a.toNat)] } ∧ s.BytesKept t core) ∧
    (n.serves (s.ctxOf g) = false → ∃ t h, exec (.stripe a) s = .next t ∧ refused t h 0 (g.s a.a.toNat)) ∧
    (∀ B : Nat → Xlat,
      let va := (g.s a.a.toNat).toNat
      let step := s.wordOf g B 1
      let p := field (s.wordOf g B 0).toNat 0 6
      let q := field (s.wordOf g B 0).toNat 8 6
      g.supervisor = true → va % 64 = 0 → s.logsPage gid [va] = false → s.WordsMapped g va 8 B →
      (s.wordOf g B 0).toNat = p + q * 256 → (∀ j, 2 ≤ j → j < 8 → s.wordOf g B j = 0) → p ≠ q → s.isMember p = true →
      s.isMember q = true → s.isEndpoint q = false → s.own ≠ p → n.serves (s.ctxOf g) = true →
      (s.own = q → n.member n.self = some q → (∀ j < 4096, inFirmware (n.base + j) = false) →
        ¬((n.slot 0).st ≠ .empty ∧ (n.slot 0).step = step) → (∃ u < n.u, 0 < n.expected false u) →
        ∃ t h, exec (.rbld a) s = .next t ∧ s.Issued t gid g h .snap 0x20 a.d.toNat k [] ∧ t.snap.cursor = 1 ∧
          (∀ j, j ≠ 0 → j < n.nslots → t.snap.slot j = {}) ∧
          (0 < n.nslots → t.snap.slot 0 = { st := .forming, step := step }) ∧
          t.snap.work = n.work ++ [item (.receive p) step]) ∧
      (s.own ≠ q → (∃ j < n.n, n.member j = some p) →
        ((n.slotOf step fun x => x == .complete || x == .striped).isSome = true →
          ∃ t h, exec (.rbld a) s = .next t ∧ s.Issued t gid g h .snap 0x20 a.d.toNat k [] ∧
            t.snap = { n with work := n.work ++ [item (.survive p q) step] } ∧ s.BytesKept t core) ∧
        (n.slotOf step (fun x => x == .complete || x == .striped) = none →
          ∃ t h, exec (.rbld a) s = .next t ∧ refused t h va step)))

/-! ### Traps and system words -/

/-- 07 R246, 04 R95, 13 R356: in user mode `TRAP` and a word that is no instruction enter the trap, `TRAP` with the next word as its
resume word; in supervisor mode the trap is nested, the gang stops, and an event names it (13 R359). A word of a chain member's form in
the lanes of the open chain undoes that chain (02 R34). That a word without the form of a member ends the chain before its trap, and
that an illegal word's record names no lane, is the model's choice (log 10, log 16). -/
def Claim.TrapEntry : Prop :=
  (∀ (i : Instr) (s : State) (gid : Nat) (g : Group) (t : TrapInfo) (resume : WordIndex),
    let ctx := s.ctxOf g
    (∃ a : SArgs, i = .trap a ∧ resume = wordMod (g.issue + 1) ∧
        t = { code := 0x16, lanes := g.atIssue, s59 := a.imm.toNat }) ∨
      (∃ (w : Word64) (c : Cause), i = .illegalInstr w c ∧ (memberForm w && g.continues) = false ∧ resume = g.issue ∧
        t = { code := 0x01, status := c.code, s59 := w.toNat }) →
    s.Acts gid g →
    (g.supervisor = false →
      ∃ h, exec i s = .next { s with groups := aset s.groups gid h } ∧ g.CompletedAt h s.clock ∧
        g.Entered h t resume ctx (s.ctx ctx).gen (wordMod (s.ctx ctx).vector.toNat)) ∧
    (g.supervisor = true → ∀ w, aget s.gangs (s.team g.team).gang = some w →
      exec i s = .next { s with
        groups := aset s.groups gid { g.endChain with hold := .stopped, lastIssue := s.clock }
        gangs := aset s.gangs (s.team g.team).gang { w with stopped := true }
        events := s.events ++ [{ kind := .trapNested, args := [gid, t.code, (g.s 56).toNat, (g.s 57).toNat, (g.s 58).toNat] }] })) ∧
  ∀ (w : Word64) (c : Cause) (s : State) (gid : Nat) (g : Group), s.Acts gid g → memberForm w = true → g.continues = true →
    exec (.illegalInstr w c) s = .next (s.trap gid g { code := 0x01, status := c.code, s59 := w.toNat }) ∧
    (g.supervisor = false →
      ∃ h, exec (.illegalInstr w c) s = .next { s with groups := aset s.groups gid h } ∧ g.CompletedAt h s.clock ∧ g.Unwound h)

/-- 04 R94: a word that is no instruction ends its matrix stream with status 9, and the record names the cause, the word's index and
the handle. -/
def Claim.StreamIllegal : Prop :=
  ∀ (w : Word64) (c : Cause) (s : State) (k q : Nat) (t : Team) (u : MUnit) (st : Stream), s.Streams k q t u st →
    let record : TrapInfo := { code := 0x01, status := c.code, s59 := w.toNat, s60 := st.pc
                               s61 := (mkHandle (0x10 + q) st.seqNo).toNat }
    ∃ n, exec (.illegalInstr w c) s = .next n ∧
      { n with groups := s.groups, engines := s.engines } = s.withUnit k t q
        { u with stream := some st.ended } ∧
      s.StreamMerged n st ∧
      (n.engine (.seq k q)).fails = (s.engine (.seq k q)).fails ++ 
        [{ seqNo := st.seqNo, status := 9, gid := st.forker, trap := some record }] ∧
      st.seqNo ∉ (n.engine (.seq k q)).active

/-- 02 R33: a vector member, or a slot of a paired word, that names a latch without a result of its chain is `ILLEGAL_LATCH` at issue
and has no other effect. In user mode an open chain that it continues is undone (02 R34). -/
def Obligations.LatchTraps : Prop :=
  ∀ (i : Instr) (ks : List Nat) (s : State) (gid : Nat) (g : Group),
    (∃ F, vecForm i = some F ∧ ks = F.latches) ∨ (∃ a, i = .iaddc a ∧ ks = (carryForm a).latches) ∨
      (∃ p F G, i = .pairedWord p ∧ vecForm (Slot.alone p.slotA) = some F ∧ vecForm (Slot.alone p.slotB) = some G ∧
        ks = F.latches ++ G.latches) →
    s.Acts gid g → ¬g.Latched ks →
    ∃ b ∈ ks, g.chainFor.chain.vecs ≤ b ∧
      exec i s = .next (s.trap gid (if g.continues then g else g.endChain)
        { code := 0x02, s59 := s.word.toNat, s60 := b }) ∧
      (g.continues = true → g.supervisor = false →
        ∃ t h, exec i s = .next t ∧ aget t.groups gid = some h ∧ g.Unwound h)

/-- 02 R46: a word that names a pending register waits: nothing changes but that it is tried again. -/
def Claim.PendingWaits : Prop :=
  (∀ (i : Instr) (F : VecForm) (s : State) (gid : Nat) (g : Group), vecForm i = some F → s.Acts gid g → g.Latched F.latches →
    g.anyPending (refsOf (F.reads g) ++ F.dst.writes) = true → exec i s = .next s.block) ∧
  (∀ (i : Instr) (F : OnceForm Word64) (s : State) (gid : Nat) (g : Group), scalarForm i = some F → s.Acts gid g →
    g.anyPending (refsOf (F.reads g) ++ [.s F.d]) = true → exec i s = .next s.block) ∧
  (∀ (a : MArgs) (s : State) (gid : Nat) (g : Group), s.Acts gid g →
    (g.anyPending (addrRegs a ++ vrange a.d.toNat (dataRegs a.width)) = true → exec (.ld a) s = .next s.block) ∧
    (g.anyPending (vrange a.d.toNat (dataRegs a.width) ++ addrRegs a) = true → exec (.st a) s = .next s.block))

/-- 13 R358: `ERET` in supervisor mode restores the save set, with the lanes saved at the resume word at the word index that stands in
`s56`; a lane saved as parked on an operation that is not complete parks again. -/
def Claim.TrapReturn : Prop :=
  ∀ (a : SArgs) (s : State) (gid : Nat) (g : Group) (sv : SaveSet), s.Acts gid g → g.supervisor = true → g.save = some sv →
    g.Free (readsS [56]) ((List.range 8).map fun k => .s (56 + k)) →
    (∀ p ∈ sv.parks, g.live.getLsbD p.lane = true ∧ ∃ x k, p.on = .future x ∧ s.codeKey gid g (handleCode x) = some k ∧
      (s.engine k).complete (handleSeq x) = false) →
    ∃ h, exec (.eret a) s = .next { s with groups := aset s.groups gid h } ∧ g.CompletedAt h s.clock ∧ g.Left h sv

/-- 04 R95, 07 R245: in user mode a supervisor's word is `ILLEGAL_INSTR` with cause 8, before anything else of it. -/
def Claim.Privilege : Prop :=
  ∀ (i : Instr) (s : State) (gid : Nat) (g : Group),
    (∃ a : SArgs, i = .eret a ∨ i = .xlate a ∨ i = .preempt a ∨ i = .pwr a ∨ i = .mctw a ∨
        (a.imm.getLsbD 15 = true ∧ i = .event a)) ∨ (∃ a : TArgs, i = .tlbinv a ∨ i = .rbld a) →
    s.Acts gid g → g.supervisor = false →
    exec i s = .next (s.trap gid g.endChain { code := 0x01, status := 8, s59 := s.word.toNat })

/-- 06 R154, R156, R162, 13 R346, R357: what a word with an address or an offset in each lane raises before it has any effect: `POISON` of
the marks that its registers carry, `MISALIGNED`, `SCRATCH_BOUND`; and a lane of a global access that does not translate asks for its page
and waits. -/
def Claim.AccessTraps : Prop :=
  (∀ (i : Instr) (F : LaneForm) (s : State) (gid : Nat) (g : Group), laneForm i = some F → s.Acts gid g →
    s.MayAccess gid g (F.reads g) F.writes F.rel F.write → (F.sc = true → s.logs gid = false ∧ s.writesOut gid = false) →
    let mis := (lanesOf g.active).filter fun l => decide (F.addr g l % F.bytes ≠ 0)
    let past := (lanesOf g.active).filter fun l => decide (s.scratchSize g < F.addr g l + F.bytes)
    (∀ l ls, mis = l :: ls →
      exec i s = .next (s.trap gid g.endChain { code := 0x05, lanes := maskOf fun k => mis.contains k, s58 := F.addr g l })) ∧
    (∀ l ls, F.scratch = true → mis = [] → past = l :: ls →
      exec i s = .next (s.trap gid g.endChain
        { code := 0x06, lanes := maskOf fun k => past.contains k, s58 := F.addr g l, s59 := s.scratchSize g })) ∧
    (∀ l st level, F.scratch = false → F.logged = false → g.Only l → mis = [] → s.logsPage gid [F.addr g l] = false →
      let va := F.addr g l
      s.Faults (s.coreOf g) (s.ctxOf g) g.supervisor (if F.kind = 0 then .read else .write) va st level →
      s.pageReqs.length < 1024 →
      ∃ reqs, exec i s = .next { s with
        memReqs := reqs
        groups := aset s.groups gid { g.begin s.clock with
          hold := .page (va % 2 ^ 57) F.kind (s.walk (s.ctxOf g) (va % 2 ^ 57)).last (maskOf (· == l)) g.issue }
        pageReqs := if s.requested (s.ctxOf g) (va % 2 ^ 57 / 4096) then s.pageReqs else s.pageReqs ++
          [{ ctx := s.ctxOf g, gen := (s.ctx (s.ctxOf g)).gen.toNat, vpage := va % 2 ^ 57 / 4096, kind := F.kind, status := st
             level := level, who := gid }] })) ∧
  ∀ (i : Instr) (s : State) (gid : Nat) (g : Group) (gt : Group) (reads : List (RegRef × Word32)) (writes : List RegRef),
    (∃ F, laneForm i = some F ∧ reads = F.reads g ∧ writes = F.writes ∧ gt = g.endChain ∧ s.acquiring gid = false ∧
        (F.rel = true → g.lost = []) ∧ ((F.rel || F.sc) = true → s.logs gid = false ∧ s.writesOut gid = false)) ∨
      (∃ F, vecForm i = some F ∧ tyAdmitted i ∧ g.Latched F.latches ∧ reads = F.reads g ∧ writes = F.dst.writes ∧
        gt = if g.continues then g else g.endChain) →
    s.Acts gid g → g.anyPending (refsOf reads ++ writes) = false →
    let hits := g.marks.filter fun k => decide (k.kind = .poison) && reads.any fun r => g.markHit k r.1 r.2
    hits ≠ [] →
    ∃ k ∈ hits, (∀ x ∈ hits, k.lane ≤ x.lane) ∧
      exec i s = .next (s.trap gid gt
        { code := 0x09, status := if k.handle = 0 then 0 else 5
          lanes := maskOf fun l => hits.any fun x => !x.scalar && x.lane == l
          s58 := k.addr, s59 := k.aux, s60 := k.peer, s61 := k.handle })

/-- 06 R154, R162, 07 R206, R213 to R216: what a copy instruction raises at its issue: `TMAP_FAULT` with the lowest status that its map
fails, `MISALIGNED` and `SCRATCH_BOUND`. That a map's own traps come before those of the other operands, and that an empty range past the
allocation traps, is the model's choice (log 63). -/
def Claim.CopyTraps : Prop :=
  ∀ (a : TArgs) (s : State) (gid : Nat) (g : Group), s.Acts gid g →
    let S := fun (n : BitVec 10) (k : Nat) => (g.s (n.toNat + k)).toNat
    let n := a.tmap.toNat
    let m := mapOf ((s.team g.team).tmap n).words
    let traps := fun (i : Instr) (t : TrapInfo) => exec i s = .next (s.trap gid g.endChain { t with lanes := allLanes })
    let past := fun (off : Nat) => ({ code := 0x06, s58 := off, s59 := s.scratchSize g } : TrapInfo)
    (∀ (i : Instr) (u : MapUse) (scalars : List Nat),
      (i = .acopy a ∧ u = .copy (S a.b 0 % 2 ^ 32) (S a.b 0 / 2 ^ 32) ∧ scalars = [a.b.toNat]) ∨
        (i = .areduce a ∧ u = .reduce (S a.b 0 % 2 ^ 32) (S a.b 0 / 2 ^ 32) ∧ scalars = [a.b.toNat]) ∨
        (i = .agather a ∧ u = .gather (S a.b 1) ∧ scalars = [a.b.toNat, a.b.toNat + 1]) →
      s.MayIssue gid g (readsS scalars) [] →
      (∀ st, mapStatus m u = some st → traps i { code := 0x0F, status := st, s59 := n }) ∧
      (∀ off, mapStatus m u = none → mapOver m (s.scratchSize g) = some off → traps i (past off))) ∧
    (s.MayIssue gid g (readsS [a.b.toNat, a.b.toNat + 1]) [] → mapStatus m (.gather (S a.b 1)) = none →
      mapOver m (s.scratchSize g) = none →
      (S a.b 0 % 16 ≠ 0 → traps (.agather a) { code := 0x05, s58 := S a.b 0 }) ∧
      (S a.b 0 % 16 = 0 → s.scratchSize g < S a.b 0 + 4 * m.trows → traps (.agather a) (past (S a.b 0)))) ∧
    (s.MayIssue gid g (readsS [a.a.toNat, a.a.toNat + 1, a.b.toNat]) [] →
      let dst := S a.a 0
      let src := S a.a 1
      let count := S a.b 0
      let toScratch := decide (2 ≤ a.op.toNat % 4)
      let fromScratch := decide (a.op.toNat % 2 = 1)
      (∀ x, [dst, src, count].find? (fun x => decide (x % 16 ≠ 0)) = some x → traps (.acopyr a) { code := 0x05, s58 := x }) ∧
      (dst % 16 = 0 → src % 16 = 0 → count % 16 = 0 →
        (toScratch = true → s.scratchSize g < dst + count → traps (.acopyr a) (past dst)) ∧
        ((toScratch = true → dst + count ≤ s.scratchSize g) → fromScratch = true → s.scratchSize g < src + count →
          traps (.acopyr a) (past src))) ∧
      (∀ x, [dst, src].find? (fun x => decide (x % 16 ≠ 0)) = some x → traps (.afill a) { code := 0x05, s58 := x }) ∧
      (dst % 16 = 0 → src % 16 = 0 → a.op.getLsbD 0 = true → s.scratchSize g < dst + src → traps (.afill a) (past dst)))

/-- 07 R235, R238, 13 Table 13.10: what `SPAWN` and `HANDOFF` raise: `MISALIGNED`, `RES_SHAPE` with the lowest cause of the record,
`SPAWN_REFUSED` where the queue does not take it, and `HANDOFF_SHAPE` with the lowest status. -/
def Claim.TaskTraps : Prop :=
  ∀ (a : SArgs) (s : State) (gid : Nat) (g : Group) (x y : Xlat), s.Acts gid g →
    let va := (g.s a.a.toNat).toNat % 2 ^ 57
    let vb := (g.s a.b.toNat).toNat % 2 ^ 57
    let r := recordOf (s.blockOf g x)
    let q := s.queue r.queue
    let raises := fun (i : Instr) (info : TrapInfo) => ∃ t : State, exec i s = .next (t.trap gid g.endChain { info with lanes := g.atIssue }) ∧
      t.groups = s.groups ∧ t.queues = s.queues ∧ t.gangs = s.gangs ∧ t.teams = s.teams ∧ s.BytesKept t (s.coreOf g)
    (g.Free (readsS [a.a.toNat]) [] →
      (va % 64 ≠ 0 → raises (.spawn a) { code := 0x05, s58 := va }) ∧
      (va % 64 = 0 → s.acquiring gid = false → s.logsPage gid [va] = false → s.BlockRead g va x →
        (∀ c, r.cause (s.ctxOf g) = some c → raises (.spawn a) { code := 0x11, status := c, s58 := va }) ∧
        (r.cause (s.ctxOf g) = none →
          (¬(q.enabled = true ∧ q.spawn = true ∧ r.queue ∈ (s.ctx (s.ctxOf g)).queues) →
            raises (.spawn a) { code := 0x12, status := 1, s58 := va, s59 := r.queue }) ∧
          (q.enabled = true → q.spawn = true → r.queue ∈ (s.ctx (s.ctxOf g)).queues → s.unsettled gid g = false →
            q.count = 2 ^ q.logSize → raises (.spawn a) { code := 0x12, status := 2, s58 := va, s59 := r.queue })))) ∧
    (g.Free (readsS [a.a.toNat, a.b.toNat]) [] →
      (g.live ≠ g.atIssue → raises (.handoff a) { code := 0x10, status := 1 }) ∧
      (g.live = g.atIssue → va % 64 ≠ 0 → raises (.handoff a) { code := 0x05, s58 := va }) ∧
      (g.live = g.atIssue → va % 64 = 0 → vb % 64 ≠ 0 → raises (.handoff a) { code := 0x05, s58 := vb }) ∧
      (g.live = g.atIssue → va % 64 = 0 → vb % 64 = 0 → s.acquiring gid = false → s.logsPage gid [va, vb] = false →
        s.BlockRead g va x → s.BlockRead g vb y →
        let old := s.recOf g
        let fixed := (s.gang (s.team g.team).gang).successor.map Prod.fst
        (∀ c, r.cause (s.ctxOf g) = some c → raises (.handoff a) { code := 0x11, status := c, s58 := va }) ∧
        (r.cause (s.ctxOf g) = none →
          let shape := fun (st : Nat) => raises (.handoff a) { code := 0x13, status := st, s58 := va, s59 := vb }
          let sized := r.groups = old.groups ∧ r.teams = old.teams ∧ r.place = old.place
          let fits := r.window ≤ old.window ∧ r.stack ≤ old.stack ∧ r.scratch ≤ old.scratch ∧ r.acc ≤ old.acc
          let first := fixed = none ∨ fixed = some va
          (r.groups ≠ old.groups → shape 1) ∧
          (r.groups = old.groups → ¬sized → shape 2) ∧
          (sized → ¬fits → shape 3) ∧
          (sized → fits → ¬first → shape 4) ∧
          (sized → fits → first → leValue (s.blockOf g y) / 2 ^ 409 ≠ 0 → shape 5))))

/-- 07 R247, R248, Table 7.16: `EVENT` posts its event after a release. The order of the event's values is the model's choice (log 56).
-/
def Claim.EventAndRegisters : Prop :=
  ∀ (a : SArgs) (s : State) (gid : Nat) (g : Group), s.Acts gid g →
    (a.imm.getLsbD 15 = true → g.supervisor = true) → g.Free (readsS [a.a.toNat]) [] → s.unsettled gid g = false →
      s.userEvents < 1024 → s.CacheSound (s.coreOf g) →
      (∃ t h, exec (.event a) s = .next t ∧ s.OnlyGroup t gid h ∧ g.CompletedAt h s.clock ∧ g.Passed h ∧
        (∃ e, t.events = s.events ++ [e] ∧ e.kind = .user ∧ e.args = [s.ctxOf g, (s.gangOf g).recAddr, (s.team g.team).idx, g.idx,
          a.imm.toNat, (g.s a.a.toNat).toNat]) ∧
        (∀ line l, aget t.l1 (s.coreOf g, line) = some l → l.dirty = 0) ∧ s.BytesKept t (s.coreOf g))

/-- 07 Table 7.16, R248: `RDTIME` reads the time and `PRD` a part register. -/
def Claim.ReadPart : Prop :=
  ∀ (a : SArgs) (s : State) (gid : Nat) (g : Group), s.Acts gid g → g.Free [] [.s a.d.toNat] →
    (∃ h, exec (.rdtime a) s = .next { s with groups := aset s.groups gid h } ∧ g.CompletedAt h s.clock ∧
      g.WroteScalar h a.d.toNat s.now) ∧
    (a.imm.toNat < 6 →
      let core := s.coreOf g
      let v : Word64 := match a.imm.toNat with
        | 0 => (s.ctx (s.ctxOf g)).step
        | 1 => BitVec.ofNat 64 (s.ctxOf g)
        | 2 => (s.ctx (s.ctxOf g)).gen.zeroExtend 64
        | 3 => BitVec.ofNat 64 s.own
        | 4 => BitVec.ofNat 64 (s.quarterOf g + core % 64 * 4 + core / 64 * 256)
        | _ => BitVec.ofNat 64 (4096 * (s.recOf g).scratch)
      ∃ h, exec (.prd a) s = .next { s with groups := aset s.groups gid h } ∧ g.CompletedAt h s.clock ∧
        g.WroteScalar h a.d.toNat v)

/-- 07 R249, 13 R353, R354: `TLBINV` drops the cached translations of its range, raises the context's translation generation, has every
L1 write back what the context's groups stored, and waits for what was translated before; with package scope 5 it is sent to every other
member. -/
def Claim.Invalidations : Prop :=
  ∀ (a : TArgs) (s : State) (gid : Nat) (g : Group),
    let n := a.a.toNat
    let base := (g.s n).toNat
    let len := (g.s (n + 1)).toNat
    let ctx := (g.s a.b.toNat).toNat % 65536
    let own := s.ctxOf g
    let k := (s.engine (.inval own)).issued + 1
    s.Acts gid g → g.supervisor = true → s.CacheSound (s.coreOf g) → (∀ e ∈ s.l1, s.CacheSound e.1.1) →
    s.MayIssue gid g (readsS [n, n + 1, a.b.toNat]) [] → base % 4096 = 0 → len % 4096 = 0 →
    ∃ t h i, exec (.tlbinv a) s = .next t ∧ s.Issued { t with ctxs := s.ctxs } gid g h (.inval own) 0x30 a.d.toNat k [] ∧
      (∀ e, e ∈ t.tlbs ↔ e ∈ s.tlbs ∧
        ¬(e.2.ctx = ctx ∧ (len = 0 ∨ e.2.base < base + len ∧ base < e.2.base + 2 ^ e.2.bits))) ∧
      t.ctxs = aupd s.ctxs ctx (fun c => { c with
        xgen := c.xgen + 1
        invs := if a.op = 5 then invStamp s.own (c.xgen + 1).toNat :: c.invs else c.invs }) ∧
      t.invals = s.invals ++ [i] ∧ i.ctx = ctx ∧ i.gen = (s.ctx ctx).xgen.toNat + 1 ∧ i.issuer = some (own, k, gid) ∧
      (∀ r ∈ s.remotes, (∃ j, r.what.gid? = some j ∧ s.gidIn ctx j = true) ∨ r.what.ctx? = some ctx → r.tag ∈ i.tags) ∧
      (∀ r ∈ s.rowOps, r.ctx = ctx → r.id ∈ i.rows) ∧
      (∀ m ∈ s.mcasts, m.ctx = ctx → m.id ∈ i.casts) ∧
      (a.op ≠ 5 → t.remotes = s.remotes ∧ t.egress = s.egress) ∧
      (a.op = 5 → ∀ p < 64, p ≠ s.own → s.isMember p = true → s.isEndpoint p = false →
        ∃ r ∈ t.remotes, r.peer = p ∧ r.what = .inval own k p ∧ r.tag ∈ i.tags) ∧
      (∀ e ∈ t.l1, e.2.dirty ≠ 0 → s.storedIn ctx e.2.by_ = false) ∧
      ∀ b, readByte t.mem b = readByte s.mem b ∨ ∃ e ∈ s.l1, readByte t.mem b = s.seen e.1.1 b

/-- 07 R250: `XLATE` walks the tables of a context and returns the address and the last entry, or zero and the failure. -/
def Claim.TranslationProbe : Prop :=
  ∀ (a : SArgs) (s : State) (gid : Nat) (g : Group),
    let d := a.d.toNat
    let va := (g.s a.a.toNat).toNat % 2 ^ 57
    let ctx := (g.s a.b.toNat).toNat % 65536
    let r := s.walk ctx va
    let e := r.entry ctx va true
    let st := permStatus true (if a.imm.getLsbD 0 then .write else .read) e.w e.x e.u
    let out : Nat × Word64 := if aget s.ctxs ctx = none then (0, xlateFailed 1 0)
      else if r.status ≠ 0 then (0, xlateFailed r.status r.last)
      else if st ≠ 0 then (0, xlateFailed st r.last) else ((e.xlat va).pa, r.last)
    s.Acts gid g → g.supervisor = true → g.Free (readsS [a.a.toNat, a.b.toNat]) [.s d, .s (d + 1)] → s.Faultless →
    (∀ b ∈ r.reads, s.LineFree (b / 128)) →
    ∃ h reqs, exec (.xlate a) s = .next { s with groups := aset s.groups gid h, memReqs := reqs } ∧ g.CompletedAt h s.clock ∧ g.Plain h ∧
      g.SameVectors h ∧ g.SameMasks h ∧ g.SameFloat h ∧
      ∀ n, h.s n = if n = d + 1 then out.2 else if n = d then BitVec.ofNat 64 out.1 else g.s n

/-- 07 R251, 13 R360: `PREEMPT` of a gang that is not resident writes 1, of its own gang 2; of another it asks the gang to stop and
waits, and writes what became of it when that is known, 1 where the gang has gone or was killed. The name by which a gang is asked for,
and the wait for room in the resume list, are the model's choice (log 53). -/
def Claim.Preemption : Prop :=
  ∀ (a : SArgs) (s : State) (gid : Nat) (g : Group),
    let va := (g.s a.a.toNat).toNat % 2 ^ 57
    let named := s.gangNamed (s.ctxOf g) va
    let own := (s.team g.team).gang
    let writes := fun (v : Nat) =>
      ∃ h, exec (.preempt a) s = .next { s with groups := aset s.groups gid h } ∧ g.CompletedAt h s.clock ∧
        g.WroteScalar { h with preempting := g.preempting } a.d.toNat (BitVec.ofNat 64 v) ∧ h.preempting = none
    s.Acts gid g → g.supervisor = true → g.Free (readsS [a.a.toNat]) [.s a.d.toNat] →
    (g.preempting = none → named = none → writes 1) ∧
    (∀ x, g.preempting = none → named = some (own, x) → writes 2) ∧
    (∀ k v, g.preempting = some (k, some v) → writes v) ∧
    (∀ k, g.preempting = some (k, none) → (∀ x, aget s.gangs k = some x → x.run = .killed) → writes 1) ∧
    (∀ k x, g.preempting = none → named = some (k, x) → k ≠ own → aget s.gangs k = some x →
      x.stopped = false → x.run = .running → x.entering = false → s.resumeRoom = true →
      exec (.preempt a) s = .next { s with
        groups := aset s.groups gid { g.begin s.clock with preempting := some (k, none) }
        gangs := aset s.gangs k { x with run := .stopping } })

/-- 20 R445, Table 20.3: `PWR` reads a power register, and writes the cap, clamped to its range. -/
def Claim.PowerRegisters : Prop :=
  ∀ (a : SArgs) (s : State) (gid : Nat) (g : Group),
    let p := s.power
    let x := (g.s a.a.toNat).toNat
    s.Acts gid g → g.supervisor = true → g.Free (readsS [a.a.toNat]) [.s a.d.toNat] → a.imm.toNat < 6 →
    ∃ h, exec (.pwr a) s = .next { s with
        groups := aset s.groups gid h
        power := if a.imm = 0 then { p with cap := if x < 1200 then 1200 else if 3200 < x then 3200 else x } else p } ∧
      g.CompletedAt h s.clock ∧
      g.WroteScalar h a.d.toNat (BitVec.ofNat 64 (match a.imm.toNat with
        | 0 => p.cap | 1 => p.throttle | 2 => p.power | 3 => p.energy / 1000 | 4 => p.temp | _ => p.coolant))

/-! ### Steps of the Kiosks -/

/-- 06 R184, R185; 12 R333, R334: one step of a chase at the Kiosk of its line, which took the step before, to which the start's core
sent it, or where it arrived translated: the step's field becomes the next pointer, or, at the last step, the value of the lane, with
which the last lane's operation completes. From another Kiosk it goes to the queue of that one, which is a hop, when there is a place. -/
def Claim.ChaseSteps : Prop :=
  ∀ (s : State) (c : Chase) (g : Group) (x : Xlat) (hops : Nat),
    let d := c.steps.getD c.k { mask := 0, off := 0, width := 1 }
    let a := ((BitVec.ofNat 64 c.p &&& d.mask) + d.off.signExtend 64).toNat % 2 ^ 57
    let kiosk := kioskOf (locOf x.pa)
    let v := s.homeValue (locOf x.pa) d.width
    let found := c.arrived = none ∧ a % d.width = 0 ∧ x.kind < 2 ∧
      s.translate (match c.owner with | none => coreTlbs (s.coreOf g) | some o => [.kiosk (o % 16)]) (s.ctxOf g) c.supervisor
        .read a = .ok x s
    s.chases[s.input.index]? = some c → c.away = false → c.heldPage = none → c.origin = none → aget s.groups c.gid = some g →
    s.ownMemory x.pa = true →
    ((found ∧ hops = c.hops + (if c.owner = none then c.resumed.toNat else 0) ∧ hops ≤ c.hopLimit ∧
          (∀ o, c.owner = some o → o = pkgOf x.pa * 16 + kiosk) ∨
        hops = c.hops ∧ s.stale c = false ∧ ∃ y, c.arrived = some y ∧ y.pa = x.pa ∧ y.va % d.width = 0) →
      s.Takes (span (locOf x.pa) d.width) →
      s.mayServe kiosk c.holder { cls := s.svcOf c.gid, since := c.since, agent := c.gid
                                  lines := linesOf (span (locOf x.pa) d.width) } = true →
      (c.k + 1 ≠ c.n →
        ∃ t, exec .chaseStep s = .next t ∧ t.groups = s.groups ∧ t.mem = s.mem ∧ t.engines = s.engines ∧
          t.chases = s.chases.map fun y => if y = c then
            { c with p := v, k := c.k + 1, hops := hops, owner := some (s.own * 16 + kiosk), arrived := none,
                     resumed := false, since := s.clock } else y) ∧
      (c.k + 1 = c.n →
        let rest := s.chases.filter fun y => ¬(y.gid = c.gid ∧ y.seqNo = c.seqNo ∧ y.lane = c.lane ∧ y.origin = none)
        ∃ t h, exec .chaseStep s = .next t ∧ s.GroupTo t c.gid h ∧ t.chases = rest ∧ t.mem = s.mem ∧
          g.PairSet h c.dreg c.lane v ∧ g.SameScalars h ∧ g.SameMasks h ∧ g.SameFloat h ∧
          ((∀ y ∈ rest, y.gid = c.gid → y.seqNo = c.seqNo → y.origin ≠ none) →
            (∀ f ∈ s.laneFails, ¬(f.1 = c.gid ∧ f.2.1 = c.seqNo)) → s.KioskDone t c.gid c.seqNo g h))) ∧
    (∀ o, found → c.owner = some o → o ≠ pkgOf x.pa * 16 + kiosk → c.hops + 1 ≤ c.hopLimit → s.kioskLoad kiosk < 512 →
      exec .chaseStep s = .next { s with chases := s.chases.map fun y => if y = c then
        { c with hops := c.hops + 1, resumed := false, since := s.clock
                 arrived := some { va := a, pa := x.pa, xgen := some (s.ctx (s.ctxOf g)).xgen.toNat } } else y })

/-- 06 R187: one lane of a list operation, whose head and nodes translate here: `KENQ` appends its node, and `KDEQ` takes the
first node, or zero from an empty list. With the last lane the operation completes. -/
def Claim.ListSteps : Prop :=
  ∀ (s : State) (o : ListOp) (g : Group) (hx nx mx : Xlat) (lane node : Nat) (lanes nodes : List Nat),
    let h := locOf hx.pa
    let n := locOf nx.pa
    let m := locOf mx.pa
    let k := kioskOf h
    let ctx := s.ctxOf g
    let first := s.homeValue h 8
    let last := s.homeValue (h + 8) 8
    let apart := fun (a b : Nat) => a + 8 ≤ b ∨ b + 8 ≤ a
    let goesOn := fun (t : State) (y : Group) => s.GroupTo t o.gid y ∧
      (lanes ≠ [] → t.listOps = s.listOps.map fun z => if z = o then
        { o with lanes := lanes, nodes := nodes, kiosk := some k } else z) ∧
      (lanes = [] → t.listOps = (s.listOps.filter fun z => z ≠ o) ∧
        ((∀ f ∈ s.laneFails, ¬(f.1 = o.gid ∧ f.2.1 = o.seqNo)) → s.KioskDone t o.gid o.seqNo g y))
    let wrote := fun (t : State) (ws : List (Nat × Nat)) =>
      (∀ w ∈ ws, t.homeValue w.1 8 = w.2 % 2 ^ 64) ∧
      ∀ b, (∀ w ∈ ws, b < w.1 ∨ w.1 + 8 ≤ b) → readByte t.mem b = readByte s.mem b
    s.listOps[s.input.index]? = some o → o.heldPage = none → aget s.groups o.gid = some g →
    o.lanes = lane :: lanes → o.nodes = node :: nodes →
    s.translate (match o.kiosk with | none => coreTlbs (s.coreOf g) | some k => [.kiosk k]) ctx o.supervisor .write o.head =
      .ok hx s →
    hx.kind < 2 → h % 16 = 0 →
    s.mayServe k [1, o.gid, o.seqNo] { cls := s.svcOf o.gid, since := o.since, agent := o.gid, lines := linesOf (span h 16) } = true →
    (o.enq = true → node % 8 = 0 → s.KioskHit k ctx o.supervisor .write node nx → nx.kind < 2 → s.ownMemory nx.pa = true →
      (h + 16 ≤ n ∨ n + 8 ≤ h) →
      (last = 0 → s.Takes (span h 16 ++ span n 8) →
        ∃ t y, exec .kioskListStep s = .next t ∧ goesOn t y ∧ wrote t [(h, node), (h + 8, node), (n, 0)] ∧
          g.SameVectors y) ∧
      (last ≠ 0 → last % 8 = 0 → s.KioskHit k ctx o.supervisor .write last mx → mx.kind < 2 → s.ownMemory mx.pa = true →
        (h + 16 ≤ m ∨ m + 8 ≤ h) → apart n m → s.Takes (span h 16 ++ span n 8 ++ span m 8) →
        ∃ t y, exec .kioskListStep s = .next t ∧ goesOn t y ∧ wrote t [(h + 8, node), (n, 0), (m, node)] ∧
          g.SameVectors y)) ∧
    (o.enq = false →
      (first = 0 → s.Takes (span h 16) →
        ∃ t y, exec .kioskListStep s = .next t ∧ goesOn t y ∧ wrote t [] ∧ g.PairSet y o.dreg lane 0) ∧
      (first ≠ 0 → first % 8 = 0 → s.KioskHit k ctx o.supervisor .read first nx → nx.kind < 2 → s.ownMemory nx.pa = true →
        (h + 16 ≤ n ∨ n + 8 ≤ h) → s.Takes (span h 16 ++ span n 8) →
        let next := s.homeValue n 8
        ∃ t y, exec .kioskListStep s = .next t ∧ goesOn t y ∧
          wrote t ((h, next) :: if next = 0 then [(h + 8, 0)] else []) ∧ g.PairSet y o.dreg lane first))

/-- 06 R175, R176; 12 R333: a Kiosk serves its next row operation: it writes the new bytes, and the group that issued it receives the
old row in its lanes. -/
def Claim.RowSteps : Prop :=
  ∀ (s : State) (r : RowOp) (gid : Nat) (g : Group),
    let a := locOf r.pa
    let old := s.readHome a r.size
    let out := rowResult r old
    s.nextRow s.input.unit = some r → r.gid = some gid → r.sender = none → r.members = [] → r.op ≤ 3 →
    (∀ c ∈ r.data, c.1 < r.size) → (r.size = 64 ∨ r.size = 128 ∨ r.size = 256 ∨ r.size = 512 ∨ r.size = 1024) →
    (r.data.map Prod.fst).Nodup → (r.op < 2 → ∀ c ∈ r.data, ∀ b < 4, c.1 / 4 * 4 + b ∈ r.data.map Prod.fst) →
    aget s.groups gid = some g → s.Takes (span a r.size) → s.mayServe s.input.unit [0, r.id] r.kstep = true →
    (∀ x ∈ s.rowOps, x.id = r.id → x = r) →
    ∃ t h, exec .rowStep s = .next t ∧ s.GroupTo t gid h ∧ t.rowOps = (s.rowOps.filter fun x => x ≠ r) ∧
      (∀ k < r.size, readByte t.mem (a + k) = (aget out.1 k).getD (readByte s.mem (a + k))) ∧
      (∀ b, b < a ∨ a + r.size ≤ b → readByte t.mem b = readByte s.mem b) ∧
      (∀ p, ∀ l < 32, h.posLane p l =
        if r.lanes.getLsbD l = true ∧ r.dreg ≤ p ∧ p < r.dreg + rowRegs r.size ∧ 128 * (p - r.dreg) + 4 * l < r.size then
          wordAt old (128 * (p - r.dreg) + 4 * l)
        else g.posLane p l) ∧
      (∀ q, q ∈ h.pend ↔ q ∈ g.pend ∧ q.by_ ≠ .row r.id) ∧ h.fpflags = g.fpflags ||| out.2.zeroExtend 64 ∧
      g.SameScalars h ∧ g.SameMasks h

/-- 06 R188, R189: a chunk of a `KVUP` whose arrays translate here stores the recipe's results in the arrays that it writes; the
twelfth Kiosk's install completes a `KRCP`. -/
def Claim.RecipeSteps : Prop :=
  (∀ (s : State) (v : KvUp) (g : Group) (chunk : Nat) (X : Nat → Xlat),
    let count := min 16 (v.n - 16 * chunk)
    let at_ := fun (k : Nat) => span (locOf (X k).pa) (4 * count)
    let reads := fun (k : Nat) => recipeReads v.recipe k = true
    let writes := fun (k : Nat) => recipeWrites v.recipe k = true
    let used := fun (k : Nat) => k < 3 ∧ (reads k ∨ writes k)
    let base := fun (k : Nat) => (if k = 0 then v.x0 else if k = 1 then v.x1 else v.x2) + 64 * chunk
    let elem := fun (k i : Nat) => if recipeReads v.recipe k then s.homeValue (locOf (X k).pa + 4 * i) 4 else 0
    let out := fun (i : Nat) => microRun v.recipe (v.origin.extractLsb' 0 22) [elem 0 i, elem 1 i, elem 2 i, 0]
    s.kvups[s.input.index]? = some v → v.chunks[s.input.unit]? = some chunk → aget s.groups v.gid = some g →
    (∀ k, used k → (X k).kind < 2 ∧ ∀ caches ∈ coreTlbs (s.coreOf g) :: (List.range 16).map (fun n => [TlbKey.kiosk n]),
      s.translate caches (s.ctxOf g) v.supervisor (if recipeWrites v.recipe k then .write else .read) (base k) = .ok (X k) s) →
    (∀ k, s.kioskAt (s.ctxOf g) (v.chunkAt chunk) = some k → chunk ∈ s.chunksAt v k) →
    (∀ j k, used j → used k → j ≠ k → locOf (X j).pa + 4 * count ≤ locOf (X k).pa ∨
      locOf (X k).pa + 4 * count ≤ locOf (X j).pa) →
    let all := ((List.range 3).filter fun k => recipeReads v.recipe k || recipeWrites v.recipe k).flatMap at_
    s.Takes all →
    (∀ kiosk, s.mayServe kiosk [3, v.gid, v.seqNo, chunk]
      { cls := s.svcOf v.gid, since := v.since, agent := v.gid, lines := linesOf all } = true) →
    ∃ t, exec .kvupChunk s = .next t ∧
      (∀ k, used k → writes k → ∀ i < count, ∀ b < 4,
        readByte t.mem (locOf (X k).pa + 4 * i + b) = (leBytes 4 ((out i).1.getD k 0)).getD b 0) ∧
      (∀ b, (∀ k, used k → writes k → b < locOf (X k).pa ∨ locOf (X k).pa + 4 * count ≤ b) →
        readByte t.mem b = readByte s.mem b) ∧
      (delSet v.chunks chunk ≠ [] → ∃ fl, t.kvups = (s.kvups.map fun y => if y = v then
        { v with chunks := delSet v.chunks chunk, fl := fl } else y)) ∧
      (delSet v.chunks chunk = [] → t.kvups = s.kvups.filter fun y => y ≠ v)) ∧
  (∀ (s : State) (k : KRcp), s.krcps[s.input.index]? = some k → s.input.unit < 12 → s.input.unit ∉ k.installed →
    (∀ v ∈ s.kvups, v.slot = k.slot → (aget s.groups v.gid).map s.ctxOf ≠ some k.ctx) →
    (k.installed.length < 11 → exec .recipeInstall s = .next { s with
      krcps := s.krcps.map fun x => if x = k then { k with installed := k.installed ++ [s.input.unit] } else x }) ∧
    (11 ≤ k.installed.length → ∀ g c, aget s.groups k.gid = some g → aget s.ctxs k.ctx = some c →
      (∀ f ∈ s.laneFails, ¬(f.1 = k.gid ∧ f.2.1 = k.seqNo)) →
      ∃ t h, exec .recipeInstall s = .next t ∧ s.GroupTo t k.gid h ∧ t.krcps = (s.krcps.filter fun x => x ≠ k) ∧
        t.ctxs = aset s.ctxs k.ctx { c with recipes := aset c.recipes k.slot { bytes := k.recipe } } ∧
        s.KioskDone t k.gid k.seqNo g h))

/-! ### Parked lanes, L1 upkeep and page replies -/

/-- 05 R147, 06 R201: an evaluation of a parked lane, after a write to its line or periodic, reads its word at the home; a lane whose
condition holds goes on after its word, with a signal's value in D, and any other stays. That the word is read at its home is the
model's choice (log 29). -/
def Claim.ParkedLanes : Prop :=
  ∀ (i : Instr) (s : State) (g : Group) (p : Park) (x : Xlat) (va w : Nat),
    let gid := s.input.unit
    let core := s.coreOf g
    aget s.groups gid = some g → g.parks = [p] → s.evaluates gid = true → p.lane < 32 →
    (i = .parkWriteEvaluation ∧ s.onLine s.input.addr g p = true ∧ p.on.isSignal = false ∨
      i = .parkPeriodicEvaluation ∧ p.lane = s.input.index ∧ p.on.isSignal = false ∨
      i = .sigwaitWriteEvaluation ∧ s.onLine s.input.addr g p = true ∧ p.on.isSignal = true ∨
      i = .sigwaitPeriodicEvaluation ∧ p.lane = s.input.index ∧ p.on.isSignal = true) →
    s.Hit core (s.ctxOf g) g.supervisor .read va x → s.Sound core x w false → s.logsPage gid [va] = false →
    (s.entry (locOf x.pa / 128)).waiting = [] →
    let v := s.seenValue core (locOf x.pa) w
    let woken := fun (t : State) (h : Group) => s.OnlyGroup t gid h ∧ g.Kept { h with parks := g.parks } ∧ h.parks = [] ∧
      (∀ l < 32, h.pcOf l = if l = p.lane then wordMod (p.pc + 1) else g.pcOf l) ∧ g.SameVectors h ∧ g.SameMasks h ∧
      g.SameFloat h ∧ s.BytesKept t core
    (∀ eq want, p.on = .word va eq want → w = 4 →
      (((v = want.toNat) ↔ eq = true) → ∃ t h, exec i s = .next t ∧ woken t h ∧ g.SameScalars h) ∧
      (¬((v = want.toNat) ↔ eq = true) → exec i s = .next s)) ∧
    (∀ wide cond amount dst, p.on = .signal va wide cond amount dst → w = (if wide then 8 else 4) →
      let x : Word64 := if wide then BitVec.ofNat 64 v else (BitVec.ofNat 32 v).signExtend 64
      (holds true cond x amount = true → cond < 6 →
        ∃ t h, exec i s = .next t ∧ woken t h ∧ ∀ n, h.s n = if n = dst then x else g.s n) ∧
      (holds true cond x amount = false → cond < 6 → exec i s = .next s))

/-- 12 R310, R312: an L1 writes back a dirty line, or drops a clean one, on its own; its core finds every byte as before. -/
def Claim.L1Upkeep : Prop :=
  ∀ (s : State) (l : L1Line),
    let core := s.input.unit
    let line := s.input.index
    aget s.l1 (core, line) = some l → s.CacheSound core →
    (l.dirty = 0 →
      exec .l1CleanDrop s = .next { s with l1 := aerase s.l1 (core, line) } ∧
      s.BytesKept { s with l1 := aerase s.l1 (core, line) } core) ∧
    (l.dirty ≠ 0 → s.lineReady line true = .ready → placeOf (128 * line) = .hbm ∨ placeOf (128 * line) = .scm →
      ∃ t, exec .l1DirtyWriteback s = .next t ∧
        (∃ l', aget t.l1 (core, line) = some l' ∧ l'.dirty = 0 ∧ l'.data = l.data ∧ l'.valid = l.valid) ∧
        (∀ k < 128, l.dirty.getLsbD k = true → readByte t.mem (128 * line + k) = l.data.getD k 0) ∧ s.BytesKept t core ∧
        t.groups = s.groups)

/-- 13 R346, R347, R352: a reply of 0 to a page request lets the groups that wait on the page go on; a failure raises `PAGE_FAULT`
at the word of a group that waits. A reply that names no open request of the context's generation is ignored. -/
def Claim.PageReplies : Prop :=
  ∀ (s : State),
    let ctx := s.input.unit
    let page := s.input.index
    let held := fun (x : Group) => s.ctxOf x = ctx ∧ ∃ va kind last lanes word, x.hold = .page va kind last lanes word ∧
      va / 4096 = page
    let left := s.pageReqs.filter fun r => ¬(r.ctx = ctx ∧ r.vpage = page)
    (s.requested ctx page = false ∨ aget s.ctxs ctx = none ∨ (s.ctx ctx).gen.toNat ≠ s.input.value.toNat →
      exec .pageReply s = .next s) ∧
    (s.requested ctx page = true → aget s.ctxs ctx ≠ none → (s.ctx ctx).gen.toNat = s.input.value.toNat →
      (∀ e ∈ s.sideLog, ¬(e.ctx = ctx ∧ e.addr / 4096 = page)) → (∀ o ∈ s.copyOps, o.heldPage ≠ some page) →
      (∀ c ∈ s.chases, c.heldPage ≠ some page) → (∀ o ∈ s.listOps, o.heldPage ≠ some page) →
      (∀ e ∈ s.gangs, e.2.heldPage ≠ some page) →
      (∀ e ∈ s.teams, ∀ u ∈ e.2.units, ∀ st, u.2.stream = some st → st.heldPage ≠ some page) →
      (s.input.code = 0 →
        ∃ t, exec .pageReply s = .next t ∧ { t with groups := s.groups } = { s with pageReqs := left } ∧
          ∀ k x, aget s.groups k = some x → ∃ y, aget t.groups k = some y ∧ (held x → y = { x with hold := .none }) ∧
            (¬held x → y = x)) ∧
      (∀ gid g va kind last lanes word, s.input.code ≠ 0 → aget s.groups gid = some g →
        g.hold = .page va kind last lanes word → s.ctxOf g = ctx → va / 4096 = page → (s.gangOf g).run ≠ .saved →
        (∀ e ∈ s.groups, e.1 ≠ gid → ¬held e.2) → (s.groups.map Prod.fst).Nodup →
        exec .pageReply s = .next (State.trapWith { s with pageReqs := left } gid { g with hold := .none }
          { code := 0x07, status := s.input.code, lanes := lanes, s58 := va, s59 := kind, s60 := last.toNat } word false)))

/-! ### Persistence -/

/-- 16 R394 to R399: a persist queue accepts the oldest write that waits, tells who waits for it, counts it where it is late, and sets
the tags of its lines; the media take the oldest accepted write; and the image that forms takes its next line, once no store of its step
is on its way there, or its header after the last, without being complete yet. -/
def Claim.PersistQueues : Prop :=
  (∀ (s : State) (p : Persist),
    (s.persists.find? fun p => !p.accepted && p.stack == s.input.unit) = some p →
    s.queued p.stack + p.cells.length ≤ 2 ^ 24 → s.toCopy p = [] →
    let late := ∃ a ∈ s.regionLines p, (s.lineMetaAt a).mark ≠ 0xFFFFFFFFFFFFFFFF ∧ p.tag.getD 0 ≤ (s.lineMetaAt a).mark
    ∃ t, exec .persistAccept s = .next t ∧
      (let others := (s.persists.filter fun x => x.id ≠ p.id).map fun x => if p.kind = 0 then s.tellPieces p x else x
       t.persists = (others.filter fun x => x.accepted) ++ [{ p with accepted := true }] ++
         (others.filter fun x => !x.accepted)) ∧
      t.egress = s.egress ++ (p.ack.elim [] Packet.parts).map (fun k => { pkt := k.sealed, since := s.now.toNat }) ∧
      (∀ gid g, p.gid = some gid → aget s.groups gid = some g →
        s.GroupTo t gid { g with persists := delSet g.persists p.id }) ∧
      (p.kind = 0 → p.sets = [] → ∀ a ∈ s.regionLines p, (agetD t.lineMeta (a / 256) {}).tag.toNat =
        max (agetD s.lineMeta (a / 256) {}).tag.toNat (p.tag.getD 0).toNat) ∧
      (∀ c, p.kind ≠ 0 → p.sets = [c] → agetD t.lineMeta c.line {} = (agetD s.lineMeta c.line {}).put c) ∧
      (p.kind = 0 → late → p.counted = false →
        t.snap = { s.snap with late := if s.snap.late < 2 ^ 32 - 1 then s.snap.late + 1 else 2 ^ 32 - 1 }) ∧
      (p.kind ≠ 0 ∨ ¬late ∨ p.counted = true → t.snap = s.snap) ∧
      t.mem = s.mem ∧ t.media = s.media) ∧
  (∀ (s : State) (p : Persist), (s.persists.find? fun p => p.accepted && p.stack == s.input.unit) = some p →
    (s.stack (8 + p.stack)).held = false → s.media.wf = true → (p.cells.map Prod.fst).Nodup →
    ∃ t, exec .persistDrain s = .next t ∧ t.persists = (s.persists.filter fun x => x.id ≠ p.id) ∧ t.media.wf = true ∧
      (∀ b, readByte t.media b = (aget p.cells b).getD (readByte s.media b)) ∧
      ∀ b, b ∈ t.mediaPoison ↔ b ∈ p.spoiled ∨ b ∈ s.mediaPoison ∧ ∃ k < 32, aget p.cells (32 * b + k) = none) ∧
  (∀ (s : State) (f : Forming), s.snap.forming = some f → s.mem.wf = true → s.Faultless →
    (∀ a idx, s.snap.lineAt f.next = some a → s.snap.lineOf a = some idx →
      let at_ := s.snap.slotAt f.slot + 256 * idx
      ((s.lineMetaAt a).mark = f.step →
        exec .imageLineCopy s = .next { s with snap := { s.snap with forming := some { f with next := f.next + 1 } } }) ∧
      ((s.lineMetaAt a).mark ≠ f.step → s.awaitsStore f a = true → exec .imageLineCopy s = .next s.stall) ∧
      ((s.lineMetaAt a).mark ≠ f.step → s.awaitsStore f a = false → (∀ b ∈ span a 256, s.LineFree (b / 128)) →
        (s.imageLine a).2 = false → (∀ k < 256, inFirmware (at_ + k) = false) →
        ∃ t, exec .imageLineCopy s = .next t ∧ t.snap = { s.snap with forming := some { f with next := f.next + 1 } } ∧
          (t.lineMetaAt a).mark = f.step ∧ (t.lineMetaAt a).tag = (s.lineMetaAt a).tag ∧ t.lineMeta = s.lineMeta ∧
          (∀ k < 256, readByte t.mem (at_ + k) = (s.imageLine a).1.getD k 0) ∧
          s.MemoryBut t (span at_ 256))) ∧
    (s.snap.lineAt f.next = none → f.closing = false → s.copiesOut = false →
      let at_ := s.snap.base + 64 * f.slot
      (∀ k < 16, inFirmware (at_ + k) = false) →
      ∃ t, exec .imageLineCopy s = .next t ∧ t.snap = { s.snap with forming := some { f with closing := true } } ∧
        (∀ k < 16, readByte t.mem (at_ + k) = (leBytes 8 (s.snap.slot f.slot).step.toNat ++ leBytes 8 2).getD k 0) ∧
        s.MemoryBut t (span at_ 16)))

/-- 16 R404, R405, R408 to R410: a holder stores or adds a parity contribution, or refuses an older one; a replacement adds a product
that it expects, and discards one beyond the count with a record; either refuses what it holds no image for. A packet that names no
line there is is discarded with an event (01 R16). The packets' layout is the model's (log 15, log 48). -/
def Claim.Contributions : Prop :=
  ∀ (s : State) (p : Packet) (unit : Nat) (step : Word64) (bs : List Byte),
    let n := s.snap
    let refused := s.heard.send (s.reply p 11 [] [])
    let stray := s.heard.post { kind := .fabricProtocol, args := [p.src] }
    s.Delivers p → p.cls = 6 → productOf p = (step, unit, bs) →
    (p.op = 10 →
      (n.enabled = false ∨ n.slotOf step (· != .empty) = none → exec .stripeContribution s = .next refused) ∧
      (∀ q, n.enabled = true → n.slotOf step (· != .empty) = some q →
        let a := n.slotAt q + (n.u + unit / 16) * 4096 + unit % 16 * 256
        let old := (s.lineMetaAt a).tag
        (n.v * n.m ≤ unit / 16 ∨ bs.length ≠ 256 → exec .stripeContribution s = .next stray) ∧
        (unit / 16 < n.v * n.m → bs.length = 256 → step < old → exec .stripeContribution s = .next refused) ∧
        (unit / 16 < n.v * n.m → bs.length = 256 → old ≤ step → s.ProductLine a → p.spoiled = [] →
          ∃ t, exec .stripeContribution s = .next t ∧ (t.lineMetaAt a).tag = step ∧
            s.TookProduct t p a (if old = step then (List.range 256).map (fun k => readByte s.mem (a + k) ^^^ bs.getD k 0) else bs)
              { line := a / 256, tag := some step }))) ∧
    (p.op = 11 →
      let parity := decide (2 ^ 63 ≤ unit)
      let no := unit % 2 ^ 63 / 16
      let a := n.slotAt 0 + ((if parity then n.u else 0) + no) * 4096 + unit % 16 * 256
      let count := (s.lineMetaAt a).count
      let held := n.enabled = true ∧ (n.slot 0).st ≠ .empty ∧ (n.slot 0).step = step
      let named := no < (if parity then n.v * n.m else n.u) ∧ bs.length = 256
      (¬held → exec .rebuildContribution s = .next refused) ∧
      (held → ¬named → exec .rebuildContribution s = .next stray) ∧
      (held → named → n.expected parity no ≤ count → exec .rebuildContribution s = .next ((s.heard.record
        { kind := 9, aux := step.toNat, addr := paOf s.own a, unitType := 8, severity := 0, ctx := n.ctx
          gen := (s.ctx n.ctx).gen.toNat }).send (s.reply p 0 [] []))) ∧
      (held → named → count < n.expected parity no → s.ProductLine a → p.spoiled = [] →
        ((∃ u < n.u, ∃ l < 16, (s.lineMetaAt (n.slotAt 0 + 4096 * u + 256 * l)).count < n.expected false u ∧
            n.slotAt 0 + 4096 * u + 256 * l ≠ a) ∨ ∀ w ∈ n.work, ∀ lost, w.kind = .receive lost → w.ending = true) →
        ∃ t, exec .rebuildContribution s = .next t ∧ (t.lineMetaAt a).count = count + 1 ∧
          s.TookProduct t p a (if count = 0 then bs else (List.range 256).map fun k => readByte s.mem (a + k) ^^^ bs.getD k 0)
            { line := a / 256, count := some (count + 1) }))

/-- 16 R402 to R404, R409: `STRIPE` sends the next line of each of its products, the coefficient times a line of the image, to the
member that holds the parity; a survivor sends its product of the next line to the replacement, passes over stripes for which it owes
none, and after the last begins to restore its lines. The packets' layout, and that a rebuild ends in one step, are the model's (log
15, log 48). -/
def Claim.StripeProducts : Prop :=
  ∀ (s : State) (w : SnapWork) (q : Nat),
    let n := s.snap
    let readable := fun (at_ : Nat) => (∀ b ∈ span at_ 256, s.LineFree (b / 128)) ∧ s.isBad (span at_ 256) = false
    let sent := fun (t : State) (dst op unit c at_ : Nat) (fragment : Bool) =>
      s.Asked t
        { dest := dst, src := s.own, cls := 6, op := op, ctx := n.ctx
          data := leBytes 8 w.step.toNat ++ leBytes 8 unit ++
            (List.range 256).map fun k => BitVec.ofNat 8 (gfMul c (readByte s.mem (at_ + k)).toNat) }
        (.snap w.gid w.seqNo dst fragment) ∧
      t.snap = { n with work := [{ w with next := w.next + 1 }] } ∧ t.mem = s.mem ∧ t.persists = s.persists ∧ t.groups = s.groups
    n.work = [w] → w.ending = false → s.Faultless → (n.slotOf w.step fun x => x == .complete || x == .striped) = some q →
    (w.kind = .stripe → s.copyOps[s.input.index]? = none → 0 < n.m →
      let u := w.next / (16 * n.m)
      let i := w.next / 16 % n.m
      let l := w.next % 16
      let stripe := n.stripeOf n.self u
      let at_ := n.slotAt q + 4096 * u + 256 * l
      (n.u ≤ u → exec .copyUnit s = .next { s with snap := { n with work := [{ w with ending := true }] } }) ∧
      (∀ dst, u < n.u → n.member (n.holder stripe (.parity i)) = some dst → readable at_ → 4096 * u + 256 * l < n.total →
        ∃ t, exec .copyUnit s = .next t ∧
          sent t dst 10 (n.unitNo stripe (.parity i) * 16 + l) (n.g i (u % n.k)) at_ true)) ∧
    (∀ lost repl j, w.kind = .survive lost repl → w.restoring = false →
      let stripe := w.next / 16
      let gone := n.unitOf stripe j
      let mine := n.unitOf stripe n.self
      let at_ := n.slotAt q + n.unitAt stripe mine (w.next % 16)
      let unit := n.unitNo stripe gone * 16 + w.next % 16 + (match gone with | .parity _ => 2 ^ 63 | .data _ => 0)
      (n.n * n.v ≤ stripe →
        exec .survivorRebuildWork s = .next { s with snap := { n with work := [{ w with restoring := true, next := 0 }] } }) ∧
      (stripe < n.n * n.v → ((List.range n.n).find? fun j => n.member j == some lost) = some j →
        ((∀ c, (mine, c) ∉ n.solution gone) ∨ n.real stripe gone = false ∨ n.real stripe mine = false →
          exec .survivorRebuildWork s = .next { s with snap := { n with work := [{ w with next := (stripe + 1) * 16 }] } }) ∧
        (∀ c, ((n.solution gone).find? fun e => e.1 == mine) = some (mine, c) → n.real stripe gone = true →
          n.real stripe mine = true → readable at_ →
          (n.unitAt stripe mine (w.next % 16) < n.u * 4096 → n.unitAt stripe mine (w.next % 16) < n.total) →
          ∃ t, exec .survivorRebuildWork s = .next t ∧ sent t repl 11 unit c at_ false)))

/-- 16 R391, R392, R401: the snapshot control word is written while the part runs; an enable that its checks pass reads the ring, and
one that they refuse is recorded so. -/
def Claim.SnapshotControl : Prop :=
  ∀ (s : State),
    let v := s.input.value &&& 0x000000FFFF01FFFF
    let n := { s.snap with control := v, refused := false }
    s.boot = .running →
    (s.snap.enabled = true → v.getLsbD 16 = true ∨ s.snap.busy = true → exec .snapshotControlWrite s = .next s) ∧
    (v.getLsbD 16 = false → (s.snap.enabled = true → s.snap.busy = false) →
      exec .snapshotControlWrite s = .next { s with snap := { s.snap with control := v } }) ∧
    (v.getLsbD 16 = true → s.snap.enabled = false →
      (s.enableRefused n = true →
        exec .snapshotControlWrite s = .next { s with snap := { s.snap with control := v - 0x10000, refused := true } }) ∧
      (s.enableRefused n = false →
        ∃ m : Snap, exec .snapshotControlWrite s = .next { s with snap := m } ∧
          { m with slots := n.slots, cursor := n.cursor } = n ∧
          ∀ q < n.nslots, (m.slot q).step = BitVec.ofNat 64 (readLE s.mem (n.base + 64 * q) 8) ∧
            (m.slot q).st = (match readLE s.mem (n.base + 64 * q + 8) 8 % 4 with
              | 2 => .complete | 3 => .striped | _ => .empty)))

/-- 16 R395, 20 R441, R447, R448: a loss of power and a package reset keep what the media hold, with every accepted write, line metadata,
the firmware's counters, and the host's memory; everything else is as at reset. The return of power, a reset and a thermal trip run the
self-test, whose outcome is a free value of this model (log 37), and post their own event first (the model's choice: log 40); a reset answers
its command (log 9 says what of the model's own stays). -/
def Claim.ResetAndPower : Prop :=
  ∀ (s : State), s.MemoryOk → (∀ p ∈ s.persists, (p.cells.map Prod.fst).Nodup) →
    (∀ p ∈ s.persists, ∀ c ∈ p.cells, placeOf c.1 = .scm) → (∀ b, readByte s.media b ≠ 0 → placeOf b = .scm) →
    let cause := Config.selfTestCause s.draws
    let boot : BootState := if cause = 0 then .awaiting else .failed
    let told : Event := if cause = 0 then { kind := .bootReady } else { kind := .bootFailed, args := [cause] }
    let kept := fun (t : State) (boot : BootState) (draws : Nat) (events : List Event) (replies : List Reply) =>
      (∀ b, readByte t.mem b = if placeOf b = .host then readByte s.mem b else s.durableByte b) ∧
      (∀ b, readByte t.media b = s.durableByte b) ∧ t.poison = t.mediaPoison ∧
      (∀ b, (∀ p ∈ s.persists, p.accepted = true → b ∉ p.spoiled ∧ ∀ c ∈ p.cells, c.1 / 32 ≠ b) →
        (b ∈ t.mediaPoison ↔ b ∈ s.mediaPoison)) ∧
      { t with mem := [], media := [], poison := [], mediaPoison := [] } =
        { State.reset with
          clock := s.clock
          turns := s.turns
          input := s.input
          draws := draws
          nextId := s.nextId
          lineMeta := s.lineMeta
          rollback := s.rollback
          leaf := s.leaf
          boot := boot
          events := events
          replies := replies }
    (∃ t, exec .powerLoss s = .next t ∧ kept t .off s.draws [] s.replies) ∧
    (∃ t, exec .powerReturn s = .next t ∧ kept t boot (s.draws + 1) [told] s.replies) ∧
    (s.boot ≠ .off → s.killing = none →
      ∃ t, exec .reset s = .next t ∧ kept t boot (s.draws + 1) [told] (s.replies ++ [{ status := 0 }])) ∧
    (110 * 16 ≤ s.input.index → ∃ t, exec .thermalTrip s = .next t ∧
      kept t boot (s.draws + 1) [{ kind := .thermalTrip, args := [s.input.index] }, told] s.replies)

/-! ### The firmware -/

/-- 20 R440 to R444: `CFG_LOAD` runs the self-test if boot stands before it, refuses a record that fails a check, and applies any
other; `ATTEST` answers a nonce with its report; without power, or while the command before is served, no command is heard. The statuses
of refusals and the outcome of the self-test are the model's choice (log 37, log 38). -/
def Claim.BootCommands : Prop :=
  ∀ (s : State),
    let bs := s.input.bytes
    let w := fun (o : Nat) => leValue ((bs.drop o).take 8)
    let good := bs.length = 6064 ∧ w 0 = 1 ∧ w 16 < 64 ∧ w 48 = 0 ∧ w 56 = 0 ∧
      (∀ j, (w 40).testBit j = true → (w 24).testBit j = true) ∧ (w 40).testBit (w 16) = false ∧ s.rollback ≤ w 8
    let ok := Config.selfTestCause s.draws = 0
    let r := bs ++ romDigest ++ (match s.cfg with | some c => c.digest | none => List.replicate 48 0) ++
      deviceKeys ++ leBytes 8 s.leaf ++ [if s.boot = .running then 2 else 1]
    (s.boot = .off ∨ s.killing ≠ none ∧ s.boot ≠ .selfTest →
      ∀ i ∈ [Instr.cfgLoad, .attest, .regRead, .regWrite, .ctxCreate, .ctxKill, .ctxStep, .reset], exec i s = .next s.stall) ∧
    (s.killing = none →
    (s.boot ≠ .awaiting → s.boot ≠ .selfTest → s.boot ≠ .off → exec .cfgLoad s = .next (s.answerWith { status := 2 })) ∧
    (s.boot = .awaiting → ¬good →
      exec .cfgLoad s = .next ((s.post { kind := .bootRefused, args := [3] }).answerWith { status := 3 })) ∧
    (s.boot = .awaiting → good → exec .cfgLoad s = .next (
      if cfgSigned bs = true then { s with
        cfg := some { version := w 8, pkg := w 16, members := BitVec.ofNat 64 (w 24), cap := w 32
                      endpoints := BitVec.ofNat 64 (w 40), digest := Crypto.hash384 bs }
        rollback := w 8
        boot := .running
        power := { s.power with cap := min 3200 (max 1200 (w 32)) }
        replies := s.replies ++ [{ status := 0 }] }
      else (s.post { kind := .bootRefused, args := [4] }).answerWith { status := 4 })) ∧
    (s.boot = .selfTest → exec .cfgLoad s = exec .cfgLoad { s with
      draws := s.draws + 1
      ports := [0, 1]
      boot := if ok then .awaiting else .failed
      events := s.events ++
        [if ok then { kind := .bootReady } else { kind := .bootFailed, args := [Config.selfTestCause s.draws] }] }) ∧
    (s.boot = .awaiting ∨ s.boot = .running → s.leaf < 2 ^ 20 → bs.length = 48 →
      exec .attest s = .next ({ s with leaf := s.leaf + 1 }.answerWith { status := 0, bytes := r ++ signatures r s.leaf })) ∧
    (s.boot = .awaiting ∨ s.boot = .running → s.leaf < 2 ^ 20 → bs.length ≠ 48 → exec .attest s = .next (s.answerWith { status := 3 })) ∧
    (2 ^ 20 ≤ s.leaf ∨ s.boot = .selfTest ∨ s.boot = .failed → s.boot ≠ .off → exec .attest s = .next (s.answerWith { status := 2 })))

/-- 20 R440 with 12 Table 12.2, 14 Table 14.3, 16 Tables 16.1 and 16.2, 17 Table 17.3, 20 Table 20.3: what `REG_READ` answers at each
register's address and width, and the answers of status 2 and 3. -/
def Claim.RegisterReads : Prop :=
  ∀ (s : State), s.boot ≠ .off → s.killing = none →
    let i := s.input
    let n := s.snap
    let reads := fun (a width v : Nat) => i.addr = a → i.code = width / 8 →
      exec .regRead s = .next (s.answerWith { status := 0, value := v })
    (s.boot ≠ .running → exec .regRead s = .next (s.answerWith { status := 2 })) ∧
    (s.boot = .running →
      ((i.addr < 0x80000000000 ∨ 0x80040000000 ≤ i.addr ∨ 1 < i.code ∨ i.code = 0 ∧ i.addr % 4 ≠ 0 ∨ i.code = 1 ∧ i.addr % 8 ≠ 0) →
        exec .regRead s = .next (s.answerWith { status := 3 })) ∧
      (∀ q < 270, ∀ c < 4, reads (0x80000100000 + 16 * q + 4 * c) 4 (agetD s.misses (4 * q + c) 0)) ∧
      (∀ k < 12, ∀ q < 257, ∀ c < 4,
        reads (0x80000200000 + 0x2000 * k + 16 * q + 4 * c) 4 (agetD s.lags (k, 4 * q + c) 0)) ∧
      (∀ f < 512, reads (0x80000300000 + 8 * f) 8 (s.planEntry f &&& 0x3F3F3F3F3F3F3F3F).toNat) ∧
      reads 0x80000301000 8 (s.planBusy.toNat * 2 + s.planResult * 4 + s.planEpoch * 16) ∧
      (∀ q < 1024,
        reads (0x80000400000 + 64 * q) 8 (s.queue q).base.toNat ∧
        reads (0x80000400008 + 64 * q) 8 (s.queue q).config.toNat ∧
        reads (0x80000400010 + 64 * q) 8 (s.queue q).head.toNat ∧
        reads (0x80000400018 + 64 * q) 8 (s.queue q).tail.toNat ∧
        reads (0x80000400020 + 64 * q) 8 0 ∧
        reads (0x80000400028 + 64 * q) 8 ((s.queue q).eligible.toNat + (match (s.queue q).slot with
          | some x => 2 + 4 * x
          | none => 0) + 256 * (s.queue q).refused.toNat)) ∧
      reads 0x80000410000 8 s.slice.toNat ∧
      reads 0x80000500000 8 (n.control.toNat + n.busy.toNat * 2 ^ 17) ∧
      reads 0x80000500008 8 n.ring.toNat ∧
      reads 0x80000500010 8 n.units.toNat ∧
      reads 0x80000500018 8 (n.late + n.cursor * 2 ^ 32 + n.refused.toNat * 2 ^ 40) ∧
      (∀ j < 16, reads (0x80000500040 + 8 * j) 8 (agetD n.members j 0).toNat) ∧
      (∀ g < 64, reads (0x80000501000 + 16 * g) 8 (agetD n.regions g (0, 0)).1.toNat ∧
        reads (0x80000501008 + 16 * g) 8 (agetD n.regions g (0, 0)).2.toNat) ∧
      (∀ k < 12,
        reads (0x80000600000 + 64 * k) 8 ((s.stack k).scrub * 2 ^ 16) ∧
        (k < 8 → reads (0x80000600008 + 64 * k) 8 ((s.stack k).mode + (s.stack k).retired * 2 ^ 8 +
          (s.stack k).refused.toNat * 2 ^ 13 + (s.stack k).watermark * 2 ^ 32)) ∧
        reads (0x80000600010 + 64 * k) 4 (s.stack k).corrected ∧
        reads (0x80000600018 + 64 * k) 4 (s.stack k).poisoned) ∧
      reads 0x80000610000 8 s.errRing.base ∧
      reads 0x80000610008 8 s.errRing.n ∧
      reads 0x80000610010 8 s.errRing.head ∧
      reads 0x80000610018 8 s.errRing.tail ∧
      reads 0x80000610020 8 s.errRing.overflow ∧
      reads 0x80000700000 8 s.power.cap ∧
      reads 0x80000700008 8 s.power.throttle ∧
      reads 0x80000700010 8 s.power.power ∧
      reads 0x80000700018 8 (s.power.energy / 1000 % 2 ^ 64) ∧
      reads 0x80000700020 8 s.power.temp ∧
      reads 0x80000700028 8 s.power.coolant)

/-- 20 R440: `REG_WRITE` acts as the write of the register that its address names, and answers 0; a refused one answers 2 or 3. -/
def Claim.RegisterWrites : Prop :=
  ∀ (s : State), s.boot ≠ .off → s.killing = none →
    let i := s.input
    let v := i.value
    let n := s.snap
    let done := fun (t : State) => exec .regWrite s = .next (t.answerWith { status := 0 })
    let writes := fun (a width : Nat) (t : State) => i.addr = a → i.code = width / 8 → done t
    let asStep := fun (a width : Nat) (c : Instr) (x : Input) => i.addr = a → i.code = width / 8 →
      ∃ t, exec c { s with input := x } = .next t ∧ done { t with input := i }
    (s.boot ≠ .running → exec .regWrite s = .next (s.answerWith { status := 2 })) ∧
    (s.boot = .running →
      ((i.addr < 0x80000000000 ∨ 0x80040000000 ≤ i.addr ∨ 1 < i.code ∨ i.code = 0 ∧ i.addr % 4 ≠ 0 ∨ i.code = 1 ∧ i.addr % 8 ≠ 0) →
        exec .regWrite s = .next (s.answerWith { status := 3 })) ∧
      (∀ f < 512, writes (0x80000300000 + 8 * f) 8 { s with planWritten := aset s.planWritten f v }) ∧
      asStep 0x80000301000 8 .planApply i ∧
      (∀ q < 1024,
        asStep (0x80000400008 + 64 * q) 8 .queueConfigWrite { i with unit := q } ∧
        asStep (0x80000400020 + 64 * q) 8 .queueNotify { i with unit := q } ∧
        let base := v &&& 0x00FFFFFFFFFFF000;
        writes (0x80000400000 + 64 * q) 8 (if touchesFirmware (locOf base.toNat) (8 * 2 ^ (s.queue q).logSize) = true then s
          else { s with queues := aset s.queues q { s.queue q with base := base } })) ∧
      writes 0x80000410000 8 { s with slice := v &&& 0xFFFFFFFF } ∧
      asStep 0x80000500000 8 .snapshotControlWrite i ∧
      (n.enabled = false →
        writes 0x80000500008 8 { s with snap := { n with ring := v &&& 0x00FFFFFFFFF00000 } } ∧
        writes 0x80000500010 8 { s with snap := { n with units := v &&& 0xFFFFFFFF } } ∧
        (∀ j < 16, writes (0x80000500040 + 8 * j) 8 { s with snap := { n with members := aset n.members j (v &&& 0x13F) } }) ∧
        ∀ g < 64,
          let r := agetD n.regions g (0, 0);
          writes (0x80000501000 + 16 * g) 8
            { s with snap := { n with regions := aset n.regions g (v &&& 0x00FFFFFFFFFFFF01, r.2) } } ∧
          writes (0x80000501008 + 16 * g) 8 { s with snap := { n with regions := aset n.regions g (r.1, v &&& 0xFFFFFFFFFF) } }) ∧
      (∀ k < 8, asStep (0x80000600000 + 64 * k) 8 .channelRetire { i with unit := k }) ∧
      (∀ k < 12, 8 ≤ k → writes (0x80000600000 + 64 * k) 8
        { s with memStacks := aset s.memStacks k { s.stack k with scrub := field v.toNat 16 16 } }) ∧
      (∀ k < 12, asStep (0x80000600010 + 64 * k) 4 .counterClear i ∧ asStep (0x80000600018 + 64 * k) 4 .counterClear i) ∧
      (let base := (v &&& 0x00FFFFFFFFFFF000).toNat;
        writes 0x80000610000 8 (if touchesFirmware (locOf base) (64 * 2 ^ s.errRing.n) = true then s
          else { s with errRing := { s.errRing with base := base } })) ∧
      writes 0x80000610008 8 { s with errRing := { s.errRing with n := v.toNat % 32 } } ∧
      asStep 0x80000610010 8 .errorRingHeadWrite i ∧
      (∀ x < 6, asStep (0x80000700000 + 8 * x) 8 .powerCapWrite { i with unit := x }))

/-- 20 Table 20.1, 13 R364: `CTX_CREATE` makes a context, after killing a living one of its identifier; `CTX_KILL` removes the
context's gangs, empties its queues, drops its cached translations and logged stores, and advances its generation; a gang with a step
in flight at a Kiosk or a copy engine stays, killed, until that has completed, and the answer waits for it (`CTX_CREATE` answers at once: the
model's choice, log 53). `CTX_STEP` writes the step of a context with no
resident gang. -/
def Claim.ContextCommands : Prop :=
  ∀ (s : State), s.boot = .running → s.killing = none →
    let i := s.input
    let c := i.unit
    let new : Ctx := { root := BitVec.ofNat 64 i.addr, gen := BitVec.ofNat 32 i.code, step := BitVec.ofNat 64 i.index
                       vector := i.value, xgen := (s.ctx c).xgen }
    (c < 2 ^ 16 → i.code < 2 ^ 32 → i.addr < 2 ^ 64 → i.index < 2 ^ 64 →
      (aget s.ctxs c = none → exec .ctxCreate s = .next ({ s with ctxs := aset s.ctxs c new }.answerWith { status := 0 })) ∧
      (aget s.ctxs c ≠ none → ∃ t, exec .ctxKill s = .next t ∧ exec .ctxCreate s = .next { t with
        ctxs := aset t.ctxs c new
        killing := none
        replies := s.replies ++ [{ status := 0 }] })) ∧
    (¬(c < 2 ^ 16 ∧ i.code < 2 ^ 32 ∧ i.addr < 2 ^ 64 ∧ i.index < 2 ^ 64) → exec .ctxCreate s = .next (s.answerWith { status := 3 })) ∧
    (aget s.ctxs c = none → exec .ctxKill s = .next (s.answerWith { status := 3 }) ∧
      exec .ctxStep s = .next (s.answerWith { status := 3 })) ∧
    (∀ x, aget s.ctxs c = some x → s.snap.serves c = false → (s.gangs.map Prod.fst).Nodup →
      ∃ t, exec .ctxKill s = .next t ∧ t.mem = s.mem ∧ t.events = s.events ∧
        ((∃ e ∈ t.gangs, e.2.ctx = c) → t.replies = s.replies ∧ t.killing = some c) ∧
        ((∀ e ∈ t.gangs, e.2.ctx ≠ c) → t.replies = s.replies ++ [{ status := 0 }] ∧ t.killing = none) ∧
        (∀ e ∈ t.gangs, e.2.ctx = c → e.2.run = .killed) ∧ (∀ e, e.2.ctx ≠ c → (e ∈ t.gangs ↔ e ∈ s.gangs)) ∧
        ((∀ e ∈ s.gangs, e.2.ctx = c → e.2.run ≠ .killed ∧ s.inFlight (s.gidsOf e.1) = false) →
          (∀ e ∈ t.gangs, e.2.ctx ≠ c) ∧
          ∀ e, e ∈ t.teams ↔ e ∈ s.teams ∧ ∀ y ∈ s.gangs, y.2.ctx = c → e.2.gang ≠ y.1) ∧
        (∀ k, t.queue k = if k ∈ x.queues then
          { s.queue k with head := (s.queue k).tail, eligible := false, slot := none, times := [] } else s.queue k) ∧
        (∀ e ∈ t.sideLog, e ∈ s.sideLog ∧ e.ctx ≠ c) ∧ (∀ e, e ∈ t.tlbs ↔ e ∈ s.tlbs ∧ e.2.ctx ≠ c) ∧
        t.ctxs = aset s.ctxs c { x with gen := x.gen + 1 }) ∧
    (∀ x, aget s.ctxs c = some x →
      let resident := ∃ e ∈ s.gangs, e.2.ctx = c ∧ e.2.run ≠ .saved ∧ e.2.run ≠ .killed
      (¬resident → exec .ctxStep s = .next ({ s with ctxs := aset s.ctxs c { x with step := i.value } }.answerWith { status := 0 })) ∧
      (resident → exec .ctxStep s = .next (s.answerWith { status := 2 })))

/-! ### Registers written by a step of their own -/

/-- 14 R367, Tables 14.3 and 14.4: a write of notify appends to the ring of an ordinary queue and makes a queue that is not empty
eligible, or is refused; a write of config enables and binds a queue, or disables and unbinds it. -/
def Claim.QueueRegisters : Prop :=
  ∀ (s : State), s.boot = .running → s.input.unit < 1024 →
    let k := s.input.unit
    let q := s.queue k
    let now := s.now.toNat
    let v : Word32 := BitVec.ofNat 32 s.input.value.toNat
    let n := (v - q.tail).toNat
    let x := s.input.value &&& 0x00000003FFFF001F
    let on := x.getLsbD 32 = true ∧ 4 ≤ x.toNat % 32 ∧ x.toNat % 32 ≤ 16
    let gives := fun (q' : Queue) => exec .queueNotify s = .next { s with queues := aset s.queues k q' }
    let bound := fun (t : State) (owner : Option Nat) => ∀ c y, aget s.ctxs c = some y → ∃ z, aget t.ctxs c = some z ∧
      { z with queues := y.queues } = y ∧ ∀ j, j ∈ z.queues ↔ if j = k then owner = some c else j ∈ y.queues
    (q.enabled = false → gives { q with refused := true }) ∧
    (q.enabled = true → q.spawn = true → gives { q with
      refused := false
      eligible := if q.head = q.tail then q.eligible else true
      notified := if q.head = q.tail ∨ q.eligible = true then q.notified else now }) ∧
    (q.enabled = true → q.spawn = false → 2 ^ q.logSize - q.count < n → gives { q with refused := true }) ∧
    (q.enabled = true → q.spawn = false → n ≤ 2 ^ q.logSize - q.count →
      ∃ ts, gives { q with
          tail := v
          times := ts
          refused := false
          eligible := if q.head = v then q.eligible else true
          notified := if q.head = v ∨ q.eligible = true then q.notified else now } ∧
        ∀ j < n, aget ts ((q.tail.toNat + j) % 2 ^ 32) = some now) ∧
    (q.enabled = true → q.head ≠ q.tail → exec .queueConfigWrite s = .next s) ∧
    (q.enabled = false ∨ q.head = q.tail →
      (on → ∃ t, exec .queueConfigWrite s = .next t ∧ t = { s with
          ctxs := t.ctxs
          queues := aset s.queues k { q with
            config := x
            head := 0
            tail := 0
            eligible := false
            slot := none
            times := [] } } ∧ bound t (some (x.toNat / 2 ^ 16 % 2 ^ 16))) ∧
      (¬on → ∃ t, exec .queueConfigWrite s = .next t ∧ t = { s with
          ctxs := t.ctxs
          queues := aset s.queues k { q with config := x &&& ~~~ 0x100000000, eligible := false, slot := none } } ∧
        bound t none))

/-- 12 R325, R328, Table 12.7: a write of apply checks every written entry in order; the first failure names the result and changes no
channel, and a plan without one comes into force, draining the lasers whose channel changes. That a write without apply, or while busy,
is ignored is the model's choice (log 55). -/
def Claim.PlanApplication : Prop :=
  ∀ (s : State), s.boot = .running →
    let v := s.input.value
    let epoch := v.toNat / 16 % 2 ^ 32
    let chan := fun (f o l : Nat) => (s.planEntry f).toNat / 2 ^ (o + 8 * l) % 64
    let twice := fun (f : Nat) => ∃ l < 4, ∃ m < 4, l ≠ m ∧ (chan f 0 l = chan f 0 m ∨ chan f 32 l = chan f 32 m)
    let dark := fun (f : Nat) => ∃ l < 4, chan f 0 l = 0 ∨ chan f 32 l = 0
    let spare := fun (f : Nat) => ∃ k < 8, (s.planEntry f).toNat / 2 ^ (8 * k + 6) % 4 ≠ 0
    let gives := fun (r : Nat) => exec .planApply s = .next { s with planResult := r, planEpoch := epoch }
    (v.getLsbD 0 = false ∨ s.planBusy = true → exec .planApply s = .next s) ∧
    (v.getLsbD 0 = true → s.planBusy = false →
      (∀ f < 512, (∀ g < f, ¬twice g ∧ ¬dark g ∧ ¬spare g) →
        (twice f → gives 1) ∧ (¬twice f → dark f → gives 2) ∧ (¬twice f → ¬dark f → spare f → gives 3)) ∧
      ((∀ f < 512, ¬twice f ∧ ¬dark f ∧ ¬spare f) →
        let changed := fun (k : Nat) => k < 2048 ∧ chan (k / 4) 0 (k % 4) ≠ s.channel k
        ∃ t, exec .planApply s = .next t ∧ t = { s with
            planApplied := s.planWritten
            planResult := 0
            planEpoch := epoch
            planBusy := t.planBusy
            links := t.links } ∧ (t.planBusy = true ↔ ∃ k, changed k) ∧
          ∀ k, (changed k → aget t.links k = some .draining) ∧ (¬changed k → aget t.links k = aget s.links k)))

/-- 12 R315, 17 R422, R424, 20 R445: a write of zero clears a counter; a write of head frees records of the error ring; a write of the
cap is clamped; a command to a stack sets its scrub rate or, with retire set, retires a channel: the lines above 30 x 2^24 are
withdrawn with every cached copy, and migration begins. -/
def Claim.CounterAndStackWrites : Prop :=
  ∀ (s : State), s.boot = .running →
    let a := s.input.addr
    let v := s.input.value
    let k := s.input.unit
    let st := s.stack k
    (v.toNat % 2 ^ 32 ≠ 0 → exec .counterClear s = .next s) ∧
    (v.toNat % 2 ^ 32 = 0 →
      (∀ q < 270, ∀ c < 4, a = 0x80000100000 + 16 * q + 4 * c →
        exec .counterClear s = .next { s with misses := aerase s.misses (4 * q + c) }) ∧
      (∀ d < 12, ∀ q < 257, ∀ c < 4, a = 0x80000200000 + 0x2000 * d + 16 * q + 4 * c →
        exec .counterClear s = .next { s with lags := aerase s.lags (d, 4 * q + c) }) ∧
      ∀ d < 12,
        (a = 0x80000600010 + 64 * d → exec .counterClear s =
          .next { s with memStacks := aset s.memStacks d { s.stack d with corrected := 0 } }) ∧
        (a = 0x80000600018 + 64 * d → exec .counterClear s =
          .next { s with memStacks := aset s.memStacks d { s.stack d with poisoned := 0 } })) ∧
    exec .errorRingHeadWrite s = .next { s with errRing := { s.errRing with head := v.toNat, told := false } } ∧
    (k = 0 → exec .powerCapWrite s = .next { s with power := { s.power with cap := min 3200 (max 1200 v.toNat) } }) ∧
    (k ≠ 0 → exec .powerCapWrite s = .next s) ∧
    (k < 8 →
      let scrub := v.toNat / 2 ^ 16 % 2 ^ 16
      let reserved := v.toNat / 2 ^ 5 % 8 ≠ 0 ∨ v.toNat / 2 ^ 9 % 2 ^ 7 ≠ 0 ∨ v.toNat / 2 ^ 32 ≠ 0
      (v.getLsbD 8 = false → exec .channelRetire s = .next { s with memStacks := aset s.memStacks k { st with scrub := scrub } }) ∧
      (v.getLsbD 8 = true → st.mode ≠ 0 ∨ reserved →
        exec .channelRetire s = .next { s with memStacks := aset s.memStacks k { st with refused := true } }) ∧
      (v.getLsbD 8 = true → st.mode = 0 → ¬reserved →
        ∃ t, exec .channelRetire s = .next t ∧ t.mem = s.mem ∧ t.groups = s.groups ∧
          t.memStacks = aset s.memStacks k
            { st with scrub := scrub, refused := false, mode := 1, retired := v.toNat % 32, watermark := 2 ^ 24 } ∧
          (∀ b, t.withdrawn b = true ↔
            s.withdrawn b = true ∨ placeOf b = .hbm ∧ stackOf b = k ∧ 30 * 2 ^ 24 ≤ stackLine b) ∧
          ∀ e, e ∈ t.l1 ↔ e ∈ s.l1 ∧ t.withdrawn (128 * e.1.2) = false))

/-! ### Queues, candidates and launch -/

/-- 14 R369: a free slot takes the eligible inactive queue of highest rank, and at a comparison such a queue takes the slot of the
lowest-ranked active one if it outranks it. While the head record of an eligible queue lies in another package and has not been read,
the comparison waits (the model's choice: log 33). -/
def Claim.MapperSlots : Prop :=
  ∀ (s : State), (s.queues.map Prod.fst).Nodup →
    let inactive := fun (k : Nat) => ∃ q, (k, q) ∈ s.queues ∧ q.eligible = true ∧ q.slot = none
    let active := fun (k : Nat) => ∃ q, (k, q) ∈ s.queues ∧ q.slot ≠ none
    let rank := fun (k : Nat) => s.rank k (s.queue k)
    let best := fun (a : Nat) => inactive a ∧ ∀ c, inactive c → c ≠ a → outranks (rank a) (rank c) = true
    let worst := fun (b : Nat) => active b ∧ ∀ c, active c → c ≠ b → outranks (rank c) (rank b) = true
    let taken := fun (n : Nat) => ∃ e ∈ s.queues, e.2.slot = some n
    let free := fun (k : Nat) (slot : Option Nat) => { s.queue k with slot := slot }
    (s.ranking = true → exec .mapperRebalance s = .next s.stall) ∧
    (s.ranking = false → s.NoInactive → exec .mapperRebalance s = .next s) ∧
    (∀ a n, s.ranking = false → best a → (∀ c, inactive c → c = a) → n < 32 → ¬taken n → (∀ m < n, taken m) →
      exec .mapperRebalance s = .next { s with queues := aset s.queues a (free a (some n)) }) ∧
    (∀ a b, s.ranking = false → (∀ n < 32, taken n) → best a → worst b →
      exec .mapperRebalance s = .next (if outranks (rank a) (rank b) = true then
        { s with queues := aset (aset s.queues b (free b none)) a (free a (s.queue b).slot) } else s))

/-- 14 R370, R371: an evaluation finds which records and saved gangs are candidates, keeps the time when each became one, and makes
those reserving that have waited 2^20 clocks. How the scheduler reads records is the model's choice (log 33). -/
def Claim.Readiness : Prop :=
  ∀ (i : Instr) (s : State), s.NoInactive →
    (i = .candidateReserving ∨ i = .readinessPeriodicEvaluation ∧ (∀ l ∈ s.readinessLines, ∀ s', s.lineReady l false ≠ .demand s') ∧
      ∀ e ∈ s.queues, e.2.slot ≠ none → ∀ n ∈ s.windowOf e.2, ∀ pa,
        ({ s with fetched := [] } : State).recordView (s.ownerOf e.1) (s.ringEntry e.2 n) ≠ .away pa) →
    ∃ t, exec i s = .next t ∧ t = { s with waiting := t.waiting, reserving := t.reserving, admitting := t.admitting } ∧
      (t.admitting = s.admitting ∨ t.admitting = none) ∧
      (∀ key n, (key, n) ∈ t.waiting ↔ s.isCandidate key ∧ n = agetD s.waiting key s.now.toNat) ∧
      ∀ key, key ∈ t.reserving ↔ s.isCandidate key ∧ agetD s.waiting key s.now.toNat + 2 ^ 20 ≤ s.now.toNat

/-- 14 R366, R373, R374, 02 R28: the scheduler's choice is admitted: its entry is consumed, and its gang stands on the places chosen
with every register as Table 2.1 says. A record that fails its check, or cannot be read, is consumed and refused: the event names its
cause, and its signal takes minus the cause. How the scheduler reads records, and the cause of one that cannot be read, are the model's
choice (log 33). -/
def Claim.Admission : Prop :=
  ∀ (s : State) (c : Cand) (ps : List (Nat × List Nat × Nat)) (k i : Nat),
    let q := s.queue k
    let va := s.ringEntry q i
    let ctx := (s.ownerOf k).getD 65536
    let entry := span (q.entryAt i) 8
    let refused := fun (t : State) (cause : Nat) => s.EntryGone t k i ∧ t.gangs = s.gangs ∧ t.teams = s.teams ∧ t.groups = s.groups ∧
      t.events = s.events ++ [{ kind := .launchRefused, args := [ctx, k, va, cause] }]
    s.evalReady = s → s.choice = some (c, ps) → c.key = (k, i) → k ≠ 1024 → (s.queues.map Prod.fst).Nodup →
    q.count ≤ 2 ^ q.logSize → s.Takes entry →
    (∀ n < 2 ^ 32, q.holds n = true → s.lineReady (q.entryAt n / 128) false = .ready) →
    ((s.ownerOf k = none ∨ va % 64 ≠ 0 ∨
        (∃ st lv last reqs, s.translate [] ctx true .read va = .fail st lv last { s with memReqs := reqs }) ∨
        ∃ x, s.Walks ctx .read va x ∧ x.kind < 2 ∧ s.HomeRead (span (locOf x.pa) 64) ∧ s.isBad (span (locOf x.pa) 64) = true) →
      ∃ t, exec .taskAdmission s = .next t ∧ refused t 10 ∧ s.MemoryBut t entry) ∧
    (∀ bs x, s.recordView (s.ownerOf k) va = .record bs → s.Walks ctx .read va x → x.kind < 2 →
      s.HomeRead (span (locOf x.pa) 64) →
      let r := recordOf bs
      (r.cause ctx = none →
        ∃ t n, exec .taskAdmission s = .next t ∧ s.nextId ≤ n ∧ s.EntryGone t k i ∧ s.MemoryBut t entry ∧ t.events = s.events ∧
          aget t.gangs n = some {
            ctx := ctx
            recAddr := va
            rec_ := r
            appended := c.appended
            cores := ps.map Prod.fst
            admitted := s.clock
            sliceStart := s.now.toNat } ∧
          ∀ j p, ps[j]? = some p →
            aget t.teams (teamOf n j) = some {
              gang := n
              idx := j
              core := p.1
              quarters := p.2.1
              scratchBase := p.2.2
              units := if r.acc = 0 then [] else p.2.1.map fun m => (m, {}) } ∧
            ∀ g < r.groups, ∃ h, aget t.groups (gidOf (teamOf n j) g) = some h ∧
              h.Fresh r (teamOf n j) j g s.clock (s.ctx r.ctx).step ∧ h.marks = [] ∧ ∀ p, ∀ l < 32, h.posLane p l = 0) ∧
      ∀ cause, r.cause ctx = some cause →
        (r.signal = 0 → ∃ t, exec .taskAdmission s = .next t ∧ refused t cause ∧ s.MemoryBut t entry) ∧
        (∀ y, s.SignalReady ctx r y ((List.range (2 ^ q.logSize)).flatMap fun j => span (q.entryAt j) 8) →
          let w := if r.sig32 then 4 else 8
          ∃ t, exec .taskAdmission s = .next t ∧ refused t cause ∧ s.MemoryBut t (entry ++ span (locOf y.pa) w) ∧
            t.homeValue (locOf y.pa) w = 2 ^ (8 * w) - cause))

/-- 13 R360, 14 R376, 08 R269: an ordered pre-emption, and one by time slice for the reserving candidate of highest standing, ask
running gangs to stop: the lowest prio first, then the latest admitted, as many as let the candidate fit. An order that comes between a
gang and the first issue of its successor stays due, and one while the resume list and the gangs that stop fill it does nothing (the
model's choice: log 32). So is the name by which the order names a gang (log 53). -/
def Claim.PreemptionOrders : Prop :=
  (∀ (s : State), s.gangNamed s.input.unit s.input.addr = none → exec .preemptCommand s = .next s) ∧
  (∀ (s : State) (k : Nat) (x : Gang), s.gangNamed s.input.unit s.input.addr = some (k, x) → aget s.gangs k = some x →
    let full := 1024 ≤ s.resumeList.length + (s.gangs.filter fun e => e.2.run = .stopping).length
    (x.stopped = true ∨ full → exec .preemptCommand s = .next s) ∧
    (x.stopped = false → ¬full → x.run = .running → x.entering = false →
      exec .preemptCommand s = .next { s with gangs := aset s.gangs k { x with run := .stopping } }) ∧
    (x.stopped = false → ¬full → x.run = .handing ∨ x.run = .running ∧ x.entering = true →
      exec .preemptCommand s = .next { s with gangs := aset s.gangs k { x with preemptDue := true } })) ∧
  (∀ (s : State) (c : Cand) (n : Nat),
    let vs := s.victims c.prio
    let going := (s.gangs.filter fun e => e.2.run = .stopping).map Prod.fst
    let room := 1024 - s.resumeList.length - going.length
    let fits := fun (m : Nat) => (s.without (going ++ vs.take m)).fits c
    s.evalReady = s → (s.candidates.find? fun c => s.reserving.contains c.key) = some c → s.slice.toNat % 2 ^ 32 ≠ 0 →
    0 < room → 0 < n → n ≤ vs.length → (∀ m < n, fits m = none) → fits n ≠ none →
    (s.gangs.map Prod.fst).Nodup → (∀ e ∈ s.gangs, e.2.rec_.prio < 8 ∧ e.2.admitted ≤ 2 ^ 64) →
    (∀ k, k ∈ vs ↔ ∃ x, (k, x) ∈ s.gangs ∧ x.run = .running ∧ x.entering = false ∧ x.stopped = false ∧ x.rec_.prio < c.prio ∧
      x.sliceStart + 4096 * (s.slice.toNat % 2 ^ 32) ≤ s.now.toNat) ∧
    (vs.Pairwise fun a b => (s.gang a).rec_.prio < (s.gang b).rec_.prio ∨
      (s.gang a).rec_.prio = (s.gang b).rec_.prio ∧ (s.gang b).admitted ≤ (s.gang a).admitted) ∧
    ∃ t, exec .timeSliceExpiry s = .next t ∧ t = { s with gangs := t.gangs } ∧ ∀ k x, aget s.gangs k = some x →
      aget t.gangs k = some (if k ∈ vs.take (min n room) then { x with run := .stopping } else x))

/-- 13 R360, R361: a gang that stops and has settled is saved: the windows of its groups stand in their spill areas and the parts of its
teams in their save areas, every other byte of memory is as the gang's cores found it, the gang enters the resume list, its logged
stores leave the cores' logs, and who waits for it in `PREEMPT` learns so. What the parts hold and where they lie is the model's
(log 35); `GangResume` says it register by register. -/
def Claim.GangSave : Prop :=
  ∀ (s : State) (k : Nat) (x : Gang) (X : Nat → Xlat),
    let gids := s.gidsOf k
    let r := x.rec_
    let undone : State := { s with groups := s.groups.map fun e => if e.1 ∈ gids then (e.1, e.2.rollback.endChain) else e }
    s.input.index = k → aget s.gangs k = some x → x.run = .stopping → x.stopped = false → x.heldPage = none →
    s.settled k = true → s.resumeList.length < 1024 → s.GangSound k x → s.PagesReady k (x.cores.headD 0) x.ctx .write X →
    (∀ core ∈ x.cores, s.CacheSound core) →
    (∀ p ∈ s.savePieces k, ∀ b ∈ span (locOf (pieceAt X p.1).pa) p.2, inFirmware b = false ∧ s.withdrawn b = false) →
    ∃ t, exec .preemptionSave s = .next t ∧ aget t.gangs k = some { x with run := .saved } ∧ k ∈ t.resumeList ∧
      (∀ w ∈ s.saveWindows k, ∀ g, aget s.groups w.1 = some g → ∀ l < 32,
        t.homeValue (locOf (pieceAt X w.2.2).pa + 4 * l) 4 = (g.rollback.posLane w.2.1 l).toNat) ∧
      (∀ n u, aget s.teams n = some u → u.gang = k → ∀ p ∈ undone.areaParts n, ∀ j < p.2.length,
        p.1 + j < saveBytes r u.units.length → t.homeValue (areaByte X r u (p.1 + j)) 1 = (p.2.getD j 0).toNat) ∧
      (∀ b, (∀ p ∈ s.savePieces k, b ∉ span (locOf (pieceAt X p.1).pa) p.2) →
        readByte t.mem b = readByte s.mem b ∨ ∃ core ∈ x.cores, readByte t.mem b = s.seen core b) ∧
      (∀ gid ∈ gids, ∀ g, aget s.groups gid = some g → ∃ h, aget t.groups gid = some h ∧
        let b := g.rollback
        h.live = b.live ∧ h.parks = b.parks ∧ (∀ l < 32, h.pcOf l = b.pcOf l) ∧ h.wbase = b.wbase ∧ h.vregs = [] ∧
          b.SameScalars h ∧ b.SameMasks h ∧ b.SameFloat h ∧ h.chain.isOpen = false ∧ h.save = b.save) ∧
      (∀ e ∈ t.sideLog, e.gid ∈ gids → e.core = 256) ∧
      (∀ gid g, gid ∉ gids → aget s.groups gid = some g → g.preempting = some (k, none) →
        ∃ h, aget t.groups gid = some h ∧ h.preempting = some (k, some 0))

/-- 13 R361, R362: the scheduler's choice, a saved gang, stands on its new places and runs again, with the windows of its groups read back
from their spill areas, and its groups and teams as the teams' save areas give them: registers, lanes and save sets; scratch, tags,
full/empty bits, maps, barriers, matrix units and streams, and the numbers of the timelines. Its logged stores are in the logs of its new
cores. The layout of the save area is the model's (log 35). -/
def Claim.GangResume : Prop :=
  ∀ (s : State) (c : Cand) (ps : List (Nat × List Nat × Nat)) (k : Nat) (x : Gang) (X : Nat → Xlat),
    let r := x.rec_
    let gids := s.gidsOf k
    let cores := ps.map Prod.fst
    let num := s.areaNumber X r
    let word := fun (u : Team) (o : Nat) => BitVec.ofNat 32 (num u o 4)
    s.evalReady = s → s.choice = some (c, ps) → c.key = (1024, k) → aget s.gangs k = some x → x.heldPage = none →
    s.Faultless → (s.groups.map Prod.fst).Nodup → (s.teams.map Prod.fst).Nodup →
    s.PagesReady k ((ps.headD (0, [], 0)).1) x.ctx .read X →
    (∀ e ∈ s.teams, e.2.gang = k → e.2.idx < ps.length ∧ (aget s.groups (gidOf e.1 0)).isSome = true) → (∀ gid ∈ gids, s.writesOut gid = false) →
    (∀ gid ∈ gids, ∀ g, aget s.groups gid = some g →
      g.parks = [] ∧ g.fills = [] ∧ gid = gidOf g.team g.idx ∧ gid / 128 = g.team ∧ g.idx < r.groups) →
    (∀ j p, ps[j]? = some p →
      s.logUsed p.1 + (s.sideLog.filter fun e => (aget s.groups e.gid).map Group.team = some (teamOf k j)).length ≤ 512) →
    (∀ e ∈ s.l1, e.1.1 ∈ cores → e.2.dirty = 0) →
    (∀ q ∈ s.remotes, ∀ core by_, q.what = .back core by_ → ∀ w ∈ by_, w.1 ∉ gids) →
    (∀ p ∈ s.savePieces k, s.isBad (span (locOf (pieceAt X p.1).pa) p.2) = false) →
    ∃ t, exec .gangResume s = .next t ∧
      aget t.gangs k = some { x with run := .running, cores := cores, sliceStart := s.now.toNat, admitted := s.clock } ∧
      k ∉ t.resumeList ∧ t.mem = s.mem ∧
      t.sideLog = (s.sideLog.map fun e =>
        if e.gid ∈ gids then { e with core := ((aget t.groups e.gid).map t.coreOf).getD 0 } else e) ∧
      (∀ n u p, aget s.teams n = some u → u.gang = k → ps[u.idx]? = some p → ∃ v, aget t.teams n = some v ∧
        v.gang = k ∧ v.idx = u.idx ∧ v.core = p.1 ∧ v.quarters = p.2.1 ∧ v.scratchBase = p.2.2 ∧
        (∀ b < 4096 * r.scratch, readByte v.scratch b = BitVec.ofNat 8 (num u (scratchAt r + b) 1)) ∧
        (∀ z < 256 * r.scratch, z ∈ v.full ↔ (num u (fullAt r + z / 8) 1).testBit (z % 8) = true) ∧
        (∀ z < 16 * r.scratch, aget v.tags z =
          if num u (tagsAt r + 16 * z + 8) 1 = 1 then some (BitVec.ofNat 64 (num u (tagsAt r + 16 * z) 8)) else none) ∧
        (∀ m < 16, (v.tmap m).amax = word u (72 * m + 64) ∧ (v.tmap m).orig = word u (72 * m + 68) ∧
          ∀ j < 16, (v.tmap m).words.getD j 0 = mapStored j (word u (72 * m + 4 * j))) ∧
        (∀ m < 16, aget v.nbars m = some {
          expected := num u (1152 + 12 * m) 4
          arrived := num u (1156 + 12 * m) 4
          phase := num u (1160 + 12 * m) 4 % 2 = 1 }) ∧
        (v.barArrived = num u 1344 4 ∧ v.barPhase = decide (num u 1348 4 % 2 = 1) ∧ v.gbarArrived = num u 1352 4) ∧
        (∀ (j q : Nat) (w : MUnit), u.units[j]? = some (q, w) → ∃ y : MUnit, v.units[j]? = some (q, y) ∧
          (∀ m < r.acc, ∀ i < 4096, (agetD y.tiles m []).getD i 0 = word u (unitAt r j + 16384 * m + 4 * i)) ∧
          (∀ i < w.active.elems.length, y.active.elems.getD i 0 = num u (unitAt r j + 131072 + 4 * i) 4) ∧
          (∀ i < w.shadow.elems.length, y.shadow.elems.getD i 0 = num u (unitAt r j + 163840 + 4 * i) 4) ∧
          ∀ st, w.stream = some st → y.stream = some { st with
            pc := wordMod (num u (1360 + 24 * j) 4)
            rng := rngStored (word u (1364 + 24 * j))
            origin := BitVec.ofNat 64 (num u (1368 + 24 * j) 8) &&& 0x3FFFFF
            seqNo := num u (1376 + 24 * j) 8 })) ∧
      ∀ gid ∈ gids, ∀ g u, aget s.groups gid = some g → aget s.teams g.team = some u → ∃ h, aget t.groups gid = some h ∧
        let o := groupAt g.idx
        let wide := fun (n : Nat) => BitVec.ofNat 64 (num u (o + n) 8)
        h.wbase = g.wbase ∧ h.team = g.team ∧ h.idx = g.idx ∧ h.hold = g.hold ∧
        (∀ n < 64, h.s n = wide (8 * n)) ∧ (∀ n < 16, h.h n = wide (512 + 8 * n)) ∧
        h.origin = wide 640 &&& 0x3FFFFF ∧ h.fpflags = wide 648 &&& 0x3F ∧ h.svc = wide 656 &&& 3 ∧
        h.lastnan = wide 664 &&& 0x803FFFFF ∧
        (∀ l < 32, h.pcOf l = wordMod (num u (o + 672 + 4 * l) 4) ∧ h.rng.at l = rngStored (word u (o + 800 + 4 * l))) ∧
        (∀ n < 9, h.m n = word u (o + 928 + 4 * n)) ∧
        h.supervisor = (num u (o + 968) 4).testBit 0 ∧ h.live = word u (o + 976) ∧
        ((num u (o + 972) 4).testBit 0 = false → h.save = none) ∧
        ((num u (o + 972) 4).testBit 0 = true → ∃ sv, h.save = some sv ∧ sv.em = word u (o + 984) ∧
          sv.resume = wordMod (num u (o + 988) 4) ∧ (∀ n < 8, sv.sregs.getD n 0 = wide (1000 + 8 * n)) ∧
          ∀ l < 32, sv.lpc.getD l 0 = wordMod (num u (o + 1064 + 4 * l) 4)) ∧
        (∀ e, aget s.engines (.copy gid) = some e → (t.engine (.copy gid)).issued = num u (2048 + 16 * (gid % 128)) 8) ∧
        (∀ e, aget s.engines (.kiosk gid) = some e → (t.engine (.kiosk gid)).issued = num u (2056 + 16 * (gid % 128)) 8) ∧
        ∀ w ∈ s.saveWindows k, w.1 = gid → ∀ l < 32,
          h.posLane w.2.1 l = BitVec.ofNat 32 (s.homeValue (locOf (pieceAt X w.2.2).pa + 4 * l) 4)

/-- 07 R236, 14 R375: a team whose groups have all ended retires; with the gang's last team, a fixed successor is due, or the gang is
gone and its signal is decremented by one at its width. -/
def Claim.Retirement : Prop :=
  ∀ (s : State) (x : Team) (gang : Gang),
    let t := s.input.index
    let k := x.gang
    let left := { x with retired := true, nbars := [], tags := [], barArrived := 0, gbarArrived := 0 }
    aget s.teams t = some x → aget s.gangs k = some gang → x.retired = false → gang.run ≠ .saved → gang.run ≠ .killed →
    gang.stopped = false → s.liveGroups t = 0 → (∀ e ∈ s.sideLog, ∀ g, aget s.groups e.gid = some g → g.team ≠ t) →
    (∀ u ∈ x.units, ∀ st, u.2.stream = some st → st.running = false) → (s.teams.map Prod.fst).Nodup →
    ((∃ e ∈ s.teams, e.1 ≠ t ∧ e.2.gang = k ∧ e.2.retired = false) → (∀ e ∈ s.teams, e.2.gang = k → e.1 ≠ t → e.2.gbarArrived = 0) →
      exec .teamRetirement s = .next { s with teams := aset s.teams t left }) ∧
    ((∀ e ∈ s.teams, e.1 ≠ t → e.2.gang = k → e.2.retired = true) →
      (gang.successor ≠ none → exec .teamRetirement s = .next { s with
        teams := aset s.teams t left
        gangs := aset s.gangs k { gang with run := .handing, preemptDue := gang.preemptDue || gang.run == .stopping } }) ∧
      (gang.successor = none → (∀ gid ∈ s.gidsOf k, s.writesOut gid = false) → (∀ e ∈ s.l1, e.2.dirty = 0) →
        (∀ c ∈ gang.cores, s.backing c = false) →
        let gone := fun (m : State) => m.gangs = aerase s.gangs k ∧ m.teams = (s.teams.filter fun e => e.2.gang ≠ k) ∧
          (∀ e, e ∈ m.groups ↔ e ∈ s.groups ∧ e.1 ∉ s.gidsOf k)
        (gang.rec_.signal = 0 → ∃ m, exec .teamRetirement s = .next m ∧ gone m ∧ m.mem = s.mem) ∧
        (∀ y, s.SignalReady gang.ctx gang.rec_ y [] →
          let w := if gang.rec_.sig32 then 4 else 8
          ∃ m, exec .teamRetirement s = .next m ∧ gone m ∧ s.MemoryBut m (span (locOf y.pa) w) ∧
            m.homeValue (locOf y.pa) w = (s.homeValue (locOf y.pa) w + 2 ^ (8 * w) - 1) % 2 ^ (8 * w))))

/-- 07 R239, 08 R269 to R271: the fixed successor starts in its gang's place; its registers are as at admission, but for the vector
registers, scratch units, map registers, planes and tiles that the starter mask of its team keeps. A pre-emption that was due of the
gang is due of it. That the successor is the record as `HANDOFF` read it is the model's choice (log 30). -/
def Claim.Succession : Prop :=
  ∀ (s : State) (x : Gang) (va : Nat) (r : Record),
    let k := s.input.index
    let kept := fun (t : Team) (n : Nat) => (leValue (t.starter.getD [])).testBit n = true
    aget s.gangs k = some x → x.run = .handing → x.successor = some (va, r) → (s.groups.map Prod.fst).Nodup →
    (s.teams.map Prod.fst).Nodup → (∀ gid ∈ s.gidsOf k, s.writesOut gid = false) →
    ∃ t, exec .successorAdmission s = .next t ∧ t.mem = s.mem ∧
      aget t.gangs k = some {
        ctx := x.ctx
        recAddr := va
        rec_ := r
        cores := x.cores
        admitted := s.clock
        entering := true
        preemptDue := x.preemptDue
        appended := x.appended
        sliceStart := s.now.toNat } ∧
      (∀ n u, aget s.teams n = some u → u.gang = k →
        (∀ gid g, aget s.groups gid = some g → g.team = n → ∃ h, aget t.groups gid = some h ∧
          h.Fresh r n u.idx g.idx s.clock (s.ctx x.ctx).step ∧ h.lost = g.lost ∧
          ∀ p, ∀ l < 32, h.posLane p l =
            if p < 8 * min x.rec_.window r.window ∧ (leValue (u.starter.getD [])).testBit (p / 8) = true then g.posLane (g.wbase + p) l
            else 0) ∧
        ∃ v, aget t.teams n = some v ∧ v.gang = k ∧ v.idx = u.idx ∧ v.core = u.core ∧ v.quarters = u.quarters ∧
          v.scratchBase = u.scratchBase ∧ v.nbars = [] ∧ v.tags = [] ∧ v.retired = false ∧ v.starter = none ∧
          (∀ b, readByte v.scratch b =
            if b / 4096 < min x.rec_.scratch r.scratch ∧ kept u (128 + b / 4096) then readByte u.scratch b else 0) ∧
          (∀ e, e ∈ v.full ↔ e ∈ u.full ∧ e / 256 < min x.rec_.scratch r.scratch ∧ kept u (128 + e / 256)) ∧
          (∀ n, aget v.tmaps n = if (leValue (u.starter.getD [])).testBit (384 + n) = true then aget u.tmaps n else none) ∧
          ∀ (j q : Nat) (w : MUnit), u.units[j]? = some (q, w) → ∃ y : MUnit, v.units[j]? = some ((u.quarters[j]?).getD q, y) ∧ y.stream = none ∧
            (kept u 408 → y.active = w.active ∧ y.shadow = w.shadow) ∧ (¬kept u 408 → y.active = {} ∧ y.shadow = {}) ∧
            ∀ n, aget y.tiles n =
              if n < min x.rec_.acc r.acc ∧ (leValue (u.starter.getD [])).testBit (400 + n) = true then aget w.tiles n else none)

/-! ### Power and memory upkeep -/

/-- 20 R446, R447: a tick of the power control records what it measured and lowers the throttle while power exceeds the cap; where the
spec gives no value the throttle is free, and that it may rise again is the model's choice (log 39). A limit of temperature or
coolant sets the throttle to 64 and posts its event. -/
def Claim.PowerControl : Prop :=
  ∀ (s : State),
    let i := s.input
    let p := s.power
    let w := i.value.toNat
    (s.boot ≠ .off → ∃ x, exec .powerControlTick s = .next { s with
        draws := s.draws + 1
        power := { p with
          power := w
          energy := p.energy + w
          temp := i.index
          coolant := i.addr % 2 ^ 32
          throttle := x
          withheld := decide (p.cap < w ∧ p.throttle = 0) } } ∧
      (p.cap < w → 0 < p.throttle → x < p.throttle) ∧ (w ≤ p.cap → p.throttle ≤ 256 → p.throttle ≤ x ∧ x ≤ 256)) ∧
    (95 * 16 ≤ i.index ∨ 40 * 16 < i.addr % 2 ^ 16 ∨ i.addr / 2 ^ 16 % 2 ^ 16 < 400 →
      exec .thermalLimit s = .next (State.post { s with
        power := { p with throttle := 64, temp := i.index, coolant := i.addr % 2 ^ 32 } }
        { kind := .thermalLimit, args := [i.index, i.addr] }))

/-- 17 R421: a stack at its limit is held, its hold ends below the other limit with a record of its length, and a hold of 10 ms is
told. -/
def Claim.ThermalHolds : Prop :=
  ∀ (s : State),
    let k := s.input.unit
    let st := s.stack k
    let now := s.now.toNat
    let set := fun (x : Stack) => { s with memStacks := aset s.memStacks k x }
    (k < 12 → st.held = false → (if k < 8 then 105 else 95) ≤ s.input.value.toNat →
      exec .stackThermalHold s = .next (set { st with held := true, heldSince := now, holdTold := false })) ∧
    (st.held = true → s.input.value.toNat < (if k < 8 then 95 else 85) →
      exec .stackThermalRelease s = .next ((set { st with held := false }).record {
        kind := 0xD
        aux := now - st.heldSince
        severity := 0
        unitType := if k < 8 then 2 else 3
        unit := if k < 8 then 32 * k else k - 8 })) ∧
    (st.held = true → st.holdTold = false → st.heldSince + 12000000 ≤ now →
      exec .tempHold s = .next ((set { st with holdTold := true }).post { kind := .tempHold, args := [k] }))

/-- 17 R422, R423: a record is 64 bytes at its place in the ring, and its event names its index; with no room or no ring it is only
counted. That a ring which does not lie in HBM counts as no ring is the model's choice (log 61). Who is named as the finder of an error
where the spec does not say is the model's choice (log 52). -/
def Claim.ErrorRecords : Prop :=
  ∀ (s : State) (r : ErrRec),
    let e := s.errRing
    let at_ := locOf e.base + 64 * (e.tail % 2 ^ e.n)
    let word := fun (t : State) (n : Nat) => readLE t.mem (at_ + 8 * n) 8
    (e.n < 6 ∨ 16 < e.n ∨ placeOf at_ ≠ .hbm → s.record r = { s with errRing := { e with overflow := e.overflow + 1 } }) ∧
    (6 ≤ e.n → e.n ≤ 16 → placeOf at_ = .hbm → 2 ^ e.n - 1 ≤ e.tail - e.head → s.record r = { s with
      errRing := { e with overflow := e.overflow + 1, told := true }
      events := s.events ++ if e.told then [] else [{ kind := .errorOverflow }] }) ∧
    (6 ≤ e.n → e.n ≤ 16 → placeOf at_ = .hbm → e.tail - e.head < 2 ^ e.n - 1 → s.mem.wf = true → r.severity < 4 → r.unit < 2 ^ 12 → r.unitType < 16 →
      r.ctx < 2 ^ 16 → r.gen < 2 ^ 32 → r.count < 2 ^ 32 → r.addr < 2 ^ 57 → r.aux < 2 ^ 64 → r.kind < 16 → r.detail < 16 →
      let t := s.record r
      t.events = s.events ++ [{ kind := .errorRecord, args := [e.tail] }] ∧ t.errRing = { e with tail := e.tail + 1 } ∧
      s.MemoryBut t (span at_ 64) ∧ word t 0 = 0 ∧ word t 1 = 0 ∧
      word t 2 = r.severity + r.unit * 2 ^ 32 + r.unitType * 2 ^ 44 + r.ctx * 2 ^ 48 ∧ word t 3 = r.gen + r.count * 2 ^ 32 ∧
      word t 4 = r.addr + (if r.virt then 2 ^ 63 else 0) ∧ word t 5 = r.aux ∧ word t 6 = r.kind * 16 + r.detail ∧
      word t 7 = s.now.toNat)

/-- 17 R420, R424, R425: row counters, the stripes of a migration, and patrol scrub, which passes over lines in ascending order: it writes
a corrected line back, and does not write one that it cannot correct. -/
def Claim.MemoryUpkeep : Prop :=
  ∀ (s : State),
    let i := s.input
    let k := i.unit
    let st := s.stack k
    let row := (k, i.addr, i.index)
    let reset := { s with rowActs := aerase s.rowActs row }
    let set := fun (x : Stack) => { s with memStacks := aset s.memStacks k x }
    let lines := s.stackLines k
    let a := stackAddr k (st.scrubAt % lines)
    let next := { st with scrubAt := (st.scrubAt + 1) % lines }
    (i.code = 0 → exec .rowActivationRefresh s =
      .next { s with rowActs := aset s.rowActs row (min 4095 (agetD s.rowActs row 0 + 1)) }) ∧
    (i.code = 1 → exec .rowActivationRefresh s = .next (if 4000 ≤ agetD s.rowActs row 0 then reset else s)) ∧
    (1 < i.code → exec .rowActivationRefresh s = .next (reset.recordCorrected
      { kind := 6, aux := i.addr * 2 ^ 32 + i.index, unitType := 2, unit := k, severity := 0 })) ∧
    (st.mode = 1 → st.held = false → 1 < st.watermark →
      exec .migrateStripe s = .next (set { st with watermark := st.watermark - 1 })) ∧
    (st.mode = 1 → st.held = false → st.watermark = 1 →
      ∃ n, exec .migrateStripe s = .next ((set { st with watermark := 0, mode := 2 }).record
        { kind := 0xC, aux := 2 ^ 24, count := n, unitType := 2, unit := 32 * k + st.retired, severity := 0 })) ∧
    (k < 12 → st.scrub ≠ 0 → st.held = false →
      (aget s.flaws (a / 128) = none → s.rebuilds a = false → exec .patrolScrub s = .next (set next)) ∧
      (∀ f, aget s.flaws (a / 128) = some f → f.kind = .hard → ∃ t, exec .patrolScrub s = .next t ∧ t.flaws = s.flaws ∧
        t.poison = s.poison ∧ t.mediaPoison = s.mediaPoison ∧ t.badCheck = s.badCheck ∧ t.groups = s.groups ∧
        (t.stack (stackOf a)).poisoned = sat32 ((s.stack (stackOf a)).poisoned + 1)) ∧
      (∀ f, aget s.flaws (a / 128) = some f → f.kind ≠ .hard → ∃ t, exec .patrolScrub s = .next t ∧
        t.flaws = aerase s.flaws (a / 128) ∧ t.poison = s.poison ∧ t.groups = s.groups ∧
        (t.stack (stackOf a)).corrected = sat32 ((s.stack (stackOf a)).corrected + 1)) ∧
      ∃ t, exec .patrolScrub s = .next t ∧ (t.stack k).scrubAt = next.scrubAt ∧ t.groups = s.groups) ∧
    (lines = if 8 ≤ k then 2 ^ 32 else if st.mode = 0 then 31 * 2 ^ 24 else 30 * 2 ^ 24) ∧
    ∀ d < 8, ∀ n < 31 * 2 ^ 24, placeOf (stackAddr d n) = .hbm ∧ stackOf (stackAddr d n) = d ∧ stackLine (stackAddr d n) = n

/-- 12 R314, R315: a channel scheduler serves the request that has waited 65 536 clocks and is oldest, else the lowest class, then the
earliest deadline, then the earliest arrival; one served after its deadline counts as a miss of its requester and class. -/
def Claim.MemoryRequests : Prop :=
  ∀ (s : State) (r : MemReq),
    let i := s.input
    let now := s.now.toNat
    let old := fun (q : MemReq) => q.arrived + 65536 ≤ now
    let ahead := fun (x y : MemReq) => old x ∧ (¬old y ∨ x.arrived < y.arrived) ∨
      ¬old x ∧ ¬old y ∧ (x.cls < y.cls ∨ x.cls = y.cls ∧ (x.deadline < y.deadline ∨ x.deadline = y.deadline ∧
        x.arrived < y.arrived))
    r ∈ s.memReqs → r.channel = i.unit → s.memReqs.Pairwise (fun x y => x.requester ≠ y.requester ∨ x.line ≠ y.line) →
    (∀ x ∈ s.memReqs, x.channel = i.unit → x ≠ r → ahead r x) → (s.stack (stackOf (128 * r.line))).held = false → i.code = 0 →
    exec .memoryRequestService s = .next { s with
      memReqs := s.memReqs.erase r
      misses := if now ≤ r.deadline then s.misses
        else aset s.misses (4 * r.requester + r.cls) (min (agetD s.misses (4 * r.requester + r.cls) 0 + 1) 0xFFFFFFFF) }

/-- 17 R419: an uncorrectable error of an on-chip store: a register lane is marked poisoned, a scratch granule or an accumulator
element is poisoned, a clean line of L1 is dropped, and a persist-queue entry drains poisoned. That such an error strikes is an
input of the model. -/
def Claim.OnChipErrors : Prop :=
  ∀ (s : State),
    let i := s.input
    (∀ g, i.code = 32 → aget s.groups i.unit = some g → ∃ t h m, exec .memoryRequestService s = .next t ∧ s.GroupTo t i.unit h ∧
      { h with marks := g.marks } = g ∧ h.marks = g.marks ++ [m] ∧ m.scalar = false ∧ m.reg = i.index ∧ m.lane = i.addr % 32 ∧
      m.kind = .poison) ∧
    (∀ x, i.code = 33 → aget s.teams i.unit = some x → ∃ t y, exec .memoryRequestService s = .next t ∧
      aget t.teams i.unit = some y ∧ { y with spoiled := x.spoiled } = x ∧ ∀ n, n ∈ y.spoiled ↔ n ∈ x.spoiled ∨ n = i.index) ∧
    (∀ x u, i.code = 34 → i.index / 4096 < 16 → aget s.teams i.unit = some x → aget x.units i.addr = some u →
      ∃ t y v, exec .memoryRequestService s = .next t ∧ aget t.teams i.unit = some y ∧ aget y.units i.addr = some v ∧
        v.tiles = u.tiles ∧ i.index % 4096 ∈ agetD v.spoiled (i.index / 4096) []) ∧
    (∀ l, i.code = 35 → aget s.l1 (i.unit, i.index) = some l → l.dirty = 0 →
      ∃ t, exec .memoryRequestService s = .next t ∧ aget t.l1 (i.unit, i.index) = none ∧ t.groups = s.groups) ∧
    (∀ p, i.code = 39 → s.persists[i.index]? = some p → ∃ t, exec .memoryRequestService s = .next t ∧
      t.persists[i.index]? = some { p with spoiled := beatsOf (p.cells.map Prod.fst) })

/-! ### The fabric -/

/-- 12 R330: a packet whose flit count or header check fails, with a nonzero reserved bit, or of a class or operation that the receiver
does not know is discarded with `FABRIC_PROTOCOL`; a part of a packet is kept until the others have come. The operation codes and the
parts are the model's (log 15). -/
def Claim.PacketChecks : Prop :=
  ∀ (i : Instr) (s : State) (known : List (Nat × Nat)),
    let p := s.input.pkt
    let good := p.framed = true ∧ p.checkOk = true ∧ p.reserved = 0 ∧ (p.cls, p.op % 64) ∈ known
    (i = .fabricRequest ∧ known = [(0, 0), (0, 1), (0, 2), (0, 3), (0, 5), (3, 4), (3, 6)] ∨
      i = .copyEnginePacket ∧ known = [(5, 0), (5, 1), (5, 8)] ∨
      (i = .fabricResponse ∨ i = .remoteWriteAck) ∧ known = [(2, 0)] ∨
      i = .tlbInvalidateMessage ∧ known = [(0, 9)] ∨
      i = .stripeContribution ∧ known = [(6, 10)] ∨
      i = .rebuildContribution ∧ known = [(6, 11)] ∨
      i = .multicastReplicaWrite ∧ known = [(4, 1)] ∨
      i = .multicastRowUpdate ∧ known = [(4, 12), (4, 7)]) →
    (p.direct = true → s.hears p.src = true) →
    (¬good → exec i s = .next (s.post { kind := .fabricProtocol, args := [p.src] })) ∧
    (good → 64 ≤ p.op → joinParts p (s.parts.filter (fun q => q.whole = p.whole) ++ [p]) = none →
      exec i s = .next { s with parts := s.parts ++ [p] })

/-- 12 R330, 06 R171, R198, 11 R286: what a package does for a request of another: it answers a read with the bytes at their home,
performs a write and acknowledges it, for SCM once it is accepted (the halves of 16 bytes apart, 11 R306), and performs a
read-modify-write and answers with the old value, of a signal with the new one. Operation codes and layouts are the model's (log 15). -/
def Claim.RemoteService : Prop :=
  ∀ (i : Instr) (s : State) (p : Packet) (w : Nat),
    let a := locOf p.addr
    let val := fun (o n : Nat) => leValue ((p.data.drop o).take n)
    let served := fun (bs : List Byte) (status : Nat) (data : List Byte) =>
      ∃ t, exec i s = .next t ∧ s.Served t p a bs status data ∧ t.parts = s.heard.parts
    let told := fun (bs : List Byte) => ∃ t, exec i s = .next t ∧ t.mem = s.mem ∧ t.parts = s.heard.parts ∧
      t.egress = s.egress ++ [{ pkt := (s.reply p 0 bs []).sealed, since := s.now.toNat }]
    let rmw := fun (v : Nat) (fl : Flags) (back : Nat) => served (leBytes w v) (256 * fl.toNat) (leBytes w back)
    let old := s.homeValue a w
    s.Delivers p → p.spoiled = [] → 0 < w → s.Takes (span a w) →
    (i = .fabricRequest ∧ p.cls = 0 ∨ i = .copyEnginePacket ∧ p.cls = 5 →
      (p.op = 0 → p.opdata % 2 ^ 16 = w → w ≤ 128 → told (s.readHome a w)) ∧
      (p.op = 1 → p.opdata % 256 = w → w ≤ p.data.length → served (p.data.take w) 0 [])) ∧
    (i = .multicastReplicaWrite → p.cls = 4 → p.op = 1 → p.opdata / 256 % 256 = w → w ≤ p.data.length →
      served (p.data.take w) 0 []) ∧
    (i = .fabricRequest → p.cls = 0 → p.opdata % 256 = w → w = 4 ∨ w = 8 →
      (p.op = 2 → let r := atomNew (p.opdata / 256 % 256) (8 * w) (BitVec.ofNat 22 (val w 4)) old (val 0 w)
        rmw r.1 r.2 old) ∧
      (p.op = 3 → old = val 0 w → rmw (val w w) 0 old) ∧
      (p.op = 3 → old ≠ val 0 w → told (leBytes w old)) ∧
      (p.op = 5 → let v := wrap (8 * w) (if p.opdata / 256 % 256 = 1 then (old : Int) - val 0 8 else old + val 0 8)
        rmw v 0 v)) ∧
    (i = .copyEnginePacket → p.cls = 5 → p.op = 8 → p.opdata % 256 = w →
      let c := val w 4
      let r := reduceElem (Ty.ofCode (BitVec.ofNat 4 (val (w + 8) 1))) (c % 4) ((Rnd.ofCode (BitVec.ofNat 3 (c / 4))).getD .rn)
        (c / 32 % 2 == 1) (BitVec.ofNat 22 (val (w + 4) 4)) (c / 64) old (val 0 w)
      rmw r.1 r.2 old)

/-- 06 R176, R190, 12 R330, R333 to R335, R337: a Kiosk packet of another package joins the queue of the Kiosk that owns its address,
with its own agent, class, context and generation; the updates that home replicas send on are of one agent, so that a member applies
them in the order received. An `STM.row` update that comes to wait behind a read of its row counts it as lagging; no other packet
changes more than the queue. Layouts are the model's (log 15). -/
def Claim.RemoteKioskSteps : Prop :=
  ∀ (i : Instr) (s : State) (p : Packet),
    let a := locOf p.addr
    let u := s.heard
    -- an update for the home replica begins with the members that it goes on to
    let data := if p.op = 12 then p.data.drop 8 else p.data
    let cells := rowCellsOf (data.drop 8)
    let size := if p.cls = 3 then p.opdata % 2 ^ 16 else p.opdata / 256
    s.Delivers p → s.kioskLoad (kioskOf a) < 512 →
    (i = .fabricRequest → p.cls = 3 → p.op = 6 → ∃ c, exec i s = .next { u with chases := s.chases ++ [c] } ∧
      c.origin = some (p.src, p.tag, p.ctx, p.svc) ∧ c.away = false ∧ c.agent = p.agent ∧ c.xgen = p.xgen ∧ c.reqAddr = p.addr ∧
      c.since = s.clock ∧ ∃ x, c.arrived = some x ∧ x.pa = p.addr ∧ x.inv = p.opdata) ∧
    (i = .fabricRequest ∧ p.cls = 3 ∧ p.op = 4 ∨ i = .multicastRowUpdate ∧ p.cls = 4 ∧ (p.op = 12 ∨ p.op = 7) →
      (memorySpan a size = true ∧ size ≤ 1024 ∧ (∀ c ∈ cells, c.1 < size) →
        ∃ t rs r, exec i s = .next t ∧ t = { u with rowOps := rs ++ [r], nextId := s.nextId + 1, lags := t.lags } ∧
          r.id = s.nextId ∧ r.pa = p.addr ∧ r.kiosk = kioskOf a ∧ r.cls = p.svc ∧ r.requester = 256 ∧ r.ctx = p.ctx ∧ r.xgen = p.xgen ∧
          r.size = size ∧ r.data = cells ∧ r.tag = BitVec.ofNat 64 (leValue (data.take 8)) ∧
          r.op = (if p.cls = 3 then p.opdata / 2 ^ 16 % 256 else 4) ∧ r.sender = some (p.src, p.tag) ∧
          r.agent = (if p.op = 7 then 2 ^ 41 else 2 ^ 40 + p.src * 2 ^ 16 + p.agent) ∧
          (p.op = 12 → ∀ j < 64, j ∈ r.members ↔ (leValue (p.data.take 8)).testBit j = true) ∧
          (r.op ≠ 4 → rs = s.rowOps ∧ t.lags = s.lags) ∧
          rs.map (fun x => { x with lagged := false }) = s.rowOps.map fun x => { x with lagged := false }) ∧
      (memorySpan a size = false ∨ 1024 < size ∨ (∃ c ∈ cells, size ≤ c.1) →
        exec i s = .next (u.post { kind := .fabricProtocol, args := [p.src] })))

/-- 12 R330, R332, 11 R286: a response completes the open request of its tag: a load or read-modify-write brings its value into its
lane, and a load into those that asked with it, a scalar's into its register, a write is performed, a copy engine and a spill area get
their bytes; a failed one marks the lanes, and one that its owner discarded loses the store. An answer for a lane that has not parked
since it asked, and a response that names no open request, change nothing. Statuses are the model's (log 15). -/
def Claim.RemoteCompletion : Prop :=
  ∀ (i : Instr) (s : State) (p : Packet),
    let u := s.heard
    let status := p.opdata % 256
    let good := p.spoiled = [] ∧ status = 0
    let bad := p.spoiled ≠ [] ∨ status ≠ 0 ∧ status ≠ 7
    let left := fun (r : Remote) => s.remotes.filter fun x => x.tag ≠ r.tag ∨ x.peer ≠ r.peer
    let ends := fun (r : Remote) => exec i s = .next { u with remotes := left r }
    let closed := fun (t : State) (r : Remote) => t.remotes = left r ∧ t.mem = s.mem ∧ t.parts = u.parts
    (i = .fabricResponse ∨ i = .remoteWriteAck) → s.Delivers p → p.cls = 2 → p.op = 0 →
    (status = 12 → ∀ r gid page, s.openFor p.tag (p.opdata / 256 % 64) = some r → r.what = .write gid page →
      exec i s = .next (State.discard { u with remotes := left r } (some gid) r.addr page 0 1)) ∧
    (status ≠ 12 → s.openFor p.tag p.src = none → exec i s = .next u) ∧
    (∀ r, status ≠ 12 → s.openFor p.tag p.src = some r →
      (∀ gid d l w word va g ls, (r.what = .load gid d l w word va ∧ ls = l :: r.also ∨ r.what = .atom gid d l w word va ∧ ls = [l]) →
        aget s.groups gid = some g → (∀ k ∈ ls, k < 32) → (w = 4 ∨ w = 8) → p.data.length = w →
        ∃ t h, exec i s = .next t ∧ closed t r ∧ s.GroupTo t gid h ∧ (∀ q, q ∈ h.pend ↔ q ∈ g.pend ∧ q.by_ ≠ .remote r.tag) ∧
          g.SameScalars h ∧ g.SameMasks h ∧
          (good → ∀ q, ∀ k < 32, h.posLane q k = if k ∈ ls ∧ d ≤ q ∧ q < d + w / 4 then
            BitVec.ofNat 32 (leValue p.data / 2 ^ (32 * (q - d))) else g.posLane q k) ∧
          (bad → g.SameVectors h ∧ ∀ k ∈ ls, ∀ q, d ≤ q → q < d + w / 4 → ∃ m ∈ h.marks, m.scalar = false ∧ m.reg = q ∧ m.lane = k ∧
            m.kind = .poison)) ∧
      (∀ gid page, (r.what = .write gid page ∨ r.what = .scmWrite gid page) →
        (status ≠ 7 → ends r) ∧
        (∀ g, status = 7 → aget s.groups gid = some g →
          ∃ t h, exec i s = .next t ∧ closed t r ∧ s.GroupTo t gid h ∧ { h with lost := g.lost } = g ∧
            ∃ x ∈ h.lost, x.page = page ∧ x.status = 0)) ∧
      (∀ core by_, r.what = .back core by_ → status ≠ 7 → ends r) ∧
      (∀ gid n page fragment c va, (r.what = .snap gid n page fragment ∨ r.what = .inval c n page ∨ r.what = .signal c va) → good → ends r) ∧
      (∀ gid l since g, r.what = .parkRead gid l since → aget s.groups gid = some g → status ≠ 7 →
        (∀ k ∈ g.parks, ¬(k.lane = l ∧ k.since = since)) → ends r) ∧
      (∀ gid n, r.what = .copyUnit gid n → p.data ≠ [] → status ≠ 7 → exec i s = .next { u with
        remotes := left r
        copyOps := s.copyOps.map fun o => if o.gid = gid ∧ o.seqNo = n then
          { o with got := aset o.got r.addr (p.data, p.spoiled), lostPeer := o.lostPeer } else o }) ∧
      (∀ gid key g, r.what = .fill gid key → aget s.groups gid = some g → good →
        ∃ t h, exec i s = .next t ∧ closed t r ∧ s.GroupTo t gid h ∧ { h with fills := g.fills } = g ∧
          h.fills = aset g.fills key (p.data, none)) ∧
      (∀ gid d w word va g, r.what = .scalar gid d w word va → aget s.groups gid = some g → (w = 4 ∨ w = 8) → p.data.length = w →
        good → ∃ t h, exec i s = .next t ∧ closed t r ∧ s.GroupTo t gid h ∧ g.SameVectors h ∧ g.SameMasks h ∧
          ∀ n, h.s n = if n = d then (if w = 8 then BitVec.ofNat 64 (leValue p.data)
            else (BitVec.ofNat 32 (leValue p.data)).signExtend 64) else g.s n))

/-- 13 R354: an invalidation of another package drops the context's translations of the range, in every cache, and advances its
translation generation; the answer waits for what was translated before. The name by which chases know it is the model's (log 15). -/
def Claim.InvalidateMessages : Prop :=
  ∀ (s : State) (p : Packet) (c : Ctx),
    let base := leValue (p.data.take 8)
    let len := leValue ((p.data.drop 8).take 8)
    s.Delivers p → p.cls = 0 → p.op = 9 → aget s.ctxs p.ctx = some c →
    (∀ e ∈ s.l1, e.2.dirty ≠ 0 → s.storedIn p.ctx e.2.by_ = false) →
    ∃ t v, exec .tlbInvalidateMessage s = .next t ∧
      t = { s.heard with
        tlbs := t.tlbs
        ctxs := aset s.ctxs p.ctx { c with xgen := c.xgen + 1, invs := invStamp p.src p.xgen :: c.invs }
        invals := s.invals ++ [v] } ∧
      v.sender = some (p.src, p.tag) ∧ v.ctx = p.ctx ∧
      (∀ r ∈ s.remotes, ∀ gid page, r.what = .write gid page → s.gidIn p.ctx gid = true → r.tag ∈ v.tags) ∧
      (∀ r ∈ s.rowOps, r.ctx = p.ctx → r.id ∈ v.rows) ∧
      ∀ e, e ∈ t.tlbs ↔ e ∈ s.tlbs ∧ ¬(e.2.ctx = p.ctx ∧ (len = 0 ∨ e.2.base < base + len ∧ base < e.2.base + 2 ^ e.2.bits))

/-- 12 R327, R328, R330 to R332, R338: the links: a draining laser retunes once everything sent on it is acknowledged; training
succeeds or is told; acknowledgements free the egress and failed runs are counted; at the sixteenth failed resend on end the link is
down and what it has not delivered goes out again; and a packet that waited 10 ms makes its peer known unreachable and fails back: a
load marks its lane, a load that waits for its die to get the line too, and a reduction is lost as well. A packet of several parts
fails as one (log 15). That a device step tells when a packet is acknowledged, resent or discarded is the model's choice (log 7). -/
def Claim.Links : Prop :=
  ∀ (s : State),
    let i := s.input
    let k := i.unit
    let mine := (s.egress.filter fun e => e.sent && e.link == some k).take i.index
    let st := aget s.links k
    let runs := st = some .trained ∨ st = some .draining
    let busy := fun (m : AMap Nat LinkState) => s.planBusy && m.any fun e => e.2 == .draining || e.2 == .retuning
    let down := { s with
      links := aset s.links k .down
      retries := aerase s.retries k
      egress := s.egress.map fun e => if e.link = some k then { e with sent := false, link := none, since := s.now.toNat } else e
      events := s.events ++ [{ kind := .fabricLinkDown, args := [k] }]
      planBusy := busy (aset s.links k .down) }
    (st = some .draining → (∀ e ∈ s.egress, e.sent = true → e.link ≠ some k) →
      exec .laserRetune s = .next { s with links := aset s.links k .retuning }) ∧
    (k < 2048 → st ≠ some .trained → st ≠ some .draining →
      (i.code = 0 → s.isMember (s.reach k) = true → exec .linkTraining s = .next { s with
        links := aset s.links k .trained
        retries := aerase s.retries k
        unreachable := s.unreachable.filter fun j => j ≠ s.reach k
        planBusy := busy (aset s.links k .trained) }) ∧
      (i.code ≠ 0 ∨ s.isMember (s.reach k) = false → exec .linkTraining s = .next { s with
        links := aset s.links k .down
        events := s.events ++ [{ kind := .fabricLinkDown, args := [k] }]
        planBusy := busy (aset s.links k .down) })) ∧
    (runs →
      (i.code = 0 → exec .linkRunRetry s = .next { s with
        egress := s.egress.filter fun e => e ∉ mine
        retries := aerase s.retries k }) ∧
      (i.code ≠ 0 → i.code ≠ 2 →
        (aget s.retries k = none → exec .linkRunRetry s = .next { s with retries := aset s.retries k 0 }) ∧
        ∀ n, aget s.retries k = some n →
          exec .linkRunRetry s = .next (if n < 15 then { s with retries := aset s.retries k (n + 1) } else down)) ∧
      (∀ e es, i.code = 2 → (s.egress.filter fun e => e.sent && e.link == some k) = e :: es → e.pkt.op < 16 → e.pkt.cls = 2 →
        exec .linkRunRetry s = .next { s with egress := s.egress.filter fun x => x ≠ e, retries := aerase s.retries k }) ∧
      (aget s.retries k = some 15 → exec .linkDown s = .next down)) ∧
    (∀ e, s.egress[i.index]? = some e → e.sent = false → s.trainedTo e.pkt.dest = [] → e.since + 12000000 ≤ s.now.toNat →
      let told := { kind := .peerUnreachable, args := [e.pkt.dest] }
      let gone := fun (t : State) => t.egress = (s.egress.filter fun x => x ≠ e) ∧ e.pkt.dest ∈ t.unreachable ∧
        (∀ j ∈ s.unreachable, j ∈ t.unreachable) ∧ told ∈ t.events
      (e.pkt.op < 16 → e.pkt.cls = 2 → ∃ t, exec .peerUnreachable s = .next t ∧ gone t ∧ t.groups = s.groups ∧
        t.remotes = s.remotes) ∧
      (64 ≤ e.pkt.op → e.pkt.op < 80 → e.pkt.cls = 2 → ∃ t, exec .peerUnreachable s = .next t ∧ t.groups = s.groups ∧
        t.remotes = s.remotes ∧ t.egress = s.egress.filter fun x => x.pkt.op < 64 ∨ x.pkt.whole ≠ e.pkt.whole) ∧
      (∀ r x gid d l w word va g, e.pkt.op = 16 → e.pkt.cls = 0 → r ∈ s.remotes → r.line = some x → x.die = e.pkt.agent % 4 →
        r.addr / 128 = e.pkt.addr / 128 → (∀ q ∈ s.remotes, q.addr / 128 = r.addr / 128 → q.line ≠ none → q = r) →
        r.what = .load gid d l w word va → aget s.groups gid = some g → 0 < w →
        ∃ t h, exec .peerUnreachable s = .next t ∧ gone t ∧ s.GroupTo t gid h ∧ g.SameVectors h ∧
          (∃ m ∈ h.marks, m.reg = d ∧ m.lane = l ∧ m.kind = .poison ∧ m.addr = va ∧ m.peer = e.pkt.dest + 1)) ∧
      (∀ r gid d l w word va g, e.pkt.cls = 0 → s.openFor e.pkt.tag e.pkt.dest = some r →
        (e.pkt.op = 0 ∧ r.what = .load gid d l w word va ∨ e.pkt.op = 2 ∧ r.what = .atom gid d l w word va) →
        aget s.groups gid = some g → 0 < w →
        ∃ t h, exec .peerUnreachable s = .next t ∧ gone t ∧ s.GroupTo t gid h ∧ g.SameVectors h ∧
          (∀ x ∈ t.remotes, ¬(x.tag = r.tag ∧ x.peer = r.peer)) ∧
          (∃ m ∈ h.marks, m.reg = d ∧ m.lane = l ∧ m.kind = .poison ∧ m.addr = va ∧ m.peer = e.pkt.dest + 1) ∧
          (e.pkt.op = 0 → h.lost = g.lost) ∧
          (e.pkt.op = 2 → ∃ x ∈ h.lost, x.page = va % 2 ^ 57 / 4096 ∧ x.status = 0)))

/-- 06 R190, 12 R336, R337: an `STM` reads its multicast entry once, at its first packet, and then sends one copy to each member in
ascending order, with the step that it carries; the own package's copy is written locally. An `STM.row` goes to its home replica, the
first member, alone: into the queue of its Kiosk here, or to another package, and is kept open for every member. A group's copies go in
the order of its words. The packets' layout is the model's (log 15). -/
def Claim.MulticastCopies : Prop :=
  ∀ (s : State) (m : Mcast),
    let ms := s.membersOf m.ctx m.entry
    let rest := s.mcasts.filter fun x => x.id ≠ m.id
    let with_ := fun (y : Mcast) => s.mcasts.map fun x => if x.id = m.id then y else x
    s.mcasts[s.input.index]? = some m → (∀ x ∈ s.mcasts.take s.input.index, x.gid ≠ m.gid) →
    (m.left = none → exec .multicastCopy s = .next { s with
      mcasts := if ms = [] then rest else with_ { m with left := some ms, version := s.mcastVersion } }) ∧
    (m.left = some [] → exec .multicastCopy s = .next { s with mcasts := rest }) ∧
    (∀ j js, m.left = some (j :: js) → m.row = false →
      let after := if js = [] then rest else with_ { m with left := some js }
      (j ≠ s.own → j < 64 → (∀ x ∈ m.stores, x.2.length ≤ 16) →
        ∃ (t : State) (es : List Egress), exec .multicastCopy s = .next t ∧ t.mcasts = after ∧ t.mem = s.mem ∧
        t.egress = s.egress ++ es ∧ es.length = m.stores.length ∧
        ∀ (n : Nat) (x : Xlat × List Byte), m.stores[n]? = some x → ∃ e : Egress, es[n]? = some e ∧ e.pkt.dest = j ∧ e.pkt.cls = 4 ∧
          locOf e.pkt.addr = locOf x.1.pa ∧ pkgOf e.pkt.addr = j ∧ e.pkt.data = x.2 ++ leBytes 8 m.tag.toNat ∧
          e.version = some m.version ∧ e.sent = false) ∧
      (∀ x, j = s.own → m.stores = [x] → s.Takes (span (locOf x.1.pa) x.2.length) → x.2 ≠ [] →
        (∀ e ∈ s.l1, (∃ b ∈ span (locOf x.1.pa) x.2.length, e.1.2 = b / 128) → e.2.dirty = 0) →
        ∃ t, exec .multicastCopy s = .next t ∧ t.mcasts = after ∧ t.egress = s.egress ∧
          (∀ k < x.2.length, readByte t.mem (locOf x.1.pa + k) = x.2.getD k 0) ∧
          s.MemoryBut t (span (locOf x.1.pa) x.2.length))) ∧
    (∀ j js x xs, m.left = some (j :: js) → m.row = true → m.stores = x :: xs →
      let base := x.1.pa / 1024 * 1024
      let open_ := fun (t : State) (k : Nat) => ∃ q ∈ t.remotes, q.peer = k ∧ q.what = .write m.gid (m.pages.headD 0)
      (j = s.own → s.kioskLoad (kioskOf (locOf base)) < 512 → ∃ t rs r, exec .multicastCopy s = .next t ∧ t.mcasts = rest ∧
        t.mem = s.mem ∧ t.egress = s.egress ∧ (∀ k ∈ js, open_ t k) ∧ t.rowOps = rs ++ [r] ∧
        rs.map (fun x => { x with lagged := false }) = s.rowOps.map (fun x => { x with lagged := false }) ∧ r.op = 4 ∧
        r.pa = paOf j (locOf base) ∧ r.size = 1024 ∧ r.gid = some m.gid ∧ r.data = m.cells ∧ r.members = js ∧ r.tag = m.tag ∧
        r.version = some m.version) ∧
      (j ≠ s.own → ∃ t, exec .multicastCopy s = .next t ∧ t.mcasts = rest ∧ t.mem = s.mem ∧ t.rowOps = s.rowOps ∧
        (∀ k ∈ j :: js, open_ t k) ∧ ∃ e es, t.egress = s.egress ++ e :: es ∧ ∀ d ∈ e :: es, d.pkt.dest = j ∧ d.pkt.cls = 4 ∧
          d.version = some m.version))

/-! ### The directory -/

/-- 12 R317, R318, R320, R322: what a home does with a request of a line that it is not serving: it grants from its own copy, forwards
to an owner, or first invalidates the other sharers; a put of the owner is written and answered, any other is answered only. A request
of a line that is busy or locked waits in arrival order. What 12 R317 to R322 leave open is the model's choice (log 49). -/
def Claim.HomeRequests : Prop :=
  ∀ (i : Instr) (op : CohOp) (s : State) (m : CohMsg),
    let ln := locOf m.line / 128
    let e := s.entry ln
    let a := m.src
    let home := s.homeOf ln
    let owner := e.st = .excl ∨ e.st = .owned ∨ e.st = .modified
    let others := e.agents.filter fun x => x ≠ a ∧ ¬(owner ∧ x = e.owner)
    let data := fun (x : Bool) => { op := .data, line := m.line, src := home, dst := a, excl := x, data := s.readHome (128 * ln) 128
                                    spoiled := (List.range 4).filter fun k => s.isBad [128 * ln + 32 * k] : CohMsg }
    let note := fun (op : CohOp) (dst req : Nat) => { op := op, line := m.line, src := home, dst := dst, req := req : CohMsg }
    let busy := fun (acks : List Nat) => { e with st := .busy, prior := e.st, serving := some m, acks := acks }
    let does := fun (e' : DirEntry) (new : List CohMsg) => ∃ t, exec i s = .next t ∧ s.Sends t ln new ∧ t.entry ln = e' ∧
      t.mem = s.mem
    let mine := fun (st : DirState) => { st := st, owner := a, waiting := e.waiting : DirEntry }
    (i = .gets ∧ op = .getS ∨ i = .getm ∧ op = .getM ∨ i = .upg ∧ op = .upg ∨ i = .pute ∧ op = .putE ∨ i = .puto ∧ op = .putO ∨
      i = .putm ∧ op = .putM) →
    s.Message op m → s.HomeLine m.line → s.isEndpoint (a / 4) = false →
    (e.st = .busy ∨ e.st = .locked → does { e with waiting := e.waiting ++ [.msg m] } []) ∧
    (e.st ≠ .busy → e.st ≠ .locked → e.waiting = [] →
      (op = .getS →
        (e.st = .inv → does (mine .excl) [data true]) ∧
        (e.st = .shared → does (e.addSharer a) [data false]) ∧
        (owner → e.owner ≠ a → does (busy []) [note .fwdS e.owner a])) ∧
      (op = .getM →
        (others ≠ [] → does (busy others) (others.map fun x => note .inval x 256)) ∧
        (others = [] → owner → e.owner ≠ a → does (busy []) [note .fwdM e.owner a]) ∧
        (others = [] → ¬owner → does (mine .modified) [data true])) ∧
      (op = .upg →
        (e.st = .inv → e.agents = [] → does (mine .modified) [data true]) ∧
        (e.st = .shared → a ∈ e.agents →
          (others ≠ [] → does (busy others) (others.map fun x => note .inval x 256)) ∧
          (others = [] → e.coarse = false → does (mine .modified) [note .upgAck a 0])) ∧
        (e.st = .owned → a ∈ e.agents → e.coarse = false → e.owner ≠ a →
          does (busy (others ++ [e.owner])) ((others ++ [e.owner]).map fun x => note .inval x 256)) ∧
        (e.st = .modified → e.agents = [] → e.owner ≠ a → does (busy []) [note .fwdM e.owner a])) ∧
      (op = .putE ∨ op = .putO ∨ op = .putM →
        (¬(owner ∧ e.owner = a) → exec i s = .next { s with msgs := s.msgs.eraseIdx s.input.index ++ [note .putAck a 0] }) ∧
        (owner → e.owner = a → s.Storable (span (128 * ln) 128) → m.spoiled = [] → m.data.length = 128 →
          ∃ t, exec i s = .next t ∧ s.Sends t ln [note .putAck a 0] ∧
            (t.entry ln).st = (if e.st = .owned ∧ e.sharers ≠ [] then .shared else .inv) ∧
            (op = .putE → t.mem = s.mem) ∧
            (op ≠ .putE → s.MemoryBut t (span (128 * ln) 128) ∧ ∀ k < 128, readByte t.mem (128 * ln + k) = m.data.getD k 0))))

/-- 12 R318, R320, R321, R322, 01 R24: an agent asks for a line of another package that is no endpoint, with the access that it will
perform, or gives one up and keeps dirty data in a buffer. A line that its L2 gives up for it goes first. What 12 R317 to R322 leave open is the model's choice (log 49). -/
def Claim.AgentRequests : Prop :=
  ∀ (i : Instr) (op : CohOp) (s : State),
    let die := s.input.unit % 4
    let line := s.input.addr / 128 * 128
    let ln := line / 128
    let x := s.agentLine die ln
    let bs := s.input.bytes
    let sent := fun (t : State) (m : CohMsg) => (∃ es, t.msgs = s.msgs ++ es ++ [m] ∧ (s.l2Victim die ln = none → es = [])) ∧
      m.op = op ∧ m.line = line ∧ m.src = 4 * s.own + die ∧ m.dst = 256 ∧ t.mem = s.mem
    s.input.code = 2 → x.waiting = none → x.buffer = none → pkgOf line ≠ s.own → s.isMember (pkgOf line) = true →
    s.isEndpoint (pkgOf line) = false → (s.l2Full die ln = true → s.l2Victim die ln ≠ none) →
    (∀ e ∈ s.l1, e.1.2 = 2 ^ 49 + ln → e.2.exclusive = false) →
    (i = .gets ∧ op = .getS ∧ x.st = .inv ∨ i = .getm ∧ op = .getM ∧ x.st = .inv ∨ i = .upg ∧ op = .upg ∧ x.st = .shared →
      ∃ t m, exec i s = .next t ∧ sent t m ∧ t.agentLine die ln = { x with
        waiting := some op
        access := (List.range bs.length).map fun k => (s.input.addr % 128 + k, bs.getD k 0) }) ∧
    (i = .pute ∧ op = .putE ∧ x.st = .excl ∨ i = .puto ∧ op = .putO ∧ x.st = .owned ∨ i = .putm ∧ op = .putM ∧ x.st = .modified →
      ∃ t m, exec i s = .next t ∧ sent t m ∧ m.data = (if op = .putE then [] else x.data) ∧
        (t.agentLine die ln).st = .inv ∧ (t.agentLine die ln).buffer = some (x.data, x.spoiled))

/-- 12 R321: an agent acknowledges an invalidation at once, serves a forward from its copy or its buffer unless it waits for a grant,
and on a grant performs the one access that asked for it; a forward also waits while a line is kept for the word that asked for it (the
model's choice: log 50). So is what 12 R321 leaves open (log 49). -/
def Claim.AgentAnswers : Prop :=
  ∀ (i : Instr) (op : CohOp) (s : State) (m : CohMsg),
    let die := m.dst % 4
    let ln := m.line / 128
    let x := s.agentLine die ln
    let note := fun (op : CohOp) => { op := op, line := m.line, src := m.dst, dst := 256 : CohMsg }
    let sent := fun (t : State) (new : List CohMsg) => t.msgs = s.msgs.eraseIdx s.input.index ++ new ∧ t.mem = s.mem ∧ t.dir = s.dir
    let put := fun (bs now : List Byte) => now.length = bs.length ∧
      ∀ k, now.getD k 0 = ((x.access.reverse.find? fun c => c.1 = k ∧ k < bs.length).map Prod.snd).getD (bs.getD k 0)
    let home := locOf (128 * ln)
    let copyOf := if pkgOf (128 * ln) = s.own then
      (s.readHome home 128, (List.range 4).filter fun k => s.isBad [home + 32 * k]) else (x.data, x.spoiled)
    let granted := fun (t : State) (bs : List Byte) (st : DirState) => (t.agentLine die ln).waiting = none ∧
      (t.agentLine die ln).st = (if x.access = [] then st else .modified) ∧ put bs (t.agentLine die ln).data
    s.Message op m → m.dst < 256 → (∀ e ∈ s.l1, e.1.2 = 2 ^ 49 + ln → e.2.exclusive = false) →
    (i = .invMsg → op = .inval → ∃ t, exec i s = .next t ∧ sent t [note .invAck] ∧ (t.agentLine die ln).st = .inv ∧
      (t.agentLine die ln).waiting = x.waiting ∧ (t.agentLine die ln).buffer = x.buffer) ∧
    (i = .fwds ∧ op = .fwdS ∨ i = .fwdm ∧ op = .fwdM →
      let copy := fun (bs : List Byte) (bad : List Nat) =>
        { op := .data, line := m.line, src := m.dst, dst := m.req, req := 1, excl := op == .fwdM, data := bs, spoiled := bad : CohMsg }
      (x.waiting ≠ none ∨ x.due ≠ [] → ∃ t, exec i s = .next t ∧ sent t [] ∧ t.agentLine die ln = { x with held := x.held ++ [m] }) ∧
      (x.waiting = none → x.due = [] → x.st ≠ .inv → ∃ t, exec i s = .next t ∧ sent t [copy copyOf.1 copyOf.2] ∧
        (t.agentLine die ln).st =
          if op = .fwdM then .inv else if x.st = .excl ∨ x.st = .modified then .owned else x.st) ∧
      (∀ bs bad, x.waiting = none → x.due = [] → x.st = .inv → x.buffer = some (bs, bad) → ∃ t, exec i s = .next t ∧ sent t [copy bs bad] ∧
        (t.agentLine die ln).buffer = some (bs, bad))) ∧
    (i = .dataMsg → op = .data → x.held = [] →
      ∃ t, exec i s = .next t ∧ sent t (if m.req = 1 then [note .fin] else []) ∧
        granted t m.data (if m.excl = false then .shared else if x.waiting = some .getS then .excl else .modified)) ∧
    (i = .upgack → op = .upgAck → x.held = [] → ∃ t, exec i s = .next t ∧ sent t [] ∧ granted t x.data .modified) ∧
    (i = .putack → op = .putAck → ∃ t, exec i s = .next t ∧ sent t [] ∧ (t.agentLine die ln).buffer = none ∧
      (t.agentLine die ln).st = x.st)

/-- 12 R320, R323, R322: a home collects every acknowledgement before it grants, leaves busy when a forwarded transfer is done, takes
back the line that it recalled, and locks the next line of the row operation that a Kiosk serves. What 12 R317 to R322 leave open
is the model's choice (log 49). -/
def Claim.HomeAnswers : Prop :=
  ∀ (s : State),
    (∀ (m r : CohMsg), s.Message .invAck m → s.HomeLine m.line →
      let ln := locOf m.line / 128
      let e := s.entry ln
      let left := e.acks.filter fun x => x ≠ m.src
      let does := fun (e' : DirEntry) (new : List CohMsg) => ∃ t, exec .invack s = .next t ∧ s.Sends t ln new ∧ t.entry ln = e' ∧
        t.mem = s.mem
      let data := { op := .data, line := r.line, src := s.homeOf ln, dst := r.src, excl := true, data := s.readHome (128 * ln) 128
                    spoiled := (List.range 4).filter fun k => s.isBad [128 * ln + 32 * k] : CohMsg }
      let owned := { st := .modified, owner := r.src, waiting := e.waiting : DirEntry }
      e.st = .busy → m.src ∈ e.acks →
      (left ≠ [] → does { e with acks := left } []) ∧
      (left = [] → e.serving = some r → e.prior = .shared → r.op = .getM → does owned [data]) ∧
      (left = [] → e.serving = some r → e.prior = .shared → r.op = .upg → r.src ∈ e.agents → e.coarse = false →
        does owned [{ op := .upgAck, line := r.line, src := s.homeOf ln, dst := r.src }]) ∧
      (left = [] → e.serving = some r → e.prior = .owned → r.op = .getM → e.owner ≠ r.src →
        ∃ t, exec .invack s = .next t ∧
          s.Sends t ln [{ op := .fwdM, line := r.line, src := s.homeOf ln, dst := e.owner, req := r.src }] ∧
          (t.entry ln).st = .busy ∧ (t.entry ln).acks = [] ∧ (t.entry ln).serving = some r)) ∧
    (∀ (m r : CohMsg), s.Message .fin m →
      let ln := locOf m.line / 128
      let e := s.entry ln
      e.st = .busy → e.serving = some r → r.src = m.src →
      ∃ t, exec .doneMsg s = .next t ∧ s.Sends t ln [] ∧ t.mem = s.mem ∧
        (r.op = .getS → t.entry ln = ({ e with st := .owned, serving := none, acks := [] } : DirEntry).addSharer r.src) ∧
        (r.op ≠ .getS → t.entry ln = { st := .modified, owner := r.src, waiting := e.waiting })) ∧
    (∀ (m : CohMsg), s.Message .data m → m.dst = 256 →
      let ln := locOf m.line / 128
      s.Storable (span (128 * ln) 128) → m.spoiled = [] → m.data.length = 128 →
      ∃ t, exec .dataMsg s = .next t ∧ s.Sends t ln [] ∧ (t.entry ln).st = .inv ∧ (t.entry ln).waiting = (s.entry ln).waiting ∧
        s.MemoryBut t (span (128 * ln) 128) ∧ ∀ k < 128, readByte t.mem (128 * ln + k) = m.data.getD k 0) ∧
    (∀ r l, s.nextRow s.input.unit = some r → s.mayServe s.input.unit [0, r.id] r.kstep = true →
      ((ascending (homedLines r.addrs)).find? fun k => !s.holdsLock [0, r.id] k) = some l →
      s.lineReady l true false [0, r.id] = .ready →
      (∀ x ∈ s.l1, x.1.2 = l → x.2.exclusive = false) →
      ∃ t, exec .lineLock s = .next t ∧ t.mem = s.mem ∧
        t.entry l = { st := .locked, lockers := 1, holder := [0, r.id], waiting := (s.entry l).waiting.erase (.own [0, r.id]) } ∧
        ∀ k, k ≠ l → t.entry k = s.entry k)

/-! ### The control ports -/

/-- 01 R23, 07 R246, 11 R304: the other port carries all traffic of one that failed, an event reaches the control node, and a write of
the control node is performed at its home, into the persist queue for SCM. That such a write reaches its home in one step, whatever
copies this package holds, is the model's choice (log 14, log 50). -/
def Claim.ControlPorts : Prop :=
  ∀ (s : State),
    let i := s.input
    let as := span i.addr i.bytes.length
    (i.unit ∈ s.ports → exec .controlPortFailure s = .next { s with
      ports := s.ports.filter fun x => x ≠ i.unit
      events := s.events ++ [{ kind := .portFailed, args := [i.unit] }] }) ∧
    (∀ e es, s.ports ≠ [] → s.events = e :: es → exec .eventDelivery s = .next { s with events := es }) ∧
    (i.bytes ≠ [] → s.Takes as →
      ∃ t, exec .controlNodeMemoryWrite s = .next t ∧ (∀ k < i.bytes.length, readByte t.mem (i.addr + k) = i.bytes.getD k 0) ∧
        s.MemoryBut t as ∧ t.groups = s.groups ∧
        (placeOf i.addr = .scm → ∃ es new, t.persists = s.persists ++ es ++ new ∧
          new.flatMap Persist.cells = cellsAt i.addr i.bytes))

/-! ### The whole machine -/

/-- 02 R151: `NOP` and `YIELD` complete and change no register other than `lpc`; both end the latch chain. -/
def Obligations.NopAndYield : Prop :=
  ∀ (i : Instr) (s : State) (gid : Nat) (g : Group), (∃ a : SArgs, i = .nop a ∨ i = .yield a) → s.Acts gid g →
    ∃ h, exec i s = .next { s with groups := aset s.groups gid h } ∧ g.SameVectors h ∧ g.SameScalars h ∧ g.SameMasks h ∧
      g.SameFloat h ∧ g.Kept { h with hold := g.hold } ∧ h.marks = g.marks ∧ h.chain.isOpen = false ∧ h.latches = []

/-- 12 R326: at reset each plan entry, written and in force, gives laser and receiver `k` of fibre `f` channel
1 + ((4 f + k) mod 63). -/
def Obligations.EvenPlanAtReset : Prop :=
  ∀ f < 512, ∀ k < 4,
    field (State.reset.planEntry f).toNat (8 * k) 6 = 1 + (4 * f + k) % 63 ∧
    field (State.reset.planEntry f).toNat (32 + 8 * k) 6 = 1 + (4 * f + k) % 63 ∧
    State.reset.channel (4 * f + k) = 1 + (4 * f + k) % 63

/-- 14 R367, R376, 17 R422, 20 R448: right after reset the part runs its self-test; HBM reads zero; no context, gang, team, group,
record, logged store or event is there; caches, TLBs and directory are empty; every queue register reads zero and the time slice is
4096; scrub is off, every stack is in mode 0 and the error ring is off. The memories are in their canonical form. The canonical form is
the model's own; what the spec gives no reset value for is in log 9. -/
def Obligations.ResetState : Prop :=
  State.reset.MemoryOk ∧ State.reset.WordsOk ∧ State.reset.boot = .selfTest ∧ (∀ a, placeOf a = .hbm → readByte State.reset.mem a = 0) ∧
  State.reset.poison = [] ∧ State.reset.badCheck = [] ∧ State.reset.ctxs = [] ∧ State.reset.gangs = [] ∧ State.reset.teams = [] ∧
  State.reset.groups = [] ∧ State.reset.sideLog = [] ∧ State.reset.events = [] ∧ State.reset.tlbs = [] ∧ State.reset.l1 = [] ∧ State.reset.l2 = [] ∧
  State.reset.icache = [] ∧ State.reset.dir = [] ∧ State.reset.resumeList = [] ∧ State.reset.slice = 4096 ∧ State.reset.cfg = none ∧
  (∀ k, let q := State.reset.queue k
    q.base = 0 ∧ q.config = 0 ∧ q.head = 0 ∧ q.tail = 0 ∧ q.eligible = false ∧ q.slot = none ∧ q.refused = false) ∧
  (∀ k, (State.reset.stack k).scrub = 0 ∧ (State.reset.stack k).mode = 0 ∧ (State.reset.stack k).retired = 0) ∧
  State.reset.errRing.base = 0 ∧ State.reset.errRing.n = 0 ∧ State.reset.errRing.head = 0 ∧ State.reset.errRing.tail = 0 ∧
  State.reset.errRing.overflow = 0 ∧ State.reset.snap.enabled = false

/-- A step keeps the canonical form of the package's memory, of the media and of every team's scratch. The form is the model's
own. -/
def Obligations.StepKeepsMemoryForm : Prop :=
  ∀ s t : State, s.MemoryOk → step s = .next t → t.MemoryOk

/-- 02 R42: a step keeps below 2^29 every word index at which a group or a stream goes on: of its lanes and parked lanes, of the head of an
open chain, of the save set, the loop buffer and a held word, of a stream, and the entry of a fixed successor. -/
def Obligations.StepKeepsWordIndexes : Prop :=
  ∀ s t : State, s.WordsOk → step s = .next t → t.WordsOk

/-- 04 R74 to R95: the word of a well-formed instruction decodes to that instruction; every word decodes to an instruction that is
well formed and that the word encodes. -/
def Obligations.EncodingRoundTrip : Prop :=
  (∀ (rd : Reader) (i : Instr) (w : Word64), i.wf rd = true → encode i = some w → decode rd w = i) ∧
  ∀ (rd : Reader) (w : Word64), (decode rd w).wf rd = true ∧ encode (decode rd w) = some w

/-- 04 Tables 4.1 to 4.11: words written out bit by bit decode to what they stand for. -/
def Obligations.SampleWords : Prop :=
  -- `NOP`: opcode 0x28B, class 101
  decode {} 0b0_01010001011_0000000000_0000000000_0000000000_0_0_0_101_0000000000000000#64 = .nop { d := 0, a := 0, b := 0, imm := 0 } ∧
  -- `IADD.i32 v3, v1, v2`: opcode 0x001, class 000, type 0001
  decode {} 0b0_00000000001_0000000011_0000000001_0000000010_0_0_0_000_0001_000_0_0_0000_000#64 =
    .iadd { d := 3, a := 1, b := 2, la := false, lb := false, nw := false, ty := .i32, rnd := .rn, ftz := false, sat := false
            ty2 := 0, sub := 0 } ∧
  -- `LD.w64.acq.die`: opcode 0x300, class 010, `LB` clear, B names v6, scope 0011, order 001, width 011
  decode {} 0b0_01100000000_0000000010_0000000100_0000000110_0_0_0_010_0011_001_0000_00_011#64 =
    .ld { d := 2, a := 4, b := 6, off := false, scope := .die, order := .acq, hint := 0, svc := 0, width := .w64 } ∧
  -- a matrix-stream opcode outside a stream: cause 6
  decode {} 0b0_11000001001_0000000000_0000000000_0000000000_0_0_0_100_0000_000_0_00000000#64 =
    .illegalInstr 0x6090000000040000 .wrongStream ∧
  -- an opcode that Table 4.11 does not assign: cause 1
  decode {} 0b0_11111111111_0000000000_0000000000_0000000000_0_0_0_000_0000000000000000#64 =
    .illegalInstr 0x7FF0000000000000 .unassigned

/-- 04 R94, R95, 06 R195, 13 R344: a turn of a group fetches the word at its issue address, from the core's instruction cache or from
memory, and runs the instruction that it decodes to for that group; a turn of a stream runs the word of the stream; a turn of a
unit of the part runs its step, and the firmware the command of a code, or answers status 1 for one that it does not know (20 R440). A
quarter issues one word a clock (08 R258). The order of the turns is the model's (log 2), as is the cache's rule of replacement (log 41). -/
def Obligations.StepRunsDecoded : Prop :=
  ∀ (s : State) (ts : List Turn),
    let s0 : State := { s.tick with turns := ts };
    (∀ (gid : Nat) (g : Group) (x : Xlat),
      s.turns = .group gid :: ts → aget s0.groups gid = some g → s0.mayIssue g = true → g.issue?.isSome = true → g.hold = .none →
      s0.quarterIssued gid = false → g.loopBuf = none → s0.logsPage gid [8 * g.issue] = false → s0.Hit (s0.coreOf g) (s0.ctxOf g) g.supervisor .fetch (8 * g.issue) x →
      let va := 8 * g.issue
      let a := locOf x.pa
      let at_ := a / 128 * 128
      let key := (s0.coreOf g, s0.ctxOf g, va / 128, x.pa / 128)
      let runs := fun (s1 : State) (w : Word64) =>
        step s = match exec (decode (s0.reader g) w) { s1 with cur := .group gid, word := w } with
          | .next t => .next (s0.afterTurn (t.firstIssue gid) gid)
          | .fault f => .fault f
          | .refused r => .refused r
      (∀ bs, aget s0.icache key = some bs → runs s0 (wordIn bs (va % 128))) ∧
      (aget s0.icache key = none → s0.lineReady (a / 128) false = .ready →
        (∀ e ∈ s0.l1, e.1.2 = a / 128 → e.2.exclusive = false) → s0.Faultless → s0.isBad (span at_ 128) = false →
        ∃ s1 : State, s1 = { s0 with
            l1 := s1.l1
            l2 := s1.l2
            dir := s1.dir
            agents := s1.agents
            msgs := s1.msgs
            persists := s1.persists
            nextId := s1.nextId
            memReqs := s1.memReqs } ∧
          runs { s1 with icache := aset s0.icache key (s0.readHome at_ 128) } (wordIn (s0.readHome at_ 128) (va % 128)))) ∧
    (∀ (k q : Nat) (t : Team) (u : MUnit) (st : Stream),
      s.turns = .stream k q :: ts → aget s0.teams k = some t → aget t.units q = some u → u.stream = some st →
      s0.streamGoes t st = true →
      let gang := s0.gang t.gang
      let rd : Reader := { window := 8 * gang.rec_.window, acc := gang.rec_.acc, matrix := true };
      let runs := fun (w : Word64) =>
        step s = exec (decode rd w) { s0.updStream k q (fun y => { y with word := w }) with cur := .stream k q, word := w }
      (st.chunk ≠ 0 → runs st.word) ∧
      (∀ (x : Xlat) (bs : List Byte), st.chunk = 0 → s0.Hit t.core gang.ctx st.supervisor .fetch (8 * st.pc) x →
        aget s0.icache (t.core, gang.ctx, 8 * st.pc / 128, x.pa / 128) = some bs → runs (wordIn bs (8 * st.pc % 128)))) ∧
    (∀ (i : Instr) (input : Input), s.turns = .device i input :: ts → i.shape = .device →
      step s = exec i { s0 with cur := .none, input := input }) ∧
    (∀ (code : Nat) (input : Input), s.turns = .command code input :: ts →
      let s1 : State := { s0 with cur := .none, input := input }
      step s = match commandOf code with
        | some i => exec i s1
        | none => .next s1.unknownCmd)

/-! ### The statements, by subject -/

/-- What every word that writes a vector register does. -/
def Obligations.VectorWords : Prop := Claim.VectorMembers ∧ Claim.CarryAndLane

/-- What the words that write a scalar or a mask register do. -/
def Obligations.ScalarAndMaskWords : Prop := Claim.ScalarMembers ∧ Claim.MaskMembers

/-- Branches, NOP, YIELD and LOOPB. -/
def Obligations.ControlFlow : Prop := Claim.Branches ∧ Claim.YieldAndLoop

/-- CRD and CWR of every group control register. -/
def Obligations.ControlRegisters : Prop := Claim.ReadControl ∧ Claim.WriteControl

/-- CALL, CALLX and RET spill, slide and fill the window. -/
def Obligations.CallsAndReturns : Prop := Claim.Calls ∧ Claim.Returns

/-- EXIT and PARK. -/
def Obligations.ExitsAndParks : Prop := Claim.Exits ∧ Claim.Parks

/-- The evaluation of lanes parked by PARK and SIGWAIT. -/
def Obligations.ParkedLaneEvaluations : Prop := Claim.ParkedLanes

/-- LD and ST, of one lane and of several, and what stays of memory. -/
def Obligations.LoadsAndStores : Prop := Claim.Loads ∧ Claim.Stores ∧ Claim.LaneLoads ∧ Claim.LaneStores

/-- ATOM, CAS and MCAS. -/
def Obligations.AtomicWords : Prop := Claim.Atomics ∧ Claim.LaneAtomics ∧ Claim.MultiCompare

/-- SIGADD, SIGDEC and SIGWAIT. -/
def Obligations.SignalWords : Prop := Claim.Signals ∧ Claim.SignalWaits

/-- LDS, STS, LDF, STF, FESET, FECLR and the tag table. -/
def Obligations.ScratchWords : Prop :=
  Claim.ScratchAccess ∧ Claim.FullEmpty ∧ Claim.LaneScratch ∧ Claim.GranuleRanges ∧ Claim.TagTable

/-- FENCE, PREF and DROP. -/
def Obligations.FencesAndHints : Prop := Claim.Fences ∧ Claim.Hints

/-- ICINV, ISYNC, PWB, PBAR and STEP. -/
def Obligations.CodeAndPersistWords : Prop := Claim.CodeWords ∧ Claim.PersistWords ∧ Claim.LanePersists

/-- What CHASE, CHASER, KENQ, KDEQ, KRCP and KVUP issue. -/
def Obligations.ChaseAndListIssue : Prop := Claim.Chases ∧ Claim.Lists ∧ Claim.Recipes

/-- What ROWOP, ROWLD and STM issue, and MCTW. -/
def Obligations.RowIssue : Prop := Claim.Rows ∧ Claim.Multicast

/-- One step of a chase and one lane of a list operation. -/
def Obligations.ChaseAndListSteps : Prop := Claim.ChaseSteps ∧ Claim.ListSteps

/-- One row step, one chunk of KVUP and the install of a recipe. -/
def Obligations.RowAndRecipeSteps : Prop := Claim.RowSteps ∧ Claim.RecipeSteps

/-- TMLD, TMST, TMSET, AMAXRD, AMAXCLR and ORIGRD. -/
def Obligations.TensorMapWords : Prop := Claim.MapRecords ∧ Claim.MapRegisters

/-- FWAIT, TLWAIT, FTEST, TLRD and FCANCEL. -/
def Obligations.HandleWords : Prop := Claim.Waits ∧ Claim.FutureTests

/-- What ACOPY, AREDUCE, AGATHER, ACOPYR and AFILL issue, and what COPY_UNIT moves. -/
def Obligations.CopyIssue : Prop := Claim.Copies ∧ Claim.CopyUnits

/-- MFORK, MJOIN, MEXIT and a word that is no instruction in a stream. -/
def Obligations.MatrixStreams : Prop := Claim.ForkAndJoin ∧ Claim.StreamEnds ∧ Claim.StreamIllegal

/-- LDSTAT, SWAPS, ACLR and ALD. -/
def Obligations.MatrixOperands : Prop := Claim.Planes ∧ Claim.Tiles

/-- MMA, MMAD, DRAIN and DRAINQ. -/
def Obligations.MatrixResults : Prop := Claim.Products ∧ Claim.Drains

/-- NBARA, NBARW, MBAR, BAR, BARA, BARW and GBAR. -/
def Obligations.BarrierWords : Prop := Claim.NumberedBarriers ∧ Claim.TeamBarrier ∧ Claim.GangBarrier

/-- SPAWN, RETIRE and HANDOFF. -/
def Obligations.TaskWords : Prop := Claim.Spawns ∧ Claim.RetireAndHandoff

/-- SNAP, SNAPQ, STRIPE and RBLD. -/
def Obligations.ImageWords : Prop := Claim.Images ∧ Claim.StripeAndRebuild

/-- Taking a trap, a nested trap, and ERET. -/
def Obligations.TrapEntryAndReturn : Prop := Claim.TrapEntry ∧ Claim.TrapReturn

/-- Pending registers hold a word up; user mode is refused a supervisor word; what a word raises of its operands before it acts. -/
def Obligations.WaitsAndPrivilege : Prop :=
  Claim.PendingWaits ∧ Claim.Privilege ∧ Claim.AccessTraps ∧ Claim.CopyTraps ∧ Claim.TaskTraps

/-- EVENT, RDTIME, PRD and PWR. -/
def Obligations.SystemWords : Prop := Claim.EventAndRegisters ∧ Claim.ReadPart ∧ Claim.PowerRegisters

/-- TLBINV, its message to another package, and XLATE. -/
def Obligations.TranslationWords : Prop := Claim.Invalidations ∧ Claim.TranslationProbe ∧ Claim.InvalidateMessages

/-- PREEMPT. -/
def Obligations.PreemptionRequests : Prop := Claim.Preemption

/-- An ordered pre-emption and the end of a time slice. -/
def Obligations.PreemptionOrders : Prop := Claim.PreemptionOrders

/-- A pre-empted gang is saved, and resumes with its registers. -/
def Obligations.GangSaveAndResume : Prop := Claim.GangSave ∧ Claim.GangResume

/-- L1 upkeep keeps what the core finds; replies to page requests. -/
def Obligations.CachesAndPages : Prop := Claim.L1Upkeep ∧ Claim.PageReplies

/-- Persist queues, the image that forms, parity contributions and the snapshot control. -/
def Obligations.PersistenceAndImages : Prop := Claim.PersistQueues ∧ Claim.Contributions ∧ Claim.StripeProducts ∧ Claim.SnapshotControl

/-- What a loss of power, a reset and a thermal trip keep. -/
def Obligations.ResetAndPower : Prop := Claim.ResetAndPower

/-- CFG_LOAD, ATTEST and the control ports. -/
def Obligations.FirmwareAndPorts : Prop := Claim.BootCommands ∧ Claim.ControlPorts

/-- REG_READ and REG_WRITE of every control register. -/
def Obligations.RegisterAccess : Prop := Claim.RegisterReads ∧ Claim.RegisterWrites

/-- CTX_CREATE, CTX_KILL and CTX_STEP. -/
def Obligations.ContextCommands : Prop := Claim.ContextCommands

/-- Queue registers and the application of a channel plan. -/
def Obligations.QueuesAndPlans : Prop := Claim.QueueRegisters ∧ Claim.PlanApplication

/-- Counter and stack registers, and error records. -/
def Obligations.CountersAndRecords : Prop := Claim.CounterAndStackWrites ∧ Claim.ErrorRecords

/-- Mapper slots, readiness and admission of records. -/
def Obligations.SchedulingOfRecords : Prop := Claim.MapperSlots ∧ Claim.Readiness ∧ Claim.Admission

/-- The end of teams and gangs, and the successor. -/
def Obligations.RetirementAndSuccession : Prop := Claim.Retirement ∧ Claim.Succession

/-- The power control and the holds of memory stacks. -/
def Obligations.PowerAndThermal : Prop := Claim.PowerControl ∧ Claim.ThermalHolds

/-- Memory upkeep, channel schedulers and on-chip errors. -/
def Obligations.MemoryIntegrity : Prop := Claim.MemoryUpkeep ∧ Claim.MemoryRequests ∧ Claim.OnChipErrors

/-- What a package does with a request of another. -/
def Obligations.PacketService : Prop := Claim.PacketChecks ∧ Claim.RemoteService

/-- Kiosk packets of another package, and responses. -/
def Obligations.RemoteSteps : Prop := Claim.RemoteKioskSteps ∧ Claim.RemoteCompletion

/-- Links, unreachable peers and multicast copies. -/
def Obligations.LinksAndMulticast : Prop := Claim.Links ∧ Claim.MulticastCopies

/-- What the home of a line does with requests and answers. -/
def Obligations.HomeDirectory : Prop := Claim.HomeRequests ∧ Claim.HomeAnswers

/-- What an agent asks of a home, and how it answers one. -/
def Obligations.AgentDirectory : Prop := Claim.AgentRequests ∧ Claim.AgentAnswers
end

