-- ==== Sys2Proof/Laws/Bits.lean ====
section
/-!
SUPPORT. Lane masks and lane lists.
-/
namespace Sys2Proof.Machine

/-- The number that a predicate sets over the first `n` bits. -/
def maskSum (p : Nat → Bool) (n : Nat) : Nat := (List.range n).foldl (fun acc l => if p l then acc + 2 ^ l else acc) 0

theorem maskSum_succ (p : Nat → Bool) (n : Nat) :
    maskSum p (n + 1) = if p n then maskSum p n + 2 ^ n else maskSum p n := by
  simp [maskSum, List.range_succ, List.foldl_append]

theorem maskSum_lt (p : Nat → Bool) (n : Nat) : maskSum p n < 2 ^ n := by
  induction n with
  | zero => simp [maskSum]
  | succ n ih =>
    rw [maskSum_succ, Nat.pow_succ]
    split <;> omega

theorem maskSum_testBit (p : Nat → Bool) (n l : Nat) : (maskSum p n).testBit l = (decide (l < n) && p l) := by
  induction n with
  | zero => simp [maskSum]
  | succ n ih =>
    rw [maskSum_succ]
    have hlt := maskSum_lt p n
    by_cases hl : l = n
    · subst hl
      have h0 : (maskSum p l).testBit l = false := Nat.testBit_lt_two_pow hlt
      by_cases hp : p l
      · simp only [hp, if_true, Bool.and_true]
        rw [Nat.add_comm, Nat.testBit_two_pow_add_eq, h0]
        simp
      · simp [hp, h0]
    · by_cases hp : p n
      · simp only [hp, if_true]
        by_cases hlt2 : l < n
        · rw [Nat.add_comm, Nat.testBit_two_pow_add_gt hlt2, ih]
          have : l < n + 1 := by omega
          simp [hlt2, this]
        · have h1 : ¬ l < n + 1 := by omega
          have h2 : maskSum p n + 2 ^ n < 2 ^ l :=
            lt_of_lt_of_le (by omega : maskSum p n + 2 ^ n < 2 ^ (n + 1)) (Nat.pow_le_pow_right (by decide) (by omega))
          simp [Nat.testBit_lt_two_pow h2, h1]
      · simp only [hp, Bool.false_eq_true, if_false, ih]
        have : (l < n + 1) ↔ l < n := by omega
        simp [this]

/-- A lane of the mask of a predicate. -/
@[simp] theorem maskOf_getLsbD (p : Nat → Bool) (l : Nat) : (maskOf p).getLsbD l = (decide (l < 32) && p l) := by
  have h : maskOf p = BitVec.ofNat 32 (maskSum p 32) := rfl
  rw [h, BitVec.getLsbD_ofNat, maskSum_testBit]
  by_cases hl : l < 32 <;> simp [hl]

/-- The lanes of a mask. -/
@[simp] theorem mem_lanesOf (m : BitVec 32) (l : Nat) : l ∈ lanesOf m ↔ l < 32 ∧ m.getLsbD l = true := by
  simp [lanesOf, laneIds]

/-- A lane of a register that was built lane by lane. -/
theorem Lanes.at_make (f : Nat → Word32) (l : Nat) : (Lanes.make f).at l = if l < 32 then f l else 0 := by
  unfold Lanes.at Lanes.make laneIds
  by_cases h : l < 32
  · simp [h, List.getD_eq_getElem?_getD]
  · simp [h, List.getD_eq_getElem?_getD]

/-- A lane of a list that was built lane by lane. -/
theorem getD_laneIds_map {α : Type} (f : Nat → α) (d : α) (l : Nat) : (laneIds.map f).getD l d = if l < 32 then f l else d := by
  unfold laneIds
  by_cases h : l < 32
  · simp [h, List.getD_eq_getElem?_getD]
  · simp [h, List.getD_eq_getElem?_getD]

end Sys2Proof.Machine
end

