-- ==== Sys2Proof/Laws/Encoding.lean ====
section
/-!
SUPPORT. Writing the fields of a word and reading them back: the laws that decoding and encoding share.
-/
namespace Sys2Proof

/-- The number of a written word. -/
theorem Fields.toWord_toNat (f : Fields) : f.toWord.toNat =
    f.op.toNat * 2 ^ 52 + f.d.toNat * 2 ^ 42 + f.a.toNat * 2 ^ 32 + f.b.toNat * 2 ^ 22
    + f.la.toNat * 2 ^ 21 + f.lb.toNat * 2 ^ 20 + f.nw.toNat * 2 ^ 19 + f.cls.toNat * 2 ^ 16 + f.x.toNat := by
  obtain ⟨op, d, a, b, la, lb, nw, cls, x⟩ := f
  have h1 := op.isLt; have h2 := d.isLt; have h3 := a.isLt; have h4 := b.isLt
  have h5 := cls.isLt; have h6 := x.isLt
  have h7 : la.toNat ≤ 1 := by cases la <;> decide
  have h8 : lb.toNat ≤ 1 := by cases lb <;> decide
  have h9 : nw.toNat ≤ 1 := by cases nw <;> decide
  simp only [Fields.toWord, BitVec.toNat_ofNat]
  apply Nat.mod_eq_of_lt
  omega

/-- One field of a number that is written as a sum. -/
theorem field_sum (hi m lo k w : Nat) (hm : m < 2 ^ w) (hl : lo < 2 ^ k) :
    ((hi * 2 ^ w + m) * 2 ^ k + lo) / 2 ^ k % 2 ^ w = m := by
  rw [Nat.add_comm ((hi * 2 ^ w + m) * 2 ^ k), Nat.add_mul_div_right _ _ (Nat.two_pow_pos k), Nat.div_eq_of_lt hl, Nat.zero_add,
    Nat.add_comm, Nat.add_mul_mod_self_right, Nat.mod_eq_of_lt hm]

theorem bool_mod (b : Bool) : decide (b.toNat % 2 = 1) = b := by cases b <;> rfl

theorem getLsbD_sum (w : Word64) (k hi lo : Nat) (b : Bool) (h : w.toNat = (hi * 2 + b.toNat) * 2 ^ k + lo) (hl : lo < 2 ^ k) :
    w.getLsbD k = b := by
  have := field_sum hi b.toNat lo k 1 (by cases b <;> decide) hl
  rw [BitVec.getLsbD, h, Nat.testBit_eq_decide_div_mod_eq]
  simp only [Nat.pow_one] at this
  rw [this]
  cases b <;> rfl

theorem extract_sum {n : Nat} (w : Word64) (k hi lo : Nat) (m : BitVec n) (h : w.toNat = (hi * 2 ^ n + m.toNat) * 2 ^ k + lo)
    (hl : lo < 2 ^ k) : w.extractLsb' k n = m := by
  apply BitVec.eq_of_toNat_eq
  rw [BitVec.extractLsb'_toNat, Nat.shiftRight_eq_div_pow, h, field_sum hi m.toNat lo k n m.isLt hl]

/-- The fields below each field of a word stay below its weight. -/
theorem field_bounds (d a b la lb nw c x : Nat) (h2 : d < 2 ^ 10) (h3 : a < 2 ^ 10) (h4 : b < 2 ^ 10) (h7 : la ≤ 1)
    (h8 : lb ≤ 1) (h9 : nw ≤ 1) (h5 : c < 2 ^ 3) (h6 : x < 2 ^ 16) :
    d * 2 ^ 42 + a * 2 ^ 32 + b * 2 ^ 22 + la * 2 ^ 21 + lb * 2 ^ 20 + nw * 2 ^ 19 + c * 2 ^ 16 + x < 2 ^ 52 ∧
    a * 2 ^ 32 + b * 2 ^ 22 + la * 2 ^ 21 + lb * 2 ^ 20 + nw * 2 ^ 19 + c * 2 ^ 16 + x < 2 ^ 42 ∧
    b * 2 ^ 22 + la * 2 ^ 21 + lb * 2 ^ 20 + nw * 2 ^ 19 + c * 2 ^ 16 + x < 2 ^ 32 ∧
    la * 2 ^ 21 + lb * 2 ^ 20 + nw * 2 ^ 19 + c * 2 ^ 16 + x < 2 ^ 22 ∧
    lb * 2 ^ 20 + nw * 2 ^ 19 + c * 2 ^ 16 + x < 2 ^ 21 ∧
    nw * 2 ^ 19 + c * 2 ^ 16 + x < 2 ^ 20 ∧ c * 2 ^ 16 + x < 2 ^ 19 := by
  omega

/-- Reading the fields of a written word gives them back (04 Table 4.1). -/
theorem Fields.ofWord_toWord (f : Fields) : Fields.ofWord f.toWord = f := by
  have hw := f.toWord_toNat
  obtain ⟨op, d, a, b, la, lb, nw, cls, x⟩ := f
  have h1 := op.isLt; have h2 := d.isLt; have h3 := a.isLt; have h4 := b.isLt
  have h5 := cls.isLt; have h6 := x.isLt
  have h7 : la.toNat ≤ 1 := by cases la <;> decide
  have h8 : lb.toNat ≤ 1 := by cases lb <;> decide
  have h9 : nw.toNat ≤ 1 := by cases nw <;> decide
  simp only at hw
  obtain ⟨b1, b2, b3, b4, b5, b6, b7⟩ := field_bounds d.toNat a.toNat b.toNat la.toNat lb.toNat nw.toNat cls.toNat x.toNat
    h2 h3 h4 h7 h8 h9 h5 h6
  simp only [Fields.ofWord, Fields.mk.injEq]
  generalize Fields.toWord _ = w at *
  refine ⟨?_, ?_, ?_, ?_, ?_, ?_, ?_, ?_, ?_⟩
  · exact extract_sum w 52 0 (d.toNat * 2 ^ 42 + a.toNat * 2 ^ 32 + b.toNat * 2 ^ 22
      + la.toNat * 2 ^ 21 + lb.toNat * 2 ^ 20 + nw.toNat * 2 ^ 19 + cls.toNat * 2 ^ 16 + x.toNat) op (by rw [hw]; ring) b1
  · exact extract_sum w 42 op.toNat (a.toNat * 2 ^ 32 + b.toNat * 2 ^ 22
      + la.toNat * 2 ^ 21 + lb.toNat * 2 ^ 20 + nw.toNat * 2 ^ 19 + cls.toNat * 2 ^ 16 + x.toNat) d (by rw [hw]; ring) b2
  · exact extract_sum w 32 (op.toNat * 2 ^ 10 + d.toNat) (b.toNat * 2 ^ 22
      + la.toNat * 2 ^ 21 + lb.toNat * 2 ^ 20 + nw.toNat * 2 ^ 19 + cls.toNat * 2 ^ 16 + x.toNat) a (by rw [hw]; ring) b3
  · exact extract_sum w 22 (op.toNat * 2 ^ 20 + d.toNat * 2 ^ 10 + a.toNat) (
      la.toNat * 2 ^ 21 + lb.toNat * 2 ^ 20 + nw.toNat * 2 ^ 19 + cls.toNat * 2 ^ 16 + x.toNat) b (by rw [hw]; ring) b4
  · exact getLsbD_sum w 21 (op.toNat * 2 ^ 30 + d.toNat * 2 ^ 20 + a.toNat * 2 ^ 10 + b.toNat)
      (lb.toNat * 2 ^ 20 + nw.toNat * 2 ^ 19 + cls.toNat * 2 ^ 16 + x.toNat) la (by rw [hw]; ring) b5
  · exact getLsbD_sum w 20 (op.toNat * 2 ^ 31 + d.toNat * 2 ^ 21 + a.toNat * 2 ^ 11 + b.toNat * 2 + la.toNat)
      (nw.toNat * 2 ^ 19 + cls.toNat * 2 ^ 16 + x.toNat) lb (by rw [hw]; ring) b6
  · exact getLsbD_sum w 19 (op.toNat * 2 ^ 32 + d.toNat * 2 ^ 22 + a.toNat * 2 ^ 12 + b.toNat * 4 + la.toNat * 2 + lb.toNat)
      (cls.toNat * 2 ^ 16 + x.toNat) nw (by rw [hw]; ring) b7
  · exact extract_sum w 16 (op.toNat * 2 ^ 33 + d.toNat * 2 ^ 23 + a.toNat * 2 ^ 13 + b.toNat * 8 + la.toNat * 4
      + lb.toNat * 2 + nw.toNat) x.toNat cls (by rw [hw]; ring) h6
  · exact extract_sum w 0 (op.toNat * 2 ^ 36 + d.toNat * 2 ^ 26 + a.toNat * 2 ^ 16 + b.toNat * 2 ^ 6 + la.toNat * 2 ^ 5
      + lb.toNat * 2 ^ 4 + nw.toNat * 2 ^ 3 + cls.toNat) 0 x (by rw [hw]; ring) (by decide)

/-! ### Paired words -/

/-- A slot of a written word has its own number (04 Table 4.8). -/
theorem RawSlot.toNat_lt (s : RawSlot) : s.toNat < 2 ^ 31 := by
  obtain ⟨op, d, a, la, nw, mode⟩ := s
  have h1 := op.isLt; have h2 := d.isLt; have h3 := a.isLt; have h4 := mode.isLt
  have h5 : la.toNat ≤ 1 := by cases la <;> decide
  have h6 : nw.toNat ≤ 1 := by cases nw <;> decide
  simp only [RawSlot.toNat]
  omega

/-- Reading a slot that lies at bit `base` of a word gives it back (04 Table 4.8). -/
theorem RawSlot.ofWord_at (s : RawSlot) (w : Word64) (base hi lo : Nat) (h : w.toNat = (hi * 2 ^ 31 + s.toNat) * 2 ^ base + lo)
    (hl : lo < 2 ^ base) : RawSlot.ofWord w base = s := by
  obtain ⟨op, d, a, la, nw, mode⟩ := s
  have h1 := op.isLt; have h2 := d.isLt; have h3 := a.isLt; have h4 := mode.isLt
  have h5 : la.toNat ≤ 1 := by cases la <;> decide
  have h6 : nw.toNat ≤ 1 := by cases nw <;> decide
  simp only [RawSlot.toNat] at h
  have up : ∀ k m, m < 2 ^ k → m * 2 ^ base + lo < 2 ^ (base + k) := by
    intro k m hm
    calc m * 2 ^ base + lo < m * 2 ^ base + 2 ^ base := by omega
      _ = (m + 1) * 2 ^ base := by ring
      _ ≤ 2 ^ k * 2 ^ base := Nat.mul_le_mul_right _ hm
      _ = 2 ^ (base + k) := by rw [pow_add, mul_comm]
  simp only [RawSlot.ofWord, RawSlot.mk.injEq]
  refine ⟨?_, ?_, ?_, ?_, ?_, ?_⟩
  · exact extract_sum w (base + 22) hi
      ((d.toNat * 2 ^ 14 + a.toNat * 2 ^ 6 + la.toNat * 2 ^ 5 + nw.toNat * 2 ^ 4 + mode.toNat) * 2 ^ base + lo) op
      (by rw [h, pow_add]; ring) (up 22 _ (by omega))
  · exact extract_sum w (base + 14) (hi * 2 ^ 9 + op.toNat)
      ((a.toNat * 2 ^ 6 + la.toNat * 2 ^ 5 + nw.toNat * 2 ^ 4 + mode.toNat) * 2 ^ base + lo) d
      (by rw [h, pow_add]; ring) (up 14 _ (by omega))
  · exact extract_sum w (base + 6) (hi * 2 ^ 17 + op.toNat * 2 ^ 8 + d.toNat)
      ((la.toNat * 2 ^ 5 + nw.toNat * 2 ^ 4 + mode.toNat) * 2 ^ base + lo) a
      (by rw [h, pow_add]; ring) (up 6 _ (by omega))
  · exact getLsbD_sum w (base + 5) (hi * 2 ^ 25 + op.toNat * 2 ^ 16 + d.toNat * 2 ^ 8 + a.toNat)
      ((nw.toNat * 2 ^ 4 + mode.toNat) * 2 ^ base + lo) la (by rw [h, pow_add]; ring) (up 5 _ (by omega))
  · exact getLsbD_sum w (base + 4) (hi * 2 ^ 26 + op.toNat * 2 ^ 17 + d.toNat * 2 ^ 9 + a.toNat * 2 + la.toNat)
      (mode.toNat * 2 ^ base + lo) nw (by rw [h, pow_add]; ring) (up 4 _ (by omega))
  · exact extract_sum w base (hi * 2 ^ 27 + op.toNat * 2 ^ 18 + d.toNat * 2 ^ 10 + a.toNat * 2 ^ 2 + la.toNat * 2 + nw.toNat)
      lo mode (by rw [h]; ring) hl

/-- The number of a written paired word. -/
theorem PArgs.toWord_toNat (p : PArgs) : p.toWord.toNat = 2 ^ 63 + p.slotA.raw.toNat * 2 ^ 32 + p.slotB.raw.toNat * 2 := by
  have h1 := p.slotA.raw.toNat_lt
  have h2 := p.slotB.raw.toNat_lt
  simp only [PArgs.toWord, BitVec.toNat_ofNat]
  apply Nat.mod_eq_of_lt
  omega

/-- The raw slot of an operation decodes to it. -/
theorem SlotOp.ofCode_code (o : SlotOp) : SlotOp.ofCode o.code = some o := by cases o <;> rfl

/-- The typed slot of raw slot bits. -/
theorem Slot.slot_raw (s : Slot) : s.raw.slot? = some s := by
  obtain ⟨op, d, a, la, nw, mode⟩ := s
  simp only [Slot.raw, RawSlot.slot?, SlotOp.ofCode_code, Option.map_some]

/-- Slot A of a written paired word. -/
theorem PArgs.slotA_toWord (p : PArgs) : (RawSlot.ofWord p.toWord 32).slot? = some p.slotA := by
  have h2 := p.slotB.raw.toNat_lt
  rw [RawSlot.ofWord_at p.slotA.raw p.toWord 32 1 (p.slotB.raw.toNat * 2) (by rw [p.toWord_toNat]; ring) (by omega), Slot.slot_raw]

/-- Slot B of a written paired word. -/
theorem PArgs.slotB_toWord (p : PArgs) : (RawSlot.ofWord p.toWord 1).slot? = some p.slotB := by
  rw [RawSlot.ofWord_at p.slotB.raw p.toWord 1 (2 ^ 31 + p.slotA.raw.toNat) 0 (by rw [p.toWord_toNat]; ring) (by decide),
    Slot.slot_raw]

/-- Bit `P` of a written paired word is set and bit [0] is clear (04 R86). -/
theorem PArgs.toWord_bits (p : PArgs) : p.toWord.getLsbD 63 = true ∧ p.toWord.getLsbD 0 = false := by
  have h := p.toWord_toNat
  have h1 := p.slotA.raw.toNat_lt
  have h2 := p.slotB.raw.toNat_lt
  exact ⟨getLsbD_sum _ 63 0 (p.slotA.raw.toNat * 2 ^ 32 + p.slotB.raw.toNat * 2) true (by rw [h]; simp; ring) (by omega),
    getLsbD_sum _ 0 (2 ^ 62 + p.slotA.raw.toNat * 2 ^ 31 + p.slotB.raw.toNat) 0 false (by rw [h]; simp; ring) (by decide)⟩

/-- All the fields of a word stay below bit 63. -/
theorem word_bound (op d a b la lb nw c x : Nat) (h1 : op < 2 ^ 11) (h2 : d < 2 ^ 10) (h3 : a < 2 ^ 10) (h4 : b < 2 ^ 10)
    (h7 : la ≤ 1) (h8 : lb ≤ 1) (h9 : nw ≤ 1) (h5 : c < 2 ^ 3) (h6 : x < 2 ^ 16) :
    op * 2 ^ 52 + d * 2 ^ 42 + a * 2 ^ 32 + b * 2 ^ 22 + la * 2 ^ 21 + lb * 2 ^ 20 + nw * 2 ^ 19 + c * 2 ^ 16 + x < 2 ^ 63 := by
  omega

/-- A full-form word of fields has bit 63 clear (04 Table 4.1). -/
theorem Fields.toWord_bit63 (f : Fields) : f.toWord.getLsbD 63 = false := by
  have h := f.toWord_toNat
  obtain ⟨op, d, a, b, la, lb, nw, cls, x⟩ := f
  have h1 := op.isLt; have h2 := d.isLt; have h3 := a.isLt; have h4 := b.isLt
  have h5 := cls.isLt; have h6 := x.isLt
  have h7 : la.toNat ≤ 1 := by cases la <;> decide
  have h8 : lb.toNat ≤ 1 := by cases lb <;> decide
  have h9 : nw.toNat ≤ 1 := by cases nw <;> decide
  simp only at h
  exact getLsbD_sum _ 63 0 _ false (by rw [h]; simp)
    (word_bound op.toNat d.toNat a.toNat b.toNat la.toNat lb.toNat nw.toNat cls.toNat x.toNat h1 h2 h3 h4 h7 h8 h9 h5 h6)

/-! ### Operand codes -/

theorem Ty.ofCode_code (t : Ty) : Ty.ofCode t.code = t := by cases t <;> rfl
theorem Rnd.ofCode_code (r : Rnd) : Rnd.ofCode r.code = some r := by cases r <;> rfl
theorem Scope.ofCode_code (r : Scope) : Scope.ofCode r.code = some r := by cases r <;> rfl
theorem Order.ofCode_code (r : Order) : Order.ofCode r.code = some r := by cases r <;> rfl
theorem Width.ofCode_code (r : Width) : Width.ofCode r.code = some r := by cases r <;> rfl

end Sys2Proof
end

