-- ==== Sys2Proof/Laws/Store.lean ====
section
/-!
SUPPORT. The laws of the two containers: finite maps, and byte memories in their canonical form.
-/
namespace Sys2Proof.Machine

section Maps
variable {κ α : Type} [DecidableEq κ]

/-- A key reads as what it was given last. -/
@[simp] theorem aget_aset_same (m : AMap κ α) (k : κ) (v : α) : aget (aset m k v) k = some v := by
  induction m with
  | nil => simp [aset, aget]
  | cons e m ih =>
    obtain ⟨a, w⟩ := e
    by_cases h : a = k <;> simp [aset, aget, h, ih]

/-- Giving a key a value leaves the others. -/
theorem aget_aset_of_ne (m : AMap κ α) {k j : κ} (v : α) (h : j ≠ k) : aget (aset m k v) j = aget m j := by
  induction m with
  | nil => simp [aset, aget, h.symm]
  | cons e m ih =>
    obtain ⟨a, w⟩ := e
    by_cases h1 : a = k
    · subst h1
      simp [aset, aget, h.symm]
    · simp only [aset, h1, if_false, aget, ih]

/-- Both at once. -/
theorem aget_aset (m : AMap κ α) (k j : κ) (v : α) : aget (aset m k v) j = if j = k then some v else aget m j := by
  by_cases h : j = k
  · subst h; simp
  · simp [aget_aset_of_ne m v h, h]

/-- The value of a key with a default, after giving a key a value. -/
theorem agetD_aset (m : AMap κ α) (k j : κ) (v d : α) : agetD (aset m k v) j d = if j = k then v else agetD m j d := by
  unfold agetD
  rw [aget_aset]
  split <;> rfl

@[simp] theorem agetD_aset_same (m : AMap κ α) (k : κ) (v d : α) : agetD (aset m k v) k d = v := by
  rw [agetD_aset]; simp

/-- Changing a key that is present. -/
@[simp] theorem aget_aupd_same (m : AMap κ α) (k : κ) (f : α → α) : aget (aupd m k f) k = (aget m k).map f := by
  unfold aupd
  cases h : aget m k with
  | none => simp [h]
  | some v => simp

/-- Changing a key leaves the others. -/
theorem aget_aupd_of_ne (m : AMap κ α) {k j : κ} (f : α → α) (h : j ≠ k) : aget (aupd m k f) j = aget m j := by
  unfold aupd
  cases hk : aget m k with
  | none => rfl
  | some v => exact aget_aset_of_ne m (f v) h

/-- Changing a key that holds a value. -/
theorem aupd_of_some {m : AMap κ α} {k : κ} {v : α} (f : α → α) (h : aget m k = some v) : aupd m k f = aset m k (f v) := by
  unfold aupd; rw [h]

/-- Giving a key a value twice. -/
@[simp] theorem aset_aset_same (m : AMap κ α) (k : κ) (v w : α) : aset (aset m k v) k w = aset m k w := by
  induction m with
  | nil => simp [aset]
  | cons e m ih =>
    obtain ⟨a, u⟩ := e
    by_cases h : a = k <;> simp [aset, h, ih]

/-- The pairs of a map in which a key was given a value. -/
theorem mem_aset {m : AMap κ α} {k : κ} {v : α} {p : κ × α} (h : p ∈ aset m k v) : p = (k, v) ∨ p ∈ m := by
  induction m with
  | nil => simp [aset] at h; exact .inl h
  | cons e m ih =>
    obtain ⟨a, w⟩ := e
    by_cases h1 : a = k
    · simp only [aset, h1, if_true, List.mem_cons] at h
      rcases h with h | h
      · exact .inl h
      · exact .inr (List.mem_cons_of_mem _ h)
    · simp only [aset, h1, if_false, List.mem_cons] at h
      rcases h with h | h
      · exact .inr (h ▸ List.mem_cons_self)
      · rcases ih h with h | h
        · exact .inl h
        · exact .inr (List.mem_cons_of_mem _ h)

/-- A key that reads as a value has a pair. -/
theorem mem_of_aget {m : AMap κ α} {k : κ} {v : α} (h : aget m k = some v) : (k, v) ∈ m := by
  induction m with
  | nil => simp [aget] at h
  | cons e m ih =>
    obtain ⟨a, w⟩ := e
    by_cases h1 : a = k
    · simp only [aget, h1, if_true, Option.some.injEq] at h
      simp [h1, h]
    · simp only [aget, h1, if_false] at h
      exact List.mem_cons_of_mem _ (ih h)

end Maps

/-! ### Memories -/

/-- The canonical form from a higher bound follows from a first address that reaches it. -/
theorem cellsFrom_mono {lo hi : Nat} {m : Memory} (h : cellsFrom hi m = true) (hl : lo ≤ hi) : cellsFrom lo m = true := by
  cases m with
  | nil => rfl
  | cons c m =>
    obtain ⟨a, b⟩ := c
    simp only [cellsFrom, Bool.and_eq_true, decide_eq_true_eq] at h ⊢
    exact ⟨⟨by omega, h.1.2⟩, h.2⟩

/-- Writing one byte keeps the canonical form. -/
theorem cellsFrom_writeByte (m : Memory) (lo key : Nat) (v : Byte) (h : cellsFrom lo m = true) (hk : lo ≤ key) :
    cellsFrom lo (writeByte m key v) = true := by
  induction m generalizing lo with
  | nil =>
    unfold writeByte
    split
    · rfl
    · simp [cellsFrom, *]
  | cons c m ih =>
    obtain ⟨a, b⟩ := c
    simp only [cellsFrom, Bool.and_eq_true, decide_eq_true_eq] at h
    obtain ⟨⟨h1, h2⟩, h3⟩ := h
    unfold writeByte
    by_cases hka : key < a
    · simp only [hka, if_true]
      split
      · simp [cellsFrom, h1, h2, h3]
      · rename_i hv
        simp [cellsFrom, hk, h2, h3, hv, hka]
    · simp only [hka, if_false]
      by_cases he : a = key
      · subst he
        simp only [if_true]
        split
        · exact cellsFrom_mono h3 (by omega)
        · rename_i hv
          simp [cellsFrom, hk, h3, hv]
      · simp only [he, if_false]
        simp only [cellsFrom, Bool.and_eq_true, decide_eq_true_eq]
        exact ⟨⟨h1, h2⟩, ih (a + 1) h3 (by omega)⟩

/-- Writing one byte keeps the canonical form. -/
theorem Memory.wf_writeByte {m : Memory} (h : Memory.wf m = true) (a : Nat) (v : Byte) : Memory.wf (writeByte m a v) = true :=
  cellsFrom_writeByte m 0 a v h (Nat.zero_le _)

/-- Writing bytes keeps the canonical form. -/
theorem Memory.wf_writeBytes {m : Memory} (h : Memory.wf m = true) (a : Nat) (bs : List Byte) :
    Memory.wf (writeBytes m a bs) = true := by
  induction bs generalizing m a with
  | nil => exact h
  | cons b bs ih => exact ih (Memory.wf_writeByte h a b) (a + 1)

/-- Writing a number keeps the canonical form. -/
theorem Memory.wf_writeLE {m : Memory} (h : Memory.wf m = true) (a n v : Nat) : Memory.wf (writeLE m a n v) = true :=
  Memory.wf_writeBytes h a _

/-- Writing cells one after another keeps the canonical form. -/
theorem Memory.wf_foldl {α : Type} (addr : α → Nat) (val : α → Byte) (l : List α) {m : Memory} (h : Memory.wf m = true) :
    Memory.wf (l.foldl (fun m c => writeByte m (addr c) (val c)) m) = true := by
  induction l generalizing m with
  | nil => exact h
  | cons c l ih => exact ih (Memory.wf_writeByte h _ _)

/-- Leaving out cells keeps the canonical form. -/
theorem cellsFrom_filter (p : Host.Cell → Bool) (m : Memory) (lo : Nat) (h : cellsFrom lo m = true) :
    cellsFrom lo (m.filter p) = true := by
  induction m generalizing lo with
  | nil => rfl
  | cons c m ih =>
    obtain ⟨a, b⟩ := c
    simp only [cellsFrom, Bool.and_eq_true, decide_eq_true_eq] at h
    obtain ⟨⟨h1, h2⟩, h3⟩ := h
    by_cases hp : p (a, b)
    · simp only [List.filter_cons, hp, if_true, cellsFrom, Bool.and_eq_true, decide_eq_true_eq]
      exact ⟨⟨h1, h2⟩, ih (a + 1) h3⟩
    · rw [List.filter_cons_of_neg hp]
      exact cellsFrom_mono (ih (a + 1) h3) (by omega)

/-- Leaving out cells keeps the canonical form. -/
theorem Memory.wf_filter {m : Memory} (h : Memory.wf m = true) (p : Host.Cell → Bool) : Memory.wf (m.filter p) = true :=
  cellsFrom_filter p m 0 h

/-- Clearing a range keeps the canonical form. -/
theorem Memory.wf_clearRange {m : Memory} (h : Memory.wf m = true) (a n : Nat) : Memory.wf (clearRange m a n) = true :=
  Memory.wf_filter h _

/-- A byte below every listed address is blank. -/
theorem readByte_below (m : Memory) (lo a : Nat) (h : cellsFrom lo m = true) (ha : a < lo) : readByte m a = blankByte := by
  induction m generalizing lo with
  | nil => rfl
  | cons c m ih =>
    obtain ⟨x, b⟩ := c
    simp only [cellsFrom, Bool.and_eq_true, decide_eq_true_eq] at h
    have : ¬ x = a := by omega
    simp only [readByte, this, if_false]
    exact ih (x + 1) h.2 (by omega)

/-- A read of a byte that was written gives the value written; every other byte keeps its value. -/
theorem readByte_writeByte (m : Memory) (h : Memory.wf m = true) (key a : Nat) (v : Byte) :
    readByte (writeByte m key v) a = if a = key then v else readByte m a := by
  unfold Memory.wf at h
  generalize 0 = lo at h
  induction m generalizing lo with
  | nil =>
    unfold writeByte
    by_cases hv : v = blankByte
    · simp [hv, readByte]
    · by_cases ha : a = key
      · simp [hv, ha, readByte]
      · simp [hv, ha, readByte, Ne.symm ha]
  | cons c m ih =>
    obtain ⟨x, b⟩ := c
    simp only [cellsFrom, Bool.and_eq_true, decide_eq_true_eq] at h
    obtain ⟨⟨h1, h2⟩, h3⟩ := h
    unfold writeByte
    by_cases hkx : key < x
    · simp only [hkx, if_true]
      by_cases hv : v = blankByte
      · simp only [hv, if_true]
        by_cases ha : a = key
        · subst ha
          have : ¬ x = a := by omega
          simp only [readByte, this, if_false, if_true]
          exact readByte_below m (x + 1) a h3 (by omega)
        · simp [ha]
      · simp only [hv, if_false]
        by_cases ha : a = key
        · simp [ha, readByte]
        · simp only [readByte, Ne.symm ha, if_false, ha]
    · simp only [hkx, if_false]
      by_cases he : x = key
      · subst he
        simp only [if_true]
        by_cases hv : v = blankByte
        · simp only [hv, if_true]
          by_cases ha : a = x
          · subst ha
            simp only [if_true]
            exact readByte_below m (a + 1) a h3 (by omega)
          · simp only [readByte, Ne.symm ha, if_false, ha]
        · simp only [hv, if_false]
          by_cases ha : a = x
          · simp [ha, readByte]
          · simp only [readByte, Ne.symm ha, if_false, ha]
      · simp only [he, if_false]
        by_cases ha : x = a
        · subst ha
          have : ¬ x = key := he
          simp [readByte, this]
        · simp only [readByte, ha, if_false]
          exact ih (x + 1) h3

/-- A read of bytes that were written, and of the others. -/
theorem readByte_writeBytes (m : Memory) (h : Memory.wf m = true) (base a : Nat) (bs : List Byte) :
    readByte (writeBytes m base bs) a = if base ≤ a ∧ a < base + bs.length then bs.getD (a - base) 0 else readByte m a := by
  induction bs generalizing m base with
  | nil =>
    have : ¬(base ≤ a ∧ a < base + 0) := by omega
    simp only [writeBytes, List.length_nil, this, if_false]
  | cons b bs ih =>
    rw [writeBytes, ih _ (Memory.wf_writeByte h base b), readByte_writeByte m h]
    simp only [List.length_cons]
    by_cases h1 : base + 1 ≤ a ∧ a < base + 1 + bs.length
    · have h2 : base ≤ a ∧ a < base + (bs.length + 1) := by omega
      have h3 : a - base = (a - (base + 1)) + 1 := by omega
      simp only [h1, h2, and_self, if_true, h3, List.getD_cons_succ]
    · simp only [h1, if_false]
      by_cases h2 : a = base
      · subst h2
        simp
      · have h3 : ¬(base ≤ a ∧ a < base + (bs.length + 1)) := by omega
        simp only [h2, h3, if_false]

/-! ### Numbers and their bytes (00 R2) -/

@[simp] theorem leBytes_length (n v : Nat) : (leBytes n v).length = n := by
  induction n generalizing v with
  | zero => rfl
  | succ n ih => simp [leBytes, ih]

/-- The value of the bytes of a number is the number, as far as the bytes reach. -/
theorem leValue_leBytes (n v : Nat) : leValue (leBytes n v) = v % 256 ^ n := by
  induction n generalizing v with
  | zero => simp [leBytes, leValue, Nat.mod_one]
  | succ n ih =>
    have h8 : (BitVec.ofNat 8 v).toNat = v % 256 := by simp
    rw [leBytes, leValue, ih, h8, pow_succ', Nat.mod_mul]

end Sys2Proof.Machine
end

