-- ==== Sys2Proof/Laws/Group.lean ====
section
/-!
SUPPORT. What the updates of a group leave alone, one lemma for each field and update, and what its register reads give after
them.
-/
namespace Sys2Proof.Machine

/-! ### `Group.setPc` -/

@[simp] theorem Group.setPc_team (g : Group) (m : Word32) (pc : WordIndex) : (g.setPc m pc).team = g.team := rfl
@[simp] theorem Group.setPc_idx (g : Group) (m : Word32) (pc : WordIndex) : (g.setPc m pc).idx = g.idx := rfl
@[simp] theorem Group.setPc_live (g : Group) (m : Word32) (pc : WordIndex) : (g.setPc m pc).live = g.live := rfl
@[simp] theorem Group.setPc_parks (g : Group) (m : Word32) (pc : WordIndex) : (g.setPc m pc).parks = g.parks := rfl
@[simp] theorem Group.setPc_wbase (g : Group) (m : Word32) (pc : WordIndex) : (g.setPc m pc).wbase = g.wbase := rfl
@[simp] theorem Group.setPc_vregs (g : Group) (m : Word32) (pc : WordIndex) : (g.setPc m pc).vregs = g.vregs := rfl
@[simp] theorem Group.setPc_latches (g : Group) (m : Word32) (pc : WordIndex) : (g.setPc m pc).latches = g.latches := rfl
@[simp] theorem Group.setPc_sregs (g : Group) (m : Word32) (pc : WordIndex) : (g.setPc m pc).sregs = g.sregs := rfl
@[simp] theorem Group.setPc_em (g : Group) (m : Word32) (pc : WordIndex) : (g.setPc m pc).em = g.em := rfl
@[simp] theorem Group.setPc_masks (g : Group) (m : Word32) (pc : WordIndex) : (g.setPc m pc).masks = g.masks := rfl
@[simp] theorem Group.setPc_handles (g : Group) (m : Word32) (pc : WordIndex) : (g.setPc m pc).handles = g.handles := rfl
@[simp] theorem Group.setPc_origin (g : Group) (m : Word32) (pc : WordIndex) : (g.setPc m pc).origin = g.origin := rfl
@[simp] theorem Group.setPc_fpflags (g : Group) (m : Word32) (pc : WordIndex) : (g.setPc m pc).fpflags = g.fpflags := rfl
@[simp] theorem Group.setPc_rng (g : Group) (m : Word32) (pc : WordIndex) : (g.setPc m pc).rng = g.rng := rfl
@[simp] theorem Group.setPc_svc (g : Group) (m : Word32) (pc : WordIndex) : (g.setPc m pc).svc = g.svc := rfl
@[simp] theorem Group.setPc_lastnan (g : Group) (m : Word32) (pc : WordIndex) : (g.setPc m pc).lastnan = g.lastnan := rfl
@[simp] theorem Group.setPc_supervisor (g : Group) (m : Word32) (pc : WordIndex) : (g.setPc m pc).supervisor = g.supervisor := rfl
@[simp] theorem Group.setPc_save (g : Group) (m : Word32) (pc : WordIndex) : (g.setPc m pc).save = g.save := rfl
@[simp] theorem Group.setPc_chain (g : Group) (m : Word32) (pc : WordIndex) : (g.setPc m pc).chain = g.chain := rfl
@[simp] theorem Group.setPc_marks (g : Group) (m : Word32) (pc : WordIndex) : (g.setPc m pc).marks = g.marks := rfl
@[simp] theorem Group.setPc_pend (g : Group) (m : Word32) (pc : WordIndex) : (g.setPc m pc).pend = g.pend := rfl
@[simp] theorem Group.setPc_hold (g : Group) (m : Word32) (pc : WordIndex) : (g.setPc m pc).hold = g.hold := rfl
@[simp] theorem Group.setPc_loopBuf (g : Group) (m : Word32) (pc : WordIndex) : (g.setPc m pc).loopBuf = g.loopBuf := rfl
@[simp] theorem Group.setPc_lost (g : Group) (m : Word32) (pc : WordIndex) : (g.setPc m pc).lost = g.lost := rfl
@[simp] theorem Group.setPc_stripeLost (g : Group) (m : Word32) (pc : WordIndex) : (g.setPc m pc).stripeLost = g.stripeLost := rfl
@[simp] theorem Group.setPc_persists (g : Group) (m : Word32) (pc : WordIndex) : (g.setPc m pc).persists = g.persists := rfl
@[simp] theorem Group.setPc_scmDirty (g : Group) (m : Word32) (pc : WordIndex) : (g.setPc m pc).scmDirty = g.scmDirty := rfl
@[simp] theorem Group.setPc_fills (g : Group) (m : Word32) (pc : WordIndex) : (g.setPc m pc).fills = g.fills := rfl
@[simp] theorem Group.setPc_bar (g : Group) (m : Word32) (pc : WordIndex) : (g.setPc m pc).bar = g.bar := rfl
@[simp] theorem Group.setPc_gbar (g : Group) (m : Word32) (pc : WordIndex) : (g.setPc m pc).gbar = g.gbar := rfl
@[simp] theorem Group.setPc_preempting (g : Group) (m : Word32) (pc : WordIndex) : (g.setPc m pc).preempting = g.preempting := rfl
@[simp] theorem Group.setPc_lastIssue (g : Group) (m : Word32) (pc : WordIndex) : (g.setPc m pc).lastIssue = g.lastIssue := rfl
@[simp] theorem Group.setPc_begun (g : Group) (m : Word32) (pc : WordIndex) : (g.setPc m pc).begun = g.begun := rfl
@[simp] theorem Group.setPc_mctw (g : Group) (m : Word32) (pc : WordIndex) : (g.setPc m pc).mctw = g.mctw := rfl
@[simp] theorem Group.setPc_admitted (g : Group) (m : Word32) (pc : WordIndex) : (g.setPc m pc).admitted = g.admitted := rfl

/-! ### `Group.advance` -/

@[simp] theorem Group.advance_team (g : Group) : g.advance.team = g.team := rfl
@[simp] theorem Group.advance_idx (g : Group) : g.advance.idx = g.idx := rfl
@[simp] theorem Group.advance_live (g : Group) : g.advance.live = g.live := rfl
@[simp] theorem Group.advance_parks (g : Group) : g.advance.parks = g.parks := rfl
@[simp] theorem Group.advance_wbase (g : Group) : g.advance.wbase = g.wbase := rfl
@[simp] theorem Group.advance_vregs (g : Group) : g.advance.vregs = g.vregs := rfl
@[simp] theorem Group.advance_latches (g : Group) : g.advance.latches = g.latches := rfl
@[simp] theorem Group.advance_sregs (g : Group) : g.advance.sregs = g.sregs := rfl
@[simp] theorem Group.advance_em (g : Group) : g.advance.em = g.em := rfl
@[simp] theorem Group.advance_masks (g : Group) : g.advance.masks = g.masks := rfl
@[simp] theorem Group.advance_handles (g : Group) : g.advance.handles = g.handles := rfl
@[simp] theorem Group.advance_origin (g : Group) : g.advance.origin = g.origin := rfl
@[simp] theorem Group.advance_fpflags (g : Group) : g.advance.fpflags = g.fpflags := rfl
@[simp] theorem Group.advance_rng (g : Group) : g.advance.rng = g.rng := rfl
@[simp] theorem Group.advance_svc (g : Group) : g.advance.svc = g.svc := rfl
@[simp] theorem Group.advance_lastnan (g : Group) : g.advance.lastnan = g.lastnan := rfl
@[simp] theorem Group.advance_supervisor (g : Group) : g.advance.supervisor = g.supervisor := rfl
@[simp] theorem Group.advance_save (g : Group) : g.advance.save = g.save := rfl
@[simp] theorem Group.advance_chain (g : Group) : g.advance.chain = g.chain := rfl
@[simp] theorem Group.advance_marks (g : Group) : g.advance.marks = g.marks := rfl
@[simp] theorem Group.advance_pend (g : Group) : g.advance.pend = g.pend := rfl
@[simp] theorem Group.advance_hold (g : Group) : g.advance.hold = g.hold := rfl
@[simp] theorem Group.advance_loopBuf (g : Group) : g.advance.loopBuf = g.loopBuf := rfl
@[simp] theorem Group.advance_lost (g : Group) : g.advance.lost = g.lost := rfl
@[simp] theorem Group.advance_stripeLost (g : Group) : g.advance.stripeLost = g.stripeLost := rfl
@[simp] theorem Group.advance_persists (g : Group) : g.advance.persists = g.persists := rfl
@[simp] theorem Group.advance_scmDirty (g : Group) : g.advance.scmDirty = g.scmDirty := rfl
@[simp] theorem Group.advance_bar (g : Group) : g.advance.bar = g.bar := rfl
@[simp] theorem Group.advance_gbar (g : Group) : g.advance.gbar = g.gbar := rfl
@[simp] theorem Group.advance_preempting (g : Group) : g.advance.preempting = g.preempting := rfl
@[simp] theorem Group.advance_lastIssue (g : Group) : g.advance.lastIssue = g.lastIssue := rfl
@[simp] theorem Group.advance_begun (g : Group) : g.advance.begun = g.begun := rfl
@[simp] theorem Group.advance_mctw (g : Group) : g.advance.mctw = g.mctw := rfl
@[simp] theorem Group.advance_admitted (g : Group) : g.advance.admitted = g.admitted := rfl

/-! ### `Group.skipOthers` -/

@[simp] theorem Group.skipOthers_team (g : Group) : g.skipOthers.team = g.team := rfl
@[simp] theorem Group.skipOthers_idx (g : Group) : g.skipOthers.idx = g.idx := rfl
@[simp] theorem Group.skipOthers_live (g : Group) : g.skipOthers.live = g.live := rfl
@[simp] theorem Group.skipOthers_parks (g : Group) : g.skipOthers.parks = g.parks := rfl
@[simp] theorem Group.skipOthers_wbase (g : Group) : g.skipOthers.wbase = g.wbase := rfl
@[simp] theorem Group.skipOthers_vregs (g : Group) : g.skipOthers.vregs = g.vregs := rfl
@[simp] theorem Group.skipOthers_latches (g : Group) : g.skipOthers.latches = g.latches := rfl
@[simp] theorem Group.skipOthers_sregs (g : Group) : g.skipOthers.sregs = g.sregs := rfl
@[simp] theorem Group.skipOthers_em (g : Group) : g.skipOthers.em = g.em := rfl
@[simp] theorem Group.skipOthers_masks (g : Group) : g.skipOthers.masks = g.masks := rfl
@[simp] theorem Group.skipOthers_handles (g : Group) : g.skipOthers.handles = g.handles := rfl
@[simp] theorem Group.skipOthers_origin (g : Group) : g.skipOthers.origin = g.origin := rfl
@[simp] theorem Group.skipOthers_fpflags (g : Group) : g.skipOthers.fpflags = g.fpflags := rfl
@[simp] theorem Group.skipOthers_rng (g : Group) : g.skipOthers.rng = g.rng := rfl
@[simp] theorem Group.skipOthers_svc (g : Group) : g.skipOthers.svc = g.svc := rfl
@[simp] theorem Group.skipOthers_lastnan (g : Group) : g.skipOthers.lastnan = g.lastnan := rfl
@[simp] theorem Group.skipOthers_supervisor (g : Group) : g.skipOthers.supervisor = g.supervisor := rfl
@[simp] theorem Group.skipOthers_save (g : Group) : g.skipOthers.save = g.save := rfl
@[simp] theorem Group.skipOthers_chain (g : Group) : g.skipOthers.chain = g.chain := rfl
@[simp] theorem Group.skipOthers_marks (g : Group) : g.skipOthers.marks = g.marks := rfl
@[simp] theorem Group.skipOthers_pend (g : Group) : g.skipOthers.pend = g.pend := rfl
@[simp] theorem Group.skipOthers_hold (g : Group) : g.skipOthers.hold = g.hold := rfl
@[simp] theorem Group.skipOthers_loopBuf (g : Group) : g.skipOthers.loopBuf = g.loopBuf := rfl
@[simp] theorem Group.skipOthers_lost (g : Group) : g.skipOthers.lost = g.lost := rfl
@[simp] theorem Group.skipOthers_stripeLost (g : Group) : g.skipOthers.stripeLost = g.stripeLost := rfl
@[simp] theorem Group.skipOthers_persists (g : Group) : g.skipOthers.persists = g.persists := rfl
@[simp] theorem Group.skipOthers_scmDirty (g : Group) : g.skipOthers.scmDirty = g.scmDirty := rfl
@[simp] theorem Group.skipOthers_fills (g : Group) : g.skipOthers.fills = g.fills := rfl
@[simp] theorem Group.skipOthers_bar (g : Group) : g.skipOthers.bar = g.bar := rfl
@[simp] theorem Group.skipOthers_gbar (g : Group) : g.skipOthers.gbar = g.gbar := rfl
@[simp] theorem Group.skipOthers_preempting (g : Group) : g.skipOthers.preempting = g.preempting := rfl
@[simp] theorem Group.skipOthers_lastIssue (g : Group) : g.skipOthers.lastIssue = g.lastIssue := rfl
@[simp] theorem Group.skipOthers_begun (g : Group) : g.skipOthers.begun = g.begun := rfl
@[simp] theorem Group.skipOthers_mctw (g : Group) : g.skipOthers.mctw = g.mctw := rfl
@[simp] theorem Group.skipOthers_admitted (g : Group) : g.skipOthers.admitted = g.admitted := rfl

/-! ### `Group.putPos` -/

@[simp] theorem Group.putPos_team (g : Group) (p : Nat) (m : Word32) (f : Nat → Word32) : (g.putPos p m f).team = g.team := rfl
@[simp] theorem Group.putPos_idx (g : Group) (p : Nat) (m : Word32) (f : Nat → Word32) : (g.putPos p m f).idx = g.idx := rfl
@[simp] theorem Group.putPos_live (g : Group) (p : Nat) (m : Word32) (f : Nat → Word32) : (g.putPos p m f).live = g.live := rfl
@[simp] theorem Group.putPos_lpc (g : Group) (p : Nat) (m : Word32) (f : Nat → Word32) : (g.putPos p m f).lpc = g.lpc := rfl
@[simp] theorem Group.putPos_parks (g : Group) (p : Nat) (m : Word32) (f : Nat → Word32) : (g.putPos p m f).parks = g.parks := rfl
@[simp] theorem Group.putPos_wbase (g : Group) (p : Nat) (m : Word32) (f : Nat → Word32) : (g.putPos p m f).wbase = g.wbase := rfl
@[simp] theorem Group.putPos_latches (g : Group) (p : Nat) (m : Word32) (f : Nat → Word32) : (g.putPos p m f).latches = g.latches := rfl
@[simp] theorem Group.putPos_sregs (g : Group) (p : Nat) (m : Word32) (f : Nat → Word32) : (g.putPos p m f).sregs = g.sregs := rfl
@[simp] theorem Group.putPos_em (g : Group) (p : Nat) (m : Word32) (f : Nat → Word32) : (g.putPos p m f).em = g.em := rfl
@[simp] theorem Group.putPos_masks (g : Group) (p : Nat) (m : Word32) (f : Nat → Word32) : (g.putPos p m f).masks = g.masks := rfl
@[simp] theorem Group.putPos_handles (g : Group) (p : Nat) (m : Word32) (f : Nat → Word32) : (g.putPos p m f).handles = g.handles := rfl
@[simp] theorem Group.putPos_origin (g : Group) (p : Nat) (m : Word32) (f : Nat → Word32) : (g.putPos p m f).origin = g.origin := rfl
@[simp] theorem Group.putPos_fpflags (g : Group) (p : Nat) (m : Word32) (f : Nat → Word32) : (g.putPos p m f).fpflags = g.fpflags := rfl
@[simp] theorem Group.putPos_rng (g : Group) (p : Nat) (m : Word32) (f : Nat → Word32) : (g.putPos p m f).rng = g.rng := rfl
@[simp] theorem Group.putPos_svc (g : Group) (p : Nat) (m : Word32) (f : Nat → Word32) : (g.putPos p m f).svc = g.svc := rfl
@[simp] theorem Group.putPos_lastnan (g : Group) (p : Nat) (m : Word32) (f : Nat → Word32) : (g.putPos p m f).lastnan = g.lastnan := rfl
@[simp] theorem Group.putPos_supervisor (g : Group) (p : Nat) (m : Word32) (f : Nat → Word32) : (g.putPos p m f).supervisor = g.supervisor := rfl
@[simp] theorem Group.putPos_save (g : Group) (p : Nat) (m : Word32) (f : Nat → Word32) : (g.putPos p m f).save = g.save := rfl
@[simp] theorem Group.putPos_chain (g : Group) (p : Nat) (m : Word32) (f : Nat → Word32) : (g.putPos p m f).chain = g.chain := rfl
@[simp] theorem Group.putPos_pend (g : Group) (p : Nat) (m : Word32) (f : Nat → Word32) : (g.putPos p m f).pend = g.pend := rfl
@[simp] theorem Group.putPos_hold (g : Group) (p : Nat) (m : Word32) (f : Nat → Word32) : (g.putPos p m f).hold = g.hold := rfl
@[simp] theorem Group.putPos_loopBuf (g : Group) (p : Nat) (m : Word32) (f : Nat → Word32) : (g.putPos p m f).loopBuf = g.loopBuf := rfl
@[simp] theorem Group.putPos_lost (g : Group) (p : Nat) (m : Word32) (f : Nat → Word32) : (g.putPos p m f).lost = g.lost := rfl
@[simp] theorem Group.putPos_stripeLost (g : Group) (p : Nat) (m : Word32) (f : Nat → Word32) : (g.putPos p m f).stripeLost = g.stripeLost := rfl
@[simp] theorem Group.putPos_persists (g : Group) (p : Nat) (m : Word32) (f : Nat → Word32) : (g.putPos p m f).persists = g.persists := rfl
@[simp] theorem Group.putPos_scmDirty (g : Group) (p : Nat) (m : Word32) (f : Nat → Word32) : (g.putPos p m f).scmDirty = g.scmDirty := rfl
@[simp] theorem Group.putPos_fills (g : Group) (p : Nat) (m : Word32) (f : Nat → Word32) : (g.putPos p m f).fills = g.fills := rfl
@[simp] theorem Group.putPos_bar (g : Group) (p : Nat) (m : Word32) (f : Nat → Word32) : (g.putPos p m f).bar = g.bar := rfl
@[simp] theorem Group.putPos_gbar (g : Group) (p : Nat) (m : Word32) (f : Nat → Word32) : (g.putPos p m f).gbar = g.gbar := rfl
@[simp] theorem Group.putPos_preempting (g : Group) (p : Nat) (m : Word32) (f : Nat → Word32) : (g.putPos p m f).preempting = g.preempting := rfl
@[simp] theorem Group.putPos_lastIssue (g : Group) (p : Nat) (m : Word32) (f : Nat → Word32) : (g.putPos p m f).lastIssue = g.lastIssue := rfl
@[simp] theorem Group.putPos_begun (g : Group) (p : Nat) (m : Word32) (f : Nat → Word32) : (g.putPos p m f).begun = g.begun := rfl
@[simp] theorem Group.putPos_mctw (g : Group) (p : Nat) (m : Word32) (f : Nat → Word32) : (g.putPos p m f).mctw = g.mctw := rfl
@[simp] theorem Group.putPos_admitted (g : Group) (p : Nat) (m : Word32) (f : Nat → Word32) : (g.putPos p m f).admitted = g.admitted := rfl

/-! ### `Group.setPos` -/

@[simp] theorem Group.setPos_team (g : Group) (p : Nat) (m : Word32) (f : Nat → Word32) : (g.setPos p m f).team = g.team := rfl
@[simp] theorem Group.setPos_idx (g : Group) (p : Nat) (m : Word32) (f : Nat → Word32) : (g.setPos p m f).idx = g.idx := rfl
@[simp] theorem Group.setPos_live (g : Group) (p : Nat) (m : Word32) (f : Nat → Word32) : (g.setPos p m f).live = g.live := rfl
@[simp] theorem Group.setPos_lpc (g : Group) (p : Nat) (m : Word32) (f : Nat → Word32) : (g.setPos p m f).lpc = g.lpc := rfl
@[simp] theorem Group.setPos_parks (g : Group) (p : Nat) (m : Word32) (f : Nat → Word32) : (g.setPos p m f).parks = g.parks := rfl
@[simp] theorem Group.setPos_wbase (g : Group) (p : Nat) (m : Word32) (f : Nat → Word32) : (g.setPos p m f).wbase = g.wbase := rfl
@[simp] theorem Group.setPos_latches (g : Group) (p : Nat) (m : Word32) (f : Nat → Word32) : (g.setPos p m f).latches = g.latches := rfl
@[simp] theorem Group.setPos_sregs (g : Group) (p : Nat) (m : Word32) (f : Nat → Word32) : (g.setPos p m f).sregs = g.sregs := rfl
@[simp] theorem Group.setPos_em (g : Group) (p : Nat) (m : Word32) (f : Nat → Word32) : (g.setPos p m f).em = g.em := rfl
@[simp] theorem Group.setPos_masks (g : Group) (p : Nat) (m : Word32) (f : Nat → Word32) : (g.setPos p m f).masks = g.masks := rfl
@[simp] theorem Group.setPos_handles (g : Group) (p : Nat) (m : Word32) (f : Nat → Word32) : (g.setPos p m f).handles = g.handles := rfl
@[simp] theorem Group.setPos_origin (g : Group) (p : Nat) (m : Word32) (f : Nat → Word32) : (g.setPos p m f).origin = g.origin := rfl
@[simp] theorem Group.setPos_fpflags (g : Group) (p : Nat) (m : Word32) (f : Nat → Word32) : (g.setPos p m f).fpflags = g.fpflags := rfl
@[simp] theorem Group.setPos_rng (g : Group) (p : Nat) (m : Word32) (f : Nat → Word32) : (g.setPos p m f).rng = g.rng := rfl
@[simp] theorem Group.setPos_svc (g : Group) (p : Nat) (m : Word32) (f : Nat → Word32) : (g.setPos p m f).svc = g.svc := rfl
@[simp] theorem Group.setPos_lastnan (g : Group) (p : Nat) (m : Word32) (f : Nat → Word32) : (g.setPos p m f).lastnan = g.lastnan := rfl
@[simp] theorem Group.setPos_supervisor (g : Group) (p : Nat) (m : Word32) (f : Nat → Word32) : (g.setPos p m f).supervisor = g.supervisor := rfl
@[simp] theorem Group.setPos_save (g : Group) (p : Nat) (m : Word32) (f : Nat → Word32) : (g.setPos p m f).save = g.save := rfl
@[simp] theorem Group.setPos_pend (g : Group) (p : Nat) (m : Word32) (f : Nat → Word32) : (g.setPos p m f).pend = g.pend := rfl
@[simp] theorem Group.setPos_hold (g : Group) (p : Nat) (m : Word32) (f : Nat → Word32) : (g.setPos p m f).hold = g.hold := rfl
@[simp] theorem Group.setPos_loopBuf (g : Group) (p : Nat) (m : Word32) (f : Nat → Word32) : (g.setPos p m f).loopBuf = g.loopBuf := rfl
@[simp] theorem Group.setPos_lost (g : Group) (p : Nat) (m : Word32) (f : Nat → Word32) : (g.setPos p m f).lost = g.lost := rfl
@[simp] theorem Group.setPos_stripeLost (g : Group) (p : Nat) (m : Word32) (f : Nat → Word32) : (g.setPos p m f).stripeLost = g.stripeLost := rfl
@[simp] theorem Group.setPos_persists (g : Group) (p : Nat) (m : Word32) (f : Nat → Word32) : (g.setPos p m f).persists = g.persists := rfl
@[simp] theorem Group.setPos_scmDirty (g : Group) (p : Nat) (m : Word32) (f : Nat → Word32) : (g.setPos p m f).scmDirty = g.scmDirty := rfl
@[simp] theorem Group.setPos_fills (g : Group) (p : Nat) (m : Word32) (f : Nat → Word32) : (g.setPos p m f).fills = g.fills := rfl
@[simp] theorem Group.setPos_bar (g : Group) (p : Nat) (m : Word32) (f : Nat → Word32) : (g.setPos p m f).bar = g.bar := rfl
@[simp] theorem Group.setPos_gbar (g : Group) (p : Nat) (m : Word32) (f : Nat → Word32) : (g.setPos p m f).gbar = g.gbar := rfl
@[simp] theorem Group.setPos_preempting (g : Group) (p : Nat) (m : Word32) (f : Nat → Word32) : (g.setPos p m f).preempting = g.preempting := rfl
@[simp] theorem Group.setPos_lastIssue (g : Group) (p : Nat) (m : Word32) (f : Nat → Word32) : (g.setPos p m f).lastIssue = g.lastIssue := rfl
@[simp] theorem Group.setPos_begun (g : Group) (p : Nat) (m : Word32) (f : Nat → Word32) : (g.setPos p m f).begun = g.begun := rfl
@[simp] theorem Group.setPos_mctw (g : Group) (p : Nat) (m : Word32) (f : Nat → Word32) : (g.setPos p m f).mctw = g.mctw := rfl
@[simp] theorem Group.setPos_admitted (g : Group) (p : Nat) (m : Word32) (f : Nat → Word32) : (g.setPos p m f).admitted = g.admitted := rfl

/-! ### `Group.setV` -/

@[simp] theorem Group.setV_team (g : Group) (n : Nat) (m : Word32) (f : Nat → Word32) : (g.setV n m f).team = g.team := rfl
@[simp] theorem Group.setV_idx (g : Group) (n : Nat) (m : Word32) (f : Nat → Word32) : (g.setV n m f).idx = g.idx := rfl
@[simp] theorem Group.setV_live (g : Group) (n : Nat) (m : Word32) (f : Nat → Word32) : (g.setV n m f).live = g.live := rfl
@[simp] theorem Group.setV_lpc (g : Group) (n : Nat) (m : Word32) (f : Nat → Word32) : (g.setV n m f).lpc = g.lpc := rfl
@[simp] theorem Group.setV_parks (g : Group) (n : Nat) (m : Word32) (f : Nat → Word32) : (g.setV n m f).parks = g.parks := rfl
@[simp] theorem Group.setV_wbase (g : Group) (n : Nat) (m : Word32) (f : Nat → Word32) : (g.setV n m f).wbase = g.wbase := rfl
@[simp] theorem Group.setV_latches (g : Group) (n : Nat) (m : Word32) (f : Nat → Word32) : (g.setV n m f).latches = g.latches := rfl
@[simp] theorem Group.setV_sregs (g : Group) (n : Nat) (m : Word32) (f : Nat → Word32) : (g.setV n m f).sregs = g.sregs := rfl
@[simp] theorem Group.setV_em (g : Group) (n : Nat) (m : Word32) (f : Nat → Word32) : (g.setV n m f).em = g.em := rfl
@[simp] theorem Group.setV_masks (g : Group) (n : Nat) (m : Word32) (f : Nat → Word32) : (g.setV n m f).masks = g.masks := rfl
@[simp] theorem Group.setV_handles (g : Group) (n : Nat) (m : Word32) (f : Nat → Word32) : (g.setV n m f).handles = g.handles := rfl
@[simp] theorem Group.setV_origin (g : Group) (n : Nat) (m : Word32) (f : Nat → Word32) : (g.setV n m f).origin = g.origin := rfl
@[simp] theorem Group.setV_fpflags (g : Group) (n : Nat) (m : Word32) (f : Nat → Word32) : (g.setV n m f).fpflags = g.fpflags := rfl
@[simp] theorem Group.setV_rng (g : Group) (n : Nat) (m : Word32) (f : Nat → Word32) : (g.setV n m f).rng = g.rng := rfl
@[simp] theorem Group.setV_svc (g : Group) (n : Nat) (m : Word32) (f : Nat → Word32) : (g.setV n m f).svc = g.svc := rfl
@[simp] theorem Group.setV_lastnan (g : Group) (n : Nat) (m : Word32) (f : Nat → Word32) : (g.setV n m f).lastnan = g.lastnan := rfl
@[simp] theorem Group.setV_supervisor (g : Group) (n : Nat) (m : Word32) (f : Nat → Word32) : (g.setV n m f).supervisor = g.supervisor := rfl
@[simp] theorem Group.setV_save (g : Group) (n : Nat) (m : Word32) (f : Nat → Word32) : (g.setV n m f).save = g.save := rfl
@[simp] theorem Group.setV_pend (g : Group) (n : Nat) (m : Word32) (f : Nat → Word32) : (g.setV n m f).pend = g.pend := rfl
@[simp] theorem Group.setV_hold (g : Group) (n : Nat) (m : Word32) (f : Nat → Word32) : (g.setV n m f).hold = g.hold := rfl
@[simp] theorem Group.setV_loopBuf (g : Group) (n : Nat) (m : Word32) (f : Nat → Word32) : (g.setV n m f).loopBuf = g.loopBuf := rfl
@[simp] theorem Group.setV_lost (g : Group) (n : Nat) (m : Word32) (f : Nat → Word32) : (g.setV n m f).lost = g.lost := rfl
@[simp] theorem Group.setV_stripeLost (g : Group) (n : Nat) (m : Word32) (f : Nat → Word32) : (g.setV n m f).stripeLost = g.stripeLost := rfl
@[simp] theorem Group.setV_persists (g : Group) (n : Nat) (m : Word32) (f : Nat → Word32) : (g.setV n m f).persists = g.persists := rfl
@[simp] theorem Group.setV_scmDirty (g : Group) (n : Nat) (m : Word32) (f : Nat → Word32) : (g.setV n m f).scmDirty = g.scmDirty := rfl
@[simp] theorem Group.setV_fills (g : Group) (n : Nat) (m : Word32) (f : Nat → Word32) : (g.setV n m f).fills = g.fills := rfl
@[simp] theorem Group.setV_bar (g : Group) (n : Nat) (m : Word32) (f : Nat → Word32) : (g.setV n m f).bar = g.bar := rfl
@[simp] theorem Group.setV_gbar (g : Group) (n : Nat) (m : Word32) (f : Nat → Word32) : (g.setV n m f).gbar = g.gbar := rfl
@[simp] theorem Group.setV_preempting (g : Group) (n : Nat) (m : Word32) (f : Nat → Word32) : (g.setV n m f).preempting = g.preempting := rfl
@[simp] theorem Group.setV_lastIssue (g : Group) (n : Nat) (m : Word32) (f : Nat → Word32) : (g.setV n m f).lastIssue = g.lastIssue := rfl
@[simp] theorem Group.setV_begun (g : Group) (n : Nat) (m : Word32) (f : Nat → Word32) : (g.setV n m f).begun = g.begun := rfl
@[simp] theorem Group.setV_mctw (g : Group) (n : Nat) (m : Word32) (f : Nat → Word32) : (g.setV n m f).mctw = g.mctw := rfl
@[simp] theorem Group.setV_admitted (g : Group) (n : Nat) (m : Word32) (f : Nat → Word32) : (g.setV n m f).admitted = g.admitted := rfl

/-! ### `Group.setV64` -/

@[simp] theorem Group.setV64_team (g : Group) (n : Nat) (m : Word32) (f : Nat → Word64) : (g.setV64 n m f).team = g.team := rfl
@[simp] theorem Group.setV64_idx (g : Group) (n : Nat) (m : Word32) (f : Nat → Word64) : (g.setV64 n m f).idx = g.idx := rfl
@[simp] theorem Group.setV64_live (g : Group) (n : Nat) (m : Word32) (f : Nat → Word64) : (g.setV64 n m f).live = g.live := rfl
@[simp] theorem Group.setV64_lpc (g : Group) (n : Nat) (m : Word32) (f : Nat → Word64) : (g.setV64 n m f).lpc = g.lpc := rfl
@[simp] theorem Group.setV64_parks (g : Group) (n : Nat) (m : Word32) (f : Nat → Word64) : (g.setV64 n m f).parks = g.parks := rfl
@[simp] theorem Group.setV64_wbase (g : Group) (n : Nat) (m : Word32) (f : Nat → Word64) : (g.setV64 n m f).wbase = g.wbase := rfl
@[simp] theorem Group.setV64_latches (g : Group) (n : Nat) (m : Word32) (f : Nat → Word64) : (g.setV64 n m f).latches = g.latches := rfl
@[simp] theorem Group.setV64_sregs (g : Group) (n : Nat) (m : Word32) (f : Nat → Word64) : (g.setV64 n m f).sregs = g.sregs := rfl
@[simp] theorem Group.setV64_em (g : Group) (n : Nat) (m : Word32) (f : Nat → Word64) : (g.setV64 n m f).em = g.em := rfl
@[simp] theorem Group.setV64_masks (g : Group) (n : Nat) (m : Word32) (f : Nat → Word64) : (g.setV64 n m f).masks = g.masks := rfl
@[simp] theorem Group.setV64_handles (g : Group) (n : Nat) (m : Word32) (f : Nat → Word64) : (g.setV64 n m f).handles = g.handles := rfl
@[simp] theorem Group.setV64_origin (g : Group) (n : Nat) (m : Word32) (f : Nat → Word64) : (g.setV64 n m f).origin = g.origin := rfl
@[simp] theorem Group.setV64_fpflags (g : Group) (n : Nat) (m : Word32) (f : Nat → Word64) : (g.setV64 n m f).fpflags = g.fpflags := rfl
@[simp] theorem Group.setV64_rng (g : Group) (n : Nat) (m : Word32) (f : Nat → Word64) : (g.setV64 n m f).rng = g.rng := rfl
@[simp] theorem Group.setV64_svc (g : Group) (n : Nat) (m : Word32) (f : Nat → Word64) : (g.setV64 n m f).svc = g.svc := rfl
@[simp] theorem Group.setV64_lastnan (g : Group) (n : Nat) (m : Word32) (f : Nat → Word64) : (g.setV64 n m f).lastnan = g.lastnan := rfl
@[simp] theorem Group.setV64_supervisor (g : Group) (n : Nat) (m : Word32) (f : Nat → Word64) : (g.setV64 n m f).supervisor = g.supervisor := rfl
@[simp] theorem Group.setV64_save (g : Group) (n : Nat) (m : Word32) (f : Nat → Word64) : (g.setV64 n m f).save = g.save := rfl
@[simp] theorem Group.setV64_pend (g : Group) (n : Nat) (m : Word32) (f : Nat → Word64) : (g.setV64 n m f).pend = g.pend := rfl
@[simp] theorem Group.setV64_hold (g : Group) (n : Nat) (m : Word32) (f : Nat → Word64) : (g.setV64 n m f).hold = g.hold := rfl
@[simp] theorem Group.setV64_loopBuf (g : Group) (n : Nat) (m : Word32) (f : Nat → Word64) : (g.setV64 n m f).loopBuf = g.loopBuf := rfl
@[simp] theorem Group.setV64_lost (g : Group) (n : Nat) (m : Word32) (f : Nat → Word64) : (g.setV64 n m f).lost = g.lost := rfl
@[simp] theorem Group.setV64_stripeLost (g : Group) (n : Nat) (m : Word32) (f : Nat → Word64) : (g.setV64 n m f).stripeLost = g.stripeLost := rfl
@[simp] theorem Group.setV64_persists (g : Group) (n : Nat) (m : Word32) (f : Nat → Word64) : (g.setV64 n m f).persists = g.persists := rfl
@[simp] theorem Group.setV64_scmDirty (g : Group) (n : Nat) (m : Word32) (f : Nat → Word64) : (g.setV64 n m f).scmDirty = g.scmDirty := rfl
@[simp] theorem Group.setV64_fills (g : Group) (n : Nat) (m : Word32) (f : Nat → Word64) : (g.setV64 n m f).fills = g.fills := rfl
@[simp] theorem Group.setV64_bar (g : Group) (n : Nat) (m : Word32) (f : Nat → Word64) : (g.setV64 n m f).bar = g.bar := rfl
@[simp] theorem Group.setV64_gbar (g : Group) (n : Nat) (m : Word32) (f : Nat → Word64) : (g.setV64 n m f).gbar = g.gbar := rfl
@[simp] theorem Group.setV64_preempting (g : Group) (n : Nat) (m : Word32) (f : Nat → Word64) : (g.setV64 n m f).preempting = g.preempting := rfl
@[simp] theorem Group.setV64_lastIssue (g : Group) (n : Nat) (m : Word32) (f : Nat → Word64) : (g.setV64 n m f).lastIssue = g.lastIssue := rfl
@[simp] theorem Group.setV64_begun (g : Group) (n : Nat) (m : Word32) (f : Nat → Word64) : (g.setV64 n m f).begun = g.begun := rfl
@[simp] theorem Group.setV64_mctw (g : Group) (n : Nat) (m : Word32) (f : Nat → Word64) : (g.setV64 n m f).mctw = g.mctw := rfl
@[simp] theorem Group.setV64_admitted (g : Group) (n : Nat) (m : Word32) (f : Nat → Word64) : (g.setV64 n m f).admitted = g.admitted := rfl

/-! ### `Group.putS` -/

@[simp] theorem Group.putS_team (g : Group) (n : Nat) (v : Word64) : (g.putS n v).team = g.team := rfl
@[simp] theorem Group.putS_idx (g : Group) (n : Nat) (v : Word64) : (g.putS n v).idx = g.idx := rfl
@[simp] theorem Group.putS_live (g : Group) (n : Nat) (v : Word64) : (g.putS n v).live = g.live := rfl
@[simp] theorem Group.putS_lpc (g : Group) (n : Nat) (v : Word64) : (g.putS n v).lpc = g.lpc := rfl
@[simp] theorem Group.putS_parks (g : Group) (n : Nat) (v : Word64) : (g.putS n v).parks = g.parks := rfl
@[simp] theorem Group.putS_wbase (g : Group) (n : Nat) (v : Word64) : (g.putS n v).wbase = g.wbase := rfl
@[simp] theorem Group.putS_vregs (g : Group) (n : Nat) (v : Word64) : (g.putS n v).vregs = g.vregs := rfl
@[simp] theorem Group.putS_latches (g : Group) (n : Nat) (v : Word64) : (g.putS n v).latches = g.latches := rfl
@[simp] theorem Group.putS_em (g : Group) (n : Nat) (v : Word64) : (g.putS n v).em = g.em := rfl
@[simp] theorem Group.putS_masks (g : Group) (n : Nat) (v : Word64) : (g.putS n v).masks = g.masks := rfl
@[simp] theorem Group.putS_handles (g : Group) (n : Nat) (v : Word64) : (g.putS n v).handles = g.handles := rfl
@[simp] theorem Group.putS_origin (g : Group) (n : Nat) (v : Word64) : (g.putS n v).origin = g.origin := rfl
@[simp] theorem Group.putS_fpflags (g : Group) (n : Nat) (v : Word64) : (g.putS n v).fpflags = g.fpflags := rfl
@[simp] theorem Group.putS_rng (g : Group) (n : Nat) (v : Word64) : (g.putS n v).rng = g.rng := rfl
@[simp] theorem Group.putS_svc (g : Group) (n : Nat) (v : Word64) : (g.putS n v).svc = g.svc := rfl
@[simp] theorem Group.putS_lastnan (g : Group) (n : Nat) (v : Word64) : (g.putS n v).lastnan = g.lastnan := rfl
@[simp] theorem Group.putS_supervisor (g : Group) (n : Nat) (v : Word64) : (g.putS n v).supervisor = g.supervisor := rfl
@[simp] theorem Group.putS_save (g : Group) (n : Nat) (v : Word64) : (g.putS n v).save = g.save := rfl
@[simp] theorem Group.putS_chain (g : Group) (n : Nat) (v : Word64) : (g.putS n v).chain = g.chain := rfl
@[simp] theorem Group.putS_pend (g : Group) (n : Nat) (v : Word64) : (g.putS n v).pend = g.pend := rfl
@[simp] theorem Group.putS_hold (g : Group) (n : Nat) (v : Word64) : (g.putS n v).hold = g.hold := rfl
@[simp] theorem Group.putS_loopBuf (g : Group) (n : Nat) (v : Word64) : (g.putS n v).loopBuf = g.loopBuf := rfl
@[simp] theorem Group.putS_lost (g : Group) (n : Nat) (v : Word64) : (g.putS n v).lost = g.lost := rfl
@[simp] theorem Group.putS_stripeLost (g : Group) (n : Nat) (v : Word64) : (g.putS n v).stripeLost = g.stripeLost := rfl
@[simp] theorem Group.putS_persists (g : Group) (n : Nat) (v : Word64) : (g.putS n v).persists = g.persists := rfl
@[simp] theorem Group.putS_scmDirty (g : Group) (n : Nat) (v : Word64) : (g.putS n v).scmDirty = g.scmDirty := rfl
@[simp] theorem Group.putS_fills (g : Group) (n : Nat) (v : Word64) : (g.putS n v).fills = g.fills := rfl
@[simp] theorem Group.putS_bar (g : Group) (n : Nat) (v : Word64) : (g.putS n v).bar = g.bar := rfl
@[simp] theorem Group.putS_gbar (g : Group) (n : Nat) (v : Word64) : (g.putS n v).gbar = g.gbar := rfl
@[simp] theorem Group.putS_preempting (g : Group) (n : Nat) (v : Word64) : (g.putS n v).preempting = g.preempting := rfl
@[simp] theorem Group.putS_lastIssue (g : Group) (n : Nat) (v : Word64) : (g.putS n v).lastIssue = g.lastIssue := rfl
@[simp] theorem Group.putS_begun (g : Group) (n : Nat) (v : Word64) : (g.putS n v).begun = g.begun := rfl
@[simp] theorem Group.putS_mctw (g : Group) (n : Nat) (v : Word64) : (g.putS n v).mctw = g.mctw := rfl
@[simp] theorem Group.putS_admitted (g : Group) (n : Nat) (v : Word64) : (g.putS n v).admitted = g.admitted := rfl

/-! ### `Group.setS` -/

@[simp] theorem Group.setS_team (g : Group) (n : Nat) (v : Word64) : (g.setS n v).team = g.team := rfl
@[simp] theorem Group.setS_idx (g : Group) (n : Nat) (v : Word64) : (g.setS n v).idx = g.idx := rfl
@[simp] theorem Group.setS_live (g : Group) (n : Nat) (v : Word64) : (g.setS n v).live = g.live := rfl
@[simp] theorem Group.setS_lpc (g : Group) (n : Nat) (v : Word64) : (g.setS n v).lpc = g.lpc := rfl
@[simp] theorem Group.setS_parks (g : Group) (n : Nat) (v : Word64) : (g.setS n v).parks = g.parks := rfl
@[simp] theorem Group.setS_wbase (g : Group) (n : Nat) (v : Word64) : (g.setS n v).wbase = g.wbase := rfl
@[simp] theorem Group.setS_vregs (g : Group) (n : Nat) (v : Word64) : (g.setS n v).vregs = g.vregs := rfl
@[simp] theorem Group.setS_latches (g : Group) (n : Nat) (v : Word64) : (g.setS n v).latches = g.latches := rfl
@[simp] theorem Group.setS_em (g : Group) (n : Nat) (v : Word64) : (g.setS n v).em = g.em := rfl
@[simp] theorem Group.setS_masks (g : Group) (n : Nat) (v : Word64) : (g.setS n v).masks = g.masks := rfl
@[simp] theorem Group.setS_handles (g : Group) (n : Nat) (v : Word64) : (g.setS n v).handles = g.handles := rfl
@[simp] theorem Group.setS_origin (g : Group) (n : Nat) (v : Word64) : (g.setS n v).origin = g.origin := rfl
@[simp] theorem Group.setS_fpflags (g : Group) (n : Nat) (v : Word64) : (g.setS n v).fpflags = g.fpflags := rfl
@[simp] theorem Group.setS_rng (g : Group) (n : Nat) (v : Word64) : (g.setS n v).rng = g.rng := rfl
@[simp] theorem Group.setS_svc (g : Group) (n : Nat) (v : Word64) : (g.setS n v).svc = g.svc := rfl
@[simp] theorem Group.setS_lastnan (g : Group) (n : Nat) (v : Word64) : (g.setS n v).lastnan = g.lastnan := rfl
@[simp] theorem Group.setS_supervisor (g : Group) (n : Nat) (v : Word64) : (g.setS n v).supervisor = g.supervisor := rfl
@[simp] theorem Group.setS_save (g : Group) (n : Nat) (v : Word64) : (g.setS n v).save = g.save := rfl
@[simp] theorem Group.setS_pend (g : Group) (n : Nat) (v : Word64) : (g.setS n v).pend = g.pend := rfl
@[simp] theorem Group.setS_hold (g : Group) (n : Nat) (v : Word64) : (g.setS n v).hold = g.hold := rfl
@[simp] theorem Group.setS_loopBuf (g : Group) (n : Nat) (v : Word64) : (g.setS n v).loopBuf = g.loopBuf := rfl
@[simp] theorem Group.setS_lost (g : Group) (n : Nat) (v : Word64) : (g.setS n v).lost = g.lost := rfl
@[simp] theorem Group.setS_stripeLost (g : Group) (n : Nat) (v : Word64) : (g.setS n v).stripeLost = g.stripeLost := rfl
@[simp] theorem Group.setS_persists (g : Group) (n : Nat) (v : Word64) : (g.setS n v).persists = g.persists := rfl
@[simp] theorem Group.setS_scmDirty (g : Group) (n : Nat) (v : Word64) : (g.setS n v).scmDirty = g.scmDirty := rfl
@[simp] theorem Group.setS_fills (g : Group) (n : Nat) (v : Word64) : (g.setS n v).fills = g.fills := rfl
@[simp] theorem Group.setS_bar (g : Group) (n : Nat) (v : Word64) : (g.setS n v).bar = g.bar := rfl
@[simp] theorem Group.setS_gbar (g : Group) (n : Nat) (v : Word64) : (g.setS n v).gbar = g.gbar := rfl
@[simp] theorem Group.setS_preempting (g : Group) (n : Nat) (v : Word64) : (g.setS n v).preempting = g.preempting := rfl
@[simp] theorem Group.setS_lastIssue (g : Group) (n : Nat) (v : Word64) : (g.setS n v).lastIssue = g.lastIssue := rfl
@[simp] theorem Group.setS_begun (g : Group) (n : Nat) (v : Word64) : (g.setS n v).begun = g.begun := rfl
@[simp] theorem Group.setS_mctw (g : Group) (n : Nat) (v : Word64) : (g.setS n v).mctw = g.mctw := rfl
@[simp] theorem Group.setS_admitted (g : Group) (n : Nat) (v : Word64) : (g.setS n v).admitted = g.admitted := rfl

/-! ### `Group.setM` -/

@[simp] theorem Group.setM_team (g : Group) (n : Nat) (v : Word32) : (g.setM n v).team = g.team := by
  unfold Group.setM; split <;> rfl
@[simp] theorem Group.setM_idx (g : Group) (n : Nat) (v : Word32) : (g.setM n v).idx = g.idx := by
  unfold Group.setM; split <;> rfl
@[simp] theorem Group.setM_live (g : Group) (n : Nat) (v : Word32) : (g.setM n v).live = g.live := by
  unfold Group.setM; split <;> rfl
@[simp] theorem Group.setM_lpc (g : Group) (n : Nat) (v : Word32) : (g.setM n v).lpc = g.lpc := by
  unfold Group.setM; split <;> rfl
@[simp] theorem Group.setM_parks (g : Group) (n : Nat) (v : Word32) : (g.setM n v).parks = g.parks := by
  unfold Group.setM; split <;> rfl
@[simp] theorem Group.setM_wbase (g : Group) (n : Nat) (v : Word32) : (g.setM n v).wbase = g.wbase := by
  unfold Group.setM; split <;> rfl
@[simp] theorem Group.setM_vregs (g : Group) (n : Nat) (v : Word32) : (g.setM n v).vregs = g.vregs := by
  unfold Group.setM; split <;> rfl
@[simp] theorem Group.setM_latches (g : Group) (n : Nat) (v : Word32) : (g.setM n v).latches = g.latches := by
  unfold Group.setM; split <;> rfl
@[simp] theorem Group.setM_sregs (g : Group) (n : Nat) (v : Word32) : (g.setM n v).sregs = g.sregs := by
  unfold Group.setM; split <;> rfl
@[simp] theorem Group.setM_handles (g : Group) (n : Nat) (v : Word32) : (g.setM n v).handles = g.handles := by
  unfold Group.setM; split <;> rfl
@[simp] theorem Group.setM_origin (g : Group) (n : Nat) (v : Word32) : (g.setM n v).origin = g.origin := by
  unfold Group.setM; split <;> rfl
@[simp] theorem Group.setM_fpflags (g : Group) (n : Nat) (v : Word32) : (g.setM n v).fpflags = g.fpflags := by
  unfold Group.setM; split <;> rfl
@[simp] theorem Group.setM_rng (g : Group) (n : Nat) (v : Word32) : (g.setM n v).rng = g.rng := by
  unfold Group.setM; split <;> rfl
@[simp] theorem Group.setM_svc (g : Group) (n : Nat) (v : Word32) : (g.setM n v).svc = g.svc := by
  unfold Group.setM; split <;> rfl
@[simp] theorem Group.setM_lastnan (g : Group) (n : Nat) (v : Word32) : (g.setM n v).lastnan = g.lastnan := by
  unfold Group.setM; split <;> rfl
@[simp] theorem Group.setM_supervisor (g : Group) (n : Nat) (v : Word32) : (g.setM n v).supervisor = g.supervisor := by
  unfold Group.setM; split <;> rfl
@[simp] theorem Group.setM_save (g : Group) (n : Nat) (v : Word32) : (g.setM n v).save = g.save := by
  unfold Group.setM; split <;> rfl
@[simp] theorem Group.setM_marks (g : Group) (n : Nat) (v : Word32) : (g.setM n v).marks = g.marks := by
  unfold Group.setM; split <;> rfl
@[simp] theorem Group.setM_pend (g : Group) (n : Nat) (v : Word32) : (g.setM n v).pend = g.pend := by
  unfold Group.setM; split <;> rfl
@[simp] theorem Group.setM_hold (g : Group) (n : Nat) (v : Word32) : (g.setM n v).hold = g.hold := by
  unfold Group.setM; split <;> rfl
@[simp] theorem Group.setM_loopBuf (g : Group) (n : Nat) (v : Word32) : (g.setM n v).loopBuf = g.loopBuf := by
  unfold Group.setM; split <;> rfl
@[simp] theorem Group.setM_lost (g : Group) (n : Nat) (v : Word32) : (g.setM n v).lost = g.lost := by
  unfold Group.setM; split <;> rfl
@[simp] theorem Group.setM_stripeLost (g : Group) (n : Nat) (v : Word32) : (g.setM n v).stripeLost = g.stripeLost := by
  unfold Group.setM; split <;> rfl
@[simp] theorem Group.setM_persists (g : Group) (n : Nat) (v : Word32) : (g.setM n v).persists = g.persists := by
  unfold Group.setM; split <;> rfl
@[simp] theorem Group.setM_scmDirty (g : Group) (n : Nat) (v : Word32) : (g.setM n v).scmDirty = g.scmDirty := by
  unfold Group.setM; split <;> rfl
@[simp] theorem Group.setM_fills (g : Group) (n : Nat) (v : Word32) : (g.setM n v).fills = g.fills := by
  unfold Group.setM; split <;> rfl
@[simp] theorem Group.setM_bar (g : Group) (n : Nat) (v : Word32) : (g.setM n v).bar = g.bar := by
  unfold Group.setM; split <;> rfl
@[simp] theorem Group.setM_gbar (g : Group) (n : Nat) (v : Word32) : (g.setM n v).gbar = g.gbar := by
  unfold Group.setM; split <;> rfl
@[simp] theorem Group.setM_preempting (g : Group) (n : Nat) (v : Word32) : (g.setM n v).preempting = g.preempting := by
  unfold Group.setM; split <;> rfl
@[simp] theorem Group.setM_lastIssue (g : Group) (n : Nat) (v : Word32) : (g.setM n v).lastIssue = g.lastIssue := by
  unfold Group.setM; split <;> rfl
@[simp] theorem Group.setM_begun (g : Group) (n : Nat) (v : Word32) : (g.setM n v).begun = g.begun := by
  unfold Group.setM; split <;> rfl
@[simp] theorem Group.setM_mctw (g : Group) (n : Nat) (v : Word32) : (g.setM n v).mctw = g.mctw := by
  unfold Group.setM; split <;> rfl
@[simp] theorem Group.setM_admitted (g : Group) (n : Nat) (v : Word32) : (g.setM n v).admitted = g.admitted := by
  unfold Group.setM; split <;> rfl

/-! ### `Group.setH` -/

@[simp] theorem Group.setH_team (g : Group) (n : Nat) (v : Word64) : (g.setH n v).team = g.team := rfl
@[simp] theorem Group.setH_idx (g : Group) (n : Nat) (v : Word64) : (g.setH n v).idx = g.idx := rfl
@[simp] theorem Group.setH_live (g : Group) (n : Nat) (v : Word64) : (g.setH n v).live = g.live := rfl
@[simp] theorem Group.setH_lpc (g : Group) (n : Nat) (v : Word64) : (g.setH n v).lpc = g.lpc := rfl
@[simp] theorem Group.setH_parks (g : Group) (n : Nat) (v : Word64) : (g.setH n v).parks = g.parks := rfl
@[simp] theorem Group.setH_wbase (g : Group) (n : Nat) (v : Word64) : (g.setH n v).wbase = g.wbase := rfl
@[simp] theorem Group.setH_vregs (g : Group) (n : Nat) (v : Word64) : (g.setH n v).vregs = g.vregs := rfl
@[simp] theorem Group.setH_latches (g : Group) (n : Nat) (v : Word64) : (g.setH n v).latches = g.latches := rfl
@[simp] theorem Group.setH_sregs (g : Group) (n : Nat) (v : Word64) : (g.setH n v).sregs = g.sregs := rfl
@[simp] theorem Group.setH_em (g : Group) (n : Nat) (v : Word64) : (g.setH n v).em = g.em := rfl
@[simp] theorem Group.setH_masks (g : Group) (n : Nat) (v : Word64) : (g.setH n v).masks = g.masks := rfl
@[simp] theorem Group.setH_origin (g : Group) (n : Nat) (v : Word64) : (g.setH n v).origin = g.origin := rfl
@[simp] theorem Group.setH_fpflags (g : Group) (n : Nat) (v : Word64) : (g.setH n v).fpflags = g.fpflags := rfl
@[simp] theorem Group.setH_rng (g : Group) (n : Nat) (v : Word64) : (g.setH n v).rng = g.rng := rfl
@[simp] theorem Group.setH_svc (g : Group) (n : Nat) (v : Word64) : (g.setH n v).svc = g.svc := rfl
@[simp] theorem Group.setH_lastnan (g : Group) (n : Nat) (v : Word64) : (g.setH n v).lastnan = g.lastnan := rfl
@[simp] theorem Group.setH_supervisor (g : Group) (n : Nat) (v : Word64) : (g.setH n v).supervisor = g.supervisor := rfl
@[simp] theorem Group.setH_save (g : Group) (n : Nat) (v : Word64) : (g.setH n v).save = g.save := rfl
@[simp] theorem Group.setH_chain (g : Group) (n : Nat) (v : Word64) : (g.setH n v).chain = g.chain := rfl
@[simp] theorem Group.setH_marks (g : Group) (n : Nat) (v : Word64) : (g.setH n v).marks = g.marks := rfl
@[simp] theorem Group.setH_pend (g : Group) (n : Nat) (v : Word64) : (g.setH n v).pend = g.pend := rfl
@[simp] theorem Group.setH_hold (g : Group) (n : Nat) (v : Word64) : (g.setH n v).hold = g.hold := rfl
@[simp] theorem Group.setH_loopBuf (g : Group) (n : Nat) (v : Word64) : (g.setH n v).loopBuf = g.loopBuf := rfl
@[simp] theorem Group.setH_lost (g : Group) (n : Nat) (v : Word64) : (g.setH n v).lost = g.lost := rfl
@[simp] theorem Group.setH_stripeLost (g : Group) (n : Nat) (v : Word64) : (g.setH n v).stripeLost = g.stripeLost := rfl
@[simp] theorem Group.setH_persists (g : Group) (n : Nat) (v : Word64) : (g.setH n v).persists = g.persists := rfl
@[simp] theorem Group.setH_scmDirty (g : Group) (n : Nat) (v : Word64) : (g.setH n v).scmDirty = g.scmDirty := rfl
@[simp] theorem Group.setH_fills (g : Group) (n : Nat) (v : Word64) : (g.setH n v).fills = g.fills := rfl
@[simp] theorem Group.setH_bar (g : Group) (n : Nat) (v : Word64) : (g.setH n v).bar = g.bar := rfl
@[simp] theorem Group.setH_gbar (g : Group) (n : Nat) (v : Word64) : (g.setH n v).gbar = g.gbar := rfl
@[simp] theorem Group.setH_preempting (g : Group) (n : Nat) (v : Word64) : (g.setH n v).preempting = g.preempting := rfl
@[simp] theorem Group.setH_lastIssue (g : Group) (n : Nat) (v : Word64) : (g.setH n v).lastIssue = g.lastIssue := rfl
@[simp] theorem Group.setH_begun (g : Group) (n : Nat) (v : Word64) : (g.setH n v).begun = g.begun := rfl
@[simp] theorem Group.setH_mctw (g : Group) (n : Nat) (v : Word64) : (g.setH n v).mctw = g.mctw := rfl
@[simp] theorem Group.setH_admitted (g : Group) (n : Nat) (v : Word64) : (g.setH n v).admitted = g.admitted := rfl

/-! ### `Group.raise` -/

@[simp] theorem Group.raise_team (g : Group) (fl : Flags) : (g.raise fl).team = g.team := rfl
@[simp] theorem Group.raise_idx (g : Group) (fl : Flags) : (g.raise fl).idx = g.idx := rfl
@[simp] theorem Group.raise_live (g : Group) (fl : Flags) : (g.raise fl).live = g.live := rfl
@[simp] theorem Group.raise_lpc (g : Group) (fl : Flags) : (g.raise fl).lpc = g.lpc := rfl
@[simp] theorem Group.raise_parks (g : Group) (fl : Flags) : (g.raise fl).parks = g.parks := rfl
@[simp] theorem Group.raise_wbase (g : Group) (fl : Flags) : (g.raise fl).wbase = g.wbase := rfl
@[simp] theorem Group.raise_vregs (g : Group) (fl : Flags) : (g.raise fl).vregs = g.vregs := rfl
@[simp] theorem Group.raise_latches (g : Group) (fl : Flags) : (g.raise fl).latches = g.latches := rfl
@[simp] theorem Group.raise_sregs (g : Group) (fl : Flags) : (g.raise fl).sregs = g.sregs := rfl
@[simp] theorem Group.raise_em (g : Group) (fl : Flags) : (g.raise fl).em = g.em := rfl
@[simp] theorem Group.raise_masks (g : Group) (fl : Flags) : (g.raise fl).masks = g.masks := rfl
@[simp] theorem Group.raise_handles (g : Group) (fl : Flags) : (g.raise fl).handles = g.handles := rfl
@[simp] theorem Group.raise_origin (g : Group) (fl : Flags) : (g.raise fl).origin = g.origin := rfl
@[simp] theorem Group.raise_rng (g : Group) (fl : Flags) : (g.raise fl).rng = g.rng := rfl
@[simp] theorem Group.raise_svc (g : Group) (fl : Flags) : (g.raise fl).svc = g.svc := rfl
@[simp] theorem Group.raise_lastnan (g : Group) (fl : Flags) : (g.raise fl).lastnan = g.lastnan := rfl
@[simp] theorem Group.raise_supervisor (g : Group) (fl : Flags) : (g.raise fl).supervisor = g.supervisor := rfl
@[simp] theorem Group.raise_save (g : Group) (fl : Flags) : (g.raise fl).save = g.save := rfl
@[simp] theorem Group.raise_chain (g : Group) (fl : Flags) : (g.raise fl).chain = g.chain := rfl
@[simp] theorem Group.raise_marks (g : Group) (fl : Flags) : (g.raise fl).marks = g.marks := rfl
@[simp] theorem Group.raise_pend (g : Group) (fl : Flags) : (g.raise fl).pend = g.pend := rfl
@[simp] theorem Group.raise_hold (g : Group) (fl : Flags) : (g.raise fl).hold = g.hold := rfl
@[simp] theorem Group.raise_loopBuf (g : Group) (fl : Flags) : (g.raise fl).loopBuf = g.loopBuf := rfl
@[simp] theorem Group.raise_lost (g : Group) (fl : Flags) : (g.raise fl).lost = g.lost := rfl
@[simp] theorem Group.raise_stripeLost (g : Group) (fl : Flags) : (g.raise fl).stripeLost = g.stripeLost := rfl
@[simp] theorem Group.raise_persists (g : Group) (fl : Flags) : (g.raise fl).persists = g.persists := rfl
@[simp] theorem Group.raise_scmDirty (g : Group) (fl : Flags) : (g.raise fl).scmDirty = g.scmDirty := rfl
@[simp] theorem Group.raise_fills (g : Group) (fl : Flags) : (g.raise fl).fills = g.fills := rfl
@[simp] theorem Group.raise_bar (g : Group) (fl : Flags) : (g.raise fl).bar = g.bar := rfl
@[simp] theorem Group.raise_gbar (g : Group) (fl : Flags) : (g.raise fl).gbar = g.gbar := rfl
@[simp] theorem Group.raise_preempting (g : Group) (fl : Flags) : (g.raise fl).preempting = g.preempting := rfl
@[simp] theorem Group.raise_lastIssue (g : Group) (fl : Flags) : (g.raise fl).lastIssue = g.lastIssue := rfl
@[simp] theorem Group.raise_begun (g : Group) (fl : Flags) : (g.raise fl).begun = g.begun := rfl
@[simp] theorem Group.raise_mctw (g : Group) (fl : Flags) : (g.raise fl).mctw = g.mctw := rfl
@[simp] theorem Group.raise_admitted (g : Group) (fl : Flags) : (g.raise fl).admitted = g.admitted := rfl

/-! ### `Group.noteNan` -/

@[simp] theorem Group.noteNan_team (g : Group) (p : Option (BitVec 22)) : (g.noteNan p).team = g.team := by
  unfold Group.noteNan; split <;> rfl
@[simp] theorem Group.noteNan_idx (g : Group) (p : Option (BitVec 22)) : (g.noteNan p).idx = g.idx := by
  unfold Group.noteNan; split <;> rfl
@[simp] theorem Group.noteNan_live (g : Group) (p : Option (BitVec 22)) : (g.noteNan p).live = g.live := by
  unfold Group.noteNan; split <;> rfl
@[simp] theorem Group.noteNan_lpc (g : Group) (p : Option (BitVec 22)) : (g.noteNan p).lpc = g.lpc := by
  unfold Group.noteNan; split <;> rfl
@[simp] theorem Group.noteNan_parks (g : Group) (p : Option (BitVec 22)) : (g.noteNan p).parks = g.parks := by
  unfold Group.noteNan; split <;> rfl
@[simp] theorem Group.noteNan_wbase (g : Group) (p : Option (BitVec 22)) : (g.noteNan p).wbase = g.wbase := by
  unfold Group.noteNan; split <;> rfl
@[simp] theorem Group.noteNan_vregs (g : Group) (p : Option (BitVec 22)) : (g.noteNan p).vregs = g.vregs := by
  unfold Group.noteNan; split <;> rfl
@[simp] theorem Group.noteNan_latches (g : Group) (p : Option (BitVec 22)) : (g.noteNan p).latches = g.latches := by
  unfold Group.noteNan; split <;> rfl
@[simp] theorem Group.noteNan_sregs (g : Group) (p : Option (BitVec 22)) : (g.noteNan p).sregs = g.sregs := by
  unfold Group.noteNan; split <;> rfl
@[simp] theorem Group.noteNan_em (g : Group) (p : Option (BitVec 22)) : (g.noteNan p).em = g.em := by
  unfold Group.noteNan; split <;> rfl
@[simp] theorem Group.noteNan_masks (g : Group) (p : Option (BitVec 22)) : (g.noteNan p).masks = g.masks := by
  unfold Group.noteNan; split <;> rfl
@[simp] theorem Group.noteNan_handles (g : Group) (p : Option (BitVec 22)) : (g.noteNan p).handles = g.handles := by
  unfold Group.noteNan; split <;> rfl
@[simp] theorem Group.noteNan_origin (g : Group) (p : Option (BitVec 22)) : (g.noteNan p).origin = g.origin := by
  unfold Group.noteNan; split <;> rfl
@[simp] theorem Group.noteNan_fpflags (g : Group) (p : Option (BitVec 22)) : (g.noteNan p).fpflags = g.fpflags := by
  unfold Group.noteNan; split <;> rfl
@[simp] theorem Group.noteNan_rng (g : Group) (p : Option (BitVec 22)) : (g.noteNan p).rng = g.rng := by
  unfold Group.noteNan; split <;> rfl
@[simp] theorem Group.noteNan_svc (g : Group) (p : Option (BitVec 22)) : (g.noteNan p).svc = g.svc := by
  unfold Group.noteNan; split <;> rfl
@[simp] theorem Group.noteNan_supervisor (g : Group) (p : Option (BitVec 22)) : (g.noteNan p).supervisor = g.supervisor := by
  unfold Group.noteNan; split <;> rfl
@[simp] theorem Group.noteNan_save (g : Group) (p : Option (BitVec 22)) : (g.noteNan p).save = g.save := by
  unfold Group.noteNan; split <;> rfl
@[simp] theorem Group.noteNan_chain (g : Group) (p : Option (BitVec 22)) : (g.noteNan p).chain = g.chain := by
  unfold Group.noteNan; split <;> rfl
@[simp] theorem Group.noteNan_marks (g : Group) (p : Option (BitVec 22)) : (g.noteNan p).marks = g.marks := by
  unfold Group.noteNan; split <;> rfl
@[simp] theorem Group.noteNan_pend (g : Group) (p : Option (BitVec 22)) : (g.noteNan p).pend = g.pend := by
  unfold Group.noteNan; split <;> rfl
@[simp] theorem Group.noteNan_hold (g : Group) (p : Option (BitVec 22)) : (g.noteNan p).hold = g.hold := by
  unfold Group.noteNan; split <;> rfl
@[simp] theorem Group.noteNan_loopBuf (g : Group) (p : Option (BitVec 22)) : (g.noteNan p).loopBuf = g.loopBuf := by
  unfold Group.noteNan; split <;> rfl
@[simp] theorem Group.noteNan_lost (g : Group) (p : Option (BitVec 22)) : (g.noteNan p).lost = g.lost := by
  unfold Group.noteNan; split <;> rfl
@[simp] theorem Group.noteNan_stripeLost (g : Group) (p : Option (BitVec 22)) : (g.noteNan p).stripeLost = g.stripeLost := by
  unfold Group.noteNan; split <;> rfl
@[simp] theorem Group.noteNan_persists (g : Group) (p : Option (BitVec 22)) : (g.noteNan p).persists = g.persists := by
  unfold Group.noteNan; split <;> rfl
@[simp] theorem Group.noteNan_scmDirty (g : Group) (p : Option (BitVec 22)) : (g.noteNan p).scmDirty = g.scmDirty := by
  unfold Group.noteNan; split <;> rfl
@[simp] theorem Group.noteNan_fills (g : Group) (p : Option (BitVec 22)) : (g.noteNan p).fills = g.fills := by
  unfold Group.noteNan; split <;> rfl
@[simp] theorem Group.noteNan_bar (g : Group) (p : Option (BitVec 22)) : (g.noteNan p).bar = g.bar := by
  unfold Group.noteNan; split <;> rfl
@[simp] theorem Group.noteNan_gbar (g : Group) (p : Option (BitVec 22)) : (g.noteNan p).gbar = g.gbar := by
  unfold Group.noteNan; split <;> rfl
@[simp] theorem Group.noteNan_preempting (g : Group) (p : Option (BitVec 22)) : (g.noteNan p).preempting = g.preempting := by
  unfold Group.noteNan; split <;> rfl
@[simp] theorem Group.noteNan_lastIssue (g : Group) (p : Option (BitVec 22)) : (g.noteNan p).lastIssue = g.lastIssue := by
  unfold Group.noteNan; split <;> rfl
@[simp] theorem Group.noteNan_begun (g : Group) (p : Option (BitVec 22)) : (g.noteNan p).begun = g.begun := by
  unfold Group.noteNan; split <;> rfl
@[simp] theorem Group.noteNan_mctw (g : Group) (p : Option (BitVec 22)) : (g.noteNan p).mctw = g.mctw := by
  unfold Group.noteNan; split <;> rfl
@[simp] theorem Group.noteNan_admitted (g : Group) (p : Option (BitVec 22)) : (g.noteNan p).admitted = g.admitted := by
  unfold Group.noteNan; split <;> rfl

/-! ### `Group.endChain` -/

@[simp] theorem Group.endChain_team (g : Group) : g.endChain.team = g.team := rfl
@[simp] theorem Group.endChain_idx (g : Group) : g.endChain.idx = g.idx := rfl
@[simp] theorem Group.endChain_live (g : Group) : g.endChain.live = g.live := rfl
@[simp] theorem Group.endChain_lpc (g : Group) : g.endChain.lpc = g.lpc := rfl
@[simp] theorem Group.endChain_parks (g : Group) : g.endChain.parks = g.parks := rfl
@[simp] theorem Group.endChain_wbase (g : Group) : g.endChain.wbase = g.wbase := rfl
@[simp] theorem Group.endChain_vregs (g : Group) : g.endChain.vregs = g.vregs := rfl
@[simp] theorem Group.endChain_sregs (g : Group) : g.endChain.sregs = g.sregs := rfl
@[simp] theorem Group.endChain_em (g : Group) : g.endChain.em = g.em := rfl
@[simp] theorem Group.endChain_masks (g : Group) : g.endChain.masks = g.masks := rfl
@[simp] theorem Group.endChain_handles (g : Group) : g.endChain.handles = g.handles := rfl
@[simp] theorem Group.endChain_origin (g : Group) : g.endChain.origin = g.origin := rfl
@[simp] theorem Group.endChain_fpflags (g : Group) : g.endChain.fpflags = g.fpflags := rfl
@[simp] theorem Group.endChain_rng (g : Group) : g.endChain.rng = g.rng := rfl
@[simp] theorem Group.endChain_svc (g : Group) : g.endChain.svc = g.svc := rfl
@[simp] theorem Group.endChain_lastnan (g : Group) : g.endChain.lastnan = g.lastnan := rfl
@[simp] theorem Group.endChain_supervisor (g : Group) : g.endChain.supervisor = g.supervisor := rfl
@[simp] theorem Group.endChain_save (g : Group) : g.endChain.save = g.save := rfl
@[simp] theorem Group.endChain_marks (g : Group) : g.endChain.marks = g.marks := rfl
@[simp] theorem Group.endChain_pend (g : Group) : g.endChain.pend = g.pend := rfl
@[simp] theorem Group.endChain_hold (g : Group) : g.endChain.hold = g.hold := rfl
@[simp] theorem Group.endChain_loopBuf (g : Group) : g.endChain.loopBuf = g.loopBuf := rfl
@[simp] theorem Group.endChain_lost (g : Group) : g.endChain.lost = g.lost := rfl
@[simp] theorem Group.endChain_stripeLost (g : Group) : g.endChain.stripeLost = g.stripeLost := rfl
@[simp] theorem Group.endChain_persists (g : Group) : g.endChain.persists = g.persists := rfl
@[simp] theorem Group.endChain_scmDirty (g : Group) : g.endChain.scmDirty = g.scmDirty := rfl
@[simp] theorem Group.endChain_fills (g : Group) : g.endChain.fills = g.fills := rfl
@[simp] theorem Group.endChain_bar (g : Group) : g.endChain.bar = g.bar := rfl
@[simp] theorem Group.endChain_gbar (g : Group) : g.endChain.gbar = g.gbar := rfl
@[simp] theorem Group.endChain_preempting (g : Group) : g.endChain.preempting = g.preempting := rfl
@[simp] theorem Group.endChain_lastIssue (g : Group) : g.endChain.lastIssue = g.lastIssue := rfl
@[simp] theorem Group.endChain_begun (g : Group) : g.endChain.begun = g.begun := rfl
@[simp] theorem Group.endChain_mctw (g : Group) : g.endChain.mctw = g.mctw := rfl
@[simp] theorem Group.endChain_admitted (g : Group) : g.endChain.admitted = g.admitted := rfl

/-! ### `Group.chainFor` -/

@[simp] theorem Group.chainFor_team (g : Group) : g.chainFor.team = g.team := by
  unfold Group.chainFor; split <;> rfl
@[simp] theorem Group.chainFor_idx (g : Group) : g.chainFor.idx = g.idx := by
  unfold Group.chainFor; split <;> rfl
@[simp] theorem Group.chainFor_live (g : Group) : g.chainFor.live = g.live := by
  unfold Group.chainFor; split <;> rfl
@[simp] theorem Group.chainFor_lpc (g : Group) : g.chainFor.lpc = g.lpc := by
  unfold Group.chainFor; split <;> rfl
@[simp] theorem Group.chainFor_parks (g : Group) : g.chainFor.parks = g.parks := by
  unfold Group.chainFor; split <;> rfl
@[simp] theorem Group.chainFor_wbase (g : Group) : g.chainFor.wbase = g.wbase := by
  unfold Group.chainFor; split <;> rfl
@[simp] theorem Group.chainFor_vregs (g : Group) : g.chainFor.vregs = g.vregs := by
  unfold Group.chainFor; split <;> rfl
@[simp] theorem Group.chainFor_sregs (g : Group) : g.chainFor.sregs = g.sregs := by
  unfold Group.chainFor; split <;> rfl
@[simp] theorem Group.chainFor_em (g : Group) : g.chainFor.em = g.em := by
  unfold Group.chainFor; split <;> rfl
@[simp] theorem Group.chainFor_masks (g : Group) : g.chainFor.masks = g.masks := by
  unfold Group.chainFor; split <;> rfl
@[simp] theorem Group.chainFor_handles (g : Group) : g.chainFor.handles = g.handles := by
  unfold Group.chainFor; split <;> rfl
@[simp] theorem Group.chainFor_origin (g : Group) : g.chainFor.origin = g.origin := by
  unfold Group.chainFor; split <;> rfl
@[simp] theorem Group.chainFor_fpflags (g : Group) : g.chainFor.fpflags = g.fpflags := by
  unfold Group.chainFor; split <;> rfl
@[simp] theorem Group.chainFor_rng (g : Group) : g.chainFor.rng = g.rng := by
  unfold Group.chainFor; split <;> rfl
@[simp] theorem Group.chainFor_svc (g : Group) : g.chainFor.svc = g.svc := by
  unfold Group.chainFor; split <;> rfl
@[simp] theorem Group.chainFor_lastnan (g : Group) : g.chainFor.lastnan = g.lastnan := by
  unfold Group.chainFor; split <;> rfl
@[simp] theorem Group.chainFor_supervisor (g : Group) : g.chainFor.supervisor = g.supervisor := by
  unfold Group.chainFor; split <;> rfl
@[simp] theorem Group.chainFor_save (g : Group) : g.chainFor.save = g.save := by
  unfold Group.chainFor; split <;> rfl
@[simp] theorem Group.chainFor_marks (g : Group) : g.chainFor.marks = g.marks := by
  unfold Group.chainFor; split <;> rfl
@[simp] theorem Group.chainFor_pend (g : Group) : g.chainFor.pend = g.pend := by
  unfold Group.chainFor; split <;> rfl
@[simp] theorem Group.chainFor_hold (g : Group) : g.chainFor.hold = g.hold := by
  unfold Group.chainFor; split <;> rfl
@[simp] theorem Group.chainFor_loopBuf (g : Group) : g.chainFor.loopBuf = g.loopBuf := by
  unfold Group.chainFor; split <;> rfl
@[simp] theorem Group.chainFor_lost (g : Group) : g.chainFor.lost = g.lost := by
  unfold Group.chainFor; split <;> rfl
@[simp] theorem Group.chainFor_stripeLost (g : Group) : g.chainFor.stripeLost = g.stripeLost := by
  unfold Group.chainFor; split <;> rfl
@[simp] theorem Group.chainFor_persists (g : Group) : g.chainFor.persists = g.persists := by
  unfold Group.chainFor; split <;> rfl
@[simp] theorem Group.chainFor_scmDirty (g : Group) : g.chainFor.scmDirty = g.scmDirty := by
  unfold Group.chainFor; split <;> rfl
@[simp] theorem Group.chainFor_fills (g : Group) : g.chainFor.fills = g.fills := by
  unfold Group.chainFor; split <;> rfl
@[simp] theorem Group.chainFor_bar (g : Group) : g.chainFor.bar = g.bar := by
  unfold Group.chainFor; split <;> rfl
@[simp] theorem Group.chainFor_gbar (g : Group) : g.chainFor.gbar = g.gbar := by
  unfold Group.chainFor; split <;> rfl
@[simp] theorem Group.chainFor_preempting (g : Group) : g.chainFor.preempting = g.preempting := by
  unfold Group.chainFor; split <;> rfl
@[simp] theorem Group.chainFor_lastIssue (g : Group) : g.chainFor.lastIssue = g.lastIssue := by
  unfold Group.chainFor; split <;> rfl
@[simp] theorem Group.chainFor_begun (g : Group) : g.chainFor.begun = g.begun := by
  unfold Group.chainFor; split <;> rfl
@[simp] theorem Group.chainFor_mctw (g : Group) : g.chainFor.mctw = g.mctw := by
  unfold Group.chainFor; split <;> rfl
@[simp] theorem Group.chainFor_admitted (g : Group) : g.chainFor.admitted = g.admitted := by
  unfold Group.chainFor; split <;> rfl

/-! ### `Group.shiftLatches` -/

@[simp] theorem Group.shiftLatches_team (g : Group) (m : Word32) (f : Nat → Word64) : (g.shiftLatches m f).team = g.team := rfl
@[simp] theorem Group.shiftLatches_idx (g : Group) (m : Word32) (f : Nat → Word64) : (g.shiftLatches m f).idx = g.idx := rfl
@[simp] theorem Group.shiftLatches_live (g : Group) (m : Word32) (f : Nat → Word64) : (g.shiftLatches m f).live = g.live := rfl
@[simp] theorem Group.shiftLatches_lpc (g : Group) (m : Word32) (f : Nat → Word64) : (g.shiftLatches m f).lpc = g.lpc := rfl
@[simp] theorem Group.shiftLatches_parks (g : Group) (m : Word32) (f : Nat → Word64) : (g.shiftLatches m f).parks = g.parks := rfl
@[simp] theorem Group.shiftLatches_wbase (g : Group) (m : Word32) (f : Nat → Word64) : (g.shiftLatches m f).wbase = g.wbase := rfl
@[simp] theorem Group.shiftLatches_vregs (g : Group) (m : Word32) (f : Nat → Word64) : (g.shiftLatches m f).vregs = g.vregs := rfl
@[simp] theorem Group.shiftLatches_sregs (g : Group) (m : Word32) (f : Nat → Word64) : (g.shiftLatches m f).sregs = g.sregs := rfl
@[simp] theorem Group.shiftLatches_em (g : Group) (m : Word32) (f : Nat → Word64) : (g.shiftLatches m f).em = g.em := rfl
@[simp] theorem Group.shiftLatches_masks (g : Group) (m : Word32) (f : Nat → Word64) : (g.shiftLatches m f).masks = g.masks := rfl
@[simp] theorem Group.shiftLatches_handles (g : Group) (m : Word32) (f : Nat → Word64) : (g.shiftLatches m f).handles = g.handles := rfl
@[simp] theorem Group.shiftLatches_origin (g : Group) (m : Word32) (f : Nat → Word64) : (g.shiftLatches m f).origin = g.origin := rfl
@[simp] theorem Group.shiftLatches_fpflags (g : Group) (m : Word32) (f : Nat → Word64) : (g.shiftLatches m f).fpflags = g.fpflags := rfl
@[simp] theorem Group.shiftLatches_rng (g : Group) (m : Word32) (f : Nat → Word64) : (g.shiftLatches m f).rng = g.rng := rfl
@[simp] theorem Group.shiftLatches_svc (g : Group) (m : Word32) (f : Nat → Word64) : (g.shiftLatches m f).svc = g.svc := rfl
@[simp] theorem Group.shiftLatches_lastnan (g : Group) (m : Word32) (f : Nat → Word64) : (g.shiftLatches m f).lastnan = g.lastnan := rfl
@[simp] theorem Group.shiftLatches_supervisor (g : Group) (m : Word32) (f : Nat → Word64) : (g.shiftLatches m f).supervisor = g.supervisor := rfl
@[simp] theorem Group.shiftLatches_save (g : Group) (m : Word32) (f : Nat → Word64) : (g.shiftLatches m f).save = g.save := rfl
@[simp] theorem Group.shiftLatches_chain (g : Group) (m : Word32) (f : Nat → Word64) : (g.shiftLatches m f).chain = g.chain := rfl
@[simp] theorem Group.shiftLatches_marks (g : Group) (m : Word32) (f : Nat → Word64) : (g.shiftLatches m f).marks = g.marks := rfl
@[simp] theorem Group.shiftLatches_pend (g : Group) (m : Word32) (f : Nat → Word64) : (g.shiftLatches m f).pend = g.pend := rfl
@[simp] theorem Group.shiftLatches_hold (g : Group) (m : Word32) (f : Nat → Word64) : (g.shiftLatches m f).hold = g.hold := rfl
@[simp] theorem Group.shiftLatches_loopBuf (g : Group) (m : Word32) (f : Nat → Word64) : (g.shiftLatches m f).loopBuf = g.loopBuf := rfl
@[simp] theorem Group.shiftLatches_lost (g : Group) (m : Word32) (f : Nat → Word64) : (g.shiftLatches m f).lost = g.lost := rfl
@[simp] theorem Group.shiftLatches_stripeLost (g : Group) (m : Word32) (f : Nat → Word64) : (g.shiftLatches m f).stripeLost = g.stripeLost := rfl
@[simp] theorem Group.shiftLatches_persists (g : Group) (m : Word32) (f : Nat → Word64) : (g.shiftLatches m f).persists = g.persists := rfl
@[simp] theorem Group.shiftLatches_scmDirty (g : Group) (m : Word32) (f : Nat → Word64) : (g.shiftLatches m f).scmDirty = g.scmDirty := rfl
@[simp] theorem Group.shiftLatches_fills (g : Group) (m : Word32) (f : Nat → Word64) : (g.shiftLatches m f).fills = g.fills := rfl
@[simp] theorem Group.shiftLatches_bar (g : Group) (m : Word32) (f : Nat → Word64) : (g.shiftLatches m f).bar = g.bar := rfl
@[simp] theorem Group.shiftLatches_gbar (g : Group) (m : Word32) (f : Nat → Word64) : (g.shiftLatches m f).gbar = g.gbar := rfl
@[simp] theorem Group.shiftLatches_preempting (g : Group) (m : Word32) (f : Nat → Word64) : (g.shiftLatches m f).preempting = g.preempting := rfl
@[simp] theorem Group.shiftLatches_lastIssue (g : Group) (m : Word32) (f : Nat → Word64) : (g.shiftLatches m f).lastIssue = g.lastIssue := rfl
@[simp] theorem Group.shiftLatches_begun (g : Group) (m : Word32) (f : Nat → Word64) : (g.shiftLatches m f).begun = g.begun := rfl
@[simp] theorem Group.shiftLatches_mctw (g : Group) (m : Word32) (f : Nat → Word64) : (g.shiftLatches m f).mctw = g.mctw := rfl
@[simp] theorem Group.shiftLatches_admitted (g : Group) (m : Word32) (f : Nat → Word64) : (g.shiftLatches m f).admitted = g.admitted := rfl

/-! ### `Group.writeOuts` -/

@[simp] theorem Group.writeOuts_team (g : Group) (d : VDst) (m : Word32) (outs : List LaneOut) :
    (g.writeOuts d m outs).team = g.team := by
  simp only [Group.writeOuts, Group.noteNan_team, Group.raise_team]
  split
  · rfl
  · split <;> rfl
@[simp] theorem Group.writeOuts_idx (g : Group) (d : VDst) (m : Word32) (outs : List LaneOut) :
    (g.writeOuts d m outs).idx = g.idx := by
  simp only [Group.writeOuts, Group.noteNan_idx, Group.raise_idx]
  split
  · rfl
  · split <;> rfl
@[simp] theorem Group.writeOuts_live (g : Group) (d : VDst) (m : Word32) (outs : List LaneOut) :
    (g.writeOuts d m outs).live = g.live := by
  simp only [Group.writeOuts, Group.noteNan_live, Group.raise_live]
  split
  · rfl
  · split <;> rfl
@[simp] theorem Group.writeOuts_lpc (g : Group) (d : VDst) (m : Word32) (outs : List LaneOut) :
    (g.writeOuts d m outs).lpc = g.lpc := by
  simp only [Group.writeOuts, Group.noteNan_lpc, Group.raise_lpc]
  split
  · rfl
  · split <;> rfl
@[simp] theorem Group.writeOuts_parks (g : Group) (d : VDst) (m : Word32) (outs : List LaneOut) :
    (g.writeOuts d m outs).parks = g.parks := by
  simp only [Group.writeOuts, Group.noteNan_parks, Group.raise_parks]
  split
  · rfl
  · split <;> rfl
@[simp] theorem Group.writeOuts_wbase (g : Group) (d : VDst) (m : Word32) (outs : List LaneOut) :
    (g.writeOuts d m outs).wbase = g.wbase := by
  simp only [Group.writeOuts, Group.noteNan_wbase, Group.raise_wbase]
  split
  · rfl
  · split <;> rfl
@[simp] theorem Group.writeOuts_latches (g : Group) (d : VDst) (m : Word32) (outs : List LaneOut) :
    (g.writeOuts d m outs).latches = g.latches := by
  simp only [Group.writeOuts, Group.noteNan_latches, Group.raise_latches]
  split
  · rfl
  · split <;> rfl
@[simp] theorem Group.writeOuts_sregs (g : Group) (d : VDst) (m : Word32) (outs : List LaneOut) :
    (g.writeOuts d m outs).sregs = g.sregs := by
  simp only [Group.writeOuts, Group.noteNan_sregs, Group.raise_sregs]
  split
  · rfl
  · split <;> rfl
@[simp] theorem Group.writeOuts_em (g : Group) (d : VDst) (m : Word32) (outs : List LaneOut) :
    (g.writeOuts d m outs).em = g.em := by
  simp only [Group.writeOuts, Group.noteNan_em, Group.raise_em]
  split
  · rfl
  · split <;> rfl
@[simp] theorem Group.writeOuts_masks (g : Group) (d : VDst) (m : Word32) (outs : List LaneOut) :
    (g.writeOuts d m outs).masks = g.masks := by
  simp only [Group.writeOuts, Group.noteNan_masks, Group.raise_masks]
  split
  · rfl
  · split <;> rfl
@[simp] theorem Group.writeOuts_handles (g : Group) (d : VDst) (m : Word32) (outs : List LaneOut) :
    (g.writeOuts d m outs).handles = g.handles := by
  simp only [Group.writeOuts, Group.noteNan_handles, Group.raise_handles]
  split
  · rfl
  · split <;> rfl
@[simp] theorem Group.writeOuts_origin (g : Group) (d : VDst) (m : Word32) (outs : List LaneOut) :
    (g.writeOuts d m outs).origin = g.origin := by
  simp only [Group.writeOuts, Group.noteNan_origin, Group.raise_origin]
  split
  · rfl
  · split <;> rfl
@[simp] theorem Group.writeOuts_svc (g : Group) (d : VDst) (m : Word32) (outs : List LaneOut) :
    (g.writeOuts d m outs).svc = g.svc := by
  simp only [Group.writeOuts, Group.noteNan_svc, Group.raise_svc]
  split
  · rfl
  · split <;> rfl
@[simp] theorem Group.writeOuts_supervisor (g : Group) (d : VDst) (m : Word32) (outs : List LaneOut) :
    (g.writeOuts d m outs).supervisor = g.supervisor := by
  simp only [Group.writeOuts, Group.noteNan_supervisor, Group.raise_supervisor]
  split
  · rfl
  · split <;> rfl
@[simp] theorem Group.writeOuts_save (g : Group) (d : VDst) (m : Word32) (outs : List LaneOut) :
    (g.writeOuts d m outs).save = g.save := by
  simp only [Group.writeOuts, Group.noteNan_save, Group.raise_save]
  split
  · rfl
  · split <;> rfl
@[simp] theorem Group.writeOuts_pend (g : Group) (d : VDst) (m : Word32) (outs : List LaneOut) :
    (g.writeOuts d m outs).pend = g.pend := by
  simp only [Group.writeOuts, Group.noteNan_pend, Group.raise_pend]
  split
  · rfl
  · split <;> rfl
@[simp] theorem Group.writeOuts_hold (g : Group) (d : VDst) (m : Word32) (outs : List LaneOut) :
    (g.writeOuts d m outs).hold = g.hold := by
  simp only [Group.writeOuts, Group.noteNan_hold, Group.raise_hold]
  split
  · rfl
  · split <;> rfl
@[simp] theorem Group.writeOuts_loopBuf (g : Group) (d : VDst) (m : Word32) (outs : List LaneOut) :
    (g.writeOuts d m outs).loopBuf = g.loopBuf := by
  simp only [Group.writeOuts, Group.noteNan_loopBuf, Group.raise_loopBuf]
  split
  · rfl
  · split <;> rfl
@[simp] theorem Group.writeOuts_lost (g : Group) (d : VDst) (m : Word32) (outs : List LaneOut) :
    (g.writeOuts d m outs).lost = g.lost := by
  simp only [Group.writeOuts, Group.noteNan_lost, Group.raise_lost]
  split
  · rfl
  · split <;> rfl
@[simp] theorem Group.writeOuts_stripeLost (g : Group) (d : VDst) (m : Word32) (outs : List LaneOut) :
    (g.writeOuts d m outs).stripeLost = g.stripeLost := by
  simp only [Group.writeOuts, Group.noteNan_stripeLost, Group.raise_stripeLost]
  split
  · rfl
  · split <;> rfl
@[simp] theorem Group.writeOuts_persists (g : Group) (d : VDst) (m : Word32) (outs : List LaneOut) :
    (g.writeOuts d m outs).persists = g.persists := by
  simp only [Group.writeOuts, Group.noteNan_persists, Group.raise_persists]
  split
  · rfl
  · split <;> rfl
@[simp] theorem Group.writeOuts_scmDirty (g : Group) (d : VDst) (m : Word32) (outs : List LaneOut) :
    (g.writeOuts d m outs).scmDirty = g.scmDirty := by
  simp only [Group.writeOuts, Group.noteNan_scmDirty, Group.raise_scmDirty]
  split
  · rfl
  · split <;> rfl
@[simp] theorem Group.writeOuts_fills (g : Group) (d : VDst) (m : Word32) (outs : List LaneOut) :
    (g.writeOuts d m outs).fills = g.fills := by
  simp only [Group.writeOuts, Group.noteNan_fills, Group.raise_fills]
  split
  · rfl
  · split <;> rfl
@[simp] theorem Group.writeOuts_bar (g : Group) (d : VDst) (m : Word32) (outs : List LaneOut) :
    (g.writeOuts d m outs).bar = g.bar := by
  simp only [Group.writeOuts, Group.noteNan_bar, Group.raise_bar]
  split
  · rfl
  · split <;> rfl
@[simp] theorem Group.writeOuts_gbar (g : Group) (d : VDst) (m : Word32) (outs : List LaneOut) :
    (g.writeOuts d m outs).gbar = g.gbar := by
  simp only [Group.writeOuts, Group.noteNan_gbar, Group.raise_gbar]
  split
  · rfl
  · split <;> rfl
@[simp] theorem Group.writeOuts_preempting (g : Group) (d : VDst) (m : Word32) (outs : List LaneOut) :
    (g.writeOuts d m outs).preempting = g.preempting := by
  simp only [Group.writeOuts, Group.noteNan_preempting, Group.raise_preempting]
  split
  · rfl
  · split <;> rfl
@[simp] theorem Group.writeOuts_lastIssue (g : Group) (d : VDst) (m : Word32) (outs : List LaneOut) :
    (g.writeOuts d m outs).lastIssue = g.lastIssue := by
  simp only [Group.writeOuts, Group.noteNan_lastIssue, Group.raise_lastIssue]
  split
  · rfl
  · split <;> rfl
@[simp] theorem Group.writeOuts_begun (g : Group) (d : VDst) (m : Word32) (outs : List LaneOut) :
    (g.writeOuts d m outs).begun = g.begun := by
  simp only [Group.writeOuts, Group.noteNan_begun, Group.raise_begun]
  split
  · rfl
  · split <;> rfl
@[simp] theorem Group.writeOuts_mctw (g : Group) (d : VDst) (m : Word32) (outs : List LaneOut) :
    (g.writeOuts d m outs).mctw = g.mctw := by
  simp only [Group.writeOuts, Group.noteNan_mctw, Group.raise_mctw]
  split
  · rfl
  · split <;> rfl
@[simp] theorem Group.writeOuts_admitted (g : Group) (d : VDst) (m : Word32) (outs : List LaneOut) :
    (g.writeOuts d m outs).admitted = g.admitted := by
  simp only [Group.writeOuts, Group.noteNan_admitted, Group.raise_admitted]
  split
  · rfl
  · split <;> rfl

/-! ### What registers read as after a write -/

/-- A lane of a vector register after a write (02 R37). -/
theorem Group.v_setV (g : Group) (n k l : Nat) (m : Word32) (f : Nat → Word32) (hl : l < 32) :
    (g.setV n m f).v k l = if k = n ∧ m.getLsbD l = true then f l else g.v k l := by
  show (agetD (aset g.vregs (g.wbase + n) _) (g.wbase + k) []).at l = _
  rw [agetD_aset]
  by_cases hk : k = n
  · subst hk
    simp only [if_true, Lanes.at_make, hl, true_and]
    rfl
  · have : ¬ g.wbase + k = g.wbase + n := by omega
    simp only [this, if_false, hk, false_and]
    rfl

/-- A scalar after a write. -/
theorem Group.s_setS (g : Group) (n k : Nat) (v : Word64) : (g.setS n v).s k = if k = n then v else g.s k :=
  agetD_aset g.sregs n k v 0

/-- A mask operand after a write (04 Table 4.3). -/
theorem Group.m_setM (g : Group) (n k : Nat) (v : Word32) : (g.setM n v).m k = if k = n then v else g.m k := by
  unfold Group.setM Group.m
  by_cases hn : n = 8
  · subst hn
    by_cases hk : k = 8 <;> simp [hk]
  · by_cases hk : k = 8
    · subst hk
      simp [hn, Ne.symm hn]
    · simp only [hn, hk, if_false, agetD_aset]

/-- A handle register after a write. -/
theorem Group.h_setH (g : Group) (n k : Nat) (v : Word64) : (g.setH n v).h k = if k = n then v else g.h k :=
  agetD_aset g.handles n k v 0

/-- A lane's word index after `setPc`. -/
theorem Group.pcOf_setPc (g : Group) (m : Word32) (pc : WordIndex) (l : Nat) (hl : l < 32) :
    (g.setPc m pc).pcOf l = if m.getLsbD l = true then pc else g.pcOf l := by
  have h := getD_laneIds_map (fun l => if m.getLsbD l then pc else g.pcOf l) 0 l
  rw [if_pos hl] at h
  exact h

/-- A lane's word index after an advance (02 R42). -/
theorem Group.pcOf_advance (g : Group) (l : Nat) (hl : l < 32) :
    g.advance.pcOf l = if g.atIssue.getLsbD l = true then wordMod (g.issue + 1) else g.pcOf l :=
  g.pcOf_setPc g.atIssue _ l hl

@[simp] theorem Group.v_chainFor (g : Group) (n l : Nat) : g.chainFor.v n l = g.v n l := by
  simp [Group.v, Group.posLane]
@[simp] theorem Group.v_endChain (g : Group) (n l : Nat) : g.endChain.v n l = g.v n l := rfl
@[simp] theorem Group.v_advance (g : Group) (n l : Nat) : g.advance.v n l = g.v n l := rfl
@[simp] theorem Group.v_shiftLatches (g : Group) (m : Word32) (f : Nat → Word64) (n l : Nat) :
    (g.shiftLatches m f).v n l = g.v n l := rfl
@[simp] theorem Group.v_setS (g : Group) (k : Nat) (x : Word64) (n l : Nat) : (g.setS k x).v n l = g.v n l := rfl
@[simp] theorem Group.v_setM (g : Group) (k : Nat) (x : Word32) (n l : Nat) : (g.setM k x).v n l = g.v n l := by
  simp [Group.v, Group.posLane]
@[simp] theorem Group.v_setH (g : Group) (k : Nat) (x : Word64) (n l : Nat) : (g.setH k x).v n l = g.v n l := rfl
@[simp] theorem Group.v_raise (g : Group) (fl : Flags) (n l : Nat) : (g.raise fl).v n l = g.v n l := rfl
@[simp] theorem Group.v_noteNan (g : Group) (p : Option (BitVec 22)) (n l : Nat) : (g.noteNan p).v n l = g.v n l := by
  simp [Group.v, Group.posLane]
@[simp] theorem Group.s_chainFor (g : Group) (n : Nat) : g.chainFor.s n = g.s n := by simp [Group.s]
@[simp] theorem Group.s_endChain (g : Group) (n : Nat) : g.endChain.s n = g.s n := rfl
@[simp] theorem Group.s_advance (g : Group) (n : Nat) : g.advance.s n = g.s n := rfl
@[simp] theorem Group.s_shiftLatches (g : Group) (m : Word32) (f : Nat → Word64) (n : Nat) : (g.shiftLatches m f).s n = g.s n := rfl
@[simp] theorem Group.s_setV (g : Group) (k : Nat) (m : Word32) (f : Nat → Word32) (n : Nat) : (g.setV k m f).s n = g.s n := rfl
@[simp] theorem Group.s_setM (g : Group) (k : Nat) (x : Word32) (n : Nat) : (g.setM k x).s n = g.s n := by simp [Group.s]
@[simp] theorem Group.s_setH (g : Group) (k : Nat) (x : Word64) (n : Nat) : (g.setH k x).s n = g.s n := rfl
@[simp] theorem Group.s_raise (g : Group) (fl : Flags) (n : Nat) : (g.raise fl).s n = g.s n := rfl
@[simp] theorem Group.s_noteNan (g : Group) (p : Option (BitVec 22)) (n : Nat) : (g.noteNan p).s n = g.s n := by simp [Group.s]
@[simp] theorem Group.s_writeOuts (g : Group) (d : VDst) (m : Word32) (o : List LaneOut) (n : Nat) :
    (g.writeOuts d m o).s n = g.s n := by simp [Group.s]
@[simp] theorem Group.m_chainFor (g : Group) (n : Nat) : g.chainFor.m n = g.m n := by simp [Group.m]
@[simp] theorem Group.m_endChain (g : Group) (n : Nat) : g.endChain.m n = g.m n := rfl
@[simp] theorem Group.m_advance (g : Group) (n : Nat) : g.advance.m n = g.m n := rfl
@[simp] theorem Group.m_shiftLatches (g : Group) (m : Word32) (f : Nat → Word64) (n : Nat) : (g.shiftLatches m f).m n = g.m n := rfl
@[simp] theorem Group.m_setS (g : Group) (k : Nat) (x : Word64) (n : Nat) : (g.setS k x).m n = g.m n := rfl
@[simp] theorem Group.m_writeOuts (g : Group) (d : VDst) (m : Word32) (o : List LaneOut) (n : Nat) :
    (g.writeOuts d m o).m n = g.m n := by simp [Group.m]
@[simp] theorem Group.h_writeOuts (g : Group) (d : VDst) (m : Word32) (o : List LaneOut) (n : Nat) :
    (g.writeOuts d m o).h n = g.h n := by simp [Group.h]

/-- The lanes at the issue address do not change with the registers. -/
theorem Group.issue_congr {g h : Group} (h1 : h.live = g.live) (h2 : h.parks = g.parks) (h3 : h.lpc = g.lpc) :
    h.issue = g.issue ∧ h.atIssue = g.atIssue := by
  have hr : h.runnable = g.runnable := by simp only [Group.runnable, Group.parked, h1, h2]
  have hp : h.pcOf = g.pcOf := by funext l; simp only [Group.pcOf, h3]
  have hi : h.issue = g.issue := by simp only [Group.issue, Group.issue?, hr, hp]
  refine ⟨hi, ?_⟩
  simp only [Group.atIssue, hr, hp, hi]

/-! ### What a vector member writes (05 R103) -/

/-- A lane of a register after the results of a vector member are written to a 32-bit destination: only D changes, and only in
the lanes that execute. -/
theorem Group.v_writeOuts (g : Group) (d : VDst) (m : Word32) (o : List LaneOut) (n l : Nat) (hl : l < 32) :
    (g.writeOuts d m o).v n l =
      if d.nw = false ∧ m.getLsbD l = true ∧ n = d.d then lo32 (outAt o l).r
      else if d.nw = false ∧ m.getLsbD l = true ∧ d.wide = true ∧ n = d.d + 1 then hi32 (outAt o l).r else g.v n l := by
  have key : (g.writeOuts d m o).v n l = (if d.nw then g
      else if d.wide then g.setV64 d.d m fun l => (outAt o l).r
      else g.setV d.d m fun l => lo32 (outAt o l).r).v n l := by
    simp only [Group.writeOuts, Group.v_noteNan]
    rfl
  rw [key]
  cases hnw : d.nw
  · simp only [Bool.false_eq_true, if_false, true_and]
    cases hw : d.wide
    · simp only [Bool.false_eq_true, if_false, Group.v_setV _ _ _ _ _ _ hl, false_and, and_false]
      by_cases h1 : n = d.d <;> by_cases h2 : m.getLsbD l = true <;> simp [h1, h2]
    · simp only [if_true, Group.setV64, Group.v_setV _ _ _ _ _ _ hl, true_and]
      by_cases h1 : n = d.d <;> by_cases h2 : m.getLsbD l = true <;> by_cases h3 : n = d.d + 1 <;> simp [h1, h2, h3]
  · simp

end Sys2Proof.Machine
end

