-- ==== Sys2Proof/Laws/PerInstr.lean ====
section
/-!
SUPPORT. The family `FieldsBack`: the fields that an instruction is written with are read back as that instruction. One lemma
for each constructor of `Instr`.
-/
namespace Sys2Proof.Laws

/-- The fields of an instruction encode it: reading them gives the instruction back (04 Tables 4.1 to 4.7 and 4.11). A paired
word, a word that is no instruction and a step of the part have no such fields, so the statement says nothing of them. -/
def FieldsBack.Statement (i : Instr) : Prop := ∀ f, i.fields = some f → i.mbarOk = true → f.instr = some i

/-- The fields of class 000 give its operands back. -/
theorem vArgs_back (op : BitVec 11) (a : VArgs) (f : Fields) (h : (Shape.v op a).fields = some f) :
    f.cls = 0 ∧ f.op = op ∧ f.vArgs = some a := by
  simp only [Shape.fields, Option.some.injEq] at h
  subst h
  obtain ⟨d, x, b, la, lb, nw, ty, rnd, ftz, sat, ty2, sub⟩ := a
  have h1 := ty.code.isLt; have h2 := rnd.code.isLt; have h3 := ty2.isLt; have h4 := sub.isLt
  have h5 : ftz.toNat ≤ 1 := by cases ftz <;> decide
  have h6 : sat.toNat ≤ 1 := by cases sat <;> decide
  refine ⟨rfl, rfl, ?_⟩
  simp only [Fields.vArgs, Fields.ty]
  have hx : (BitVec.ofNat 16 (ty.code.toNat * 2 ^ 12 + rnd.code.toNat * 2 ^ 9 + ftz.toNat * 2 ^ 8 + sat.toNat * 2 ^ 7
      + ty2.toNat * 2 ^ 3 + sub.toNat)).toNat = ty.code.toNat * 2 ^ 12 + rnd.code.toNat * 2 ^ 9 + ftz.toNat * 2 ^ 8
      + sat.toNat * 2 ^ 7 + ty2.toNat * 2 ^ 3 + sub.toNat := by
    rw [BitVec.toNat_ofNat]; apply Nat.mod_eq_of_lt; omega
  generalize BitVec.ofNat 16 _ = w at hx ⊢
  have e1 : w.extractLsb' 12 4 = ty.code := by
    apply BitVec.eq_of_toNat_eq
    rw [BitVec.extractLsb'_toNat, Nat.shiftRight_eq_div_pow, hx]
    omega
  have e2 : w.extractLsb' 9 3 = rnd.code := by
    apply BitVec.eq_of_toNat_eq
    rw [BitVec.extractLsb'_toNat, Nat.shiftRight_eq_div_pow, hx]
    omega
  have e3 : w.extractLsb' 3 4 = ty2 := by
    apply BitVec.eq_of_toNat_eq
    rw [BitVec.extractLsb'_toNat, Nat.shiftRight_eq_div_pow, hx]
    omega
  have e4 : w.extractLsb' 0 3 = sub := by
    apply BitVec.eq_of_toNat_eq
    rw [BitVec.extractLsb'_toNat, Nat.shiftRight_eq_div_pow, hx]
    omega
  have e5 : w.getLsbD 8 = ftz := by
    rw [BitVec.getLsbD, Nat.testBit_eq_decide_div_mod_eq, hx]
    cases ftz <;> simp <;> omega
  have e6 : w.getLsbD 7 = sat := by
    rw [BitVec.getLsbD, Nat.testBit_eq_decide_div_mod_eq, hx]
    cases sat <;> simp <;> omega
  simp only [e1, e2, e3, e4, e5, e6, Rnd.ofCode_code, Ty.ofCode_code, Option.map_some]

/-- The immediate of classes 001 and 011 comes back from its two fields. -/
theorem imm_back (v : BitVec 26) :
    BitVec.ofNat 26 ((BitVec.ofNat 10 (v.toNat / 2 ^ 16)).toNat * 2 ^ 16 + (BitVec.ofNat 16 v.toNat).toNat) = v := by
  apply BitVec.eq_of_toNat_eq
  have := v.isLt
  simp only [BitVec.toNat_ofNat]
  omega

/-- The fields of class 010 give its operands back. -/
theorem mArgs_back (op : BitVec 11) (a : MArgs) (f : Fields) (h : (Shape.m op a).fields = some f) :
    f.cls = 2 ∧ f.op = op ∧ f.mArgs = some a := by
  simp only [Shape.fields, Option.some.injEq] at h
  subst h
  obtain ⟨d, x, b, off, scope, order, hint, svc, width⟩ := a
  have h1 := scope.code.isLt; have h2 := order.code.isLt; have h3 := hint.isLt; have h4 := svc.isLt
  have h5 := width.code.isLt
  refine ⟨rfl, rfl, ?_⟩
  simp only [Fields.mArgs]
  have hx : (BitVec.ofNat 16 (scope.code.toNat * 2 ^ 12 + order.code.toNat * 2 ^ 9 + hint.toNat * 2 ^ 5 + svc.toNat * 2 ^ 3
      + width.code.toNat)).toNat = scope.code.toNat * 2 ^ 12 + order.code.toNat * 2 ^ 9 + hint.toNat * 2 ^ 5
      + svc.toNat * 2 ^ 3 + width.code.toNat := by
    rw [BitVec.toNat_ofNat]; apply Nat.mod_eq_of_lt; omega
  generalize BitVec.ofNat 16 _ = w at hx ⊢
  have e1 : w.extractLsb' 12 4 = scope.code := by
    apply BitVec.eq_of_toNat_eq
    rw [BitVec.extractLsb'_toNat, Nat.shiftRight_eq_div_pow, hx]
    omega
  have e2 : w.extractLsb' 9 3 = order.code := by
    apply BitVec.eq_of_toNat_eq
    rw [BitVec.extractLsb'_toNat, Nat.shiftRight_eq_div_pow, hx]
    omega
  have e3 : w.extractLsb' 5 4 = hint := by
    apply BitVec.eq_of_toNat_eq
    rw [BitVec.extractLsb'_toNat, Nat.shiftRight_eq_div_pow, hx]
    omega
  have e4 : w.extractLsb' 3 2 = svc := by
    apply BitVec.eq_of_toNat_eq
    rw [BitVec.extractLsb'_toNat, Nat.shiftRight_eq_div_pow, hx]
    omega
  have e5 : w.extractLsb' 0 3 = width.code := by
    apply BitVec.eq_of_toNat_eq
    rw [BitVec.extractLsb'_toNat, Nat.shiftRight_eq_div_pow, hx]
    omega
  simp only [e1, e2, e3, e4, e5, Scope.ofCode_code, Order.ofCode_code, Width.ofCode_code]

/-- The fields of class 100 give its operands back. -/
theorem tArgs_back (op : BitVec 11) (a : TArgs) (f : Fields) (h : (Shape.t op a).fields = some f) :
    f.cls = 4 ∧ f.op = op ∧ f.tArgs = some a := by
  simp only [Shape.fields, Option.some.injEq] at h
  subst h
  obtain ⟨d, x, b, tmap, rnd, ftz, o⟩ := a
  have h1 := tmap.isLt; have h2 := rnd.code.isLt; have h3 := o.isLt
  have h5 : ftz.toNat ≤ 1 := by cases ftz <;> decide
  refine ⟨rfl, rfl, ?_⟩
  simp only [Fields.tArgs]
  have hx : (BitVec.ofNat 16 (tmap.toNat * 2 ^ 12 + rnd.code.toNat * 2 ^ 9 + ftz.toNat * 2 ^ 8 + o.toNat)).toNat
      = tmap.toNat * 2 ^ 12 + rnd.code.toNat * 2 ^ 9 + ftz.toNat * 2 ^ 8 + o.toNat := by
    rw [BitVec.toNat_ofNat]; apply Nat.mod_eq_of_lt; omega
  generalize BitVec.ofNat 16 _ = w at hx ⊢
  have e1 : w.extractLsb' 12 4 = tmap := by
    apply BitVec.eq_of_toNat_eq
    rw [BitVec.extractLsb'_toNat, Nat.shiftRight_eq_div_pow, hx]
    omega
  have e2 : w.extractLsb' 9 3 = rnd.code := by
    apply BitVec.eq_of_toNat_eq
    rw [BitVec.extractLsb'_toNat, Nat.shiftRight_eq_div_pow, hx]
    omega
  have e3 : w.extractLsb' 0 8 = o := by
    apply BitVec.eq_of_toNat_eq
    rw [BitVec.extractLsb'_toNat, Nat.shiftRight_eq_div_pow, hx]
    omega
  have e5 : w.getLsbD 8 = ftz := by
    rw [BitVec.getLsbD, Nat.testBit_eq_decide_div_mod_eq, hx]
    cases ftz <;> simp <;> omega
  simp only [e1, e2, e3, e5, Rnd.ofCode_code, Option.map_some]

/-- An instruction of class 000 by its opcode. -/
theorem back_v {i : Instr} {op : BitVec 11} {a : VArgs} (hs : i.shape = .v op a) (ho : Instr.ofV op.toNat a = some i) :
    FieldsBack.Statement i := by
  intro f hf _
  rw [Instr.fields, hs] at hf
  obtain ⟨h1, h2, h3⟩ := vArgs_back op a f hf
  simp only [Fields.instr, h1, h2, h3, Option.bind_some]
  exact ho

/-- An instruction of class 001 by its opcode. -/
theorem back_i {i : Instr} {op : BitVec 11} {a : IArgs} (hs : i.shape = .i op a) (ho : Instr.ofI op.toNat a = some i) :
    FieldsBack.Statement i := by
  intro f hf _
  rw [Instr.fields, hs] at hf
  simp only [Shape.fields, Option.some.injEq] at hf
  subst hf
  have he : Fields.imm ⟨op, a.d, a.a, BitVec.ofNat 10 (a.imm.toNat / 2 ^ 16), a.la, false, a.nw, 1, BitVec.ofNat 16 a.imm.toNat⟩
      = a.imm := imm_back a.imm
  simp only [Fields.instr]
  rw [he]
  exact ho

/-- An instruction of class 010 by its opcode. -/
theorem back_m {i : Instr} {op : BitVec 11} {a : MArgs} (hs : i.shape = .m op a) (ho : Instr.ofM op.toNat a = some i) :
    FieldsBack.Statement i := by
  intro f hf _
  rw [Instr.fields, hs] at hf
  obtain ⟨h1, h2, h3⟩ := mArgs_back op a f hf
  simp only [Fields.instr, h1, h2, h3, Option.bind_some]
  exact ho

/-- An instruction of class 011 by its opcode. -/
theorem back_b {i : Instr} {op : BitVec 11} {a : BArgs} (hs : i.shape = .b op a) (ho : Instr.ofB op.toNat a = some i) :
    FieldsBack.Statement i := by
  intro f hf _
  rw [Instr.fields, hs] at hf
  simp only [Shape.fields, Option.some.injEq] at hf
  subst hf
  have he : Fields.imm ⟨op, a.d, a.a, BitVec.ofNat 10 (a.off.toNat / 2 ^ 16), false, false, false, 3, BitVec.ofNat 16 a.off.toNat⟩
      = a.off := imm_back a.off
  simp only [Fields.instr]
  rw [he]
  exact ho

/-- An instruction of class 100 by its opcode. -/
theorem back_t {i : Instr} {op : BitVec 11} {a : TArgs} (hs : i.shape = .t op a)
    (ho : i.mbarOk = true → Instr.ofT op.toNat a = some i) : FieldsBack.Statement i := by
  intro f hf hm
  rw [Instr.fields, hs] at hf
  obtain ⟨h1, h2, h3⟩ := tArgs_back op a f hf
  simp only [Fields.instr, h1, h2, h3, Option.bind_some]
  exact ho hm

/-- An instruction of class 101 by its opcode. -/
theorem back_s {i : Instr} {op : BitVec 11} {a : SArgs} (hs : i.shape = .s op a) (ho : Instr.ofS op.toNat a = some i) :
    FieldsBack.Statement i := by
  intro f hf _
  rw [Instr.fields, hs] at hf
  simp only [Shape.fields, Option.some.injEq] at hf
  subst hf
  exact ho

/-- An instruction without fields. -/
theorem back_none {i : Instr} (h : i.fields = none) : FieldsBack.Statement i := by
  intro f hf
  rw [h] at hf
  cases hf

theorem FieldsBack.pairedWord (p : PArgs) : FieldsBack.Statement (.pairedWord p) := back_none rfl
theorem FieldsBack.iadd (a : VArgs) : FieldsBack.Statement (.iadd a) := back_v rfl rfl
theorem FieldsBack.iaddImm (a : IArgs) : FieldsBack.Statement (.iaddImm a) := back_i rfl rfl
theorem FieldsBack.isub (a : VArgs) : FieldsBack.Statement (.isub a) := back_v rfl rfl
theorem FieldsBack.isubImm (a : IArgs) : FieldsBack.Statement (.isubImm a) := back_i rfl rfl
theorem FieldsBack.iaddc (a : VArgs) : FieldsBack.Statement (.iaddc a) := back_v rfl rfl
theorem FieldsBack.iadds (a : VArgs) : FieldsBack.Statement (.iadds a) := back_v rfl rfl
theorem FieldsBack.imul (a : VArgs) : FieldsBack.Statement (.imul a) := back_v rfl rfl
theorem FieldsBack.imulImm (a : IArgs) : FieldsBack.Statement (.imulImm a) := back_i rfl rfl
theorem FieldsBack.imulh (a : VArgs) : FieldsBack.Statement (.imulh a) := back_v rfl rfl
theorem FieldsBack.imad (a : VArgs) : FieldsBack.Statement (.imad a) := back_v rfl rfl
theorem FieldsBack.idiv (a : VArgs) : FieldsBack.Statement (.idiv a) := back_v rfl rfl
theorem FieldsBack.irem (a : VArgs) : FieldsBack.Statement (.irem a) := back_v rfl rfl
theorem FieldsBack.imin (a : VArgs) : FieldsBack.Statement (.imin a) := back_v rfl rfl
theorem FieldsBack.iminImm (a : IArgs) : FieldsBack.Statement (.iminImm a) := back_i rfl rfl
theorem FieldsBack.imax (a : VArgs) : FieldsBack.Statement (.imax a) := back_v rfl rfl
theorem FieldsBack.imaxImm (a : IArgs) : FieldsBack.Statement (.imaxImm a) := back_i rfl rfl
theorem FieldsBack.iabs (a : VArgs) : FieldsBack.Statement (.iabs a) := back_v rfl rfl
theorem FieldsBack.ineg (a : VArgs) : FieldsBack.Statement (.ineg a) := back_v rfl rfl
theorem FieldsBack.icmp (a : VArgs) : FieldsBack.Statement (.icmp a) := back_v rfl rfl
theorem FieldsBack.isel (a : VArgs) : FieldsBack.Statement (.isel a) := back_v rfl rfl
theorem FieldsBack.iclamp (a : VArgs) : FieldsBack.Statement (.iclamp a) := back_v rfl rfl
theorem FieldsBack.isad (a : VArgs) : FieldsBack.Statement (.isad a) := back_v rfl rfl
theorem FieldsBack.iadd64 (a : VArgs) : FieldsBack.Statement (.iadd64 a) := back_v rfl rfl
theorem FieldsBack.isub64 (a : VArgs) : FieldsBack.Statement (.isub64 a) := back_v rfl rfl
theorem FieldsBack.imul64 (a : VArgs) : FieldsBack.Statement (.imul64 a) := back_v rfl rfl
theorem FieldsBack.aadd (a : VArgs) : FieldsBack.Statement (.aadd a) := back_v rfl rfl
theorem FieldsBack.alea (a : VArgs) : FieldsBack.Statement (.alea a) := back_v rfl rfl
theorem FieldsBack.imovw (a : IArgs) : FieldsBack.Statement (.imovw a) := back_i rfl rfl
theorem FieldsBack.and (a : VArgs) : FieldsBack.Statement (.and a) := back_v rfl rfl
theorem FieldsBack.andImm (a : IArgs) : FieldsBack.Statement (.andImm a) := back_i rfl rfl
theorem FieldsBack.or (a : VArgs) : FieldsBack.Statement (.or a) := back_v rfl rfl
theorem FieldsBack.orImm (a : IArgs) : FieldsBack.Statement (.orImm a) := back_i rfl rfl
theorem FieldsBack.xor (a : VArgs) : FieldsBack.Statement (.xor a) := back_v rfl rfl
theorem FieldsBack.xorImm (a : IArgs) : FieldsBack.Statement (.xorImm a) := back_i rfl rfl
theorem FieldsBack.andn (a : VArgs) : FieldsBack.Statement (.andn a) := back_v rfl rfl
theorem FieldsBack.andnImm (a : IArgs) : FieldsBack.Statement (.andnImm a) := back_i rfl rfl
theorem FieldsBack.not (a : VArgs) : FieldsBack.Statement (.not a) := back_v rfl rfl
theorem FieldsBack.shl (a : VArgs) : FieldsBack.Statement (.shl a) := back_v rfl rfl
theorem FieldsBack.shlImm (a : IArgs) : FieldsBack.Statement (.shlImm a) := back_i rfl rfl
theorem FieldsBack.shr (a : VArgs) : FieldsBack.Statement (.shr a) := back_v rfl rfl
theorem FieldsBack.shrImm (a : IArgs) : FieldsBack.Statement (.shrImm a) := back_i rfl rfl
theorem FieldsBack.sar (a : VArgs) : FieldsBack.Statement (.sar a) := back_v rfl rfl
theorem FieldsBack.sarImm (a : IArgs) : FieldsBack.Statement (.sarImm a) := back_i rfl rfl
theorem FieldsBack.rot (a : VArgs) : FieldsBack.Statement (.rot a) := back_v rfl rfl
theorem FieldsBack.rotImm (a : IArgs) : FieldsBack.Statement (.rotImm a) := back_i rfl rfl
theorem FieldsBack.fshl (a : VArgs) : FieldsBack.Statement (.fshl a) := back_v rfl rfl
theorem FieldsBack.fshr (a : VArgs) : FieldsBack.Statement (.fshr a) := back_v rfl rfl
theorem FieldsBack.bfx (a : VArgs) : FieldsBack.Statement (.bfx a) := back_v rfl rfl
theorem FieldsBack.bfi (a : VArgs) : FieldsBack.Statement (.bfi a) := back_v rfl rfl
theorem FieldsBack.popc (a : VArgs) : FieldsBack.Statement (.popc a) := back_v rfl rfl
theorem FieldsBack.clz (a : VArgs) : FieldsBack.Statement (.clz a) := back_v rfl rfl
theorem FieldsBack.brev (a : VArgs) : FieldsBack.Statement (.brev a) := back_v rfl rfl
theorem FieldsBack.bytx (a : VArgs) : FieldsBack.Statement (.bytx a) := back_v rfl rfl
theorem FieldsBack.fadd (a : VArgs) : FieldsBack.Statement (.fadd a) := back_v rfl rfl
theorem FieldsBack.fsub (a : VArgs) : FieldsBack.Statement (.fsub a) := back_v rfl rfl
theorem FieldsBack.fmul (a : VArgs) : FieldsBack.Statement (.fmul a) := back_v rfl rfl
theorem FieldsBack.ffma (a : VArgs) : FieldsBack.Statement (.ffma a) := back_v rfl rfl
theorem FieldsBack.fmin (a : VArgs) : FieldsBack.Statement (.fmin a) := back_v rfl rfl
theorem FieldsBack.fmax (a : VArgs) : FieldsBack.Statement (.fmax a) := back_v rfl rfl
theorem FieldsBack.fabs (a : VArgs) : FieldsBack.Statement (.fabs a) := back_v rfl rfl
theorem FieldsBack.fneg (a : VArgs) : FieldsBack.Statement (.fneg a) := back_v rfl rfl
theorem FieldsBack.fcmp (a : VArgs) : FieldsBack.Statement (.fcmp a) := back_v rfl rfl
theorem FieldsBack.fclass (a : VArgs) : FieldsBack.Statement (.fclass a) := back_v rfl rfl
theorem FieldsBack.frcp (a : VArgs) : FieldsBack.Statement (.frcp a) := back_v rfl rfl
theorem FieldsBack.frsq (a : VArgs) : FieldsBack.Statement (.frsq a) := back_v rfl rfl
theorem FieldsBack.fsqrt (a : VArgs) : FieldsBack.Statement (.fsqrt a) := back_v rfl rfl
theorem FieldsBack.fdiv (a : VArgs) : FieldsBack.Statement (.fdiv a) := back_v rfl rfl
theorem FieldsBack.fex2 (a : VArgs) : FieldsBack.Statement (.fex2 a) := back_v rfl rfl
theorem FieldsBack.flg2 (a : VArgs) : FieldsBack.Statement (.flg2 a) := back_v rfl rfl
theorem FieldsBack.ftanh (a : VArgs) : FieldsBack.Statement (.ftanh a) := back_v rfl rfl
theorem FieldsBack.frnd (a : VArgs) : FieldsBack.Statement (.frnd a) := back_v rfl rfl
theorem FieldsBack.fscale (a : VArgs) : FieldsBack.Statement (.fscale a) := back_v rfl rfl
theorem FieldsBack.hadd2 (a : VArgs) : FieldsBack.Statement (.hadd2 a) := back_v rfl rfl
theorem FieldsBack.hmul2 (a : VArgs) : FieldsBack.Statement (.hmul2 a) := back_v rfl rfl
theorem FieldsBack.hfma2 (a : VArgs) : FieldsBack.Statement (.hfma2 a) := back_v rfl rfl
theorem FieldsBack.hdot2 (a : VArgs) : FieldsBack.Statement (.hdot2 a) := back_v rfl rfl
theorem FieldsBack.dot4E4m3 (a : VArgs) : FieldsBack.Statement (.dot4E4m3 a) := back_v rfl rfl
theorem FieldsBack.dot4E5m2 (a : VArgs) : FieldsBack.Statement (.dot4E5m2 a) := back_v rfl rfl
theorem FieldsBack.dot4I8 (a : VArgs) : FieldsBack.Statement (.dot4I8 a) := back_v rfl rfl
theorem FieldsBack.dot8E2m1 (a : VArgs) : FieldsBack.Statement (.dot8E2m1 a) := back_v rfl rfl
theorem FieldsBack.dot8I4 (a : VArgs) : FieldsBack.Statement (.dot8I4 a) := back_v rfl rfl
theorem FieldsBack.cvt (a : VArgs) : FieldsBack.Statement (.cvt a) := back_v rfl rfl
theorem FieldsBack.qblk (a : VArgs) : FieldsBack.Statement (.qblk a) := back_v rfl rfl
theorem FieldsBack.qpack4 (a : VArgs) : FieldsBack.Statement (.qpack4 a) := back_v rfl rfl
theorem FieldsBack.qpack8 (a : VArgs) : FieldsBack.Statement (.qpack8 a) := back_v rfl rfl
theorem FieldsBack.qunpk (a : VArgs) : FieldsBack.Statement (.qunpk a) := back_v rfl rfl
theorem FieldsBack.mov (a : VArgs) : FieldsBack.Statement (.mov a) := back_v rfl rfl
theorem FieldsBack.movi (a : IArgs) : FieldsBack.Statement (.movi a) := back_i rfl rfl
theorem FieldsBack.movs (a : VArgs) : FieldsBack.Statement (.movs a) := back_v rfl rfl
theorem FieldsBack.rdlane (a : IArgs) : FieldsBack.Statement (.rdlane a) := back_i rfl rfl
theorem FieldsBack.wrlane (a : IArgs) : FieldsBack.Statement (.wrlane a) := back_i rfl rfl
theorem FieldsBack.shfl (a : VArgs) : FieldsBack.Statement (.shfl a) := back_v rfl rfl
theorem FieldsBack.shflImm (a : IArgs) : FieldsBack.Statement (.shflImm a) := back_i rfl rfl
theorem FieldsBack.vote (a : VArgs) : FieldsBack.Statement (.vote a) := back_v rfl rfl
theorem FieldsBack.matchV (a : VArgs) : FieldsBack.Statement (.matchV a) := back_v rfl rfl
theorem FieldsBack.redux (a : VArgs) : FieldsBack.Statement (.redux a) := back_v rfl rfl
theorem FieldsBack.scan (a : VArgs) : FieldsBack.Statement (.scan a) := back_v rfl rfl
theorem FieldsBack.mset (a : IArgs) : FieldsBack.Statement (.mset a) := back_i rfl rfl
theorem FieldsBack.mmov (a : VArgs) : FieldsBack.Statement (.mmov a) := back_v rfl rfl
theorem FieldsBack.mand (a : VArgs) : FieldsBack.Statement (.mand a) := back_v rfl rfl
theorem FieldsBack.mor (a : VArgs) : FieldsBack.Statement (.mor a) := back_v rfl rfl
theorem FieldsBack.mxor (a : VArgs) : FieldsBack.Statement (.mxor a) := back_v rfl rfl
theorem FieldsBack.mnot (a : VArgs) : FieldsBack.Statement (.mnot a) := back_v rfl rfl
theorem FieldsBack.mpopc (a : VArgs) : FieldsBack.Statement (.mpopc a) := back_v rfl rfl
theorem FieldsBack.mffs (a : VArgs) : FieldsBack.Statement (.mffs a) := back_v rfl rfl
theorem FieldsBack.smov (a : VArgs) : FieldsBack.Statement (.smov a) := back_v rfl rfl
theorem FieldsBack.smovi (a : IArgs) : FieldsBack.Statement (.smovi a) := back_i rfl rfl
theorem FieldsBack.sadd (a : VArgs) : FieldsBack.Statement (.sadd a) := back_v rfl rfl
theorem FieldsBack.saddImm (a : IArgs) : FieldsBack.Statement (.saddImm a) := back_i rfl rfl
theorem FieldsBack.ssub (a : VArgs) : FieldsBack.Statement (.ssub a) := back_v rfl rfl
theorem FieldsBack.ssubImm (a : IArgs) : FieldsBack.Statement (.ssubImm a) := back_i rfl rfl
theorem FieldsBack.smul (a : VArgs) : FieldsBack.Statement (.smul a) := back_v rfl rfl
theorem FieldsBack.smulImm (a : IArgs) : FieldsBack.Statement (.smulImm a) := back_i rfl rfl
theorem FieldsBack.sand (a : VArgs) : FieldsBack.Statement (.sand a) := back_v rfl rfl
theorem FieldsBack.sandImm (a : IArgs) : FieldsBack.Statement (.sandImm a) := back_i rfl rfl
theorem FieldsBack.sor (a : VArgs) : FieldsBack.Statement (.sor a) := back_v rfl rfl
theorem FieldsBack.sorImm (a : IArgs) : FieldsBack.Statement (.sorImm a) := back_i rfl rfl
theorem FieldsBack.sxor (a : VArgs) : FieldsBack.Statement (.sxor a) := back_v rfl rfl
theorem FieldsBack.sxorImm (a : IArgs) : FieldsBack.Statement (.sxorImm a) := back_i rfl rfl
theorem FieldsBack.sshl (a : VArgs) : FieldsBack.Statement (.sshl a) := back_v rfl rfl
theorem FieldsBack.sshlImm (a : IArgs) : FieldsBack.Statement (.sshlImm a) := back_i rfl rfl
theorem FieldsBack.sshr (a : VArgs) : FieldsBack.Statement (.sshr a) := back_v rfl rfl
theorem FieldsBack.sshrImm (a : IArgs) : FieldsBack.Statement (.sshrImm a) := back_i rfl rfl
theorem FieldsBack.scmp (a : VArgs) : FieldsBack.Statement (.scmp a) := back_v rfl rfl
theorem FieldsBack.crd (a : SArgs) : FieldsBack.Statement (.crd a) := back_s rfl rfl
theorem FieldsBack.cwr (a : SArgs) : FieldsBack.Statement (.cwr a) := back_s rfl rfl
theorem FieldsBack.bra (a : BArgs) : FieldsBack.Statement (.bra a) := back_b rfl rfl
theorem FieldsBack.brc (a : BArgs) : FieldsBack.Statement (.brc a) := back_b rfl rfl
theorem FieldsBack.bru (a : BArgs) : FieldsBack.Statement (.bru a) := back_b rfl rfl
theorem FieldsBack.brx (a : SArgs) : FieldsBack.Statement (.brx a) := back_s rfl rfl
theorem FieldsBack.call (a : BArgs) : FieldsBack.Statement (.call a) := back_b rfl rfl
theorem FieldsBack.callx (a : SArgs) : FieldsBack.Statement (.callx a) := back_s rfl rfl
theorem FieldsBack.ret (a : SArgs) : FieldsBack.Statement (.ret a) := back_s rfl rfl
theorem FieldsBack.exit (a : SArgs) : FieldsBack.Statement (.exit a) := back_s rfl rfl
theorem FieldsBack.park (a : SArgs) : FieldsBack.Statement (.park a) := back_s rfl rfl
theorem FieldsBack.yield (a : SArgs) : FieldsBack.Statement (.yield a) := back_s rfl rfl
theorem FieldsBack.loopb (a : SArgs) : FieldsBack.Statement (.loopb a) := back_s rfl rfl
theorem FieldsBack.nop (a : SArgs) : FieldsBack.Statement (.nop a) := back_s rfl rfl
theorem FieldsBack.ld (a : MArgs) : FieldsBack.Statement (.ld a) := back_m rfl rfl
theorem FieldsBack.st (a : MArgs) : FieldsBack.Statement (.st a) := back_m rfl rfl
theorem FieldsBack.lds (a : MArgs) : FieldsBack.Statement (.lds a) := back_m rfl rfl
theorem FieldsBack.sts (a : MArgs) : FieldsBack.Statement (.sts a) := back_m rfl rfl
theorem FieldsBack.ldf (a : MArgs) : FieldsBack.Statement (.ldf a) := back_m rfl rfl
theorem FieldsBack.stf (a : MArgs) : FieldsBack.Statement (.stf a) := back_m rfl rfl
theorem FieldsBack.feset (a : SArgs) : FieldsBack.Statement (.feset a) := back_s rfl rfl
theorem FieldsBack.feclr (a : SArgs) : FieldsBack.Statement (.feclr a) := back_s rfl rfl
theorem FieldsBack.tlook (a : VArgs) : FieldsBack.Statement (.tlook a) := back_v rfl rfl
theorem FieldsBack.tins (a : VArgs) : FieldsBack.Statement (.tins a) := back_v rfl rfl
theorem FieldsBack.tdrop (a : VArgs) : FieldsBack.Statement (.tdrop a) := back_v rfl rfl
theorem FieldsBack.pref (a : MArgs) : FieldsBack.Statement (.pref a) := back_m rfl rfl
theorem FieldsBack.drop (a : MArgs) : FieldsBack.Statement (.drop a) := back_m rfl rfl
theorem FieldsBack.stm (a : MArgs) : FieldsBack.Statement (.stm a) := back_m rfl rfl
theorem FieldsBack.mctw (a : SArgs) : FieldsBack.Statement (.mctw a) := back_s rfl rfl
theorem FieldsBack.atom (a : MArgs) : FieldsBack.Statement (.atom a) := back_m rfl rfl
theorem FieldsBack.cas (a : MArgs) : FieldsBack.Statement (.cas a) := back_m rfl rfl
theorem FieldsBack.rowop (a : MArgs) : FieldsBack.Statement (.rowop a) := back_m rfl rfl
theorem FieldsBack.rowld (a : MArgs) : FieldsBack.Statement (.rowld a) := back_m rfl rfl
theorem FieldsBack.mcas (a : TArgs) : FieldsBack.Statement (.mcas a) := back_t rfl fun _ => rfl
theorem FieldsBack.chase (a : TArgs) : FieldsBack.Statement (.chase a) := back_t rfl fun _ => rfl
theorem FieldsBack.chaser (a : TArgs) : FieldsBack.Statement (.chaser a) := back_t rfl fun _ => rfl
theorem FieldsBack.kenq (a : TArgs) : FieldsBack.Statement (.kenq a) := back_t rfl fun _ => rfl
theorem FieldsBack.kdeq (a : TArgs) : FieldsBack.Statement (.kdeq a) := back_t rfl fun _ => rfl
theorem FieldsBack.kvup (a : TArgs) : FieldsBack.Statement (.kvup a) := back_t rfl fun _ => rfl
theorem FieldsBack.krcp (a : TArgs) : FieldsBack.Statement (.krcp a) := back_t rfl fun _ => rfl
theorem FieldsBack.fence (a : MArgs) : FieldsBack.Statement (.fence a) := back_m rfl rfl
theorem FieldsBack.isync (a : SArgs) : FieldsBack.Statement (.isync a) := back_s rfl rfl
theorem FieldsBack.icinv (a : SArgs) : FieldsBack.Statement (.icinv a) := back_s rfl rfl
theorem FieldsBack.pwb (a : MArgs) : FieldsBack.Statement (.pwb a) := back_m rfl rfl
theorem FieldsBack.pbar (a : SArgs) : FieldsBack.Statement (.pbar a) := back_s rfl rfl
theorem FieldsBack.step (a : SArgs) : FieldsBack.Statement (.step a) := back_s rfl rfl
theorem FieldsBack.sigadd (a : MArgs) : FieldsBack.Statement (.sigadd a) := back_m rfl rfl
theorem FieldsBack.sigdec (a : MArgs) : FieldsBack.Statement (.sigdec a) := back_m rfl rfl
theorem FieldsBack.sigwait (a : MArgs) : FieldsBack.Statement (.sigwait a) := back_m rfl rfl
theorem FieldsBack.tmld (a : TArgs) : FieldsBack.Statement (.tmld a) := back_t rfl fun _ => rfl
theorem FieldsBack.tmst (a : TArgs) : FieldsBack.Statement (.tmst a) := back_t rfl fun _ => rfl
theorem FieldsBack.tmset (a : TArgs) : FieldsBack.Statement (.tmset a) := back_t rfl fun _ => rfl
theorem FieldsBack.amaxrd (a : TArgs) : FieldsBack.Statement (.amaxrd a) := back_t rfl fun _ => rfl
theorem FieldsBack.amaxclr (a : TArgs) : FieldsBack.Statement (.amaxclr a) := back_t rfl fun _ => rfl
theorem FieldsBack.origrd (a : TArgs) : FieldsBack.Statement (.origrd a) := back_t rfl fun _ => rfl
theorem FieldsBack.acopy (a : TArgs) : FieldsBack.Statement (.acopy a) := back_t rfl fun _ => rfl
theorem FieldsBack.acopyr (a : TArgs) : FieldsBack.Statement (.acopyr a) := back_t rfl fun _ => rfl
theorem FieldsBack.afill (a : TArgs) : FieldsBack.Statement (.afill a) := back_t rfl fun _ => rfl
theorem FieldsBack.areduce (a : TArgs) : FieldsBack.Statement (.areduce a) := back_t rfl fun _ => rfl
theorem FieldsBack.agather (a : TArgs) : FieldsBack.Statement (.agather a) := back_t rfl fun _ => rfl
theorem FieldsBack.fwait (a : TArgs) : FieldsBack.Statement (.fwait a) := back_t rfl fun _ => rfl
theorem FieldsBack.ftest (a : TArgs) : FieldsBack.Statement (.ftest a) := back_t rfl fun _ => rfl
theorem FieldsBack.fcancel (a : TArgs) : FieldsBack.Statement (.fcancel a) := back_t rfl fun _ => rfl
theorem FieldsBack.tlwait (a : TArgs) : FieldsBack.Statement (.tlwait a) := back_t rfl fun _ => rfl
theorem FieldsBack.tlrd (a : TArgs) : FieldsBack.Statement (.tlrd a) := back_t rfl fun _ => rfl
theorem FieldsBack.mfork (a : BArgs) : FieldsBack.Statement (.mfork a) := back_b rfl rfl
theorem FieldsBack.mjoin (a : TArgs) : FieldsBack.Statement (.mjoin a) := back_t rfl fun _ => rfl
theorem FieldsBack.nbara (a : TArgs) : FieldsBack.Statement (.nbara a) := back_t rfl fun _ => rfl
theorem FieldsBack.nbarw (a : TArgs) : FieldsBack.Statement (.nbarw a) := back_t rfl fun _ => rfl
theorem FieldsBack.ldstat (a : TArgs) : FieldsBack.Statement (.ldstat a) := back_t rfl fun _ => rfl
theorem FieldsBack.swaps (a : TArgs) : FieldsBack.Statement (.swaps a) := back_t rfl fun _ => rfl
theorem FieldsBack.mma (a : TArgs) : FieldsBack.Statement (.mma a) := back_t rfl fun _ => rfl
theorem FieldsBack.mmad (a : TArgs) : FieldsBack.Statement (.mmad a) := back_t rfl fun _ => rfl
theorem FieldsBack.aclr (a : TArgs) : FieldsBack.Statement (.aclr a) := back_t rfl fun _ => rfl
theorem FieldsBack.ald (a : TArgs) : FieldsBack.Statement (.ald a) := back_t rfl fun _ => rfl
theorem FieldsBack.drain (a : TArgs) : FieldsBack.Statement (.drain a) := back_t rfl fun _ => rfl
theorem FieldsBack.drainq (a : TArgs) : FieldsBack.Statement (.drainq a) := back_t rfl fun _ => rfl
theorem FieldsBack.mbarArr (a : TArgs) : FieldsBack.Statement (.mbarArr a) := by
  refine back_t rfl fun h => ?_
  simp only [Instr.mbarOk] at h
  simp only [Instr.ofT, h, if_true]
  rfl
theorem FieldsBack.mbarWait (a : TArgs) : FieldsBack.Statement (.mbarWait a) := by
  refine back_t rfl fun h => ?_
  have h1 : (a.d == 0) = false := by simpa [Instr.mbarOk] using h
  show some (if (a.d == 0) = true then Instr.mbarArr a else .mbarWait a) = _
  rw [h1]
  rfl
theorem FieldsBack.mexit (a : TArgs) : FieldsBack.Statement (.mexit a) := back_t rfl fun _ => rfl
theorem FieldsBack.bar (a : SArgs) : FieldsBack.Statement (.bar a) := back_s rfl rfl
theorem FieldsBack.bara (a : SArgs) : FieldsBack.Statement (.bara a) := back_s rfl rfl
theorem FieldsBack.barw (a : SArgs) : FieldsBack.Statement (.barw a) := back_s rfl rfl
theorem FieldsBack.gbar (a : SArgs) : FieldsBack.Statement (.gbar a) := back_s rfl rfl
theorem FieldsBack.spawn (a : SArgs) : FieldsBack.Statement (.spawn a) := back_s rfl rfl
theorem FieldsBack.handoff (a : SArgs) : FieldsBack.Statement (.handoff a) := back_s rfl rfl
theorem FieldsBack.retire (a : SArgs) : FieldsBack.Statement (.retire a) := back_s rfl rfl
theorem FieldsBack.snap (a : TArgs) : FieldsBack.Statement (.snap a) := back_t rfl fun _ => rfl
theorem FieldsBack.snapq (a : SArgs) : FieldsBack.Statement (.snapq a) := back_s rfl rfl
theorem FieldsBack.rbld (a : TArgs) : FieldsBack.Statement (.rbld a) := back_t rfl fun _ => rfl
theorem FieldsBack.stripe (a : TArgs) : FieldsBack.Statement (.stripe a) := back_t rfl fun _ => rfl
theorem FieldsBack.trap (a : SArgs) : FieldsBack.Statement (.trap a) := back_s rfl rfl
theorem FieldsBack.event (a : SArgs) : FieldsBack.Statement (.event a) := back_s rfl rfl
theorem FieldsBack.rdtime (a : SArgs) : FieldsBack.Statement (.rdtime a) := back_s rfl rfl
theorem FieldsBack.prd (a : SArgs) : FieldsBack.Statement (.prd a) := back_s rfl rfl
theorem FieldsBack.eret (a : SArgs) : FieldsBack.Statement (.eret a) := back_s rfl rfl
theorem FieldsBack.tlbinv (a : TArgs) : FieldsBack.Statement (.tlbinv a) := back_t rfl fun _ => rfl
theorem FieldsBack.xlate (a : SArgs) : FieldsBack.Statement (.xlate a) := back_s rfl rfl
theorem FieldsBack.preempt (a : SArgs) : FieldsBack.Statement (.preempt a) := back_s rfl rfl
theorem FieldsBack.pwr (a : SArgs) : FieldsBack.Statement (.pwr a) := back_s rfl rfl
theorem FieldsBack.illegalInstr (word : Word64) (cause : Cause) : FieldsBack.Statement (.illegalInstr word cause) := back_none rfl
theorem FieldsBack.cfgLoad : FieldsBack.Statement .cfgLoad := back_none rfl
theorem FieldsBack.attest : FieldsBack.Statement .attest := back_none rfl
theorem FieldsBack.regRead : FieldsBack.Statement .regRead := back_none rfl
theorem FieldsBack.regWrite : FieldsBack.Statement .regWrite := back_none rfl
theorem FieldsBack.ctxCreate : FieldsBack.Statement .ctxCreate := back_none rfl
theorem FieldsBack.ctxKill : FieldsBack.Statement .ctxKill := back_none rfl
theorem FieldsBack.ctxStep : FieldsBack.Statement .ctxStep := back_none rfl
theorem FieldsBack.reset : FieldsBack.Statement .reset := back_none rfl
theorem FieldsBack.queueNotify : FieldsBack.Statement .queueNotify := back_none rfl
theorem FieldsBack.queueConfigWrite : FieldsBack.Statement .queueConfigWrite := back_none rfl
theorem FieldsBack.planApply : FieldsBack.Statement .planApply := back_none rfl
theorem FieldsBack.counterClear : FieldsBack.Statement .counterClear := back_none rfl
theorem FieldsBack.snapshotControlWrite : FieldsBack.Statement .snapshotControlWrite := back_none rfl
theorem FieldsBack.channelRetire : FieldsBack.Statement .channelRetire := back_none rfl
theorem FieldsBack.errorRingHeadWrite : FieldsBack.Statement .errorRingHeadWrite := back_none rfl
theorem FieldsBack.powerCapWrite : FieldsBack.Statement .powerCapWrite := back_none rfl
theorem FieldsBack.migrateStripe : FieldsBack.Statement .migrateStripe := back_none rfl
theorem FieldsBack.parkWriteEvaluation : FieldsBack.Statement .parkWriteEvaluation := back_none rfl
theorem FieldsBack.parkPeriodicEvaluation : FieldsBack.Statement .parkPeriodicEvaluation := back_none rfl
theorem FieldsBack.sigwaitWriteEvaluation : FieldsBack.Statement .sigwaitWriteEvaluation := back_none rfl
theorem FieldsBack.sigwaitPeriodicEvaluation : FieldsBack.Statement .sigwaitPeriodicEvaluation := back_none rfl
theorem FieldsBack.l1DirtyWriteback : FieldsBack.Statement .l1DirtyWriteback := back_none rfl
theorem FieldsBack.l1CleanDrop : FieldsBack.Statement .l1CleanDrop := back_none rfl
theorem FieldsBack.mapperRebalance : FieldsBack.Statement .mapperRebalance := back_none rfl
theorem FieldsBack.readinessPeriodicEvaluation : FieldsBack.Statement .readinessPeriodicEvaluation := back_none rfl
theorem FieldsBack.candidateReserving : FieldsBack.Statement .candidateReserving := back_none rfl
theorem FieldsBack.taskAdmission : FieldsBack.Statement .taskAdmission := back_none rfl
theorem FieldsBack.timeSliceExpiry : FieldsBack.Statement .timeSliceExpiry := back_none rfl
theorem FieldsBack.preemptionSave : FieldsBack.Statement .preemptionSave := back_none rfl
theorem FieldsBack.gangResume : FieldsBack.Statement .gangResume := back_none rfl
theorem FieldsBack.teamRetirement : FieldsBack.Statement .teamRetirement := back_none rfl
theorem FieldsBack.successorAdmission : FieldsBack.Statement .successorAdmission := back_none rfl
theorem FieldsBack.pageReply : FieldsBack.Statement .pageReply := back_none rfl
theorem FieldsBack.copyUnit : FieldsBack.Statement .copyUnit := back_none rfl
theorem FieldsBack.chaseStep : FieldsBack.Statement .chaseStep := back_none rfl
theorem FieldsBack.kioskListStep : FieldsBack.Statement .kioskListStep := back_none rfl
theorem FieldsBack.rowStep : FieldsBack.Statement .rowStep := back_none rfl
theorem FieldsBack.kvupChunk : FieldsBack.Statement .kvupChunk := back_none rfl
theorem FieldsBack.recipeInstall : FieldsBack.Statement .recipeInstall := back_none rfl
theorem FieldsBack.imageLineCopy : FieldsBack.Statement .imageLineCopy := back_none rfl
theorem FieldsBack.persistAccept : FieldsBack.Statement .persistAccept := back_none rfl
theorem FieldsBack.persistDrain : FieldsBack.Statement .persistDrain := back_none rfl
theorem FieldsBack.stripeContribution : FieldsBack.Statement .stripeContribution := back_none rfl
theorem FieldsBack.rebuildContribution : FieldsBack.Statement .rebuildContribution := back_none rfl
theorem FieldsBack.powerLoss : FieldsBack.Statement .powerLoss := back_none rfl
theorem FieldsBack.powerReturn : FieldsBack.Statement .powerReturn := back_none rfl
theorem FieldsBack.powerControlTick : FieldsBack.Statement .powerControlTick := back_none rfl
theorem FieldsBack.thermalLimit : FieldsBack.Statement .thermalLimit := back_none rfl
theorem FieldsBack.thermalTrip : FieldsBack.Statement .thermalTrip := back_none rfl
theorem FieldsBack.stackThermalHold : FieldsBack.Statement .stackThermalHold := back_none rfl
theorem FieldsBack.stackThermalRelease : FieldsBack.Statement .stackThermalRelease := back_none rfl
theorem FieldsBack.tempHold : FieldsBack.Statement .tempHold := back_none rfl
theorem FieldsBack.rowActivationRefresh : FieldsBack.Statement .rowActivationRefresh := back_none rfl
theorem FieldsBack.patrolScrub : FieldsBack.Statement .patrolScrub := back_none rfl
theorem FieldsBack.memoryRequestService : FieldsBack.Statement .memoryRequestService := back_none rfl
theorem FieldsBack.linkRunRetry : FieldsBack.Statement .linkRunRetry := back_none rfl
theorem FieldsBack.linkDown : FieldsBack.Statement .linkDown := back_none rfl
theorem FieldsBack.linkTraining : FieldsBack.Statement .linkTraining := back_none rfl
theorem FieldsBack.laserRetune : FieldsBack.Statement .laserRetune := back_none rfl
theorem FieldsBack.peerUnreachable : FieldsBack.Statement .peerUnreachable := back_none rfl
theorem FieldsBack.fabricRequest : FieldsBack.Statement .fabricRequest := back_none rfl
theorem FieldsBack.fabricResponse : FieldsBack.Statement .fabricResponse := back_none rfl
theorem FieldsBack.copyEnginePacket : FieldsBack.Statement .copyEnginePacket := back_none rfl
theorem FieldsBack.multicastCopy : FieldsBack.Statement .multicastCopy := back_none rfl
theorem FieldsBack.multicastRowUpdate : FieldsBack.Statement .multicastRowUpdate := back_none rfl
theorem FieldsBack.remoteWriteAck : FieldsBack.Statement .remoteWriteAck := back_none rfl
theorem FieldsBack.tlbInvalidateMessage : FieldsBack.Statement .tlbInvalidateMessage := back_none rfl
theorem FieldsBack.controlPortFailure : FieldsBack.Statement .controlPortFailure := back_none rfl
theorem FieldsBack.controlNodeMemoryWrite : FieldsBack.Statement .controlNodeMemoryWrite := back_none rfl
theorem FieldsBack.eventDelivery : FieldsBack.Statement .eventDelivery := back_none rfl
theorem FieldsBack.gets : FieldsBack.Statement .gets := back_none rfl
theorem FieldsBack.getm : FieldsBack.Statement .getm := back_none rfl
theorem FieldsBack.upg : FieldsBack.Statement .upg := back_none rfl
theorem FieldsBack.pute : FieldsBack.Statement .pute := back_none rfl
theorem FieldsBack.puto : FieldsBack.Statement .puto := back_none rfl
theorem FieldsBack.putm : FieldsBack.Statement .putm := back_none rfl
theorem FieldsBack.invMsg : FieldsBack.Statement .invMsg := back_none rfl
theorem FieldsBack.fwds : FieldsBack.Statement .fwds := back_none rfl
theorem FieldsBack.fwdm : FieldsBack.Statement .fwdm := back_none rfl
theorem FieldsBack.dataMsg : FieldsBack.Statement .dataMsg := back_none rfl
theorem FieldsBack.upgack : FieldsBack.Statement .upgack := back_none rfl
theorem FieldsBack.invack : FieldsBack.Statement .invack := back_none rfl
theorem FieldsBack.putack : FieldsBack.Statement .putack := back_none rfl
theorem FieldsBack.doneMsg : FieldsBack.Statement .doneMsg := back_none rfl
theorem FieldsBack.lineLock : FieldsBack.Statement .lineLock := back_none rfl
theorem FieldsBack.preemptCommand : FieldsBack.Statement .preemptCommand := back_none rfl
theorem FieldsBack.multicastReplicaWrite : FieldsBack.Statement .multicastReplicaWrite := back_none rfl
theorem FieldsBack.survivorRebuildWork : FieldsBack.Statement .survivorRebuildWork := back_none rfl

end Sys2Proof.Laws
end

