-- ==== Sys2Proof/Laws/State.lean ====
section
/-!
SUPPORT. What the updates of the state leave alone and what they set: one lemma for each field and update.
-/
namespace Sys2Proof.Machine

/-! ### `State.stall` -/

@[simp] theorem State.stall_clock (s : State) : s.stall.clock = s.clock := rfl
@[simp] theorem State.stall_time (s : State) : s.stall.time = s.time := rfl
@[simp] theorem State.stall_turns (s : State) : s.stall.turns = s.turns := rfl
@[simp] theorem State.stall_input (s : State) : s.stall.input = s.input := rfl
@[simp] theorem State.stall_cur (s : State) : s.stall.cur = s.cur := rfl
@[simp] theorem State.stall_word (s : State) : s.stall.word = s.word := rfl
@[simp] theorem State.stall_stalled (s : State) : s.stall.stalled = true := rfl
@[simp] theorem State.stall_blocked (s : State) : s.stall.blocked = s.blocked := rfl
@[simp] theorem State.stall_draws (s : State) : s.stall.draws = s.draws := rfl
@[simp] theorem State.stall_nextId (s : State) : s.stall.nextId = s.nextId := rfl
@[simp] theorem State.stall_mem (s : State) : s.stall.mem = s.mem := rfl
@[simp] theorem State.stall_poison (s : State) : s.stall.poison = s.poison := rfl
@[simp] theorem State.stall_badCheck (s : State) : s.stall.badCheck = s.badCheck := rfl
@[simp] theorem State.stall_flaws (s : State) : s.stall.flaws = s.flaws := rfl
@[simp] theorem State.stall_transit (s : State) : s.stall.transit = s.transit := rfl
@[simp] theorem State.stall_media (s : State) : s.stall.media = s.media := rfl
@[simp] theorem State.stall_mediaPoison (s : State) : s.stall.mediaPoison = s.mediaPoison := rfl
@[simp] theorem State.stall_persists (s : State) : s.stall.persists = s.persists := rfl
@[simp] theorem State.stall_lineMeta (s : State) : s.stall.lineMeta = s.lineMeta := rfl
@[simp] theorem State.stall_l1 (s : State) : s.stall.l1 = s.l1 := rfl
@[simp] theorem State.stall_l2 (s : State) : s.stall.l2 = s.l2 := rfl
@[simp] theorem State.stall_written (s : State) : s.stall.written = s.written := rfl
@[simp] theorem State.stall_backs (s : State) : s.stall.backs = s.backs := rfl
@[simp] theorem State.stall_icache (s : State) : s.stall.icache = s.icache := rfl
@[simp] theorem State.stall_dir (s : State) : s.stall.dir = s.dir := rfl
@[simp] theorem State.stall_agents (s : State) : s.stall.agents = s.agents := rfl
@[simp] theorem State.stall_msgs (s : State) : s.stall.msgs = s.msgs := rfl
@[simp] theorem State.stall_tlbs (s : State) : s.stall.tlbs = s.tlbs := rfl
@[simp] theorem State.stall_pageReqs (s : State) : s.stall.pageReqs = s.pageReqs := rfl
@[simp] theorem State.stall_sideLog (s : State) : s.stall.sideLog = s.sideLog := rfl
@[simp] theorem State.stall_invals (s : State) : s.stall.invals = s.invals := rfl
@[simp] theorem State.stall_groups (s : State) : s.stall.groups = s.groups := rfl
@[simp] theorem State.stall_teams (s : State) : s.stall.teams = s.teams := rfl
@[simp] theorem State.stall_gangs (s : State) : s.stall.gangs = s.gangs := rfl
@[simp] theorem State.stall_ctxs (s : State) : s.stall.ctxs = s.ctxs := rfl
@[simp] theorem State.stall_engines (s : State) : s.stall.engines = s.engines := rfl
@[simp] theorem State.stall_copyOps (s : State) : s.stall.copyOps = s.copyOps := rfl
@[simp] theorem State.stall_chases (s : State) : s.stall.chases = s.chases := rfl
@[simp] theorem State.stall_listOps (s : State) : s.stall.listOps = s.listOps := rfl
@[simp] theorem State.stall_rowOps (s : State) : s.stall.rowOps = s.rowOps := rfl
@[simp] theorem State.stall_kvups (s : State) : s.stall.kvups = s.kvups := rfl
@[simp] theorem State.stall_laneFails (s : State) : s.stall.laneFails = s.laneFails := rfl
@[simp] theorem State.stall_mcasts (s : State) : s.stall.mcasts = s.mcasts := rfl
@[simp] theorem State.stall_mcastVersion (s : State) : s.stall.mcastVersion = s.mcastVersion := rfl
@[simp] theorem State.stall_krcps (s : State) : s.stall.krcps = s.krcps := rfl
@[simp] theorem State.stall_egress (s : State) : s.stall.egress = s.egress := rfl
@[simp] theorem State.stall_parts (s : State) : s.stall.parts = s.parts := rfl
@[simp] theorem State.stall_remotes (s : State) : s.stall.remotes = s.remotes := rfl
@[simp] theorem State.stall_planWritten (s : State) : s.stall.planWritten = s.planWritten := rfl
@[simp] theorem State.stall_planApplied (s : State) : s.stall.planApplied = s.planApplied := rfl
@[simp] theorem State.stall_planEpoch (s : State) : s.stall.planEpoch = s.planEpoch := rfl
@[simp] theorem State.stall_planResult (s : State) : s.stall.planResult = s.planResult := rfl
@[simp] theorem State.stall_planBusy (s : State) : s.stall.planBusy = s.planBusy := rfl
@[simp] theorem State.stall_links (s : State) : s.stall.links = s.links := rfl
@[simp] theorem State.stall_retries (s : State) : s.stall.retries = s.retries := rfl
@[simp] theorem State.stall_unreachable (s : State) : s.stall.unreachable = s.unreachable := rfl
@[simp] theorem State.stall_memReqs (s : State) : s.stall.memReqs = s.memReqs := rfl
@[simp] theorem State.stall_misses (s : State) : s.stall.misses = s.misses := rfl
@[simp] theorem State.stall_lags (s : State) : s.stall.lags = s.lags := rfl
@[simp] theorem State.stall_rowActs (s : State) : s.stall.rowActs = s.rowActs := rfl
@[simp] theorem State.stall_corrected (s : State) : s.stall.corrected = s.corrected := rfl
@[simp] theorem State.stall_errRing (s : State) : s.stall.errRing = s.errRing := rfl
@[simp] theorem State.stall_memStacks (s : State) : s.stall.memStacks = s.memStacks := rfl
@[simp] theorem State.stall_snap (s : State) : s.stall.snap = s.snap := rfl
@[simp] theorem State.stall_queues (s : State) : s.stall.queues = s.queues := rfl
@[simp] theorem State.stall_resumeList (s : State) : s.stall.resumeList = s.resumeList := rfl
@[simp] theorem State.stall_slice (s : State) : s.stall.slice = s.slice := rfl
@[simp] theorem State.stall_waiting (s : State) : s.stall.waiting = s.waiting := rfl
@[simp] theorem State.stall_reserving (s : State) : s.stall.reserving = s.reserving := rfl
@[simp] theorem State.stall_fetched (s : State) : s.stall.fetched = s.fetched := rfl
@[simp] theorem State.stall_admitting (s : State) : s.stall.admitting = s.admitting := rfl
@[simp] theorem State.stall_boot (s : State) : s.stall.boot = s.boot := rfl
@[simp] theorem State.stall_cfg (s : State) : s.stall.cfg = s.cfg := rfl
@[simp] theorem State.stall_rollback (s : State) : s.stall.rollback = s.rollback := rfl
@[simp] theorem State.stall_leaf (s : State) : s.stall.leaf = s.leaf := rfl
@[simp] theorem State.stall_power (s : State) : s.stall.power = s.power := rfl
@[simp] theorem State.stall_ports (s : State) : s.stall.ports = s.ports := rfl
@[simp] theorem State.stall_killing (s : State) : s.stall.killing = s.killing := rfl
@[simp] theorem State.stall_replies (s : State) : s.stall.replies = s.replies := rfl
@[simp] theorem State.stall_events (s : State) : s.stall.events = s.events := rfl

/-! ### `State.block` -/

@[simp] theorem State.block_clock (s : State) : s.block.clock = s.clock := rfl
@[simp] theorem State.block_time (s : State) : s.block.time = s.time := rfl
@[simp] theorem State.block_turns (s : State) : s.block.turns = s.turns := rfl
@[simp] theorem State.block_input (s : State) : s.block.input = s.input := rfl
@[simp] theorem State.block_cur (s : State) : s.block.cur = s.cur := rfl
@[simp] theorem State.block_word (s : State) : s.block.word = s.word := rfl
@[simp] theorem State.block_stalled (s : State) : s.block.stalled = true := rfl
@[simp] theorem State.block_blocked (s : State) : s.block.blocked = true := rfl
@[simp] theorem State.block_draws (s : State) : s.block.draws = s.draws := rfl
@[simp] theorem State.block_nextId (s : State) : s.block.nextId = s.nextId := rfl
@[simp] theorem State.block_mem (s : State) : s.block.mem = s.mem := rfl
@[simp] theorem State.block_poison (s : State) : s.block.poison = s.poison := rfl
@[simp] theorem State.block_badCheck (s : State) : s.block.badCheck = s.badCheck := rfl
@[simp] theorem State.block_flaws (s : State) : s.block.flaws = s.flaws := rfl
@[simp] theorem State.block_transit (s : State) : s.block.transit = s.transit := rfl
@[simp] theorem State.block_media (s : State) : s.block.media = s.media := rfl
@[simp] theorem State.block_mediaPoison (s : State) : s.block.mediaPoison = s.mediaPoison := rfl
@[simp] theorem State.block_persists (s : State) : s.block.persists = s.persists := rfl
@[simp] theorem State.block_lineMeta (s : State) : s.block.lineMeta = s.lineMeta := rfl
@[simp] theorem State.block_l1 (s : State) : s.block.l1 = s.l1 := rfl
@[simp] theorem State.block_l2 (s : State) : s.block.l2 = s.l2 := rfl
@[simp] theorem State.block_written (s : State) : s.block.written = s.written := rfl
@[simp] theorem State.block_backs (s : State) : s.block.backs = s.backs := rfl
@[simp] theorem State.block_icache (s : State) : s.block.icache = s.icache := rfl
@[simp] theorem State.block_dir (s : State) : s.block.dir = s.dir := rfl
@[simp] theorem State.block_agents (s : State) : s.block.agents = s.agents := rfl
@[simp] theorem State.block_msgs (s : State) : s.block.msgs = s.msgs := rfl
@[simp] theorem State.block_tlbs (s : State) : s.block.tlbs = s.tlbs := rfl
@[simp] theorem State.block_pageReqs (s : State) : s.block.pageReqs = s.pageReqs := rfl
@[simp] theorem State.block_sideLog (s : State) : s.block.sideLog = s.sideLog := rfl
@[simp] theorem State.block_invals (s : State) : s.block.invals = s.invals := rfl
@[simp] theorem State.block_groups (s : State) : s.block.groups = s.groups := rfl
@[simp] theorem State.block_teams (s : State) : s.block.teams = s.teams := rfl
@[simp] theorem State.block_gangs (s : State) : s.block.gangs = s.gangs := rfl
@[simp] theorem State.block_ctxs (s : State) : s.block.ctxs = s.ctxs := rfl
@[simp] theorem State.block_engines (s : State) : s.block.engines = s.engines := rfl
@[simp] theorem State.block_copyOps (s : State) : s.block.copyOps = s.copyOps := rfl
@[simp] theorem State.block_chases (s : State) : s.block.chases = s.chases := rfl
@[simp] theorem State.block_listOps (s : State) : s.block.listOps = s.listOps := rfl
@[simp] theorem State.block_rowOps (s : State) : s.block.rowOps = s.rowOps := rfl
@[simp] theorem State.block_kvups (s : State) : s.block.kvups = s.kvups := rfl
@[simp] theorem State.block_laneFails (s : State) : s.block.laneFails = s.laneFails := rfl
@[simp] theorem State.block_mcasts (s : State) : s.block.mcasts = s.mcasts := rfl
@[simp] theorem State.block_mcastVersion (s : State) : s.block.mcastVersion = s.mcastVersion := rfl
@[simp] theorem State.block_krcps (s : State) : s.block.krcps = s.krcps := rfl
@[simp] theorem State.block_egress (s : State) : s.block.egress = s.egress := rfl
@[simp] theorem State.block_parts (s : State) : s.block.parts = s.parts := rfl
@[simp] theorem State.block_remotes (s : State) : s.block.remotes = s.remotes := rfl
@[simp] theorem State.block_planWritten (s : State) : s.block.planWritten = s.planWritten := rfl
@[simp] theorem State.block_planApplied (s : State) : s.block.planApplied = s.planApplied := rfl
@[simp] theorem State.block_planEpoch (s : State) : s.block.planEpoch = s.planEpoch := rfl
@[simp] theorem State.block_planResult (s : State) : s.block.planResult = s.planResult := rfl
@[simp] theorem State.block_planBusy (s : State) : s.block.planBusy = s.planBusy := rfl
@[simp] theorem State.block_links (s : State) : s.block.links = s.links := rfl
@[simp] theorem State.block_retries (s : State) : s.block.retries = s.retries := rfl
@[simp] theorem State.block_unreachable (s : State) : s.block.unreachable = s.unreachable := rfl
@[simp] theorem State.block_memReqs (s : State) : s.block.memReqs = s.memReqs := rfl
@[simp] theorem State.block_misses (s : State) : s.block.misses = s.misses := rfl
@[simp] theorem State.block_lags (s : State) : s.block.lags = s.lags := rfl
@[simp] theorem State.block_rowActs (s : State) : s.block.rowActs = s.rowActs := rfl
@[simp] theorem State.block_corrected (s : State) : s.block.corrected = s.corrected := rfl
@[simp] theorem State.block_errRing (s : State) : s.block.errRing = s.errRing := rfl
@[simp] theorem State.block_memStacks (s : State) : s.block.memStacks = s.memStacks := rfl
@[simp] theorem State.block_snap (s : State) : s.block.snap = s.snap := rfl
@[simp] theorem State.block_queues (s : State) : s.block.queues = s.queues := rfl
@[simp] theorem State.block_resumeList (s : State) : s.block.resumeList = s.resumeList := rfl
@[simp] theorem State.block_slice (s : State) : s.block.slice = s.slice := rfl
@[simp] theorem State.block_waiting (s : State) : s.block.waiting = s.waiting := rfl
@[simp] theorem State.block_reserving (s : State) : s.block.reserving = s.reserving := rfl
@[simp] theorem State.block_fetched (s : State) : s.block.fetched = s.fetched := rfl
@[simp] theorem State.block_admitting (s : State) : s.block.admitting = s.admitting := rfl
@[simp] theorem State.block_boot (s : State) : s.block.boot = s.boot := rfl
@[simp] theorem State.block_cfg (s : State) : s.block.cfg = s.cfg := rfl
@[simp] theorem State.block_rollback (s : State) : s.block.rollback = s.rollback := rfl
@[simp] theorem State.block_leaf (s : State) : s.block.leaf = s.leaf := rfl
@[simp] theorem State.block_power (s : State) : s.block.power = s.power := rfl
@[simp] theorem State.block_ports (s : State) : s.block.ports = s.ports := rfl
@[simp] theorem State.block_killing (s : State) : s.block.killing = s.killing := rfl
@[simp] theorem State.block_replies (s : State) : s.block.replies = s.replies := rfl
@[simp] theorem State.block_events (s : State) : s.block.events = s.events := rfl

/-! ### `State.putGroup` -/

@[simp] theorem State.putGroup_clock (s : State) (gid : Nat) (g : Group) : (s.putGroup gid g).clock = s.clock := rfl
@[simp] theorem State.putGroup_time (s : State) (gid : Nat) (g : Group) : (s.putGroup gid g).time = s.time := rfl
@[simp] theorem State.putGroup_turns (s : State) (gid : Nat) (g : Group) : (s.putGroup gid g).turns = s.turns := rfl
@[simp] theorem State.putGroup_input (s : State) (gid : Nat) (g : Group) : (s.putGroup gid g).input = s.input := rfl
@[simp] theorem State.putGroup_cur (s : State) (gid : Nat) (g : Group) : (s.putGroup gid g).cur = s.cur := rfl
@[simp] theorem State.putGroup_word (s : State) (gid : Nat) (g : Group) : (s.putGroup gid g).word = s.word := rfl
@[simp] theorem State.putGroup_stalled (s : State) (gid : Nat) (g : Group) : (s.putGroup gid g).stalled = s.stalled := rfl
@[simp] theorem State.putGroup_blocked (s : State) (gid : Nat) (g : Group) : (s.putGroup gid g).blocked = s.blocked := rfl
@[simp] theorem State.putGroup_draws (s : State) (gid : Nat) (g : Group) : (s.putGroup gid g).draws = s.draws := rfl
@[simp] theorem State.putGroup_nextId (s : State) (gid : Nat) (g : Group) : (s.putGroup gid g).nextId = s.nextId := rfl
@[simp] theorem State.putGroup_mem (s : State) (gid : Nat) (g : Group) : (s.putGroup gid g).mem = s.mem := rfl
@[simp] theorem State.putGroup_poison (s : State) (gid : Nat) (g : Group) : (s.putGroup gid g).poison = s.poison := rfl
@[simp] theorem State.putGroup_badCheck (s : State) (gid : Nat) (g : Group) : (s.putGroup gid g).badCheck = s.badCheck := rfl
@[simp] theorem State.putGroup_flaws (s : State) (gid : Nat) (g : Group) : (s.putGroup gid g).flaws = s.flaws := rfl
@[simp] theorem State.putGroup_transit (s : State) (gid : Nat) (g : Group) : (s.putGroup gid g).transit = s.transit := rfl
@[simp] theorem State.putGroup_media (s : State) (gid : Nat) (g : Group) : (s.putGroup gid g).media = s.media := rfl
@[simp] theorem State.putGroup_mediaPoison (s : State) (gid : Nat) (g : Group) : (s.putGroup gid g).mediaPoison = s.mediaPoison := rfl
@[simp] theorem State.putGroup_persists (s : State) (gid : Nat) (g : Group) : (s.putGroup gid g).persists = s.persists := rfl
@[simp] theorem State.putGroup_lineMeta (s : State) (gid : Nat) (g : Group) : (s.putGroup gid g).lineMeta = s.lineMeta := rfl
@[simp] theorem State.putGroup_l1 (s : State) (gid : Nat) (g : Group) : (s.putGroup gid g).l1 = s.l1 := rfl
@[simp] theorem State.putGroup_l2 (s : State) (gid : Nat) (g : Group) : (s.putGroup gid g).l2 = s.l2 := rfl
@[simp] theorem State.putGroup_written (s : State) (gid : Nat) (g : Group) : (s.putGroup gid g).written = s.written := rfl
@[simp] theorem State.putGroup_backs (s : State) (gid : Nat) (g : Group) : (s.putGroup gid g).backs = s.backs := rfl
@[simp] theorem State.putGroup_icache (s : State) (gid : Nat) (g : Group) : (s.putGroup gid g).icache = s.icache := rfl
@[simp] theorem State.putGroup_dir (s : State) (gid : Nat) (g : Group) : (s.putGroup gid g).dir = s.dir := rfl
@[simp] theorem State.putGroup_agents (s : State) (gid : Nat) (g : Group) : (s.putGroup gid g).agents = s.agents := rfl
@[simp] theorem State.putGroup_msgs (s : State) (gid : Nat) (g : Group) : (s.putGroup gid g).msgs = s.msgs := rfl
@[simp] theorem State.putGroup_tlbs (s : State) (gid : Nat) (g : Group) : (s.putGroup gid g).tlbs = s.tlbs := rfl
@[simp] theorem State.putGroup_pageReqs (s : State) (gid : Nat) (g : Group) : (s.putGroup gid g).pageReqs = s.pageReqs := rfl
@[simp] theorem State.putGroup_sideLog (s : State) (gid : Nat) (g : Group) : (s.putGroup gid g).sideLog = s.sideLog := rfl
@[simp] theorem State.putGroup_invals (s : State) (gid : Nat) (g : Group) : (s.putGroup gid g).invals = s.invals := rfl
@[simp] theorem State.putGroup_groups (s : State) (gid : Nat) (g : Group) : (s.putGroup gid g).groups = aset s.groups gid g := rfl
@[simp] theorem State.putGroup_teams (s : State) (gid : Nat) (g : Group) : (s.putGroup gid g).teams = s.teams := rfl
@[simp] theorem State.putGroup_gangs (s : State) (gid : Nat) (g : Group) : (s.putGroup gid g).gangs = s.gangs := rfl
@[simp] theorem State.putGroup_ctxs (s : State) (gid : Nat) (g : Group) : (s.putGroup gid g).ctxs = s.ctxs := rfl
@[simp] theorem State.putGroup_engines (s : State) (gid : Nat) (g : Group) : (s.putGroup gid g).engines = s.engines := rfl
@[simp] theorem State.putGroup_copyOps (s : State) (gid : Nat) (g : Group) : (s.putGroup gid g).copyOps = s.copyOps := rfl
@[simp] theorem State.putGroup_chases (s : State) (gid : Nat) (g : Group) : (s.putGroup gid g).chases = s.chases := rfl
@[simp] theorem State.putGroup_listOps (s : State) (gid : Nat) (g : Group) : (s.putGroup gid g).listOps = s.listOps := rfl
@[simp] theorem State.putGroup_rowOps (s : State) (gid : Nat) (g : Group) : (s.putGroup gid g).rowOps = s.rowOps := rfl
@[simp] theorem State.putGroup_kvups (s : State) (gid : Nat) (g : Group) : (s.putGroup gid g).kvups = s.kvups := rfl
@[simp] theorem State.putGroup_laneFails (s : State) (gid : Nat) (g : Group) : (s.putGroup gid g).laneFails = s.laneFails := rfl
@[simp] theorem State.putGroup_mcasts (s : State) (gid : Nat) (g : Group) : (s.putGroup gid g).mcasts = s.mcasts := rfl
@[simp] theorem State.putGroup_mcastVersion (s : State) (gid : Nat) (g : Group) : (s.putGroup gid g).mcastVersion = s.mcastVersion := rfl
@[simp] theorem State.putGroup_krcps (s : State) (gid : Nat) (g : Group) : (s.putGroup gid g).krcps = s.krcps := rfl
@[simp] theorem State.putGroup_egress (s : State) (gid : Nat) (g : Group) : (s.putGroup gid g).egress = s.egress := rfl
@[simp] theorem State.putGroup_parts (s : State) (gid : Nat) (g : Group) : (s.putGroup gid g).parts = s.parts := rfl
@[simp] theorem State.putGroup_remotes (s : State) (gid : Nat) (g : Group) : (s.putGroup gid g).remotes = s.remotes := rfl
@[simp] theorem State.putGroup_planWritten (s : State) (gid : Nat) (g : Group) : (s.putGroup gid g).planWritten = s.planWritten := rfl
@[simp] theorem State.putGroup_planApplied (s : State) (gid : Nat) (g : Group) : (s.putGroup gid g).planApplied = s.planApplied := rfl
@[simp] theorem State.putGroup_planEpoch (s : State) (gid : Nat) (g : Group) : (s.putGroup gid g).planEpoch = s.planEpoch := rfl
@[simp] theorem State.putGroup_planResult (s : State) (gid : Nat) (g : Group) : (s.putGroup gid g).planResult = s.planResult := rfl
@[simp] theorem State.putGroup_planBusy (s : State) (gid : Nat) (g : Group) : (s.putGroup gid g).planBusy = s.planBusy := rfl
@[simp] theorem State.putGroup_links (s : State) (gid : Nat) (g : Group) : (s.putGroup gid g).links = s.links := rfl
@[simp] theorem State.putGroup_retries (s : State) (gid : Nat) (g : Group) : (s.putGroup gid g).retries = s.retries := rfl
@[simp] theorem State.putGroup_unreachable (s : State) (gid : Nat) (g : Group) : (s.putGroup gid g).unreachable = s.unreachable := rfl
@[simp] theorem State.putGroup_memReqs (s : State) (gid : Nat) (g : Group) : (s.putGroup gid g).memReqs = s.memReqs := rfl
@[simp] theorem State.putGroup_misses (s : State) (gid : Nat) (g : Group) : (s.putGroup gid g).misses = s.misses := rfl
@[simp] theorem State.putGroup_lags (s : State) (gid : Nat) (g : Group) : (s.putGroup gid g).lags = s.lags := rfl
@[simp] theorem State.putGroup_rowActs (s : State) (gid : Nat) (g : Group) : (s.putGroup gid g).rowActs = s.rowActs := rfl
@[simp] theorem State.putGroup_corrected (s : State) (gid : Nat) (g : Group) : (s.putGroup gid g).corrected = s.corrected := rfl
@[simp] theorem State.putGroup_errRing (s : State) (gid : Nat) (g : Group) : (s.putGroup gid g).errRing = s.errRing := rfl
@[simp] theorem State.putGroup_memStacks (s : State) (gid : Nat) (g : Group) : (s.putGroup gid g).memStacks = s.memStacks := rfl
@[simp] theorem State.putGroup_snap (s : State) (gid : Nat) (g : Group) : (s.putGroup gid g).snap = s.snap := rfl
@[simp] theorem State.putGroup_queues (s : State) (gid : Nat) (g : Group) : (s.putGroup gid g).queues = s.queues := rfl
@[simp] theorem State.putGroup_resumeList (s : State) (gid : Nat) (g : Group) : (s.putGroup gid g).resumeList = s.resumeList := rfl
@[simp] theorem State.putGroup_slice (s : State) (gid : Nat) (g : Group) : (s.putGroup gid g).slice = s.slice := rfl
@[simp] theorem State.putGroup_waiting (s : State) (gid : Nat) (g : Group) : (s.putGroup gid g).waiting = s.waiting := rfl
@[simp] theorem State.putGroup_reserving (s : State) (gid : Nat) (g : Group) : (s.putGroup gid g).reserving = s.reserving := rfl
@[simp] theorem State.putGroup_fetched (s : State) (gid : Nat) (g : Group) : (s.putGroup gid g).fetched = s.fetched := rfl
@[simp] theorem State.putGroup_admitting (s : State) (gid : Nat) (g : Group) : (s.putGroup gid g).admitting = s.admitting := rfl
@[simp] theorem State.putGroup_boot (s : State) (gid : Nat) (g : Group) : (s.putGroup gid g).boot = s.boot := rfl
@[simp] theorem State.putGroup_cfg (s : State) (gid : Nat) (g : Group) : (s.putGroup gid g).cfg = s.cfg := rfl
@[simp] theorem State.putGroup_rollback (s : State) (gid : Nat) (g : Group) : (s.putGroup gid g).rollback = s.rollback := rfl
@[simp] theorem State.putGroup_leaf (s : State) (gid : Nat) (g : Group) : (s.putGroup gid g).leaf = s.leaf := rfl
@[simp] theorem State.putGroup_power (s : State) (gid : Nat) (g : Group) : (s.putGroup gid g).power = s.power := rfl
@[simp] theorem State.putGroup_ports (s : State) (gid : Nat) (g : Group) : (s.putGroup gid g).ports = s.ports := rfl
@[simp] theorem State.putGroup_killing (s : State) (gid : Nat) (g : Group) : (s.putGroup gid g).killing = s.killing := rfl
@[simp] theorem State.putGroup_replies (s : State) (gid : Nat) (g : Group) : (s.putGroup gid g).replies = s.replies := rfl
@[simp] theorem State.putGroup_events (s : State) (gid : Nat) (g : Group) : (s.putGroup gid g).events = s.events := rfl

/-! ### `State.updGroup` -/

@[simp] theorem State.updGroup_clock (s : State) (gid : Nat) (f : Group → Group) : (s.updGroup gid f).clock = s.clock := rfl
@[simp] theorem State.updGroup_time (s : State) (gid : Nat) (f : Group → Group) : (s.updGroup gid f).time = s.time := rfl
@[simp] theorem State.updGroup_turns (s : State) (gid : Nat) (f : Group → Group) : (s.updGroup gid f).turns = s.turns := rfl
@[simp] theorem State.updGroup_input (s : State) (gid : Nat) (f : Group → Group) : (s.updGroup gid f).input = s.input := rfl
@[simp] theorem State.updGroup_cur (s : State) (gid : Nat) (f : Group → Group) : (s.updGroup gid f).cur = s.cur := rfl
@[simp] theorem State.updGroup_word (s : State) (gid : Nat) (f : Group → Group) : (s.updGroup gid f).word = s.word := rfl
@[simp] theorem State.updGroup_stalled (s : State) (gid : Nat) (f : Group → Group) : (s.updGroup gid f).stalled = s.stalled := rfl
@[simp] theorem State.updGroup_blocked (s : State) (gid : Nat) (f : Group → Group) : (s.updGroup gid f).blocked = s.blocked := rfl
@[simp] theorem State.updGroup_draws (s : State) (gid : Nat) (f : Group → Group) : (s.updGroup gid f).draws = s.draws := rfl
@[simp] theorem State.updGroup_nextId (s : State) (gid : Nat) (f : Group → Group) : (s.updGroup gid f).nextId = s.nextId := rfl
@[simp] theorem State.updGroup_mem (s : State) (gid : Nat) (f : Group → Group) : (s.updGroup gid f).mem = s.mem := rfl
@[simp] theorem State.updGroup_poison (s : State) (gid : Nat) (f : Group → Group) : (s.updGroup gid f).poison = s.poison := rfl
@[simp] theorem State.updGroup_badCheck (s : State) (gid : Nat) (f : Group → Group) : (s.updGroup gid f).badCheck = s.badCheck := rfl
@[simp] theorem State.updGroup_flaws (s : State) (gid : Nat) (f : Group → Group) : (s.updGroup gid f).flaws = s.flaws := rfl
@[simp] theorem State.updGroup_transit (s : State) (gid : Nat) (f : Group → Group) : (s.updGroup gid f).transit = s.transit := rfl
@[simp] theorem State.updGroup_media (s : State) (gid : Nat) (f : Group → Group) : (s.updGroup gid f).media = s.media := rfl
@[simp] theorem State.updGroup_mediaPoison (s : State) (gid : Nat) (f : Group → Group) : (s.updGroup gid f).mediaPoison = s.mediaPoison := rfl
@[simp] theorem State.updGroup_persists (s : State) (gid : Nat) (f : Group → Group) : (s.updGroup gid f).persists = s.persists := rfl
@[simp] theorem State.updGroup_lineMeta (s : State) (gid : Nat) (f : Group → Group) : (s.updGroup gid f).lineMeta = s.lineMeta := rfl
@[simp] theorem State.updGroup_l1 (s : State) (gid : Nat) (f : Group → Group) : (s.updGroup gid f).l1 = s.l1 := rfl
@[simp] theorem State.updGroup_l2 (s : State) (gid : Nat) (f : Group → Group) : (s.updGroup gid f).l2 = s.l2 := rfl
@[simp] theorem State.updGroup_written (s : State) (gid : Nat) (f : Group → Group) : (s.updGroup gid f).written = s.written := rfl
@[simp] theorem State.updGroup_backs (s : State) (gid : Nat) (f : Group → Group) : (s.updGroup gid f).backs = s.backs := rfl
@[simp] theorem State.updGroup_icache (s : State) (gid : Nat) (f : Group → Group) : (s.updGroup gid f).icache = s.icache := rfl
@[simp] theorem State.updGroup_dir (s : State) (gid : Nat) (f : Group → Group) : (s.updGroup gid f).dir = s.dir := rfl
@[simp] theorem State.updGroup_agents (s : State) (gid : Nat) (f : Group → Group) : (s.updGroup gid f).agents = s.agents := rfl
@[simp] theorem State.updGroup_msgs (s : State) (gid : Nat) (f : Group → Group) : (s.updGroup gid f).msgs = s.msgs := rfl
@[simp] theorem State.updGroup_tlbs (s : State) (gid : Nat) (f : Group → Group) : (s.updGroup gid f).tlbs = s.tlbs := rfl
@[simp] theorem State.updGroup_pageReqs (s : State) (gid : Nat) (f : Group → Group) : (s.updGroup gid f).pageReqs = s.pageReqs := rfl
@[simp] theorem State.updGroup_sideLog (s : State) (gid : Nat) (f : Group → Group) : (s.updGroup gid f).sideLog = s.sideLog := rfl
@[simp] theorem State.updGroup_invals (s : State) (gid : Nat) (f : Group → Group) : (s.updGroup gid f).invals = s.invals := rfl
@[simp] theorem State.updGroup_groups (s : State) (gid : Nat) (f : Group → Group) : (s.updGroup gid f).groups = aupd s.groups gid f := rfl
@[simp] theorem State.updGroup_teams (s : State) (gid : Nat) (f : Group → Group) : (s.updGroup gid f).teams = s.teams := rfl
@[simp] theorem State.updGroup_gangs (s : State) (gid : Nat) (f : Group → Group) : (s.updGroup gid f).gangs = s.gangs := rfl
@[simp] theorem State.updGroup_ctxs (s : State) (gid : Nat) (f : Group → Group) : (s.updGroup gid f).ctxs = s.ctxs := rfl
@[simp] theorem State.updGroup_engines (s : State) (gid : Nat) (f : Group → Group) : (s.updGroup gid f).engines = s.engines := rfl
@[simp] theorem State.updGroup_copyOps (s : State) (gid : Nat) (f : Group → Group) : (s.updGroup gid f).copyOps = s.copyOps := rfl
@[simp] theorem State.updGroup_chases (s : State) (gid : Nat) (f : Group → Group) : (s.updGroup gid f).chases = s.chases := rfl
@[simp] theorem State.updGroup_listOps (s : State) (gid : Nat) (f : Group → Group) : (s.updGroup gid f).listOps = s.listOps := rfl
@[simp] theorem State.updGroup_rowOps (s : State) (gid : Nat) (f : Group → Group) : (s.updGroup gid f).rowOps = s.rowOps := rfl
@[simp] theorem State.updGroup_kvups (s : State) (gid : Nat) (f : Group → Group) : (s.updGroup gid f).kvups = s.kvups := rfl
@[simp] theorem State.updGroup_laneFails (s : State) (gid : Nat) (f : Group → Group) : (s.updGroup gid f).laneFails = s.laneFails := rfl
@[simp] theorem State.updGroup_mcasts (s : State) (gid : Nat) (f : Group → Group) : (s.updGroup gid f).mcasts = s.mcasts := rfl
@[simp] theorem State.updGroup_mcastVersion (s : State) (gid : Nat) (f : Group → Group) : (s.updGroup gid f).mcastVersion = s.mcastVersion := rfl
@[simp] theorem State.updGroup_krcps (s : State) (gid : Nat) (f : Group → Group) : (s.updGroup gid f).krcps = s.krcps := rfl
@[simp] theorem State.updGroup_egress (s : State) (gid : Nat) (f : Group → Group) : (s.updGroup gid f).egress = s.egress := rfl
@[simp] theorem State.updGroup_parts (s : State) (gid : Nat) (f : Group → Group) : (s.updGroup gid f).parts = s.parts := rfl
@[simp] theorem State.updGroup_remotes (s : State) (gid : Nat) (f : Group → Group) : (s.updGroup gid f).remotes = s.remotes := rfl
@[simp] theorem State.updGroup_planWritten (s : State) (gid : Nat) (f : Group → Group) : (s.updGroup gid f).planWritten = s.planWritten := rfl
@[simp] theorem State.updGroup_planApplied (s : State) (gid : Nat) (f : Group → Group) : (s.updGroup gid f).planApplied = s.planApplied := rfl
@[simp] theorem State.updGroup_planEpoch (s : State) (gid : Nat) (f : Group → Group) : (s.updGroup gid f).planEpoch = s.planEpoch := rfl
@[simp] theorem State.updGroup_planResult (s : State) (gid : Nat) (f : Group → Group) : (s.updGroup gid f).planResult = s.planResult := rfl
@[simp] theorem State.updGroup_planBusy (s : State) (gid : Nat) (f : Group → Group) : (s.updGroup gid f).planBusy = s.planBusy := rfl
@[simp] theorem State.updGroup_links (s : State) (gid : Nat) (f : Group → Group) : (s.updGroup gid f).links = s.links := rfl
@[simp] theorem State.updGroup_retries (s : State) (gid : Nat) (f : Group → Group) : (s.updGroup gid f).retries = s.retries := rfl
@[simp] theorem State.updGroup_unreachable (s : State) (gid : Nat) (f : Group → Group) : (s.updGroup gid f).unreachable = s.unreachable := rfl
@[simp] theorem State.updGroup_memReqs (s : State) (gid : Nat) (f : Group → Group) : (s.updGroup gid f).memReqs = s.memReqs := rfl
@[simp] theorem State.updGroup_misses (s : State) (gid : Nat) (f : Group → Group) : (s.updGroup gid f).misses = s.misses := rfl
@[simp] theorem State.updGroup_lags (s : State) (gid : Nat) (f : Group → Group) : (s.updGroup gid f).lags = s.lags := rfl
@[simp] theorem State.updGroup_rowActs (s : State) (gid : Nat) (f : Group → Group) : (s.updGroup gid f).rowActs = s.rowActs := rfl
@[simp] theorem State.updGroup_corrected (s : State) (gid : Nat) (f : Group → Group) : (s.updGroup gid f).corrected = s.corrected := rfl
@[simp] theorem State.updGroup_errRing (s : State) (gid : Nat) (f : Group → Group) : (s.updGroup gid f).errRing = s.errRing := rfl
@[simp] theorem State.updGroup_memStacks (s : State) (gid : Nat) (f : Group → Group) : (s.updGroup gid f).memStacks = s.memStacks := rfl
@[simp] theorem State.updGroup_snap (s : State) (gid : Nat) (f : Group → Group) : (s.updGroup gid f).snap = s.snap := rfl
@[simp] theorem State.updGroup_queues (s : State) (gid : Nat) (f : Group → Group) : (s.updGroup gid f).queues = s.queues := rfl
@[simp] theorem State.updGroup_resumeList (s : State) (gid : Nat) (f : Group → Group) : (s.updGroup gid f).resumeList = s.resumeList := rfl
@[simp] theorem State.updGroup_slice (s : State) (gid : Nat) (f : Group → Group) : (s.updGroup gid f).slice = s.slice := rfl
@[simp] theorem State.updGroup_waiting (s : State) (gid : Nat) (f : Group → Group) : (s.updGroup gid f).waiting = s.waiting := rfl
@[simp] theorem State.updGroup_reserving (s : State) (gid : Nat) (f : Group → Group) : (s.updGroup gid f).reserving = s.reserving := rfl
@[simp] theorem State.updGroup_fetched (s : State) (gid : Nat) (f : Group → Group) : (s.updGroup gid f).fetched = s.fetched := rfl
@[simp] theorem State.updGroup_admitting (s : State) (gid : Nat) (f : Group → Group) : (s.updGroup gid f).admitting = s.admitting := rfl
@[simp] theorem State.updGroup_boot (s : State) (gid : Nat) (f : Group → Group) : (s.updGroup gid f).boot = s.boot := rfl
@[simp] theorem State.updGroup_cfg (s : State) (gid : Nat) (f : Group → Group) : (s.updGroup gid f).cfg = s.cfg := rfl
@[simp] theorem State.updGroup_rollback (s : State) (gid : Nat) (f : Group → Group) : (s.updGroup gid f).rollback = s.rollback := rfl
@[simp] theorem State.updGroup_leaf (s : State) (gid : Nat) (f : Group → Group) : (s.updGroup gid f).leaf = s.leaf := rfl
@[simp] theorem State.updGroup_power (s : State) (gid : Nat) (f : Group → Group) : (s.updGroup gid f).power = s.power := rfl
@[simp] theorem State.updGroup_ports (s : State) (gid : Nat) (f : Group → Group) : (s.updGroup gid f).ports = s.ports := rfl
@[simp] theorem State.updGroup_killing (s : State) (gid : Nat) (f : Group → Group) : (s.updGroup gid f).killing = s.killing := rfl
@[simp] theorem State.updGroup_replies (s : State) (gid : Nat) (f : Group → Group) : (s.updGroup gid f).replies = s.replies := rfl
@[simp] theorem State.updGroup_events (s : State) (gid : Nat) (f : Group → Group) : (s.updGroup gid f).events = s.events := rfl

/-! ### `State.done` -/

@[simp] theorem State.done_clock (s : State) (gid : Nat) (g : Group) : (s.done gid g).clock = s.clock := rfl
@[simp] theorem State.done_time (s : State) (gid : Nat) (g : Group) : (s.done gid g).time = s.time := rfl
@[simp] theorem State.done_turns (s : State) (gid : Nat) (g : Group) : (s.done gid g).turns = s.turns := rfl
@[simp] theorem State.done_input (s : State) (gid : Nat) (g : Group) : (s.done gid g).input = s.input := rfl
@[simp] theorem State.done_cur (s : State) (gid : Nat) (g : Group) : (s.done gid g).cur = s.cur := rfl
@[simp] theorem State.done_word (s : State) (gid : Nat) (g : Group) : (s.done gid g).word = s.word := rfl
@[simp] theorem State.done_stalled (s : State) (gid : Nat) (g : Group) : (s.done gid g).stalled = s.stalled := rfl
@[simp] theorem State.done_blocked (s : State) (gid : Nat) (g : Group) : (s.done gid g).blocked = s.blocked := rfl
@[simp] theorem State.done_draws (s : State) (gid : Nat) (g : Group) : (s.done gid g).draws = s.draws := rfl
@[simp] theorem State.done_nextId (s : State) (gid : Nat) (g : Group) : (s.done gid g).nextId = s.nextId := rfl
@[simp] theorem State.done_mem (s : State) (gid : Nat) (g : Group) : (s.done gid g).mem = s.mem := rfl
@[simp] theorem State.done_poison (s : State) (gid : Nat) (g : Group) : (s.done gid g).poison = s.poison := rfl
@[simp] theorem State.done_badCheck (s : State) (gid : Nat) (g : Group) : (s.done gid g).badCheck = s.badCheck := rfl
@[simp] theorem State.done_flaws (s : State) (gid : Nat) (g : Group) : (s.done gid g).flaws = s.flaws := rfl
@[simp] theorem State.done_transit (s : State) (gid : Nat) (g : Group) : (s.done gid g).transit = s.transit := rfl
@[simp] theorem State.done_media (s : State) (gid : Nat) (g : Group) : (s.done gid g).media = s.media := rfl
@[simp] theorem State.done_mediaPoison (s : State) (gid : Nat) (g : Group) : (s.done gid g).mediaPoison = s.mediaPoison := rfl
@[simp] theorem State.done_persists (s : State) (gid : Nat) (g : Group) : (s.done gid g).persists = s.persists := rfl
@[simp] theorem State.done_lineMeta (s : State) (gid : Nat) (g : Group) : (s.done gid g).lineMeta = s.lineMeta := rfl
@[simp] theorem State.done_l1 (s : State) (gid : Nat) (g : Group) : (s.done gid g).l1 = s.l1 := rfl
@[simp] theorem State.done_l2 (s : State) (gid : Nat) (g : Group) : (s.done gid g).l2 = s.l2 := rfl
@[simp] theorem State.done_written (s : State) (gid : Nat) (g : Group) : (s.done gid g).written = s.written := rfl
@[simp] theorem State.done_backs (s : State) (gid : Nat) (g : Group) : (s.done gid g).backs = s.backs := rfl
@[simp] theorem State.done_icache (s : State) (gid : Nat) (g : Group) : (s.done gid g).icache = s.icache := rfl
@[simp] theorem State.done_dir (s : State) (gid : Nat) (g : Group) : (s.done gid g).dir = s.dir := rfl
@[simp] theorem State.done_agents (s : State) (gid : Nat) (g : Group) : (s.done gid g).agents = s.agents := rfl
@[simp] theorem State.done_msgs (s : State) (gid : Nat) (g : Group) : (s.done gid g).msgs = s.msgs := rfl
@[simp] theorem State.done_tlbs (s : State) (gid : Nat) (g : Group) : (s.done gid g).tlbs = s.tlbs := rfl
@[simp] theorem State.done_pageReqs (s : State) (gid : Nat) (g : Group) : (s.done gid g).pageReqs = s.pageReqs := rfl
@[simp] theorem State.done_sideLog (s : State) (gid : Nat) (g : Group) : (s.done gid g).sideLog = s.sideLog := rfl
@[simp] theorem State.done_invals (s : State) (gid : Nat) (g : Group) : (s.done gid g).invals = s.invals := rfl
@[simp] theorem State.done_groups (s : State) (gid : Nat) (g : Group) : (s.done gid g).groups = aset s.groups gid { g with lastIssue := g.issuedAt s.clock, begun := false } := rfl
@[simp] theorem State.done_teams (s : State) (gid : Nat) (g : Group) : (s.done gid g).teams = s.teams := rfl
@[simp] theorem State.done_gangs (s : State) (gid : Nat) (g : Group) : (s.done gid g).gangs = s.gangs := rfl
@[simp] theorem State.done_ctxs (s : State) (gid : Nat) (g : Group) : (s.done gid g).ctxs = s.ctxs := rfl
@[simp] theorem State.done_engines (s : State) (gid : Nat) (g : Group) : (s.done gid g).engines = s.engines := rfl
@[simp] theorem State.done_copyOps (s : State) (gid : Nat) (g : Group) : (s.done gid g).copyOps = s.copyOps := rfl
@[simp] theorem State.done_chases (s : State) (gid : Nat) (g : Group) : (s.done gid g).chases = s.chases := rfl
@[simp] theorem State.done_listOps (s : State) (gid : Nat) (g : Group) : (s.done gid g).listOps = s.listOps := rfl
@[simp] theorem State.done_rowOps (s : State) (gid : Nat) (g : Group) : (s.done gid g).rowOps = s.rowOps := rfl
@[simp] theorem State.done_kvups (s : State) (gid : Nat) (g : Group) : (s.done gid g).kvups = s.kvups := rfl
@[simp] theorem State.done_laneFails (s : State) (gid : Nat) (g : Group) : (s.done gid g).laneFails = s.laneFails := rfl
@[simp] theorem State.done_mcasts (s : State) (gid : Nat) (g : Group) : (s.done gid g).mcasts = s.mcasts := rfl
@[simp] theorem State.done_mcastVersion (s : State) (gid : Nat) (g : Group) : (s.done gid g).mcastVersion = s.mcastVersion := rfl
@[simp] theorem State.done_krcps (s : State) (gid : Nat) (g : Group) : (s.done gid g).krcps = s.krcps := rfl
@[simp] theorem State.done_egress (s : State) (gid : Nat) (g : Group) : (s.done gid g).egress = s.egress := rfl
@[simp] theorem State.done_parts (s : State) (gid : Nat) (g : Group) : (s.done gid g).parts = s.parts := rfl
@[simp] theorem State.done_remotes (s : State) (gid : Nat) (g : Group) : (s.done gid g).remotes = s.remotes := rfl
@[simp] theorem State.done_planWritten (s : State) (gid : Nat) (g : Group) : (s.done gid g).planWritten = s.planWritten := rfl
@[simp] theorem State.done_planApplied (s : State) (gid : Nat) (g : Group) : (s.done gid g).planApplied = s.planApplied := rfl
@[simp] theorem State.done_planEpoch (s : State) (gid : Nat) (g : Group) : (s.done gid g).planEpoch = s.planEpoch := rfl
@[simp] theorem State.done_planResult (s : State) (gid : Nat) (g : Group) : (s.done gid g).planResult = s.planResult := rfl
@[simp] theorem State.done_planBusy (s : State) (gid : Nat) (g : Group) : (s.done gid g).planBusy = s.planBusy := rfl
@[simp] theorem State.done_links (s : State) (gid : Nat) (g : Group) : (s.done gid g).links = s.links := rfl
@[simp] theorem State.done_retries (s : State) (gid : Nat) (g : Group) : (s.done gid g).retries = s.retries := rfl
@[simp] theorem State.done_unreachable (s : State) (gid : Nat) (g : Group) : (s.done gid g).unreachable = s.unreachable := rfl
@[simp] theorem State.done_memReqs (s : State) (gid : Nat) (g : Group) : (s.done gid g).memReqs = s.memReqs := rfl
@[simp] theorem State.done_misses (s : State) (gid : Nat) (g : Group) : (s.done gid g).misses = s.misses := rfl
@[simp] theorem State.done_lags (s : State) (gid : Nat) (g : Group) : (s.done gid g).lags = s.lags := rfl
@[simp] theorem State.done_rowActs (s : State) (gid : Nat) (g : Group) : (s.done gid g).rowActs = s.rowActs := rfl
@[simp] theorem State.done_corrected (s : State) (gid : Nat) (g : Group) : (s.done gid g).corrected = s.corrected := rfl
@[simp] theorem State.done_errRing (s : State) (gid : Nat) (g : Group) : (s.done gid g).errRing = s.errRing := rfl
@[simp] theorem State.done_memStacks (s : State) (gid : Nat) (g : Group) : (s.done gid g).memStacks = s.memStacks := rfl
@[simp] theorem State.done_snap (s : State) (gid : Nat) (g : Group) : (s.done gid g).snap = s.snap := rfl
@[simp] theorem State.done_queues (s : State) (gid : Nat) (g : Group) : (s.done gid g).queues = s.queues := rfl
@[simp] theorem State.done_resumeList (s : State) (gid : Nat) (g : Group) : (s.done gid g).resumeList = s.resumeList := rfl
@[simp] theorem State.done_slice (s : State) (gid : Nat) (g : Group) : (s.done gid g).slice = s.slice := rfl
@[simp] theorem State.done_waiting (s : State) (gid : Nat) (g : Group) : (s.done gid g).waiting = s.waiting := rfl
@[simp] theorem State.done_reserving (s : State) (gid : Nat) (g : Group) : (s.done gid g).reserving = s.reserving := rfl
@[simp] theorem State.done_fetched (s : State) (gid : Nat) (g : Group) : (s.done gid g).fetched = s.fetched := rfl
@[simp] theorem State.done_admitting (s : State) (gid : Nat) (g : Group) : (s.done gid g).admitting = s.admitting := rfl
@[simp] theorem State.done_boot (s : State) (gid : Nat) (g : Group) : (s.done gid g).boot = s.boot := rfl
@[simp] theorem State.done_cfg (s : State) (gid : Nat) (g : Group) : (s.done gid g).cfg = s.cfg := rfl
@[simp] theorem State.done_rollback (s : State) (gid : Nat) (g : Group) : (s.done gid g).rollback = s.rollback := rfl
@[simp] theorem State.done_leaf (s : State) (gid : Nat) (g : Group) : (s.done gid g).leaf = s.leaf := rfl
@[simp] theorem State.done_power (s : State) (gid : Nat) (g : Group) : (s.done gid g).power = s.power := rfl
@[simp] theorem State.done_ports (s : State) (gid : Nat) (g : Group) : (s.done gid g).ports = s.ports := rfl
@[simp] theorem State.done_killing (s : State) (gid : Nat) (g : Group) : (s.done gid g).killing = s.killing := rfl
@[simp] theorem State.done_replies (s : State) (gid : Nat) (g : Group) : (s.done gid g).replies = s.replies := rfl
@[simp] theorem State.done_events (s : State) (gid : Nat) (g : Group) : (s.done gid g).events = s.events := rfl

/-! ### `State.updTeam` -/

@[simp] theorem State.updTeam_clock (s : State) (k : Nat) (f : Team → Team) : (s.updTeam k f).clock = s.clock := rfl
@[simp] theorem State.updTeam_time (s : State) (k : Nat) (f : Team → Team) : (s.updTeam k f).time = s.time := rfl
@[simp] theorem State.updTeam_turns (s : State) (k : Nat) (f : Team → Team) : (s.updTeam k f).turns = s.turns := rfl
@[simp] theorem State.updTeam_input (s : State) (k : Nat) (f : Team → Team) : (s.updTeam k f).input = s.input := rfl
@[simp] theorem State.updTeam_cur (s : State) (k : Nat) (f : Team → Team) : (s.updTeam k f).cur = s.cur := rfl
@[simp] theorem State.updTeam_word (s : State) (k : Nat) (f : Team → Team) : (s.updTeam k f).word = s.word := rfl
@[simp] theorem State.updTeam_stalled (s : State) (k : Nat) (f : Team → Team) : (s.updTeam k f).stalled = s.stalled := rfl
@[simp] theorem State.updTeam_blocked (s : State) (k : Nat) (f : Team → Team) : (s.updTeam k f).blocked = s.blocked := rfl
@[simp] theorem State.updTeam_draws (s : State) (k : Nat) (f : Team → Team) : (s.updTeam k f).draws = s.draws := rfl
@[simp] theorem State.updTeam_nextId (s : State) (k : Nat) (f : Team → Team) : (s.updTeam k f).nextId = s.nextId := rfl
@[simp] theorem State.updTeam_mem (s : State) (k : Nat) (f : Team → Team) : (s.updTeam k f).mem = s.mem := rfl
@[simp] theorem State.updTeam_poison (s : State) (k : Nat) (f : Team → Team) : (s.updTeam k f).poison = s.poison := rfl
@[simp] theorem State.updTeam_badCheck (s : State) (k : Nat) (f : Team → Team) : (s.updTeam k f).badCheck = s.badCheck := rfl
@[simp] theorem State.updTeam_flaws (s : State) (k : Nat) (f : Team → Team) : (s.updTeam k f).flaws = s.flaws := rfl
@[simp] theorem State.updTeam_transit (s : State) (k : Nat) (f : Team → Team) : (s.updTeam k f).transit = s.transit := rfl
@[simp] theorem State.updTeam_media (s : State) (k : Nat) (f : Team → Team) : (s.updTeam k f).media = s.media := rfl
@[simp] theorem State.updTeam_mediaPoison (s : State) (k : Nat) (f : Team → Team) : (s.updTeam k f).mediaPoison = s.mediaPoison := rfl
@[simp] theorem State.updTeam_persists (s : State) (k : Nat) (f : Team → Team) : (s.updTeam k f).persists = s.persists := rfl
@[simp] theorem State.updTeam_lineMeta (s : State) (k : Nat) (f : Team → Team) : (s.updTeam k f).lineMeta = s.lineMeta := rfl
@[simp] theorem State.updTeam_l1 (s : State) (k : Nat) (f : Team → Team) : (s.updTeam k f).l1 = s.l1 := rfl
@[simp] theorem State.updTeam_l2 (s : State) (k : Nat) (f : Team → Team) : (s.updTeam k f).l2 = s.l2 := rfl
@[simp] theorem State.updTeam_written (s : State) (k : Nat) (f : Team → Team) : (s.updTeam k f).written = s.written := rfl
@[simp] theorem State.updTeam_backs (s : State) (k : Nat) (f : Team → Team) : (s.updTeam k f).backs = s.backs := rfl
@[simp] theorem State.updTeam_icache (s : State) (k : Nat) (f : Team → Team) : (s.updTeam k f).icache = s.icache := rfl
@[simp] theorem State.updTeam_dir (s : State) (k : Nat) (f : Team → Team) : (s.updTeam k f).dir = s.dir := rfl
@[simp] theorem State.updTeam_agents (s : State) (k : Nat) (f : Team → Team) : (s.updTeam k f).agents = s.agents := rfl
@[simp] theorem State.updTeam_msgs (s : State) (k : Nat) (f : Team → Team) : (s.updTeam k f).msgs = s.msgs := rfl
@[simp] theorem State.updTeam_tlbs (s : State) (k : Nat) (f : Team → Team) : (s.updTeam k f).tlbs = s.tlbs := rfl
@[simp] theorem State.updTeam_pageReqs (s : State) (k : Nat) (f : Team → Team) : (s.updTeam k f).pageReqs = s.pageReqs := rfl
@[simp] theorem State.updTeam_sideLog (s : State) (k : Nat) (f : Team → Team) : (s.updTeam k f).sideLog = s.sideLog := rfl
@[simp] theorem State.updTeam_invals (s : State) (k : Nat) (f : Team → Team) : (s.updTeam k f).invals = s.invals := rfl
@[simp] theorem State.updTeam_groups (s : State) (k : Nat) (f : Team → Team) : (s.updTeam k f).groups = s.groups := rfl
@[simp] theorem State.updTeam_teams (s : State) (k : Nat) (f : Team → Team) : (s.updTeam k f).teams = aupd s.teams k f := rfl
@[simp] theorem State.updTeam_gangs (s : State) (k : Nat) (f : Team → Team) : (s.updTeam k f).gangs = s.gangs := rfl
@[simp] theorem State.updTeam_ctxs (s : State) (k : Nat) (f : Team → Team) : (s.updTeam k f).ctxs = s.ctxs := rfl
@[simp] theorem State.updTeam_engines (s : State) (k : Nat) (f : Team → Team) : (s.updTeam k f).engines = s.engines := rfl
@[simp] theorem State.updTeam_copyOps (s : State) (k : Nat) (f : Team → Team) : (s.updTeam k f).copyOps = s.copyOps := rfl
@[simp] theorem State.updTeam_chases (s : State) (k : Nat) (f : Team → Team) : (s.updTeam k f).chases = s.chases := rfl
@[simp] theorem State.updTeam_listOps (s : State) (k : Nat) (f : Team → Team) : (s.updTeam k f).listOps = s.listOps := rfl
@[simp] theorem State.updTeam_rowOps (s : State) (k : Nat) (f : Team → Team) : (s.updTeam k f).rowOps = s.rowOps := rfl
@[simp] theorem State.updTeam_kvups (s : State) (k : Nat) (f : Team → Team) : (s.updTeam k f).kvups = s.kvups := rfl
@[simp] theorem State.updTeam_laneFails (s : State) (k : Nat) (f : Team → Team) : (s.updTeam k f).laneFails = s.laneFails := rfl
@[simp] theorem State.updTeam_mcasts (s : State) (k : Nat) (f : Team → Team) : (s.updTeam k f).mcasts = s.mcasts := rfl
@[simp] theorem State.updTeam_mcastVersion (s : State) (k : Nat) (f : Team → Team) : (s.updTeam k f).mcastVersion = s.mcastVersion := rfl
@[simp] theorem State.updTeam_krcps (s : State) (k : Nat) (f : Team → Team) : (s.updTeam k f).krcps = s.krcps := rfl
@[simp] theorem State.updTeam_egress (s : State) (k : Nat) (f : Team → Team) : (s.updTeam k f).egress = s.egress := rfl
@[simp] theorem State.updTeam_parts (s : State) (k : Nat) (f : Team → Team) : (s.updTeam k f).parts = s.parts := rfl
@[simp] theorem State.updTeam_remotes (s : State) (k : Nat) (f : Team → Team) : (s.updTeam k f).remotes = s.remotes := rfl
@[simp] theorem State.updTeam_planWritten (s : State) (k : Nat) (f : Team → Team) : (s.updTeam k f).planWritten = s.planWritten := rfl
@[simp] theorem State.updTeam_planApplied (s : State) (k : Nat) (f : Team → Team) : (s.updTeam k f).planApplied = s.planApplied := rfl
@[simp] theorem State.updTeam_planEpoch (s : State) (k : Nat) (f : Team → Team) : (s.updTeam k f).planEpoch = s.planEpoch := rfl
@[simp] theorem State.updTeam_planResult (s : State) (k : Nat) (f : Team → Team) : (s.updTeam k f).planResult = s.planResult := rfl
@[simp] theorem State.updTeam_planBusy (s : State) (k : Nat) (f : Team → Team) : (s.updTeam k f).planBusy = s.planBusy := rfl
@[simp] theorem State.updTeam_links (s : State) (k : Nat) (f : Team → Team) : (s.updTeam k f).links = s.links := rfl
@[simp] theorem State.updTeam_retries (s : State) (k : Nat) (f : Team → Team) : (s.updTeam k f).retries = s.retries := rfl
@[simp] theorem State.updTeam_unreachable (s : State) (k : Nat) (f : Team → Team) : (s.updTeam k f).unreachable = s.unreachable := rfl
@[simp] theorem State.updTeam_memReqs (s : State) (k : Nat) (f : Team → Team) : (s.updTeam k f).memReqs = s.memReqs := rfl
@[simp] theorem State.updTeam_misses (s : State) (k : Nat) (f : Team → Team) : (s.updTeam k f).misses = s.misses := rfl
@[simp] theorem State.updTeam_lags (s : State) (k : Nat) (f : Team → Team) : (s.updTeam k f).lags = s.lags := rfl
@[simp] theorem State.updTeam_rowActs (s : State) (k : Nat) (f : Team → Team) : (s.updTeam k f).rowActs = s.rowActs := rfl
@[simp] theorem State.updTeam_corrected (s : State) (k : Nat) (f : Team → Team) : (s.updTeam k f).corrected = s.corrected := rfl
@[simp] theorem State.updTeam_errRing (s : State) (k : Nat) (f : Team → Team) : (s.updTeam k f).errRing = s.errRing := rfl
@[simp] theorem State.updTeam_memStacks (s : State) (k : Nat) (f : Team → Team) : (s.updTeam k f).memStacks = s.memStacks := rfl
@[simp] theorem State.updTeam_snap (s : State) (k : Nat) (f : Team → Team) : (s.updTeam k f).snap = s.snap := rfl
@[simp] theorem State.updTeam_queues (s : State) (k : Nat) (f : Team → Team) : (s.updTeam k f).queues = s.queues := rfl
@[simp] theorem State.updTeam_resumeList (s : State) (k : Nat) (f : Team → Team) : (s.updTeam k f).resumeList = s.resumeList := rfl
@[simp] theorem State.updTeam_slice (s : State) (k : Nat) (f : Team → Team) : (s.updTeam k f).slice = s.slice := rfl
@[simp] theorem State.updTeam_waiting (s : State) (k : Nat) (f : Team → Team) : (s.updTeam k f).waiting = s.waiting := rfl
@[simp] theorem State.updTeam_reserving (s : State) (k : Nat) (f : Team → Team) : (s.updTeam k f).reserving = s.reserving := rfl
@[simp] theorem State.updTeam_fetched (s : State) (k : Nat) (f : Team → Team) : (s.updTeam k f).fetched = s.fetched := rfl
@[simp] theorem State.updTeam_admitting (s : State) (k : Nat) (f : Team → Team) : (s.updTeam k f).admitting = s.admitting := rfl
@[simp] theorem State.updTeam_boot (s : State) (k : Nat) (f : Team → Team) : (s.updTeam k f).boot = s.boot := rfl
@[simp] theorem State.updTeam_cfg (s : State) (k : Nat) (f : Team → Team) : (s.updTeam k f).cfg = s.cfg := rfl
@[simp] theorem State.updTeam_rollback (s : State) (k : Nat) (f : Team → Team) : (s.updTeam k f).rollback = s.rollback := rfl
@[simp] theorem State.updTeam_leaf (s : State) (k : Nat) (f : Team → Team) : (s.updTeam k f).leaf = s.leaf := rfl
@[simp] theorem State.updTeam_power (s : State) (k : Nat) (f : Team → Team) : (s.updTeam k f).power = s.power := rfl
@[simp] theorem State.updTeam_ports (s : State) (k : Nat) (f : Team → Team) : (s.updTeam k f).ports = s.ports := rfl
@[simp] theorem State.updTeam_killing (s : State) (k : Nat) (f : Team → Team) : (s.updTeam k f).killing = s.killing := rfl
@[simp] theorem State.updTeam_replies (s : State) (k : Nat) (f : Team → Team) : (s.updTeam k f).replies = s.replies := rfl
@[simp] theorem State.updTeam_events (s : State) (k : Nat) (f : Team → Team) : (s.updTeam k f).events = s.events := rfl

/-! ### `State.updGang` -/

@[simp] theorem State.updGang_clock (s : State) (k : Nat) (f : Gang → Gang) : (s.updGang k f).clock = s.clock := rfl
@[simp] theorem State.updGang_time (s : State) (k : Nat) (f : Gang → Gang) : (s.updGang k f).time = s.time := rfl
@[simp] theorem State.updGang_turns (s : State) (k : Nat) (f : Gang → Gang) : (s.updGang k f).turns = s.turns := rfl
@[simp] theorem State.updGang_input (s : State) (k : Nat) (f : Gang → Gang) : (s.updGang k f).input = s.input := rfl
@[simp] theorem State.updGang_cur (s : State) (k : Nat) (f : Gang → Gang) : (s.updGang k f).cur = s.cur := rfl
@[simp] theorem State.updGang_word (s : State) (k : Nat) (f : Gang → Gang) : (s.updGang k f).word = s.word := rfl
@[simp] theorem State.updGang_stalled (s : State) (k : Nat) (f : Gang → Gang) : (s.updGang k f).stalled = s.stalled := rfl
@[simp] theorem State.updGang_blocked (s : State) (k : Nat) (f : Gang → Gang) : (s.updGang k f).blocked = s.blocked := rfl
@[simp] theorem State.updGang_draws (s : State) (k : Nat) (f : Gang → Gang) : (s.updGang k f).draws = s.draws := rfl
@[simp] theorem State.updGang_nextId (s : State) (k : Nat) (f : Gang → Gang) : (s.updGang k f).nextId = s.nextId := rfl
@[simp] theorem State.updGang_mem (s : State) (k : Nat) (f : Gang → Gang) : (s.updGang k f).mem = s.mem := rfl
@[simp] theorem State.updGang_poison (s : State) (k : Nat) (f : Gang → Gang) : (s.updGang k f).poison = s.poison := rfl
@[simp] theorem State.updGang_badCheck (s : State) (k : Nat) (f : Gang → Gang) : (s.updGang k f).badCheck = s.badCheck := rfl
@[simp] theorem State.updGang_flaws (s : State) (k : Nat) (f : Gang → Gang) : (s.updGang k f).flaws = s.flaws := rfl
@[simp] theorem State.updGang_transit (s : State) (k : Nat) (f : Gang → Gang) : (s.updGang k f).transit = s.transit := rfl
@[simp] theorem State.updGang_media (s : State) (k : Nat) (f : Gang → Gang) : (s.updGang k f).media = s.media := rfl
@[simp] theorem State.updGang_mediaPoison (s : State) (k : Nat) (f : Gang → Gang) : (s.updGang k f).mediaPoison = s.mediaPoison := rfl
@[simp] theorem State.updGang_persists (s : State) (k : Nat) (f : Gang → Gang) : (s.updGang k f).persists = s.persists := rfl
@[simp] theorem State.updGang_lineMeta (s : State) (k : Nat) (f : Gang → Gang) : (s.updGang k f).lineMeta = s.lineMeta := rfl
@[simp] theorem State.updGang_l1 (s : State) (k : Nat) (f : Gang → Gang) : (s.updGang k f).l1 = s.l1 := rfl
@[simp] theorem State.updGang_l2 (s : State) (k : Nat) (f : Gang → Gang) : (s.updGang k f).l2 = s.l2 := rfl
@[simp] theorem State.updGang_written (s : State) (k : Nat) (f : Gang → Gang) : (s.updGang k f).written = s.written := rfl
@[simp] theorem State.updGang_backs (s : State) (k : Nat) (f : Gang → Gang) : (s.updGang k f).backs = s.backs := rfl
@[simp] theorem State.updGang_icache (s : State) (k : Nat) (f : Gang → Gang) : (s.updGang k f).icache = s.icache := rfl
@[simp] theorem State.updGang_dir (s : State) (k : Nat) (f : Gang → Gang) : (s.updGang k f).dir = s.dir := rfl
@[simp] theorem State.updGang_agents (s : State) (k : Nat) (f : Gang → Gang) : (s.updGang k f).agents = s.agents := rfl
@[simp] theorem State.updGang_msgs (s : State) (k : Nat) (f : Gang → Gang) : (s.updGang k f).msgs = s.msgs := rfl
@[simp] theorem State.updGang_tlbs (s : State) (k : Nat) (f : Gang → Gang) : (s.updGang k f).tlbs = s.tlbs := rfl
@[simp] theorem State.updGang_pageReqs (s : State) (k : Nat) (f : Gang → Gang) : (s.updGang k f).pageReqs = s.pageReqs := rfl
@[simp] theorem State.updGang_sideLog (s : State) (k : Nat) (f : Gang → Gang) : (s.updGang k f).sideLog = s.sideLog := rfl
@[simp] theorem State.updGang_invals (s : State) (k : Nat) (f : Gang → Gang) : (s.updGang k f).invals = s.invals := rfl
@[simp] theorem State.updGang_groups (s : State) (k : Nat) (f : Gang → Gang) : (s.updGang k f).groups = s.groups := rfl
@[simp] theorem State.updGang_teams (s : State) (k : Nat) (f : Gang → Gang) : (s.updGang k f).teams = s.teams := rfl
@[simp] theorem State.updGang_gangs (s : State) (k : Nat) (f : Gang → Gang) : (s.updGang k f).gangs = aupd s.gangs k f := rfl
@[simp] theorem State.updGang_ctxs (s : State) (k : Nat) (f : Gang → Gang) : (s.updGang k f).ctxs = s.ctxs := rfl
@[simp] theorem State.updGang_engines (s : State) (k : Nat) (f : Gang → Gang) : (s.updGang k f).engines = s.engines := rfl
@[simp] theorem State.updGang_copyOps (s : State) (k : Nat) (f : Gang → Gang) : (s.updGang k f).copyOps = s.copyOps := rfl
@[simp] theorem State.updGang_chases (s : State) (k : Nat) (f : Gang → Gang) : (s.updGang k f).chases = s.chases := rfl
@[simp] theorem State.updGang_listOps (s : State) (k : Nat) (f : Gang → Gang) : (s.updGang k f).listOps = s.listOps := rfl
@[simp] theorem State.updGang_rowOps (s : State) (k : Nat) (f : Gang → Gang) : (s.updGang k f).rowOps = s.rowOps := rfl
@[simp] theorem State.updGang_kvups (s : State) (k : Nat) (f : Gang → Gang) : (s.updGang k f).kvups = s.kvups := rfl
@[simp] theorem State.updGang_laneFails (s : State) (k : Nat) (f : Gang → Gang) : (s.updGang k f).laneFails = s.laneFails := rfl
@[simp] theorem State.updGang_mcasts (s : State) (k : Nat) (f : Gang → Gang) : (s.updGang k f).mcasts = s.mcasts := rfl
@[simp] theorem State.updGang_mcastVersion (s : State) (k : Nat) (f : Gang → Gang) : (s.updGang k f).mcastVersion = s.mcastVersion := rfl
@[simp] theorem State.updGang_krcps (s : State) (k : Nat) (f : Gang → Gang) : (s.updGang k f).krcps = s.krcps := rfl
@[simp] theorem State.updGang_egress (s : State) (k : Nat) (f : Gang → Gang) : (s.updGang k f).egress = s.egress := rfl
@[simp] theorem State.updGang_parts (s : State) (k : Nat) (f : Gang → Gang) : (s.updGang k f).parts = s.parts := rfl
@[simp] theorem State.updGang_remotes (s : State) (k : Nat) (f : Gang → Gang) : (s.updGang k f).remotes = s.remotes := rfl
@[simp] theorem State.updGang_planWritten (s : State) (k : Nat) (f : Gang → Gang) : (s.updGang k f).planWritten = s.planWritten := rfl
@[simp] theorem State.updGang_planApplied (s : State) (k : Nat) (f : Gang → Gang) : (s.updGang k f).planApplied = s.planApplied := rfl
@[simp] theorem State.updGang_planEpoch (s : State) (k : Nat) (f : Gang → Gang) : (s.updGang k f).planEpoch = s.planEpoch := rfl
@[simp] theorem State.updGang_planResult (s : State) (k : Nat) (f : Gang → Gang) : (s.updGang k f).planResult = s.planResult := rfl
@[simp] theorem State.updGang_planBusy (s : State) (k : Nat) (f : Gang → Gang) : (s.updGang k f).planBusy = s.planBusy := rfl
@[simp] theorem State.updGang_links (s : State) (k : Nat) (f : Gang → Gang) : (s.updGang k f).links = s.links := rfl
@[simp] theorem State.updGang_retries (s : State) (k : Nat) (f : Gang → Gang) : (s.updGang k f).retries = s.retries := rfl
@[simp] theorem State.updGang_unreachable (s : State) (k : Nat) (f : Gang → Gang) : (s.updGang k f).unreachable = s.unreachable := rfl
@[simp] theorem State.updGang_memReqs (s : State) (k : Nat) (f : Gang → Gang) : (s.updGang k f).memReqs = s.memReqs := rfl
@[simp] theorem State.updGang_misses (s : State) (k : Nat) (f : Gang → Gang) : (s.updGang k f).misses = s.misses := rfl
@[simp] theorem State.updGang_lags (s : State) (k : Nat) (f : Gang → Gang) : (s.updGang k f).lags = s.lags := rfl
@[simp] theorem State.updGang_rowActs (s : State) (k : Nat) (f : Gang → Gang) : (s.updGang k f).rowActs = s.rowActs := rfl
@[simp] theorem State.updGang_corrected (s : State) (k : Nat) (f : Gang → Gang) : (s.updGang k f).corrected = s.corrected := rfl
@[simp] theorem State.updGang_errRing (s : State) (k : Nat) (f : Gang → Gang) : (s.updGang k f).errRing = s.errRing := rfl
@[simp] theorem State.updGang_memStacks (s : State) (k : Nat) (f : Gang → Gang) : (s.updGang k f).memStacks = s.memStacks := rfl
@[simp] theorem State.updGang_snap (s : State) (k : Nat) (f : Gang → Gang) : (s.updGang k f).snap = s.snap := rfl
@[simp] theorem State.updGang_queues (s : State) (k : Nat) (f : Gang → Gang) : (s.updGang k f).queues = s.queues := rfl
@[simp] theorem State.updGang_resumeList (s : State) (k : Nat) (f : Gang → Gang) : (s.updGang k f).resumeList = s.resumeList := rfl
@[simp] theorem State.updGang_slice (s : State) (k : Nat) (f : Gang → Gang) : (s.updGang k f).slice = s.slice := rfl
@[simp] theorem State.updGang_waiting (s : State) (k : Nat) (f : Gang → Gang) : (s.updGang k f).waiting = s.waiting := rfl
@[simp] theorem State.updGang_reserving (s : State) (k : Nat) (f : Gang → Gang) : (s.updGang k f).reserving = s.reserving := rfl
@[simp] theorem State.updGang_fetched (s : State) (k : Nat) (f : Gang → Gang) : (s.updGang k f).fetched = s.fetched := rfl
@[simp] theorem State.updGang_admitting (s : State) (k : Nat) (f : Gang → Gang) : (s.updGang k f).admitting = s.admitting := rfl
@[simp] theorem State.updGang_boot (s : State) (k : Nat) (f : Gang → Gang) : (s.updGang k f).boot = s.boot := rfl
@[simp] theorem State.updGang_cfg (s : State) (k : Nat) (f : Gang → Gang) : (s.updGang k f).cfg = s.cfg := rfl
@[simp] theorem State.updGang_rollback (s : State) (k : Nat) (f : Gang → Gang) : (s.updGang k f).rollback = s.rollback := rfl
@[simp] theorem State.updGang_leaf (s : State) (k : Nat) (f : Gang → Gang) : (s.updGang k f).leaf = s.leaf := rfl
@[simp] theorem State.updGang_power (s : State) (k : Nat) (f : Gang → Gang) : (s.updGang k f).power = s.power := rfl
@[simp] theorem State.updGang_ports (s : State) (k : Nat) (f : Gang → Gang) : (s.updGang k f).ports = s.ports := rfl
@[simp] theorem State.updGang_killing (s : State) (k : Nat) (f : Gang → Gang) : (s.updGang k f).killing = s.killing := rfl
@[simp] theorem State.updGang_replies (s : State) (k : Nat) (f : Gang → Gang) : (s.updGang k f).replies = s.replies := rfl
@[simp] theorem State.updGang_events (s : State) (k : Nat) (f : Gang → Gang) : (s.updGang k f).events = s.events := rfl

/-! ### `State.updCtx` -/

@[simp] theorem State.updCtx_clock (s : State) (c : Nat) (f : Ctx → Ctx) : (s.updCtx c f).clock = s.clock := rfl
@[simp] theorem State.updCtx_time (s : State) (c : Nat) (f : Ctx → Ctx) : (s.updCtx c f).time = s.time := rfl
@[simp] theorem State.updCtx_turns (s : State) (c : Nat) (f : Ctx → Ctx) : (s.updCtx c f).turns = s.turns := rfl
@[simp] theorem State.updCtx_input (s : State) (c : Nat) (f : Ctx → Ctx) : (s.updCtx c f).input = s.input := rfl
@[simp] theorem State.updCtx_cur (s : State) (c : Nat) (f : Ctx → Ctx) : (s.updCtx c f).cur = s.cur := rfl
@[simp] theorem State.updCtx_word (s : State) (c : Nat) (f : Ctx → Ctx) : (s.updCtx c f).word = s.word := rfl
@[simp] theorem State.updCtx_stalled (s : State) (c : Nat) (f : Ctx → Ctx) : (s.updCtx c f).stalled = s.stalled := rfl
@[simp] theorem State.updCtx_blocked (s : State) (c : Nat) (f : Ctx → Ctx) : (s.updCtx c f).blocked = s.blocked := rfl
@[simp] theorem State.updCtx_draws (s : State) (c : Nat) (f : Ctx → Ctx) : (s.updCtx c f).draws = s.draws := rfl
@[simp] theorem State.updCtx_nextId (s : State) (c : Nat) (f : Ctx → Ctx) : (s.updCtx c f).nextId = s.nextId := rfl
@[simp] theorem State.updCtx_mem (s : State) (c : Nat) (f : Ctx → Ctx) : (s.updCtx c f).mem = s.mem := rfl
@[simp] theorem State.updCtx_poison (s : State) (c : Nat) (f : Ctx → Ctx) : (s.updCtx c f).poison = s.poison := rfl
@[simp] theorem State.updCtx_badCheck (s : State) (c : Nat) (f : Ctx → Ctx) : (s.updCtx c f).badCheck = s.badCheck := rfl
@[simp] theorem State.updCtx_flaws (s : State) (c : Nat) (f : Ctx → Ctx) : (s.updCtx c f).flaws = s.flaws := rfl
@[simp] theorem State.updCtx_transit (s : State) (c : Nat) (f : Ctx → Ctx) : (s.updCtx c f).transit = s.transit := rfl
@[simp] theorem State.updCtx_media (s : State) (c : Nat) (f : Ctx → Ctx) : (s.updCtx c f).media = s.media := rfl
@[simp] theorem State.updCtx_mediaPoison (s : State) (c : Nat) (f : Ctx → Ctx) : (s.updCtx c f).mediaPoison = s.mediaPoison := rfl
@[simp] theorem State.updCtx_persists (s : State) (c : Nat) (f : Ctx → Ctx) : (s.updCtx c f).persists = s.persists := rfl
@[simp] theorem State.updCtx_lineMeta (s : State) (c : Nat) (f : Ctx → Ctx) : (s.updCtx c f).lineMeta = s.lineMeta := rfl
@[simp] theorem State.updCtx_l1 (s : State) (c : Nat) (f : Ctx → Ctx) : (s.updCtx c f).l1 = s.l1 := rfl
@[simp] theorem State.updCtx_l2 (s : State) (c : Nat) (f : Ctx → Ctx) : (s.updCtx c f).l2 = s.l2 := rfl
@[simp] theorem State.updCtx_written (s : State) (c : Nat) (f : Ctx → Ctx) : (s.updCtx c f).written = s.written := rfl
@[simp] theorem State.updCtx_backs (s : State) (c : Nat) (f : Ctx → Ctx) : (s.updCtx c f).backs = s.backs := rfl
@[simp] theorem State.updCtx_icache (s : State) (c : Nat) (f : Ctx → Ctx) : (s.updCtx c f).icache = s.icache := rfl
@[simp] theorem State.updCtx_dir (s : State) (c : Nat) (f : Ctx → Ctx) : (s.updCtx c f).dir = s.dir := rfl
@[simp] theorem State.updCtx_agents (s : State) (c : Nat) (f : Ctx → Ctx) : (s.updCtx c f).agents = s.agents := rfl
@[simp] theorem State.updCtx_msgs (s : State) (c : Nat) (f : Ctx → Ctx) : (s.updCtx c f).msgs = s.msgs := rfl
@[simp] theorem State.updCtx_tlbs (s : State) (c : Nat) (f : Ctx → Ctx) : (s.updCtx c f).tlbs = s.tlbs := rfl
@[simp] theorem State.updCtx_pageReqs (s : State) (c : Nat) (f : Ctx → Ctx) : (s.updCtx c f).pageReqs = s.pageReqs := rfl
@[simp] theorem State.updCtx_sideLog (s : State) (c : Nat) (f : Ctx → Ctx) : (s.updCtx c f).sideLog = s.sideLog := rfl
@[simp] theorem State.updCtx_invals (s : State) (c : Nat) (f : Ctx → Ctx) : (s.updCtx c f).invals = s.invals := rfl
@[simp] theorem State.updCtx_groups (s : State) (c : Nat) (f : Ctx → Ctx) : (s.updCtx c f).groups = s.groups := rfl
@[simp] theorem State.updCtx_teams (s : State) (c : Nat) (f : Ctx → Ctx) : (s.updCtx c f).teams = s.teams := rfl
@[simp] theorem State.updCtx_gangs (s : State) (c : Nat) (f : Ctx → Ctx) : (s.updCtx c f).gangs = s.gangs := rfl
@[simp] theorem State.updCtx_ctxs (s : State) (c : Nat) (f : Ctx → Ctx) : (s.updCtx c f).ctxs = aupd s.ctxs c f := rfl
@[simp] theorem State.updCtx_engines (s : State) (c : Nat) (f : Ctx → Ctx) : (s.updCtx c f).engines = s.engines := rfl
@[simp] theorem State.updCtx_copyOps (s : State) (c : Nat) (f : Ctx → Ctx) : (s.updCtx c f).copyOps = s.copyOps := rfl
@[simp] theorem State.updCtx_chases (s : State) (c : Nat) (f : Ctx → Ctx) : (s.updCtx c f).chases = s.chases := rfl
@[simp] theorem State.updCtx_listOps (s : State) (c : Nat) (f : Ctx → Ctx) : (s.updCtx c f).listOps = s.listOps := rfl
@[simp] theorem State.updCtx_rowOps (s : State) (c : Nat) (f : Ctx → Ctx) : (s.updCtx c f).rowOps = s.rowOps := rfl
@[simp] theorem State.updCtx_kvups (s : State) (c : Nat) (f : Ctx → Ctx) : (s.updCtx c f).kvups = s.kvups := rfl
@[simp] theorem State.updCtx_laneFails (s : State) (c : Nat) (f : Ctx → Ctx) : (s.updCtx c f).laneFails = s.laneFails := rfl
@[simp] theorem State.updCtx_mcasts (s : State) (c : Nat) (f : Ctx → Ctx) : (s.updCtx c f).mcasts = s.mcasts := rfl
@[simp] theorem State.updCtx_mcastVersion (s : State) (c : Nat) (f : Ctx → Ctx) : (s.updCtx c f).mcastVersion = s.mcastVersion := rfl
@[simp] theorem State.updCtx_krcps (s : State) (c : Nat) (f : Ctx → Ctx) : (s.updCtx c f).krcps = s.krcps := rfl
@[simp] theorem State.updCtx_egress (s : State) (c : Nat) (f : Ctx → Ctx) : (s.updCtx c f).egress = s.egress := rfl
@[simp] theorem State.updCtx_parts (s : State) (c : Nat) (f : Ctx → Ctx) : (s.updCtx c f).parts = s.parts := rfl
@[simp] theorem State.updCtx_remotes (s : State) (c : Nat) (f : Ctx → Ctx) : (s.updCtx c f).remotes = s.remotes := rfl
@[simp] theorem State.updCtx_planWritten (s : State) (c : Nat) (f : Ctx → Ctx) : (s.updCtx c f).planWritten = s.planWritten := rfl
@[simp] theorem State.updCtx_planApplied (s : State) (c : Nat) (f : Ctx → Ctx) : (s.updCtx c f).planApplied = s.planApplied := rfl
@[simp] theorem State.updCtx_planEpoch (s : State) (c : Nat) (f : Ctx → Ctx) : (s.updCtx c f).planEpoch = s.planEpoch := rfl
@[simp] theorem State.updCtx_planResult (s : State) (c : Nat) (f : Ctx → Ctx) : (s.updCtx c f).planResult = s.planResult := rfl
@[simp] theorem State.updCtx_planBusy (s : State) (c : Nat) (f : Ctx → Ctx) : (s.updCtx c f).planBusy = s.planBusy := rfl
@[simp] theorem State.updCtx_links (s : State) (c : Nat) (f : Ctx → Ctx) : (s.updCtx c f).links = s.links := rfl
@[simp] theorem State.updCtx_retries (s : State) (c : Nat) (f : Ctx → Ctx) : (s.updCtx c f).retries = s.retries := rfl
@[simp] theorem State.updCtx_unreachable (s : State) (c : Nat) (f : Ctx → Ctx) : (s.updCtx c f).unreachable = s.unreachable := rfl
@[simp] theorem State.updCtx_memReqs (s : State) (c : Nat) (f : Ctx → Ctx) : (s.updCtx c f).memReqs = s.memReqs := rfl
@[simp] theorem State.updCtx_misses (s : State) (c : Nat) (f : Ctx → Ctx) : (s.updCtx c f).misses = s.misses := rfl
@[simp] theorem State.updCtx_lags (s : State) (c : Nat) (f : Ctx → Ctx) : (s.updCtx c f).lags = s.lags := rfl
@[simp] theorem State.updCtx_rowActs (s : State) (c : Nat) (f : Ctx → Ctx) : (s.updCtx c f).rowActs = s.rowActs := rfl
@[simp] theorem State.updCtx_corrected (s : State) (c : Nat) (f : Ctx → Ctx) : (s.updCtx c f).corrected = s.corrected := rfl
@[simp] theorem State.updCtx_errRing (s : State) (c : Nat) (f : Ctx → Ctx) : (s.updCtx c f).errRing = s.errRing := rfl
@[simp] theorem State.updCtx_memStacks (s : State) (c : Nat) (f : Ctx → Ctx) : (s.updCtx c f).memStacks = s.memStacks := rfl
@[simp] theorem State.updCtx_snap (s : State) (c : Nat) (f : Ctx → Ctx) : (s.updCtx c f).snap = s.snap := rfl
@[simp] theorem State.updCtx_queues (s : State) (c : Nat) (f : Ctx → Ctx) : (s.updCtx c f).queues = s.queues := rfl
@[simp] theorem State.updCtx_resumeList (s : State) (c : Nat) (f : Ctx → Ctx) : (s.updCtx c f).resumeList = s.resumeList := rfl
@[simp] theorem State.updCtx_slice (s : State) (c : Nat) (f : Ctx → Ctx) : (s.updCtx c f).slice = s.slice := rfl
@[simp] theorem State.updCtx_waiting (s : State) (c : Nat) (f : Ctx → Ctx) : (s.updCtx c f).waiting = s.waiting := rfl
@[simp] theorem State.updCtx_reserving (s : State) (c : Nat) (f : Ctx → Ctx) : (s.updCtx c f).reserving = s.reserving := rfl
@[simp] theorem State.updCtx_fetched (s : State) (c : Nat) (f : Ctx → Ctx) : (s.updCtx c f).fetched = s.fetched := rfl
@[simp] theorem State.updCtx_admitting (s : State) (c : Nat) (f : Ctx → Ctx) : (s.updCtx c f).admitting = s.admitting := rfl
@[simp] theorem State.updCtx_boot (s : State) (c : Nat) (f : Ctx → Ctx) : (s.updCtx c f).boot = s.boot := rfl
@[simp] theorem State.updCtx_cfg (s : State) (c : Nat) (f : Ctx → Ctx) : (s.updCtx c f).cfg = s.cfg := rfl
@[simp] theorem State.updCtx_rollback (s : State) (c : Nat) (f : Ctx → Ctx) : (s.updCtx c f).rollback = s.rollback := rfl
@[simp] theorem State.updCtx_leaf (s : State) (c : Nat) (f : Ctx → Ctx) : (s.updCtx c f).leaf = s.leaf := rfl
@[simp] theorem State.updCtx_power (s : State) (c : Nat) (f : Ctx → Ctx) : (s.updCtx c f).power = s.power := rfl
@[simp] theorem State.updCtx_ports (s : State) (c : Nat) (f : Ctx → Ctx) : (s.updCtx c f).ports = s.ports := rfl
@[simp] theorem State.updCtx_killing (s : State) (c : Nat) (f : Ctx → Ctx) : (s.updCtx c f).killing = s.killing := rfl
@[simp] theorem State.updCtx_replies (s : State) (c : Nat) (f : Ctx → Ctx) : (s.updCtx c f).replies = s.replies := rfl
@[simp] theorem State.updCtx_events (s : State) (c : Nat) (f : Ctx → Ctx) : (s.updCtx c f).events = s.events := rfl

/-! ### `State.post` -/

@[simp] theorem State.post_clock (s : State) (e : Event) : (s.post e).clock = s.clock := rfl
@[simp] theorem State.post_time (s : State) (e : Event) : (s.post e).time = s.time := rfl
@[simp] theorem State.post_turns (s : State) (e : Event) : (s.post e).turns = s.turns := rfl
@[simp] theorem State.post_input (s : State) (e : Event) : (s.post e).input = s.input := rfl
@[simp] theorem State.post_cur (s : State) (e : Event) : (s.post e).cur = s.cur := rfl
@[simp] theorem State.post_word (s : State) (e : Event) : (s.post e).word = s.word := rfl
@[simp] theorem State.post_stalled (s : State) (e : Event) : (s.post e).stalled = s.stalled := rfl
@[simp] theorem State.post_blocked (s : State) (e : Event) : (s.post e).blocked = s.blocked := rfl
@[simp] theorem State.post_draws (s : State) (e : Event) : (s.post e).draws = s.draws := rfl
@[simp] theorem State.post_nextId (s : State) (e : Event) : (s.post e).nextId = s.nextId := rfl
@[simp] theorem State.post_mem (s : State) (e : Event) : (s.post e).mem = s.mem := rfl
@[simp] theorem State.post_poison (s : State) (e : Event) : (s.post e).poison = s.poison := rfl
@[simp] theorem State.post_badCheck (s : State) (e : Event) : (s.post e).badCheck = s.badCheck := rfl
@[simp] theorem State.post_flaws (s : State) (e : Event) : (s.post e).flaws = s.flaws := rfl
@[simp] theorem State.post_transit (s : State) (e : Event) : (s.post e).transit = s.transit := rfl
@[simp] theorem State.post_media (s : State) (e : Event) : (s.post e).media = s.media := rfl
@[simp] theorem State.post_mediaPoison (s : State) (e : Event) : (s.post e).mediaPoison = s.mediaPoison := rfl
@[simp] theorem State.post_persists (s : State) (e : Event) : (s.post e).persists = s.persists := rfl
@[simp] theorem State.post_lineMeta (s : State) (e : Event) : (s.post e).lineMeta = s.lineMeta := rfl
@[simp] theorem State.post_l1 (s : State) (e : Event) : (s.post e).l1 = s.l1 := rfl
@[simp] theorem State.post_l2 (s : State) (e : Event) : (s.post e).l2 = s.l2 := rfl
@[simp] theorem State.post_written (s : State) (e : Event) : (s.post e).written = s.written := rfl
@[simp] theorem State.post_backs (s : State) (e : Event) : (s.post e).backs = s.backs := rfl
@[simp] theorem State.post_icache (s : State) (e : Event) : (s.post e).icache = s.icache := rfl
@[simp] theorem State.post_dir (s : State) (e : Event) : (s.post e).dir = s.dir := rfl
@[simp] theorem State.post_agents (s : State) (e : Event) : (s.post e).agents = s.agents := rfl
@[simp] theorem State.post_msgs (s : State) (e : Event) : (s.post e).msgs = s.msgs := rfl
@[simp] theorem State.post_tlbs (s : State) (e : Event) : (s.post e).tlbs = s.tlbs := rfl
@[simp] theorem State.post_pageReqs (s : State) (e : Event) : (s.post e).pageReqs = s.pageReqs := rfl
@[simp] theorem State.post_sideLog (s : State) (e : Event) : (s.post e).sideLog = s.sideLog := rfl
@[simp] theorem State.post_invals (s : State) (e : Event) : (s.post e).invals = s.invals := rfl
@[simp] theorem State.post_groups (s : State) (e : Event) : (s.post e).groups = s.groups := rfl
@[simp] theorem State.post_teams (s : State) (e : Event) : (s.post e).teams = s.teams := rfl
@[simp] theorem State.post_gangs (s : State) (e : Event) : (s.post e).gangs = s.gangs := rfl
@[simp] theorem State.post_ctxs (s : State) (e : Event) : (s.post e).ctxs = s.ctxs := rfl
@[simp] theorem State.post_engines (s : State) (e : Event) : (s.post e).engines = s.engines := rfl
@[simp] theorem State.post_copyOps (s : State) (e : Event) : (s.post e).copyOps = s.copyOps := rfl
@[simp] theorem State.post_chases (s : State) (e : Event) : (s.post e).chases = s.chases := rfl
@[simp] theorem State.post_listOps (s : State) (e : Event) : (s.post e).listOps = s.listOps := rfl
@[simp] theorem State.post_rowOps (s : State) (e : Event) : (s.post e).rowOps = s.rowOps := rfl
@[simp] theorem State.post_kvups (s : State) (e : Event) : (s.post e).kvups = s.kvups := rfl
@[simp] theorem State.post_laneFails (s : State) (e : Event) : (s.post e).laneFails = s.laneFails := rfl
@[simp] theorem State.post_mcasts (s : State) (e : Event) : (s.post e).mcasts = s.mcasts := rfl
@[simp] theorem State.post_mcastVersion (s : State) (e : Event) : (s.post e).mcastVersion = s.mcastVersion := rfl
@[simp] theorem State.post_krcps (s : State) (e : Event) : (s.post e).krcps = s.krcps := rfl
@[simp] theorem State.post_egress (s : State) (e : Event) : (s.post e).egress = s.egress := rfl
@[simp] theorem State.post_parts (s : State) (e : Event) : (s.post e).parts = s.parts := rfl
@[simp] theorem State.post_remotes (s : State) (e : Event) : (s.post e).remotes = s.remotes := rfl
@[simp] theorem State.post_planWritten (s : State) (e : Event) : (s.post e).planWritten = s.planWritten := rfl
@[simp] theorem State.post_planApplied (s : State) (e : Event) : (s.post e).planApplied = s.planApplied := rfl
@[simp] theorem State.post_planEpoch (s : State) (e : Event) : (s.post e).planEpoch = s.planEpoch := rfl
@[simp] theorem State.post_planResult (s : State) (e : Event) : (s.post e).planResult = s.planResult := rfl
@[simp] theorem State.post_planBusy (s : State) (e : Event) : (s.post e).planBusy = s.planBusy := rfl
@[simp] theorem State.post_links (s : State) (e : Event) : (s.post e).links = s.links := rfl
@[simp] theorem State.post_retries (s : State) (e : Event) : (s.post e).retries = s.retries := rfl
@[simp] theorem State.post_unreachable (s : State) (e : Event) : (s.post e).unreachable = s.unreachable := rfl
@[simp] theorem State.post_memReqs (s : State) (e : Event) : (s.post e).memReqs = s.memReqs := rfl
@[simp] theorem State.post_misses (s : State) (e : Event) : (s.post e).misses = s.misses := rfl
@[simp] theorem State.post_lags (s : State) (e : Event) : (s.post e).lags = s.lags := rfl
@[simp] theorem State.post_rowActs (s : State) (e : Event) : (s.post e).rowActs = s.rowActs := rfl
@[simp] theorem State.post_corrected (s : State) (e : Event) : (s.post e).corrected = s.corrected := rfl
@[simp] theorem State.post_errRing (s : State) (e : Event) : (s.post e).errRing = s.errRing := rfl
@[simp] theorem State.post_memStacks (s : State) (e : Event) : (s.post e).memStacks = s.memStacks := rfl
@[simp] theorem State.post_snap (s : State) (e : Event) : (s.post e).snap = s.snap := rfl
@[simp] theorem State.post_queues (s : State) (e : Event) : (s.post e).queues = s.queues := rfl
@[simp] theorem State.post_resumeList (s : State) (e : Event) : (s.post e).resumeList = s.resumeList := rfl
@[simp] theorem State.post_slice (s : State) (e : Event) : (s.post e).slice = s.slice := rfl
@[simp] theorem State.post_waiting (s : State) (e : Event) : (s.post e).waiting = s.waiting := rfl
@[simp] theorem State.post_reserving (s : State) (e : Event) : (s.post e).reserving = s.reserving := rfl
@[simp] theorem State.post_fetched (s : State) (e : Event) : (s.post e).fetched = s.fetched := rfl
@[simp] theorem State.post_admitting (s : State) (e : Event) : (s.post e).admitting = s.admitting := rfl
@[simp] theorem State.post_boot (s : State) (e : Event) : (s.post e).boot = s.boot := rfl
@[simp] theorem State.post_cfg (s : State) (e : Event) : (s.post e).cfg = s.cfg := rfl
@[simp] theorem State.post_rollback (s : State) (e : Event) : (s.post e).rollback = s.rollback := rfl
@[simp] theorem State.post_leaf (s : State) (e : Event) : (s.post e).leaf = s.leaf := rfl
@[simp] theorem State.post_power (s : State) (e : Event) : (s.post e).power = s.power := rfl
@[simp] theorem State.post_ports (s : State) (e : Event) : (s.post e).ports = s.ports := rfl
@[simp] theorem State.post_killing (s : State) (e : Event) : (s.post e).killing = s.killing := rfl
@[simp] theorem State.post_replies (s : State) (e : Event) : (s.post e).replies = s.replies := rfl
@[simp] theorem State.post_events (s : State) (e : Event) : (s.post e).events = s.events ++ [e] := rfl

/-! ### Waiting -/

/-- A word that did not have to wait leaves the group as the word made it. -/
theorem State.afterPlain_of {s : State} (h : s.stalled = false) (gid : Nat) : s.afterPlain gid = s := by
  simp only [State.afterPlain, h, Bool.false_and, Bool.false_eq_true, if_false]

/-- One that could not issue leaves the state as it was. -/
theorem State.afterPlain_block (s : State) (gid : Nat) : s.block.afterPlain gid = s.block := rfl

end Sys2Proof.Machine
end

