-- ==== Sys2Proof/Laws/Words.lean ====
section
/-!
SUPPORT. What the shared executors of words do when nothing keeps a word from completing: one lemma for each.
-/
namespace Sys2Proof.Machine

/-- A word of a group that acts. -/
theorem onGroup_next {s : State} {gid : Nat} {g : Group} (h : s.Acts gid g) (f : Nat → Group → State) :
    onGroup s f = .next (f gid g) := by
  simp only [onGroup, h.turn, h.is]

/-- A word that is no chain member. -/
theorem onGroupPlain_next {s : State} {gid : Nat} {g : Group} (h : s.Acts gid g) (f : Nat → Group → State) :
    onGroupPlain s f = .next ((f gid g.endChain).afterPlain gid) := onGroup_next h _

/-- One that does not have to wait. -/
theorem onGroupPlain_done {s : State} {gid : Nat} {g : Group} (h : s.Acts gid g) {f : Nat → Group → State}
    (hf : (f gid g.endChain).stalled = false) : onGroupPlain s f = .next (f gid g.endChain) := by
  rw [onGroupPlain_next h, State.afterPlain_of hf]

/-- The traps that reads meet depend on the marks and the window alone. -/
theorem Group.deferred?_congr {g h : Group} (hm : h.marks = g.marks) (hw : h.wbase = g.wbase)
    (reads : List (RegRef × Word32)) : h.deferred? reads = g.deferred? reads := by
  have : h.markHit = g.markHit := by
    funext k r m; cases r <;> simp only [Group.markHit, hw]
  simp only [Group.deferred?, hm, this]

/-- So do the waits on the pending registers and the window. -/
theorem Group.anyPending_congr {g h : Group} (hp : h.pend = g.pend) (hw : h.wbase = g.wbase) (rs : List RegRef) :
    h.anyPending rs = g.anyPending rs := by
  simp only [Group.anyPending, hp, hw]

/-- A word that nothing holds up goes on. -/
theorem State.ready_free {s : State} {gid : Nat} {g : Group} {reads : List (RegRef × Word32)} {writes : List RegRef}
    (h : g.Free reads writes) (k : State) : s.ready gid g reads writes k = k := by
  simp only [State.ready, h.here, h.clean, Bool.false_eq_true, if_false]

/-- A free group stays free when its chain ends. -/
theorem Group.Free.endChain {g : Group} {reads : List (RegRef × Word32)} {writes : List RegRef} (h : g.Free reads writes) :
    g.endChain.Free reads writes := ⟨h.here, h.clean⟩

/-- A chain member that nothing holds up goes on, in its chain. -/
theorem State.member_free {s : State} {gid : Nat} {g : Group} {ks : List Nat} {reads : List (RegRef × Word32)}
    {writes : List RegRef} (hl : g.Latched ks) (h : g.Free reads writes) (k : Group → State) :
    s.member gid g ks reads writes k = k g.chainFor := by
  have h1 : (ks.find? fun b => decide (g.chainFor.chain.vecs < b + 1)) = none := by
    rw [List.find?_eq_none]
    intro b hb
    have := hl b hb
    simp only [decide_eq_true_eq]
    omega
  have h2 : g.chainFor.anyPending (refsOf reads ++ writes) = false := by
    rw [Group.anyPending_congr (Group.chainFor_pend g) (Group.chainFor_wbase g)]; exact h.here
  have h3 : ∀ gt : Group, gt.marks = g.marks → gt.wbase = g.wbase → gt.deferred? reads = none := fun gt hm hw => by
    rw [Group.deferred?_congr hm hw]; exact h.clean
  unfold State.member
  simp only [h1, h2, Bool.false_eq_true, if_false]
  split
  · rename_i t ht
    split at ht
    · rw [h3 _ (Group.chainFor_marks g) (Group.chainFor_wbase g)] at ht; cases ht
    · rw [h3 g.endChain rfl rfl] at ht; cases ht
  · rfl

/-- A position of the stack after a write to a register of the window. -/
theorem Group.posLane_setV (g : Group) (n p l : Nat) (m : Word32) (f : Nat → Word32) (hl : l < 32) :
    (g.setV n m f).posLane p l = if p = g.wbase + n ∧ m.getLsbD l = true then f l else g.posLane p l := by
  show (agetD (aset g.vregs (g.wbase + n) _) p []).at l = _
  rw [agetD_aset]
  by_cases hk : p = g.wbase + n
  · subst hk
    simp only [if_true, Lanes.at_make, hl, true_and]
    rfl
  · simp only [hk, if_false, false_and]
    rfl

/-- A position of the stack after the results of a member are written. -/
theorem Group.posLane_writeOuts (g : Group) (d : VDst) (m : Word32) (o : List LaneOut) (p l : Nat) (hl : l < 32) :
    (g.writeOuts d m o).posLane p l =
      if m.getLsbD l = true then d.put g.wbase p (outAt o l).r (g.posLane p l) else g.posLane p l := by
  have key : (g.writeOuts d m o).posLane p l = (if d.nw then g
      else if d.wide then g.setV64 d.d m fun l => (outAt o l).r
      else g.setV d.d m fun l => lo32 (outAt o l).r).posLane p l := by
    unfold Group.writeOuts Group.posLane
    cases hn : d.nw <;> cases hw : d.wide <;> simp
  rw [key, VDst.put]
  cases hnw : d.nw
  · simp only [Bool.false_eq_true, if_false]
    cases hw : d.wide
    · simp only [Bool.false_eq_true, if_false, false_and, Group.posLane_setV _ _ _ _ _ _ hl]
      by_cases h1 : p = g.wbase + d.d <;> by_cases h2 : m.getLsbD l = true <;> simp [h1, h2]
    · have hwb : (g.setV d.d m fun l => lo32 (outAt o l).r).wbase = g.wbase := rfl
      simp only [if_true, true_and, Group.setV64, Group.posLane_setV _ _ _ _ _ _ hl, hwb]
      by_cases h1 : p = g.wbase + (d.d + 1) <;> by_cases h2 : m.getLsbD l = true <;> by_cases h3 : p = g.wbase + d.d <;>
        simp [h1, h2, h3, ← Nat.add_assoc]
  · simp

/-- The marks that stay after the results of a member are written. -/
theorem Group.mem_marks_writeOuts (g : Group) (d : VDst) (m : Word32) (o : List LaneOut) (k : Mark) :
    k ∈ (g.writeOuts d m o).marks ↔
      k ∈ g.marks ∧ ¬(k.scalar = false ∧ m.getLsbD k.lane = true ∧ d.hits g.wbase k.reg) := by
  have hn : ∀ (g : Group) (x : Option (BitVec 22)), (g.noteNan x).marks = g.marks := fun g x => by cases x <;> rfl
  have hv : ∀ (g : Group) (n : Nat) (f : Nat → Word32), (g.setV n m f).marks =
      g.marks.filter fun k => k.scalar || k.reg != g.wbase + n || !m.getLsbD k.lane := fun _ _ _ => rfl
  unfold Group.writeOuts VDst.hits
  simp only [hn, Group.raise]
  cases hnw : d.nw
  · cases hw : d.wide
    · simp only [Bool.false_eq_true, if_false, hv, List.mem_filter]
      cases k.scalar <;> cases m.getLsbD k.lane <;> simp
    · have hwb : (g.setV d.d m fun l => lo32 (outAt o l).r).wbase = g.wbase := rfl
      simp only [Bool.false_eq_true, if_false, if_true, Group.setV64, hv, hwb, List.mem_filter]
      cases k.scalar <;> cases m.getLsbD k.lane <;> simp [Nat.add_assoc, and_assoc]
  · simp

/-- The lanes that execute depend on the word indices, the parked and live lanes and `em`. -/
theorem Group.active_congr {g h : Group} (h1 : h.live = g.live) (h2 : h.parks = g.parks) (h3 : h.lpc = g.lpc)
    (h4 : h.em = g.em) : h.active = g.active := by
  simp only [Group.active, (Group.issue_congr h1 h2 h3).2, h4]

@[simp] theorem Group.active_chainFor (g : Group) : g.chainFor.active = g.active :=
  Group.active_congr (by simp) (by simp) (by simp) (by simp)

/-- The advance of a group whose lanes stand as another's. -/
theorem Group.Advanced.of {g h : Group} (h1 : h.live = g.live) (h2 : h.parks = g.parks) (h3 : h.lpc = g.lpc) :
    g.Advanced h.advance := by
  intro l hl
  have hp : h.pcOf = g.pcOf := by funext l; simp only [Group.pcOf, h3]
  obtain ⟨hi, ha⟩ := Group.issue_congr h1 h2 h3
  rw [Group.pcOf_advance h l hl, ha, hi, hp]

@[simp] theorem Chain.noteVec_vecs (c : Chain) (p : Nat) (o : Lanes) (ms : List Mark) : (c.noteVec p o ms).vecs = c.vecs := by
  unfold Chain.noteVec; split <;> rfl
@[simp] theorem Chain.noteVec_members (c : Chain) (p : Nat) (o : Lanes) (ms : List Mark) :
    (c.noteVec p o ms).members = c.members := by
  unfold Chain.noteVec; split <;> rfl
@[simp] theorem Chain.noteSca_vecs (c : Chain) (n : Nat) (o : Word64) (ms : List Mark) : (c.noteSca n o ms).vecs = c.vecs := by
  unfold Chain.noteSca; split <;> rfl
@[simp] theorem Chain.noteSca_members (c : Chain) (n : Nat) (o : Word64) (ms : List Mark) :
    (c.noteSca n o ms).members = c.members := by
  unfold Chain.noteSca; split <;> rfl
@[simp] theorem Chain.noteMask_vecs (c : Chain) (n : Nat) (o : Word32) : (c.noteMask n o).vecs = c.vecs := by
  unfold Chain.noteMask; split <;> rfl
@[simp] theorem Chain.noteMask_members (c : Chain) (n : Nat) (o : Word32) : (c.noteMask n o).members = c.members := by
  unfold Chain.noteMask; split <;> rfl

/-- Writing results leaves the counts of the chain. -/
theorem Group.writeOuts_counts (g : Group) (d : VDst) (m : Word32) (o : List LaneOut) :
    (g.writeOuts d m o).chain.vecs = g.chain.vecs ∧ (g.writeOuts d m o).chain.members = g.chain.members := by
  have hs : ∀ (g : Group) (n : Nat) (f : Nat → Word32), (g.setV n m f).chain.vecs = g.chain.vecs ∧
      (g.setV n m f).chain.members = g.chain.members := fun g n f => by
    constructor
    · exact Chain.noteVec_vecs _ _ _ _
    · exact Chain.noteVec_members _ _ _ _
  have hr : ∀ (g : Group) (x : Option (BitVec 22)), (g.noteNan x).chain = g.chain := fun g x => by cases x <;> rfl
  unfold Group.writeOuts
  simp only [hr, Group.raise]
  split
  · exact ⟨rfl, rfl⟩
  · split
    · unfold Group.setV64
      exact ⟨(hs _ _ _).1.trans (hs _ _ _).1, (hs _ _ _).2.trans (hs _ _ _).2⟩
    · exact hs _ _ _

/-- The group after a member issued. -/
def Group.memberEnd (g : Group) (count vecs now : Nat) : Group :=
  let c := g.chain
  { ({ g with chain := { c with members := c.members + count, vecs := c.vecs + vecs } }).advance with
    lastIssue := g.issuedAt now, begun := false }

theorem State.memberDone_eq (s : State) (gid : Nat) (g : Group) (count vecs : Nat) :
    s.memberDone gid g count vecs = { s with groups := aset s.groups gid (g.memberEnd count vecs s.clock) } := rfl

/-- A member completes at its clock, or when its group began to wait. -/
theorem Group.memberEnd_completed {g h : Group} (count vecs now : Nat) (hl : h.lastIssue = g.lastIssue) (hb : h.begun = g.begun) :
    g.CompletedAt (h.memberEnd count vecs now) now := by
  refine ⟨?_, rfl⟩
  show h.issuedAt now = g.issuedAt now
  simp only [Group.issuedAt, hl, hb]

/-- A member's end leaves what every word leaves. -/
theorem Group.Kept.memberEnd {g h : Group} (k : g.Kept h) (count vecs now : Nat) : g.Kept (h.memberEnd count vecs now) :=
  { k with }

/-- A vector member that completes (05 R103). -/
theorem Group.vectorDone {g : Group} (d : VDst) (outs : List LaneOut) (now : Nat) :
    g.VectorDone (((g.chainFor.writeOuts d g.active outs).shiftLatches g.active fun l => (outAt outs l).r).memberEnd 1 1 now)
      d outs := by
  generalize hw : g.chainFor.writeOuts d g.active outs = w
  have hwl : w.latches = g.chainFor.latches := by subst hw; simp
  exact
    { kept := Group.Kept.memberEnd (by subst hw; constructor <;> simp) 1 1 now
      scalars := fun n => by subst hw; simp [Group.s, Group.memberEnd]
      masks := fun n => by subst hw; simp [Group.m, Group.memberEnd]
      vectors := fun p l hl => by
        show w.posLane p l = _
        rw [← hw, Group.posLane_writeOuts _ _ _ _ _ _ hl]
        simp [Group.posLane]
      marks := fun k => by
        show k ∈ w.marks ↔ _
        rw [← hw, Group.mem_marks_writeOuts]
        simp
      flags := by
        show w.fpflags = _
        subst hw
        cases h : (lanesOf g.active).findSome? fun l => (outAt outs l).nan <;>
          cases hn : d.nw <;> cases hd : d.wide <;> simp [Group.writeOuts, Group.raise, h, hn, hd]
      rng := fun l hl => by
        show w.rng.at l = _
        subst hw
        cases h : (lanesOf g.active).findSome? fun l => (outAt outs l).nan <;>
          simp [Group.writeOuts, h, Lanes.at_make, hl]
      nan := by
        show w.lastnan = _
        subst hw
        cases h : (lanesOf g.active).findSome? fun l => (outAt outs l).nan <;>
          cases hn : d.nw <;> cases hd : d.wide <;> simp [Group.writeOuts, Group.noteNan, h, hn, hd]
      latch0 := fun l hl => by
        show (laneIds.map fun l => if g.active.getLsbD l then (outAt outs l).r else 0).getD l 0 = _
        rw [getD_laneIds_map, if_pos hl]
      latches := fun k hk l _ => by
        show (([laneIds.map fun l => if g.active.getLsbD l then (outAt outs l).r else 0, w.latches.getD 0 [],
          w.latches.getD 1 [], w.latches.getD 2 []] : List (List Word64)).getD (k + 1) []).getD l 0 = _
        rw [hwl]
        have : k = 0 ∨ k = 1 ∨ k = 2 := by omega
        rcases this with rfl | rfl | rfl <;> rfl
      counted := by
        subst hw
        exact ⟨congrArg (· + 1) (g.chainFor.writeOuts_counts d g.active outs).1,
          congrArg (· + 1) (g.chainFor.writeOuts_counts d g.active outs).2⟩
      advanced := Group.Advanced.of (h := { (w.shiftLatches g.active fun l => (outAt outs l).r) with chain := _ })
        (by subst hw; simp) (by subst hw; simp) (by subst hw; simp) }

/-- A vector member that nothing holds up completes. -/
theorem runVecG_completes {s : State} {gid : Nat} {g : Group} (d : VDst) (a b : VSrc) (extra : Group → List (RegRef × Word32))
    (f : Group → LaneIn → LaneOut) (h : s.Acts gid g) (hl : g.Latched (VecForm.ofGroup d a b extra f).latches)
    (hf : g.Free ((VecForm.ofGroup d a b extra f).reads g) d.writes) :
    ∃ k, runVecG s d a b extra f = .next { s with groups := aset s.groups gid k } ∧ g.CompletedAt k s.clock ∧
      g.VectorDone k d ((VecForm.ofGroup d a b extra f).outs g.chainFor) := by
  refine ⟨_, ?_, ?_, g.vectorDone d _ s.clock⟩
  · unfold runVecG
    rw [onGroup_next h]
    exact congrArg Host.Outcome.next (State.member_free (s := s) (gid := gid) hl hf _)
  · exact Group.memberEnd_completed 1 1 s.clock (by simp) (by simp)

/-- A word that writes one scalar completes. -/
theorem runOnce_scalar {s : State} {gid : Nat} {g : Group} (F : OnceForm Word64) (f : Group → Group)
    (hf : f g.chainFor = (g.chainFor.setS F.d (F.value g)).raise (F.flags g)) (h : s.Acts gid g)
    (hfree : g.Free (F.reads g) [.s F.d]) :
    ∃ k, runOnce s F.reads [.s F.d] f = .next { s with groups := aset s.groups gid k } ∧ g.CompletedAt k s.clock ∧
      g.ScalarDone k F := by
  refine ⟨(f g.chainFor).memberEnd 1 0 s.clock, ?_, ?_, ?_⟩
  · unfold runOnce
    rw [onGroup_next h]
    exact congrArg Host.Outcome.next (State.member_free (s := s) (gid := gid) (fun _ h => by cases h) hfree _)
  · rw [hf]
    exact Group.memberEnd_completed 1 0 s.clock (by simp) (by simp)
  · rw [hf]
    exact
      { kept := Group.Kept.memberEnd (by constructor <;> simp) 1 0 s.clock
        vectors := fun p l _ => by simp [Group.posLane, Group.memberEnd]
        masks := fun n => by simp [Group.m, Group.memberEnd]
        scalars := fun n => by
          refine Eq.trans (b := (g.chainFor.setS F.d (F.value g)).s n) rfl ?_
          rw [Group.s_setS, Group.s_chainFor]
        marks := fun k => by
          show k ∈ g.chainFor.marks.filter (fun k => !k.scalar || k.reg != F.d) ↔ _
          simp only [Group.chainFor_marks, List.mem_filter]
          cases k.scalar <;> simp
        flags := by show g.chainFor.fpflags ||| _ = _; simp
        float := by simp [Group.memberEnd]
        latches := fun k _ l _ => rfl
        counted := ⟨Chain.noteSca_vecs _ _ _ _, congrArg (· + 1) (Chain.noteSca_members _ _ _ _)⟩
        advanced := Group.Advanced.of (h := { (g.chainFor.setS F.d (F.value g)).raise (F.flags g) with chain := _ })
          (by simp) (by simp) (by simp) }

end Sys2Proof.Machine
end

