-- ==== Sys2Proof/Tests/Slice0.lean ====
section
/-!
SUPPORT. Tests: words written out from the spec's encodings, ill-formed terms, single steps, and for every statement a state
and operands that meet its hypotheses.
-/
namespace Sys2Proof.Tests
open Sys2Proof Sys2Proof.Machine

-- one theorem after another: the checks of many at once take more memory than there is
set_option Elab.async false

/-! ### Decoding: one word for every constructor, written out from 04 Tables 4.1 to 4.7 and 4.11 -/

def ve (d a b : Nat) (ty : Ty) (rnd : Rnd := .rn) (ftz sat : Bool := false) (ty2 sub : Nat := 0) : VArgs :=
  { d := .ofNat 10 d, a := .ofNat 10 a, b := .ofNat 10 b, la := false, lb := false, nw := false, ty := ty, rnd := rnd, ftz := ftz
    sat := sat, ty2 := .ofNat 4 ty2, sub := .ofNat 3 sub }
def im (d a imm : Nat) : IArgs := { d := .ofNat 10 d, a := .ofNat 10 a, la := false, nw := false, imm := .ofNat 26 imm }
def me (d a b : Nat) (off : Bool := false) (scope : Scope := .grp) (order : Order := .rlx) (hint svc : Nat := 0)
    (width : Width := .w8) : MArgs :=
  { d := .ofNat 10 d, a := .ofNat 10 a, b := .ofNat 10 b, off := off, scope := scope, order := order, hint := .ofNat 4 hint
    svc := .ofNat 2 svc, width := width }
def br (d a off : Nat) : BArgs := { d := .ofNat 10 d, a := .ofNat 10 a, off := .ofNat 26 off }
def tn (d a b : Nat) (tmap : Nat := 0) (rnd : Rnd := .rn) (ftz : Bool := false) (op : Nat := 0) : TArgs :=
  { d := .ofNat 10 d, a := .ofNat 10 a, b := .ofNat 10 b, tmap := .ofNat 4 tmap, rnd := rnd, ftz := ftz, op := .ofNat 8 op }
def sy (d a b : Nat) (imm : Nat := 0) : SArgs :=
  { d := .ofNat 10 d, a := .ofNat 10 a, b := .ofNat 10 b, imm := .ofNat 16 imm }

/-- Each word decodes to the instruction beside it, and that instruction encodes to the word. -/
def agree (ws : List (Nat × Instr)) : Bool :=
  ws.all fun e => decide (decodeTableWord 64 e.1 = some e.2) && decide (encode e.2 = some (BitVec.ofNat 64 e.1))

/-- Words of class 000. -/
theorem test_decodes_registers1 : agree [
    (0x0010140601C01000, .iadd (ve 5 6 7 .i32)),
    (0x0020140601C01000, .isub (ve 5 6 7 .i32)),
    (0x0030140601C00003, .iaddc (ve 5 6 7 .n32 (sub := 3))),
    (0x0040140601C01000, .iadds (ve 5 6 7 .i32)),
    (0x0050140601C01000, .imul (ve 5 6 7 .i32)),
    (0x0060140601C01000, .imulh (ve 5 6 7 .i32)),
    (0x0070140601C00000, .imad (ve 5 6 7 .n32)),
    (0x0080140601C01000, .idiv (ve 5 6 7 .i32)),
    (0x0090140601C01000, .irem (ve 5 6 7 .i32)),
    (0x00A0140601C01000, .imin (ve 5 6 7 .i32)),
    (0x00B0140601C01000, .imax (ve 5 6 7 .i32)),
    (0x00C0140600001080, .iabs (ve 5 6 0 .i32 (sat := true))),
    (0x00D0140600001080, .ineg (ve 5 6 0 .i32 (sat := true))),
    (0x00E00C0601C00004, .icmp (ve 3 6 7 .n32 (sub := 4))),
    (0x00F0140601C00006, .isel (ve 5 6 7 .n32 (sub := 6))),
    (0x0100140601C00000, .iclamp (ve 5 6 7 .n32)),
    (0x0110140601C06000, .isad (ve 5 6 7 .n8)),
    (0x0120100602002000, .iadd64 (ve 4 6 8 .n64)),
    (0x0130100602002000, .isub64 (ve 4 6 8 .n64)),
    (0x0140100602002000, .imul64 (ve 4 6 8 .n64))] = true := by decide +kernel

/-- Words of class 000. -/
theorem test_decodes_registers2 : agree [
    (0x0150100601C02004, .aadd (ve 4 6 7 .n64 (sub := 4))),
    (0x0160100601C02003, .alea (ve 4 6 7 .n64 (sub := 3))),
    (0x0400140601C00000, .and (ve 5 6 7 .n32)),
    (0x0410140601C00000, .or (ve 5 6 7 .n32)),
    (0x0420140601C00000, .xor (ve 5 6 7 .n32)),
    (0x0430140601C00000, .andn (ve 5 6 7 .n32)),
    (0x0440140600000000, .not (ve 5 6 0 .n32)),
    (0x0450140601C00000, .shl (ve 5 6 7 .n32)),
    (0x0460140601C00000, .shr (ve 5 6 7 .n32)),
    (0x0470140601C00000, .sar (ve 5 6 7 .n32)),
    (0x0480140601C00000, .rot (ve 5 6 7 .n32)),
    (0x0490140601C00000, .fshl (ve 5 6 7 .n32)),
    (0x04A0140601C00000, .fshr (ve 5 6 7 .n32)),
    (0x04B0140601C01000, .bfx (ve 5 6 7 .i32)),
    (0x04C0140601C00000, .bfi (ve 5 6 7 .n32)),
    (0x04D0140600000000, .popc (ve 5 6 0 .n32)),
    (0x04E0140600000000, .clz (ve 5 6 0 .n32)),
    (0x04F0140600000000, .brev (ve 5 6 0 .n32)),
    (0x0500140601C00000, .bytx (ve 5 6 7 .n32)),
    (0x1000140601C0A700, .fadd (ve 5 6 7 .f32 (rnd := .ru) (ftz := true)))] = true := by decide +kernel

/-- Words of class 000. -/
theorem test_decodes_registers3 : agree [
    (0x1010140601C0A700, .fsub (ve 5 6 7 .f32 (rnd := .ru) (ftz := true))),
    (0x1020140601C0A700, .fmul (ve 5 6 7 .f32 (rnd := .ru) (ftz := true))),
    (0x1030140601C0A200, .ffma (ve 5 6 7 .f32 (rnd := .rz))),
    (0x1040140601C0A100, .fmin (ve 5 6 7 .f32 (ftz := true))),
    (0x1050140601C0A100, .fmax (ve 5 6 7 .f32 (ftz := true))),
    (0x106014060000A100, .fabs (ve 5 6 0 .f32 (ftz := true))),
    (0x107014060000A100, .fneg (ve 5 6 0 .f32 (ftz := true))),
    (0x1080080601C0A005, .fcmp (ve 2 6 7 .f32 (sub := 5))),
    (0x109014060000A100, .fclass (ve 5 6 0 .f32 (ftz := true))),
    (0x10A014060000A400, .frcp (ve 5 6 0 .f32 (rnd := .rd))),
    (0x10B014060000A400, .frsq (ve 5 6 0 .f32 (rnd := .rd))),
    (0x10C014060000A400, .fsqrt (ve 5 6 0 .f32 (rnd := .rd))),
    (0x10D0140601C0A700, .fdiv (ve 5 6 7 .f32 (rnd := .ru) (ftz := true))),
    (0x10E014060000A400, .fex2 (ve 5 6 0 .f32 (rnd := .rd))),
    (0x10F014060000A400, .flg2 (ve 5 6 0 .f32 (rnd := .rd))),
    (0x110014060000A400, .ftanh (ve 5 6 0 .f32 (rnd := .rd))),
    (0x111014060000A400, .frnd (ve 5 6 0 .f32 (rnd := .rd))),
    (0x1120140601C0A700, .fscale (ve 5 6 7 .f32 (rnd := .ru) (ftz := true))),
    (0x1200140601C0C200, .hadd2 (ve 5 6 7 .bf16 (rnd := .rz))),
    (0x1210140601C0C200, .hmul2 (ve 5 6 7 .bf16 (rnd := .rz)))] = true := by decide +kernel

/-- Words of class 000. -/
theorem test_decodes_registers4 : agree [
    (0x1220140601C0C200, .hfma2 (ve 5 6 7 .bf16 (rnd := .rz))),
    (0x1230140601C0B000, .hdot2 (ve 5 6 7 .f16)),
    (0x140014060200A048, .dot4E4m3 (ve 5 6 8 .f32 (ty2 := 9))),
    (0x141014060200A048, .dot4E5m2 (ve 5 6 8 .f32 (ty2 := 9))),
    (0x142014060200A048, .dot4I8 (ve 5 6 8 .f32 (ty2 := 9))),
    (0x143014060200A048, .dot8E2m1 (ve 5 6 8 .f32 (ty2 := 9))),
    (0x144014060200A048, .dot8I4 (ve 5 6 8 .f32 (ty2 := 9))),
    (0x180014060000C750, .cvt (ve 5 6 0 .bf16 (rnd := .ru) (ftz := true) (ty2 := 10))),
    (0x181014060000D050, .qblk (ve 5 6 0 .e4m3 (ty2 := 10))),
    (0x1820140801C0F050, .qpack4 (ve 5 8 7 .e2m1 (ty2 := 10))),
    (0x1830140801C0D050, .qpack8 (ve 5 8 7 .e4m3 (ty2 := 10))),
    (0x1840140601C0A06A, .qunpk (ve 5 6 7 .f32 (ty2 := 13) (sub := 2))),
    (0x2000140600000000, .mov (ve 5 6 0 .n32)),
    (0x2020100600002000, .movs (ve 4 6 0 .n64)),
    (0x2050140601C00042, .shfl (ve 5 6 7 .n32 (ty2 := 8) (sub := 2))),
    (0x2060240600000001, .vote (ve 9 6 0 .n32 (sub := 1))),
    (0x2070140600000000, .matchV (ve 5 6 0 .n32)),
    (0x2080240600001001, .redux (ve 9 6 0 .i32 (sub := 1))),
    (0x209014060000000A, .scan (ve 5 6 0 .n32 (ty2 := 1) (sub := 2))),
    (0x2210080900000001, .mmov (ve 2 9 0 .n32 (sub := 1)))] = true := by decide +kernel

/-- Words of class 000. -/
theorem test_decodes_registers5 : agree [
    (0x2220080301000000, .mand (ve 2 3 4 .n32)),
    (0x2230080301000000, .mor (ve 2 3 4 .n32)),
    (0x2240080301000000, .mxor (ve 2 3 4 .n32)),
    (0x2250080300000000, .mnot (ve 2 3 0 .n32)),
    (0x2260240300000000, .mpopc (ve 9 3 0 .n32)),
    (0x2270240300000000, .mffs (ve 9 3 0 .n32)),
    (0x2400240A00002000, .smov (ve 9 10 0 .n64)),
    (0x2420240A02C02000, .sadd (ve 9 10 11 .n64)),
    (0x2430240A02C02000, .ssub (ve 9 10 11 .n64)),
    (0x2440240A02C02000, .smul (ve 9 10 11 .n64)),
    (0x2450240A02C02000, .sand (ve 9 10 11 .n64)),
    (0x2460240A02C02000, .sor (ve 9 10 11 .n64)),
    (0x2470240A02C02000, .sxor (ve 9 10 11 .n64)),
    (0x2480240A02C02000, .sshl (ve 9 10 11 .n64)),
    (0x2490240A02C03000, .sshr (ve 9 10 11 .i64)),
    (0x24A0240A02C03002, .scmp (ve 9 10 11 .i64 (sub := 2))),
    (0x3200140600000000, .tlook (ve 5 6 0 .n32)),
    (0x3210000601C00000, .tins (ve 0 6 7 .n32)),
    (0x3220000600000000, .tdrop (ve 0 6 0 .n32))] = true := by decide +kernel

/-- Words of class 001. -/
theorem test_decodes_immediates1 : agree [
    (0x00101406FFC1FFFE, .iaddImm (im 5 6 0x3fffffe)),
    (0x00201406FFC1FFFE, .isubImm (im 5 6 0x3fffffe)),
    (0x00501406FFC1FFFE, .imulImm (im 5 6 0x3fffffe)),
    (0x00A01406FFC1FFFE, .iminImm (im 5 6 0x3fffffe)),
    (0x00B01406FFC1FFFE, .imaxImm (im 5 6 0x3fffffe)),
    (0x017014000041BEEF, .imovw (im 5 0 0x1beef)),
    (0x04001406AA81AAAA, .andImm (im 5 6 0x2aaaaaa)),
    (0x04101406AA81AAAA, .orImm (im 5 6 0x2aaaaaa)),
    (0x04201406AA81AAAA, .xorImm (im 5 6 0x2aaaaaa)),
    (0x04301406AA81AAAA, .andnImm (im 5 6 0x2aaaaaa)),
    (0x045014060001001F, .shlImm (im 5 6 0x1f)),
    (0x046014060001001F, .shrImm (im 5 6 0x1f)),
    (0x047014060001001F, .sarImm (im 5 6 0x1f)),
    (0x048014060001001F, .rotImm (im 5 6 0x1f)),
    (0x2010140080010001, .movi (im 5 0 0x2000001)),
    (0x203024060001001F, .rdlane (im 9 6 0x1f)),
    (0x2040140900010003, .wrlane (im 5 9 0x3)),
    (0x2050140600010470, .shflImm (im 5 6 0x470)),
    (0x22000C0000010684, .mset (im 3 0 0x684)),
    (0x24102400FFC1FFFF, .smovi (im 9 0 0x3ffffff))] = true := by decide +kernel

/-- Words of class 001. -/
theorem test_decodes_immediates2 : agree [
    (0x2420240A04813456, .saddImm (im 9 10 0x123456)),
    (0x2430240A04813456, .ssubImm (im 9 10 0x123456)),
    (0x2440240A04813456, .smulImm (im 9 10 0x123456)),
    (0x2450240A04813456, .sandImm (im 9 10 0x123456)),
    (0x2460240A04813456, .sorImm (im 9 10 0x123456)),
    (0x2470240A04813456, .sxorImm (im 9 10 0x123456)),
    (0x2480240A0001003F, .sshlImm (im 9 10 0x3f)),
    (0x2490240A0001003F, .sshrImm (im 9 10 0x3f))] = true := by decide +kernel

/-- Words of class 010. -/
theorem test_decodes_memory1 : agree [
    (0x30002002FFD23312, .ld (me 8 2 1023 (off := true) (scope := .die) (order := .acq) (hint := 8) (svc := 2) (width := .w32))),
    (0x3010100202426424, .st (me 4 2 9 (scope := .sys) (order := .rel) (hint := 1) (width := .w128))),
    (0x3100100301420003, .lds (me 4 3 5 (width := .w64))),
    (0x3110140300921401, .sts (me 5 3 2 (off := true) (scope := .team) (order := .rel) (width := .w16))),
    (0x3120140301820042, .ldf (me 5 3 6 (hint := 2) (width := .w32))),
    (0x3130200301820004, .stf (me 8 3 6 (width := .w128))),
    (0x3300000200C20081, .pref (me 0 2 3 (hint := 4) (width := .w16))),
    (0x3310000200C20040, .drop (me 0 2 3 (hint := 2) (width := .w8))),
    (0x340014023FC27402, .stm (me 5 2 255 (scope := .row) (order := .rel) (width := .w32))),
    (0x4000180201024743, .atom (me 6 2 4 (scope := .pkg) (order := .ar) (hint := 10) (width := .w64))),
    (0x4010200201026813, .cas (me 8 2 4 (scope := .sys) (order := .sc) (svc := 2) (width := .w64))),
    (0x4100200400027648, .rowop (me 8 4 0 (scope := .row) (order := .ar) (hint := 2) (svc := 1))),
    (0x4110200400027200, .rowld (me 8 4 0 (scope := .row) (order := .acq))),
    (0x4800000000026800, .fence (me 0 0 0 (scope := .sys) (order := .sc))),
    (0x4900000200D20000, .pwb (me 0 2 3 (off := true))),
    (0x4A00240400525403, .sigadd (me 9 4 1 (off := true) (scope := .sq) (order := .rel) (width := .w64))),
    (0x4A10240400525403, .sigdec (me 9 4 1 (off := true) (scope := .sq) (order := .rel) (width := .w64))),
    (0x4A202404005242C2, .sigwait (me 9 4 1 (off := true) (scope := .pkg) (order := .acq) (hint := 6) (width := .w32)))] = true := by decide +kernel

/-- Words of class 011. -/
theorem test_decodes_branches1 : agree [
    (0x28000000FFC3FFE0, .bra (br 0 0 0x3ffffe0)),
    (0x28100C0100030155, .brc (br 3 1 0x155)),
    (0x2820240080030000, .bru (br 9 0 0x2000000)),
    (0x28400800FFC3FFFF, .call (br 2 0 0x3ffffff)),
    (0x56003C0000030100, .mfork (br 15 0 0x100))] = true := by decide +kernel

/-- Words of class 100. -/
theorem test_decodes_async1 : agree [
    (0x4200240A00040000, .mcas (tn 9 10 0)),
    (0x430010060244706C, .chase (tn 4 6 9 (tmap := 7) (op := 108))),
    (0x4310100002447020, .chaser (tn 4 0 9 (tmap := 7) (op := 32))),
    (0x4320000602443000, .kenq (tn 0 6 9 (tmap := 3))),
    (0x4330180002443000, .kdeq (tn 6 0 9 (tmap := 3))),
    (0x4340000900042030, .kvup (tn 0 9 0 (tmap := 2) (op := 48))),
    (0x4350000900042030, .krcp (tn 0 9 0 (tmap := 2) (op := 48))),
    (0x5000000900045001, .tmld (tn 0 9 0 (tmap := 5) (op := 1))),
    (0x5010000900045001, .tmst (tn 0 9 0 (tmap := 5) (op := 1))),
    (0x502000090004500F, .tmset (tn 0 9 0 (tmap := 5) (op := 15))),
    (0x5030240000045000, .amaxrd (tn 9 0 0 (tmap := 5))),
    (0x5040000000045000, .amaxclr (tn 0 0 0 (tmap := 5))),
    (0x5050240000045001, .origrd (tn 9 0 0 (tmap := 5) (op := 1))),
    (0x52000C0002445003, .acopy (tn 3 0 9 (tmap := 5) (op := 3))),
    (0x52100C0A02440002, .acopyr (tn 3 10 9 (op := 2))),
    (0x52200C0A02440001, .afill (tn 3 10 9 (op := 1))),
    (0x52300C0002445B02, .areduce (tn 3 0 9 (tmap := 5) (rnd := .rs) (ftz := true) (op := 2))),
    (0x52400C0002845001, .agather (tn 3 0 10 (tmap := 5) (op := 1))),
    (0x5400000900040001, .fwait (tn 0 9 0 (op := 1))),
    (0x5410240300040000, .ftest (tn 9 3 0))] = true := by decide +kernel

/-- Words of class 100. -/
theorem test_decodes_async2 : agree [
    (0x5420000900040001, .fcancel (tn 0 9 0 (op := 1))),
    (0x5430000900040000, .tlwait (tn 0 9 0)),
    (0x5440240300440000, .tlrd (tn 9 3 1)),
    (0x5610000000040000, .mjoin (tn 0 0 0)),
    (0x5620000003C40004, .nbara (tn 0 0 15 (op := 4))),
    (0x5630000003C40001, .nbarw (tn 0 0 15 (op := 1))),
    (0x6000000000045000, .ldstat (tn 0 0 0 (tmap := 5))),
    (0x6010000000040000, .swaps (tn 0 0 0)),
    (0x60201C0000045000, .mma (tn 7 0 0 (tmap := 5))),
    (0x60301C0601045000, .mmad (tn 7 6 4 (tmap := 5))),
    (0x60400000000400FF, .aclr (tn 0 0 0 (op := 255))),
    (0x60501C0000045000, .ald (tn 7 0 0 (tmap := 5))),
    (0x60601C0000045200, .drain (tn 7 0 0 (tmap := 5) (rnd := .rz))),
    (0x60701C0000045200, .drainq (tn 7 0 0 (tmap := 5) (rnd := .rz))),
    (0x6080000000840005, .mbarArr (tn 0 0 2 (op := 5))),
    (0x6080040000840001, .mbarWait (tn 1 0 2 (op := 1))),
    (0x6090000000040000, .mexit (tn 0 0 0)),
    (0x76000C0900040000, .snap (tn 3 9 0)),
    (0x76200C0900040000, .rbld (tn 3 9 0)),
    (0x76300C0900040000, .stripe (tn 3 9 0))] = true := by decide +kernel

/-- Words of class 100. -/
theorem test_decodes_async3 : agree [
    (0x7C100C0A02440005, .tlbinv (tn 3 10 9 (op := 5)))] = true := by decide +kernel

/-- Words of class 101. -/
theorem test_decodes_system1 : agree [
    (0x2600240000050003, .crd (sy 9 0 0 0x3)),
    (0x2610000900050004, .cwr (sy 0 9 0 0x4)),
    (0x2830140000050000, .brx (sy 5 0 0)),
    (0x2850080900050000, .callx (sy 2 9 0)),
    (0x2860000000050000, .ret (sy 0 0 0)),
    (0x2870000000050000, .exit (sy 0 0 0)),
    (0x2880140600050041, .park (sy 5 6 0 0x41)),
    (0x2890000000050000, .yield (sy 0 0 0)),
    (0x28A0000000050008, .loopb (sy 0 0 0 0x8)),
    (0x28B0000000050000, .nop (sy 0 0 0)),
    (0x3140000902850000, .feset (sy 0 9 10)),
    (0x3150000902850000, .feclr (sy 0 9 10)),
    (0x34100009000500FF, .mctw (sy 0 9 0 0xff)),
    (0x4810000000050000, .isync (sy 0 0 0)),
    (0x4820000902850004, .icinv (sy 0 9 10 0x4)),
    (0x4910000000050001, .pbar (sy 0 0 0 0x1)),
    (0x4920240A00050000, .step (sy 9 10 0)),
    (0x7000000000050000, .bar (sy 0 0 0)),
    (0x7010240000050000, .bara (sy 9 0 0)),
    (0x7020000900050000, .barw (sy 0 9 0))] = true := by decide +kernel

/-- Words of class 101. -/
theorem test_decodes_system2 : agree [
    (0x7030000000050004, .gbar (sy 0 0 0 0x4)),
    (0x7400000900050000, .spawn (sy 0 9 0)),
    (0x7410000902850000, .handoff (sy 0 9 10)),
    (0x7420000000050000, .retire (sy 0 0 0)),
    (0x7610240A00050000, .snapq (sy 9 10 0)),
    (0x7800000000057FFF, .trap (sy 0 0 0 0x7fff)),
    (0x7810000900057FFF, .event (sy 0 9 0 0x7fff)),
    (0x7820240000050000, .rdtime (sy 9 0 0)),
    (0x7830240000050005, .prd (sy 9 0 0 0x5)),
    (0x7C00000000050000, .eret (sy 0 0 0)),
    (0x7C20200902850001, .xlate (sy 8 9 10 0x1)),
    (0x7C30240A00050000, .preempt (sy 9 10 0)),
    (0x7C40240A00050005, .pwr (sy 9 10 0 0x5))] = true := by decide +kernel

/-! ### Ill-formed terms: one for each check of WellFormed -/

/-- A small window, no tiles. -/
def narrow : Reader := { window := 8, acc := 2 }
def inStream : Reader := { matrix := true }

/-- Terms that a reader refuses, by the cause of 04 Table 4.12 that their word has. -/
def illFormed : List (Reader × Instr) := [
  -- cause 3: a type, a rounding code, a comparison, a scope, a width, a slide
  ({}, .iadd (ve 5 6 7 .f32)), ({}, .iadd (ve 5 6 7 .i32 (rnd := .rz))), ({}, .icmp (ve 3 6 7 .i32 (sub := 6))),
  ({}, .lds (me 4 3 5 (scope := .die))), ({}, .atom (me 6 2 4 (width := .w8))), (narrow, .call (br 2 0 0)), ({}, .call (br 0 0 0)),
  -- cause 4: an unused field, an unused immediate bit, an unused half of an operand
  ({}, .not (ve 5 6 7 .n32)), ({}, .nop (sy 0 0 0 1)), ({}, .bar (sy 1 0 0)), ({}, .tlrd (tn 9 3 0)),
  -- cause 5: outside the window, no pair, no quad, a scalar, a mask, a handle, a tile, two equal tiles
  (narrow, .iadd (ve 8 6 7 .i32)), ({}, .iadd64 (ve 5 6 8 .n64)), ({}, .ld (me 2 4 6 (width := .w128))), ({}, .smov (ve 64 1 0 .n64)),
  ({}, .mand (ve 9 3 4 .n32)), ({}, .snap (tn 16 9 0)), ({ inStream with acc := 2 }, .mma (tn 2 0 0)), (inStream, .mmad (tn 3 3 4)),
  -- cause 6: a matrix word in a group stream, and the reverse
  ({}, .swaps (tn 0 0 0)), (inStream, .nop (sy 0 0 0)), (inStream, .pairedWord
    { slotA := { op := .mov, d := 4, a := 5, la := false, nw := false, mode := 0 }
      slotB := { op := .mov, d := 5, a := 6, la := false, nw := false, mode := 0 } }),
  -- cause 7: a latch number above 3, `NW` with a destination, two destinations in one bank
  ({}, .iadd { ve 5 4 7 .i32 with la := true }), ({}, .iadd { ve 5 6 7 .i32 with nw := true }), ({}, .pairedWord
    { slotA := { op := .mov, d := 4, a := 5, la := false, nw := false, mode := 0 }
      slotB := { op := .mov, d := 8, a := 6, la := false, nw := false, mode := 0 } }),
  -- `MBAR` by its field D, and a word that is an instruction
  (inStream, .mbarArr (tn 1 2 0)), (inStream, .mbarWait (tn 0 2 0)), ({}, .illegalInstr 0x28B0000000050000 .strayBit) ]

theorem test_wf_refuses : (illFormed.all fun e => !e.2.wf e.1) = true := by decide +kernel

theorem test_wf_admits : (Instr.iadd (ve 7 6 7 .i32)).wf narrow = true ∧ (Instr.swaps (tn 0 0 0)).wf inStream = true ∧
    (Instr.illegalInstr 0x28B0000000050001 .strayBit).wf {} = true := by decide +kernel

/-- The example of 04 R90: `IADD.i32 v4, v5 || FABS.f32 v6, b1` is 0x8001_0140_0D83_00C0. -/
theorem test_decodes_pair : decode {} 0x800101400D8300C0 = .pairedWord
    { slotA := { op := .iadd, d := 4, a := 5, la := false, nw := false, mode := 0 }
      slotB := { op := .fabs, d := 6, a := 1, la := true, nw := false, mode := 0 } } := by decide +kernel

/-- The examples after 04 R90: `IADD.i32 v12, v3, b1` and a `BRA` back by 32 words. -/
theorem test_decodes_examples : decode {} 0x0010300300501000 = .iadd { ve 12 3 1 .i32 with lb := true } ∧
    decode {} 0x28000000FFC3FFE0 = .bra (br 0 0 0x3FFFFE0) := by decide +kernel

/-! ### A small world: one group of one team at word 4, and two identity pages of a gibibyte, the second on SCM -/

def g0 : Group := { team := 0, idx := 0, lpc := List.replicate 32 4 }
def gang0 : Gang := { ctx := 1, recAddr := 0x40, rec_ := { window := 2, stack := 8, scratch := 1, acc := 8, ctx := 1 }, cores := [0] }
def team0 : Team := { gang := 0, idx := 0, core := 0 }
def page0 : TlbEntry :=
  { ctx := 1, base := 0, bits := 30, w := true, x := true, u := true, kind := 0, pt := false, attr := 0, frame := 0, dirty := true
    leaf := 0x7F }
def page1 : TlbEntry := { page0 with base := 0x40000000, kind := 1, frame := 0x40000000000 }
def w0 : State :=
  { State.reset with
    boot := .running, cur := .group 0, groups := [(0, g0)], teams := [(0, team0)], gangs := [(0, gang0)], ctxs := [(1, {})]
    tlbs := [(.l1 0, page0), (.l1 0, page1), (.l2 0, page0), (.l2 0, page1)] }
/-- The world with another group. -/
def w (g : Group) : State := { w0 with groups := [(0, g)] }
/-- A group that executes in lane 0 alone, one with scalars, and one in supervisor mode. -/
def lane0 : Group := { g0 with em := 1 }
def withS (ss : AMap Nat Word64) : Group := { g0 with sregs := ss }
def boss : Group := { g0 with supervisor := true }
/-- The step goes on, and the state after it passes a test. -/
def gives (o : Host.Outcome State Fault Refusal) (p : State → Bool) : Bool := match o with | .next t => p t | _ => false
/-- The group after the step passes a test. -/
def groupIs (o : Host.Outcome State Fault Refusal) (p : Group → Bool) : Bool := gives o fun t => (aget t.groups 0).any p
/-- A group with every lane of some vector registers at a value. -/
def withV (vs : List (Nat × Word32)) : Group := { g0 with vregs := vs.map fun e => (e.1, List.replicate 32 e.2) }
/-- Where an address of the first page lies. -/
def at0 (a : Nat) : Xlat := page0.xlat (a % 2 ^ 57)

theorem acts {s : State} {g : Group} (h1 : s.cur = .group 0) (h2 : aget s.groups 0 = some g) (h3 : s.stalled = false := by rfl) :
    s.Acts 0 g := ⟨h1, h2, h3⟩
theorem free {g : Group} {reads : List (RegRef × Word32)} {writes : List RegRef}
    (h : (!g.anyPending (refsOf reads ++ writes) && (g.deferred? reads).isNone) = true) : g.Free reads writes := by
  simp only [Bool.and_eq_true, Bool.not_eq_true', Option.isNone_iff_eq_none] at h
  exact ⟨h.1, h.2⟩
theorem latched {g : Group} {ks : List Nat} (h : (ks.all fun k => decide (k < g.chainFor.chain.vecs)) = true) : g.Latched ks :=
  fun k hk => by simpa using List.all_eq_true.mp h k hk
theorem access {s : State} {g : Group} {reads : List (RegRef × Word32)} {writes : List RegRef} {rel wr : Bool}
    (h : (!g.anyPending (refsOf reads ++ writes) && (g.deferred? reads).isNone) = true)
    (h2 : (!s.acquiring 0 && !s.logs 0 && !s.writesOut 0 && decide (g.lost = []) && !g.readsOut) = true) :
    s.MayAccess 0 g reads writes rel wr := by
  simp only [Bool.and_eq_true, Bool.not_eq_true', decide_eq_true_eq] at h2
  obtain ⟨⟨⟨⟨a, b⟩, c⟩, d⟩, e⟩ := h2
  exact ⟨free h, a, fun _ => ⟨b, c, d⟩, fun _ => e⟩
theorem mayIssue {s : State} {g : Group} {reads : List (RegRef × Word32)} {writes : List RegRef}
    (h : (!g.anyPending (refsOf reads ++ writes) && (g.deferred? reads).isNone) = true)
    (h2 : (!s.acquiring 0 && !s.logs 0 && !s.writesOut 0 && !g.readsOut) = true) : s.MayIssue 0 g reads writes := by
  simp only [Bool.and_eq_true, Bool.not_eq_true'] at h2
  obtain ⟨⟨⟨a, b⟩, c⟩, e⟩ := h2
  exact ⟨free h, a, ⟨b, c⟩, e⟩
theorem only0 {g : Group} (h : g.active = 1) : g.Only 0 := ⟨by decide, h⟩
theorem faultless {s : State} (h1 : s.badCheck = [] := by rfl) (h2 : s.flaws = [] := by rfl) (h3 : s.transit = [] := by rfl)
    (h4 : s.memStacks = [] := by rfl) : s.Faultless :=
  ⟨h1, h2, h3, fun a => by simp [State.rebuilds, State.stack, h4, agetD, aget]⟩
theorem cached {s : State} (h1 : s.mem.wf = true) (h2 : s.Faultless) (h3 : s.l1 = []) (core : Nat)
    (h4 : s.backing core = false := by rfl) : s.CacheSound core :=
  ⟨h1, h2, h4, by rw [h3]; decide, fun line l h => by rw [h3] at h; cases h⟩
/-- A line is free where nothing waits for it, it is open, and few agents, all of this package, share it. -/
def lineTest (s : State) (line : Nat) : Bool :=
  decide ((s.entry line).waiting = []) && decide (s.lineOpen line true = .ready) && !(s.entry line).coarse &&
    decide ((s.entry line).sharers.length < 16) && decide (∀ a ∈ (s.entry line).sharers, a / 4 = s.own)
theorem lineFree {s : State} {line : Nat} (h : lineTest s line = true) : s.LineFree line := by
  simp only [lineTest, Bool.and_eq_true, decide_eq_true_eq, Bool.not_eq_true'] at h
  exact ⟨h.1.1.1.1, h.1.1.1.2, ⟨h.1.1.2, h.1.2⟩, h.2⟩
/-- What a test of `Sound` asks of a line that no L1 holds. -/
def soundHere (s : State) (x : Xlat) (n : Nat) (wr : Bool) : Bool :=
  decide (x.kind < 2) && decide (placeOf (locOf x.pa) = .hbm ∨ placeOf (locOf x.pa) = .scm) &&
    decide (locOf x.pa % 128 + n ≤ 128) && decide (0 < n) && decide (s.lineReady (locOf x.pa / 128) wr = .ready) &&
    !s.isBad (span (locOf x.pa) n) && decide (∀ k < n, inFirmware (locOf x.pa + k) = false)
theorem sound {s : State} {core n : Nat} {x : Xlat} {wr : Bool} (h3 : s.l1 = []) (h : s.CacheSound core)
    (h4 : soundHere s x n wr = true) : s.Sound core x n wr := by
  simp only [soundHere, Bool.and_eq_true, decide_eq_true_eq, Bool.not_eq_true'] at h4
  obtain ⟨⟨⟨⟨⟨⟨a, b⟩, c⟩, d⟩, e⟩, f⟩, i⟩ := h4
  exact ⟨a, b, c, d, e, f, i, fun y hy => (by rw [h3] at hy; cases hy), h⟩
theorem hit {s : State} {va : Nat} {need : Need} {core ctx : Nat} {sup : Bool} (e : TlbEntry)
    (h : (decide (s.tlbFind (.l1 core) ctx (va % 2 ^ 57) = some e ∧ s.tlbFind (.l2 (core / 64)) ctx (va % 2 ^ 57) = some e ∧
      e.serves sup need = true)) = true) : s.Hit core ctx sup need va (e.xlat (va % 2 ^ 57)) := by
  have h' := of_decide_eq_true h
  exact ⟨e, h'.1, h'.2.1, h'.2.2, rfl⟩
theorem fresh {s : State} (h : s.l1 = []) (core line : Nat) : s.NotStale core line := fun l e => by rw [h] at e; cases e
theorem kiosks {s : State} {n : Nat} (h0 : n ≤ 512) (h1 : s.rowOps = [] := by rfl) (h2 : s.chases = [] := by rfl)
    (h3 : s.listOps = [] := by rfl) (h4 : s.kvups = [] := by rfl) : s.KioskFree n := by simp [State.KioskFree, h1, h2, h3, h4, h0]
theorem room {s : State} (h1 : s.rowOps = [] := by rfl) (h2 : s.chases = [] := by rfl) (h3 : s.listOps = [] := by rfl)
    (h4 : s.kvups = [] := by rfl) : s.KioskRoom := fun k => by simp [State.kioskLoad, h1, h2, h3, h4]
theorem queueOpen {s : State} {x : Xlat} (h : s.logs 0 = false) : s.QueueOpen 0 x := fun _ => h
theorem w_acts (g : Group) : (w g).Acts 0 g := acts rfl rfl
theorem w_cached (g : Group) (core : Nat) : (w g).CacheSound core := cached rfl faultless rfl core
theorem notFirmware {a n : Nat} (h : decide (a + n ≤ 0x5FFFC000000) = true) : ∀ j < n, inFirmware (a + j) = false := by
  intro j hj
  have := of_decide_eq_true h
  simp only [inFirmware, Bool.and_eq_false_iff, decide_eq_false_iff_not]
  omega

/-! ### Hypotheses that states meet: the words of 05 -/

/-- `IADD v3, v1, v2`; `IADDS`; and in an open chain a member that reads `b0`. -/
theorem meets_VectorMembers :
    (∃ F, vecForm (.iadds (ve 3 1 2 .n32)) = some F ∧ tyAdmitted (.iadds (ve 3 1 2 .n32)) ∧ (w g0).Acts 0 g0 ∧ g0.Latched F.latches ∧
      g0.Free (F.reads g0) F.dst.writes) ∧
    (let g : Group := { g0 with chain := { isOpen := true, members := 1, vecs := 1, lanes := g0.active, head := 3 } };
      ∃ F, vecForm (.iadd { ve 3 1 0 .i32 with lb := true }) = some F ∧ tyAdmitted (.iadd { ve 3 1 0 .i32 with lb := true }) ∧ (w g).Acts 0 g ∧ F.latches = [0] ∧
        g.Latched F.latches ∧
        g.Free (F.reads g) F.dst.writes) :=
  ⟨⟨_, rfl, .inr rfl, w_acts _, latched (by decide +kernel), free (by decide +kernel)⟩,
    ⟨_, rfl, trivial, w_acts _, rfl, latched (by decide +kernel), free (by decide +kernel)⟩⟩

theorem meets_ScalarMembers :
    ∃ F, scalarForm (.scmp (ve 9 10 11 .n64)) = some F ∧ tyAdmitted (.scmp (ve 9 10 11 .n64)) ∧ (w g0).Acts 0 g0 ∧
      g0.Free (F.reads g0) [.s F.d] := ⟨_, rfl, .inr rfl, w_acts _, free (by decide +kernel)⟩

/-- A mask, and `em`. -/
theorem meets_MaskMembers :
    (∃ F, maskForm (.icmp (ve 3 6 7 .i32)) = some F ∧ F.d = 3 ∧ tyAdmitted (.icmp (ve 3 6 7 .i32)) ∧ (w g0).Acts 0 g0 ∧
      g0.Free (F.reads g0) []) ∧
    ∃ F, maskForm (.mnot (ve 8 3 0 .n32)) = some F ∧ F.d = 8 ∧ g0.Free (F.reads g0) [] :=
  ⟨⟨_, rfl, rfl, .inl rfl, w_acts _, free (by decide +kernel)⟩, ⟨_, rfl, rfl, free (by decide +kernel)⟩⟩

theorem meets_Branches :
    ∃ F, branchForm (.bru (br 9 1 8)) = some F ∧ notField (.bru (br 9 1 8)) ∧ (w g0).Acts 0 g0 ∧ g0.Free (F.reads g0) [] :=
  ⟨_, rfl, .inr rfl, w_acts _, free (by decide +kernel)⟩

/-- `YIELD`, `LOOPB` and `NOP` need nothing else. -/
theorem meets_YieldAndLoop : (w g0).Acts 0 g0 := w_acts _

/-- Selectors 3 and 2; the last selector is 5. -/
theorem meets_ReadControl : (w g0).Acts 0 g0 ∧ (sy 9 0 0 5).imm.toNat < 6 ∧ (sy 9 0 0 5).imm ≠ 2 ∧ g0.Free [] [.s (sy 9 0 0 5).d.toNat] ∧
    (sy 9 0 0 2).imm = 2 ∧ g0.Free [] [.v (sy 9 0 0 2).d.toNat] :=
  ⟨w_acts _, by decide, by decide, free (by decide +kernel), rfl, free (by decide +kernel)⟩

/-- Where the spill area's positions lie. -/
def spillX (s : State) (g : Group) (p : Nat) : Nat → Xlat := fun k => page0.xlat (s.spillAddr g (p + k) % 2 ^ 57)

theorem spilled {s : State} {g : Group} {need : Need} {p n : Nat} (hc : s.CacheSound (s.coreOf g)) (h3 : s.l1 = [])
    (h : (decide (∀ k < n, let va := s.spillAddr g (p + k) % 2 ^ 57
      s.tlbFind (.l1 (s.coreOf g)) (s.ctxOf g) va = some page0 ∧ s.tlbFind (.l2 (s.coreOf g / 64)) (s.ctxOf g) va = some page0) &&
      page0.serves g.supervisor need) = true)
    (h4 : ∀ k < n, soundHere s (spillX s g p k) 128 (need == .write) = true)
    (h5 : ∀ j < n, ∀ k < n, locOf (page0.xlat (s.spillAddr g (p + j) % 2 ^ 57)).pa / 128 =
      locOf (page0.xlat (s.spillAddr g (p + k) % 2 ^ 57)).pa / 128 → j = k) :
    s.SpillMapped g need p n (spillX s g p) := by
  simp only [Bool.and_eq_true, decide_eq_true_eq] at h
  exact ⟨fun k hk => hit page0 (by simp only [decide_eq_true_eq]; exact ⟨(h.1 k hk).1, (h.1 k hk).2, h.2⟩),
    fun k hk => sound h3 hc (h4 k hk), h5⟩

theorem opens {s : State} {g : Group} {p n : Nat} (h : (!s.acquiring 0 && decide (s.sideLog = [])) = true) : s.SpillOpen 0 g p n := by
  simp only [Bool.and_eq_true, Bool.not_eq_true', decide_eq_true_eq] at h
  exact ⟨h.1, by simp [State.logsPage, h.2]⟩

/-- The selectors 5, the last, and 2; in supervisor mode bases that are no multiple of 8, that leave too little room, and the highest. -/
theorem meets_WriteControl :
    ((w g0).Acts 0 g0 ∧ (sy 0 9 0 5).imm.toNat < 6 ∧ (sy 0 9 0 5).imm ≠ 2 ∧ (sy 0 9 0 5).imm ≠ 3 ∧
      g0.Free (readsS [9]) [] ∧ g0.Free [(.v 9, g0.active)] [] ∧ g0.supervisor = false) ∧
    (let g : Group := { boss with sregs := [(9, 44), (10, 56), (11, 48)] };
      let s := w g
      s.Acts 0 g ∧ g.Free (readsS [9]) [] ∧ g.Free (readsS [10]) [] ∧ g.Free (readsS [11]) [] ∧ (sy 0 9 0 3).imm = 3 ∧
      g.supervisor = true ∧ (g.s 9).toNat % 2 ^ 14 % 8 ≠ 0 ∧ s.stackSize g < (g.s 10).toNat % 2 ^ 14 + s.window g ∧
      (g.s 11).toNat % 2 ^ 14 = 48 ∧ 48 % 8 = 0 ∧ 48 + s.window g = s.stackSize g ∧ s.window g = 16 ∧
      g.pendingIn g.wbase 16 = false ∧ g.readsOut = false ∧ g.fills = [] ∧ s.SpillOpen 0 g g.wbase 16 ∧ s.SpillOpen 0 g 48 16 ∧
      (∀ k < 16, s.QueueOpen 0 (spillX s g 0 k)) ∧ s.SpillMapped g .write g.wbase 16 (spillX s g 0) ∧
      s.SpillMapped g .read 48 16 (spillX s g 48) ∧ (∀ k < 16, s.NotStale (s.coreOf g) (locOf (spillX s g 48 k).pa / 128)) ∧
      ∀ j < 16, ∀ k < 16, locOf (spillX s g 0 j).pa / 128 = locOf (spillX s g 48 k).pa / 128 → g.wbase + j = 48 + k) :=
  ⟨⟨w_acts _, by decide, by decide, by decide, free (by decide +kernel), free (by decide +kernel), rfl⟩,
    w_acts _, free (by decide +kernel), free (by decide +kernel), free (by decide +kernel), rfl, rfl, by decide +kernel, by decide +kernel,
    by decide +kernel, by decide, by decide +kernel, by decide +kernel, by decide +kernel, by decide +kernel, rfl, opens (by decide +kernel),
    opens (by decide +kernel), fun _ _ => queueOpen rfl, spilled (w_cached _ _) rfl (by decide +kernel) (by decide +kernel) (by decide +kernel),
    spilled (w_cached _ _) rfl (by decide +kernel) (by decide +kernel) (by decide +kernel), fun _ _ => fresh rfl _ _, by decide +kernel⟩

/-- A slide of 8, the least, also to where the window ends at the stack's end; CALLX reads a scalar too. Lanes that do not stand
together; and a window past the stack. -/
theorem meets_Calls :
    (let s := w g0;
      s.Acts 0 g0 ∧ 8 = 8 * (br 1 0 8).d.toNat ∧ 8 ≤ s.window g0 ∧ g0.Converged ∧ g0.wbase + 8 + s.window g0 ≤ s.stackSize g0 ∧
      g0.Free (readsS [] ++ (List.range (8 - 2)).map fun j => (.v j, allLanes)) [] ∧
      g0.Free (readsS [9] ++ (List.range (8 - 2)).map fun j => (.v j, allLanes)) [] ∧ g0.readsOut = false ∧
      g0.pendingIn g0.wbase 8 = false ∧ s.SpillOpen 0 g0 g0.wbase 8 ∧ (∀ k < 8, s.QueueOpen 0 (spillX s g0 0 k)) ∧
      s.SpillMapped g0 .write g0.wbase 8 (spillX s g0 0)) ∧
    (let g : Group := { g0 with em := 1 };
      (w g).Acts 0 g ∧ g.live ≠ 0 ∧ ¬g.Converged ∧ g.Free (readsS [] ++ (List.range (8 - 2)).map fun j => (.v j, allLanes)) []) ∧
    (let g : Group := { g0 with wbase := 48 };
      (w g).Acts 0 g ∧ g.Converged ∧ (w g).stackSize g < g.wbase + 8 + (w g).window g ∧
        g.Free (readsS [] ++ (List.range (8 - 2)).map fun j => (.v j, allLanes)) []) ∧
    ({ g0 with wbase := 40 } : Group).wbase + 8 + (w g0).window g0 = (w g0).stackSize g0 :=
  ⟨⟨w_acts _, rfl, by decide +kernel, by unfold Group.Converged; decide +kernel, by decide +kernel, free (by decide +kernel),
    free (by decide +kernel), by decide +kernel, by decide +kernel, opens (by decide +kernel), fun _ _ => queueOpen rfl,
    spilled (w_cached _ _) rfl (by decide +kernel) (by decide +kernel) (by decide +kernel)⟩,
    ⟨w_acts _, by decide +kernel, by unfold Group.Converged; decide +kernel, free (by decide +kernel)⟩,
    ⟨w_acts _, by unfold Group.Converged; decide +kernel, by decide +kernel, free (by decide +kernel)⟩, by decide +kernel⟩

/-- One live lane returns to word 5 from a frame of 8, and from a link that gives no slide; a window at the bottom; and lanes apart. -/
theorem meets_Returns :
    (∀ link ∈ [8, 3],
      let g : Group := { g0 with live := 1, wbase := 8 }
      let s : State := { w g with mem := [(768, BitVec.ofNat 8 link), (896, 5)] }
      let L := spillX s g 6
      s.Acts 0 g ∧ g.Converged ∧ g.Free [] [] ∧ 2 ≤ g.wbase ∧ s.SpillOpen 0 g (g.wbase - 2) 2 ∧ s.SpillMapped g .read (g.wbase - 2) 2 L ∧
        (∀ k < 2, s.NotStale (s.coreOf g) (locOf (L k).pa / 128)) ∧
        ∀ l < 32, g.live.getLsbD l = true → s.seenValue (s.coreOf g) (locOf (L 0).pa + 4 * l) 4 = link ∧
          s.seenValue (s.coreOf g) (locOf (L 1).pa + 4 * l) 4 = 5) ∧
    (let g : Group := { g0 with live := 1, wbase := 8 };
      let s : State := { w g with mem := [(768, 8), (896, 5)] }
      let X := spillX s g 0
      8 ≤ s.window g ∧ 8 ≤ g.wbase ∧ g.pendingIn (g.wbase + s.window g - 8) 8 = false ∧ s.SpillOpen 0 g (g.wbase - 8) 8 ∧
        s.SpillMapped g .read (g.wbase - 8) 8 X ∧ ∀ k < 8, s.NotStale (s.coreOf g) (locOf (X k).pa / 128)) ∧
    ((w g0).Acts 0 g0 ∧ g0.Converged ∧ g0.wbase < 2 ∧ g0.Free [] []) ∧
    ((w lane0).Acts 0 lane0 ∧ lane0.live ≠ 0 ∧ ¬lane0.Converged ∧ lane0.Free [] []) := by
  refine ⟨fun link h => ?_, ?_, ⟨w_acts _, by unfold Group.Converged; decide +kernel, by decide, free (by decide +kernel)⟩,
    w_acts _, by decide +kernel, by unfold Group.Converged; decide +kernel, free (by decide +kernel)⟩
  · simp only [List.mem_cons, List.not_mem_nil, or_false] at h
    rcases h with rfl | rfl <;>
    · intro g s L
      have hc : s.CacheSound (s.coreOf g) := cached (by decide +kernel) faultless rfl _
      exact ⟨acts rfl rfl, by unfold Group.Converged; decide +kernel, free (by decide +kernel), by decide, opens (by decide +kernel),
        spilled hc rfl (by decide +kernel) (by decide +kernel) (by decide +kernel), fun _ _ => fresh rfl _ _, by decide +kernel⟩
  · intro g s X
    have hc : s.CacheSound (s.coreOf g) := cached (by decide +kernel) faultless rfl _
    exact ⟨by decide +kernel, by decide, by decide +kernel, opens (by decide +kernel),
      spilled hc rfl (by decide +kernel) (by decide +kernel) (by decide +kernel), fun _ _ => fresh rfl _ _⟩

/-- Lanes are left; and none is left. -/
theorem meets_Exits : (w lane0).Acts 0 lane0 ∧ lane0.live &&& ~~~ lane0.active ≠ 0 ∧ (w g0).Acts 0 g0 ∧
    g0.live &&& ~~~ g0.active = 0 ∧ (w g0).futuresOut 0 = false ∧ (w g0).owed 0 = none ∧
    ∀ p ∈ g0.pend, ∃ id, p.by_ = .log id :=
  ⟨w_acts _, by decide +kernel, w_acts _, by decide +kernel, by decide +kernel, by decide +kernel, fun _ h => by cases h⟩

/-- On a word; and on handles: of no context, of a copy that goes on, of one that is complete, and of one that failed. -/
theorem meets_Parks :
    (let a := sy 5 6 0 0x41;
      (w g0).Acts 0 g0 ∧ a.imm.toNat % 4 < 2 ∧ g0.Free (readsIn [.v 6, .v 7, .v 5] g0.active) [] ∧
      ∀ l < 32, g0.active.getLsbD l = true →
        let va := (g0.v64 a.a.toNat l).toNat % 2 ^ 57;
        va % 4 = 0 ∧ (w g0).logsPage 0 [va] = false ∧ (w g0).Hit ((w g0).coreOf g0) ((w g0).ctxOf g0) g0.supervisor .read va (at0 va) ∧
          (w g0).Sound ((w g0).coreOf g0) (at0 va) 4 false) ∧
    ((w g0).Acts 0 g0 ∧ (sy 0 3 0 2).imm.toNat % 4 = 2 ∧ g0.Free [] [] ∧ g0.active ≠ 0 ∧ (w g0).codeKey 0 g0 (handleCode (g0.h 3)) = none) ∧
    (∀ out ∈ [[1], []], ∀ bad ∈ [[], [({ seqNo := 1, status := 6, trap := some { code := 7 }, gid := 0 } : Failure)]],
      let g : Group := { g0 with handles := [(3, mkHandle 1 1)] }
      let s : State := { w g with engines := [(.copy 0, { issued := 1, active := out, fails := bad })] }
      s.Acts 0 g ∧ g.Free [] [] ∧ g.active ≠ 0 ∧ s.codeKey 0 g (handleCode (g.h 3)) = some (.copy 0) ∧
        (s.engine (.copy 0)).complete (handleSeq (g.h 3)) = decide (out = []) ∧ s.CacheSound (s.coreOf g) ∧
        ∀ f ∈ (s.engine (.copy 0)).fails, f.seqNo = handleSeq (g.h 3) ∧ f.delivered = false ∧ f.trap.isSome = true) := by
  refine ⟨⟨w_acts _, by decide, free (by decide +kernel), fun l hl _ => ?_⟩,
    ⟨w_acts _, by decide, free (by decide +kernel), by decide +kernel, by decide +kernel⟩, fun out ho bad hb => ?_⟩
  · have h : (g0.v64 (sy 5 6 0 0x41).a.toNat l).toNat % 2 ^ 57 = 0 := by revert l; decide +kernel
    simp only [h]
    exact ⟨trivial, by decide +kernel, hit page0 (by decide +kernel), sound rfl (w_cached _ _) (by decide +kernel)⟩
  · refine ⟨acts rfl rfl, free (by decide +kernel), by decide +kernel, by revert bad; revert out; decide +kernel,
      by revert bad; revert out; decide +kernel, cached rfl faultless rfl _, by revert bad; revert out; decide +kernel⟩

/-! ### Hypotheses that states meet: the words of 06 -/

/-- The order that waits for the most. -/
theorem meets_Loads :
    let a := me 5 6 8 (order := .sc) (width := .w32)
    (w lane0).Acts 0 lane0 ∧ lane0.Only 0 ∧ ((w lane0).logs 0 = false ∧ (w lane0).writesOut 0 = false) ∧
    (w lane0).MayAccess 0 lane0 (readsIn (addrRegs a) lane0.active) (vrange a.d.toNat (dataRegs a.width)) false false ∧
    lane0.addrOf a 0 % 4 = 0 ∧ (w lane0).logsPage 0 [lane0.addrOf a 0] = false ∧
    (w lane0).Hit 0 1 false .read (lane0.addrOf a 0) (at0 0) ∧ (w lane0).Sound 0 (at0 0) 4 false :=
  ⟨w_acts _, only0 (by decide +kernel), by decide +kernel, access (by decide +kernel) (by decide +kernel), by decide +kernel,
    by decide +kernel, hit page0 (by decide +kernel), sound rfl (w_cached _ _) (by decide +kernel)⟩

/-- A group whose lane `l` points at `n * l`. -/
def striding (n : Nat) : Group := { g0 with vregs := [(6, (List.range 32).map fun l => BitVec.ofNat 32 (n * l))] }

/-- Every lane at an address of its own. -/
theorem meets_LaneLoads :
    let a := me 10 6 0 (off := true) (width := .w128)
    let g := striding 16
    (w g).Acts 0 g ∧ (w g).MayAccess 0 g (readsIn (addrRegs a) g.active) (vrange a.d.toNat (dataRegs a.width)) false false ∧
    (a.order = .sc → (w g).logs 0 = false ∧ (w g).writesOut 0 = false) ∧
    (w g).logsPage 0 ((lanesOf g.active).map (g.addrOf a)) = false ∧ lanesOf g.active = List.range 32 ∧
    ∀ l < 32, g.active.getLsbD l = true → g.addrOf a l % 16 = 0 ∧ (w g).Hit 0 1 false .read (g.addrOf a l) (at0 (g.addrOf a l)) ∧
      (w g).Sound 0 (at0 (g.addrOf a l)) 16 false ∧ (w g).NotStale 0 (locOf (at0 (g.addrOf a l)).pa / 128) :=
  ⟨w_acts _, access (by decide +kernel) (by decide +kernel), fun h => (by cases h), by decide +kernel, by decide +kernel,
    fun l hl _ => ⟨by revert l; decide +kernel, hit page0 (by revert l; decide +kernel),
      sound rfl (w_cached _ _) (by revert l; decide +kernel), fresh rfl _ _⟩⟩

/-- An ordered store of 16 bytes. -/
theorem meets_Stores :
    let a := me 4 6 1 (off := true) (order := .rel) (width := .w128)
    (w lane0).Acts 0 lane0 ∧ lane0.Only 0 ∧
    (w lane0).MayAccess 0 lane0 (readsIn (vrange a.d.toNat (dataRegs a.width) ++ addrRegs a) lane0.active) []
      (Order.isRel a.order) true ∧
    lane0.addrOf a 0 = 16 ∧ (w lane0).logsPage 0 [lane0.addrOf a 0] = false ∧ (w lane0).QueueOpen 0 (at0 16) ∧
    (w lane0).Hit 0 1 false .write (lane0.addrOf a 0) (at0 16) ∧ (w lane0).Sound 0 (at0 16) 16 true :=
  ⟨w_acts _, only0 (by decide +kernel), access (by decide +kernel) (by decide +kernel), by decide +kernel, by decide +kernel, queueOpen rfl,
    hit page0 (by decide +kernel), sound rfl (w_cached _ _) (by decide +kernel)⟩

/-- Every lane at an address of its own, and all at one. -/
theorem meets_LaneStores :
    ∀ n ∈ [16, 0],
      let a := me 10 6 0 (off := true) (order := .rel) (width := .w128)
      let g := striding n
      (w g).Acts 0 g ∧
      (w g).MayAccess 0 g (readsIn (vrange a.d.toNat (dataRegs a.width) ++ addrRegs a) g.active) [] (Order.isRel a.order) true ∧
      (w g).logsPage 0 ((lanesOf g.active).map (g.addrOf a)) = false ∧
      ∀ l < 32, g.active.getLsbD l = true → g.addrOf a l % 16 = 0 ∧ (w g).QueueOpen 0 (at0 (g.addrOf a l)) ∧
        (w g).Hit 0 1 false .write (g.addrOf a l) (at0 (g.addrOf a l)) ∧ (w g).Sound 0 (at0 (g.addrOf a l)) 16 true := by
  intro n hn
  simp only [List.mem_cons, List.not_mem_nil, or_false] at hn
  rcases hn with rfl | rfl <;>
  exact ⟨w_acts _, access (by decide +kernel) (by decide +kernel), by decide +kernel,
    fun l hl _ => ⟨by revert l; decide +kernel, queueOpen rfl, hit page0 (by revert l; decide +kernel),
      sound rfl (w_cached _ _) (by revert l; decide +kernel)⟩⟩

/-- Every lane at one address, the most that they can conflict. -/
theorem meets_LaneAtomics :
    let a := me 10 6 0 (off := true) (order := .ar) (width := .w64)
    let g := striding 0
    (w g).Acts 0 g ∧ (w g).logsPage 0 ((lanesOf g.active).map (g.addrOf a)) = false ∧
    (∀ l < 32, g.active.getLsbD l = true → g.addrOf a l % 8 = 0 ∧ (w g).QueueOpen 0 (at0 (g.addrOf a l)) ∧
      (w g).Hit 0 1 false .write (g.addrOf a l) (at0 (g.addrOf a l)) ∧ (w g).Sound 0 (at0 (g.addrOf a l)) 8 true ∧
      locOf (at0 (g.addrOf a l)).pa % 8 = 0) ∧
    (w g).MayAccess 0 g (readsIn (vrange a.d.toNat 2 ++ addrRegs a) g.active) (vrange a.d.toNat 2) (Order.isRel a.order) true ∧
    (w g).MayAccess 0 g (readsIn (vrange a.d.toNat 4 ++ addrRegs a) g.active) (vrange a.d.toNat 2) (Order.isRel a.order) true :=
  ⟨w_acts _, by decide +kernel, fun l hl _ => ⟨by revert l; decide +kernel, queueOpen rfl, hit page0 (by revert l; decide +kernel),
    sound rfl (w_cached _ _) (by revert l; decide +kernel), by revert l; decide +kernel⟩,
    access (by decide +kernel) (by decide +kernel), access (by decide +kernel) (by decide +kernel)⟩

theorem meets_Atomics :
    let a := me 4 6 0 (off := true) (order := .sc) (width := .w64)
    (w lane0).Acts 0 lane0 ∧ lane0.Only 0 ∧ lane0.addrOf a 0 % 8 = 0 ∧ (w lane0).logsPage 0 [lane0.addrOf a 0] = false ∧ (w lane0).QueueOpen 0 (at0 0) ∧
    (w lane0).Hit 0 1 false .write (lane0.addrOf a 0) (at0 0) ∧ (w lane0).Sound 0 (at0 0) 8 true ∧
    (w lane0).MayAccess 0 lane0 (readsIn (vrange a.d.toNat 2 ++ addrRegs a) lane0.active) (vrange a.d.toNat 2)
      (Order.isRel a.order) true ∧
    (w lane0).MayAccess 0 lane0 (readsIn (vrange a.d.toNat 4 ++ addrRegs a) lane0.active) (vrange a.d.toNat 2)
      (Order.isRel a.order) true :=
  ⟨w_acts _, only0 (by decide +kernel), by decide +kernel, by decide +kernel, queueOpen rfl, hit page0 (by decide +kernel),
    sound rfl (w_cached _ _) (by decide +kernel), access (by decide +kernel) (by decide +kernel),
    access (by decide +kernel) (by decide +kernel)⟩

theorem meets_Signals :
    let a := me 9 4 1 (off := true) (order := .ar) (width := .w64)
    (w g0).Acts 0 g0 ∧ a.width = .w64 ∧ g0.signalAddr a % 8 = 0 ∧ (w g0).logsPage 0 [g0.signalAddr a] = false ∧ (w g0).QueueOpen 0 (at0 8) ∧
    (w g0).Hit 0 1 false .write (g0.signalAddr a) (at0 8) ∧ (w g0).Sound 0 (at0 8) 8 true ∧
    (w g0).MayAccess 0 g0 (readsS [a.a.toNat, a.a.toNat + 1]) [.s a.d.toNat] (Order.isRel a.order) true :=
  ⟨w_acts _, rfl, by decide +kernel, by decide +kernel, queueOpen rfl, hit page0 (by decide +kernel),
    sound rfl (w_cached _ _) (by decide +kernel), access (by decide +kernel) (by decide +kernel)⟩

/-- With the last condition, 5. -/
theorem meets_SignalWaits :
    let a := me 9 4 0 (off := true) (order := .acq) (hint := 10) (width := .w32)
    (w g0).Acts 0 g0 ∧ a.width = .w32 ∧ a.hint.toNat / 2 < 6 ∧ g0.active ≠ 0 ∧ g0.signalAddr a % 4 = 0 ∧
    (w g0).logsPage 0 [g0.signalAddr a] = false ∧ (w g0).Hit 0 1 false .read (g0.signalAddr a) (at0 0) ∧
    (w g0).Sound 0 (at0 0) 4 false ∧ (w g0).MayAccess 0 g0 (readsS [a.a.toNat, a.a.toNat + 1]) [.s a.d.toNat] false false :=
  ⟨w_acts _, rfl, by decide, by decide +kernel, by decide +kernel, by decide +kernel, hit page0 (by decide +kernel),
    sound rfl (w_cached _ _) (by decide +kernel), access (by decide +kernel) (by decide +kernel)⟩

/-- At the last offset of the allocation. -/
theorem meets_ScratchAccess :
    let a := me 4 3 0 (off := true) (width := .w128)
    let g : Group := { g0 with vregs := [(3, List.replicate 32 4080)] }
    (w g).Acts 0 g ∧ aget (w g).teams g.team = some team0 ∧ team0.scratch.wf = true ∧ (w g).ScratchOk g 16 (g.scratchOff a) ∧
    (w g).MayAccess 0 g (readsIn (scratchRegs a) g.active) (vrange a.d.toNat (dataRegs a.width)) false false ∧
    (∀ l < 32, g.active.getLsbD l = true → team0.isBad (g.scratchOff a l) 16 = false) ∧
    (w g).MayAccess 0 g (readsIn (vrange a.d.toNat (dataRegs a.width) ++ scratchRegs a) g.active) [] (Order.isRel a.order) true :=
  ⟨w_acts _, rfl, rfl, by unfold State.ScratchOk; decide +kernel, access (by decide +kernel) (by decide +kernel), by decide +kernel,
    access (by decide +kernel) (by decide +kernel)⟩

/-- A full granule, and an empty one. -/
theorem meets_FullEmpty :
    let a := me 4 3 0 (off := true) (hint := 2) (width := .w32)
    (w lane0).Acts 0 lane0 ∧ aget (w lane0).teams lane0.team = some team0 ∧ team0.scratch.wf = true ∧ lane0.Only 0 ∧
    (w lane0).ScratchOk lane0 4 (lane0.scratchOff a) ∧
    (w lane0).MayAccess 0 lane0 (readsIn (scratchRegs a) lane0.active) (vrange a.d.toNat (dataRegs a.width)) false false ∧
    (w lane0).MayAccess 0 lane0 (readsIn (vrange a.d.toNat (dataRegs a.width) ++ scratchRegs a) lane0.active) [] true true ∧
    lane0.scratchOff a 0 / 16 ∉ team0.full ∧
    (let t : Team := { team0 with full := [0] };
      let s : State := { w lane0 with teams := [(0, t)] }
      aget s.teams lane0.team = some t ∧ lane0.scratchOff a 0 / 16 ∈ t.full ∧ t.isBad (lane0.scratchOff a 0) 4 = false) :=
  ⟨w_acts _, rfl, rfl, only0 (by decide +kernel), by unfold State.ScratchOk; decide +kernel,
    access (by decide +kernel) (by decide +kernel), access (by decide +kernel) (by decide +kernel), by decide +kernel, rfl,
    by decide +kernel, by decide +kernel⟩

/-- Lanes of one granule, full under `.clr`; lanes that store; and lanes that put tags into one slot. -/
theorem meets_LaneScratch :
    let t : Team := { team0 with full := [0] }
    let a := me 10 6 0 (off := true) (hint := 2) (width := .w32)
    let g := striding 4
    let s : State := { w g with teams := [(0, t)] }
    s.Acts 0 g ∧ aget s.teams g.team = some t ∧ t.scratch.wf = true ∧ s.ScratchOk g 4 (g.scratchOff a) ∧
    s.MayAccess 0 g (readsIn (scratchRegs a) g.active) (vrange a.d.toNat (dataRegs a.width)) false false ∧
    (∀ l < 32, g.active.getLsbD l = true → g.scratchOff a l / 16 ∈ t.full → t.isBad (g.scratchOff a l) 4 = false) ∧
    s.MayAccess 0 g (readsIn (vrange a.d.toNat (dataRegs a.width) ++ scratchRegs a) g.active) [] true true ∧
    (let h := striding 128;
      g0.Free (readsIn (vrange 10 2 ++ [.v 7]) g0.active) [] ∧ s.ScratchOk g0 256 (fun l => (g0.v 7 l).toNat) ∧
        (t.tags.map Prod.fst).Nodup ∧ ¬s.ScratchOk h 256 fun l => (h.v 6 l).toNat) :=
  ⟨acts rfl rfl, rfl, rfl, by unfold State.ScratchOk; decide +kernel, access (by decide +kernel) (by decide +kernel), by decide +kernel,
    access (by decide +kernel) (by decide +kernel), free (by decide +kernel), by unfold State.ScratchOk; decide +kernel, by decide,
    by unfold State.ScratchOk; decide +kernel⟩

/-- The range that ends where the allocation does. -/
theorem meets_GranuleRanges :
    let g := withS [(9, 16), (10, 4080)]
    (w g).Acts 0 g ∧ aget (w g).teams g.team = some team0 ∧ (g.s 9).toNat % 16 = 0 ∧ (g.s 10).toNat % 16 = 0 ∧
    (g.s 9).toNat + (g.s 10).toNat = (w g).scratchSize g ∧ (w g).MayAccess 0 g (readsS [9, 10]) [] true true ∧
    (w g).MayAccess 0 g (readsS [9, 10]) [] false false :=
  ⟨w_acts _, rfl, by decide +kernel, by decide +kernel, by decide +kernel, access (by decide +kernel) (by decide +kernel),
    access (by decide +kernel) (by decide +kernel)⟩

theorem meets_TagTable :
    (w lane0).Acts 0 lane0 ∧ aget (w lane0).teams lane0.team = some team0 ∧
    lane0.Free (readsIn (vrange 6 2) lane0.active) [.v 5] ∧ lane0.Only 0 ∧
    lane0.Free (readsIn (vrange 6 2 ++ [.v 7]) lane0.active) [] ∧ (w lane0).ScratchOk lane0 256 (fun l => (lane0.v 7 l).toNat) ∧
    lane0.Free (readsIn (vrange 6 2) lane0.active) [] :=
  ⟨w_acts _, rfl, free (by decide +kernel), only0 (by decide +kernel), free (by decide +kernel),
    by unfold State.ScratchOk; decide +kernel, free (by decide +kernel)⟩

theorem meets_Hints :
    let a := me 0 6 0 (off := true);
    (w lane0).Acts 0 lane0 ∧ (w lane0).MayAccess 0 lane0 (readsIn (addrRegs a) lane0.active) [] false false ∧
    (w lane0).CacheSound 0 ∧
    ∀ l < 32, lane0.active.getLsbD l = true → (w lane0).Hit 0 1 false .read (lane0.addrOf a l) (at0 0) ∧
      (w lane0).Sound 0 (at0 0) 1 false := by
  intro a
  refine ⟨w_acts _, access (by decide +kernel) (by decide +kernel), w_cached _ _, fun l hl h => ?_⟩
  have : lane0.addrOf a l = 0 := by revert l; decide +kernel
  rw [this]
  exact ⟨hit page0 (by decide +kernel), sound rfl (w_cached _ _) (by decide +kernel)⟩

/-- A block of two entries at 0x1000, for the words at 0x2000 and 0x2008. -/
theorem meets_MultiCompare :
    let g := withS [(10, 0x1000)]
    let s : State := { w g with mem := [(0x1000, 2), (0x1009, 0x20), (0x1020, 8), (0x1021, 0x20)] }
    s.Acts 0 g ∧ s.MayAccess 0 g (readsS [10]) [.s 9] true true ∧
    s.BlockMapped g (g.s 10).toNat 2 (fun j => at0 (0x1000 + 8 * j)) (fun k => at0 (0x2000 + 8 * k)) := by
  intro g s
  have hc : s.CacheSound (s.coreOf g) := cached (by decide +kernel) faultless rfl _
  refine ⟨acts rfl rfl, access (by decide +kernel) (by decide +kernel), by decide +kernel, fun j hj => ⟨?_, ?_, fresh rfl _ _⟩,
    fun k hk => ?_, by decide +kernel⟩
  · have : (g.s 10).toNat = 0x1000 := by decide +kernel
    rw [this]
    exact hit page0 (by revert j; decide +kernel)
  · exact sound rfl hc (by revert j; decide +kernel)
  · have : s.seenValue (s.coreOf g) (locOf (at0 (0x1000 + 8 * (1 + 3 * k))).pa) 8 = 0x2000 + 8 * k := by revert k; decide +kernel
    simp only [this]
    exact ⟨by revert k; decide +kernel, hit page0 (by revert k; decide +kernel), sound rfl hc (by revert k; decide +kernel),
      by revert k; decide +kernel⟩

theorem meets_Fences :
    let a := me 0 0 0 (scope := .sys) (order := .sc)
    (w g0).Acts 0 g0 ∧ (w g0).CacheSound 0 ∧ g0.readsOut = false ∧ (w g0).acquiring 0 = false ∧ g0.lost = [] ∧
    (Order.isRel a.order = true → (w g0).logs 0 = false ∧ (w g0).writesOut 0 = false) ∧
    (Order.isAcq a.order = true → g0.logsOut = false) ∧ (a.scope ≠ .grp → (w g0).owed 0 = none) :=
  ⟨w_acts _, w_cached _ _, by decide +kernel⟩

theorem meets_CodeWords :
    (w g0).Acts 0 g0 ∧ (w g0).CacheSound 0 ∧ g0.Free (readsS [9, 10]) [] ∧ (w g0).unsettled 0 g0 = false ∧ g0.lost = [] :=
  ⟨w_acts _, w_cached _ _, free (by decide +kernel), by decide +kernel, rfl⟩

/-- A lane whose pointer names a line of SCM. -/
def scm0 : Group := { lane0 with vregs := [(6, List.replicate 32 0x40000000)] }

theorem meets_PersistWords :
    (let a := me 0 6 0 (off := true);
      let x := page1.xlat (scm0.addrOf a 0 % 2 ^ 57)
      (w scm0).Acts 0 scm0 ∧ scm0.Only 0 ∧ scm0.Free (readsIn (addrRegs a) scm0.active) [] ∧
        (w scm0).logsPage 0 [scm0.addrOf a 0] = false ∧ (w scm0).Hit 0 1 false .read (scm0.addrOf a 0) x ∧
        (w scm0).Sound 0 x 1 true ∧ x.kind = 1 ∧ x.pt = false ∧ placeOf (locOf x.pa) = .scm ∧
        (w scm0).inRegion (locOf x.pa) = false ∧ ∀ k < 128, (w scm0).inRegion (128 * (locOf x.pa / 64 / 2) + k) = false) ∧
    (w g0).Acts 0 g0 ∧ (w g0).logs 0 = false ∧ (w g0).writesOut 0 = false ∧ g0.readsOut = false ∧ g0.lost = [] ∧ g0.scmDirty = [] ∧
    g0.persists = [] ∧ (w g0).scmAway 0 ((w g0).coreOf g0) = [] ∧ (w g0).scmBacking 0 = false ∧ (w g0).fragmentsOut 0 = false ∧ g0.stripeLost = [] ∧ g0.Free (readsS [10]) [.s 9] ∧
    aget (w g0).ctxs ((w g0).ctxOf g0) = some {} :=
  ⟨⟨w_acts _, only0 (by decide +kernel), free (by decide +kernel), by decide +kernel, hit page1 (by decide +kernel),
    sound rfl (w_cached _ _) (by decide +kernel), by decide +kernel⟩, w_acts _, by decide +kernel, by decide +kernel, by decide +kernel,
    rfl, rfl, rfl, by decide +kernel, by decide +kernel, by decide +kernel, rfl, free (by decide +kernel), by decide +kernel⟩

/-- Two lanes, at granules of one line of SCM. -/
theorem meets_LanePersists :
    let a := me 0 6 0 (off := true)
    let g : Group := { g0 with em := 3, vregs := [(6, [0x40000000, 0x40000040])] }
    let X := fun l => page1.xlat (g.addrOf a l % 2 ^ 57)
    (w g).Acts 0 g ∧ g.Free (readsIn (addrRegs a) g.active) [] ∧ (w g).logsPage 0 ((lanesOf g.active).map (g.addrOf a)) = false ∧
    locOf (X 0).pa / 64 + 1 = locOf (X 1).pa / 64 ∧
    ∀ l < 32, g.active.getLsbD l = true → (w g).Hit 0 1 false .read (g.addrOf a l) (X l) ∧ (w g).Sound 0 (X l) 1 true ∧
      (X l).kind = 1 ∧ (X l).pt = false ∧ placeOf (locOf (X l).pa) = .scm ∧ (w g).inRegion (locOf (X l).pa) = false ∧
      ∀ k < 128, (w g).inRegion (128 * (locOf (X l).pa / 64 / 2) + k) = false := by
  refine ⟨w_acts _, free (by decide +kernel), by decide +kernel, by decide +kernel, fun l hl h => ?_⟩
  have : l = 0 ∨ l = 1 := by revert l; decide +kernel
  rcases this with rfl | rfl <;>
  exact ⟨hit page1 (by decide +kernel), sound rfl (w_cached _ _) (by decide +kernel), by decide +kernel⟩

/-- Words that read zero from an address of the first page. -/
theorem words {s : State} {g : Group} {va n : Nat} (hc : s.CacheSound (s.coreOf g)) (h3 : s.l1 = [])
    (h : ∀ j < n, (decide (s.tlbFind (.l1 (s.coreOf g)) (s.ctxOf g) ((va + 8 * j) % 2 ^ 57) = some page0 ∧
      s.tlbFind (.l2 (s.coreOf g / 64)) (s.ctxOf g) ((va + 8 * j) % 2 ^ 57) = some page0 ∧ page0.serves g.supervisor .read = true) &&
      soundHere s (at0 (va + 8 * j)) 8 false) = true) :
    s.WordsMapped g va n fun j => at0 (va + 8 * j) := fun j hj => by
  have := h j hj
  simp only [Bool.and_eq_true] at this
  exact ⟨hit page0 this.1, sound h3 hc this.2, fresh h3 _ _⟩

/-- One step, and a lane whose chase of it can resume. -/
theorem meets_Chases :
    let g := withS [(9, 0x1000)]
    let B := fun j => at0 (0x1000 + 8 * j)
    (w g).Acts 0 g ∧ (w g).CacheSound 0 ∧ (w g).KioskFree (lanesOf g.active).length ∧ (g.s 9).toNat % 128 = 0 ∧ (w g).WordsMapped g 0x1000 2 B ∧
    (chaseSteps 1 ((List.range 2).map ((w g).wordOf g B))).2 = true ∧
    (w g).MayIssue 0 g (readsIn (vrange 6 2) g.active ++ readsS [9]) (vrange 4 2) ∧ g.active ≠ 0 ∧
    (let h : Group := { g with marks := [{ scalar := false, reg := 4, lane := 7, kind := .chase 3 0 2 }] };
      (w h).Acts 0 h ∧ (w h).MayIssue 0 h (readsS [9]) (vrange 4 2) ∧
        ((lanesOf h.active).filterMap fun l => (h.resumable 4 1 l).map fun r => (l, r)) ≠ []) :=
  ⟨w_acts _, w_cached _ _, kiosks (by decide +kernel), by decide +kernel, words (w_cached _ _) rfl (by decide +kernel),
    by decide +kernel, mayIssue (by decide +kernel) (by decide +kernel), by decide +kernel, w_acts _, mayIssue (by decide +kernel) (by decide +kernel),
    by decide +kernel⟩

theorem meets_Lists :
    let g := withS [(9, 0x1000)]
    (w g).Acts 0 g ∧ (w g).CacheSound 0 ∧ (w g).KioskFree (lanesOf g.active).length ∧ (g.s 9).toNat % 16 = 0 ∧ g.active ≠ 0 ∧
    (w g).MayIssue 0 g (readsS [9] ++ readsIn (vrange 6 2) g.active) [] ∧ (w g).MayIssue 0 g (readsS [9] ++ []) (vrange 6 2) :=
  ⟨w_acts _, w_cached _ _, kiosks (by decide +kernel), by decide +kernel, by decide +kernel, mayIssue (by decide +kernel) (by decide +kernel),
    mayIssue (by decide +kernel) (by decide +kernel)⟩

/-- A recipe of one operation that writes stream 0, at 0x1000; and a block of one element, at 0x2000. -/
theorem meets_Recipes :
    let g := withS [(9, 0x1000), (10, 0x2000)]
    let s : State := { w g with
      mem := [(0x1000, 1), (0x1060, 0x11), (0x2018, 1)]
      ctxs := [(1, { recipes := [(3, { bytes := 1 :: List.replicate 95 0 ++ 0x11 :: List.replicate 31 0 })] })] }
    let B := fun j => at0 (0x1000 + 8 * j)
    let C := fun j => at0 (0x2000 + 8 * j)
    s.Acts 0 g ∧ s.CacheSound 0 ∧ s.MayIssue 0 g (readsS [9]) [] ∧ s.WordsMapped g (g.s 9).toNat 16 B ∧
    recipeOk ((List.range 16).flatMap fun j => leBytes 8 (s.wordOf g B j).toNat) = true ∧
    s.MayIssue 0 g (readsS [10]) [] ∧ s.WordsMapped g (g.s 10).toNat 4 C ∧ (∀ k ∈ s.krcps, ¬(k.ctx = s.ctxOf g ∧ k.slot = 3)) ∧
    s.KioskFree (min 512 ((1 + 15) / 16)) ∧ ∃ rcp, aget (s.ctx (s.ctxOf g)).recipes 3 = some rcp ∧ (s.wordOf g C 3).toNat = 1 ∧
      ∀ k < 3, recipeReads rcp.bytes k = true ∨ recipeWrites rcp.bytes k = true → (s.wordOf g C k).toNat % 64 = 0 := by
  intro g s B C
  have hc : s.CacheSound 0 := cached (by decide +kernel) faultless rfl _
  have h9 : (g.s 9).toNat = 0x1000 := by decide +kernel
  have h10 : (g.s 10).toNat = 0x2000 := by decide +kernel
  rw [h9, h10]
  exact ⟨acts rfl rfl, hc, mayIssue (by decide +kernel) (by decide +kernel), words hc rfl (by decide +kernel), by decide +kernel,
    mayIssue (by decide +kernel) (by decide +kernel), words hc rfl (by decide +kernel), (fun k h => by cases h),
    kiosks (by decide), _, rfl, by decide +kernel, by decide +kernel⟩

/-- The widest row. -/
theorem meets_Rows :
    let g := withS [(5, 4)]
    (w g).Acts 0 g ∧ (w g).CacheSound 0 ∧ rowSize (g.s 5) = some 1024 ∧ 8 % rowRegs 1024 = 0 ∧
    8 + rowRegs 1024 ≤ (w g).window g ∧
    (w g).MayAccess 0 g (readsS [4, 5] ++ readsIn (vrange 8 8) g.active) (vrange 8 8) true true ∧
    (w g).MayAccess 0 g (readsS [4, 5] ++ []) (vrange 8 8) false true ∧ (g.s 4).toNat % 1024 = 0 ∧
    (w g).logsPage 0 [(g.s 4).toNat] = false ∧ (w g).Hit 0 1 false .write (g.s 4).toNat (at0 0) ∧
    (w g).Hit 0 1 false .read (g.s 4).toNat (at0 0) ∧ (at0 0).kind < 2 ∧ (w g).KioskRoom ∧ (w g).QueueOpen 0 (at0 0) ∧ (2 : Nat) ≠ 3 :=
  ⟨w_acts _, w_cached _ _, by decide +kernel, by decide +kernel, by decide +kernel, access (by decide +kernel) (by decide +kernel),
    access (by decide +kernel) (by decide +kernel), by decide +kernel, by decide +kernel, hit page0 (by decide +kernel),
    hit page0 (by decide +kernel), by decide +kernel, room, queueOpen rfl, by decide⟩

theorem meets_Multicast :
    (let a := me 5 6 3 (scope := .row) (order := .rel) (width := .w32);
      (w lane0).Acts 0 lane0 ∧ (w lane0).CacheSound 0 ∧ lane0.active ≠ 0 ∧
        (w lane0).MayAccess 0 lane0 (readsIn (vrange a.d.toNat (dataRegs a.width) ++ vrange a.a.toNat 2) lane0.active) []
          (Order.isRel a.order) true ∧
        ∀ l < 32, lane0.active.getLsbD l = true →
          let va := fun l => (lane0.v64 a.a.toNat l).toNat % 2 ^ 57
          va l % 4 = 0 ∧ (w lane0).logsPage 0 [va l] = false ∧ (w lane0).Hit 0 1 false .write (va l) (at0 0) ∧ (at0 0).kind ≠ 3 ∧
            ((at0 0).kind = 2 → (w lane0).lineOut 0 0 (at0 0).pa = false) ∧ ∀ k < 32, lane0.active.getLsbD k = true → va k / 1024 = va l / 1024) ∧
    (w g0).Acts 0 g0 ∧ g0.supervisor = false ∧
    (let s : State := { w boss with cfg := some {} };
      s.Acts 0 boss ∧ boss.supervisor = true ∧ boss.Free (readsS [9]) [] ∧ aget s.ctxs (s.ctxOf boss) = some {} ∧
        s.cfg = some {} ∧ boss.mctw = none ∧ s.mcasts = [] ∧ s.rowOps = [] ∧ s.egress = []) := by
  refine ⟨⟨w_acts _, w_cached _ _, by decide +kernel, access (by decide +kernel) (by decide +kernel), fun l hl _ => ?_⟩, w_acts _, rfl,
    acts rfl rfl, rfl, free (by decide +kernel), by decide +kernel, rfl, rfl, rfl, rfl, rfl⟩
  have h : ∀ k < 32, (lane0.v64 6 k).toNat % 2 ^ 57 = 0 := by decide +kernel
  have e : (me 5 6 3 (scope := .row) (order := .rel) (width := .w32)).a.toNat = 6 := rfl
  simp only [e]
  rw [h l hl]
  exact ⟨rfl, by decide +kernel, hit page0 (by decide +kernel), by decide +kernel, fun _ => rfl, fun k hk _ => by rw [h k hk]⟩

/-! ### Hypotheses that states meet: pairs, latches, and the words of 07 -/

/-- `IADD v3, v3, v1 ; MOV v4, v2`. -/
def aPair : PArgs :=
  { slotA := { op := .iadd, d := 3, a := 1, la := false, nw := false, mode := 0 }
    slotB := { op := .mov, d := 4, a := 2, la := false, nw := false, mode := 0 } }

theorem meets_PairedWords :
    ∃ F G, vecForm (Slot.alone aPair.slotA) = some F ∧ vecForm (Slot.alone aPair.slotB) = some G ∧
      aPair.slotA.op.modeOk aPair.slotA.mode = true ∧ aPair.slotB.op.modeOk aPair.slotB.mode = true ∧ (w g0).Acts 0 g0 ∧
      g0.Latched (F.latches ++ G.latches) ∧ g0.Free (F.reads g0 ++ G.reads g0) (F.dst.writes ++ G.dst.writes) :=
  ⟨_, _, rfl, rfl, by decide, by decide, w_acts _, latched (by decide +kernel), free (by decide +kernel)⟩

theorem meets_CarryAndLane :
    (let F := carryForm (ve 3 1 2 .n32 (sub := 7));
      (w g0).Acts 0 g0 ∧ g0.Latched F.latches ∧ g0.Free (F.reads g0) F.dst.writes) ∧
    g0.Free (readsS [(im 3 4 31).a.toNat]) [.v (im 3 4 31).d.toNat] :=
  ⟨⟨w_acts _, latched (by decide +kernel), free (by decide +kernel)⟩, free (by decide +kernel)⟩

/-- The first word of a chain names `b0`; and one that continues a chain with one result names `b1`. -/
theorem meets_LatchTraps :
    (let i := Instr.iadd { ve 3 1 0 .i32 with lb := true };
      ∃ F, vecForm i = some F ∧ (w g0).Acts 0 g0 ∧ ¬g0.Latched F.latches) ∧
    (let g : Group := { g0 with chain := { isOpen := true, members := 1, vecs := 1, lanes := g0.active, head := 3 } };
      ∃ F, vecForm (.iadd { ve 3 1 1 .i32 with lb := true }) = some F ∧ (w g).Acts 0 g ∧ ¬g.Latched F.latches ∧ g.continues = true ∧
        g.supervisor = false) := by
  refine ⟨⟨_, rfl, w_acts _, fun h => ?_⟩, ⟨_, rfl, w_acts _, fun h => ?_, by decide +kernel, rfl⟩⟩
  · exact absurd (h 0 (by decide +kernel)) (by decide +kernel)
  · exact absurd (h 1 (by decide +kernel)) (by decide +kernel)

/-- In scratch, at the end of the allocation, and in memory. -/
theorem meets_MapRecords :
    (let g := withS [(9, 4032)];
      (w g).Acts 0 g ∧ aget (w g).teams g.team = some team0 ∧ (g.s 9).toNat % 64 = 0 ∧
        (w g).MayAccess 0 g (readsS [9]) [] false false ∧ (w g).MayAccess 0 g (readsS [9]) [] false true ∧
        (tn 0 9 0 3 (op := 1)).op.getLsbD 0 = true ∧ (g.s 9).toNat + 64 ≤ (w g).scratchSize g ∧
        team0.isBad (g.s 9).toNat 64 = false ∧ team0.scratch.wf = true) ∧
    ((w g0).MayAccess 0 g0 (readsS [9]) [] false false ∧ (w g0).MayAccess 0 g0 (readsS [9]) [] false true ∧
      (tn 0 9 0 3).op.getLsbD 0 = false ∧ (w g0).logsPage 0 [0] = false ∧ (g0.s 9).toNat = 0 ∧
      (w g0).Hit 0 1 false .read 0 (at0 0) ∧ (w g0).Sound 0 (at0 0) 64 false ∧ (w g0).NotStale 0 0 ∧
      (w g0).Hit 0 1 false .write 0 (at0 0) ∧ (w g0).Sound 0 (at0 0) 64 true) :=
  ⟨⟨w_acts _, rfl, by decide +kernel, access (by decide +kernel) (by decide +kernel), access (by decide +kernel) (by decide +kernel),
    by decide, by decide +kernel, by decide +kernel, rfl⟩,
    access (by decide +kernel) (by decide +kernel), access (by decide +kernel) (by decide +kernel), by decide, by decide +kernel,
    by decide +kernel, hit page0 (by decide +kernel), sound rfl (w_cached _ _) (by decide +kernel), fresh rfl _ _,
    hit page0 (by decide +kernel), sound rfl (w_cached _ _) (by decide +kernel)⟩

theorem meets_MapRegisters :
    (w g0).Acts 0 g0 ∧ aget (w g0).teams g0.team = some team0 ∧ g0.Free (readsS [9]) [] ∧ g0.Free [] [.s 9] :=
  ⟨w_acts _, rfl, free (by decide +kernel), free (by decide +kernel)⟩

/-- A handle of no context; a complete copy; one that failed, by `FWAIT` and by `TLWAIT`. -/
theorem meets_Waits :
    let trap : TrapInfo := { code := 0x14 }
    let f : Failure := { seqNo := 2, status := 1, trap := some trap }
    let g : Group := { g0 with handles := [(1, mkHandle 0x7F 1), (2, mkHandle 1 2)], sregs := [(9, mkHandle 1 2)] }
    let s : State := { w g with engines := [(.copy 0, { issued := 2 })] }
    let s' : State := { w g with engines := [(.copy 0, { issued := 2, fails := [f] })] }
    s.Acts 0 g ∧ s.CacheSound (s.coreOf g) ∧ g.Free [] [] ∧ g.Free (readsS [9]) [] ∧
    s.codeKey 0 g (handleCode (g.h 1)) = none ∧ s.codeKey 0 g (handleCode (g.h 2)) = some (.copy 0) ∧
    handleSeq (g.h 2) ≤ (s.engine (.copy 0)).issued ∧ handleSeq (g.h 2) ∉ (s.engine (.copy 0)).active ∧
    handleSeq (g.s 9) ≤ (s.engine (.copy 0)).timeline ∧ (s.engine (.copy 0)).fails = [] ∧ s'.Acts 0 g ∧
    f ∈ (s'.engine (.copy 0)).fails ∧ f.delivered = false ∧ f.trap.isSome = true ∧ f.seqNo = handleSeq (g.h 2) ∧
    ∀ f' ∈ (s'.engine (.copy 0)).fails, f' = f := by
  intro trap f g s s'
  exact ⟨acts rfl rfl, cached rfl faultless rfl _, free (by decide +kernel), free (by decide +kernel), by decide +kernel, by decide +kernel,
    by decide +kernel, by decide +kernel, (by decide +kernel : _ ≤ _), (rfl : _ = []), acts rfl rfl, by decide +kernel, rfl, rfl,
    by decide +kernel, by decide +kernel⟩

/-- A copy with units left: not waiting for a peer, waiting for one, and in the middle of a unit; and one that has none left. -/
theorem meets_FutureTests :
    let o : CopyOp := { gid := 0, seqNo := 1, kind := .fill false 0 64 0 }
    let g : Group := { g0 with handles := [(1, mkHandle 0x7F 1), (2, mkHandle 1 1), (3, mkHandle 1 2)] }
    let s : State := { w g with engines := [(.copy 0, { issued := 1, active := [1] })], copyOps := [o] }
    let r : Remote := { tag := 0, peer := 1, addr := 0, what := .copyUnit 0 1 }
    let s' : State := { s with remotes := [r] }
    let s'' : State := { s with copyOps := [{ o with begun := true }] }
    s.Acts 0 g ∧ s.CacheSound (s.coreOf g) ∧ g.Free [] [.s 9] ∧ g.Free [] [] ∧
    s.codeKey 0 g (handleCode (g.h 1)) = none ∧ s.codeKey 0 g (handleCode (g.h 2)) = some (.copy 0) ∧
    handleSeq (g.h 2) ∈ (s.engine (.copy 0)).active ∧ (s.engine (.copy 0)).issued < handleSeq (g.h 3) ∧
    (let u : State := { w g with engines := [(.copy 0, { issued := 1 })] };
      handleSeq (g.h 2) ≤ (u.engine (.copy 0)).issued ∧ handleSeq (g.h 2) ∉ (u.engine (.copy 0)).active ∧
        ∀ o ∈ u.copyOps, o.units ≤ o.done) ∧
    handleCode (g.h 2) = 1 ∧ s.copyOps = [o] ∧ o.seqNo = handleSeq (g.h 2) ∧ o.done < o.units ∧ o.lostPeer = none ∧ o.failed = none ∧
    o.begun = false ∧ (∀ x ∈ s.remotes, x.what ≠ .copyUnit 0 1) ∧ (∃ x ∈ s'.remotes, x.what = .copyUnit 0 (handleSeq (g.h 2))) ∧
    s''.Acts 0 g ∧ s''.copyOps = [{ o with begun := true }] ∧ ({ o with begun := true } : CopyOp).done < o.units := by
  intro o g s r s' s''
  exact ⟨acts rfl rfl, cached rfl faultless rfl _, free (by decide +kernel), free (by decide +kernel), by decide +kernel, by decide +kernel,
    by decide +kernel, by decide +kernel, ⟨by decide +kernel, by decide +kernel, fun _ h => by cases h⟩, by decide +kernel, rfl,
    by decide +kernel, by decide +kernel, rfl, rfl, rfl, (fun _ h => by cases h), ⟨r, .head _, by decide +kernel⟩, acts rfl rfl, rfl,
    by decide +kernel⟩

/-- The record of a map of 64 by 64 elements in rows, with no scales. -/
def mapWords (code : Nat) (flags : Nat := 0) : List Word32 :=
  [0, 0, 0, 0, 64, 64, 256, 0, BitVec.ofNat 32 (64 + 64 * 65536), BitVec.ofNat 32 (code + 0x80 + flags), 0, 0,
    0x4000, 0, 0, 0]
/-- A team with 64 KiB of scratch, whose maps 0 to 3 are of FP32, E4M3, E4M3 with row scales, and E4M3 that transposes. -/
def bigGang : Gang := { gang0 with rec_ := { gang0.rec_ with scratch := 16 } }
def bigTeam : Team :=
  { team0 with
    tmaps := [(0, { words := mapWords 10 }), (1, { words := mapWords 13 }), (2, { words := mapWords 13 0x100 }), (3, { words := mapWords 13 0x40 })] }
def big (g : Group) : State := { w g with teams := [(0, bigTeam)], gangs := [(0, bigGang)] }

/-- Each of the five kinds with units, and a fill without one. -/
theorem meets_Copies :
    let S := fun (n : Nat) => (g0.s n).toNat
    let words := fun (k : Nat) => (((big g0).team g0.team).tmap k).words
    let fits := fun (k : Nat) (u : MapUse) =>
      mapStatus (mapOf (words k)) u = none ∧ mapOver (mapOf (words k)) ((big g0).scratchSize g0) = none
    let base : CopyOp := { gid := 0, seqNo := 1, kind := .fill false 0 0 0 }
    (big g0).Acts 0 g0 ∧ (big g0).CacheSound 0 ∧ (big g0).MayIssue 0 g0 (readsS [9, 10]) [] ∧
    (big g0).MayIssue 0 g0 (readsS [9, 10, 11]) [] ∧ ((big g0).engine (.copy 0)).issued + 1 = 1 ∧ S 9 = 0 ∧
    fits 1 (.copy 0 0) ∧ ({ base with kind := .tile false false 0 0, mapNo := 1, map := words 1 }).units ≠ 0 ∧
    fits 0 (.reduce 0 0) ∧ ({ base with kind := .reduce 3 0 0, mapNo := 0, map := words 0 }).units ≠ 0 ∧
    fits 1 (.gather 0) ∧ ({ base with kind := .gather true 0 0, mapNo := 1, map := words 1 }).units ≠ 0 ∧
    S 9 + 4 * (mapOf (words 1)).trows ≤ (big g0).scratchSize g0 ∧ base.units = 0 ∧
    (let g := withS [(11, 32)];
      (w g).Acts 0 g ∧ (w g).MayIssue 0 g (readsS [9, 10, 11]) [] ∧ (g.s 9).toNat + (g.s 11).toNat ≤ (w g).scratchSize g ∧
        (g.s 10).toNat + (g.s 11).toNat ≤ (w g).scratchSize g ∧ (g.s 11).toNat % 16 = 0 ∧
        ({ base with kind := .range 3 0 0 32 }).units ≠ 0) :=
  ⟨acts rfl rfl, cached rfl faultless rfl _, mayIssue (by decide +kernel) (by decide +kernel),
    mayIssue (by decide +kernel) (by decide +kernel), rfl, rfl, by decide +kernel, by decide +kernel, by decide +kernel, of_decide_eq_true rfl,
    by decide +kernel, by decide +kernel, of_decide_eq_true rfl, rfl, w_acts _, mayIssue (by decide +kernel) (by decide +kernel),
    by decide +kernel⟩

/-- What a test asks of bytes that a copy engine reads or writes through the first page. -/
def engOk (s : State) (need : Need) (vas : List Nat) : Bool := vas.all fun va =>
  let a := va % 2 ^ 57
  decide (s.tlbFind (.ahead 0) 1 a = some page0) && decide (s.tlbFind (.l2 0) 1 a = some page0) && page0.serves false need &&
    decide (locOf (at0 va).pa = a) && decide (placeOf a = .hbm) && !inFirmware a && !s.withdrawn a && decide (s.dir = []) &&
    decide (s.lineOpen (a / 128) true = .ready)
theorem eng_free {s : State} {a : Nat} (h : s.dir = []) (h2 : s.lineOpen (a / 128) true = .ready) : s.LineFree (a / 128) :=
  ⟨by simp [State.entry, h, agetD, aget], h2, by simp [State.entry, h, agetD, aget], by simp [State.entry, h, agetD, aget]⟩
theorem engReads {s : State} {o : CopyOp} {g : Group} {vas : List Nat} (h0 : s.coreOf g = 0 ∧ s.ctxOf g = 1 ∧ o.supervisor = false)
    (h3 : s.l1 = []) (hf : s.Faultless) (h : engOk s .read vas = true) : s.EngineReads o g vas at0 := by
  have e : ∀ va ∈ vas, _ := fun va hv => List.all_eq_true.mp h va hv
  simp only [Bool.and_eq_true, decide_eq_true_eq, Bool.not_eq_true'] at e
  refine ⟨fun va hv => ?_, fun va hv => ⟨(by decide : (0 : Nat) < 2), ?_⟩, ⟨hf, fun a ha => ?_, fun x hx => by rw [h3] at hx; cases hx⟩⟩
  · rw [h0.1, h0.2.1, h0.2.2]
    obtain ⟨⟨⟨⟨⟨⟨⟨⟨a, b⟩, c⟩, -⟩, -⟩, -⟩, -⟩, -⟩, -⟩ := e va hv
    exact ⟨page0, a, b, c, rfl⟩
  · obtain ⟨⟨⟨⟨⟨⟨-, d⟩, p⟩, -⟩, -⟩, -⟩, -⟩ := e va hv
    rw [d]; exact .inl p
  · obtain ⟨va, hv, rfl⟩ := List.mem_map.mp ha
    obtain ⟨⟨⟨⟨⟨⟨-, d⟩, -⟩, -⟩, -⟩, i⟩, j⟩ := e va hv
    rw [d]; exact eng_free i j
theorem engWrites {s : State} {o : CopyOp} {g : Group} {vas : List Nat} (h0 : s.coreOf g = 0 ∧ s.ctxOf g = 1 ∧ o.supervisor = false)
    (h3 : s.l1 = []) (hf : s.Faultless) (hm : s.mem.wf = true) (h : engOk s .write vas = true) : s.EngineWrites o g vas at0 := by
  have e : ∀ va ∈ vas, _ := fun va hv => List.all_eq_true.mp h va hv
  simp only [Bool.and_eq_true, decide_eq_true_eq, Bool.not_eq_true'] at e
  refine ⟨fun va hv => ?_, fun va hv => (by decide : (0 : Nat) < 2), ⟨hf, fun a ha => ?_, fun x hx => by rw [h3] at hx; cases hx⟩,
    ⟨hm, hf, fun a ha => ?_, fun a ha => ?_⟩, fun u hu v hv h => ?_⟩
  · rw [h0.1, h0.2.1, h0.2.2]
    obtain ⟨⟨⟨⟨⟨⟨⟨⟨a, b⟩, c⟩, -⟩, -⟩, -⟩, -⟩, -⟩, -⟩ := e va hv
    exact ⟨page0, a, b, c, rfl⟩
  · obtain ⟨va, hv, rfl⟩ := List.mem_map.mp ha
    obtain ⟨⟨⟨⟨⟨⟨-, d⟩, -⟩, -⟩, -⟩, i⟩, j⟩ := e va hv
    rw [d]; exact eng_free i j
  · obtain ⟨va, hv, rfl⟩ := List.mem_map.mp ha
    obtain ⟨⟨⟨⟨⟨⟨-, d⟩, p⟩, -⟩, -⟩, -⟩, -⟩ := e va hv
    rw [d]; exact .inl p
  · obtain ⟨va, hv, rfl⟩ := List.mem_map.mp ha
    obtain ⟨⟨⟨⟨⟨⟨-, d⟩, -⟩, f⟩, w⟩, -⟩, -⟩ := e va hv
    rw [d]; exact ⟨f, w⟩
  · have d : ∀ x ∈ vas, locOf (at0 x).pa = x % 2 ^ 57 := fun x hx => by
      obtain ⟨⟨⟨⟨⟨⟨-, d⟩, -⟩, -⟩, -⟩, -⟩, -⟩ := e x hx
      exact d
    rw [d u hu, d v hv] at h
    exact h

/-- A copy engine's turn on one operation. -/
def eng (o : CopyOp) (t : Team) : State :=
  { w g0 with cur := .none, copyOps := [o], teams := [(0, t)], tlbs := [(.ahead 0, page0), (.l2 0, page0)]
              engines := [(.copy 0, { issued := 1, active := [1] })] }
theorem eng_turn {o : CopyOp} {t : Team} (h1 : (o.gid = 0 ∧ t.scratch.wf = true ∧ o.heldPage = none ∧ o.failed = none ∧
    o.lostPeer = none ∧ o.cancelled = false) ∧ o.begun = false) : (eng o t).CopyTurn o g0 t := by
  obtain ⟨⟨h1, h2, a, b, c, d⟩, e⟩ := h1
  exact ⟨rfl, fun x hx _ _ => (by simpa [eng] using hx), by rw [h1]; rfl, rfl, h2, fun r hr => (by cases hr), a, b, c, d, e⟩
/-- A map of one row of 32 elements of a type, at address 0 and scratch offset 0, and a team with scratch that is full from there. -/
def rowMap (code : Nat) : List Word32 :=
  [0, 0, 0, 0, 64, 64, 256, 0, BitVec.ofNat 32 (1 + 32 * 65536), BitVec.ofNat 32 (code + 0x80), 0, 0, 0x4000, 0, 0, 0]
def fullTeam : Team := { bigTeam with full := List.range 8 }

/-- A copy and a fill of 32 bytes, of each kind; one that has no unit left. -/
theorem meets_CopyUnits_ranges :
    let o : CopyKind → CopyOp := fun k => { gid := 0, seqNo := 1, kind := k }
    (∀ k, (eng (o k) team0).CopyTurn (o k) g0 team0) ∧ (o (.fill false 0 0 0)).units ≤ (o (.fill false 0 0 0)).done ∧
    (∀ k, ((eng (o k) team0).gangOf g0).run ≠ .saved) ∧
    (∀ kind < 4, let s := eng (o (.range kind 64 0 32)) team0
      (o (.range kind 64 0 32)).done < (o (.range kind 64 0 32)).units ∧
        unitStart (decide (2 ≤ kind)) 64 32 1 - unitStart (decide (2 ≤ kind)) 64 32 0 = 32 ∧
        s.EngineReads (o (.range kind 64 0 32)) g0 ((List.range 32).map fun k => (0 + 0 + k) % 2 ^ 57) at0 ∧ 64 + 32 ≤ 2 ^ 57 ∧
        s.EngineWrites (o (.range kind 64 0 32)) g0 ((List.range 32).map (64 + 0 + ·)) at0) ∧
    ∀ b, let s := eng (o (.fill b 64 32 7)) team0
      (o (.fill b 64 32 7)).done < (o (.fill b 64 32 7)).units ∧ 64 + 32 ≤ 2 ^ 57 ∧
        s.EngineWrites (o (.fill b 64 32 7)) g0 ((List.range 32).map (64 + ·)) at0 := by
  intro o
  refine ⟨fun k => eng_turn ⟨⟨rfl, rfl, rfl, rfl, rfl, rfl⟩, rfl⟩, by decide, fun k => (by decide : GangRun.running ≠ .saved), fun kind hk => ?_,
    fun b => ⟨by revert b; decide, by decide, engWrites ⟨rfl, rfl, rfl⟩ rfl faultless rfl (by revert b; decide +kernel)⟩⟩
  have : kind = 0 ∨ kind = 1 ∨ kind = 2 ∨ kind = 3 := by omega
  rcases this with rfl | rfl | rfl | rfl <;>
  exact ⟨by decide, by decide, engReads ⟨rfl, rfl, rfl⟩ rfl faultless (by decide +kernel), by decide,
    engWrites ⟨rfl, rfl, rfl⟩ rfl faultless rfl (by decide +kernel)⟩

/-- A tile of 32 elements, loaded and stored from granules that are full; a gather of one row; and a reduction, also of a poisoned
granule. -/
theorem meets_CopyUnits_maps :
    let o : Nat → CopyKind → CopyOp := fun code k => { gid := 0, seqNo := 1, kind := k, map := rowMap code }
    let m := mapOf (rowMap 13)
    let f := mapOf (rowMap 10)
    (∀ code k, (eng (o code k) fullTeam).CopyTurn (o code k) g0 fullTeam) ∧ 0 < Sys2Proof.Machine.units m.tileBytes ∧
    (let mine := tileUnit m 0 (0 + ·) 0;
      (o 13 (.tile false false 0 0)).done < (o 13 (.tile false false 0 0)).units ∧
        (eng (o 13 (.tile false false 0 0)) fullTeam).EngineReads (o 13 (.tile false false 0 0)) g0
          ((mine.filter fun b => b.2.2 ≠ 0).map fun b => b.2.1) at0) ∧
    (let out := beatsOfUnit (Sys2Proof.Machine.units m.tileBytes) 0 fun k => tileUnit m k (0 + ·) 0;
      (o 13 (.tile true true 0 0)).done < (o 13 (.tile true true 0 0)).units ∧ (out.map fun b => b.2.1).Nodup ∧
        (eng (o 13 (.tile true true 0 0)) fullTeam).EngineWrites (o 13 (.tile true true 0 0)) g0 (out.map fun b => b.2.1) at0 ∧
        ∀ b ∈ out, b.1 / 16 ∈ fullTeam.full) ∧
    (let mine := tileUnit m 0 (fun i => readLE fullTeam.scratch (0x40 + 4 * i) 4) 0;
      (o 13 (.gather true 0x40 0)).done < (o 13 (.gather true 0x40 0)).units ∧
        (∀ b ∈ mine, ∀ i, (m.byteElem (b.1 - m.sbase)).map Prod.fst = some i → (0x40 + 4 * i) / 16 ∈ fullTeam.full) ∧
        (eng (o 13 (.gather true 0x40 0)) fullTeam).EngineReads (o 13 (.gather true 0x40 0)) g0
          ((mine.filter fun b => b.2.2 ≠ 0).map fun b => b.2.1) at0) ∧
    (o 10 (.reduce 3 0 0)).done < (o 10 (.reduce 3 0 0)).units ∧ f.ty = .f32 ∧ f.bits / 8 = 4 ∧
    (eng (o 10 (.reduce 3 0 0)) fullTeam).EngineWrites (o 10 (.reduce 3 0 0)) g0 (span (f.memAddr 0 0) 4) at0 ∧
    fullTeam.isBad (f.elemBit 0 0 / 8) 4 = false ∧ (eng (o 10 (.reduce 3 0 0)) fullTeam).isBad (span 0 4) = false ∧
    ({ fullTeam with spoiled := [0] } : Team).isBad (f.elemBit 0 0 / 8) 4 = true := by
  intro o m f
  exact ⟨fun code k => eng_turn ⟨⟨rfl, rfl, rfl, rfl, rfl, rfl⟩, rfl⟩, by decide +kernel,
    ⟨by decide +kernel, engReads ⟨rfl, rfl, rfl⟩ rfl faultless (by decide +kernel)⟩,
    ⟨by decide +kernel, by decide +kernel, engWrites ⟨rfl, rfl, rfl⟩ rfl faultless rfl (by decide +kernel), by decide +kernel⟩,
    ⟨by decide +kernel, fun b hb i h => by
        have : ∀ b ∈ tileUnit m 0 (fun i => readLE fullTeam.scratch (0x40 + 4 * i) 4) 0,
            ((m.byteElem (b.1 - m.sbase)).map Prod.fst).all fun i => decide ((0x40 + 4 * i) / 16 ∈ fullTeam.full) := by decide +kernel
        have t := this b hb
        rw [h] at t
        simpa using t,
      engReads ⟨rfl, rfl, rfl⟩ rfl faultless (by decide +kernel)⟩,
    by decide +kernel, by decide +kernel, by decide +kernel, engWrites ⟨rfl, rfl, rfl⟩ rfl faultless rfl (by decide +kernel),
    by decide +kernel, by decide +kernel, by decide +kernel⟩

/-- No stream; and one that ran to its end. -/
theorem meets_ForkAndJoin :
    (w g0).Acts 0 g0 ∧ aget (w g0).teams g0.team = some team0 ∧ ((w g0).recOf g0).acc ≠ 0 ∧
    (∀ st, (agetD team0.units ((w g0).unitOf g0) {}).stream = some st → st.running = false) ∧
    (agetD team0.units ((w g0).unitOf g0) {}).forks = [] ∧ (w g0).MayIssue 0 g0 [] [] ∧
    (let st : Stream := { pc := 8, forker := 0, seqNo := 1, rng := 1, origin := 0, supervisor := false, running := false };
      let t : Team := { team0 with units := [(0, { stream := some st })] };
      let s : State := { w g0 with teams := [(0, t)] };
      s.Acts 0 g0 ∧ aget s.teams g0.team = some t ∧ (agetD t.units (s.unitOf g0) {}).stream = some st ∧
        (s.engine (.seq g0.team (s.unitOf g0))).fails = []) :=
  ⟨w_acts _, rfl, by decide +kernel, (fun st h => by have e : (agetD team0.units ((w g0).unitOf g0) {}).stream = none := (by decide +kernel); rw [e] at h; cases h),
    by decide +kernel, mayIssue (by decide +kernel) (by decide +kernel), acts rfl rfl, rfl, by decide +kernel, by decide +kernel⟩

/-- A stream of quarter 0 of the team, with a tile and a plane. -/
def stream0 : Stream := { pc := 8, forker := 0, seqNo := 1, rng := 1, origin := 0, supervisor := false }
def unit0 : MUnit := { stream := some stream0, active := { loaded := true, fmt := .e5m2, smode := 0 } }
def matTeam : Team := { bigTeam with units := [(0, unit0)] }
def mat : State :=
  { big g0 with cur := .stream 0 0, teams := [(0, matTeam)], engines := [(.seq 0 0, { issued := 1, active := [1] })] }
theorem mat_streams : mat.Streams 0 0 matTeam unit0 stream0 := ⟨rfl, rfl, rfl, rfl, rfl⟩

/-- The count that the phase expects; the last of it; another; and both parities. -/
theorem meets_NumberedBarriers :
    let s := fun (b : NBar) => ({ w g0 with teams := [(0, { matTeam with nbars := [(4, b)] })] } : State)
    let b : NBar := { expected := 2, arrived := 1, phase := true }
    (s b).Acts 0 g0 ∧ aget (s b).teams 0 = some { matTeam with nbars := [(4, b)] } ∧ g0.team = 0 ∧ (s b).unsettled 0 g0 = false ∧
    (Team.nbar { matTeam with nbars := [(4, b)] } 4).expected = 2 ∧
    (tn 0 0 4 (op := 2)).op.toNat = 2 ∧ (tn 0 0 4 (op := 3)).op.toNat ≠ 2 ∧
    (Team.nbar { matTeam with nbars := [(4, b)] } 4).phase ≠ (tn 0 0 4 (op := 2)).op.getLsbD 0 ∧
    (Team.nbar { matTeam with nbars := [(4, b)] } 4).phase = (tn 0 0 4 (op := 3)).op.getLsbD 0 ∧ stream0.waiting = false ∧
    (let m : State := { mat with teams := [(0, { matTeam with nbars := [(4, b)] })] };
      m.Streams 0 0 { matTeam with nbars := [(4, b)] } unit0 stream0) := by
  intro s b
  exact ⟨acts rfl rfl, rfl, rfl, by decide +kernel, by decide +kernel, by decide, by decide, by decide +kernel,
    by decide +kernel, rfl, rfl, rfl, rfl, rfl, rfl⟩

theorem meets_StreamEnds : mat.Streams 0 0 matTeam unit0 stream0 := mat_streams
theorem meets_StreamIllegal : mat.Streams 0 0 matTeam unit0 stream0 := mat_streams

theorem fits {m : MapF} {s : State} {t : Team}
    (h : ((mapFails m (.matrix [m.ty])).all (fun p => !p.2) && decide (mapOver m (s.teamScratch t) = none)) = true) : s.MapFits t m := by
  simp only [Bool.and_eq_true, decide_eq_true_eq] at h
  exact ⟨fun p hp => by simpa using List.all_eq_true.mp h.1 p hp, h.2⟩
theorem ready {m : MapF} {t : Team} (h : (!m.fewait && decide (t.spoiled = [])) = true) : t.operandReady m := by
  simp only [Bool.and_eq_true, Bool.not_eq_true', decide_eq_true_eq] at h
  exact ⟨fun e => (by rw [h.1] at e; cases e), fun g _ e => (by rw [h.2] at e; cases e)⟩

/-- With and without scales, and transposed; and a word that has waited, with a record read before. -/
theorem meets_Planes : (∀ n, n = 1 ∨ n = 2 ∨ n = 3 →
    let m := mapOf (stream0.recordOf matTeam n)
    mat.Streams 0 0 matTeam unit0 stream0 ∧ mat.MapFits matTeam m ∧ matrixTy m.ty = true ∧ matTeam.operandReady m) ∧
    (let st : Stream := { stream0 with started := true, maps := [(0, mapWords 13)] };
      let t : Team := { matTeam with units := [(0, { unit0 with stream := some st })] }
      let m := mapOf (st.recordOf t 0)
      ({ mat with teams := [(0, t)] } : State).Streams 0 0 t { unit0 with stream := some st } st ∧
        ({ mat with teams := [(0, t)] } : State).MapFits t m ∧ matrixTy m.ty = true ∧ t.operandReady m) := by
  refine ⟨?_, ⟨rfl, rfl, rfl, rfl, rfl⟩, fits (by decide +kernel), by decide +kernel, ready (by decide +kernel)⟩
  rintro n (rfl | rfl | rfl)
  all_goals exact ⟨mat_streams, fits (by decide +kernel), by decide +kernel, ready (by decide +kernel)⟩

/-- An E4M3 operand against a plane of E5M2, alone and twice. -/
theorem meets_Products :
    let m := mapOf (stream0.recordOf matTeam 1)
    mat.Streams 0 0 matTeam unit0 stream0 ∧ mat.MapFits matTeam m ∧ matTeam.operandReady m ∧ matrixTy m.ty = true ∧
    m.viewMode ≠ 2 ∧ unit0.active.loaded = true ∧ unit0.active.smode ≠ 1 ∧ combines unit0.active.fmt m.ty = true ∧
    (tn 2 3 0).d ≠ (tn 2 3 0).a ∧ m.ty = .e4m3 ∧ unit0.active.smode ≠ 2 ∧ unit0.active.fmt = .e5m2 := by
  exact ⟨mat_streams, fits (by decide +kernel), ready (by decide +kernel), by decide +kernel, by decide +kernel, rfl, by decide,
    by decide +kernel, by decide, by decide +kernel, by decide, rfl⟩

theorem meets_Tiles :
    let m := mapOf (stream0.recordOf matTeam 0)
    mat.Streams 0 0 matTeam unit0 stream0 ∧ mat.MapFits matTeam m ∧ m.ty = .f32 ∧ matTeam.operandReady m :=
  ⟨mat_streams, fits (by decide +kernel), by decide +kernel, ready (by decide +kernel)⟩

/-- The first chunk of a `DRAIN` through map 0, and of a `DRAINQ` through map 2. -/
theorem meets_Drains :
    mat.Streams 0 0 matTeam unit0 stream0 ∧ stream0.chunk < 8 ∧ matTeam.scratch.wf = true ∧
    (∀ n, n = 0 ∨ n = 2 → mat.MapFits matTeam (mapOf (if stream0.chunk = 0 then stream0.recordOf matTeam n else stream0.map))) ∧
    (mapOf (stream0.recordOf matTeam 0)).ty = .f32 ∧ scalable (mapOf (stream0.recordOf matTeam 2)).ty = true ∧
    (mapOf (stream0.recordOf matTeam 2)).smode ≠ 0 := by
  refine ⟨mat_streams, by decide, rfl, ?_, by decide +kernel, by decide +kernel, by decide +kernel⟩
  rintro n (rfl | rfl) <;> exact fits (by decide +kernel)

/-- A first turn, and one after the phase changed; `BARW` names phase 1 in phase 0. -/
theorem meets_TeamBarrier :
    (w g0).Acts 0 g0 ∧ aget (w g0).teams g0.team = some team0 ∧ g0.live = g0.atIssue ∧ (w g0).unsettled 0 g0 = false ∧ g0.bar = none ∧ g0.Free [] [.s 9] ∧
    (let g : Group := { withS [(9, 1)] with bar := some true };
      (w g).Acts 0 g ∧ g.bar = some true ∧ true ≠ team0.barPhase ∧ g.Free (readsS [9]) [] ∧ team0.barPhase ≠ (g.s 9).getLsbD 0) :=
  ⟨w_acts _, rfl, by decide +kernel, by decide +kernel, rfl, free (by decide +kernel), w_acts _, rfl, by decide,
    free (by decide +kernel), by decide +kernel⟩

/-- A first turn that is the last arrival; one that is not; and a turn after the phase changed. -/
theorem meets_GangBarrier :
    (w g0).Acts 0 g0 ∧ aget (w g0).teams g0.team = some team0 ∧ aget (w g0).gangs team0.gang = some gang0 ∧ (w g0).CacheSound 0 ∧
    g0.gbar = none ∧ g0.live = g0.atIssue ∧ gang0.rec_.place = false ∧ gang0.gbarLevel = none ∧ (w g0).unsettled 0 g0 = false ∧
    (w g0).liveGroups g0.team = 1 ∧
    (let g : Group := { g0 with gbar := some true };
      (w g).Acts 0 g ∧ true ≠ gang0.gbarPhase) ∧
    (let s : State := { w g0 with groups := [(0, g0), (1, g0)] };
      s.Acts 0 g0 ∧ s.liveGroups g0.team = 2) :=
  ⟨w_acts _, rfl, rfl, w_cached _ _, rfl, by decide +kernel, rfl, rfl, by decide +kernel, by decide +kernel,
    ⟨w_acts _, by decide⟩, acts rfl rfl, by decide +kernel⟩

/-! ### Hypotheses that states meet: tasks, images, traps and system words -/

/-- Record words: one group of one team with a window of 16, a stack of 64 and 4 KiB of scratch, in context 1, for queue 5. -/
def rec64 : Nat := 5 * 2 ^ 168 + 1 * 2 ^ 192 + 2 * 2 ^ 200 + 8 * 2 ^ 208 + 1 * 2 ^ 220 + 1 * 2 ^ 233 + 1 * 2 ^ 320
/-- A queue of context 1 with a ring of 16 entries at 0x3000 that admits spawns. -/
def queue5 : Queue := { base := 0x3000, config := 0x300010004 }

theorem readBlock {s : State} {g : Group} {va : Nat} (hc : s.CacheSound (s.coreOf g)) (h3 : s.l1 = [])
    (h : (decide (s.tlbFind (.l1 (s.coreOf g)) (s.ctxOf g) (va % 2 ^ 57) = some page0 ∧
      s.tlbFind (.l2 (s.coreOf g / 64)) (s.ctxOf g) (va % 2 ^ 57) = some page0 ∧ page0.serves g.supervisor .read = true) &&
      soundHere s (at0 va) 64 false) = true) : s.BlockRead g va (at0 va) := by
  simp only [Bool.and_eq_true] at h
  exact ⟨hit page0 h.1, sound h3 hc h.2, fresh h3 _ _⟩

theorem meets_Spawns :
    let g := withS [(9, 0x1000)]
    let s : State := { w g with mem := writeLE [] 0x1000 64 rec64, queues := [(5, queue5)], ctxs := [(1, { queues := [5] })] }
    let r := recordOf (s.blockOf g (at0 0x1000))
    let q := s.queue r.queue
    s.Acts 0 g ∧ g.Free (readsS [9]) [] ∧ (g.s 9).toNat % 2 ^ 57 = 0x1000 ∧ s.unsettled 0 g = false ∧
    s.BlockRead g 0x1000 (at0 0x1000) ∧ r.cause (s.ctxOf g) = none ∧ q.enabled = true ∧ q.spawn = true ∧
    r.queue ∈ (s.ctx (s.ctxOf g)).queues ∧ q.count < 2 ^ q.logSize ∧ s.Sound 0 (atLocal (q.entryAt q.tail.toNat)) 8 true := by
  intro g s r q
  have hc : s.CacheSound 0 := cached (by decide +kernel) faultless rfl _
  exact ⟨acts rfl rfl, free (by decide +kernel), by decide +kernel, by decide +kernel, readBlock hc rfl (by decide +kernel),
    by decide +kernel, by decide +kernel, by decide +kernel, by decide +kernel, by decide +kernel, sound rfl hc (by decide +kernel)⟩

theorem meets_RetireAndHandoff :
    let g := withS [(9, 0x1000), (10, 0x2000)]
    let s : State := { w g with mem := writeLE [] 0x1000 64 rec64 }
    let new := recordOf (s.blockOf g (at0 0x1000))
    s.Acts 0 g ∧ aget s.teams g.team = some team0 ∧ aget s.gangs team0.gang = some gang0 ∧ s.futuresOut 0 = false ∧ s.owed 0 = none ∧
    (∀ p ∈ g.pend, ∃ id, p.by_ = .log id) ∧ g.Free (readsS [9, 10]) [] ∧ g.live = g.atIssue ∧
    (g.s 9).toNat % 2 ^ 57 = 0x1000 ∧ (g.s 10).toNat % 2 ^ 57 = 0x2000 ∧ s.acquiring 0 = false ∧ s.logsPage 0 [0x1000, 0x2000] = false ∧
    s.BlockRead g 0x1000 (at0 0x1000) ∧ s.BlockRead g 0x2000 (at0 0x2000) ∧ new.cause gang0.ctx = none ∧
    new.groups = gang0.rec_.groups ∧ new.teams = gang0.rec_.teams ∧ new.place = gang0.rec_.place ∧
    new.window ≤ gang0.rec_.window ∧ new.stack ≤ gang0.rec_.stack ∧ new.scratch ≤ gang0.rec_.scratch ∧
    new.acc ≤ gang0.rec_.acc ∧ gang0.successor = none ∧ leValue (s.blockOf g (at0 0x2000)) / 2 ^ 409 = 0 := by
  intro g s new
  have hc : s.CacheSound 0 := cached (by decide +kernel) faultless rfl _
  exact ⟨acts rfl rfl, rfl, rfl, by decide +kernel, by decide +kernel, (fun _ h => by cases h), free (by decide +kernel),
    by decide +kernel, by decide +kernel, by decide +kernel, rfl, by decide +kernel, readBlock hc rfl (by decide +kernel),
    readBlock hc rfl (by decide +kernel), by decide +kernel⟩

/-- An engine that serves context 1: a ring of two slots, stripes of two data units and one parity unit over members 0 to 2, and a
region of 512 bytes. -/
def snap0 : Snap :=
  { control := 0x122010001, ring := 0x40000000000, units := 2, members := [(0, 0x100), (1, 0x101), (2, 0x102)]
    regions := [(0, (0x40010000001, 512))] }

/-- A first image of step 0; an image that the ring holds; `SNAPQ` with and without a step, a complete image and an engine. -/
theorem meets_Images :
    let s : State := { w g0 with snap := snap0, ctxs := [(1, { step := 1 })] }
    let full : Snap := { snap0 with slots := [(1, { st := .complete, step := 0, seqNo := some 1 })] }
    let t : State := { s with snap := full }
    s.Acts 0 g0 ∧ s.CacheSound 0 ∧ s.MayIssue 0 g0 (readsS [9]) [] ∧ g0.s 9 = (s.ctx (s.ctxOf g0)).step - 1 ∧
    snap0.serves (s.ctxOf g0) = true ∧ snap0.validRegions ≠ [] ∧ snap0.slotOf 0 (· != .empty) = none ∧ snap0.forming = none ∧
    (∀ q < snap0.nslots, (snap0.slot q).st ≠ .forming) ∧ (∀ j < 16, inFirmware (snap0.base + 64 * snap0.cursor + j) = false) ∧
    t.Acts 0 g0 ∧ t.CacheSound 0 ∧ t.MayIssue 0 g0 (readsS [9]) [] ∧ full.serves (t.ctxOf g0) = true ∧ full.validRegions ≠ [] ∧
    full.slotOf 0 (· != .empty) = some 1 ∧ (full.slot 1).seqNo = some 1 ∧ g0.Free [] [.s 9] ∧ g0.Free (readsS [9]) [.s 10] ∧
    1 < full.nslots ∧ (full.slot 1).st = .complete ∧ (w g0).snap.serves ((w g0).ctxOf g0) = false := by
  intro s full t
  exact ⟨acts rfl rfl, cached rfl faultless rfl _, mayIssue (by decide +kernel) (by decide +kernel), by decide +kernel, by decide +kernel,
    by decide +kernel, rfl, rfl, by decide +kernel, by decide +kernel, acts rfl rfl, cached rfl faultless rfl _, mayIssue (by decide +kernel) (by decide +kernel),
    by decide +kernel, by decide +kernel, by decide +kernel, rfl, free (by decide +kernel), free (by decide +kernel),
    by decide +kernel, rfl, by decide +kernel⟩

/-- At the replacement, and at a survivor with and without the image. -/
theorem meets_StripeAndRebuild :
    let g : Group := { withS [(9, 0x1000)] with supervisor := true }
    let B := fun j => at0 (0x1000 + 8 * j)
    let s := fun (mem : Memory) (n : Snap) =>
      ({ w g with mem := mem, cfg := some { members := 7 }, snap := n } : State)
    let here := s [(0x1000, 1)] snap0
    let other := s [(0x1000, 1), (0x1001, 2)] snap0
    let full := s [(0x1000, 1), (0x1001, 2)] { snap0 with slots := [(1, { st := .complete, step := 0 })] }
    (w g).Acts 0 g ∧ (w g).MayIssue 0 g (readsS [9]) [] ∧ (w g).snap.serves ((w g).ctxOf g) = false ∧ (g.s 9).toNat = 0x1000 ∧
    g.supervisor = true ∧
    (∀ t, t = here ∨ t = other ∨ t = full → t.Acts 0 g ∧ t.MayIssue 0 g (readsS [9]) [] ∧ t.snap.serves (t.ctxOf g) = true ∧
      t.logsPage 0 [0x1000] = false ∧ t.WordsMapped g 0x1000 8 B ∧ (∀ j < 8, 2 ≤ j → t.wordOf g B j = 0) ∧
      t.wordOf g B 1 = 0 ∧ t.isMember 1 = true ∧ t.isMember 0 = true ∧ t.isMember 2 = true ∧ t.isEndpoint 0 = false ∧
      t.isEndpoint 2 = false ∧ t.own = 0) ∧
    (here.wordOf g B 0).toNat = 1 + 0 * 256 ∧ here.snap.member here.snap.self = some 0 ∧
    (∀ j < 4096, inFirmware (here.snap.base + j) = false) ∧ (here.snap.slot 0).st = .empty ∧ (∃ u < here.snap.u, 0 < here.snap.expected false u) ∧
    (other.wordOf g B 0).toNat = 1 + 2 * 256 ∧ 1 < other.snap.n ∧ other.snap.member 1 = some 1 ∧
    other.snap.slotOf 0 (fun x => x == .complete || x == .striped) = none ∧
    (full.snap.slotOf 0 fun x => x == .complete || x == .striped).isSome = true := by
  intro g B s here other full
  refine ⟨w_acts _, mayIssue (by decide +kernel) (by decide +kernel), by decide +kernel, by decide +kernel, rfl, ?_, by decide +kernel, by decide +kernel,
    notFirmware (by decide +kernel), by decide, ?_, by decide +kernel⟩
  rotate_left
  · exact ⟨0, by decide +kernel, by decide +kernel⟩
  rintro t (rfl | rfl | rfl)
  all_goals
    exact ⟨acts rfl rfl, mayIssue (by decide +kernel) (by decide +kernel), by decide +kernel, by decide +kernel,
      words (cached (by decide +kernel) faultless rfl _) rfl (by decide +kernel), by decide +kernel⟩

/-- `TRAP` in both modes; a word that no chain holds up, and one of a member's form in the lanes of the open chain. -/
theorem meets_TrapEntry :
    (w g0).Acts 0 g0 ∧ g0.supervisor = false ∧ (w boss).Acts 0 boss ∧ boss.supervisor = true ∧
    aget (w boss).gangs ((w boss).team boss.team).gang = some gang0 ∧ (memberForm 0x27F0000000000000 && g0.continues) = false ∧
    (let g : Group := { g0 with chain := { isOpen := true, members := 1, vecs := 1, lanes := g0.active, head := 3 } };
      (w g).Acts 0 g ∧ memberForm 0x27F0000000000000 = true ∧ g.continues = true ∧ g.supervisor = false) :=
  ⟨w_acts _, rfl, w_acts _, rfl, rfl, by decide +kernel, w_acts _, by decide +kernel, by decide +kernel, rfl⟩

/-- A trap's handler; and one whose saved lane waits for a copy. -/
theorem meets_TrapReturn :
    let p : Park := { lane := 0, pc := 4, on := .future (mkHandle 1 1) }
    let sv : SaveSet := { lpc := List.replicate 32 4, parks := [p], em := 1, sregs := [], resume := 4 }
    let g : Group := { boss with save := some sv }
    let s : State := { w g with engines := [(.copy 0, { issued := 1, active := [1] })] }
    s.Acts 0 g ∧ g.supervisor = true ∧ g.save = some sv ∧ g.Free (readsS [56]) ((List.range 8).map fun k => .s (56 + k)) ∧
    ∀ q ∈ sv.parks, g.live.getLsbD q.lane = true ∧ ∃ x k, q.on = .future x ∧ s.codeKey 0 g (handleCode x) = some k ∧
      (s.engine k).complete (handleSeq x) = false := by
  intro p sv g s
  refine ⟨acts rfl rfl, rfl, rfl, free (by decide +kernel), fun q h => ?_⟩
  obtain rfl : q = p := by simpa [sv] using h
  exact ⟨by decide +kernel, mkHandle 1 1, .copy 0, rfl, by decide +kernel, by decide +kernel⟩

/-- A register that a row operation will write. -/
theorem meets_PendingWaits :
    let g : Group := { g0 with pend := [{ scalar := false, reg := 1, by_ := .row 0 }, { scalar := true, reg := 9, by_ := .remote 0 }] }
    (w g).Acts 0 g ∧
    (∃ F, vecForm (.iadd (ve 3 1 2 .i32)) = some F ∧ g.Latched F.latches ∧ g.anyPending (refsOf (F.reads g) ++ F.dst.writes) = true) ∧
    (∃ F, scalarForm (.sadd (ve 9 10 11 .n64)) = some F ∧ g.anyPending (refsOf (F.reads g) ++ [.s F.d]) = true) ∧
    g.anyPending (addrRegs (me 5 1 0 (off := true)) ++ vrange 5 1) = true ∧
    g.anyPending (vrange 1 1 ++ addrRegs (me 1 6 0 (off := true))) = true :=
  ⟨w_acts _, ⟨_, rfl, latched (by decide +kernel), by decide +kernel⟩, ⟨_, rfl, by decide +kernel⟩, by decide +kernel, by decide +kernel⟩

/-- With and without bit 15 for `EVENT`. -/
theorem meets_Privilege : (w g0).Acts 0 g0 ∧ g0.supervisor = false ∧ (sy 0 9 0 0x8001).imm.getLsbD 15 = true :=
  ⟨w_acts _, rfl, by decide⟩
theorem meets_EventAndRegisters : ∀ g, g = g0 ∨ g = boss →
    (w g).Acts 0 g ∧ ((sy 0 9 0 (if g.supervisor then 0x8001 else 1)).imm.getLsbD 15 = true → g.supervisor = true) ∧
    g.Free (readsS [9]) [] ∧ (w g).unsettled 0 g = false ∧ (w g).userEvents < 1024 ∧ (w g).CacheSound 0 := by
  rintro g (rfl | rfl)
  all_goals exact ⟨w_acts _, by decide, free (by decide +kernel), by decide +kernel, by decide +kernel, w_cached _ _⟩
theorem meets_ReadPart : (w g0).Acts 0 g0 ∧ g0.Free [] [.s 9] ∧ (sy 9 0 0 5).imm.toNat < 6 :=
  ⟨w_acts _, free (by decide +kernel), by decide⟩

/-- With the core's and with package scope, beside a read in flight and another member. -/
theorem meets_Invalidations :
    let s : State := { w boss with
      cfg := some { members := 3 }
      remotes := [{ tag := 7, peer := 1, addr := 0, what := .write 3 0 }]
      groups := [(0, boss), (3, g0)] }
    s.Acts 0 boss ∧ boss.supervisor = true ∧ s.CacheSound 0 ∧ (∀ e ∈ s.l1, s.CacheSound e.1.1) ∧ s.MayIssue 0 boss (readsS [9, 10, 11]) [] ∧
    (boss.s 9).toNat % 4096 = 0 ∧ (boss.s 10).toNat % 4096 = 0 ∧ (tn 1 9 11 (op := 5)).op = 5 ∧ (tn 1 9 11 (op := 3)).op ≠ 5 ∧
    s.gidIn 1 3 = true ∧ s.isMember 1 = true ∧ s.isEndpoint 1 = false ∧ 1 ≠ s.own := by
  intro s
  exact ⟨acts rfl rfl, rfl, cached rfl faultless rfl _, (fun _ h => by cases h), mayIssue (by decide +kernel) (by decide +kernel),
    by decide +kernel, by decide +kernel, by decide, by decide, by decide +kernel⟩

/-- A context that is there, with tables that map the address, and one that is not. -/
theorem meets_TranslationProbe :
    let g : Group := { withS [(9, 0x5008), (10, 1), (11, 77)] with supervisor := true }
    let s : State := { w g with
      mem := writeLE (writeLE (writeLE [] 0x1000 8 0x200F) 0x2000 8 0x300F) 0x3000 8 0x7F
      ctxs := [(1, { root := 0x1000 })] }
    s.Acts 0 g ∧ g.supervisor = true ∧ g.Free (readsS [9, 10]) [.s 4, .s 5] ∧ g.Free (readsS [9, 11]) [.s 4, .s 5] ∧ s.Faultless ∧
    (s.walk 1 0x5008).status = 0 ∧ (∀ b ∈ (s.walk 1 0x5008).reads, s.LineFree (b / 128)) ∧ aget s.ctxs 77 = none ∧
    ∀ b ∈ (s.walk 77 0x5008).reads, s.LineFree (b / 128) := by
  intro g s
  exact ⟨acts rfl rfl, rfl, free (by decide +kernel), free (by decide +kernel), faultless, by decide +kernel,
    fun b hb => lineFree (by revert b; decide +kernel), by decide +kernel, fun b hb => lineFree (by revert b; decide +kernel)⟩

/-- No gang at the address; its own; another; and the waits whose outcome is known, whose gang is gone, and whose gang was killed. -/
theorem meets_Preemption :
    let g : Group := { withS [(8, 0x40), (9, 0x80)] with supervisor := true }
    let x : Gang := { gang0 with recAddr := 0x80 }
    let s : State := { w g with gangs := [(0, gang0), (3, x)] }
    s.Acts 0 g ∧ g.supervisor = true ∧ g.Free (readsS [7]) [.s 5] ∧ g.Free (readsS [8]) [.s 5] ∧ g.Free (readsS [9]) [.s 5] ∧
    g.preempting = none ∧ s.gangNamed (s.ctxOf g) (g.s 7).toNat = none ∧
    s.gangNamed (s.ctxOf g) (g.s 8).toNat = some ((s.team g.team).gang, gang0) ∧
    s.gangNamed (s.ctxOf g) (g.s 9).toNat = some (3, x) ∧ 3 ≠ (s.team g.team).gang ∧ aget s.gangs 3 = some x ∧ x.stopped = false ∧
    x.run = .running ∧ x.entering = false ∧ s.resumeRoom = true ∧ aget s.gangs 4 = none ∧
    (let u : State := { w { g with preempting := some (3, none) } with gangs := [(0, gang0), (3, { x with run := .killed })] };
      u.Acts 0 { g with preempting := some (3, none) } ∧ ∀ y, aget u.gangs 3 = some y → y.run = .killed) ∧
    ∀ p, p = (3, some 0) ∨ p = (4, none) → (w { g with preempting := some p }).Acts 0 { g with preempting := some p } := by
  intro g x s
  exact ⟨acts rfl rfl, rfl, free (by decide +kernel), free (by decide +kernel), free (by decide +kernel), rfl, by decide +kernel,
    by decide +kernel, by decide +kernel, by decide +kernel, rfl, rfl, rfl, rfl, by decide +kernel, rfl,
    ⟨acts rfl rfl, fun y h => by cases h; rfl⟩, fun p _ => w_acts _⟩

theorem meets_PowerRegisters : (w boss).Acts 0 boss ∧ boss.supervisor = true ∧ boss.Free (readsS [9]) [.s 5] ∧ (sy 5 9 0 5).imm.toNat < 6 :=
  ⟨w_acts _, rfl, free (by decide +kernel), by decide⟩

/-! ### Hypotheses that states meet: the units' steps -/

theorem takes {s : State} {as : List Nat} (h0 : s.l1 = []) (h1 : s.Faultless)
    (h : (s.mem.wf && as.all (fun a => decide (placeOf a = .hbm ∨ placeOf a = .scm) && lineTest s (a / 128) && !inFirmware a) &&
      !s.isBad as) = true) : s.Takes as := by
  simp only [Bool.and_eq_true, decide_eq_true_eq, Bool.not_eq_true', List.all_eq_true] at h
  obtain ⟨⟨a, c⟩, d⟩ := h
  exact ⟨a, h1, fun x hx => (c x hx).1.1, fun x hx => lineFree (c x hx).1.2, fun e he => (by rw [h0] at he; cases he), d,
    fun x hx => (c x hx).2⟩

/-- A Kiosk whose queue holds only the chunks of one update serves them. -/
theorem serves {s : State} {v : KvUp} (h1 : s.rowOps = []) (h2 : s.listOps = []) (h3 : s.chases = []) (h4 : s.kvups = [v]) (k : Nat)
    (who : Holder) (cls : Nat) (lines : List Nat) :
    s.mayServe k who { cls := cls, since := v.since, agent := v.gid, lines := lines } = true := by
  have : ∀ y ∈ s.kioskQueue k, y.agent = v.gid ∧ y.since = v.since := by
    simp only [State.kioskQueue, h1, h2, h3, h4]
    intro y hy
    simp only [List.filter_nil, List.map_nil, List.nil_append, List.filterMap_nil, List.append_nil, List.flatMap_cons, List.flatMap_nil,
      List.mem_map] at hy
    obtain ⟨c, -, rfl⟩ := hy
    exact ⟨rfl, rfl⟩
  simp only [State.mayServe, KStep.behind, Bool.or_eq_true, Bool.and_eq_true, Bool.not_eq_true', List.any_eq_false]
  refine .inr ⟨fun y hy => by simp [this y hy], fun y hy => by simp [this y hy]⟩

/-- The world in which the Kiosks hold the pages too. -/
def wk (g : Group) : State :=
  { w g with tlbs := w0.tlbs ++ (List.range 16).flatMap fun k => [(.kiosk k, page0), (.kiosk k, page1)] }

/-- A first step of two, from a core, a last one at the Kiosk where it arrived, and one that goes from a Kiosk to another. -/
theorem meets_ChaseSteps :
    let d : ChaseDesc := { mask := 0xFFFFFFFFFFFFFFFF, off := 8, width := 8 }
    let c : Chase := { gid := 0, seqNo := 1, lane := 3, dreg := 4, n := 2, hopLimit := 1, steps := [d, d], k := 0, hops := 0, p := 0x1000 }
    let c1 : Chase := { c with k := 1, arrived := some { va := 0x1008, pa := 0x1008 } }
    let c2 : Chase := { c with owner := some 5 }
    let s := fun (c : Chase) => ({ wk g0 with mem := [(0x1008, 64)], chases := [c] } : State)
    let x := at0 0x1008
    let kiosk := kioskOf (locOf x.pa)
    (∀ c, (s c).chases[(s c).input.index]? = some c ∧ aget (s c).groups 0 = some g0 ∧ (s c).ownMemory x.pa = true) ∧
    (∀ y, y = c ∨ y = c1 ∨ y = c2 → y.away = false ∧ y.heldPage = none ∧ y.origin = none ∧ y.gid = 0) ∧
    (∀ y, y = c ∨ y = c1 → (s y).Takes (span (locOf x.pa) d.width) ∧
      (s y).mayServe kiosk y.holder { cls := (s y).svcOf y.gid, since := y.since, agent := y.gid
                                      lines := linesOf (span (locOf x.pa) d.width) } = true) ∧
    0x1008 % d.width = 0 ∧ x.kind < 2 ∧
    (c.arrived = none ∧ (s c).translate (coreTlbs 0) 1 c.supervisor .read 0x1008 = .ok x (s c) ∧
      c.hops + (if c.owner = none then c.resumed.toNat else 0) ≤ c.hopLimit ∧ c.owner = none ∧ c.k + 1 ≠ c.n) ∧
    ((s c1).stale c1 = false ∧ (∃ y, c1.arrived = some y ∧ y.pa = x.pa ∧ y.va % d.width = 0) ∧ c1.k + 1 = c1.n ∧
      (∀ y ∈ (s c1).chases.filter fun y => ¬(y.gid = c1.gid ∧ y.seqNo = c1.seqNo ∧ y.lane = c1.lane ∧ y.origin = none),
        y.gid = c1.gid → y.seqNo = c1.seqNo → y.origin ≠ none) ∧ ∀ f ∈ (s c1).laneFails, ¬(f.1 = c1.gid ∧ f.2.1 = c1.seqNo)) ∧
    (c2.arrived = none ∧ (s c2).translate [.kiosk 5] 1 c2.supervisor .read 0x1008 = .ok x (s c2) ∧ c2.owner = some 5 ∧
      5 ≠ pkgOf x.pa * 16 + kiosk ∧ c2.hops + 1 ≤ c2.hopLimit ∧ (s c2).kioskLoad kiosk < 512) := by
  intro d c c1 c2 s x kiosk
  refine ⟨fun c => ⟨rfl, rfl, (by decide +kernel : State.ownMemory (wk g0) x.pa = true)⟩, ?_, ?_, by decide, by decide, ?_, ?_, ?_⟩
  · rintro y (rfl | rfl | rfl) <;> exact ⟨rfl, rfl, rfl, rfl⟩
  · rintro y (rfl | rfl) <;> exact ⟨takes rfl faultless (by decide +kernel), by decide +kernel⟩
  · exact ⟨rfl, by decide +kernel, by decide +kernel, rfl, by decide⟩
  · exact ⟨by decide +kernel, ⟨_, rfl, rfl, by decide⟩, by decide, by decide +kernel, fun _ h => by cases h⟩
  · exact ⟨rfl, by decide +kernel, rfl, by decide +kernel, by decide, by decide +kernel⟩

/-- `KENQ` to an empty list and to one with a node, `KDEQ` from both; the head is translated by the core, then by the Kiosk. -/
theorem meets_ListSteps :
    let o : ListOp := { gid := 0, seqNo := 1, enq := true, head := 0x1000, lanes := [0, 1], nodes := [0x2000, 0x3000] }
    let s := fun (mem : Memory) (o : ListOp) => ({ wk g0 with mem := mem, listOps := [o] } : State)
    let empty : State := s [] o
    let one : State := s [(0x1001, 0x50), (0x1009, 0x50)] { o with kiosk := some 0 }
    let deq : State := s [] { o with enq := false }
    let deq1 : State := s [(0x1001, 0x50), (0x1009, 0x50)] { o with enq := false }
    (empty.listOps[empty.input.index]? = some o ∧ o.heldPage = none ∧ aget empty.groups o.gid = some g0 ∧
      empty.translate (coreTlbs 0) 1 false .write 0x1000 = .ok (at0 0x1000) empty ∧
      one.translate [.kiosk 0] 1 false .write 0x1000 = .ok (at0 0x1000) one ∧
      deq.translate (coreTlbs 0) 1 false .write 0x1000 = .ok (at0 0x1000) deq ∧
      deq1.translate (coreTlbs 0) 1 false .write 0x1000 = .ok (at0 0x1000) deq1) ∧
    (∀ k, k < 16 → one.KioskHit k 1 false .write 0x2000 (at0 0x2000) ∧ one.KioskHit k 1 false .write 0x5000 (at0 0x5000) ∧
      empty.KioskHit k 1 false .write 0x2000 (at0 0x2000) ∧ deq1.KioskHit k 1 false .read 0x5000 (at0 0x5000)) ∧
    empty.homeValue 0x1008 8 = 0 ∧ one.homeValue 0x1008 8 = 0x5000 ∧ deq.homeValue 0x1000 8 = 0 ∧ deq1.homeValue 0x1000 8 = 0x5000 ∧
    (at0 0x1000).kind < 2 ∧ locOf (at0 0x1000).pa = 0x1000 ∧ locOf (at0 0x2000).pa = 0x2000 ∧ locOf (at0 0x5000).pa = 0x5000 ∧
    (∀ t, t = empty ∨ t = one ∨ t = deq ∨ t = deq1 → t.ownMemory (at0 0x2000).pa = true ∧ t.ownMemory (at0 0x5000).pa = true ∧
      t.mayServe 0 [1, 0, 1] { cls := t.svcOf 0, since := 0, agent := 0, lines := linesOf (span 0x1000 16) } = true) ∧
    empty.Takes (span 0x1000 16 ++ span 0x2000 8) ∧ one.Takes (span 0x1000 16 ++ span 0x2000 8 ++ span 0x5000 8) ∧
    deq.Takes (span 0x1000 16) ∧ deq1.Takes (span 0x1000 16 ++ span 0x5000 8) := by
  intro o s empty one deq deq1
  refine ⟨⟨rfl, rfl, rfl, by decide +kernel, by decide +kernel, by decide +kernel, by decide +kernel⟩, fun k hk => ⟨⟨page0, ?_⟩, ⟨page0, ?_⟩, ⟨page0, ?_⟩, ⟨page0, ?_⟩⟩,
    by decide +kernel, by decide +kernel, by decide +kernel, by decide +kernel, by decide, rfl, rfl, rfl, ?_,
    takes rfl faultless (by decide +kernel), takes rfl faultless (by decide +kernel), takes rfl faultless (by decide +kernel), takes rfl faultless (by decide +kernel)⟩
  case refine_5 => rintro t (rfl | rfl | rfl | rfl) <;> exact ⟨rfl, rfl, by decide +kernel⟩
  all_goals revert k; decide +kernel

/-- A logical operation on the whole of a row. -/
theorem meets_RowSteps :
    let r : RowOp :=
      { id := 0, gid := some 0, requester := 0, cls := 1, kiosk := kioskOf 0x1000, op := 1, pa := 0x1000, size := 64
        lanes := 0xFFFFFFFF, data := (List.range 64).map fun k => (k, 1) }
    let s : State := { wk g0 with rowOps := [r], input := { unit := kioskOf 0x1000 } }
    s.nextRow s.input.unit = some r ∧ r.gid = some 0 ∧ r.sender = none ∧ r.members = [] ∧ r.op ≤ 3 ∧ (∀ c ∈ r.data, c.1 < r.size) ∧
    r.size = 64 ∧ (r.data.map Prod.fst).Nodup ∧ (∀ c ∈ r.data, ∀ b < 4, c.1 / 4 * 4 + b ∈ r.data.map Prod.fst) ∧
    aget s.groups 0 = some g0 ∧ s.Takes (span (locOf r.pa) r.size) ∧
    s.mayServe s.input.unit [0, r.id] r.kstep = true ∧ ∀ x ∈ s.rowOps, x.id = r.id → x = r := by
  intro r s
  exact ⟨by decide +kernel, rfl, rfl, rfl, by decide, by decide +kernel, rfl, by decide +kernel, by decide +kernel, rfl,
    takes rfl faultless (by decide +kernel), by decide +kernel, by decide +kernel⟩

/-- Page tables that map the first gibibyte onto HBM. -/
def tables : Memory := writeLE (writeLE (writeLE [] 0x1000 8 0x201F) 0x2000 8 0x301F) 0x3000 8 0x7F

/-- The last chunk of an update that writes array 0; and a `KRCP` at its second and at its twelfth Kiosk. -/
theorem meets_RecipeSteps :
    (let v : KvUp :=
        { gid := 0, seqNo := 1, recipe := 1 :: List.replicate 95 0 ++ 0x11 :: List.replicate 31 0, x0 := 0x5000, x1 := 0, x2 := 0
          n := 3, chunks := [0], slot := 0, origin := 0, supervisor := false }
      let X := fun (_ : Nat) => at0 0x5000
      let s : State := { wk g0 with kvups := [v], mem := tables, ctxs := [(1, { root := 0x1000 })] };
      s.kvups[s.input.index]? = some v ∧ v.chunks[s.input.unit]? = some 0 ∧ aget s.groups v.gid = some g0 ∧
      (∀ k < 3, recipeReads v.recipe k = true ∨ recipeWrites v.recipe k = true → k = 0) ∧ (X 0).kind < 2 ∧
      (∀ caches ∈ coreTlbs 0 :: (List.range 16).map (fun n => [TlbKey.kiosk n]),
        s.translate caches 1 false .write 0x5000 = .ok (X 0) s ∧ s.translate caches 1 false .read 0x5000 = .ok (X 0) s) ∧
      (∀ k, s.kioskAt (s.ctxOf g0) (v.chunkAt 0) = some k → 0 ∈ s.chunksAt v k) ∧ s.Takes (span (locOf (X 0).pa) 12) ∧
      ∀ kiosk who lines, s.mayServe kiosk who { cls := s.svcOf v.gid, since := v.since, agent := v.gid, lines := lines } = true) ∧
    (let k : KRcp := { gid := 0, seqNo := 1, ctx := 1, slot := 3, recipe := [] }
      let s := fun (k : KRcp) => ({ wk g0 with krcps := [k], input := { unit := 11 } } : State)
      let k' := { k with installed := List.range 11 };
      (s k).krcps[(s k).input.index]? = some k ∧ (s k).input.unit = 11 ∧ 11 ∉ k.installed ∧ 11 ∉ k'.installed ∧ (s k).kvups = [] ∧
      k.installed.length < 11 ∧ 11 ≤ k'.installed.length ∧ aget (s k').groups k.gid = some g0 ∧ aget (s k').ctxs k.ctx = some {} ∧
      (s k').laneFails = []) := by
  refine ⟨?_, ?_⟩
  · intro v X s
    refine ⟨rfl, rfl, rfl, by decide +kernel, by decide +kernel, fun c hc => ?_, fun k hk => ?_, takes rfl faultless (by decide +kernel),
      fun k who lines => serves rfl rfl rfl rfl k who _ lines⟩
    · rcases List.mem_cons.mp hc with rfl | hc
      · exact ⟨by decide +kernel, by decide +kernel⟩
      · obtain ⟨n, hn, rfl⟩ := List.mem_map.mp hc
        have hn := List.mem_range.mp hn
        interval_cases n <;> exact ⟨by decide +kernel, by decide +kernel⟩
    · obtain rfl : kioskOf 0x5000 = k := Option.some.inj ((by decide +kernel : some (kioskOf 0x5000) = s.kioskAt _ _).trans hk)
      decide +kernel
  · intro k s k'
    exact ⟨rfl, rfl, by decide, by decide, rfl, by decide, by decide, rfl, rfl, rfl⟩

/-- A word and a signal, after a write to the line and periodically: met and not met. -/
theorem meets_ParkedLanes :
    let g := fun (on : ParkFor) => ({ g0 with parks := [{ lane := 2, pc := 8, on := on }] } : Group)
    let s := fun (on : ParkFor) (v : Nat) =>
      ({ w (g on) with mem := writeLE tables 0x5000 8 v, ctxs := [(1, { root := 0x1000 })], input := { index := 2, addr := 0x5000 } } : State)
    (∀ on v, aget (s on v).groups (s on v).input.unit = some (g on) ∧ (s on v).input.index = 2) ∧
    (∀ on v, on = .word 0x5000 true 5 ∨ on = .signal 0x5000 true 5 5 9 → v = 0 ∨ v = 5 →
      (s on v).evaluates 0 = true ∧ (s on v).onLine 0x5000 (g on) { lane := 2, pc := 8, on := on } = true ∧
      ((s on v).entry (locOf (at0 0x5000).pa / 128)).waiting = [] ∧ (s on v).Hit 0 1 false .read 0x5000 (at0 0x5000) ∧ (s on v).Sound 0 (at0 0x5000) 4 false ∧
      (s on v).Sound 0 (at0 0x5000) 8 false ∧ (s on v).logsPage 0 [0x5000] = false ∧
      (s on v).seenValue 0 (locOf (at0 0x5000).pa) 4 = v ∧
      (s on v).seenValue 0 (locOf (at0 0x5000).pa) 8 = v) ∧
    holds true 5 (0 : Word64) 5 = false ∧ holds true 5 (5 : Word64) 5 = true := by
  intro g s
  refine ⟨fun _ _ => ⟨rfl, rfl⟩, ?_, by decide, by decide⟩
  rintro on v (rfl | rfl) (rfl | rfl)
  all_goals
    exact ⟨by decide +kernel, by decide +kernel, by decide +kernel, hit page0 (by decide +kernel), sound rfl (cached (by decide +kernel) faultless rfl _) (by decide +kernel),
      sound rfl (cached (by decide +kernel) faultless rfl _) (by decide +kernel), by decide +kernel, by decide +kernel, by decide +kernel⟩

/-- A clean line and a dirty one. -/
theorem meets_L1Upkeep : ∀ d : BitVec 128, d = 0 ∨ d = 1 →
    let l : L1Line := { data := List.replicate 128 7, valid := 3, dirty := d }
    let s : State := { w g0 with l1 := [((0, 0), l)] }
    aget s.l1 (s.input.unit, s.input.index) = some l ∧ s.CacheSound s.input.unit ∧ s.lineReady s.input.index true = .ready ∧
      placeOf (128 * s.input.index) = .hbm := by
  rintro d (rfl | rfl) l s
  all_goals
    refine ⟨rfl, ⟨rfl, faultless, by decide, by decide, fun line x h => ?_⟩, by decide +kernel, by decide +kernel⟩
    have e : line = 0 ∧ x = l := by
      by_cases hl : line = 0
      · subst hl; exact ⟨rfl, (Option.some.inj h).symm⟩
      · exfalso
        have : aget s.l1 (s.input.unit, line) = none := by
          simp [s, aget, w, w0, State.reset, Ne.symm hl]
        rw [this] at h; cases h
    obtain ⟨rfl, rfl⟩ := e
    exact ⟨rfl, fun _ => ⟨by decide, lineFree (by decide +kernel), by decide⟩, fun k hk _ => by revert k; decide +kernel⟩

/-- No such request; a reply of 0; and a failure. -/
theorem meets_PageReplies :
    let g : Group := { g0 with hold := .page 0x5008 0 0 1 4 }
    let s := fun (code : Nat) (reqs : List PageReq) =>
      ({ w g with pageReqs := reqs, input := { unit := 1, index := 5, code := code } } : State)
    let r : PageReq := { ctx := 1, gen := 0, vpage := 5, kind := 0, status := 1, level := 0, who := 0 }
    (s 0 []).requested 1 5 = false ∧
    ∀ code, code = 0 ∨ code = 3 → (s code [r]).requested 1 5 = true ∧ aget (s code [r]).ctxs 1 ≠ none ∧
      ((s code [r]).ctx 1).gen.toNat = (s code [r]).input.value.toNat ∧ (s code [r]).sideLog = [] ∧ (s code [r]).copyOps = [] ∧
      (s code [r]).chases = [] ∧ (s code [r]).listOps = [] ∧ (∀ e ∈ (s code [r]).gangs, e.2.heldPage ≠ some 5) ∧
      (∀ e ∈ (s code [r]).teams, e.2.units = []) ∧ aget (s code [r]).groups 0 = some g ∧ (s code [r]).ctxOf g = 1 ∧
      0x5008 / 4096 = 5 ∧ ((s code [r]).gangOf g).run ≠ .saved ∧ (s code [r]).groups = [(0, g)] := by
  intro g s r
  refine ⟨by decide +kernel, ?_⟩
  rintro code (rfl | rfl)
  all_goals
    exact ⟨by decide +kernel, by decide +kernel, by decide +kernel, rfl, rfl, rfl, rfl, by decide +kernel, by decide +kernel, rfl,
      by decide +kernel, by decide, by decide +kernel, rfl⟩

/-! ### Hypotheses that states meet: persistence, the firmware and its registers -/

/-- Every line that holds one of the bytes is free. -/
theorem frees {s : State} {as : List Nat} (h : (as.all fun b => lineTest s (b / 128)) = true) : ∀ b ∈ as, s.LineFree (b / 128) :=
  fun b hb => lineFree (List.all_eq_true.mp h b hb)
/-- The parts of packet `p` come: all but the last are here, and that is the packet of the step. -/
def coming (s : State) (p : Packet) : State :=
  let ps := p.parts.map Packet.sealed
  { s with parts := ps.dropLast, input := { s.input with pkt := ps.getLastD p } }
/-- The test of `Delivers`. -/
def comes (s : State) (k : Packet) : Bool :=
  let p := s.input.pkt
  !s.stalled && (!p.direct || s.hears p.src) && p.framed && p.checkOk && decide (p.reserved = 0) &&
    decide (p.cls = k.cls ∧ p.op % opPart = k.op) &&
    decide (if p.op < opPart then k = p else joinParts p (s.parts.filter (fun q => q.whole = p.whole) ++ [p]) = some k)
theorem delivers {s : State} {k : Packet} (h : comes s k = true) : s.Delivers k := by
  simp only [comes, Bool.and_eq_true, Bool.or_eq_true, Bool.not_eq_true', decide_eq_true_eq] at h
  obtain ⟨⟨⟨⟨⟨⟨a, b⟩, c⟩, d⟩, e⟩, f⟩, i⟩ := h
  exact ⟨a, fun hd => b.resolve_left (by rw [hd]; decide), c, d, e, f, i⟩
theorem productLine {s : State} {a : Nat} (h1 : s.Faultless) (h : (s.mem.wf && (span a 256).all (fun b => lineTest s (b / 128)) &&
    !s.isBad (span a 256) && (List.range 256).all fun k => !inFirmware (a + k)) = true) : s.ProductLine a := by
  simp only [Bool.and_eq_true, Bool.not_eq_true', List.all_eq_true (l := List.range 256), List.mem_range] at h
  exact ⟨h.1.1.1, h1, frees h.1.1.2, h.1.2, h.2⟩

/-- A store to a region line, which is late and which is not; metadata; an accepted entry; and an image that forms: a line that it
has, one that waits for a store of its step, one that it takes, and the end. -/
theorem meets_PersistQueues :
    let p : Persist := { id := 5, stack := 0, cells := [(0x40010000000, 1)], tag := some 1, gid := some 0 }
    let c : MetaSet := { line := 0x400100000, tag := some 2 }
    let s := fun (p : Persist) (n : Snap) (m : LineMeta) =>
      ({ w g0 with persists := [p], snap := n, lineMeta := [(0x400100000, m)] } : State)
    let f : Forming := { slot := 0, step := 0, seqNo := 1, gid := 0 }
    let n : Snap := { snap0 with forming := some f }
    let i : State := { w g0 with snap := n }
    let a := 0x40010000000
    (∀ q, q = p ∨ q = { p with kind := 2, tag := none, sets := [c] } → ∀ m, m = { mark := 1 } ∨ m = {} →
      ((s q snap0 m).persists.find? fun x => !x.accepted && x.stack == (s q snap0 m).input.unit) = some q ∧
      (s q snap0 m).queued q.stack + q.cells.length ≤ 2 ^ 24 ∧ (s q snap0 m).toCopy q = []) ∧
    p.kind = 0 ∧ p.sets = [] ∧ p.counted = false ∧ (s p snap0 { mark := 1 }).isLate p = true ∧ (s p snap0 {}).isLate p = false ∧
     aget (s p snap0 {}).groups 0 = some g0 ∧
    ((s { p with accepted := true } {} {}).persists.find? fun p => p.accepted && p.stack == (w g0).input.unit) =
      some { p with accepted := true } ∧
    ((s p {} {}).stack (8 + p.stack)).held = false ∧ (s p {} {}).media.wf = true ∧ (p.cells.map Prod.fst).Nodup ∧
    i.snap.forming = some f ∧ i.mem.wf = true ∧ i.Faultless ∧ n.lineAt 0 = some a ∧ n.lineOf a = some 0 ∧
    ({ i with lineMeta := [(a / 256, { mark := 0 })] } : State).lineMetaAt a = { mark := 0 } ∧
    (i.lineMetaAt a).mark ≠ f.step ∧ i.awaitsStore f a = false ∧
    ({ i with persists := [{ p with tag := none }] } : State).awaitsStore f a = true ∧ (∀ b ∈ span a 256, i.LineFree (b / 128)) ∧
    (i.imageLine a).2 = false ∧ (∀ k < 256, inFirmware (n.slotAt 0 + 256 * 0 + k) = false) ∧
    ({ n with forming := some { f with next := 2 } } : Snap).lineAt 2 = none ∧ f.closing = false ∧ i.copiesOut = false ∧
    ∀ k < 16, inFirmware (n.base + 64 * 0 + k) = false := by
  intro p c s f n i a
  refine ⟨?_, rfl, rfl, rfl, by decide +kernel, by decide +kernel, rfl, by decide +kernel, by decide +kernel, by decide +kernel, by decide +kernel, rfl,
    by decide +kernel, faultless, by decide +kernel,
    by decide +kernel, by decide +kernel, by decide +kernel, by decide +kernel, by decide +kernel, frees (by decide +kernel),
    by decide +kernel, by decide +kernel, by decide +kernel, rfl, by decide +kernel, by decide +kernel⟩
  rintro q (rfl | rfl) m (rfl | rfl) <;> exact ⟨by decide +kernel, by decide +kernel, by decide +kernel⟩

/-- A contribution that is older than the line's, one that starts it and one that adds to it, one that names no line and one without an
image; a product at the replacement, one beyond the count and one of no rebuild. -/
theorem meets_Contributions :
    let p := fun (op unit : Nat) =>
      ({ src := 1, cls := 6, op := op, data := leBytes 8 0 ++ leBytes 8 unit ++ List.replicate 256 3 } : Packet)
    let n : Snap := { snap0 with slots := [(0, { st := .forming, step := 0 })] }
    let s := fun (op unit : Nat) (m : LineMeta) =>
      coming { w g0 with snap := n, lineMeta := [((n.slotAt 0 + n.u * 4096) / 256, m), (n.slotAt 0 / 256, m)] } (p op unit)
    let a := n.slotAt 0 + n.u * 4096
    (∀ op, op = 10 ∨ op = 11 → ∀ unit, unit = 0 ∨ unit = 2 ^ 40 → ∀ m, (s op unit m).Delivers (p op unit) ∧
      productOf (p op unit) = (0, unit, List.replicate 256 3)) ∧
    n.enabled = true ∧ n.slotOf 0 (· != .empty) = some 0 ∧ snap0.slotOf 0 (· != .empty) = none ∧ n.v * n.m ≤ 2 ^ 40 / 16 ∧ 0 / 16 < n.v * n.m ∧
    0 < ((s 10 0 { tag := 1 }).lineMetaAt a).tag ∧ ((s 10 0 {}).lineMetaAt a).tag = 0 ∧ (s 10 0 {}).ProductLine a ∧
    (n.slot 0).st ≠ .empty ∧ (n.slot 0).step = 0 ∧ (snap0.slot 0).st = .empty ∧ ¬2 ^ 40 % 2 ^ 63 / 16 < n.u ∧ 0 < n.u ∧
    n.expected false 0 ≤ ((s 11 0 { count := 9 }).lineMetaAt (n.slotAt 0)).count ∧
    ((s 11 0 {}).lineMetaAt (n.slotAt 0)).count < n.expected false 0 ∧ (s 11 0 {}).ProductLine (n.slotAt 0) ∧
    (∃ u < n.u, ∃ l < 16, ((s 11 0 {}).lineMetaAt (n.slotAt 0 + 4096 * u + 256 * l)).count < n.expected false u ∧
      n.slotAt 0 + 4096 * u + 256 * l ≠ n.slotAt 0) ∧ ∀ w ∈ n.work, ∀ lost, w.kind = .receive lost → w.ending = true := by
  intro p n s a
  refine ⟨?_, by decide +kernel, by decide +kernel, by decide +kernel, by decide +kernel, by decide +kernel, by decide +kernel,
    by decide +kernel, productLine faultless (by decide +kernel), by decide +kernel, by decide +kernel, by decide +kernel, by decide +kernel,
    by decide +kernel, by decide +kernel, by decide +kernel, productLine faultless (by decide +kernel), by decide +kernel, fun _ h => by cases h⟩
  rintro op (rfl | rfl) unit (rfl | rfl) m <;>
    exact ⟨delivers (by decide +kernel : comes (coming (w g0) _) _ = true), by decide +kernel⟩

/-- A `STRIPE` with a line to send and with none left; and a survivor after its last line, before one it owes a product for, and before a
stripe for which it owes none. -/
theorem meets_StripeProducts :
    let v : SnapWork := { kind := .survive 1 2, seqNo := 1, gid := 0, step := 0, next := 32 }
    let n := fun (v : SnapWork) => ({ snap0 with slots := [(1, { st := .complete, step := 0 })], work := [v] } : Snap)
    let s := fun (v : SnapWork) => ({ w g0 with snap := n v } : State)
    let z : SnapWork := { v with kind := .stripe, next := 0 }
    let at_ := (n z).slotAt 1
    (∀ v, v.step = 0 → (n v).work = [v] ∧ (s v).Faultless ∧ ((n v).slotOf v.step fun x => x == .complete || x == .striped) = some 1) ∧
    v.ending = false ∧ (s z).copyOps[(s z).input.index]? = none ∧ 0 < (n z).m ∧ (n z).u ≤ { z with next := 64 }.next / (16 * (n z).m) ∧
    0 < (n z).u ∧ ((n z).member ((n z).holder ((n z).stripeOf (n z).self 0) (.parity 0))).isSome = true ∧
    (∀ b ∈ span at_ 256, (s z).LineFree (b / 128)) ∧ (s z).isBad (span at_ 256) = false ∧ 0 < (n z).total ∧
    v.restoring = false ∧ (n v).n * (n v).v = 3 ∧ v.next / 16 = 2 ∧
    ((List.range (n v).n).find? fun j => (n v).member j == some 1) = some 1 ∧ (n v).unitOf 2 1 = .data 1 ∧
    (n v).unitOf 2 (n v).self = .data 0 ∧ (((n v).solution (.data 1)).find? fun e => e.1 == .data 0).isSome = true ∧
    (n v).real 2 (.data 1) = true ∧ (n v).real 2 (.data 0) = true ∧ (n v).unitAt 2 (.data 0) 0 < (n v).total ∧
    (∀ b ∈ span ((n v).slotAt 1 + (n v).unitAt 2 (.data 0) 0) 256, (s v).LineFree (b / 128)) ∧
    ∃ t < 3, ({ n v with units := 1 } : Snap).real t (({ n v with units := 1 } : Snap).unitOf t 1) = false := by
  intro v n s z at_
  refine ⟨fun v h => ⟨rfl, faultless, ?_⟩, rfl, by decide +kernel, by decide +kernel, by decide +kernel, by decide +kernel, by decide +kernel,
    frees (by decide +kernel), by decide +kernel, by decide +kernel, rfl, by decide +kernel, by decide +kernel, by decide +kernel,
    by decide +kernel, by decide +kernel, by decide +kernel, by decide +kernel, by decide +kernel, by decide +kernel,
    frees (by decide +kernel), ?_⟩
  · rw [h]; exact (by decide +kernel : ((n z).slotOf 0 fun x => x == .complete || x == .striped) = some 1)
  · decide +kernel

/-- An enable that passes, one that is refused, and a disable. -/
theorem meets_SnapshotControl :
    let s := fun (n : Snap) (v : Word64) => ({ w g0 with cfg := some { members := 7 }, snap := n, input := { value := v } } : State)
    let off : Snap := { snap0 with control := 0 }
    (s off snap0.control).boot = .running ∧ off.enabled = false ∧
    (snap0.control &&& 0x000000FFFF01FFFF).getLsbD 16 = true ∧
    (s off snap0.control).enableRefused { off with control := snap0.control &&& 0x000000FFFF01FFFF, refused := false } = false ∧
    (s {} snap0.control).enableRefused { control := snap0.control &&& 0x000000FFFF01FFFF, refused := false } = true ∧
    snap0.busy = false ∧ ((0 : Word64) &&& 0x000000FFFF01FFFF).getLsbD 16 = false := by
  intro s off
  exact ⟨rfl, by decide +kernel, by decide +kernel, by decide +kernel, by decide +kernel, by decide +kernel, by decide⟩

/-- A package with a write on its way, and one at 110 degrees. -/
theorem meets_ResetAndPower :
    let s : State := { w g0 with
      persists := [{ id := 5, stack := 0, cells := [(0x40010000000, 1)], accepted := true }], media := [(0x40010000000, 2)]
      input := { index := 1760 } }
    s.MemoryOk ∧ (∀ p ∈ s.persists, (p.cells.map Prod.fst).Nodup) ∧ (∀ p ∈ s.persists, ∀ c ∈ p.cells, placeOf c.1 = .scm) ∧
    (∀ b, readByte s.media b ≠ 0 → placeOf b = .scm) ∧ s.boot ≠ .off ∧ s.killing = none ∧ 110 * 16 ≤ s.input.index := by
  intro s
  refine ⟨⟨by decide +kernel, by decide +kernel, by decide +kernel⟩, by decide +kernel, by decide +kernel, fun b h => ?_, by decide +kernel,
    rfl, by decide +kernel⟩
  by_cases e : 0x40010000000 = b
  · subst e; decide +kernel
  · exact absurd (show readByte s.media b = 0 by simp [s, readByte, e]; rfl) h

/-- A record without storage endpoints; a nonce; a part without power, and one that is busy with a command. -/
theorem meets_BootCommands :
    let bs : List Byte := 1 :: List.replicate 23 0 ++ 1 :: List.replicate 6039 0
    let s : State := { State.reset with boot := .awaiting, input := { bytes := bs } }
    let v := fun (o : Nat) => leValue ((bs.drop o).take 8)
    s.boot = .awaiting ∧ s.killing = none ∧ ({ s with boot := .off } : State).boot = .off ∧
    ({ w g0 with killing := some 1 } : State).killing ≠ none ∧ s.input.bytes.length = 6064 ∧ v 0 = 1 ∧ v 16 < 64 ∧ v 48 = 0 ∧ v 56 = 0 ∧
    (∀ j, (v 40).testBit j = true → (v 24).testBit j = true) ∧ (v 40).testBit (v 16) = false ∧ s.rollback ≤ v 8 ∧
    ({ s with input := {} } : State).input.bytes.length ≠ 6064 ∧ (w g0).boot = .running ∧ State.reset.boot = .selfTest ∧
    s.leaf < 2 ^ 20 ∧ (List.replicate 48 (0 : Byte)).length = 48 ∧ 2 ^ 20 ≤ ({ s with leaf := 2 ^ 20 } : State).leaf := by
  intro bs s v
  have h40 : v 40 = 0 := by decide +kernel
  exact ⟨rfl, rfl, rfl, by decide, by decide +kernel, by decide +kernel, by decide +kernel, by decide +kernel, by decide +kernel, (fun j h => by
    rw [h40, Nat.zero_testBit] at h; cases h), by rw [h40, Nat.zero_testBit], by decide +kernel, by decide, rfl, rfl, by decide +kernel,
    by decide, by decide +kernel⟩

/-- Any address and width, while the part runs; and before. -/
theorem meets_RegisterReads : ∀ a c, ∃ s : State, s.boot = .running ∧ s.killing = none ∧ s.input.addr = a ∧ s.input.code = c :=
  fun a c => ⟨{ w g0 with input := { addr := a, code := c } }, rfl, rfl, rfl, rfl⟩
theorem meets_RegisterWrites : ∀ a c, ∃ s : State, s.boot = .running ∧ s.killing = none ∧ s.input.addr = a ∧ s.input.code = c ∧
    s.snap.enabled = false :=
  fun a c => ⟨{ w g0 with input := { addr := a, code := c } }, rfl, rfl, rfl, rfl, (by decide +kernel : ({} : Snap).enabled = false)⟩

/-- A context that is there, with a gang and without one, and one that is not. -/
theorem meets_ContextCommands :
    let s : State := { w g0 with input := { unit := 1, addr := 0x1000 } }
    s.boot = .running ∧ s.killing = none ∧ s.input.unit < 2 ^ 16 ∧ s.input.code < 2 ^ 32 ∧ s.input.addr < 2 ^ 64 ∧ s.input.index < 2 ^ 64 ∧
    aget s.ctxs s.input.unit = some {} ∧ s.snap.serves 1 = false ∧ (s.gangs.map Prod.fst).Nodup ∧
    (∀ e ∈ s.gangs, e.2.ctx = 1 → e.2.run ≠ .killed ∧ s.inFlight (s.gidsOf e.1) = false) ∧
    (∃ e ∈ s.gangs, e.2.ctx = 1 ∧ e.2.run ≠ .saved ∧ e.2.run ≠ .killed) ∧
    (∀ e ∈ ({ s with gangs := [] } : State).gangs, e.2.ctx = 1 → e.2.run = .saved ∨ e.2.run = .killed) ∧ aget ({ s with ctxs := [] } : State).ctxs 1 = none := by
  intro s
  exact ⟨rfl, rfl, by decide +kernel, by decide +kernel, by decide +kernel, by decide +kernel, rfl, by decide +kernel, by decide +kernel,
    by decide +kernel, ⟨_, .head _, rfl, by decide, by decide⟩, (fun _ h => by cases h), rfl⟩

/-- A disabled queue; one of spawns; an ordinary one with room and without; one that is not empty; and both kinds of config. -/
theorem meets_QueueRegisters :
    let s := fun (q : Queue) (v : Word64) => ({ w g0 with queues := [(5, q)], input := { unit := 5, value := v } } : State)
    let plain : Queue := { queue5 with config := 0x100010004 }
    (s plain 0).boot = .running ∧ (s plain 0).input.unit < 1024 ∧ ({} : Queue).enabled = false ∧ queue5.enabled = true ∧
    queue5.spawn = true ∧ plain.enabled = true ∧ plain.spawn = false ∧ 2 ^ plain.logSize - plain.count = 16 ∧
    ((17 : Word32) - plain.tail).toNat = 17 ∧ ((16 : Word32) - plain.tail).toNat = 16 ∧ plain.head ≠ ({ plain with tail := 3 } : Queue).tail ∧
    plain.head = plain.tail ∧ ((0x100010010 : Word64) &&& 0x00000003FFFF001F).getLsbD 32 = true ∧
    ((0x100010010 : Word64) &&& 0x00000003FFFF001F).toNat % 32 = 16 ∧ ((0 : Word64) &&& 0x00000003FFFF001F).getLsbD 32 = false := by
  intro s plain
  and_intros <;> decide +kernel

/-- A plan that fails each check in its first entry, and the plan at reset. -/
theorem meets_PlanApplication :
    let chan := fun (s : State) (f o l : Nat) => (s.planEntry f).toNat / 2 ^ (o + 8 * l) % 64
    let twice := fun (s : State) (f : Nat) => ∃ l < 4, ∃ m < 4, l ≠ m ∧ (chan s f 0 l = chan s f 0 m ∨ chan s f 32 l = chan s f 32 m)
    let dark := fun (s : State) (f : Nat) => ∃ l < 4, chan s f 0 l = 0 ∨ chan s f 32 l = 0
    let spare := fun (s : State) (f : Nat) => ∃ k < 8, (s.planEntry f).toNat / 2 ^ (8 * k + 6) % 4 ≠ 0
    let s := fun (e : Word64) => ({ w g0 with planWritten := [(0, e)], input := { value := 1 } } : State)
    (w g0).boot = .running ∧ (s 0).boot = .running ∧ (s 0).input.value.getLsbD 0 = true ∧ (s 0).planBusy = false ∧ twice (s 0) 0 ∧
    ¬twice (s 0x0302010003020100) 0 ∧ dark (s 0x0302010003020100) 0 ∧ ¬twice (s 0x0403020104030241) 0 ∧
    ¬dark (s 0x0403020104030241) 0 ∧ spare (s 0x0403020104030241) 0 ∧
    ∀ f < 512, ¬twice (w g0) f ∧ ¬dark (w g0) f ∧ ¬spare (w g0) f := by
  decide +kernel

/-- Words that clear and that do not; a scrub rate; a `retire` that is refused and one that starts. -/
theorem meets_CounterAndStackWrites :
    let s := fun (st : Stack) (v : Word64) => ({ w g0 with memStacks := [(7, st)], input := { unit := 7, value := v, addr := 0x800006001C8 } } : State)
    (s {} 0).boot = .running ∧ (0 : Word64).toNat % 2 ^ 32 = 0 ∧ (0x100000001 : Word64).toNat % 2 ^ 32 ≠ 0 ∧
    (s {} 0).input.unit < 8 ∧ (0x30000 : Word64).getLsbD 8 = false ∧
    (0x30101 : Word64).getLsbD 8 = true ∧ ((s { mode := 1 } 0x30101).stack 7).mode ≠ 0 ∧ ((s {} 0x30101).stack 7).mode = 0 ∧
    ¬((0x30101 : Word64).toNat / 2 ^ 5 % 8 ≠ 0 ∨ (0x30101 : Word64).toNat / 2 ^ 9 % 2 ^ 7 ≠ 0 ∨ (0x30101 : Word64).toNat / 2 ^ 32 ≠ 0) ∧
    ((0x30121 : Word64).toNat / 2 ^ 5 % 8 ≠ 0) := by
  intro s
  exact ⟨rfl, by decide, by decide, by decide +kernel, by decide, by decide, by decide +kernel, by decide +kernel, by decide,
    by decide⟩

/-! ### Hypotheses that states meet: scheduling, power and memory -/

/-- An ordinary queue with one entry, and one that holds slot `n`. -/
def waits0 : Queue := { base := 0x8000, config := 0x100010004, tail := 1, eligible := true }
def holds0 (n : Nat) : Queue := { waits0 with slot := some n, notified := n }

/-- A world whose queue 5 holds a slot and an entry that names a record at `va` of the bits `r`, and whose groups have left. -/
def launch (va r : Nat) : State :=
  { w g0 with
    mem := writeLE (writeLE tables 0x8000 8 va) 0x6000 64 r, ctxs := [(1, { root := 0x1000, queues := [5] })]
    queues := [(5, holds0 0)], waiting := [((5, 0), 0)], groups := [], teams := [], gangs := [] }

/-- No queue; one that waits, with a free slot; one that waits beside 32 that hold the slots; and one whose head record another package holds. -/
theorem meets_MapperSlots :
    let s : State := { w g0 with queues := [(5, waits0)] }
    let t : State := { w g0 with queues := ((List.range 32).map fun n => (n, holds0 n)) ++ [(40, waits0)] }
    let inactive := fun (s : State) (k : Nat) => ∃ q, (k, q) ∈ s.queues ∧ q.eligible = true ∧ q.slot = none
    let active := fun (s : State) (k : Nat) => ∃ q, (k, q) ∈ s.queues ∧ q.slot ≠ none
    let rank := fun (s : State) (k : Nat) => s.rank k (s.queue k)
    (w g0).NoInactive ∧ (w g0).ranking = false ∧ s.ranking = false ∧ t.ranking = false ∧
    ({ launch 0x40000000 0 with
      mem := writeLE (launch 0x40000000 0).mem 0x3008 8 (paOf 1 0 + 0x17B), queues := [(5, waits0)], cfg := some { members := 3 } } :
      State).ranking = true ∧ ((w g0).queues.map Prod.fst).Nodup ∧ (s.queues.map Prod.fst).Nodup ∧ (t.queues.map Prod.fst).Nodup ∧
    inactive s 5 ∧ (∀ c, inactive s c → c = 5) ∧ (∀ e ∈ s.queues, e.2.slot ≠ some 0) ∧ inactive t 40 ∧ (∀ c, inactive t c → c = 40) ∧
    active t 31 ∧ (∀ c, active t c → c ≠ 31 → outranks (rank t c) (rank t 31) = true) ∧
    ∀ n < 32, ∃ e ∈ t.queues, e.2.slot = some n := by
  intro s t inactive active rank
  have hs : ∀ e ∈ s.queues, e.2.eligible = true → e.2.slot = none → e.1 = 5 := by decide +kernel
  have ht : ∀ e ∈ t.queues, e.2.eligible = true → e.2.slot = none → e.1 = 40 := by decide +kernel
  have ha : ∀ e ∈ t.queues, e.2.slot ≠ none → e.1 ≠ 31 → outranks (rank t e.1) (rank t 31) = true := by decide +kernel
  exact ⟨(fun _ h => by cases h), by decide, by decide +kernel, by decide +kernel, by decide +kernel, by decide, by decide, by decide +kernel, ⟨waits0, .head _, rfl, rfl⟩,
    (fun c ⟨q, h, a, b⟩ => hs _ h a b), by decide +kernel, ⟨waits0, by decide +kernel, rfl, rfl⟩, (fun c ⟨q, h, a, b⟩ => ht _ h a b),
    ⟨holds0 31, by decide +kernel, by decide⟩, (fun c ⟨q, h, a⟩ => ha _ h a), by decide +kernel⟩

theorem allFree {s : State} (h1 : s.dir = []) (h2 : s.memStacks = []) (line : Nat) : s.LineFree line := by
  have e : s.entry line = {} := by simp [State.entry, h1, agetD, aget]
  refine ⟨by rw [e], by simp [State.lineOpen, State.stack, h1, h2, agetD, aget], by rw [e]; decide, fun a h => by rw [e] at h; cases h⟩
theorem linesReady {s : State} (h1 : s.dir = []) (h2 : s.memStacks = []) (line : Nat) : s.lineReady line false = .ready := by
  have e : s.entry line = {} := by simp [State.entry, h1, agetD, aget]
  have : (s.entry line).turnOf s.asker = true := by rw [e]; rfl
  simp [State.lineReady, this, State.lineOpen, State.stack, h1, h2, agetD, aget]
theorem walks {s : State} {ctx va : Nat} {need : Need} {x : Xlat} (h : (match s.translate [] ctx true need va with
    | .ok y t => decide (y = x ∧ t = { s with memReqs := t.memReqs }) | _ => false) = true) : s.Walks ctx need va x := by
  unfold State.Walks
  cases e : s.translate [] ctx true need va with
  | ok y t =>
    rw [e] at h
    have := of_decide_eq_true h
    exact ⟨t.memReqs, by rw [this.1, ← this.2]⟩
  | _ => rw [e] at h; cases h

/-- One candidate, and every record is of this package. -/
theorem meets_Readiness :
    (launch 0x6000 rec64).NoInactive ∧ (∀ l ∈ (launch 0x6000 rec64).readinessLines, ∀ s', (launch 0x6000 rec64).lineReady l false ≠ .demand s') ∧
    ∀ e ∈ (launch 0x6000 rec64).queues, e.2.slot ≠ none → ∀ n ∈ (launch 0x6000 rec64).windowOf e.2,
      ∀ pa, ({ launch 0x6000 rec64 with fetched := [] } : State).recordView ((launch 0x6000 rec64).ownerOf e.1)
        ((launch 0x6000 rec64).ringEntry e.2 n) ≠ .away pa := by
  refine ⟨by unfold State.NoInactive; decide +kernel, (fun l _ s' h => by rw [linesReady rfl rfl] at h; cases h), ?_⟩
  have h : ∀ e ∈ (launch 0x6000 rec64).queues, ∀ n ∈ (launch 0x6000 rec64).windowOf e.2,
      (match ({ launch 0x6000 rec64 with fetched := [] } : State).recordView ((launch 0x6000 rec64).ownerOf e.1)
        ((launch 0x6000 rec64).ringEntry e.2 n) with | .away _ => false | _ => true) = true := by decide +kernel
  intro e he _ n hn pa e2
  have := h e he n hn
  rw [e2] at this
  cases this

/-- A record that is admitted, one that cannot be read, and one without a group, without and with a signal. -/
theorem meets_Admission :
    let sig := rec64 - 2 ^ 192 + 0x5000 * 2 ^ 256
    let c : Cand := { key := (5, 0), prio := 0, appended := 0 }
    (∀ s, s = launch 0x6000 rec64 ∨ s = launch 0x6001 rec64 ∨ s = launch 0x6000 (rec64 - 2 ^ 192) ∨ s = launch 0x6000 sig →
      s.evalReady = s ∧ (∃ ps, s.choice = some (c, ps)) ∧ (s.queue 5).count ≤ 2 ^ (s.queue 5).logSize ∧
        (s.queues.map Prod.fst).Nodup ∧ s.Takes (span ((s.queue 5).entryAt 0) 8) ∧
        ∀ n < 2 ^ 32, (s.queue 5).holds n = true → s.lineReady ((s.queue 5).entryAt n / 128) false = .ready) ∧
    (let s := launch 0x6000 rec64
      let bs := s.readHome 0x6000 64;
      s.recordView (s.ownerOf 5) (s.ringEntry (s.queue 5) 0) = .record bs ∧ (recordOf bs).cause 1 = none ∧
        s.Walks 1 .read 0x6000 (at0 0x6000) ∧ (at0 0x6000).kind < 2 ∧ s.HomeRead (span (locOf (at0 0x6000).pa) 64)) ∧
    (launch 0x6001 rec64).ringEntry ((launch 0x6001 rec64).queue 5) 0 % 64 ≠ 0 ∧
    (let s := launch 0x6000 (rec64 - 2 ^ 192)
      let bs := s.readHome 0x6000 64;
      s.recordView (s.ownerOf 5) (s.ringEntry (s.queue 5) 0) = .record bs ∧ s.Walks 1 .read 0x6000 (at0 0x6000) ∧
        s.HomeRead (span (locOf (at0 0x6000).pa) 64) ∧ (recordOf bs).cause 1 = some 1 ∧ (recordOf bs).signal = 0) ∧
    (let s := launch 0x6000 sig
      let bs := s.readHome 0x6000 64;
      s.recordView (s.ownerOf 5) (s.ringEntry (s.queue 5) 0) = .record bs ∧ (recordOf bs).cause 1 = some 1 ∧
        s.Walks 1 .read 0x6000 (at0 0x6000) ∧ s.HomeRead (span (locOf (at0 0x6000).pa) 64) ∧ s.SignalReady 1 (recordOf bs) (at0 0x5000) ((List.range 16).flatMap fun j => span ((s.queue 5).entryAt j) 8)) := by
  intro sig c
  have open_ : ∀ va r, (launch va r).HomeRead (span (locOf (at0 0x6000).pa) 64) := fun va r =>
    ⟨faultless, fun _ _ => allFree rfl rfl _, fun _ h => by cases h⟩
  refine ⟨?_, ⟨by decide +kernel, by decide +kernel, walks (by decide +kernel), by decide +kernel, open_ _ _⟩, by decide +kernel,
    ⟨by decide +kernel, walks (by decide +kernel), open_ _ _, by decide +kernel⟩, by decide +kernel, by decide +kernel,
    walks (by decide +kernel), open_ _ _, by decide +kernel, walks (by decide +kernel), by decide +kernel,
    takes rfl faultless (by decide +kernel), by decide +kernel⟩
  rintro s (rfl | rfl | rfl | rfl)
  · exact ⟨by decide +kernel, ⟨[(0, [0], 0)], by decide +kernel⟩, by decide +kernel, by decide, takes rfl faultless (by decide +kernel), fun _ _ _ => linesReady rfl rfl _⟩
  all_goals exact ⟨by decide +kernel, ⟨[], by decide +kernel⟩, by decide +kernel, by decide, takes rfl faultless (by decide +kernel), fun _ _ _ => linesReady rfl rfl _⟩

/-- A gang that fills the die, and one of prio 1 that has waited 2^20 clocks and needs a matrix unit of every core; and gangs between
a kernel and its successor. -/
def wide : Record := { window := 2, stack := 8, acc := 8, ctx := 1, prio := 1, groups := 4, teams := 256, place := true }
theorem meets_PreemptionOrders :
    let x : Gang := { gang0 with recAddr := 0x80, rec_ := wide, run := .saved }
    let s : State := { w g0 with
      gangs := [(0, gang0), (3, x)], teams := [(0, { team0 with quarters := [0, 1, 2, 3], units := [(0, {})] })]
      resumeList := [3], waiting := [((1024, 3), 0)], reserving := [(1024, 3)], slice := 1, time := 0x102000
      input := { unit := 1, addr := 0x40 } }
    let c : Cand := { key := (1024, 3), prio := 1, appended := 0 }
    let stops : Gang := { gang0 with stopped := true }
    ({ s with input := {} } : State).gangNamed 0 0 = none ∧ s.gangNamed s.input.unit s.input.addr = some (0, gang0) ∧
    aget s.gangs 0 = some gang0 ∧ gang0.stopped = false ∧ gang0.run = .running ∧ gang0.entering = false ∧
    s.resumeList.length + (s.gangs.filter fun e => e.2.run = .stopping).length < 1024 ∧
    ({ s with gangs := [(0, stops)] } : State).gangNamed 1 0x40 = some (0, stops) ∧ stops.stopped = true ∧
    (∀ y, y = { gang0 with run := .handing } ∨ y = { gang0 with entering := true } →
      ({ s with gangs := [(0, y), (3, x)] } : State).gangNamed 1 0x40 = some (0, y) ∧ y.stopped = false ∧
        (y.run = .handing ∨ y.run = .running ∧ y.entering = true)) ∧ s.evalReady = s ∧
    (s.candidates.find? fun c => s.reserving.contains c.key) = some c ∧ s.slice.toNat % 2 ^ 32 ≠ 0 ∧ s.victims 1 = [0] ∧
    (s.gangs.map Prod.fst).Nodup ∧ (∀ e ∈ s.gangs, e.2.rec_.prio < 8 ∧ e.2.admitted ≤ 2 ^ 64) ∧
    (s.gangs.filter fun e => e.2.run = .stopping) = [] ∧ (s.without ([] ++ [])).fits c = none ∧ (s.without ([] ++ [0])).fits c ≠ none := by
  intro x s c stops
  refine ⟨rfl, by decide +kernel, rfl, rfl, rfl, rfl, by decide +kernel, by decide +kernel, by decide, ?_, by decide +kernel, by decide +kernel,
    by decide, by decide +kernel, by decide +kernel, by decide +kernel, by decide +kernel, by decide +kernel, by decide +kernel⟩
  rintro y (rfl | rfl) <;> decide +kernel

/-- The page of each number, and the places of the pieces of a gang's save there. -/
def X0 (p : Nat) : Xlat := at0 (4096 * p)
def place0 (p : Nat × Nat) : Nat := locOf (pieceAt X0 p.1).pa
/-- Each piece ends before the next begins. -/
def inRow : List (Nat × Nat) → Bool
  | p :: q :: ps => decide (place0 p + p.2 ≤ place0 q) && inRow (q :: ps)
  | _ => true
theorem apart_of_inRow (ps : List (Nat × Nat)) (h : inRow ps = true) : ps.Pairwise fun p q => place0 p + p.2 ≤ place0 q := by
  have : List.IsChain (fun p q => place0 p + p.2 ≤ place0 q) ps := by
    induction ps with
    | nil => exact .nil
    | cons p ps ih => cases ps with
      | nil => exact .singleton p
      | cons q ps =>
        simp only [inRow, Bool.and_eq_true, decide_eq_true_eq] at h
        exact .cons_cons h.1 (ih h.2)
  have : IsTrans (Nat × Nat) fun p q => place0 p + p.2 ≤ place0 q := ⟨fun _ _ _ a b => by omega⟩
  exact List.isChain_iff_pairwise.mp ‹_›
/-- Each piece is aligned and lies in HBM. -/
def piecesIn (ps : List (Nat × Nat)) : Bool :=
  ps.all fun p => place0 p % p.2 == 0 && placeOf (place0 p) == .hbm && decide (place0 p + p.2 ≤ 0x5FFFC000000)
theorem of_uniq {x : Nat} {l : List Nat} (h : x ∈ uniq l) : x ∈ l := by
  have : ∀ (l acc : List Nat), x ∈ l.foldl addSet acc → x ∈ acc ∨ x ∈ l := by
    intro l
    induction l with
    | nil => exact fun _ h => .inl h
    | cons y l ih =>
      intro acc h
      rcases ih _ h with h | h
      · unfold addSet at h
        split at h
        · exact .inl h
        · rcases List.mem_append.mp h with h | h
          · exact .inl h
          · exact .inr (by rw [List.mem_singleton.mp h]; exact List.mem_cons_self)
      · exact .inr (.tail _ h)
  exact (this l [] h).resolve_left (by simp)
theorem pages {s : State} {k : Nat} {need : Need} (h1 : s.dir = []) (h2 : s.memStacks = []) (h3 : s.l1 = []) (h5 : s.tlbs = w0.tlbs)
    (h : ((s.saveAddrs k).all fun va => decide (va < 2 ^ 30)) = true)
    (h4 : (piecesIn (s.savePieces k) && inRow (s.savePieces k)) = true) : s.PagesReady k 0 1 need X0 := by
  simp only [Bool.and_eq_true] at h4
  refine ⟨fun pm hp => ⟨hit page0 (decide_eq_true ?_), by show page0.kind < 2; decide⟩, fun _ _ => allFree h1 h2 _,
    fun p hp => ?_, (apart_of_inRow _ h4.2).imp fun h => .inl h, fun e he => by rw [h3] at he; cases he⟩
  · have hl : 4096 * pm.1 < 2 ^ 30 := by
      obtain ⟨q, hq, rfl⟩ := List.mem_map.mp hp
      have hm := of_uniq hq
      simp only [List.map_append, List.map_map, List.mem_append, List.mem_map, Function.comp] at hm
      have hall := List.all_eq_true.mp h
      rcases hm with ⟨x, hx, rfl⟩ | ⟨x, hx, rfl⟩
      · have := of_decide_eq_true (hall _ (List.mem_append_left _ (List.mem_map_of_mem hx))); omega
      · have := of_decide_eq_true (hall _ (List.mem_append_right _ (List.mem_map_of_mem hx))); omega
    have e : 4096 * pm.1 % 2 ^ 57 = 4096 * pm.1 := Nat.mod_eq_of_lt (by omega)
    rw [e]
    refine ⟨?_, ?_, by cases pm.2 <;> cases need <;> decide⟩ <;>
      simp [State.tlbFind, h5, w0, TlbEntry.covers, page0, page1, show 4096 * pm.1 < 1073741824 by omega]
  · have := List.all_eq_true.mp h4.1 p hp
    simp only [Bool.and_eq_true, beq_iff_eq] at this
    exact ⟨this.1.1, .inl this.1.2⟩
theorem noneBad {s : State} (h1 : s.poison = []) (h2 : s.memStacks = []) (as : List Nat) : s.isBad as = false := by
  simp [State.isBad, State.withdrawn, State.stack, h1, h2, agetD, aget]

theorem meets_GangSave :
    let x : Gang := { gang0 with run := .stopping }
    let s : State := { w g0 with gangs := [(0, x)] }
    s.input.index = 0 ∧ aget s.gangs 0 = some x ∧ x.run = .stopping ∧ x.stopped = false ∧ x.heldPage = none ∧ s.settled 0 = true ∧
    s.resumeList.length < 1024 ∧ s.GangSound 0 x ∧ s.PagesReady 0 (x.cores.headD 0) x.ctx .write X0 ∧ (∀ core ∈ x.cores, s.CacheSound core) ∧
    (∀ p ∈ s.savePieces 0, ∀ b ∈ span (locOf (pieceAt X0 p.1).pa) p.2, inFirmware b = false ∧ s.withdrawn b = false) ∧
    s.saveWindows 0 ≠ [] ∧ s.gidsOf 0 = [0] ∧
    (let other : Group := { g0 with team := 9, preempting := some (0, none) }
      let u : State := { s with groups := [(0, g0), (7, other)] };
      7 ∉ u.gidsOf 0 ∧ aget u.groups 7 = some other ∧ u.settled 0 = true) := by
  intro x s
  refine ⟨rfl, rfl, rfl, rfl, rfl, by decide +kernel, by decide, ⟨by decide, fun gid hg g h => ?_, by decide +kernel⟩,
    pages rfl rfl rfl rfl (by decide +kernel) (by decide +kernel), fun c _ => cached rfl faultless rfl c, fun p hp b hb => ?_,
    by decide +kernel, by decide +kernel, by decide +kernel, rfl, by decide +kernel⟩
  · rw [(by decide +kernel : s.gidsOf 0 = [0])] at hg
    obtain rfl := List.mem_singleton.mp hg
    obtain rfl : g0 = g := Option.some.inj h
    decide +kernel
  · have h : piecesIn (s.savePieces 0) = true := by decide +kernel
    have := List.all_eq_true.mp h p hp
    simp only [Bool.and_eq_true, decide_eq_true_eq] at this
    obtain ⟨j, hj, rfl⟩ := List.mem_map.mp hb
    exact ⟨notFirmware (decide_eq_true this.2) j (List.mem_range.mp hj), by simp [State.withdrawn, State.stack, s, w, w0, State.reset, agetD, aget]⟩

theorem meets_GangResume :
    let x : Gang := { gang0 with run := .saved }
    let s : State := { w g0 with gangs := [(0, x)], resumeList := [0], waiting := [((1024, 0), 0)] }
    s.evalReady = s ∧ s.choice = some ({ key := (1024, 0), prio := 0, appended := 0 }, [(0, [0], 0)]) ∧ aget s.gangs 0 = some x ∧
    x.heldPage = none ∧ s.Faultless ∧ (s.groups.map Prod.fst).Nodup ∧ (s.teams.map Prod.fst).Nodup ∧ s.PagesReady 0 0 x.ctx .read X0 ∧
    (∀ e ∈ s.teams, e.2.gang = 0 → e.2.idx < 1 ∧ (aget s.groups (gidOf e.1 0)).isSome = true) ∧ s.gidsOf 0 = [0] ∧ s.writesOut 0 = false ∧
    g0.parks = [] ∧ g0.fills = [] ∧ 0 = gidOf g0.team g0.idx ∧ 0 / 128 = g0.team ∧ g0.idx < x.rec_.groups ∧ s.sideLog = [] ∧ s.logUsed 0 ≤ 512 ∧
    s.l1 = [] ∧ s.remotes = [] ∧ s.saveWindows 0 ≠ [] ∧ ∀ p ∈ s.savePieces 0, s.isBad (span (locOf (pieceAt X0 p.1).pa) p.2) = false := by
  intro x s
  exact ⟨by decide +kernel, by decide +kernel, rfl, rfl, faultless, by decide, by decide,
    pages rfl rfl rfl rfl (by decide +kernel) (by decide +kernel), by decide +kernel, by decide +kernel, by decide +kernel, rfl, rfl,
    by decide, by decide, by decide, rfl, by decide +kernel, rfl, rfl, by decide +kernel, fun _ _ => noneBad rfl rfl _⟩

/-- The last team of a gang: with a successor, without a signal, and with one; and a team that is not the last. -/
theorem meets_Retirement :
    let g : Group := { g0 with live := 0 }
    let signal : Gang := { gang0 with rec_ := { gang0.rec_ with signal := 0x5000, sig32 := true } }
    let s := fun (x : Gang) => ({ w g with mem := tables, ctxs := [(1, { root := 0x1000 })], gangs := [(0, x)] } : State)
    (∀ x, aget (s x).teams (s x).input.index = some team0 ∧ aget (s x).gangs team0.gang = some x ∧ (s x).sideLog = [] ∧
      ((s x).teams.map Prod.fst).Nodup ∧ (s x).l1 = [] ∧ (s x).backs = []) ∧
    team0.retired = false ∧ team0.units = [] ∧ (∀ x, x = gang0 ∨ x = { gang0 with successor := some (0x80, wide) } ∨ x = signal →
      x.run ≠ .saved ∧ x.run ≠ .killed ∧ x.stopped = false ∧ (s x).liveGroups 0 = 0 ∧ (∀ gid ∈ (s x).gidsOf 0, (s x).writesOut gid = false) ∧
      ∀ e ∈ (s x).teams, e.1 ≠ 0 → e.2.gang = 0 → e.2.retired = true) ∧
    gang0.successor = none ∧ gang0.rec_.signal = 0 ∧ signal.successor = none ∧ (s signal).SignalReady 1 signal.rec_ (at0 0x5000) [] ∧
    (let u : State := { s gang0 with teams := [(0, team0), (1, { team0 with idx := 1 })] };
      (∃ e ∈ u.teams, e.1 ≠ 0 ∧ e.2.gang = 0 ∧ e.2.retired = false) ∧ (∀ e ∈ u.teams, e.2.gbarArrived = 0) ∧ u.liveGroups 0 = 0 ∧
        (u.teams.map Prod.fst).Nodup) := by
  intro g signal s
  refine ⟨fun x => ⟨rfl, rfl, rfl, (by decide : ([0] : List Nat).Nodup), rfl, rfl⟩, rfl, rfl, ?_, rfl, rfl, rfl,
    ⟨by decide, walks (by decide +kernel), by decide +kernel, takes rfl faultless (by decide +kernel), by decide +kernel⟩,
    ⟨(1, { team0 with idx := 1 }), by decide, by decide, rfl, rfl⟩, by decide +kernel, by decide +kernel, by decide⟩
  rintro x (rfl | rfl | rfl)
  all_goals exact ⟨by decide, by decide, rfl, by decide +kernel, by decide +kernel, by decide +kernel⟩

theorem meets_Succession :
    let x : Gang := { gang0 with run := .handing, successor := some (0x80, gang0.rec_) }
    let s : State := { w g0 with gangs := [(0, x)] }
    aget s.gangs s.input.index = some x ∧ x.run = .handing ∧ x.successor = some (0x80, gang0.rec_) ∧ (s.groups.map Prod.fst).Nodup ∧
    (s.teams.map Prod.fst).Nodup ∧ (∀ gid ∈ s.gidsOf 0, s.writesOut gid = false) ∧ aget s.teams 0 = some team0 ∧ aget s.groups 0 = some g0 :=
  ⟨rfl, rfl, rfl, by decide, by decide, by decide +kernel, rfl, rfl⟩

/-- More power than the cap, and as much; and a temperature at the limit. -/
theorem meets_PowerControl :
    let s := fun (v : Word64) => ({ w g0 with input := { value := v, index := 1520, addr := 0x2000000 } } : State)
    (s 3201).boot ≠ .off ∧ (s 3201).power.cap < (3201 : Word64).toNat ∧ 0 < (s 3201).power.throttle ∧
    (3200 : Word64).toNat ≤ (s 3200).power.cap ∧ (s 3200).power.throttle ≤ 256 ∧ 95 * 16 ≤ (s 0).input.index := by
  decide +kernel

/-- An HBM stack and an SCM stack at their limits, and below them; and a hold of 10 ms. -/
theorem meets_ThermalHolds :
    let s := fun (k : Nat) (v : Word64) (st : Stack) =>
      ({ w g0 with memStacks := [(k, st)], time := 12000000, input := { unit := k, value := v } } : State)
    (∀ k, k = 7 ∨ k = 8 → ((s k 105 {}).stack k).held = false ∧ (if k < 8 then 105 else 95) ≤ (105 : Word64).toNat ∧
      ((s k 84 { held := true }).stack k).held = true ∧ (84 : Word64).toNat < (if k < 8 then 95 else 85)) ∧
    ((s 7 90 { held := true }).stack 7).holdTold = false ∧
    ((s 7 90 { held := true }).stack 7).heldSince + 12000000 ≤ (s 7 90 { held := true }).now.toNat := by
  refine ⟨?_, by decide +kernel, by decide +kernel⟩
  rintro k (rfl | rfl) <;> decide +kernel

/-- No ring; a ring of 64 records without room and with it, and a record at the last value of each field. -/
theorem meets_ErrorRecords :
    let ring : ErrRing := { base := 0x4000, n := 6, head := 0, tail := 63 }
    let r : ErrRec :=
      { kind := 15, detail := 15, aux := 2 ^ 64 - 1, addr := 2 ^ 57 - 1, count := 2 ^ 32 - 1, gen := 2 ^ 32 - 1, ctx := 65535
        unitType := 15, unit := 4095, severity := 3 }
    (w g0).errRing.n < 6 ∧ 6 ≤ ring.n ∧ ring.n ≤ 16 ∧ placeOf (locOf ring.base + 64 * (63 % 2 ^ 6)) = .hbm ∧
    placeOf (locOf ring.base + 64 * (62 % 2 ^ 6)) = .hbm ∧ placeOf (locOf 0x40000000000) ≠ .hbm ∧ 2 ^ ring.n - 1 ≤ ring.tail - ring.head ∧
    { ring with tail := 62 }.tail - { ring with tail := 62 }.head < 2 ^ ring.n - 1 ∧ (w g0).mem.wf = true ∧ r.severity < 4 ∧ r.unit < 2 ^ 12 ∧
    r.unitType < 16 ∧ r.ctx < 2 ^ 16 ∧ r.gen < 2 ^ 32 ∧ r.count < 2 ^ 32 ∧ r.addr < 2 ^ 57 ∧ r.aux < 2 ^ 64 ∧ r.kind < 16 ∧ r.detail < 16 := by
  decide +kernel

theorem meets_MemoryUpkeep :
    let s := fun (st : Stack) (code : Nat) => ({ w g0 with memStacks := [(7, st)], input := { unit := 7, code := code } } : State)
    (s {} 2).input.code = 2 ∧ ((s { mode := 1, watermark := 2 } 0).stack 7).mode = 1 ∧ 1 < ((s { mode := 1, watermark := 2 } 0).stack 7).watermark ∧
    ((s { mode := 1, watermark := 1 } 0).stack 7).watermark = 1 ∧ ((s { mode := 1, watermark := 1 } 0).stack 7).held = false ∧
    ((s { scrub := 1 } 3).stack 7).scrub ≠ 0 ∧ ((s { scrub := 1 } 3).stack 7).held = false ∧ (s { scrub := 1 } 3).input.code % 5 = 3 ∧ (s { scrub := 1 } 0).input.code % 5 = 0 ∧
    (s { scrub := 1 } 3).errRing.n = 0 ∧
    aget (s { scrub := 1 } 0).flaws (stackAddr 7 0 / 128) = none ∧ (s { scrub := 1 } 0).rebuilds (stackAddr 7 0) = false ∧
    ∀ kind, kind = .hard ∨ kind = .symbol → aget ({ s { scrub := 1 } 0 with flaws := [(stackAddr 7 0 / 128, { kind := kind, beats := [] })] } :
      State).flaws (stackAddr 7 0 / 128) = some { kind := kind, beats := [] } := by
  refine ⟨by decide +kernel, by decide +kernel, by decide +kernel, by decide +kernel, by decide +kernel, by decide +kernel, by decide +kernel,
    by decide +kernel, by decide +kernel, by decide +kernel, by decide +kernel, by decide +kernel, ?_⟩
  rintro kind (rfl | rfl) <;> decide +kernel

/-- Two requests of one channel. -/
theorem meets_MemoryRequests :
    let r : MemReq := { channel := 0, requester := 1, cls := 0, arrived := 5, deadline := 50, line := 0, write := false }
    let q : MemReq := { r with requester := 2, cls := 1 }
    let s : State := { w g0 with memReqs := [q, r], time := 60 }
    r ∈ s.memReqs ∧ r.channel = s.input.unit ∧ s.memReqs.Pairwise (fun x y => x.requester ≠ y.requester ∨ x.line ≠ y.line) ∧
    (∀ x ∈ s.memReqs, x.channel = s.input.unit → x ≠ r → ¬r.arrived + 65536 ≤ s.now.toNat ∧ ¬x.arrived + 65536 ≤ s.now.toNat ∧
      r.cls < x.cls) ∧ (s.stack (stackOf (128 * r.line))).held = false ∧ s.input.code = 0 := by
  decide +kernel

/-- A group, a team with a matrix unit, a clean line and a write on its way, all under number 0. -/
theorem meets_OnChipErrors : ∀ code, ∃ (s : State) (l : L1Line) (p : Persist), s.input.code = code ∧ aget s.groups s.input.unit = some g0 ∧
    aget s.teams s.input.unit = some matTeam ∧ s.input.index / 4096 < 16 ∧ aget matTeam.units s.input.addr = some unit0 ∧
    aget s.l1 (s.input.unit, s.input.index) = some l ∧ l.dirty = 0 ∧ s.persists[s.input.index]? = some p :=
  fun code => ⟨{ w g0 with
    teams := [(0, matTeam)], l1 := [((0, 0), { data := List.replicate 128 0, valid := 1, dirty := 0 })]
    persists := [{ id := 1, stack := 0, cells := [(0x40010000000, 1)] }], input := { code := code } }, _, _, rfl, rfl, rfl,
    (by decide : 0 / 4096 < 16), rfl, rfl, rfl, rfl⟩

/-! ### Hypotheses that states meet: the fabric, the directory and the whole machine -/

/-- The world with what arrives, its header sealed. -/
def withP (p : Packet) : State := { w g0 with input := { pkt := p.sealed } }
theorem sealed_ok (p : Packet) : p.sealed.checkOk = true := by
  simp [Packet.checkOk, Packet.sealed, Packet.headerCheck, Packet.headerBits]
/-- A sealed packet of one part that a receiver hears comes. -/
theorem delivers1 {s : State} {p : Packet} (h1 : s.input.pkt = p.sealed) (h2 : s.hears p.src = true) (h3 : p.data.length ≤ 256)
    (h5 : p.op < 64) (h0 : s.stalled = false := by rfl) (h4 : p.reserved = 0 := by rfl) : s.Delivers p.sealed := by
  refine ⟨h0, fun _ => by rw [h1]; exact h2, ?_, by rw [h1]; exact sealed_ok p, by rw [h1]; exact h4, ?_, ?_⟩
  · rw [h1]; simp [Packet.framed, Packet.sealed, flitBytes, h3]
  · rw [h1]; exact ⟨rfl, Nat.mod_eq_of_lt h5⟩
  · rw [h1, if_pos (show p.sealed.op < opPart from h5)]

/-- A header that is struck, one that counts its flits wrong, one with a reserved bit, and one of an unknown operation, from a package
that is heard; and the first part of two. -/
theorem meets_PacketChecks :
    let struck : State := { w g0 with input := { pkt := { src := 1, check := 1 } } }
    let long : State := { w g0 with input := { pkt := { src := 1, flits := 1 } } }
    let bit := withP { src := 1, reserved := 1 }
    let other := withP { src := 1, cls := 7, op := 39 }
    let part := withP { src := 1, cls := 0, op := 65, data := [0, 2, 7] }
    let known := [(0, 0), (0, 1), (0, 2), (0, 3), (0, 5), (3, 4), (3, 6)]
    (∀ s, s = struck ∨ s = long ∨ s = bit ∨ s = other ∨ s = part → s.input.pkt.direct = true ∧ s.hears s.input.pkt.src = true) ∧
    struck.input.pkt.checkOk = false ∧ long.input.pkt.framed = false ∧ bit.input.pkt.reserved ≠ 0 ∧
    (other.input.pkt.cls, other.input.pkt.op % 64) ∉ known ∧
    part.input.pkt.framed = true ∧ part.input.pkt.checkOk = true ∧ part.input.pkt.reserved = 0 ∧
    (part.input.pkt.cls, part.input.pkt.op % 64) ∈ known ∧ 64 ≤ part.input.pkt.op ∧
    joinParts part.input.pkt (part.parts.filter (fun q => q.whole = part.input.pkt.whole) ++ [part.input.pkt]) = none := by
  intro struck long bit other part known
  refine ⟨?_, by decide +kernel, by decide +kernel, by decide +kernel, by decide +kernel, by decide +kernel, by decide +kernel,
    by decide +kernel, by decide +kernel, by decide +kernel, by decide +kernel⟩
  rintro s (rfl | rfl | rfl | rfl | rfl) <;> decide +kernel

/-- A read, a write to HBM and to SCM, a replica write, each read-modify-write, and a reduction. -/
theorem meets_RemoteService :
    let p := fun (cls op addr opdata : Nat) =>
      ({ src := 1, cls := cls, op := op, addr := addr, opdata := opdata, data := leBytes 16 5 } : Packet)
    (∀ a, a = 0x1000 ∨ a = 0x40010000000 → ∀ cls op opdata, op < 64 →
      (withP (p cls op a opdata)).Delivers (p cls op a opdata).sealed ∧ (p cls op a opdata).sealed.spoiled = [] ∧
      (withP (p cls op a opdata)).Takes (span (locOf a) 4) ∧ (p cls op a opdata).sealed.cls = cls ∧ (p cls op a opdata).sealed.op = op ∧
      (p cls op a opdata).sealed.opdata = opdata ∧ 4 ≤ (p cls op a opdata).sealed.data.length) ∧
    placeOf (locOf 0x1000) = .hbm ∧ placeOf (locOf 0x40010000000) = .scm ∧ 4 % 2 ^ 16 = 4 ∧ 4 % 256 = 4 ∧ 4 * 256 / 256 % 256 = 4 ∧
    (withP (p 0 3 0x1000 4)).homeValue 0x1000 4 ≠ leValue (((p 0 3 0x1000 4).data.drop 0).take 4) ∧
    ({ withP (p 0 3 0x1000 4) with mem := [(0x1000, 5)] } : State).homeValue 0x1000 4 =
      leValue (((p 0 3 0x1000 4).data.drop 0).take 4) := by
  intro p
  refine ⟨?_, by decide +kernel, by decide +kernel, by decide, by decide, by decide, by decide +kernel, by decide +kernel⟩
  rintro a (rfl | rfl) cls op opdata hop
  all_goals
    refine ⟨delivers1 rfl (by decide +kernel : (w g0).hears 1 = true) (by decide : (leBytes 16 5).length ≤ 256) hop, rfl,
      ⟨rfl, faultless, by decide +kernel, fun x _ => allFree rfl rfl _, (fun _ h => by cases h), noneBad rfl rfl _, by decide +kernel⟩, rfl, rfl, rfl, ?_⟩
    exact (by decide : 4 ≤ (leBytes 16 5).length)

/-- A chase, a row operation and a row update, of a size that there is and of one too large; and the update beside a read that it comes
to wait behind. -/
theorem meets_RemoteKioskSteps : ∀ cls op, (cls, op) = (3, 6) ∨ (cls, op) = (3, 4) ∨ (cls, op) = (4, 12) ∨ (cls, op) = (4, 7) →
    let p := fun (size : Nat) =>
      ({ src := 1, cls := cls, op := op, addr := 0x1000, opdata := if cls = 3 then size else size * 256 } : Packet)
    let old : RowOp := { id := 0, gid := some 0, requester := 0, cls := 1, kiosk := kioskOf 0x1000, op := 3, pa := 0x1000, size := 64
                         lanes := 1, data := [] }
    (∀ size s, s = withP (p size) ∨ s = { withP (p size) with rowOps := [old], nextId := 1 } →
      s.Delivers (p size).sealed ∧ s.kioskLoad (kioskOf (locOf 0x1000)) < 512 ∧ (p size).sealed.cls = cls ∧ (p size).sealed.op = op) ∧
    memorySpan (locOf 0x1000) 64 = true ∧ 1024 < 2000 ∧
    (if cls = 3 then (p 64).sealed.opdata % 2 ^ 16 else (p 64).sealed.opdata / 256) = 64 ∧
    (if cls = 3 then (p 2000).sealed.opdata % 2 ^ 16 else (p 2000).sealed.opdata / 256) = 2000 ∧ rowCellsOf [] = [] := by
  intro cls op h p old
  have hop : op < 64 := by
    obtain ⟨rfl, rfl⟩ | ⟨rfl, rfl⟩ | ⟨rfl, rfl⟩ | ⟨rfl, rfl⟩ := (by simpa using h :
      (cls = 3 ∧ op = 6) ∨ (cls = 3 ∧ op = 4) ∨ (cls = 4 ∧ op = 12) ∨ (cls = 4 ∧ op = 7)) <;> decide
  have n : (w g0).hears 1 = true := by decide +kernel
  refine ⟨?_, by decide +kernel, by decide, ?_, ?_, by decide⟩
  · rintro size s (rfl | rfl)
    · exact ⟨delivers1 rfl n (by decide : 0 ≤ 256) hop, (by decide +kernel : (w g0).kioskLoad (kioskOf (locOf 0x1000)) < 512), rfl, rfl⟩
    · exact ⟨delivers1 rfl n (by decide : 0 ≤ 256) hop,
        (by decide +kernel : ({ w g0 with rowOps := [old] } : State).kioskLoad (kioskOf (locOf 0x1000)) < 512), rfl, rfl⟩
  all_goals
    by_cases hc : cls = 3
    · simp [p, Packet.sealed, hc]
    · simp [p, Packet.sealed, hc]

/-- A response that names no request; one for each kind of request, good, failed, and lost; and a write that its owner discarded. -/
theorem meets_RemoteCompletion :
    let p := fun (opdata : Nat) => ({ src := 1, cls := 2, tag := 7, opdata := opdata, data := leBytes 4 5 } : Packet)
    let s := fun (rs : List Remote) (opdata : Nat) => ({ withP (p opdata) with remotes := rs } : State)
    let r := fun (what : RemoteFor) => ({ tag := 7, peer := 1, addr := 0, what := what, also := [5] } : Remote)
    (s [] 0).openFor 7 1 = none ∧ (∀ what opdata, (s [r what] opdata).openFor 7 1 = some (r what) ∧
      (s [r what] opdata).Delivers (p opdata).sealed ∧ (p opdata).sealed.cls = 2 ∧ (p opdata).sealed.op = 0 ∧
      aget (s [r what] opdata).groups 0 = some g0 ∧ (p opdata).sealed.data.length = 4 ∧ (p opdata).sealed.spoiled = [] ∧
      (p opdata).sealed.opdata = opdata ∧ (p opdata).sealed.data ≠ []) ∧
    (∀ k ∈ 3 :: (r (.load 0 5 3 4 4 0)).also, k < 32) ∧ (0 : Nat) % 256 ≠ 12 ∧ (0 : Nat) % 256 = 0 ∧ (5 : Nat) % 256 ≠ 0 ∧ (5 : Nat) % 256 ≠ 7 ∧
    (7 : Nat) % 256 = 7 ∧ g0.parks = [] ∧
    (256 + 12) % 256 = 12 ∧ (s [r (.write 0 5)] (256 + 12)).openFor 7 ((256 + 12) / 256 % 64) = some (r (.write 0 5)) := by
  intro p s r
  refine ⟨rfl, fun what opdata => ⟨?_, delivers1 rfl (by decide +kernel : (w g0).hears 1 = true) (by decide : (leBytes 4 5).length ≤ 256)
    (by decide : 0 < 64), rfl, rfl, rfl, rfl, rfl, rfl, (by decide : leBytes 4 5 ≠ [])⟩, by decide⟩
  simp [State.openFor, s, r]

theorem meets_InvalidateMessages :
    let p : Packet := { src := 1, cls := 0, op := 9, ctx := 1, data := leBytes 16 0 }
    (withP p).Delivers p.sealed ∧ p.sealed.cls = 0 ∧ p.sealed.op = 9 ∧ aget (withP p).ctxs p.sealed.ctx = some {} ∧ (withP p).l1 = [] :=
  ⟨delivers1 rfl (by decide +kernel) (by decide) (by decide), rfl, rfl, rfl, rfl⟩

/-- Laser 0 in each state, with no failure, a first and the last but one; a response and a request on their way; and a packet that has
waited 10 ms: a response, a part of one, a load, an atomic, and a request for the line that a load waits for. -/
theorem meets_Links :
    let s := fun (st : LinkState) (n : AMap Nat Nat) => ({ w g0 with cfg := some { members := 3 }, links := [(0, st)], retries := n } : State)
    let e := fun (cls op : Nat) => ({ pkt := { dest := 1, cls := cls, op := op, tag := 7 }, since := 0 } : Egress)
    let x : Egress := { e 2 0 with sent := true, link := some 0 }
    let r := fun (op : Nat) =>
      ({ tag := 7, peer := 1, addr := 0, what := if op = 0 then .load 0 5 3 4 4 0 else .atom 0 5 3 4 4 0 } : Remote)
    let t := fun (cls op : Nat) => ({ w g0 with egress := [e cls op], remotes := [r op], time := 12000000 } : State)
    let wait : LineWait := { die := 0, attr := 0, prio := 1 }
    let ask : Remote := { r 0 with line := some wait }
    let u : State := { t 0 16 with remotes := [ask] }
    (∀ st n, aget (s st n).links 0 = some st ∧ (s st n).egress = [] ∧ (s st n).retries = n) ∧
    (s .training []).isMember ((s .training []).reach 0) = true ∧ (w g0).isMember ((w g0).reach 0) = false ∧ aget (w g0).links 0 = none ∧
    aget ([] : AMap Nat Nat) 0 = none ∧ aget [(0, 15)] 0 = some 15 ∧
    (({ s .trained [] with egress := [x] } : State).egress.filter fun e => e.sent && e.link == some 0) = [x] ∧ x.pkt.op < 16 ∧
    (∀ cls op, (cls, op) = (2, 0) ∨ (cls, op) = (2, 64) ∨ (cls, op) = (0, 0) ∨ (cls, op) = (0, 2) ∨ (cls, op) = (0, 16) →
      (t cls op).egress[0]? = some (e cls op) ∧ (e cls op).sent = false ∧ (t cls op).trainedTo 1 = [] ∧
      (e cls op).since + 12000000 ≤ (t cls op).now.toNat ∧ (t cls op).openFor 7 1 = some (r op)) ∧
    ask ∈ u.remotes ∧ ask.line = some wait ∧ wait.die = (e 0 16).pkt.agent % 4 ∧ ask.addr / 128 = (e 0 16).pkt.addr / 128 ∧
    (∀ q ∈ u.remotes, q.addr / 128 = ask.addr / 128 → q.line ≠ none → q = ask) ∧ aget u.groups 0 = some g0 := by
  intro s e x r t wait ask u
  refine ⟨fun _ _ => ⟨rfl, rfl, rfl⟩, by decide +kernel, by decide +kernel, rfl, rfl, rfl, by decide +kernel, by decide, ?_, .head _, rfl, rfl, rfl,
    fun q h _ _ => List.mem_singleton.mp h, rfl⟩
  rintro cls op h
  obtain ⟨rfl, rfl⟩ | ⟨rfl, rfl⟩ | ⟨rfl, rfl⟩ | ⟨rfl, rfl⟩ | ⟨rfl, rfl⟩ := (by simpa using h : (cls = 2 ∧ op = 0) ∨ (cls = 2 ∧ op = 64) ∨
    (cls = 0 ∧ op = 0) ∨ (cls = 0 ∧ op = 2) ∨ (cls = 0 ∧ op = 16))
  all_goals exact ⟨rfl, rfl, by decide +kernel, by decide +kernel, rfl⟩

/-- An `STM` at its first packet, at a peer, at its own package and past its last member; and an `STM.row` whose home replica is here,
and one whose is not. -/
theorem meets_MulticastCopies :
    let m : Mcast :=
      { id := 1, gid := 0, ctx := 1, svc := 1, entry := 3, row := false, rel := false, tag := 0, stores := [(at0 0x1000, leBytes 4 5)] }
    let s := fun (left : Option (List Nat)) => ({ w g0 with mcasts := [{ m with left := left }] } : State)
    (∀ left, (s left).mcasts[(s left).input.index]? = some { m with left := left } ∧
      (∀ x ∈ (s left).mcasts.take (s left).input.index, x.gid ≠ m.gid) ∧ (s left).l1 = []) ∧ m.row = false ∧ 5 ≠ (s none).own ∧ 0 = (s none).own ∧
    (s (some [0])).Takes (span (locOf (at0 0x1000).pa) (leBytes 4 5).length) ∧ leBytes 4 5 ≠ [] ∧
    (∀ x ∈ m.stores, x.2.length ≤ 16) ∧
    (∀ j js, let y : Mcast := { m with row := true, left := some (j :: js) }
      let u : State := { w g0 with mcasts := [y] };
      u.mcasts[u.input.index]? = some y ∧ (∀ x ∈ u.mcasts.take u.input.index, x.gid ≠ y.gid) ∧ y.row = true ∧
        u.kioskLoad (kioskOf (locOf ((at0 0x1000).pa / 1024 * 1024))) < 512) := by
  intro m s
  exact ⟨fun _ => ⟨rfl, (fun _ h => by cases h), rfl⟩, rfl, by decide +kernel, by decide +kernel, takes rfl faultless (by decide +kernel), by decide,
    by decide +kernel, fun _ _ => ⟨rfl, (fun _ h => by cases h), rfl,
      (by decide +kernel : (w g0).kioskLoad (kioskOf (locOf ((at0 0x1000).pa / 1024 * 1024))) < 512)⟩⟩

/-- A message of agent 4 for line 32, and the line's entry. -/
def coh (op : CohOp) (e : Option DirEntry) (dst : Nat := 256) : State :=
  { w g0 with
    msgs := [{ op := op, line := 0x1000, src := 4, dst := dst, req := 8, data := List.replicate 128 7 }]
    dir := match e with | none => [] | some e => [(32, e)] }

/-- The messages of a home, and entries in every state that its statement tells apart. -/
theorem meets_HomeRequests :
    let m := fun (op : CohOp) => ({ op := op, line := 0x1000, src := 4, dst := 256, req := 8, data := List.replicate 128 7 } : CohMsg)
    (∀ op, ∀ e : DirEntry, (coh op (some e)).Message op (m op) ∧ (coh op (some e)).HomeLine 0x1000 ∧
      (coh op (some e)).entry (locOf 0x1000 / 128) = e ∧ (m op).spoiled = [] ∧ (m op).data.length = 128 ∧ (coh op (some e)).isEndpoint ((m op).src / 4) = false ∧
      (coh op (some e)).Storable (span (128 * (locOf 0x1000 / 128)) 128)) ∧
    (coh .getS none).entry 32 = {} ∧ ({} : DirEntry).waiting = [] ∧ (({ st := .shared, sharers := [4] } : DirEntry).agents.filter fun x => x ≠ 4) = [] ∧
    (({ st := .shared, sharers := [4, 8] } : DirEntry).agents.filter fun x => x ≠ 4) ≠ [] ∧
    4 ∈ ({ st := .shared, sharers := [4] } : DirEntry).agents ∧ ({ st := .modified, owner := 8 } : DirEntry).owner ≠ 4 ∧
    ({ st := .modified, owner := 4 } : DirEntry).owner = 4 ∧ ({ st := .modified, owner := 8 } : DirEntry).agents = [] := by
  intro m
  refine ⟨fun op e => ⟨⟨rfl, rfl, rfl, ?_⟩, ⟨?_, by decide +kernel, rfl, (fun _ h => by cases h), faultless⟩, ?_, rfl, List.length_replicate,
    (by decide +kernel : (w g0).isEndpoint (4 / 4) = false), ⟨rfl, faultless, by decide +kernel, ?_⟩⟩, by decide +kernel, rfl, by decide +kernel, by decide +kernel, by decide +kernel, by decide,
    rfl, by decide +kernel⟩
  · exact (by decide +kernel : CohMsg.target { op := .getS, line := 0x1000, src := 4, dst := 256 } = (w g0).own)
  · exact (by decide +kernel : pkgOf 0x1000 = (w g0).own)
  · have : locOf 0x1000 / 128 = 32 := by decide +kernel
    rw [this]; rfl
  · exact (by decide +kernel : ∀ a ∈ span (128 * (locOf 0x1000 / 128)) 128, inFirmware a = false ∧ (w g0).withdrawn a = false)

/-- Each state of a line of another package. -/
theorem meets_AgentRequests :
    let s := fun (st : DirState) => ({ w g0 with
      cfg := some { members := 3 }, agents := [((1, 0x80000000020), { st := st })], input := { unit := 1, addr := 0x4000000001000, code := 2 } } : State)
    (∀ st, (s st).input.code = 2 ∧ (s st).agentLine ((s st).input.unit % 4) ((s st).input.addr / 128 * 128 / 128) = { st := st }) ∧
      (∀ st, pkgOf ((s st).input.addr / 128 * 128) ≠ (s st).own ∧ (s st).isMember (pkgOf ((s st).input.addr / 128 * 128)) = true ∧
      (s st).isEndpoint (pkgOf ((s st).input.addr / 128 * 128)) = false) ∧
      (∀ st, (s st).l2Full 1 0x80000000020 = false ∧ (s st).l1 = []) ∧ ∀ st, ({ st := st } : AgentLine).waiting = none ∧ ({ st := st } : AgentLine).buffer = none := by
  refine ⟨fun st => ⟨rfl, by cases st <;> decide +kernel⟩, ?_, fun st => ⟨by cases st <;> decide +kernel, rfl⟩, fun _ => ⟨rfl, rfl⟩⟩
  intro st
  cases st <;> decide +kernel

/-- Every message to agent 1 of this package, while it waits, holds the line, or keeps it in its buffer. -/
theorem meets_AgentAnswers :
    let m := fun (op : CohOp) => ({ op := op, line := 0x1000, src := 4, dst := 1, req := 8, data := List.replicate 128 7 } : CohMsg)
    ∀ op, ∀ x : AgentLine, ({ coh op none 1 with agents := [((1, 32), x)] } : State).Message op (m op) ∧ (m op).dst < 256 ∧
      ({ coh op none 1 with agents := [((1, 32), x)] } : State).agentLine ((m op).dst % 4) ((m op).line / 128) = x ∧
      (w g0).l1 = [] := by
  intro m op x
  exact ⟨⟨rfl, rfl, rfl, (by decide +kernel : (1 : Nat) / 4 = (w g0).own)⟩, (by decide : 1 < 256), by simp [m, State.agentLine, agetD, aget], rfl⟩

/-- The last acknowledgement and one before it, the end of a forwarded transfer, a recalled line, and the row operation that a Kiosk
serves. -/
theorem meets_HomeAnswers :
    let m := fun (op : CohOp) => ({ op := op, line := 0x1000, src := 4, dst := 256, req := 8, data := List.replicate 128 7 } : CohMsg)
    let r := fun (op : CohOp) (src : Nat) => ({ op := op, line := 0x1000, src := src, dst := 256 } : CohMsg)
    let e := fun (prior : DirState) (acks : List Nat) (x : CohMsg) =>
      ({ st := .busy, prior := prior, acks := acks, serving := some x, owner := 4, sharers := [4, 8] } : DirEntry)
    (∀ x : DirEntry, (coh .invAck (some x)).Message .invAck (m .invAck) ∧ (coh .invAck (some x)).HomeLine 0x1000 ∧
      (coh .invAck (some x)).entry (locOf 0x1000 / 128) = x ∧ (coh .fin (some x)).Message .fin (m .fin) ∧
      (coh .fin (some x)).entry (locOf 0x1000 / 128) = x ∧ (coh .data (some x)).Message .data (m .data) ∧
      (coh .data (some x)).Storable (span (128 * (locOf 0x1000 / 128)) 128)) ∧
    (m .invAck).src ∈ (e .shared [4, 8] (r .getM 8)).acks ∧ ((e .shared [4, 8] (r .getM 8)).acks.filter fun x => x ≠ 4) ≠ [] ∧
    ((e .shared [4] (r .upg 8)).acks.filter fun x => x ≠ 4) = [] ∧ (r .upg 8).src ∈ (e .shared [4] (r .upg 8)).agents ∧
    (e .shared [4] (r .upg 8)).coarse = false ∧ (e .owned [4] (r .getM 8)).owner ≠ (r .getM 8).src ∧ (e .excl [] (r .getS 4)).serving = some (r .getS 4) ∧
    (r .getS 4).src = (m .fin).src ∧
    (let row : RowOp := { id := 0, gid := some 0, requester := 0, cls := 1, kiosk := kioskOf 0x1000, op := 3, pa := 0x1000, size := 64
                          lanes := 1, data := [] }
      let s : State := { w g0 with rowOps := [row], input := { unit := kioskOf 0x1000 } }
      s.nextRow s.input.unit = some row ∧ s.mayServe s.input.unit [0, row.id] row.kstep = true ∧
        ((ascending (homedLines row.addrs)).find? fun k => !s.holdsLock [0, row.id] k) = some 32 ∧ s.lineReady 32 true false [0, row.id] = .ready ∧
        s.l1 = []) := by
  intro m r e
  have h := meets_HomeRequests.1
  refine ⟨fun x => ⟨(h .invAck x).1, (h .invAck x).2.1, (h .invAck x).2.2.1, (h .fin x).1, (h .fin x).2.2.1, (h .data x).1,
    (h .data x).2.2.2.2.2.2⟩, by decide, by decide, by decide, by decide +kernel, rfl, by decide, rfl, rfl, by decide +kernel⟩

/-- A port that works, an event, and writes to HBM and to SCM. -/
theorem meets_ControlPorts : ∀ a, a = 0x1000 ∨ a = 0x40010000000 →
    let s : State := { w g0 with events := [{ kind := .user }], input := { unit := 1, addr := a, bytes := [1, 2] } }
    s.input.unit ∈ s.ports ∧ s.ports ≠ [] ∧ s.events = [{ kind := .user }] ∧ s.input.bytes ≠ [] ∧ s.Takes (span s.input.addr 2) := by
  rintro a (rfl | rfl) s
  all_goals exact ⟨by decide +kernel, by decide +kernel, rfl, by decide +kernel, takes rfl faultless (by decide +kernel)⟩

theorem meets_NopAndYield : (w g0).Acts 0 g0 := w_acts _

/-- A step from the state right after reset, whose memories and word indexes are in order, answers a state. -/
theorem meets_StepKeeps : State.reset.MemoryOk ∧ State.reset.WordsOk ∧ ∃ t, step State.reset = .next t := by
  refine ⟨⟨rfl, rfl, fun _ h => (by cases h)⟩, ⟨fun _ h => (by cases h), fun _ h => (by cases h), fun _ h => (by cases h)⟩, _, rfl⟩

theorem meets_EncodingRoundTrip : ∃ word, (Instr.iadd (ve 3 1 2 .i32)).wf {} = true ∧ encode (.iadd (ve 3 1 2 .i32)) = some word :=
  ⟨_, by decide +kernel, rfl⟩

/-- A group's turn with its line cached and not, a stream's turn with its word held, and a device's. -/
theorem meets_StepRunsDecoded :
    let s : State := { w g0 with turns := [.group 0] }
    let s0 : State := { s.tick with turns := [] }
    let c : State := { s with icache := [((0, 1, 0, 0), List.replicate 128 0)] }
    let c0 : State := { c.tick with turns := [] }
    let m : State := { mat with turns := [.stream 0 0], icache := [((0, 1, 0, 0), List.replicate 128 0)] }
    let m0 : State := { m.tick with turns := [] }
    (aget s0.groups 0 = some g0 ∧ s0.mayIssue g0 = true ∧ g0.issue?.isSome = true ∧ g0.hold = .none ∧ s0.quarterIssued 0 = false ∧ g0.loopBuf = none ∧
      s0.logsPage 0 [8 * g0.issue] = false ∧ s0.Hit (s0.coreOf g0) (s0.ctxOf g0) g0.supervisor .fetch (8 * g0.issue) (at0 32) ∧ s0.icache = [] ∧
      s0.lineReady (locOf (at0 32).pa / 128) false = .ready ∧ s0.l1 = [] ∧ s0.Faultless ∧ s0.isBad (span 0 128) = false) ∧
    (aget c0.groups 0 = some g0 ∧ aget c0.icache (0, 1, 0, 0) = some (List.replicate 128 0)) ∧
    (aget m0.teams 0 = some matTeam ∧ m0.streamGoes matTeam stream0 = true ∧ stream0.chunk = 0 ∧
      m0.Hit 0 1 stream0.supervisor .fetch (8 * stream0.pc) (at0 64) ∧
      aget m0.icache (0, 1, 8 * stream0.pc / 128, (at0 64).pa / 128) = some (List.replicate 128 0)) ∧
    Instr.l1CleanDrop.shape = .device ∧ commandOf 1 = some .cfgLoad ∧ commandOf 0xEE = none := by
  intro s s0 c c0 m m0
  exact ⟨⟨by decide +kernel, by decide +kernel, by decide +kernel, rfl, by decide +kernel, rfl, by decide +kernel, hit page0 (by decide +kernel),
    by decide +kernel, by decide +kernel, by decide +kernel,
    faultless (by decide +kernel) (by decide +kernel) (by decide +kernel) (by decide +kernel), by decide +kernel⟩, ⟨by decide +kernel, by decide +kernel⟩,
    ⟨by decide +kernel, by decide +kernel, rfl, hit page0 (by decide +kernel), by decide +kernel⟩, rfl, rfl, rfl⟩

/-! ### Hypotheses that states meet: what a word raises of its operands -/

theorem access' {s : State} {g : Group} {F : LaneForm}
    (h : (!g.anyPending (refsOf (F.reads g) ++ F.writes) && (g.deferred? (F.reads g)).isNone) = true)
    (h2 : (!s.acquiring 0 && !s.logs 0 && !s.writesOut 0 && decide (g.lost = []) && !g.readsOut) = true) :
    s.MayAccess 0 g (F.reads g) F.writes F.rel F.write := access h h2

/-- An `.sc` load of which every other lane is misaligned; a store past the scratch allocation; a load without a page; and marks that a
load and a vector word read. -/
theorem meets_AccessTraps :
    (let g := striding 2;
      ∃ F, laneForm (.ld (me 10 6 0 (off := true) (order := .sc) (width := .w32))) = some F ∧ (w g).Acts 0 g ∧
        (w g).MayAccess 0 g (F.reads g) F.writes F.rel F.write ∧ (w g).logs 0 = false ∧ (w g).writesOut 0 = false ∧
        ((lanesOf g.active).filter fun l => decide (F.addr g l % F.bytes ≠ 0)) = (List.range 16).map (2 * · + 1)) ∧
    (let g := withV [(6, 4096)];
      ∃ F, laneForm (.sts (me 10 6 0 (off := true) (width := .w32))) = some F ∧ (w g).Acts 0 g ∧
        (w g).MayAccess 0 g (F.reads g) F.writes F.rel F.write ∧ F.scratch = true ∧
        ((lanesOf g.active).filter fun l => decide (F.addr g l % F.bytes ≠ 0)) = [] ∧
        ((lanesOf g.active).filter fun l => decide ((w g).scratchSize g < F.addr g l + F.bytes)) = List.range 32) ∧
    (let g : Group := { withV [(6, 0x80000000)] with em := 1 };
      ∃ F, laneForm (.cas (me 10 6 0 (off := true) (width := .w32))) = some F ∧ (w g).Acts 0 g ∧
        (w g).MayAccess 0 g (F.reads g) F.writes F.rel F.write ∧ F.scratch = false ∧ F.logged = false ∧ g.Only 0 ∧
        ((lanesOf g.active).filter fun l => decide (F.addr g l % F.bytes ≠ 0)) = [] ∧ (w g).logsPage 0 [F.addr g 0] = false ∧
        (w g).Faults 0 1 false .write (F.addr g 0) 1 4 ∧ (w g).pageReqs.length < 1024) ∧
    (let g : Group := { g0 with marks := [{ scalar := false, reg := 6, lane := 7, kind := .poison, addr := 64, aux := 3 },
        { scalar := false, reg := 7, lane := 2, kind := .poison, addr := 72, aux := 3 }] };
      (w g).Acts 0 g ∧ (∃ F, laneForm (.ld (me 10 6 0 (off := true))) = some F ∧ (w g).acquiring 0 = false ∧ F.rel = false ∧ F.sc = false ∧
        g.anyPending (refsOf (F.reads g) ++ F.writes) = false ∧
        (g.marks.filter fun k => decide (k.kind = .poison) && (F.reads g).any fun r => g.markHit k r.1 r.2) = g.marks) ∧
      ∃ F, vecForm (.iadd (ve 3 6 2 .i32)) = some F ∧ tyAdmitted (.iadd (ve 3 6 2 .i32)) ∧ g.Latched F.latches ∧
        g.anyPending (refsOf (F.reads g) ++ F.dst.writes) = false ∧
        (g.marks.filter fun k => decide (k.kind = .poison) && (F.reads g).any fun r => g.markHit k r.1 r.2) ≠ []) :=
  ⟨⟨_, rfl, w_acts _, access' (by decide +kernel) (by decide +kernel), by decide +kernel, by decide +kernel, by decide +kernel⟩,
    ⟨_, rfl, w_acts _, access' (by decide +kernel) (by decide +kernel), rfl, by decide +kernel, by decide +kernel⟩,
    ⟨_, rfl, w_acts _, access' (by decide +kernel) (by decide +kernel), rfl, rfl, only0 (by decide +kernel), by decide +kernel, by decide +kernel,
      ⟨by
          intro k hk e h
          have n : ∀ k ∈ [TlbKey.l1 0, .l2 0], (w { withV [(6, 0x80000000)] with em := 1 }).tlbFind k 1 0x80000000 = none := by decide +kernel
          have a : ({ withV [(6, 0x80000000)] with em := 1 } : Group).addrOf (me 10 6 0 (off := true) (width := .w32)) 0 % 2 ^ 57 =
            0x80000000 := by decide +kernel
          exact absurd h (by rw [a, n k hk]; exact fun h => by cases h),
        fun b hb => lineFree (by revert b; decide +kernel), (fun _ h => by cases h), faultless, by decide +kernel⟩, by decide +kernel⟩,
    w_acts _, ⟨_, rfl, by decide +kernel, rfl, rfl, by decide +kernel, by decide +kernel⟩,
    _, rfl, trivial, latched (by decide +kernel), by decide +kernel, by decide +kernel⟩

/-- Map 9, which holds zeros; map 1 with too little scratch; and ranges that are misaligned, or pass the allocation of 4096 bytes. -/
theorem meets_CopyTraps :
    let m := fun (s : State) (n : Nat) => mapOf ((s.team g0.team).tmap n).words
    (big g0).Acts 0 g0 ∧ (∀ l, (big g0).MayIssue 0 g0 (readsS l) []) ∧
    (∀ u, u = .copy 0 0 ∨ u = .reduce 0 0 ∨ u = .gather 0 → mapStatus (m (big g0) 9) u = some 1) ∧
    (let s : State := { big g0 with gangs := [(0, { gang0 with rec_ := { gang0.rec_ with scratch := 0 } })] };
      s.Acts 0 g0 ∧ ∀ k u, (k = 1 ∧ u = .copy 0 0) ∨ (k = 0 ∧ u = .reduce 0 0) ∨ (k = 1 ∧ u = .gather 0) →
        mapStatus (m s k) u = none ∧ mapOver (m s k) (s.scratchSize g0) = some 0) ∧
    mapStatus (m (big g0) 1) (.gather 0) = none ∧ mapOver (m (big g0) 1) ((big g0).scratchSize g0) = none ∧ (8 : Nat) % 16 ≠ 0 ∧
    (65536 : Nat) % 16 = 0 ∧ (big g0).scratchSize g0 < 65536 + 4 * (m (big g0) 1).trows ∧
    [0, 8, 4].find? (fun x => decide (x % 16 ≠ 0)) = some 8 ∧ (w g0).scratchSize g0 < 4096 + 0 + 16 ∧
    (w g0).Acts 0 g0 ∧ ∀ l, (w g0).MayIssue 0 g0 (readsS l) [] := by
  have free' : ∀ l, g0.Free (readsS l) [] := fun l => ⟨by simp [Group.anyPending, g0], by simp [Group.deferred?, g0]⟩
  refine ⟨acts rfl rfl, fun l => ⟨free' l, by decide +kernel, by decide +kernel, by decide +kernel⟩, ?_, ⟨acts rfl rfl, ?_⟩, by decide +kernel,
    by decide +kernel, by decide, by decide, by decide +kernel, by decide, by decide +kernel, w_acts _,
    fun l => ⟨free' l, by decide +kernel, by decide +kernel, by decide +kernel⟩⟩
  · rintro u (rfl | rfl | rfl) <;> decide +kernel
  · rintro k u (⟨rfl, rfl⟩ | ⟨rfl, rfl⟩ | ⟨rfl, rfl⟩) <;> decide +kernel

/-- Records with a cause, for a queue that takes none, and for one that is full; addresses that are misaligned. -/
theorem meets_TaskTraps_spawn :
    let g := withS [(9, 0x1000), (10, 0x1008)]
    let s := fun (bytes : Nat) (qs : AMap Nat Queue) =>
      ({ w g with mem := writeLE [] 0x1000 64 bytes, queues := qs, ctxs := [(1, { queues := [5] })] } : State)
    (∀ b qs, (s b qs).Acts 0 g) ∧ g.Free (readsS [9]) [] ∧ g.Free (readsS [10]) [] ∧ (g.s 10).toNat % 2 ^ 57 % 64 ≠ 0 ∧
    (g.s 9).toNat % 2 ^ 57 = 0x1000 ∧
    (∀ e, e = (0, []) ∨ e = (rec64, []) ∨ e = (rec64, [(5, { queue5 with tail := 16 })]) →
      (s e.1 e.2).acquiring 0 = false ∧ (s e.1 e.2).logsPage 0 [0x1000] = false ∧ (s e.1 e.2).BlockRead g 0x1000 (at0 0x1000) ∧
        (s e.1 e.2).unsettled 0 g = false) ∧
    (recordOf ((s 0 []).blockOf g (at0 0x1000))).cause 1 = some 1 ∧
    (recordOf ((s rec64 []).blockOf g (at0 0x1000))).cause 1 = none ∧ ((s rec64 []).queue 5).enabled = false ∧
    (let q : Queue := { queue5 with tail := 16 };
      q.enabled = true ∧ q.spawn = true ∧ q.count = 2 ^ q.logSize) := by
  intro g s
  refine ⟨fun b qs => acts rfl rfl, free (by decide +kernel), free (by decide +kernel), by decide +kernel, by decide +kernel, ?_,
    by decide +kernel, by decide +kernel, by decide +kernel, by decide +kernel⟩
  rintro e (rfl | rfl | rfl) <;>
  exact ⟨rfl, by decide +kernel, readBlock (cached (by decide +kernel) faultless rfl _) rfl (by decide +kernel), by decide +kernel⟩

/-- `HANDOFF` of a group whose lanes stand apart; to misaligned addresses; and to records that give each status. -/
theorem meets_TaskTraps_handoff :
    let g := withS [(9, 0x1000), (10, 0x2000), (11, 8)]
    let apart : Group := { g with live := 1, lpc := 4 :: List.replicate 31 5, parks := [{ lane := 0, pc := 4, on := .granule 0 }] }
    let s := fun (bytes block : Nat) (succ : Option (Nat × Record)) =>
      ({ w g with mem := writeLE (writeLE [] 0x1000 64 bytes) 0x2000 64 block, gangs := [(0, { gang0 with successor := succ })] } : State)
    (w apart).Acts 0 apart ∧ apart.Free (readsS [9, 10]) [] ∧ apart.live ≠ apart.atIssue ∧
    g.Free (readsS [9, 10]) [] ∧ g.Free (readsS [11, 10]) [] ∧ g.Free (readsS [9, 11]) [] ∧ g.live = g.atIssue ∧
    (g.s 9).toNat % 2 ^ 57 % 64 = 0 ∧ (g.s 10).toNat % 2 ^ 57 % 64 = 0 ∧ (g.s 11).toNat % 2 ^ 57 % 64 ≠ 0 ∧
    (∀ b c f, (s b c f).Acts 0 g ∧ (s b c f).acquiring 0 = false) ∧
    (∀ e, e = (rec64 + 2 ^ 192, 0, none) ∨ e = (rec64 + 2 ^ 233, 0, none) ∨ e = (rec64 + 2 ^ 220, 0, none) ∨
        e = (rec64, 0, some (64, gang0.rec_)) ∨ e = (rec64, 2 ^ 409, none) ∨ e = (0, 0, none) →
      (s e.1 e.2.1 e.2.2).logsPage 0 [0x1000, 0x2000] = false ∧ (s e.1 e.2.1 e.2.2).BlockRead g 0x1000 (at0 0x1000) ∧
        (s e.1 e.2.1 e.2.2).BlockRead g 0x2000 (at0 0x2000)) ∧
    (let r := fun (bytes : Nat) => recordOf ((s bytes 0 none).blockOf g (at0 0x1000));
      (r 0).cause 1 = some 1 ∧ (∀ b ∈ [rec64 + 2 ^ 192, rec64 + 2 ^ 233, rec64 + 2 ^ 220, rec64], (r b).cause 1 = none) ∧
        (r (rec64 + 2 ^ 192)).groups ≠ gang0.rec_.groups ∧ (r (rec64 + 2 ^ 233)).teams ≠ gang0.rec_.teams ∧
        gang0.rec_.scratch < (r (rec64 + 2 ^ 220)).scratch) ∧
    leValue ((s rec64 (2 ^ 409) none).blockOf g (at0 0x2000)) / 2 ^ 409 ≠ 0 := by
  intro g apart s
  refine ⟨w_acts _, free (by decide +kernel), by decide +kernel, free (by decide +kernel), free (by decide +kernel), free (by decide +kernel),
    by decide +kernel, by decide +kernel, by decide +kernel, by decide +kernel, fun b c f => ⟨acts rfl rfl, rfl⟩, ?_, by decide +kernel,
    by decide +kernel⟩
  rintro e (rfl | rfl | rfl | rfl | rfl | rfl) <;>
  exact ⟨by decide +kernel, readBlock (cached (by decide +kernel) faultless rfl _) rfl (by decide +kernel),
    readBlock (cached (by decide +kernel) faultless rfl _) rfl (by decide +kernel)⟩

/-! ### Single steps: the spec's worked examples and corners worked by hand -/

/-- The example of `BYTX` in 05: bytes 4, 1, the sign of 0 and the reverse of 1. -/
theorem test_bytx : groupIs (exec (.bytx (ve 3 1 2 .n32)) (w (withV [(1, 0x80402010), (2, 0xF1), (3, 0x49800104)])))
    (fun h => h.v 3 31 == 0x040020F1 && h.pcOf 0 == 5) = true := by decide +kernel

/-- `IADDS.i32` of 2^31 - 1 and 1 gives the bound, saturated and inexact (05 R110). -/
theorem test_iadds_bound : groupIs (exec (.iadds (ve 3 1 2 .i32)) (w (withV [(1, 0x7FFFFFFF), (2, 1)])))
    (fun h => h.v 3 7 == 0x7FFFFFFF && h.fpflags == clampFlags.zeroExtend 64) = true := by decide +kernel

/-- `ISUB v1, v1, v2`: the source is the destination; 0 - 1 wraps. -/
theorem test_isub_wraps : groupIs (exec (.isub (ve 1 1 2 .i32)) (w (withV [(2, 1)]))) (fun h => h.v 1 0 == 0xFFFFFFFF && h.v 2 0 == 1) = true := by
  decide +kernel

/-- Division by zero gives all ones, and its remainder the dividend (05 R110). -/
theorem test_idiv_zero : groupIs (exec (.idiv (ve 3 1 2 .i32)) (w (withV [(1, 7)]))) (fun h => h.v 3 0 == 0xFFFFFFFF) = true ∧
    groupIs (exec (.irem (ve 3 1 2 .i32)) (w (withV [(1, 7)]))) (fun h => h.v 3 0 == 7) = true := by decide +kernel

/-- `FADD.f32` of 1 and 2^-24 rounds to 1 by ties to even and to the next number up by `.ru`; both are inexact. -/
theorem test_fadd_rounds :
    groupIs (exec (.fadd (ve 3 1 2 .f32)) (w (withV [(1, 0x3F800000), (2, 0x33800000)]))) (fun h => h.v 3 0 == 0x3F800000) = true ∧
    groupIs (exec (.fadd (ve 3 1 2 .f32 (rnd := .ru))) (w (withV [(1, 0x3F800000), (2, 0x33800000)])))
      (fun h => h.v 3 0 == 0x3F800001) = true := by decide +kernel

/-- A scalar word acts with no lane executing (02 R43). -/
theorem test_scalar_without_lanes : groupIs (exec (.smovi { im 9 0 5 with imm := -1 }) (w { g0 with em := 0 }))
    (fun h => h.s 9 == 0xFFFFFFFFFFFFFFFF && h.pcOf 3 == 5) = true := by decide +kernel

/-- The payload of layer 37 and step 70 000 in 03 is 0x2_5170. -/
theorem test_payload : ({ g0 with origin := 37 * 4096 + 368 } : Group).payload = 0x25170 := by decide

/-- A lane ends; the others stand at the next issue address (02 R42, 05 R144). -/
theorem test_exit : groupIs (exec (.exit (sy 0 0 0)) (w lane0)) (fun h => h.live == 0xFFFFFFFE && h.atIssue == 0xFFFFFFFE) = true := by
  decide +kernel

/-- A store and a load of 4 bytes through the first page, little-endian; the access past the page's alignment traps (06 R162). -/
theorem test_store : gives (exec (.st (me 4 6 2 (off := true) (width := .w32))) (w { withV [(4, 0x01020304)] with em := 1 }))
    (fun t => t.seenValue 0 8 4 == 0x01020304 && t.seen 0 8 == 4) = true := by decide +kernel
theorem test_load_misaligned : groupIs (exec (.ld (me 5 6 0 (off := true) (width := .w32))) (w (withV [(6, 2)])))
    (fun h => h.supervisor && h.s 57 == 0xFFFFFFFF00000004 && h.pcOf 0 == 0) = true := by decide +kernel

/-- `TRAP` with a code enters the handler with the next word as its resume word, and `ERET` returns to it (13 R356, R358). -/
theorem test_trap_and_return :
    groupIs (exec (.trap (sy 0 0 0 0xBEEF)) (w g0)) (fun h => h.supervisor && (h.s 56).toNat / 2 ^ 32 == 5 && h.s 59 == 0xBEEF) = true ∧
    gives (exec (.trap (sy 0 0 0 0xBEEF)) (w g0)) (fun t =>
      groupIs (exec (.eret (sy 0 0 0)) { t with cur := .group 0 }) fun h => !h.supervisor && h.pcOf 9 == 5 && h.s 59 == 0) = true := by
  decide +kernel

/-- In 01 package 5 reaches package 2 on channel 61; in 12 the lasers of fibre 20 use channels 18 to 21, so that it reaches
packages 23 to 26. -/
theorem test_reach : let s : State := { State.reset with cfg := some { pkg := 5 } }
    ((List.range 4).map fun k => (s.channel (80 + k), s.reach (80 + k))) = [(18, 23), (19, 24), (20, 25), (21, 26)] ∧
    (5 + 61) % 64 = 2 := by decide +kernel

/-- In 16 unit 5 of member 3 of six with four data units is of stripe 6. -/
theorem test_stripe : ({ control := 4 * 2 ^ 28 + 2 * 2 ^ 32 + 3 * 2 ^ 36 } : Snap).stripeOf 3 5 = 6 := by decide +kernel

/-- In 17 line 609 of a stack whose channel 8 is retired lies on channel 31, in stripe 20; before, in stripe 19. -/
theorem test_retired_place : ({ mode := 2, retired := 8 } : Stack).place 609 = (20, 31) ∧ (({} : Stack).place 609).1 = 19 := by decide

/-- The first step after reset runs the word placed for it: `SMOVI s9, 5`. -/
theorem test_first_step : gives (step (State.reset.withFetchWord 64 ((encode (.smovi (im 9 0 5))).getD 0).toNat))
    (fun t => (aget t.groups loadGroup).any fun h => h.s 9 == 5 && h.pcOf 0 == loadWord + 1) = true := by decide +kernel
/-- And so does a matrix word: `MEXIT` ends its stream. -/
theorem test_first_step_stream : gives (step (State.reset.withFetchWord 64 ((encode (.mexit (tn 0 0 0))).getD 0).toNat))
    (fun t => (aget t.teams loadTeam).any fun x => x.units.any fun u => (u.2.stream.map Stream.running) == some false) = true := by
  decide +kernel

end Sys2Proof.Tests
end

section
/-!
SUPPORT. The results of the paired word's slots: the arithmetic on numbers by which the model computes a lane gives the words of
05 R110 and R113 to R115.
-/
namespace Sys2Proof.Machine

/-! ### Numbers and 32-bit words -/

/-- The word that an integer wraps to, zero-extended. -/
theorem r32_eq_ofInt (x : Int) : r32 x = (BitVec.ofInt 32 x).zeroExtend 64 := by
  apply BitVec.eq_of_toNat_eq
  simp only [r32, wrap, BitVec.toNat_ofNat, BitVec.zeroExtend_eq_setWidth, BitVec.toNat_setWidth, BitVec.toNat_ofInt]

/-- A word as a number, signed or not. -/
def wordInt (signed : Bool) (x : Word32) : Int := if signed then x.toInt else x.toNat

/-- The word of the number of a word is the word. -/
@[simp] theorem ofInt_wordInt (signed : Bool) (x : Word32) : BitVec.ofInt 32 (wordInt signed x) = x := by
  cases signed <;> simp [wordInt]

/-- The bounds of a signed word's number. -/
theorem wordInt_true_bounds (x : Word32) : -2147483648 ≤ wordInt true x ∧ wordInt true x < 2147483648 :=
  ⟨BitVec.le_toInt x, BitVec.toInt_lt⟩

/-- The bounds of an unsigned word's number. -/
theorem wordInt_false_bounds (x : Word32) : 0 ≤ wordInt false x ∧ wordInt false x < 4294967296 :=
  ⟨Int.natCast_nonneg _, Int.ofNat_lt.mpr x.isLt⟩

/-- An operand of a 32-bit type is the number of its low word. -/
theorem opInt_eq_wordInt {t : Ty} (h : Ty.width t = 32) (x : Word64) : opInt t x = wordInt (Ty.signed t) (lo32 x) := by
  simp [opInt, h, wordInt]

/-- The comparison of words is that of their numbers. -/
theorem wordLt_eq (signed : Bool) (x y : Word32) :
    (if signed then x.slt y else x.ult y) = decide (wordInt signed x < wordInt signed y) := by
  cases signed
  · simp [wordInt, BitVec.ult]
  · simp [wordInt, BitVec.slt]

/-- An operation on numbers that agrees with one on words. -/
theorem lInt2_eq_lBit2 {t : Ty} {f : Int → Int → Int} {k : Word32 → Word32 → Word32} (ht : Ty.width t = 32)
    (h : ∀ x y, BitVec.ofInt 32 (f (wordInt (Ty.signed t) x) (wordInt (Ty.signed t) y)) = k x y) : lInt2 t f = lBit2 k := by
  funext i
  simp only [lInt2, lBit2, r32_eq_ofInt, opInt_eq_wordInt ht, h]

/-- `IADD` (05 R110). -/
theorem lInt2_add : lInt2 .i32 (· + ·) = lBit2 (· + ·) :=
  lInt2_eq_lBit2 rfl fun x y => by simp [BitVec.ofInt_add]

/-- `ISUB` (05 R110). -/
theorem lInt2_sub : lInt2 .i32 (· - ·) = lBit2 (· - ·) :=
  lInt2_eq_lBit2 rfl fun x y => by
    simp only [Int.sub_eq_add_neg, BitVec.ofInt_add, BitVec.ofInt_neg, ofInt_wordInt, BitVec.sub_eq_add_neg]

/-- `IMUL` (05 R110). -/
theorem lInt2_mul : lInt2 .i32 (· * ·) = lBit2 (· * ·) :=
  lInt2_eq_lBit2 rfl fun x y => by simp [BitVec.ofInt_mul]

/-- The high half of a 64-bit word is that of the number that wraps to it. -/
theorem extract_high_ofInt (z : Int) : (BitVec.ofInt 64 z).extractLsb' 32 32 = BitVec.ofInt 32 (z / (2 ^ 32 : Nat)) := by
  apply BitVec.eq_of_toNat_eq
  simp only [BitVec.extractLsb'_toNat, Nat.shiftRight_eq_div_pow, BitVec.toNat_ofInt]
  omega

/-- `IMULH` (05 R110). -/
theorem lInt2_imulh {t : Ty} (ht : Ty.width t = 32) : lInt2 t imulh = lBit2 (highProduct (Ty.signed t)) :=
  lInt2_eq_lBit2 ht fun x y => by
    have key : BitVec.ofInt 64 (wordInt (Ty.signed t) x * wordInt (Ty.signed t) y) =
        if Ty.signed t then x.signExtend 64 * y.signExtend 64 else x.zeroExtend 64 * y.zeroExtend 64 := by
      rw [BitVec.ofInt_mul]
      cases Ty.signed t
      · simp [wordInt, BitVec.ofNat_toNat]
      · rfl
    rw [imulh, ← extract_high_ofInt, key]
    rfl

/-- `IMIN` (05 R110). -/
theorem lInt2_min {t : Ty} (ht : Ty.width t = 32) : lInt2 t min = lBit2 (lesser (Ty.signed t)) :=
  lInt2_eq_lBit2 ht fun x y => by
    simp only [lesser, wordLt_eq, decide_eq_true_eq]
    split
    · next h => rw [min_eq_left h.le, ofInt_wordInt]
    · next h => rw [min_eq_right (not_lt.mp h), ofInt_wordInt]

/-- `IMAX` (05 R110). -/
theorem lInt2_max {t : Ty} (ht : Ty.width t = 32) : lInt2 t max = lBit2 (greater (Ty.signed t)) :=
  lInt2_eq_lBit2 ht fun x y => by
    simp only [greater, wordLt_eq, decide_eq_true_eq]
    split
    · next h => rw [max_eq_right h.le, ofInt_wordInt]
    · next h => rw [max_eq_left (not_lt.mp h), ofInt_wordInt]

/-- The overflow of a signed sum, and its side, are those of the numbers. -/
theorem addClamped_true (i : LaneIn) : addClamped true i =
    if wordInt true (lo32 i.a) + wordInt true (lo32 i.b) < -2147483648 then i.out 0x80000000 clampFlags
    else if 2147483647 < wordInt true (lo32 i.a) + wordInt true (lo32 i.b) then i.out 0x7FFFFFFF clampFlags
    else i.out ((lo32 i.a + lo32 i.b).zeroExtend 64) := by
  have hx := wordInt_true_bounds (lo32 i.a)
  have hy := wordInt_true_bounds (lo32 i.b)
  simp only [addClamped, if_true, BitVec.saddOverflow, BitVec.msb_eq_toInt, wordInt, Bool.or_eq_true, decide_eq_true_eq] at *
  generalize (lo32 i.a).toInt = x at *
  generalize (lo32 i.b).toInt = y at *
  by_cases h1 : x + y < -2147483648
  · rw [if_pos (by omega), if_pos (by omega), if_pos h1]
  · by_cases h2 : 2147483647 < x + y
    · rw [if_pos (by omega), if_neg (by omega), if_neg h1, if_pos h2]
    · rw [if_neg (by omega), if_neg h1, if_neg h2]

/-- The overflow of an unsigned sum is that of the numbers. -/
theorem addClamped_false (i : LaneIn) : addClamped false i =
    if 4294967295 < wordInt false (lo32 i.a) + wordInt false (lo32 i.b) then i.out 0xFFFFFFFF clampFlags
    else i.out ((lo32 i.a + lo32 i.b).zeroExtend 64) := by
  simp only [addClamped, Bool.false_eq_true, if_false, BitVec.uaddOverflow, wordInt, decide_eq_true_eq]
  generalize (lo32 i.a).toNat = x
  generalize (lo32 i.b).toNat = y
  by_cases h : 4294967295 < (x : Int) + y
  · rw [if_pos (by omega), if_pos h]
  · rw [if_neg (by omega), if_neg h]

/-- The word of an exact sum. -/
theorem r32_add (signed : Bool) (x y : Word32) : r32 (wordInt signed x + wordInt signed y) = (x + y).zeroExtend 64 := by
  rw [r32_eq_ofInt, BitVec.ofInt_add, ofInt_wordInt, ofInt_wordInt]

/-- The clamp to the signed words' range. -/
theorem clampInt_i32 (z : Int) : clampInt .i32 z = if z < -2147483648 then (-2147483648, clampFlags)
    else if 2147483647 < z then (2147483647, clampFlags) else (z, 0) := rfl

/-- The clamp to the unsigned words' range. -/
theorem clampInt_n32 (z : Int) : clampInt .n32 z = if z < 0 then (0, clampFlags)
    else if 4294967295 < z then (4294967295, clampFlags) else (z, 0) := rfl

/-- `IADDS` (05 R110): the clamp of the exact sum is the bound that the overflow of the words names. -/
theorem lAdds_eq_addClamped {t : Ty} (ht : t = .i32 ∨ t = .n32) : lAdds t = addClamped (Ty.signed t) := by
  funext i
  rcases ht with rfl | rfl
  · refine Eq.trans ?_ (addClamped_true i).symm
    rw [lAdds, opInt_eq_wordInt rfl, opInt_eq_wordInt rfl, ← r32_add true, show Ty.signed .i32 = true from rfl, clampInt_i32]
    split_ifs <;> rfl
  · have hx := wordInt_false_bounds (lo32 i.a)
    have hy := wordInt_false_bounds (lo32 i.b)
    refine Eq.trans ?_ (addClamped_false i).symm
    rw [lAdds, opInt_eq_wordInt rfl, opInt_eq_wordInt rfl, ← r32_add false, show Ty.signed .n32 = false from rfl, clampInt_n32,
      if_neg (by omega)]
    split_ifs <;> rfl

/-- `IABS` without `.sat` (05 R110). -/
theorem lUnaryInt_abs : lUnaryInt false (fun v => (v.natAbs : Int)) = clampedUnary false fun x => if x.msb then -x else x := by
  funext i
  have key : BitVec.ofInt 32 ((lo32 i.a).toInt.natAbs : Int) = if (lo32 i.a).msb then -lo32 i.a else lo32 i.a := by
    rw [BitVec.msb_eq_toInt]
    by_cases h : (lo32 i.a).toInt < 0
    · rw [Int.ofNat_natAbs_of_nonpos h.le, BitVec.ofInt_neg, BitVec.ofInt_toInt]
      simp [h]
    · rw [Int.natAbs_of_nonneg (not_lt.mp h), BitVec.ofInt_toInt]
      simp [h]
  show i.out (r32 ((opInt .i32 i.a).natAbs : Int)) 0 = i.out ((if (lo32 i.a).msb then -lo32 i.a else lo32 i.a).zeroExtend 64) 0
  rw [r32_eq_ofInt, ← key]
  rfl

/-- `INEG` without `.sat` (05 R110). -/
theorem lUnaryInt_neg : lUnaryInt false (fun v => -v) = clampedUnary false fun x => -x := by
  funext i
  show i.out (r32 (-opInt .i32 i.a)) 0 = i.out _ 0
  rw [r32_eq_ofInt, opInt_eq_wordInt rfl, BitVec.ofInt_neg, ofInt_wordInt]

/-! ### Shifts and counts (05 R113 to R115) -/

/-- A count of 32 or more shifts every bit out. -/
theorem shl_eq_shiftLeft (x c : Word32) : shl x c = x <<< c := by
  unfold shl
  split
  · rfl
  · next h => exact (BitVec.shiftLeft_eq_zero (not_lt.mp h)).symm

theorem shr_eq_ushiftRight (x c : Word32) : shr x c = x >>> c := by
  unfold shr
  split
  · rfl
  · next h => exact (BitVec.ushiftRight_eq_zero (not_lt.mp h)).symm

/-- A count of 32 or more leaves copies of the sign alone, as a count of 31 does. -/
theorem sar_eq_sshiftRight (x c : Word32) : sar x c = x.sshiftRight c.toNat := by
  unfold sar
  by_cases h : c.toNat < 32
  · rw [min_eq_left (by omega)]
  · apply BitVec.eq_of_getLsbD_eq
    intro k hk
    have hm : x.msb = x.getLsbD 31 := BitVec.msb_eq_getLsbD_last x
    rw [min_eq_right (by omega), BitVec.getLsbD_sshiftRight, BitVec.getLsbD_sshiftRight, if_neg (c := c.toNat + k < 32) (by omega)]
    split
    · next h31 => rw [hm, show k = 0 by omega]
    · rfl

theorem popc_eq_countP (x : Word32) : popc x = BitVec.ofNat 32 (laneIds.countP x.getLsbD) := by
  rw [popc, popcount, lanesOf, ← List.countP_eq_length_filter]

/-- From bit `n - 1` down, the bits before the highest set one are those that the binary form does not need. -/
theorem length_takeWhile_clear (x n : Nat) (h : x < 2 ^ n) :
    ((List.range n).reverse.takeWhile fun k => !x.testBit k).length = n - bitLen x ∧ bitLen x ≤ n := by
  induction n with
  | zero =>
    have : x = 0 := by omega
    simp [this, bitLen]
  | succ n ih =>
    rw [List.range_succ, List.reverse_append, List.reverse_singleton, List.singleton_append]
    by_cases hb : x.testBit n = true
    · have hn : bitLen x = n + 1 := by
        have hx : 2 ^ n ≤ x := Nat.ge_two_pow_of_testBit hb
        have h0 : x ≠ 0 := by have := Nat.two_pow_pos n; omega
        rw [bitLen, if_neg h0, (Nat.log2_eq_iff h0).mpr ⟨hx, h⟩]
      simp [hb, hn]
    · have hx : x < 2 ^ n := by
        refine Nat.lt_pow_two_of_testBit x fun k hk => ?_
        rcases Nat.eq_or_lt_of_le hk with rfl | hlt
        · exact Bool.eq_false_iff.mpr hb
        · exact Nat.testBit_lt_two_pow (lt_of_lt_of_le h (Nat.pow_le_pow_right (by decide) hlt))
      obtain ⟨hl, hle⟩ := ih hx
      simp only [List.takeWhile_cons, hb, Bool.not_false, if_true, List.length_cons, hl]
      omega

theorem clz_eq_leadingZeros (x : Word32) : clz x = leadingZeros x := by
  rw [clz, leadingZeros, ← (length_takeWhile_clear x.toNat 32 x.isLt).1]
  rfl

theorem brev_eq_reverse (x : Word32) : brev x = x.reverse := by
  apply BitVec.eq_of_getLsbD_eq
  intro k hk
  rw [brev, maskOf_getLsbD, BitVec.getLsbD_reverse, BitVec.getMsbD]

end Sys2Proof.Machine
end

section
/-!
SUPPORT. A slot of a paired word, held against the full-form instruction that it stands for (04 R87).
-/
namespace Sys2Proof.Machine

/-! ### Operands of a slot -/

/-- The form of a slot, with the results of a lane as a parameter. -/
def Slot.form (x : Slot) (f : LaneIn → LaneOut) : VecForm := .lanes x.dst x.first x.second f

/-- A register number of a slot fits the wider field of the full form (04 Tables 4.1 and 4.8). -/
theorem toNat_mod_field (n : BitVec 8) : n.toNat % 1024 = n.toNat := Nat.mod_eq_of_lt (by omega)

/-- A binary slot reads and writes what its full form does. -/
theorem Slot.two_args {x : Slot} (h : x.op.binary = true) (ty : Ty) (rnd : Rnd) (ftz : Bool) (f : LaneIn → LaneOut) :
    VecForm.two (Slot.args x ty rnd ftz) f = Slot.form x f := by
  simp [VecForm.two, Slot.form, dstV, srcA, srcB, Slot.dst, Slot.first, Slot.second, Slot.srcA, Slot.args, h, toNat_mod_field]

/-- So does a unary one. -/
theorem Slot.one_args {x : Slot} (h : x.op.binary = false) (ty : Ty) (rnd : Rnd) (ftz : Bool) (f : LaneIn → LaneOut) :
    VecForm.one (Slot.args x ty rnd ftz) f = Slot.form x f := by
  simp [VecForm.one, Slot.form, dstV, srcA, Slot.dst, Slot.first, Slot.second, Slot.srcA, Slot.args, h, toNat_mod_field]

/-! ### Modes of a slot (04 Table 4.9) -/

/-- No float slot rounds stochastically. -/
theorem Slot.rnd_ne_rs {x : Slot} (h : x.mode.toNat / 2 ≤ 4) : x.rnd ≠ .rs :=
  (by decide : ∀ m : BitVec 4, m.toNat / 2 ≤ 4 → (Rnd.ofCode (m.extractLsb' 1 3)).getD .rn ≠ .rs) x.mode h

/-- No half slot rounds stochastically. -/
theorem Slot.hrnd_ne_rs {x : Slot} (h : x.mode.toNat % 8 ≤ 4) : x.hrnd ≠ .rs :=
  (by decide : ∀ m : BitVec 4, m.toNat % 8 ≤ 4 → (Rnd.ofCode (m.extractLsb' 0 3)).getD .rn ≠ .rs) x.mode h

/-- A slot whose modifier is `.ftz` alone rounds to nearest. -/
theorem Slot.rnd_eq_rn {x : Slot} (h : x.mode.toNat ≤ 1) : x.rnd = .rn :=
  (by decide : ∀ m : BitVec 4, m.toNat ≤ 1 → (Rnd.ofCode (m.extractLsb' 1 3)).getD .rn = .rn) x.mode h

/-! ### The form that a slot stands for -/

/-- `F` reads and writes as slot `x` does, and where the slot's modifier is one that its operation allows, gives each lane the slot's
result. A 32-bit source reads as a zero-extended word. -/
def Slot.StandsFor (x : Slot) (F : VecForm) : Prop :=
  ∃ f, F = Slot.form x f ∧ (x.op.modeOk x.mode = true → ∀ i : LaneIn, (lo32 i.a).zeroExtend 64 = i.a → f i = x.effect i)

theorem Slot.StandsFor.two {x : Slot} {ty : Ty} {rnd : Rnd} {ftz : Bool} {f : LaneIn → LaneOut} (hb : x.op.binary = true)
    (hf : x.op.modeOk x.mode = true → f = x.effect) : Slot.StandsFor x (.two (Slot.args x ty rnd ftz) f) :=
  ⟨f, Slot.two_args hb ty rnd ftz f, fun hm i _ => congrFun (hf hm) i⟩

theorem Slot.StandsFor.one {x : Slot} {ty : Ty} {rnd : Rnd} {ftz : Bool} {f : LaneIn → LaneOut} (hb : x.op.binary = false)
    (hf : x.op.modeOk x.mode = true → f = x.effect) : Slot.StandsFor x (.one (Slot.args x ty rnd ftz) f) :=
  ⟨f, Slot.one_args hb ty rnd ftz f, fun hm i _ => congrFun (hf hm) i⟩

/-- The type of an integer slot is one of the two 32-bit integers. -/
theorem Slot.ity_cases (x : Slot) : x.ity = .i32 ∨ x.ity = .n32 := by
  unfold Slot.ity; split <;> simp

theorem Slot.ity_width (x : Slot) : Ty.width x.ity = 32 := by
  rcases Slot.ity_cases x with h | h <;> rw [h] <;> rfl

/-- Each slot operation has the results of the full-form instruction of its name (04 R87, Table 4.9). -/
theorem Slot.standsFor_alone (x : Slot) {F : VecForm} (hF : vecForm (Slot.alone x) = some F) : Slot.StandsFor x F := by
  obtain ⟨op, d, a, la, nw, mode⟩ := x
  cases op <;> cases hF
  case iadd => exact .two rfl fun _ => lInt2_add.symm
  case isub => exact .two rfl fun _ => lInt2_sub.symm
  case imul => exact .two rfl fun _ => lInt2_mul.symm
  case imulh => exact .two rfl fun _ => (lInt2_imulh (Slot.ity_width _)).symm
  case iadds => exact .two rfl fun _ => (lAdds_eq_addClamped (Slot.ity_cases _)).symm
  case imin => exact .two rfl fun _ => (lInt2_min (Slot.ity_width _)).symm
  case imax => exact .two rfl fun _ => (lInt2_max (Slot.ity_width _)).symm
  case iabs => exact .one rfl fun _ => lUnaryInt_abs.symm
  case ineg => exact .one rfl fun _ => lUnaryInt_neg.symm
  case shl => exact .two rfl fun _ => congrArg lBit2 (funext₂ shl_eq_shiftLeft).symm
  case shr => exact .two rfl fun _ => congrArg lBit2 (funext₂ shr_eq_ushiftRight).symm
  case sar => exact .two rfl fun _ => congrArg lBit2 (funext₂ sar_eq_sshiftRight).symm
  case popc => exact .one rfl fun _ => congrArg lBit1 (funext popc_eq_countP).symm
  case clz => exact .one rfl fun _ => congrArg lBit1 (funext clz_eq_leadingZeros).symm
  case brev => exact .one rfl fun _ => congrArg lBit1 (funext brev_eq_reverse).symm
  case mov => exact ⟨_, Slot.one_args rfl _ _ _ _, fun _ i hi => congrArg (LaneIn.out i · 0) hi.symm⟩
  case fmin | fmax =>
    exact .two rfl fun hm => congrArg (fun r => lF2 r (Slot.ftz _) _) (Slot.rnd_eq_rn (of_decide_eq_true hm))
  case land | lor | lxor | landn | rot | fadd | fsub | fmul | fscale | hadd2 | hmul2 => exact .two rfl fun _ => rfl
  case lnot | fabs | fneg | frcp | frsq | fsqrt | fex2 | flg2 | ftanh | frnd | fclass => exact .one rfl fun _ => rfl

/-! ### Results of a slot -/

/-- The source of a slot's first operand reads as a zero-extended word (02 R31). -/
theorem Slot.src_first (x : Slot) (g : Group) (l : Nat) : (lo32 (g.src x.first l)).zeroExtend 64 = g.src x.first l := by
  have low : ∀ w : Word32, (lo32 (w.zeroExtend 64)).zeroExtend 64 = w.zeroExtend 64 := fun w => by
    apply BitVec.eq_of_toNat_eq
    simp only [lo32, BitVec.zeroExtend_eq_setWidth, BitVec.toNat_setWidth, BitVec.extractLsb'_toNat, Nat.shiftRight_zero]
    omega
  unfold Slot.first Slot.srcA
  split
  · exact low _
  · split <;> exact low _

/-- The form that a slot stands for gives the slot's results. -/
theorem Slot.StandsFor.outs {x : Slot} {F : VecForm} (h : Slot.StandsFor x F) (hm : x.op.modeOk x.mode = true) (g : Group) :
    F.outs g = x.outs g := by
  obtain ⟨f, rfl, hf⟩ := h
  exact List.map_congr_left fun l _ => hf hm _ (Slot.src_first x g l)

theorem Slot.StandsFor.dst {x : Slot} {F : VecForm} (h : Slot.StandsFor x F) : F.dst = x.dst := by
  obtain ⟨f, rfl, _⟩ := h; rfl

theorem Slot.StandsFor.latches {x : Slot} {F : VecForm} (h : Slot.StandsFor x F) : F.latches = x.first.latches ++ x.second.latches := by
  obtain ⟨f, rfl, _⟩ := h; rfl

theorem Slot.StandsFor.reads {x : Slot} {F : VecForm} (h : Slot.StandsFor x F) (g : Group) :
    F.reads g = x.first.reads g.active ++ x.second.reads g.active := by
  obtain ⟨f, rfl, _⟩ := h
  show _ ++ _ ++ [] ++ [] = _
  simp

/-- A result that leaves the stochastic state of its lane (03 R59) and names no NaN (03 R68). -/
def LaneOut.Quiet (o : LaneOut) (i : LaneIn) : Prop := o.rng = i.rng ∧ o.nan = none

theorem LaneIn.out_quiet (i : LaneIn) (r : Word64) (fl : Flags) : (i.out r fl).Quiet i := ⟨rfl, rfl⟩

/-- An FP32 result is quiet in every mode but `.rs`. -/
theorem lF32_quiet {rnd : Rnd} (h : rnd ≠ .rs) (ftz : Bool) (f : FVal → FVal → FVal → Exact) (i : LaneIn) :
    (lF32 rnd ftz f i).Quiet i := ⟨if_neg h, rfl⟩

/-- So is a packed half result. -/
theorem lHalf_quiet {rnd : Rnd} (h : rnd ≠ .rs) (t : Ty) (ftz sat : Bool) (f : FVal → FVal → FVal → Exact) (i : LaneIn) :
    (lHalf t rnd ftz sat f i).Quiet i := ⟨(if_neg h).trans (if_neg h), rfl⟩

/-- A slot's results are quiet: no slot rounds stochastically (04 Table 4.9). -/
theorem Slot.effect_quiet {x : Slot} (hm : x.op.modeOk x.mode = true) (i : LaneIn) : (x.effect i).Quiet i := by
  obtain ⟨op, d, a, la, nw, mode⟩ := x
  cases op <;> simp only [Slot.effect]
  case fadd | fsub | fmul =>
    exact lF32_quiet (Slot.rnd_ne_rs (of_decide_eq_true hm)) _ _ _
  case frcp | frsq | fsqrt | fex2 | flg2 | ftanh | frnd =>
    exact lF32_quiet (Slot.rnd_ne_rs (of_decide_eq_true hm)) _ _ _
  case fscale => exact lF32_quiet (Slot.rnd_ne_rs (of_decide_eq_true hm)) _ _ _
  case fmin | fmax => exact lF32_quiet (by decide) _ _ _
  case hadd2 | hmul2 => exact lHalf_quiet (Slot.hrnd_ne_rs (of_decide_eq_true hm)) _ _ _ _ _
  all_goals exact LaneIn.out_quiet _ _ _

/-- The result of a lane is that of its operands. -/
theorem outAt_laneOuts (g : Group) (d : VDst) (a b : VSrc) (f : LaneIn → LaneOut) {l : Nat} (hl : l < 32) :
    outAt (g.laneOuts d a b f) l = f
      { a := g.src a l, b := g.src b l, d := if d.readsD then g.src (.vec d.d false) l else 0
        rng := g.rng.at l, lane := l, origin := g.payload } := by
  rw [outAt, Group.laneOuts, getD_laneIds_map, if_pos hl]

/-- What the results of a slot leave alone. -/
theorem Slot.outAt_outs {x : Slot} (hm : x.op.modeOk x.mode = true) (g : Group) {l : Nat} (hl : l < 32) :
    (outAt (x.outs g) l).rng = g.rng.at l ∧ (outAt (x.outs g) l).nan = none := by
  rw [Slot.outs, outAt_laneOuts _ _ _ _ _ hl]
  exact Slot.effect_quiet hm _

end Sys2Proof.Machine
end

section
/-!
SUPPORT. The paired word (02 R32).
-/
namespace Sys2Proof.Machine

/-! ### Results and latches -/

/-- A lane's stochastic state after the results of a member are written. -/
theorem Group.rng_writeOuts (g : Group) (d : VDst) (m : Word32) (o : List LaneOut) {l : Nat} (hl : l < 32) :
    (g.writeOuts d m o).rng.at l = if m.getLsbD l then (outAt o l).rng else g.rng.at l := by
  simp only [Group.writeOuts, Group.noteNan_rng, Lanes.at_make, hl, if_true]

/-- The flags after the results of a member are written (03 R64). -/
theorem Group.fpflags_writeOuts (g : Group) (d : VDst) (m : Word32) (o : List LaneOut) :
    (g.writeOuts d m o).fpflags = g.fpflags ||| (Flags.union ((lanesOf m).map fun l => (outAt o l).fl)).zeroExtend 64 := by
  simp only [Group.writeOuts, Group.noteNan_fpflags]
  split
  · rfl
  · split <;> rfl

/-- Results that name no NaN leave the last one that was recorded (03 R68). -/
theorem Group.lastnan_writeOuts (g : Group) (d : VDst) (m : Word32) {o : List LaneOut} (h : ∀ l < 32, (outAt o l).nan = none) :
    (g.writeOuts d m o).lastnan = g.lastnan := by
  have hn : ((lanesOf m).findSome? fun l => (outAt o l).nan) = none :=
    List.findSome?_eq_none_iff.mpr fun l hl => h l ((mem_lanesOf m l).mp hl).1
  simp only [Group.writeOuts, hn, Group.noteNan]
  split
  · rfl
  · split <;> rfl

/-- The first latch after a shift (02 R30). -/
theorem Group.latch_shiftLatches_zero (g : Group) (m : Word32) (f : Nat → Word64) {l : Nat} (hl : l < 32) :
    (g.shiftLatches m f).latch 0 l = if m.getLsbD l then f l else 0 := by
  show (laneIds.map fun l => if m.getLsbD l then f l else 0).getD l 0 = _
  rw [getD_laneIds_map, if_pos hl]

/-- The other latches after a shift (02 R30). -/
theorem Group.latch_shiftLatches_succ (g : Group) (m : Word32) (f : Nat → Word64) {k : Nat} (hk : k < 3) (l : Nat) :
    (g.shiftLatches m f).latch (k + 1) l = g.latch k l := by
  have : k = 0 ∨ k = 1 ∨ k = 2 := by omega
  rcases this with rfl | rfl | rfl <;> rfl

@[simp] theorem Group.latch_writeOuts (g : Group) (d : VDst) (m : Word32) (o : List LaneOut) (k l : Nat) :
    (g.writeOuts d m o).latch k l = g.latch k l := by
  simp only [Group.latch, Group.writeOuts_latches]

/-! ### One slot's results -/

/-- The group after the results of one slot: written, and entered into the latches. -/
def Group.slotEnd (g : Group) (d : VDst) (m : Word32) (o : List LaneOut) : Group :=
  (g.writeOuts d m o).shiftLatches m fun l => (outAt o l).r

section SlotEnd
variable (g : Group) (d : VDst) (m : Word32) (o : List LaneOut)

@[simp] theorem Group.slotEnd_lpc : (g.slotEnd d m o).lpc = g.lpc := by simp [Group.slotEnd]
@[simp] theorem Group.slotEnd_begun : (g.slotEnd d m o).begun = g.begun := by simp [Group.slotEnd]
@[simp] theorem Group.slotEnd_lastIssue : (g.slotEnd d m o).lastIssue = g.lastIssue := by simp [Group.slotEnd]
@[simp] theorem Group.s_slotEnd (n : Nat) : (g.slotEnd d m o).s n = g.s n := by simp [Group.slotEnd]
@[simp] theorem Group.m_slotEnd (n : Nat) : (g.slotEnd d m o).m n = g.m n := by simp [Group.slotEnd]
@[simp] theorem Group.slotEnd_wbase : (g.slotEnd d m o).wbase = g.wbase := by simp [Group.slotEnd]

theorem Group.slotEnd_counts :
    (g.slotEnd d m o).chain.vecs = g.chain.vecs ∧ (g.slotEnd d m o).chain.members = g.chain.members :=
  g.writeOuts_counts d m o

theorem Group.posLane_slotEnd (p : Nat) {l : Nat} (hl : l < 32) : (g.slotEnd d m o).posLane p l =
    if m.getLsbD l = true then d.put g.wbase p (outAt o l).r (g.posLane p l) else g.posLane p l :=
  g.posLane_writeOuts d m o p l hl

theorem Group.mem_marks_slotEnd (k : Mark) : k ∈ (g.slotEnd d m o).marks ↔
    k ∈ g.marks ∧ ¬(k.scalar = false ∧ m.getLsbD k.lane = true ∧ d.hits g.wbase k.reg) :=
  g.mem_marks_writeOuts d m o k

theorem Group.rng_slotEnd {l : Nat} (hl : l < 32) :
    (g.slotEnd d m o).rng.at l = if m.getLsbD l then (outAt o l).rng else g.rng.at l := g.rng_writeOuts d m o hl

theorem Group.fpflags_slotEnd : (g.slotEnd d m o).fpflags =
    g.fpflags ||| (Flags.union ((lanesOf m).map fun l => (outAt o l).fl)).zeroExtend 64 := g.fpflags_writeOuts d m o

variable {o} in
theorem Group.lastnan_slotEnd (h : ∀ l < 32, (outAt o l).nan = none) : (g.slotEnd d m o).lastnan = g.lastnan :=
  g.lastnan_writeOuts d m h

theorem Group.latch_slotEnd_zero {l : Nat} (hl : l < 32) :
    (g.slotEnd d m o).latch 0 l = if m.getLsbD l then (outAt o l).r else 0 := Group.latch_shiftLatches_zero _ _ _ hl

theorem Group.latch_slotEnd_succ {k : Nat} (hk : k < 3) (l : Nat) : (g.slotEnd d m o).latch (k + 1) l = g.latch k l := by
  rw [Group.slotEnd, Group.latch_shiftLatches_succ _ _ _ hk, Group.latch_writeOuts]

end SlotEnd

/-! ### The pair -/

@[simp] theorem Group.posLane_chainFor (g : Group) (p l : Nat) : g.chainFor.posLane p l = g.posLane p l := by
  simp [Group.posLane]

/-- The group after a paired word whose slots' results are `xs` and `ys`, both found before either is written (02 R32). -/
def Group.pairEnd (g : Group) (dx dy : VDst) (xs ys : List LaneOut) (now : Nat) : Group :=
  ((g.chainFor.slotEnd dx g.active xs).slotEnd dy g.active ys).memberEnd 2 2 now

/-- A paired word leaves what 02 R29 and R32 say, where its results are quiet. -/
theorem Group.pairDone (g : Group) (dx dy : VDst) {xs ys : List LaneOut} (now : Nat)
    (hx : ∀ l < 32, (outAt xs l).rng = g.rng.at l ∧ (outAt xs l).nan = none)
    (hy : ∀ l < 32, (outAt ys l).rng = g.rng.at l ∧ (outAt ys l).nan = none) :
    g.PairDone (g.pairEnd dx dy xs ys now) dx dy xs ys := by
  unfold Group.pairEnd
  generalize hu : g.chainFor.slotEnd dx g.active xs = u
  generalize hw : u.slotEnd dy g.active ys = w
  have hkept : g.Kept w := by
    subst hu hw
    constructor <;> simp [Group.slotEnd]
  exact
    { kept := hkept.memberEnd 2 2 now
      scalars := fun n => by
        show w.s n = _
        simp [← hw, ← hu]
      masks := fun n => by
        show w.m n = _
        simp [← hw, ← hu]
      rng := fun l hl => by
        show w.rng.at l = _
        rw [← hw, Group.rng_slotEnd _ _ _ _ hl, (hy l hl).1, ← hu, Group.rng_slotEnd _ _ _ _ hl, (hx l hl).1]
        simp
      vectors := fun p l hl => by
        show w.posLane p l = _
        rw [← hw, Group.posLane_slotEnd _ _ _ _ _ hl, ← hu, Group.posLane_slotEnd _ _ _ _ _ hl]
        split <;> simp
      marks := fun k => by
        show k ∈ w.marks ↔ _
        rw [← hw, Group.mem_marks_slotEnd, ← hu, Group.mem_marks_slotEnd]
        simp only [Group.chainFor_marks, Group.slotEnd_wbase, Group.chainFor_wbase]
        tauto
      flags := by
        show w.fpflags = _
        rw [← hw, Group.fpflags_slotEnd, ← hu, Group.fpflags_slotEnd, Group.chainFor_fpflags]
      nan := by
        show w.lastnan = _
        rw [← hw, Group.lastnan_slotEnd _ _ _ fun l hl => (hy l hl).2, ← hu,
          Group.lastnan_slotEnd _ _ _ fun l hl => (hx l hl).2, Group.chainFor_lastnan]
      latch0 := fun l hl => by
        show w.latch 0 l = _
        rw [← hw, Group.latch_slotEnd_zero _ _ _ _ hl]
      latch1 := fun l hl => by
        show w.latch 1 l = _
        rw [← hw, Group.latch_slotEnd_succ _ _ _ _ (by decide), ← hu, Group.latch_slotEnd_zero _ _ _ _ hl]
      latches := fun k hk l _ => by
        show w.latch (k + 1 + 1) l = _
        rw [← hw, Group.latch_slotEnd_succ _ _ _ _ (by omega), ← hu, Group.latch_slotEnd_succ _ _ _ _ (by omega)]
      counted := by
        obtain ⟨v1, m1⟩ := u.slotEnd_counts dy g.active ys
        obtain ⟨v2, m2⟩ := g.chainFor.slotEnd_counts dx g.active xs
        rw [hw] at v1 m1
        rw [hu] at v2 m2
        exact ⟨congrArg (· + 2) (v1.trans v2), congrArg (· + 2) (m1.trans m2)⟩
      advanced := Group.Advanced.of (h := { w with chain := _ }) hkept.live hkept.parks (by simp [← hw, ← hu]) }

/-- The slots of a pair name the latches of the forms that they stand for. -/
theorem Slot.StandsFor.pair_latches {x y : Slot} {F G : VecForm} (hF : Slot.StandsFor x F) (hG : Slot.StandsFor y G) :
    [x.first, x.second, y.first, y.second].flatMap VSrc.latches = F.latches ++ G.latches := by
  simp [hF.latches, hG.latches]

/-- They read the registers that those forms read. -/
theorem Slot.StandsFor.pair_reads {x y : Slot} {F G : VecForm} (hF : Slot.StandsFor x F) (hG : Slot.StandsFor y G) (g : Group) :
    ([x.first, x.second, y.first, y.second].flatMap fun k => k.reads g.active) = F.reads g ++ G.reads g := by
  simp [hF.reads, hG.reads]

/-- A paired word that nothing holds up writes the results of both slots, found before the pair. -/
theorem execPairedWord_next {p : PArgs} {s : State} {gid : Nat} {g : Group} {F G : VecForm} (h : s.Acts gid g)
    (hF : Slot.StandsFor p.slotA F) (hG : Slot.StandsFor p.slotB G) (hl : g.Latched (F.latches ++ G.latches))
    (hfree : g.Free (F.reads g ++ G.reads g) (F.dst.writes ++ G.dst.writes)) :
    execPairedWord p s = .next { s with
      groups := aset s.groups gid
        (g.pairEnd p.slotA.dst p.slotB.dst (p.slotA.outs g.chainFor) (p.slotB.outs g.chainFor) s.clock) } := by
  rw [← hF.pair_latches hG] at hl
  rw [← hF.pair_reads hG, hF.dst, hG.dst] at hfree
  rw [execPairedWord, onGroup_next h]
  exact congrArg Host.Outcome.next (State.member_free (s := s) (gid := gid) hl hfree _)

end Sys2Proof.Machine

namespace Sys2Proof
open Sys2Proof.Machine

/-- Settles O51: each slot has the results of its full form, and both are found before either is written. -/
theorem pairedWords : Obligations.PairedWords := by
  intro p s gid g F G hF hG hmA hmB hacts hlatch hfree
  have hA := Slot.standsFor_alone _ hF
  have hB := Slot.standsFor_alone _ hG
  refine ⟨_, execPairedWord_next hacts hA hB hlatch hfree, ?_, ?_⟩
  · exact Group.memberEnd_completed 2 2 s.clock (by simp) (by simp)
  · rw [hA.dst, hB.dst, hA.outs hmA, hB.outs hmB]
    refine g.pairDone _ _ s.clock (fun l hl => ?_) fun l hl => ?_
    · rw [← g.chainFor_rng]; exact Slot.outAt_outs hmA g.chainFor hl
    · rw [← g.chainFor_rng]; exact Slot.outAt_outs hmB g.chainFor hl

end Sys2Proof
end

section
/-!
SUPPORT. A latch that holds no result of the chain (02 R33), and the trap entry that undoes an open chain (02 R34).
-/
namespace Sys2Proof.Machine

section Maps
variable {κ α : Type} [DecidableEq κ]

/-- A key that no pair gives a value keeps it. -/
theorem aget_aputAll_of_not_mem (m ps : AMap κ α) {k : κ} (h : ∀ v, (k, v) ∉ ps) : aget (aputAll m ps) k = aget m k := by
  induction ps generalizing m with
  | nil => rfl
  | cons p ps ih =>
    have hp : k ≠ p.1 := fun e => h p.2 (e ▸ List.mem_cons_self)
    exact (ih (aset m p.1 p.2) fun v hv => h v (List.mem_cons_of_mem _ hv)).trans (aget_aset_of_ne m p.2 hp)

/-- A key of a map without repeated keys takes its value there. -/
theorem aget_aputAll_of_some (m : AMap κ α) {ps : AMap κ α} {k : κ} {v : α} (h : aget ps k = some v)
    (hn : (ps.map Prod.fst).Nodup) : aget (aputAll m ps) k = some v := by
  induction ps generalizing m with
  | nil => cases h
  | cons p ps ih =>
    obtain ⟨a, w⟩ := p
    obtain ⟨ha, hn⟩ := List.nodup_cons.mp hn
    by_cases hk : a = k
    · subst hk
      simp only [aget, if_true, Option.some.injEq] at h
      subst h
      exact (aget_aputAll_of_not_mem (aset m a w) ps fun v hv => ha (List.mem_map.mpr ⟨_, hv, rfl⟩)).trans
        (aget_aset_same m a w)
    · exact ih _ (by simpa only [aget, hk, if_false] using h) hn

end Maps

/-! ### Trap entry in an open chain -/

/-- What no write of a scalar changes, writing the trap's registers leaves. -/
theorem Group.setTrapRegs_keeps {α : Type} (field : Group → α) (h : ∀ g n v, field (g.setS n v) = field g) (g : Group)
    (ws : List Word64) : field (g.setTrapRegs ws) = field g := by
  unfold Group.setTrapRegs
  generalize List.range 8 = ks
  induction ks generalizing g with
  | nil => rfl
  | cons k ks ih => exact (ih _).trans (h g _ _)

/-- What undoing an open chain leaves (02 R34). -/
theorem Group.rollback_of_open {g : Group} (h : g.chain.isOpen = true) :
    g.rollback.vregs = aputAll g.vregs g.chain.oldVec ∧ g.rollback.fpflags = g.chain.oldFlags ∧ g.rollback.rng = g.chain.oldRng ∧
      ∀ l < 32, g.rollback.pcOf l = if g.chain.lanes.getLsbD l then g.chain.head else g.pcOf l := by
  unfold Group.rollback
  simp only [h, Bool.not_true, Bool.false_eq_true, if_false]
  exact ⟨rfl, rfl, rfl, fun l hl => Group.pcOf_setPc _ _ _ l hl⟩

/-- What trap entry in an open chain leaves is that of the chain undone (13 R356). -/
theorem Group.enter_of_open {g : Group} (ho : g.chain.isOpen = true) (t : TrapInfo) (ctx : Nat) (gen : Word32)
    (vector : WordIndex) :
    (g.enter t g.issue false ctx gen vector).vregs = g.rollback.vregs ∧
      (g.enter t g.issue false ctx gen vector).fpflags = g.rollback.fpflags ∧
      (g.enter t g.issue false ctx gen vector).rng = g.rollback.rng ∧
      ∃ sv, (g.enter t g.issue false ctx gen vector).save = some sv ∧ sv.resume = g.issue ∧
        sv.lpc = laneIds.map g.rollback.pcOf := by
  simp only [Group.enter, ho, if_true, Group.setPc_vregs, Group.setPc_fpflags, Group.setPc_rng, Group.setPc_save]
  exact ⟨Group.setTrapRegs_keeps Group.vregs (fun _ _ _ => rfl) _ _,
    Group.setTrapRegs_keeps Group.fpflags (fun _ _ _ => rfl) _ _, Group.setTrapRegs_keeps Group.rng (fun _ _ _ => rfl) _ _,
    _, Group.setTrapRegs_keeps Group.save (fun _ _ _ => rfl) _ _, rfl, rfl⟩

/-- A trap in an open chain enters with the chain undone (02 R34). -/
theorem Group.enter_unwound {g : Group} (ho : g.chain.isOpen = true) (t : TrapInfo) (ctx : Nat) (gen : Word32)
    (vector : WordIndex) : g.Unwound (g.enter t g.issue false ctx gen vector) := by
  obtain ⟨hv, hf, hr, hp⟩ := Group.rollback_of_open ho
  obtain ⟨ev, ef, er, sv, hs, hres, hlpc⟩ := Group.enter_of_open ho t ctx gen vector
  exact
    { saved := ⟨sv, hs, hres, fun l hl => by rw [hlpc, getD_laneIds_map, if_pos hl, hp l hl]⟩
      undone := fun p x hx hn l _ => by
        rw [Group.posLane, ev, hv, agetD, aget_aputAll_of_some _ hx hn, Option.getD_some]
      others := fun p hno l _ => by
        rw [Group.posLane, ev, hv, agetD, aget_aputAll_of_not_mem _ _ hno]
        rfl
      float := ⟨ef.trans hf, er.trans hr⟩ }

/-- When the group issued is nothing of what the trap undoes. -/
theorem Group.Unwound.stamped {g h : Group} (u : g.Unwound h) (n : Nat) (b : Bool) :
    g.Unwound { h with lastIssue := n, begun := b } := { u with }

/-- A trap in user mode enters the context's handler (13 R356). -/
theorem State.trap_of_user {g : Group} (s : State) (gid : Nat) (hu : g.supervisor = false) (t : TrapInfo) :
    s.trap gid g t = s.done gid (g.enter t g.issue false (s.ctxOf g) (s.ctx (s.ctxOf g)).gen
      (wordMod (s.ctx (s.ctxOf g)).vector.toNat)) := by
  simp only [State.trap, State.trapWith, hu, Bool.false_eq_true, if_false]

/-- A trap of a user's group in an open chain undoes the chain. -/
theorem State.trap_unwound {g : Group} (s : State) (gid : Nat) (ho : g.chain.isOpen = true) (hu : g.supervisor = false)
    (t : TrapInfo) : ∃ h, aget (s.trap gid g t).groups gid = some h ∧ g.Unwound h := by
  rw [s.trap_of_user gid hu]
  exact ⟨_, aget_aset_same _ _ _, (Group.enter_unwound ho _ _ _ _).stamped _ _⟩

/-! ### The latch check of members (02 R33) -/

/-- A member that names a latch without a result of its chain raises `ILLEGAL_LATCH` before anything else of it. -/
theorem State.member_unlatched (s : State) (gid : Nat) {g : Group} {ks : List Nat} (hl : ¬g.Latched ks)
    (reads : List (RegRef × Word32)) (writes : List RegRef) (k : Group → State) :
    ∃ b ∈ ks, g.chainFor.chain.vecs ≤ b ∧ s.member gid g ks reads writes k =
      s.trap gid (if g.continues then g else g.endChain) { code := 0x02, s59 := s.word.toNat, s60 := b } := by
  have hsome : (ks.find? fun b => decide (g.chainFor.chain.vecs < b + 1)).isSome := by
    simp only [Group.Latched, not_forall, not_lt] at hl
    obtain ⟨b, hb, hle⟩ := hl
    exact List.find?_isSome.mpr ⟨b, hb, by simpa [Nat.lt_succ_iff] using hle⟩
  obtain ⟨b, hb⟩ := Option.isSome_iff_exists.mp hsome
  have hle := List.find?_some hb
  refine ⟨b, List.mem_of_find?_eq_some hb, Nat.lt_succ_iff.mp (of_decide_eq_true hle), ?_⟩
  have hg : (if g.continues then g.chainFor else g.endChain) = if g.continues then g else g.endChain := by
    unfold Group.chainFor
    split <;> rfl
  simp only [State.member, hb, hg]
  rfl

/-- The outcome is that of a chain member that names the latches `ks`. -/
def State.RunsMember (s : State) (gid : Nat) (g : Group) (ks : List Nat) (o : Host.Outcome State Fault Refusal) : Prop :=
  ∃ reads writes k, o = .next (s.member gid g ks reads writes k)

theorem runVecG_runsMember {s : State} {gid : Nat} {g : Group} (h : s.Acts gid g) (d : VDst) (a b : VSrc)
    (extra : Group → List (RegRef × Word32)) (f : Group → LaneIn → LaneOut) :
    s.RunsMember gid g (a.latches ++ b.latches) (runVecG s d a b extra f) := ⟨_, _, _, onGroup_next h _⟩

theorem runShuffle_runsMember {s : State} {gid : Nat} {g : Group} (h : s.Acts gid g) (d : VDst) (a b : VSrc) (md mk : Nat) :
    s.RunsMember gid g (a.latches ++ b.latches) (runShuffle s d a b md mk) := ⟨_, _, _, onGroup_next h _⟩

theorem execIaddc_runsMember {s : State} {gid : Nat} {g : Group} (h : s.Acts gid g) (a : VArgs) :
    s.RunsMember gid g (carryForm a).latches (execIaddc a s) := ⟨_, _, _, onGroup_next h _⟩

/-- A scaled dot product, or the unscaled one of integers, by its type (05 R131, R132). -/
theorem dotInt_runsMember {s : State} {gid : Nat} {g : Group} (h : s.Acts gid g) (a : VArgs) (t : Ty) (step : Bool) (w : Nat) :
    s.RunsMember gid g (if a.ty = .f32 then VecForm.dot a t step else .three a (lDotInt w)).latches
      (if a.ty = .f32 then runDot s a t step else vec3 s a (lDotInt w)) := by
  split
  · exact runVecG_runsMember h _ _ _ _ _
  · exact runVecG_runsMember h _ _ _ _ _

/-- Every vector word is a member that names the latches of its form. -/
theorem exec_runsMember {i : Instr} {F : VecForm} {s : State} {gid : Nat} {g : Group} (hF : vecForm i = some F)
    (h : s.Acts gid g) : s.RunsMember gid g F.latches (exec i s) := by
  cases i <;> cases hF
  case shfl | shflImm => exact runShuffle_runsMember h _ _ _ _ _
  case dot4I8 a => exact dotInt_runsMember h a .i8 false 8
  case dot8I4 a => exact dotInt_runsMember h a .i4 true 4
  all_goals exact runVecG_runsMember h _ _ _ _ _

/-- A paired word is a member that names the latches of both slots' forms (02 R32). -/
theorem execPairedWord_runsMember {s : State} {gid : Nat} {g : Group} {p : PArgs} {F G : VecForm} (h : s.Acts gid g)
    (hF : vecForm (Slot.alone p.slotA) = some F) (hG : vecForm (Slot.alone p.slotB) = some G) :
    s.RunsMember gid g (F.latches ++ G.latches) (execPairedWord p s) := by
  rw [← (Slot.standsFor_alone _ hF).pair_latches (Slot.standsFor_alone _ hG)]
  exact ⟨_, _, _, onGroup_next h _⟩

end Sys2Proof.Machine

namespace Sys2Proof
open Sys2Proof.Machine

/-- Settles O52: each of these words is a member that names `ks`, and the latch check is the first thing a member does. -/
theorem latchTraps : Obligations.LatchTraps := by
  intro i ks s gid g hi hacts hlatch
  have hrun : s.RunsMember gid g ks (exec i s) := by
    rcases hi with ⟨F, hF, rfl⟩ | ⟨a, rfl, rfl⟩ | ⟨p, F, G, rfl, hF, hG, rfl⟩
    · exact exec_runsMember hF hacts
    · exact execIaddc_runsMember hacts a
    · exact execPairedWord_runsMember hacts hF hG
  obtain ⟨reads, writes, k, hexec⟩ := hrun
  obtain ⟨b, hb, hle, htrap⟩ := s.member_unlatched gid hlatch reads writes k
  rw [hexec, htrap]
  refine ⟨b, hb, hle, rfl, fun hc hu => ?_⟩
  have ho : g.chain.isOpen = true := by
    simp only [Group.continues, Bool.and_eq_true] at hc
    exact hc.1.1
  rw [if_pos hc]
  obtain ⟨h, hh, hun⟩ := s.trap_unwound gid ho hu { code := 0x02, s59 := s.word.toNat, s60 := b }
  exact ⟨_, h, rfl, hh, hun⟩

end Sys2Proof
end

section
/-!
SUPPORT. The words that change no register, `NOP` and `YIELD` (05 R149, R151).
-/
namespace Sys2Proof.Machine

/-! ### The end of a word that is no chain member -/

/-- The group after a word that is no chain member and that left it as `g`: the lanes advanced, the issue noted (08 R258). -/
def Group.plainEnd (g : Group) (now : Nat) : Group := { g.advance with lastIssue := g.issuedAt now, begun := false }

/-- No register of a word that names none holds it up. -/
theorem Group.free_nil (g : Group) : g.Free [] [] :=
  ⟨by simp [Group.anyPending, refsOf], by simp [Group.deferred?]⟩

/-- A word that is no chain member and writes only registers completes where nothing holds it up. -/
theorem runPlain_completes {s : State} {gid : Nat} {g : Group} {reads : Group → List (RegRef × Word32)} {writes : List RegRef}
    (h : s.Acts gid g) (hfree : g.endChain.Free (reads g.endChain) writes) (f : Group → Group) :
    runPlain s reads writes f = .next { s with groups := aset s.groups gid ((f g.endChain).plainEnd s.clock) } := by
  have hgoes := State.ready_free (s := s) (gid := gid) hfree (s.done gid (f g.endChain).advance)
  rw [runPlain, onGroupPlain_done h ((congrArg State.stalled hgoes).trans h.untried), hgoes]
  rfl

/-! ### What the two words do -/

/-- The group with its chain ended and held by `w`: all that the two words do to it before its lanes advance. -/
def Group.idle (g : Group) (w : Hold) : Group := { g.endChain with hold := w }

/-- `NOP` keeps the hold as it stands. -/
theorem execNop_next {s : State} {gid : Nat} {g : Group} (h : s.Acts gid g) (a : SArgs) :
    execNop a s = .next { s with groups := aset s.groups gid ((g.idle g.hold).plainEnd s.clock) } :=
  runPlain_completes h g.endChain.free_nil _

/-- The hold that `YIELD` sets: for the other groups of the quarter that could issue, or none (05 R149). -/
def State.yieldHold (s : State) (gid : Nat) (g : Group) : Hold :=
  let others := (s.groups.filter fun e =>
    e.1 != gid && s.coreOf e.2 == s.coreOf g && s.quarterOf e.2 == s.quarterOf g && s.couldIssue e.2).map Prod.fst
  if others.isEmpty then .none else .yielded others 32

/-- `YIELD` sets its hold. -/
theorem execYield_next {s : State} {gid : Nat} {g : Group} (h : s.Acts gid g) (a : SArgs) :
    execYield a s = .next { s with groups := aset s.groups gid ((g.idle (s.yieldHold gid g)).plainEnd s.clock) } :=
  onGroupPlain_done h h.untried

/-! ### What they leave -/

/-- Nothing but the hold changes of what neither a member nor a register write changes. -/
theorem Group.kept_idle_plainEnd (g : Group) (w : Hold) (now : Nat) :
    g.Kept { (g.idle w).plainEnd now with hold := g.hold } := by
  constructor <;> rfl

/-- No register changes (05 R151). -/
theorem Group.sameRegisters_idle_plainEnd (g : Group) (w : Hold) (now : Nat) :
    g.SameRegisters ((g.idle w).plainEnd now) where
  vectors _ _ _ := rfl
  scalars _ := rfl
  masks _ := rfl
  float := ⟨rfl, rfl, rfl⟩

end Sys2Proof.Machine

namespace Sys2Proof
open Sys2Proof.Machine

/-- Settles O53: both words leave the group with its chain ended, its lanes advanced and, after `YIELD`, a hold set. -/
theorem nopAndYield : Obligations.NopAndYield := by
  rintro i s gid g ⟨a, hi⟩ hacts
  have hrun : ∃ w, exec i s = .next { s with groups := aset s.groups gid ((g.idle w).plainEnd s.clock) } := by
    rcases hi with rfl | rfl
    · exact ⟨g.hold, execNop_next hacts a⟩
    · exact ⟨s.yieldHold gid g, execYield_next hacts a⟩
  obtain ⟨w, hexec⟩ := hrun
  obtain ⟨hvec, hsca, hmask, hfloat⟩ := g.sameRegisters_idle_plainEnd w s.clock
  exact ⟨_, hexec, hvec, hsca, hmask, hfloat, g.kept_idle_plainEnd w s.clock, rfl, rfl, rfl⟩

end Sys2Proof
end

section
/-!
SUPPORT. The even plan: an entry is a word of eight bytes, each of which holds a channel (12 R325, R326).
-/
namespace Sys2Proof.Machine

/-- The six-bit field in byte `k` of a number that is written in bytes below 64. -/
theorem field_ofDigits {ds : List Nat} (hds : ∀ d ∈ ds, d < 64) (k : Nat) :
    field (Nat.ofDigits 256 ds) (8 * k) 6 = ds.getD k 0 := by
  have hskip : Nat.ofDigits 256 ds / 2 ^ (8 * k) = Nat.ofDigits 256 (ds.drop k) := by
    rw [Nat.pow_mul]
    exact Nat.ofDigits_div_pow_eq_ofDigits_drop k (by decide) ds fun d hd => (hds d hd).trans (by decide)
  rw [field, hskip, List.getD_eq_getElem?_getD, ← List.head?_drop]
  cases hrest : ds.drop k with
  | nil => rfl
  | cons d rest =>
    have hd : d < 64 := hds d (List.mem_of_mem_drop (hrest ▸ List.mem_cons_self))
    rw [Nat.ofDigits_cons, List.head?_cons, Option.getD_some]
    omega

/-- A channel of the even plan fits a six-bit field. -/
theorem evenChannel_lt (f l : Nat) : evenChannel f l < 64 := by
  rw [evenChannel]
  omega

/-- The bytes of an entry of the even plan: the channels of the lasers, then those of the receivers (12 R326). -/
def evenBytes (f : Nat) : List Nat := (List.range 4).map (evenChannel f) ++ (List.range 4).map (evenChannel f)

/-- Each byte is a channel. -/
theorem lt_of_mem_evenBytes {f d : Nat} (h : d ∈ evenBytes f) : d < 64 := by
  obtain ⟨l, -, rfl⟩ : ∃ l, l < 4 ∧ evenChannel f l = d := by simpa [evenBytes] using h
  exact evenChannel_lt f l

/-- The bytes of a word are eight. -/
theorem length_evenBytes (f : Nat) : (evenBytes f).length = 8 := by simp [evenBytes]

/-- The eight bytes fit a word. -/
theorem ofDigits_evenBytes_lt (f : Nat) : Nat.ofDigits 256 (evenBytes f) < 2 ^ 64 :=
  calc Nat.ofDigits 256 (evenBytes f)
      < 256 ^ (evenBytes f).length :=
        Nat.ofDigits_lt_base_pow_length (by decide) fun _ hd => (lt_of_mem_evenBytes hd).trans (by decide)
    _ = 2 ^ 64 := by rw [length_evenBytes]; norm_num

/-- A sum over the four lasers of a fibre. -/
theorem sum_map_range_four (g : Nat → Nat) : ((List.range 4).map g).sum = g 0 + g 1 + g 2 + g 3 := by
  simp [List.sum_range_succ]

/-- The sum that an entry of the even plan is built from writes its eight bytes, the first one lowest. -/
theorem sum_evenChannel (f : Nat) :
    ((List.range 4).map fun l => evenChannel f l * 2 ^ (8 * l) + evenChannel f l * 2 ^ (32 + 8 * l)).sum
      = Nat.ofDigits 256 (evenBytes f) := by
  have hrange : List.range 4 = [0, 1, 2, 3] := rfl
  rw [sum_map_range_four]
  simp only [evenBytes, hrange, List.map_cons, List.map_nil, List.cons_append, List.nil_append, Nat.ofDigits_cons,
    Nat.ofDigits_nil]
  ring

/-- An entry of the even plan holds its eight bytes. -/
theorem evenEntry_toNat (f : Nat) : (evenEntry f).toNat = Nat.ofDigits 256 (evenBytes f) := by
  rw [evenEntry, sum_evenChannel, BitVec.toNat_ofNat, Nat.mod_eq_of_lt (ofDigits_evenBytes_lt f)]

/-- The channel of a laser in an entry of the even plan. -/
theorem field_evenEntry_laser (f : Nat) {k : Nat} (hk : k < 4) : field (evenEntry f).toNat (8 * k) 6 = evenChannel f k := by
  rw [evenEntry_toNat, field_ofDigits (fun _ => lt_of_mem_evenBytes), evenBytes,
    List.getD_append _ _ _ _ (by simpa using hk)]
  simp [hk]

/-- The channel of a receiver in an entry of the even plan. -/
theorem field_evenEntry_receiver (f : Nat) {k : Nat} (hk : k < 4) :
    field (evenEntry f).toNat (32 + 8 * k) 6 = evenChannel f k := by
  have hpos : 32 + 8 * k = 8 * (4 + k) := by omega
  rw [hpos, evenEntry_toNat, field_ofDigits (fun _ => lt_of_mem_evenBytes), evenBytes,
    List.getD_append_right _ _ _ _ (by simp)]
  simp [hk]

/-- At reset the written entries are those of the even plan. -/
theorem State.reset_planEntry (f : Nat) : State.reset.planEntry f = evenEntry f := rfl

/-- At reset the even plan is in force. -/
theorem State.reset_channel (link : Nat) : State.reset.channel link = evenChannel (link / 4) (link % 4) :=
  field_evenEntry_laser (link / 4) (Nat.mod_lt link (by decide))

end Sys2Proof.Machine

namespace Sys2Proof
open Sys2Proof.Machine

/-- Settles O54: the written entry and the one in force are both the even one, which holds each channel in a byte of its own. -/
theorem evenPlanAtReset : Obligations.EvenPlanAtReset := by
  intro f _ k hk
  have hfibre : (4 * f + k) / 4 = f := by omega
  have hlaser : (4 * f + k) % 4 = k := by omega
  refine ⟨?_, ?_, ?_⟩
  · rw [State.reset_planEntry]
    exact field_evenEntry_laser f hk
  · rw [State.reset_planEntry]
    exact field_evenEntry_receiver f hk
  · rw [State.reset_channel, hfibre, hlaser, evenChannel]

end Sys2Proof
end
